-- ==== Sys2Proof/Word.lean ====
section
/-! DEFINITION. The word types of the HQ9 and the names of its engines (spec/00_scope.md R1, R6). -/

namespace Sys2Proof

/-- A byte of any memory (R6). -/
abbrev Byte := BitVec 8
/-- A 32-bit Miolos word, vector lane or micro register (R215, R269, R390). -/
abbrev W32 := BitVec 32
/-- A scalar or system register value (R238). -/
abbrev W64 := BitVec 64

/-- A byte with the poison it carries (R54). -/
abbrev PByte := BitVec 8 × Bool

/-- The seven engines that produce tokens, with the codes of R1; the prefix code 7 is no engine of words. -/
inductive Eng where
  | s | l | v | x | m | c | q
  deriving DecidableEq, Repr

/-- Where a steered word came from (R405): fetched, replayed by the loop buffer, or emitted by Wick. -/
inductive Origin where
  | fetched | replayed | emitted
  deriving DecidableEq, Repr


/-- Who asked for a management operation: handler-mode software of a core, or the host's channel (R27, R415). -/
inductive Requester where
  | core (c : Nat)
  | host (tag : Nat)
  deriving DecidableEq, Repr

/-- Bytes that land in a scratchpad, the barrier the landing decrements (R86, R350), and what is then subtracted from it
without bytes: a settlement (R350), or bytes that landed elsewhere, with their poison. -/
structure Delivery where
  off  : Nat
  data : List PByte
  bar  : Option Nat
  rest : Nat
  pois : Bool
  deriving DecidableEq, Repr

/-- A remote atomic message (R69, R358): the operation, its width, the offset, the operand, and the command of a
core of this device that waits for it. -/
structure AtomicMsg where
  op    : BitVec 4
  wide  : Bool
  off   : Nat
  val   : BitVec 64
  owner : Option (Nat × Nat)
  deriving DecidableEq, Repr

/-- One element of a collective's source: its bits and its poison (R366). -/
structure PElem where
  bits : Nat
  pois : Bool
  deriving DecidableEq, Repr

/-- The header of a chain part (R324). -/
structure PartHead where
  k    : Nat
  s0   : Nat
  n    : Nat
  prof : Nat
  w    : Nat
  pres : Nat
  deriving DecidableEq, Repr

/-- A participant's arrival at a Prism unit (R365 to R367): its descriptor's fields, the profile, the element count, the
part's header, the source with its format (an element of an MX format in bits [7:0], its scale above), the cause (R151) of a
participant whose own command cannot be carried out, the table, the device and core it comes from, and its command or packet
where that is one of this device. -/
structure Arrival where
  gid   : Nat
  np    : Nat
  me    : Nat
  op    : Nat
  cvt   : Bool
  part  : Bool
  logl  : Nat
  k     : Nat
  prof  : Nat
  count : Nat
  head  : Option PartHead
  fmt   : Nat
  src   : List PElem
  fail  : Option Nat
  tab   : List (Nat × Nat)
  dev   : Nat
  core  : Nat
  owner : Option (Nat × Nat)
  deriving DecidableEq, Repr

/-- A carry image on its way to a core (R357): the sending device, the target core, the landing, and the command
of a core of this device that waits for it. -/
structure CarryMsg where
  src   : Nat
  core  : Nat
  d     : Delivery
  owner : Option (Nat × Nat)
  deriving DecidableEq, Repr

/-- A shootdown request (R27): context, first 64 KiB unit, number of units (0: the whole context). -/
structure ShootReq where
  src   : Requester
  ctx   : Nat
  vpn   : Nat
  units : Nat
  deriving DecidableEq, Repr

/-- A holder's answer to a forwarded line (R124); NOT_PRESENT with its CAUSE of R23 (R33). -/
inductive LineStatus where
  | ok
  | notPresent (cause : Nat)
  | ownership
  deriving DecidableEq, Repr

/-- A hub-table operation (R32): the table (true: remote windows), the index, and HTD0 to HTD7. -/
structure TableReq where
  src    : Requester
  window : Bool
  idx    : Nat
  words  : List W64
  deriving DecidableEq, Repr

/-- A request to a stack controller (R37, R41): device physical address, length, the bytes written if it is a write,
and the format it carries. -/
structure MemReq where
  id    : Nat
  addr  : Nat
  len   : Nat
  write : Option (List PByte)
  gran  : BitVec 2
  tol   : Bool
  tcls  : BitVec 3
  deriving DecidableEq, Repr

/-- What the array does to a unit that is read (R45, R46, R47): the unit, the bits of it that have flipped (data bits from 0 on, its
check bits after them), and the unit whose address tag the bits served were written under, where that is another one. Which errors
occur is the outside world's doing. -/
structure UnitErr where
  unit  : Nat
  flips : List Nat
  other : Option Nat
  deriving DecidableEq, Repr

/-- A format of a range of frames (R38). -/
structure FormatReq where
  core  : Nat
  pa    : Nat
  units : Nat
  gran  : BitVec 2
  tol   : Bool
  tcls  : BitVec 3
  deriving DecidableEq, Repr

/-- A page operation (R133): VPN × 65,536, PGOPDST, the completion area, SIZE and CTX. -/
structure PageReq where
  src  : Requester
  va   : Nat
  dst  : W64
  ca   : Nat
  size : BitVec 2
  ctx  : Nat
  deriving DecidableEq, Repr

/-- A queue operation (R139): QARG, QID and the caller's translation context. -/
structure QueueReq where
  src : Requester
  ctx : Nat
  qid : Nat
  arg : W64
  deriving DecidableEq, Repr

/-- An inbound RDMA operation (R413). -/
structure RdmaReq where
  qp   : Nat
  rkey : BitVec 32
  va   : Nat
  len  : Nat
  data : List Byte
  deriving DecidableEq, Repr

/-- An inbound Fylvathen access (R419): the sender, the address, the bytes of a write (none: a read of `len` bytes),
whether it is marked as a signal access (R147), and for an atomic its operation, width and operands: 4 to 11 the atomics
of R333 by their device opcodes, 12 waitv, 13 ntone, 14 ntall, 16 to 19 a signal operation (R146), 20 to 23 with NOTIFY. -/
structure PeerReq where
  src    : Nat
  va     : Nat
  len    : Nat
  data   : Option (List PByte)
  signal : Bool
  op     : Nat
  wide   : Bool
  val    : W64
  cmp    : W64
  deriving DecidableEq, Repr

/-- A position-map range with its context (R376). -/
structure MapRange where
  va  : Nat
  len : Nat
  ctx : Nat
  deriving DecidableEq, Repr

/-- An outbound queue pair (R415): create or destroy, remote QPN, GID and initial PSN. -/
structure QpReq where
  create : Bool
  qp     : Nat
  qpn    : Nat
  gid    : Nat
  psn    : Nat
  deriving DecidableEq, Repr

/-- Routing-table entries (DST and port mask) and this device's identifier (R420). -/
structure RouteReq where
  entries : List (Nat × BitVec 36)
  devid   : Option Nat
  deriving DecidableEq, Repr

/-- A firmware image with the request's signature (R415, R423). -/
structure FwReq where
  image : List Byte
  sig   : List Byte
  deriving DecidableEq, Repr

/-- The life-cycle states (R426). -/
inductive LifeState where
  | manufacture | provisioned | deployed | returned
  deriving DecidableEq, Repr

/-- A LIFECYCLE request (R426): the new state, the owner key's hash, and the signature. -/
structure LifeReq where
  dest  : LifeState
  owner : List Byte
  sig   : List Byte
  deriving DecidableEq, Repr

/-- A DEBUGUNLOCK token (R427): serial, state, nonce and signature. -/
structure UnlockReq where
  serial : List Byte
  state  : LifeState
  nonce  : Nat
  sig    : List Byte
  deriving DecidableEq, Repr

/-- What the outside world supplies at power-on (R428): the image that network recovery would fetch (R424). -/
structure BootReq where
  recovered : Option (List Byte)
  ctxBase   : Nat
  shzBase   : Nat
  shzLen    : Nat
  frtBase   : W64
  deriving DecidableEq, Repr

end Sys2Proof
end

