-- ==== Sys2Proof/Syntax.lean ====
section
/-! DEFINITION. The instructions and events of the HQ9: one constructor for each row of spec/opcode_table.json, the
Miolos words and micro-operations first. A word carries its operand fields, an immediate already extended as R220 gives;
a long head carries PROF and FLAGS of its TAIL (R221). A row that is no word (an event of the device) carries what the
event names. -/

namespace Sys2Proof

/-- The instructions and events: one constructor per row of spec/opcode_table.json. -/
inductive Instr where
  /-- ADD (R240): Writes sA + sB modulo 2^64 to sD. -/
  | add (d : BitVec 5) (a : BitVec 5) (b : BitVec 5)
  /-- SUB (R240): Writes sA − sB modulo 2^64 to sD. -/
  | sub (d : BitVec 5) (a : BitVec 5) (b : BitVec 5)
  /-- MUL (R240): Writes the low 64 bits of sA × sB to sD. -/
  | mul (d : BitVec 5) (a : BitVec 5) (b : BitVec 5)
  /-- MULH (R240): Writes the high 64 bits of the signed product to sD. -/
  | mulh (d : BitVec 5) (a : BitVec 5) (b : BitVec 5)
  /-- MULHN (R240): Writes the high 64 bits of the unsigned product to sD. -/
  | mulhn (d : BitVec 5) (a : BitVec 5) (b : BitVec 5)
  /-- DIV (R241): Signed division truncating toward zero, with the fixed outcomes for zero and overflow, over 36 slots. -/
  | div (d : BitVec 5) (a : BitVec 5) (b : BitVec 5)
  /-- DIVN (R241): Unsigned division, with the fixed outcome for a zero divisor. -/
  | divn (d : BitVec 5) (a : BitVec 5) (b : BitVec 5)
  /-- REM (R241): Signed remainder, with the sign of the dividend. -/
  | rem (d : BitVec 5) (a : BitVec 5) (b : BitVec 5)
  /-- REMN (R241): Unsigned remainder. -/
  | remn (d : BitVec 5) (a : BitVec 5) (b : BitVec 5)
  /-- AND (R240): Writes sA AND sB to sD. -/
  | and (d : BitVec 5) (a : BitVec 5) (b : BitVec 5)
  /-- OR (R240): Writes sA OR sB to sD. -/
  | or (d : BitVec 5) (a : BitVec 5) (b : BitVec 5)
  /-- XOR (R240): Writes sA XOR sB to sD. -/
  | xor (d : BitVec 5) (a : BitVec 5) (b : BitVec 5)
  /-- ANDN (R240): Writes sA AND NOT sB to sD. -/
  | andn (d : BitVec 5) (a : BitVec 5) (b : BitVec 5)
  /-- SLL (R240): Shifts sA left by sB[5:0]. -/
  | sll (d : BitVec 5) (a : BitVec 5) (b : BitVec 5)
  /-- SRL (R240): Shifts sA right logically by sB[5:0]. -/
  | srl (d : BitVec 5) (a : BitVec 5) (b : BitVec 5)
  /-- SRA (R240): Shifts sA right arithmetically by sB[5:0]. -/
  | sra (d : BitVec 5) (a : BitVec 5) (b : BitVec 5)
  /-- CLZ (R240): Counts leading zero bits of sA. -/
  | clz (d : BitVec 5) (a : BitVec 5)
  /-- CTZ (R240): Counts trailing zero bits of sA. -/
  | ctz (d : BitVec 5) (a : BitVec 5)
  /-- POPC (R240): Counts one bits of sA. -/
  | popc (d : BitVec 5) (a : BitVec 5)
  /-- SLT (R240): Sets sD to 1 when sA is below sB, signed. -/
  | slt (d : BitVec 5) (a : BitVec 5) (b : BitVec 5)
  /-- SLTN (R240): Sets sD to 1 when sA is below sB, unsigned. -/
  | sltn (d : BitVec 5) (a : BitVec 5) (b : BitVec 5)
  /-- SEQ (R240): Sets sD to 1 when sA equals sB. -/
  | seq (d : BitVec 5) (a : BitVec 5) (b : BitVec 5)
  /-- SEL (R240): Selects sA when sC is nonzero, else sB. -/
  | sel (d : BitVec 5) (a : BitVec 5) (b : BitVec 5) (c : BitVec 5)
  /-- SYSR (R249): Reads the system register named by idx into sD, with the mode checks. -/
  | sysr (d : BitVec 5) (x : BitVec 12)
  /-- SYSW (R249): Writes sA to the system register named by idx, with the ordered access, reserved-bit and value checks. -/
  | sysw (a : BitVec 5) (x : BitVec 12)
  /-- TRAP (R252): Raises BREAK with the immediate in ESTAT and EPC at the next group. -/
  | trap (i : BitVec 16)
  /-- ERET (R253): Returns from handler mode to task mode at EPC, applying the skip counts. -/
  | eret
  /-- BKPT (R252): Raises BREAK with the immediate in ESTAT and EPC at its own group. -/
  | bkpt (i : BitVec 16)
  /-- NOP (R253): Occupies one slot and produces a token. -/
  | nop
  /-- END (R253): Ends the task; the splitter stops and the commit follows. -/
  | endTask
  /-- WSTART (R254): Writes WSTART and hands the engine queues to Wick until stopw. -/
  | wstart (a : BitVec 5) (b : BitVec 5)
  /-- ADDI (R242): Adds the zero-extended immediate to sA. -/
  | addi (d : BitVec 5) (a : BitVec 5) (i : BitVec 32)
  /-- ANDI (R242): ANDs sA with the zero-extended immediate. -/
  | andi (d : BitVec 5) (a : BitVec 5) (i : BitVec 32)
  /-- ORI (R242): ORs sA with the zero-extended immediate. -/
  | ori (d : BitVec 5) (a : BitVec 5) (i : BitVec 32)
  /-- XORI (R242): XORs sA with the zero-extended immediate. -/
  | xori (d : BitVec 5) (a : BitVec 5) (i : BitVec 32)
  /-- SLTI (R242): Sets sD when sA is below the sign-extended immediate. -/
  | slti (d : BitVec 5) (a : BitVec 5) (i : BitVec 32)
  /-- SLLI (R242): Shifts sA left by imm[5:0]. -/
  | slli (d : BitVec 5) (a : BitVec 5) (i : BitVec 6)
  /-- SRLI (R242): Shifts sA right logically by imm[5:0]. -/
  | srli (d : BitVec 5) (a : BitVec 5) (i : BitVec 6)
  /-- SRAI (R242): Shifts sA right arithmetically by imm[5:0]. -/
  | srai (d : BitVec 5) (a : BitVec 5) (i : BitVec 6)
  /-- MOVI (R243): Writes the sign-extended immediate to sD. -/
  | movi (d : BitVec 5) (i : BitVec 32)
  /-- MOVH (R243): Places the immediate in sD[63:32], keeping sD[31:0]. -/
  | movh (d : BitVec 5) (i : BitVec 32)
  /-- LDSP (R244): Loads 1 to 8 scratchpad bytes, zero-extended, with alignment and poison checks. -/
  | ldsp (d : BitVec 5) (a : BitVec 5) (w : BitVec 2) (i : BitVec 32)
  /-- STSP (R244): Stores the low bytes of sD to the scratchpad. -/
  | stsp (d : BitVec 5) (a : BitVec 5) (w : BitVec 2) (i : BitVec 32)
  /-- LDSLOT (R245): Loads slot-memory bytes at an immediate offset. -/
  | ldslot (d : BitVec 5) (w : BitVec 2) (i : BitVec 14)
  /-- STSLOT (R245): Stores low bytes of sD to slot memory at an immediate offset. -/
  | stslot (d : BitVec 5) (w : BitVec 2) (i : BitVec 14)
  /-- MIN (R240): Signed minimum of sA and sB. -/
  | min (d : BitVec 5) (a : BitVec 5) (b : BitVec 5)
  /-- MAX (R240): Signed maximum of sA and sB. -/
  | max (d : BitVec 5) (a : BitVec 5) (b : BitVec 5)
  /-- LDH (R246): Plain load of device memory through a handle, with the seven ordered checks. -/
  | ldh (d : BitVec 5) (h : BitVec 4) (b : BitVec 5) (w : BitVec 2)
  /-- STH (R246): Plain store through a handle into the plain-access buffer. -/
  | sth (d : BitVec 5) (h : BitVec 4) (b : BitVec 5) (w : BitVec 2)
  /-- MINN (R240): Unsigned minimum of sA and sB. -/
  | minn (d : BitVec 5) (a : BitVec 5) (b : BitVec 5)
  /-- MAXN (R240): Unsigned maximum of sA and sB. -/
  | maxn (d : BitVec 5) (a : BitVec 5) (b : BitVec 5)
  /-- XLAT (R24): Translates a virtual address into a handle, written 8 scalar slots later. -/
  | xlat (h : BitVec 4) (n : BitVec 2) (a : BitVec 5)
  /-- B (R247): Unconditional branch by a signed word offset. -/
  | b (i : BitVec 32)
  /-- BC (R247): Branches when sA and sB satisfy the condition. -/
  | bc (a : BitVec 5) (b : BitVec 5) (c : BitVec 3) (i : BitVec 32)
  /-- BZ (R247): Branches when sA is zero. -/
  | bz (a : BitVec 5) (i : BitVec 32)
  /-- BNZ (R247): Branches when sA is nonzero. -/
  | bnz (a : BitVec 5) (i : BitVec 32)
  /-- CALL (R248): Writes the return address to s31 and branches. -/
  | call (i : BitVec 32)
  /-- JR (R248): Sets the program counter to sA. -/
  | jr (a : BitVec 5)
  /-- LOOP (R258): Sets the pending extent of one nest level. -/
  | loop (k : BitVec 3) (a : BitVec 5) (i : BitVec 32)
  /-- LBODY (R259): Captures and checks a body of n words and starts replaying it over the nest. -/
  | lbody (k : BitVec 3) (i : BitVec 32)
  /-- LBRK (R261): Ends part of a nest when the mask satisfies its condition. -/
  | lbrk (x : BitVec 3) (k : BitVec 3) (m : BitVec 3)
  /-- AGSET (R263): Resets a generator and sets its base. -/
  | agset (g : BitVec 3) (a : BitVec 5) (i : BitVec 32)
  /-- AGDIM (R263): Sets extent and stride of one generator dimension. -/
  | agdim (g : BitVec 3) (k : BitVec 3) (a : BitVec 5) (b : BitVec 5)
  /-- AGIND (R264): Makes one generator dimension indirect through a scratchpad table. -/
  | agind (g : BitVec 3) (k : BitVec 3) (a : BitVec 5)
  /-- AGSTEP (R263): Advances the generator odometer k times. -/
  | agstep (g : BitVec 3) (k : BitVec 3) (i : BitVec 32)
  /-- AGRD (R265): Reads the generator address into a scalar register. -/
  | agrd (g : BitVec 3) (a : BitVec 5)
  /-- AGRD_IDX (R265): Reads the index of one generator dimension into a scalar register. -/
  | agrdIdx (g : BitVec 3) (k : BitVec 3) (a : BitVec 5)
  /-- VADD (R276): Lane-wise addition under the type and rounding mode. -/
  | vadd (d : BitVec 5) (a : BitVec 5) (b : BitVec 5) (m : BitVec 3) (t : BitVec 2) (r : BitVec 2) (s : BitVec 1)
  /-- VSUB (R276): Lane-wise subtraction. -/
  | vsub (d : BitVec 5) (a : BitVec 5) (b : BitVec 5) (m : BitVec 3) (t : BitVec 2) (r : BitVec 2) (s : BitVec 1)
  /-- VMUL (R276): Lane-wise multiplication. -/
  | vmul (d : BitVec 5) (a : BitVec 5) (b : BitVec 5) (m : BitVec 3) (t : BitVec 2) (r : BitVec 2) (s : BitVec 1)
  /-- VFMA (R276): Lane-wise a × b + d with one rounding. -/
  | vfma (d : BitVec 5) (a : BitVec 5) (b : BitVec 5) (m : BitVec 3) (t : BitVec 2) (r : BitVec 2) (s : BitVec 1)
  /-- VFMS (R276): Lane-wise a × b − d with one rounding. -/
  | vfms (d : BitVec 5) (a : BitVec 5) (b : BitVec 5) (m : BitVec 3) (t : BitVec 2) (r : BitVec 2) (s : BitVec 1)
  /-- VFNMA (R276): Lane-wise d − a × b with one rounding. -/
  | vfnma (d : BitVec 5) (a : BitVec 5) (b : BitVec 5) (m : BitVec 3) (t : BitVec 2) (r : BitVec 2) (s : BitVec 1)
  /-- VMIN (R276): Lane-wise minimum. -/
  | vmin (d : BitVec 5) (a : BitVec 5) (b : BitVec 5) (m : BitVec 3) (t : BitVec 2) (s : BitVec 1)
  /-- VMAX (R276): Lane-wise maximum. -/
  | vmax (d : BitVec 5) (a : BitVec 5) (b : BitVec 5) (m : BitVec 3) (t : BitVec 2) (s : BitVec 1)
  /-- VABS (R276): Lane-wise absolute value. -/
  | vabs (d : BitVec 5) (a : BitVec 5) (m : BitVec 3) (t : BitVec 2) (s : BitVec 1)
  /-- VNEG (R276): Lane-wise negation. -/
  | vneg (d : BitVec 5) (a : BitVec 5) (m : BitVec 3) (t : BitVec 2) (s : BitVec 1)
  /-- VADDI (R278): Adds a sign-extended immediate to each active lane. -/
  | vaddi (d : BitVec 5) (a : BitVec 5) (m : BitVec 3) (i : BitVec 32)
  /-- VAND (R279): Lane-wise AND. -/
  | vand (d : BitVec 5) (a : BitVec 5) (b : BitVec 5) (m : BitVec 3)
  /-- VOR (R279): Lane-wise OR. -/
  | vor (d : BitVec 5) (a : BitVec 5) (b : BitVec 5) (m : BitVec 3)
  /-- VXOR (R279): Lane-wise XOR. -/
  | vxor (d : BitVec 5) (a : BitVec 5) (b : BitVec 5) (m : BitVec 3)
  /-- VNOT (R279): Lane-wise NOT. -/
  | vnot (d : BitVec 5) (a : BitVec 5) (m : BitVec 3)
  /-- VSHL (R279): Lane-wise left shift. -/
  | vshl (d : BitVec 5) (a : BitVec 5) (b : BitVec 5) (m : BitVec 3)
  /-- VSHR (R279): Lane-wise logical right shift. -/
  | vshr (d : BitVec 5) (a : BitVec 5) (b : BitVec 5) (m : BitVec 3)
  /-- VSRA (R279): Lane-wise arithmetic right shift. -/
  | vsra (d : BitVec 5) (a : BitVec 5) (b : BitVec 5) (m : BitVec 3)
  /-- VCMP (R280): Compares lanes and writes a mask register. -/
  | vcmp (n : BitVec 3) (a : BitVec 5) (b : BitVec 5) (m : BitVec 3) (t : BitVec 2) (c : BitVec 3)
  /-- VSEL (R281): Selects each lane from vA or vB by the mask. -/
  | vsel (d : BitVec 5) (a : BitVec 5) (b : BitVec 5) (m : BitVec 3)
  /-- VCLASS (R282): Classifies each active lane in a given format. -/
  | vclass (d : BitVec 5) (a : BitVec 5) (m : BitVec 3) (f : BitVec 5)
  /-- VCVT (R283): Converts every lane between formats by sat_cvt. -/
  | vcvt (d : BitVec 5) (a : BitVec 5) (f : BitVec 5) (g : BitVec 5) (r : BitVec 2) (s : BitVec 1)
  /-- VPACK (R284): Converts and packs narrow elements into the top of vD. -/
  | vpack (d : BitVec 5) (a : BitVec 5) (f : BitVec 5) (g : BitVec 5) (r : BitVec 2) (s : BitVec 1)
  /-- VUNPACK (R285): Unpacks part p of packed elements and widens them exactly. -/
  | vunpack (d : BitVec 5) (a : BitVec 5) (f : BitVec 5) (g : BitVec 5) (p : BitVec 3)
  /-- VSCALE (R286): Scales each lane by a power of two from an i32 or E8M0 operand. -/
  | vscale (d : BitVec 5) (a : BitVec 5) (b : BitVec 5) (m : BitVec 3) (s : BitVec 2) (r : BitVec 2) (t : BitVec 1)
  /-- VRED (R291): Reduces one register of leaves into the carry stack and optionally delivers the root. -/
  | vred (d : BitVec 5) (a : BitVec 5) (b : BitVec 5) (m : BitVec 3) (o : BitVec 3) (prof : BitVec 6) (flags : BitVec 18)
  /-- VSCAN (R293): Writes prefixes of the whole reduction and updates the carry. -/
  | vscan (d : BitVec 5) (a : BitVec 5) (b : BitVec 5) (m : BitVec 3) (o : BitVec 3) (prof : BitVec 6) (flags : BitVec 18)
  /-- VMXQ (R287): Quantises four FP32 blocks into MX blocks with their scales. -/
  | vmxq (d : BitVec 5) (a : BitVec 5) (f : BitVec 5) (p : BitVec 3)
  /-- VMXD (R288): Expands MX blocks back to float lanes. -/
  | vmxd (d : BitVec 5) (a : BitVec 5) (f : BitVec 5) (g : BitVec 5) (r : BitVec 2) (s : BitVec 1)
  /-- VLD (R294): Loads a 512-byte register image from the scratchpad. -/
  | vld (d : BitVec 5) (a : BitVec 5) (m : BitVec 3) (i : BitVec 32)
  /-- VLD_SLOT (R294): Loads a register from a 512-byte slot of slot memory. -/
  | vldSlot (d : BitVec 5) (m : BitVec 3) (i : BitVec 5)
  /-- VST (R294): Stores active lanes to the scratchpad. -/
  | vst (d : BitVec 5) (a : BitVec 5) (m : BitVec 3) (i : BitVec 32)
  /-- VST_SLOT (R294): Stores active lanes into a slot of slot memory. -/
  | vstSlot (d : BitVec 5) (m : BitVec 3) (i : BitVec 5)
  /-- VLDB (R294): Broadcasts one scratchpad word to every active lane. -/
  | vldb (d : BitVec 5) (a : BitVec 5) (m : BitVec 3) (i : BitVec 32)
  /-- VLDG (R295): Gathers scratchpad elements by lane indices. -/
  | vldg (d : BitVec 5) (a : BitVec 5) (b : BitVec 5) (m : BitVec 3) (z : BitVec 2)
  /-- VSTG (R295): Scatters lanes to scratchpad by lane indices, higher lane winning. -/
  | vstg (d : BitVec 5) (a : BitVec 5) (b : BitVec 5) (m : BitVec 3) (z : BitVec 2)
  /-- VGAT (R296): Gathers lanes of vA by index. -/
  | vgat (d : BitVec 5) (a : BitVec 5) (b : BitVec 5) (m : BitVec 3)
  /-- VPERM (R296): Permutes lanes from a 256-lane table of vA and vD. -/
  | vperm (d : BitVec 5) (a : BitVec 5) (b : BitVec 5) (m : BitVec 3)
  /-- VBCAST (R297): Broadcasts sA[31:0] to every active lane. -/
  | vbcast (d : BitVec 5) (a : BitVec 5) (m : BitVec 3)
  /-- VMOV (R297): Copies active lanes of vA. -/
  | vmov (d : BitVec 5) (a : BitVec 5) (m : BitVec 3)
  /-- VMOVS (R297): Moves one lane to a scalar register. -/
  | vmovs (d : BitVec 5) (a : BitVec 5) (b : BitVec 5)
  /-- VINS (R297): Inserts sA[31:0] into one lane. -/
  | vins (d : BitVec 5) (a : BitVec 5) (b : BitVec 5)
  /-- MAND (R298): Mask AND. -/
  | mand (d : BitVec 3) (a : BitVec 3) (b : BitVec 3)
  /-- MOR (R298): Mask OR. -/
  | mor (d : BitVec 3) (a : BitVec 3) (b : BitVec 3)
  /-- MXOR (R298): Mask XOR. -/
  | mxor (d : BitVec 3) (a : BitVec 3) (b : BitVec 3)
  /-- MNOT (R298): Mask NOT. -/
  | mnot (d : BitVec 3) (a : BitVec 3)
  /-- MPOP (R298): Counts set mask bits into a scalar register. -/
  | mpop (d : BitVec 5) (a : BitVec 3)
  /-- MFIRST (R298): Writes the index of the lowest set mask bit. -/
  | mfirst (d : BitVec 5) (a : BitVec 3)
  /-- XEXP2 (R304): Lane-wise exp2 by the function set of the profile. -/
  | xexp2 (d : BitVec 5) (a : BitVec 5) (m : BitVec 3)
  /-- XLOG2 (R304): Lane-wise log2. -/
  | xlog2 (d : BitVec 5) (a : BitVec 5) (m : BitVec 3)
  /-- XRCP (R304): Lane-wise correctly rounded reciprocal. -/
  | xrcp (d : BitVec 5) (a : BitVec 5) (m : BitVec 3)
  /-- XRSQ (R304): Lane-wise correctly rounded reciprocal square root. -/
  | xrsq (d : BitVec 5) (a : BitVec 5) (m : BitVec 3)
  /-- XSQRT (R304): Lane-wise correctly rounded square root. -/
  | xsqrt (d : BitVec 5) (a : BitVec 5) (m : BitVec 3)
  /-- XSIN (R304): Lane-wise sine of 2π-scaled reduction. -/
  | xsin (d : BitVec 5) (a : BitVec 5) (m : BitVec 3)
  /-- XCOS (R304): Lane-wise cosine. -/
  | xcos (d : BitVec 5) (a : BitVec 5) (m : BitVec 3)
  /-- XTANH (R304): Lane-wise tanh. -/
  | xtanh (d : BitVec 5) (a : BitVec 5) (m : BitVec 3)
  /-- XLOGI (R304): Lane-wise logistic function. -/
  | xlogi (d : BitVec 5) (a : BitVec 5) (m : BitVec 3)
  /-- XERF (R304): Lane-wise erf. -/
  | xerf (d : BitVec 5) (a : BitVec 5) (m : BitVec 3)
  /-- XSMAX (R308): Softmax correction factor exp2(a − b), 1 when equal. -/
  | xsmax (d : BitVec 5) (a : BitVec 5) (b : BitVec 5) (m : BitVec 3)
  /-- XEXPM (R308): Softmax weight exp2(a − b) of a score against a maximum. -/
  | xexpm (d : BitVec 5) (a : BitVec 5) (b : BitVec 5) (m : BitVec 3)
  /-- BLD (R315): Loads a B sub-tile and its scales from a scratchpad image and sets its tag. -/
  | bld (s : BitVec 2) (t : BitVec 2) (g : BitVec 3) (f : BitVec 5)
  /-- BLD_LUT4 (R315): Loads a LUT4 B sub-tile and tags it with the code table and active bank. -/
  | bldLut4 (s : BitVec 2) (t : BitVec 2) (g : BitVec 3) (b : BitVec 3)
  /-- MMA (R319): Delivers one column tile of one K-step from scratchpad A rows into a chain. -/
  | mma (n : BitVec 3) (s : BitVec 2) (t : BitVec 2) (g : BitVec 3) (f : BitVec 5) (r : BitVec 4) (prof : BitVec 6) (flags : BitVec 18)
  /-- MMAV (R319): Delivers one column tile of one K-step from vector-register A rows into a chain. -/
  | mmav (n : BitVec 3) (s : BitVec 2) (t : BitVec 2) (a : BitVec 5) (f : BitVec 5) (r : BitVec 4) (prof : BitVec 6) (flags : BitVec 18)
  /-- ACZ (R318): Starts a new chain generation with width, K and S0. -/
  | acz (n : BitVec 3) (b : BitVec 5) (w : BitVec 2) (prof : BitVec 6)
  /-- ACINIT (R318): Starts a new chain generation with an initial C from the scratchpad. -/
  | acinit (n : BitVec 3) (b : BitVec 5) (w : BitVec 2) (prof : BitVec 6)
  /-- ACLOSE (R322): Folds the carry stack, adds C and rounds the chain's result. -/
  | aclose (n : BitVec 3)
  /-- ACRD (R323): Copies two rows of a closed chain into eight vector registers. -/
  | acrd (n : BitVec 3) (p : BitVec 3) (b : BitVec 5) (c : BitVec 2)
  /-- ACST (R324): Writes a closed chain's result to the scratchpad. -/
  | acst (n : BitVec 3) (b : BitVec 5)
  /-- ACST_PART (R324): Writes an open chain's part with header to the scratchpad. -/
  | acstPart (n : BitVec 3) (b : BitVec 5)
  /-- ACMERGE (R326): Merges a right sibling chain into a left chain. -/
  | acmerge (n : BitVec 3) (a : BitVec 3) (prof : BitVec 6)
  /-- ACDROP (R325): Frees the current generation of a chain. -/
  | acdrop (n : BitVec 3)
  /-- TLD (R316): Loads the shadow bank of a code table from the scratchpad. -/
  | tld (g : BitVec 3) (t : BitVec 3)
  /-- TSWAP (R316): Swaps the active and shadow banks of a code table. -/
  | tswap (t : BitVec 3)
  /-- CPY (R353): Accepts a tensor copy with conversion between two layout records. -/
  | cpy (a : BitVec 5) (b : BitVec 5) (c : BitVec 5) (t : BitVec 8)
  /-- CPYH (R354): Accepts a flat byte copy between scratchpad and a handle. -/
  | cpyh (a : BitVec 5) (b : BitVec 5) (c : BitVec 5) (t : BitVec 8)
  /-- GATH (R355): Accepts a row gather by an index record. -/
  | gath (a : BitVec 5) (b : BitVec 5) (c : BitVec 5) (t : BitVec 8)
  /-- SCAT (R355): Accepts a row scatter by an index record. -/
  | scat (a : BitVec 5) (b : BitVec 5) (c : BitVec 5) (t : BitVec 8)
  /-- SEND (R356): Accepts a packed-image delivery to one core's scratchpad. -/
  | send (a : BitVec 5) (b : BitVec 5) (c : BitVec 5) (t : BitVec 8)
  /-- BCAST (R356): Accepts a packed-image delivery to every core of a multicast set. -/
  | bcast (a : BitVec 5) (b : BitVec 5) (c : BitVec 5) (t : BitVec 8)
  /-- RATM (R358): Accepts one remote atomic or barrier update in a core's scratchpad. -/
  | ratm (a : BitVec 5) (b : BitVec 5) (t : BitVec 8)
  /-- SQLD (R359): Announces and loads E8M0 entries into the scale queue. -/
  | sqld (b : BitVec 5) (t : BitVec 8)
  /-- CSUM (R360): Computes CRC-64/XZ over a tensor. -/
  | csum (b : BitVec 5) (t : BitVec 8)
  /-- NMQ (R361): Accepts an attention query to a Candle unit and reads the position-map entry. -/
  | nmq (a : BitVec 5) (t : BitVec 8) (prof : BitVec 6)
  /-- NMR (R363): Accepts an indexed-reduce of table rows into bags. -/
  | nmr (a : BitVec 5) (t : BitVec 8) (prof : BitVec 6)
  /-- COLL (R365): Joins a collective GATHER or REDUCE. -/
  | coll (a : BitVec 5) (t : BitVec 8) (prof : BitVec 6)
  /-- CARRY (R357): Accepts a small packed image to one core of this device or a peer. -/
  | carry (a : BitVec 5) (b : BitVec 5) (c : BitVec 5) (t : BitVec 8)
  /-- MERGE (R370): Merges softmax partials in place through a Prism merge unit. -/
  | merge (a : BitVec 5) (b : BitVec 5) (c : BitVec 5) (t : BitVec 8) (prof : BitVec 6) (flags : BitVec 18)
  /-- CMPCT (R355): Accepts a row gather whose reads precede its writes. -/
  | cmpct (a : BitVec 5) (b : BitVec 5) (c : BitVec 5) (t : BitVec 8)
  /-- FENCE (R332): Orders strong accesses and token consumers with its semantics and mask. -/
  | fence (s : BitVec 2) (m : BitVec 6)
  /-- LDS_DEVICE (R333): Strong load of device memory through a handle. -/
  | ldsDevice (d : BitVec 5) (h : BitVec 4) (a : BitVec 5) (w : BitVec 1) (s : BitVec 2) (m : BitVec 6)
  /-- STS_DEVICE (R333): Strong store to device memory. -/
  | stsDevice (d : BitVec 5) (h : BitVec 4) (a : BitVec 5) (w : BitVec 1) (s : BitVec 2) (m : BitVec 6)
  /-- AADD_DEVICE (R333): Atomic add on device memory. -/
  | aaddDevice (d : BitVec 5) (h : BitVec 4) (a : BitVec 5) (w : BitVec 1) (s : BitVec 2) (m : BitVec 6)
  /-- AMIN_DEVICE (R333): Atomic signed minimum on device memory. -/
  | aminDevice (d : BitVec 5) (h : BitVec 4) (a : BitVec 5) (w : BitVec 1) (s : BitVec 2) (m : BitVec 6)
  /-- AMAX_DEVICE (R333): Atomic signed maximum on device memory. -/
  | amaxDevice (d : BitVec 5) (h : BitVec 4) (a : BitVec 5) (w : BitVec 1) (s : BitVec 2) (m : BitVec 6)
  /-- AAND_DEVICE (R333): Atomic AND on device memory. -/
  | aandDevice (d : BitVec 5) (h : BitVec 4) (a : BitVec 5) (w : BitVec 1) (s : BitVec 2) (m : BitVec 6)
  /-- AOR_DEVICE (R333): Atomic OR on device memory. -/
  | aorDevice (d : BitVec 5) (h : BitVec 4) (a : BitVec 5) (w : BitVec 1) (s : BitVec 2) (m : BitVec 6)
  /-- AXOR_DEVICE (R333): Atomic XOR on device memory. -/
  | axorDevice (d : BitVec 5) (h : BitVec 4) (a : BitVec 5) (w : BitVec 1) (s : BitVec 2) (m : BitVec 6)
  /-- ASWP_DEVICE (R333): Atomic swap on device memory. -/
  | aswpDevice (d : BitVec 5) (h : BitVec 4) (a : BitVec 5) (w : BitVec 1) (s : BitVec 2) (m : BitVec 6)
  /-- ACAS_DEVICE (R333): Atomic compare-and-swap on device memory. -/
  | acasDevice (d : BitVec 5) (h : BitVec 4) (a : BitVec 5) (w : BitVec 1) (s : BitVec 2) (m : BitVec 6)
  /-- WAITV_DEVICE (R335): Reads a device word and sleeps while it equals the expected value. -/
  | waitvDevice (d : BitVec 5) (h : BitVec 4) (a : BitVec 5) (s : BitVec 2) (m : BitVec 6)
  /-- NTONE_DEVICE (R336): Wakes the longest sleeper on a device word. -/
  | ntoneDevice (h : BitVec 4) (a : BitVec 5) (s : BitVec 2) (m : BitVec 6)
  /-- NTALL_DEVICE (R336): Wakes every sleeper on a device word. -/
  | ntallDevice (h : BitVec 4) (a : BitVec 5) (s : BitVec 2) (m : BitVec 6)
  /-- OWNX (R337): Transfers or releases ownership of the region containing an address. -/
  | ownx (d : BitVec 5) (h : BitVec 4) (a : BitVec 5)
  /-- LDS_SCRATCHPAD (R333): Strong load of a scratchpad word at the bank unit. -/
  | ldsSp (d : BitVec 5) (a : BitVec 5) (w : BitVec 1) (s : BitVec 2) (m : BitVec 6)
  /-- STS_SCRATCHPAD (R333): Strong store to a scratchpad word. -/
  | stsSp (d : BitVec 5) (a : BitVec 5) (w : BitVec 1) (s : BitVec 2) (m : BitVec 6)
  /-- AADD_SCRATCHPAD (R333): Atomic add on a scratchpad word. -/
  | aaddSp (d : BitVec 5) (a : BitVec 5) (w : BitVec 1) (s : BitVec 2) (m : BitVec 6)
  /-- AMIN_SCRATCHPAD (R333): Atomic signed minimum on a scratchpad word. -/
  | aminSp (d : BitVec 5) (a : BitVec 5) (w : BitVec 1) (s : BitVec 2) (m : BitVec 6)
  /-- AMAX_SCRATCHPAD (R333): Atomic signed maximum on a scratchpad word. -/
  | amaxSp (d : BitVec 5) (a : BitVec 5) (w : BitVec 1) (s : BitVec 2) (m : BitVec 6)
  /-- AAND_SCRATCHPAD (R333): Atomic AND on a scratchpad word. -/
  | aandSp (d : BitVec 5) (a : BitVec 5) (w : BitVec 1) (s : BitVec 2) (m : BitVec 6)
  /-- AOR_SCRATCHPAD (R333): Atomic OR on a scratchpad word. -/
  | aorSp (d : BitVec 5) (a : BitVec 5) (w : BitVec 1) (s : BitVec 2) (m : BitVec 6)
  /-- AXOR_SCRATCHPAD (R333): Atomic XOR on a scratchpad word. -/
  | axorSp (d : BitVec 5) (a : BitVec 5) (w : BitVec 1) (s : BitVec 2) (m : BitVec 6)
  /-- ASWP_SCRATCHPAD (R333): Atomic swap on a scratchpad word. -/
  | aswpSp (d : BitVec 5) (a : BitVec 5) (w : BitVec 1) (s : BitVec 2) (m : BitVec 6)
  /-- ACAS_SCRATCHPAD (R333): Atomic compare-and-swap on a scratchpad word. -/
  | acasSp (d : BitVec 5) (a : BitVec 5) (w : BitVec 1) (s : BitVec 2) (m : BitVec 6)
  /-- WAITV_SCRATCHPAD (R335): Reads a scratchpad word and sleeps while it equals the expected value. -/
  | waitvSp (d : BitVec 5) (a : BitVec 5) (s : BitVec 2) (m : BitVec 6)
  /-- NTONE_SCRATCHPAD (R336): Wakes the longest sleeper on a scratchpad word. -/
  | ntoneSp (a : BitVec 5) (s : BitVec 2) (m : BitVec 6)
  /-- NTALL_SCRATCHPAD (R336): Wakes every sleeper on a scratchpad word. -/
  | ntallSp (a : BitVec 5) (s : BitVec 2) (m : BitVec 6)
  /-- BINIT (R338): Initialises a transaction barrier. -/
  | binit (a : BitVec 5) (b : BitVec 5)
  /-- BARV (R338): Adds arrivals to a barrier as a release. -/
  | barv (a : BitVec 5) (b : BitVec 5)
  /-- BEXP (R338): Announces expected bytes to a barrier. -/
  | bexp (a : BitVec 5) (b : BitVec 5)
  /-- BWAIT (R338): Waits for the end of a barrier phase. -/
  | bwait (d : BitVec 5) (a : BitVec 5) (b : BitVec 5) (s : BitVec 2) (m : BitVec 6)
  /-- TKT (R339): Raises the task's push counter. -/
  | tkt (d : BitVec 5) (a : BitVec 5)
  /-- QPUSH (R339): Captures a packet image and pushes it to a queue, directly or through the ticket sequencer. -/
  | qpush (d : BitVec 5) (a : BitVec 5) (b : BitVec 5) (m : BitVec 6)
  /-- EVPOP (R339): Removes the oldest event-queue record into the scratchpad. -/
  | evpop (d : BitVec 5) (a : BitVec 5)
  /-- SIGW (R340): Performs a signal operation with release and ntall on a SYNC word. -/
  | sigw (h : BitVec 4) (a : BitVec 5) (b : BitVec 5) (o : BitVec 2) (m : BitVec 6)
  /-- EMIT (R392): Steers the following instruction group into the engine queues. -/
  | emit (n : BitVec 2)
  /-- EMITX (R392): Patches the group's immediate with wA and steers it. -/
  | emitx (n : BitVec 2) (a : BitVec 4)
  /-- LDPM (R393): Loads a parameter-block word into a micro register. -/
  | ldpm (d : BitVec 4) (e : BitVec 6)
  /-- LDW (R393): Loads a scratchpad word into a micro register. -/
  | ldw (d : BitVec 4) (a : BitVec 4) (e : BitVec 16)
  /-- ADDW (R393): Micro register add of a register. -/
  | addw (d : BitVec 4) (a : BitVec 4) (b : BitVec 4)
  /-- ADDW_IMM (R393): Micro register add of an immediate. -/
  | addwImm (d : BitVec 4) (a : BitVec 4) (i : BitVec 18)
  /-- SUBW (R393): Micro register subtract of a register. -/
  | subw (d : BitVec 4) (a : BitVec 4) (b : BitVec 4)
  /-- SUBW_IMM (R393): Micro register subtract of an immediate. -/
  | subwImm (d : BitVec 4) (a : BitVec 4) (i : BitVec 18)
  /-- ANDW (R393): Micro register AND with a register. -/
  | andw (d : BitVec 4) (a : BitVec 4) (b : BitVec 4)
  /-- ANDW_IMM (R393): Micro register AND with an immediate. -/
  | andwImm (d : BitVec 4) (a : BitVec 4) (i : BitVec 18)
  /-- CMPW (R393): Sets EQ and LT from a register compare. -/
  | cmpw (a : BitVec 4) (b : BitVec 4)
  /-- CMPW_IMM (R393): Sets EQ and LT from an immediate compare. -/
  | cmpwImm (a : BitVec 4) (i : BitVec 18)
  /-- BR (R393): Micro branch to a control-store address. -/
  | br (t : BitVec 11)
  /-- BRC (R393): Conditional micro branch on EQ or LT. -/
  | brc (c : BitVec 3) (t : BitVec 11)
  /-- LOOPW (R393): Opens a counted micro loop. -/
  | loopw (a : BitVec 4) (t : BitVec 11)
  /-- ENDL (R393): Closes an iteration of the innermost micro loop. -/
  | endl
  /-- WTOK (R393): Waits until a named earlier head has produced its token. -/
  | wtok (e : BitVec 3) (k : BitVec 5)
  /-- WSIG (R393): Writes a micro register to a parameter-block word. -/
  | wsig (a : BitVec 4) (e : BitVec 6)
  /-- STOPW (R393): Ends the Wick run and resumes fetch after the wstart. -/
  | stopw
  /-- LOOP_BODY_EMISSION (R260): The loop buffer emits one iteration of the captured body into the engine queues. -/
  | loopBodyEmission (core : Nat)
  /-- SLAB_RETURN (R75): Draining slabs return to the pool once the M words issued before the restart retire. -/
  | slabReturn (core : Nat)
  /-- COMMAND_COMPLETE (R351): A command completes, produces its token and pushes its completion record. -/
  | commandComplete (core : Nat) (cmd : Nat)
  /-- SCRATCHPAD_DELIVERY_LANDING (R86): Delivered bytes land through the bank unit and decrement the named barrier. -/
  | scratchpadDeliveryLanding (core : Nat) (d : Delivery)
  /-- REMOTE_ATOMIC_MESSAGE (R69): A remote atomic message is applied indivisibly at the target bank unit. -/
  | remoteAtomicMessage (core : Nat) (m : AtomicMsg)
  /-- SCALE_ENTRY_LAND (R359): An sqld entry lands in the scale queue. -/
  | scaleEntryLand (core : Nat) (cmd : Nat)
  /-- CANDLE_PARTIAL_LAND (R380): After the last block read, the entry is re-read and the partial lands or the query ends STALE. -/
  | candlePartialLand (core : Nat) (cmd : Nat)
  /-- NMR_BAG_LAND (R364): The result row of one bag lands with its barrier decrement. -/
  | nmrBagLand (core : Nat) (cmd : Nat)
  /-- PRISM_COLLECTIVE_ARRIVAL (R367): A participant's arrival joins or opens an instance of its GID. -/
  | prismCollectiveArrival (a : Arrival)
  /-- COLLECTIVE_RESULT (R369): Prism combines all parts or gathers all sources and lands the result in every destination. -/
  | collectiveResult (gid : Nat)
  /-- CARRY_DELIVERY (R357): A carry image arrives and lands in its target core. -/
  | carryDelivery (c : CarryMsg)
  /-- WAITV_FRESH_READ (R117): A woken sleeper reads its word afresh and completes with that value. -/
  | waitvFreshRead (core : Nat)
  /-- QPUSH_PUBLISH (R339): A free-mode push that waited for room writes its slot and publishes word 0. -/
  | qpushPublish (core : Nat)
  /-- SPLITTER_STEER_GROUP (R217): The splitter checks an instruction group and steers its words into the engine queues. -/
  | splitterSteerGroup (core : Nat)
  /-- EXPOSED_RESULT_EXPIRE (R67): A result becomes visible once its exposed latency in slots has elapsed. -/
  | exposedResultExpire (core : Nat)
  /-- PAGE_WALK_COMPLETE (R25): A translation walk completes and writes the handle. -/
  | pageWalkComplete (core : Nat) (head : Nat)
  /-- SWEEP_PERIOD_BOUNDARY (R20): The read-seen and write-seen bits of the context's TLB entries clear. -/
  | sweepPeriodBoundary (ctx : Nat)
  /-- SWEEPER_VISIT (R21): The sweeper visits a leaf and fades its heat. -/
  | sweeperVisit (ctx : Nat) (va : Nat)
  /-- SHOOTDOWN_START (R28): SDCTL GO or a management SHOOTDOWN starts a shootdown of a virtual range. -/
  | shootdownStart (r : ShootReq)
  /-- SHOOTDOWN_COMPLETE (R28): Pins are released and writes landed; BUSY clears as a release. -/
  | shootdownComplete (id : Nat)
  /-- STREAM_PIN_RELEASE (R29): An agent releases a stream pin at the end of its use or at a 4 KiB boundary after a shootdown. -/
  | streamPinRelease (pin : Nat)
  /-- FORWARDED_LINE_RESPONSE (R124): The holder answers a forwarded line. -/
  | forwardedLineResponse (line : Nat) (st : LineStatus) (data : List PByte)
  /-- FORWARDED_LINE_TIMEOUT (R124): A forwarded line unanswered for 50 µs times out. -/
  | forwardedLineTimeout (line : Nat)
  /-- HUB_TABLE_WRITE (R32): HTCTL GO or HUBTABLE writes a context or remote window entry. -/
  | hubTableWrite (r : TableReq)
  /-- HUB_TABLE_READ (R32): HTCTL RD copies an entry into HTD0 to HTD7. -/
  | hubTableRead (r : TableReq)
  /-- HUB_TABLE_OP_COMPLETE (R32): The hub table operation ends and BUSY clears as a release. -/
  | hubTableOpComplete (core : Nat)
  /-- MEMORY_REQUEST_ACCEPT (R41): A stack controller accepts a read, full write or merge of units. -/
  | memoryRequestAccept (r : MemReq)
  /-- MEMORY_READ_RETURN (R43): A read's units are decoded and returned. -/
  | memoryReadReturn (id : Nat) (es : List UnitErr)
  /-- CELL_WRITE_COMPLETE (R114): A landed write reaches the DRAM cells read by the near-memory port. -/
  | cellWriteComplete (addr : Nat)
  /-- PER_BANK_REFRESH (R44): The controller refreshes one bank. -/
  | perBankRefresh (stack : Nat) (pch : Nat) (bank : Nat)
  /-- FORMAT_START (R38): FMTCTL GO starts formatting a range of frames. -/
  | formatStart (r : FormatReq)
  /-- FORMAT_COMPLETE (R39): Every frame has its new attribute and zeros; BUSY clears as a release. -/
  | formatComplete (id : Nat)
  /-- SCRUB_UNIT (R59): The scrubber reads a unit and writes back corrected or poisoned. -/
  | scrubUnit (addr : Nat) (e : UnitErr)
  /-- RESET (R62): A reset clears the device and starts the wipe. -/
  | reset
  /-- WIPE_COMPLETE (R63): The wipe ends and the device is reported ready as a release. -/
  | wipeComplete
  /-- REGION_DESCRIPTOR_WRITE (R101): RGCTL GO writes a region descriptor. -/
  | regionDescriptorWrite (core : Nat) (idx : Nat) (w0 : BitVec 64) (w1 : BitVec 64)
  /-- REGION_DESCRIPTOR_READ (R101): RGCTL RD copies a descriptor into RGLO and RGHI. -/
  | regionDescriptorRead (core : Nat) (idx : Nat)
  /-- REGION_UPDATE_COMPLETE (R101): Buffers have written back and old accesses landed; BUSY clears as a release. -/
  | regionUpdateComplete (core : Nat)
  /-- PLAIN_BUFFER_WRITEBACK (R103): The plain-access buffer writes back dirty bytes at a non-architectural time. -/
  | plainBufferWriteback (core : Nat) (line : Nat)
  /-- OWNERSHIP_TRANSFER_COMPLETE (R104): The old owner's write-backs land, TRANSIT clears and ownx produces its token. -/
  | ownershipTransferComplete (core : Nat) (idx : Nat)
  /-- PAGEOP_ALLOC (R135): Makes an UNTRACKED or FREE frame HELD with REF 1. -/
  | pageopAlloc (r : PageReq)
  /-- PAGEOP_INCREF (R135): Raises a HELD frame's reference count. -/
  | pageopIncref (r : PageReq)
  /-- PAGEOP_DECREF (R135): Lowers a reference count, freeing or draining the frame at zero. -/
  | pageopDecref (r : PageReq)
  /-- PAGEOP_MIGRATE (R133): Starts a move of a page to the destination in PGOPDST. -/
  | pageopMigrate (r : PageReq)
  /-- PAGEOP_EXPAND (R133): Starts a move of a shade page to a named local frame. -/
  | pageopExpand (r : PageReq)
  /-- PAGEOP_COMPRESS (R133): Starts a move of a local 2 MiB page into a Shade zone record. -/
  | pageopCompress (r : PageReq)
  /-- PAGEOP_POOLPUT (R133): Puts a local 2 MiB frame into the expansion pool. -/
  | pageopPoolput (r : PageReq)
  /-- PAGEOP_POOLTAKE (R133): Takes a frame out of the expansion pool into PGOPDST. -/
  | pageopPooltake (r : PageReq)
  /-- MOVE_COPY_COMPLETE (R130): A move's copy ends; the leaf is swapped by acas, shot down and the entry leaves the move table. -/
  | moveCopyComplete (mv : Nat)
  /-- QUEUE_CREATE (R140): Captures a queue descriptor and makes the queue ACTIVE, or sets RESULT. -/
  | queueCreate (r : QueueReq)
  /-- QUEUE_STOP (R141): Makes an ACTIVE queue STOPPED. -/
  | queueStop (r : QueueReq)
  /-- QUEUE_RESUME (R141): Makes a STOPPED queue ACTIVE and re-runs a stopping packet. -/
  | queueResume (r : QueueReq)
  /-- QUEUE_DESTROY (R141): Ends a STOPPED queue's started work and frees the queue. -/
  | queueDestroy (r : QueueReq)
  /-- QUEUE_QUERY (R139): Fills QSTAT with the queue state and stop offset. -/
  | queueQuery (r : QueueReq)
  /-- QUEUE_DESTROY_COMPLETE (R141): All started work of a destroyed queue has ended; the queue becomes FREE. -/
  | queueDestroyComplete (r : QueueReq)
  /-- PACKET_NOP (R146): The dispatcher starts a NOP packet. -/
  | packetNop (q : Nat) (k : Nat)
  /-- PACKET_LAUNCH (R165): The dispatcher reads the loop-nest record and checks it. -/
  | packetLaunch (q : Nat) (k : Nat)
  /-- PACKET_COPY (R146): The dispatcher starts a COPY packet as cpy. -/
  | packetCopy (q : Nat) (k : Nat)
  /-- PACKET_BCOPY (R156): Beacon starts a multicast copy to a core set. -/
  | packetBcopy (q : Nat) (k : Nat)
  /-- PACKET_NMQ (R361): The dispatcher starts an NMQ packet. -/
  | packetNmq (q : Nat) (k : Nat)
  /-- PACKET_NMR (R363): The dispatcher starts an NMR packet. -/
  | packetNmr (q : Nat) (k : Nat)
  /-- PACKET_COLL (R365): The dispatcher starts a COLL packet. -/
  | packetColl (q : Nat) (k : Nat)
  /-- PACKET_SIGNAL (R147): Performs a strong atomic with release on a signal word, then optional ntall. -/
  | packetSignal (q : Nat) (k : Nat)
  /-- PACKET_WAIT (R147): Reads a signal word with acquire until its condition holds. -/
  | packetWait (q : Nat) (k : Nat)
  /-- PACKET_MARKER (R148): A fencing marker that may compute CRC-64/XZ over a tensor. -/
  | packetMarker (q : Nat) (k : Nat)
  /-- PACKET_BLOOP (R157): Starts a Beacon loop over the preceding body packets. -/
  | packetBloop (q : Nat) (k : Nat)
  /-- BLOOP_ITERATION (R157): After a body iteration completes, the next starts with stepped addresses. -/
  | bloopIteration (q : Nat) (k : Nat)
  /-- PACKET_BWAIT (R158): Beacon waits until every set core's barrier reaches the target phase. -/
  | packetBwait (q : Nat) (k : Nat)
  /-- BEACON_MULTICAST_LANDING (R156): A Beacon burst lands in every running core of the set with barrier decrement. -/
  | beaconMulticastLanding (ctx : Nat) (core : Nat) (d : Delivery)
  /-- PACKET_COMPLETE (R144): A packet completes; word 0 is cleared, RIDX advances by release and ntall is performed. -/
  | packetComplete (q : Nat) (k : Nat)
  /-- TICKET_PUSH_SEQUENCED (R154): The ticket sequencer claims WIDX and writes a held push that has become lowest open. -/
  | ticketPushSequenced (q : Nat)
  /-- DISPATCH (R180): On a free core, ready unit or ageing change the dispatcher picks, places, pre-empts or reserves. -/
  | dispatch
  /-- AGEING_STEP (R179): A queue's effective level rises by one ageing period. -/
  | ageingStep (q : Nat)
  /-- TASK_COMMIT (R176): After all words retire and commands complete, the task returns bindings and commits. -/
  | taskCommit (core : Nat)
  /-- PREEMPT_REQUEST_ARRIVE (R402): A pre-emption request halts the core at a group boundary within 200 cycles. -/
  | preemptRequestArrive (core : Nat)
  /-- CONTEXT_SAVE (R405): After the drain, the context is saved into a context slot and bindings parked. -/
  | contextSave (core : Nat) (dmg : Nat)
  /-- LOGIC_SOFT_ERROR (R410): An uncorrectable error in control state halts the task with a LOGIC record. -/
  | logicSoftError (core : Nat)
  /-- DEVICE_UNREACHABLE (R421): The link layer declares a device unreachable after ports down or timeouts. -/
  | deviceUnreachable (dev : Nat)
  /-- HOLDER_LOST_UPDATE (R376): The position-map engine sets LOST and bumps GEN of the lost holder's entries. -/
  | holderLostUpdate (dev : Nat)
  /-- RDMA_WRITE (R413): An inbound RDMA WRITE admitted by the inbound window table is applied. -/
  | rdmaWrite (r : RdmaReq)
  /-- RDMA_READ (R413): An inbound RDMA READ is served, NAKed on poison. -/
  | rdmaRead (r : RdmaReq)
  /-- RDMA_FETCH_AND_ADD (R413): An inbound 8-byte fetch-and-add is performed and returns the old value. -/
  | rdmaFetchAndAdd (r : RdmaReq)
  /-- RDMA_INVALID_REQUEST (R412): An unsupported RoCEv2 operation is answered with NAK invalid request. -/
  | rdmaInvalidRequest (qp : Nat)
  /-- FYLVATHEN_INBOUND_ACCESS (R419): An inbound peer read or write is admitted by a KIND 1 window and translated. -/
  | fylvathenInboundAccess (r : PeerReq)
  /-- FYLVATHEN_REMOTE_ATOMIC (R419): An inbound peer atomic is performed at this holder. -/
  | fylvathenRemoteAtomic (r : PeerReq)
  /-- FLIT_RECEIVE (R418): A flit is checked, accepted in sequence or discarded with NAK, and routed or consumed. -/
  | flitReceive (port : Nat) (f : List Byte)
  /-- FLIT_NAK_REPLAY (R418): On NAK the sender resends every unacknowledged flit in order. -/
  | flitNakReplay (port : Nat) (ack : Nat)
  /-- LANE_FAILING (R422): A lane whose corrected symbols exceed the limit or loses lock becomes failing. -/
  | laneFailing (port : Nat) (lane : Nat)
  /-- LANE_SWITCH (R422): Once the replay buffer drains, the port moves to its other lane. -/
  | laneSwitch (port : Nat)
  /-- PORT_RETRAIN (R422): A port retrains after a repeated NAK during replay. -/
  | portRetrain (port : Nat)
  /-- PORT_DOWN (R420): A port goes down and its outstanding transactions time out. -/
  | portDown (port : Nat)
  /-- PORT_UP (R421): A port comes up; a device may become reachable again. -/
  | portUp (port : Nat)
  /-- MGMT_READLOG (R60): Returns error logs, counters and events. -/
  | mgmtReadlog (tag : Nat)
  /-- MGMT_CLEARLOG (R60): Clears error logs and counters. -/
  | mgmtClearlog (tag : Nat)
  /-- MGMT_MAPRANGE (R376): Registers position-map ranges with their contexts. -/
  | mgmtMaprange (tag : Nat) (rs : List MapRange)
  /-- MGMT_INWIN (R414): Writes an inbound window table entry. -/
  | mgmtInwin (tag : Nat) (idx : Nat) (w : List W64)
  /-- MGMT_RDMAQP (R415): Creates or destroys an outbound RC queue pair. -/
  | mgmtRdmaqp (tag : Nat) (r : QpReq)
  /-- MGMT_ROUTE (R420): Writes routing-table entries and the device identifier. -/
  | mgmtRoute (tag : Nat) (r : RouteReq)
  /-- MGMT_WCSLOAD (R388): Loads a control-store image into every die once no core runs Wick. -/
  | mgmtWcsload (tag : Nat) (img : List W32)
  /-- MGMT_ATTEST (R425): Returns a signed attestation report. -/
  | mgmtAttest (tag : Nat) (nonce : List Byte)
  /-- MGMT_FWUPDATE (R423): Checks and writes a firmware image and raises the rollback counter. -/
  | mgmtFwupdate (tag : Nat) (r : FwReq)
  /-- MGMT_LIFECYCLE (R426): Performs a signed life-cycle transition with a full wipe. -/
  | mgmtLifecycle (tag : Nat) (r : LifeReq)
  /-- MGMT_DEBUGUNLOCK (R427): Opens debug in PROVISIONED after a wipe, or is refused. -/
  | mgmtDebugunlock (tag : Nat) (r : UnlockReq)
  /-- MGMT_POWER (R429): Reads the clock state or sets the power cap. -/
  | mgmtPower (tag : Nat) (cap : Option Nat)
  /-- MGMT_UNSUPPORTED (R415): A request with an unlisted OP is answered UNSUPPORTED. -/
  | mgmtUnsupported (tag : Nat) (op : Nat)
  /-- POWER_ON (R428): Power-on runs boot check, training, wipe, table setup and ready report. -/
  | powerOn (r : BootReq)
  /-- CLOCK_THROTTLE (R429): Firmware lowers or raises the arithmetic clock in 100 MHz steps. -/
  | clockThrottle (down : Bool)
  /-- THERMAL_CRITICAL (R429): A critical temperature logs a thermal event and removes power. -/
  | thermalCritical
  /-- POWER_LOSS (R63): Power is lost; a wipe in progress stops and restarts from the beginning at the next reset. -/
  | powerLoss
  /-- FRAME_SHOOTDOWN_COMPLETE (R136): The frame shootdown of a DECREF or move ends, and only then is the operation's first record written. -/
  | frameShootdownComplete (id : Nat)
  /-- RETRAIN_COMPLETE (R422): A retrained port finishes retraining and resumes sending from the oldest unacknowledged flit. -/
  | retrainComplete (port : Nat)
  deriving DecidableEq, Repr

end Sys2Proof
end

