-- ==== Sys2Proof/WellFormed.lean ====
section
/-! DEFINITION. Well-formed instructions: the field values each row assigns (R217 step 3, R222 to R229, R313, R314). -/

namespace Sys2Proof

/-- The indices of R223. -/
def sysIndex (x : Nat) : Bool :=
  x ≤ 5 || (8 ≤ x && x ≤ 10) || (16 ≤ x && x ≤ 20) || x == 24 || (256 ≤ x && x ≤ 258) || (264 ≤ x && x ≤ 266)
  || (272 ≤ x && x ≤ 274) || (280 ≤ x && x ≤ 282) || (288 ≤ x && x ≤ 291) || x == 296 || (304 ≤ x && x ≤ 306)
  || (312 ≤ x && x ≤ 320)

/-- T, rm and sat of the arithmetic words (R275). -/
def arith (t r : BitVec 2) (s : BitVec 1) : Bool := t != 3 && (r == 0 || t == 0) && (s == 0 || t != 0)

/-- The width in bits of a format code of R187 (0: no element format). -/
def formatWidth : Nat → Nat
  | 0 => 32 | 1 => 16 | 2 => 16 | 3 => 8 | 4 => 8 | 5 => 4 | 6 => 8 | 7 => 4 | 8 => 8 | 9 => 16 | 10 => 32
  | 11 => 64 | 12 => 8 | 13 => 16 | 14 => 32 | 15 => 64 | 16 => 4 | 17 => 4 | 18 => 8 | 19 => 8 | 20 => 4
  | _ => 0

/-- The codes that vcvt takes on both sides (R283). -/
def laneFormat (f : Nat) : Bool :=
  f ≤ 5 || (8 ≤ f && f ≤ 10) || (12 ≤ f && f ≤ 14) || f == 16 || f == 17

/-- The pairs of vunpack (R285): destination, source. -/
def unpackPair (f g : Nat) : Bool :=
  ((g == 1 || g == 2) && f == 0) || ((g == 3 || g == 4 || g == 5) && f ≤ 2)
  || ((g == 8 || g == 9 || g == 16) && (f == 10 || f == 0))
  || ((g == 12 || g == 13 || g == 17) && (f == 14 || f == 10 || f == 0))

/-- The MX formats (R187). -/
def mxFormat (f : Nat) : Bool := 18 ≤ f && f ≤ 20

/-- The formats of M words but for lut4 (R313). -/
def tileFormat (f : Nat) : Bool :=
  (1 ≤ f && f ≤ 4) || f == 8 || f == 12 || f == 16 || f == 17 || mxFormat f

/-- Field b of vred and vscan (R289). -/
def carryField (d b : BitVec 5) (flags : BitVec 18) : Bool :=
  if flags.toNat % 4 = 3 then b == 0 else b != d

/-- An offset that the signed 9-bit field of format VM holds (R224). -/
def short9 (i : BitVec 32) : Bool := (i.setWidth 9).signExtend 32 == i

/-- The field values that each instruction assigns (R217 step 3); a row that is no word is not restricted. -/
def wellFormed : Instr → Bool
  | .add _ _ _ => true
  | .sub _ _ _ => true
  | .mul _ _ _ => true
  | .mulh _ _ _ => true
  | .mulhn _ _ _ => true
  | .div _ _ _ => true
  | .divn _ _ _ => true
  | .rem _ _ _ => true
  | .remn _ _ _ => true
  | .and _ _ _ => true
  | .or _ _ _ => true
  | .xor _ _ _ => true
  | .andn _ _ _ => true
  | .sll _ _ _ => true
  | .srl _ _ _ => true
  | .sra _ _ _ => true
  | .clz _ _ => true
  | .ctz _ _ => true
  | .popc _ _ => true
  | .slt _ _ _ => true
  | .sltn _ _ _ => true
  | .seq _ _ _ => true
  | .sel _ _ _ _ => true
  | .sysr _ x => sysIndex x.toNat
  | .sysw _ x => sysIndex x.toNat
  | .trap _ => true
  | .eret => true
  | .bkpt _ => true
  | .nop => true
  | .endTask => true
  | .wstart _ _ => true
  | .addi _ _ _ => true
  | .andi _ _ _ => true
  | .ori _ _ _ => true
  | .xori _ _ _ => true
  | .slti _ _ _ => true
  | .slli _ _ _ => true
  | .srli _ _ _ => true
  | .srai _ _ _ => true
  | .movi _ _ => true
  | .movh _ _ => true
  | .ldsp _ _ _ _ => true
  | .stsp _ _ _ _ => true
  | .ldslot _ _ _ => true
  | .stslot _ _ _ => true
  | .min _ _ _ => true
  | .max _ _ _ => true
  | .ldh _ _ _ _ => true
  | .sth _ _ _ _ => true
  | .minn _ _ _ => true
  | .maxn _ _ _ => true
  | .xlat _ n _ => n != 3
  | .b _ => true
  | .bc _ _ c _ => c.toNat < 6
  | .bz _ _ => true
  | .bnz _ _ => true
  | .call _ => true
  | .jr _ => true
  | .loop k _ _ => k.toNat < 6
  | .lbody k _ => k.toNat < 6
  | .lbrk x k _ => x.toNat < 3 && k.toNat < 6
  | .agset _ _ _ => true
  | .agdim _ k _ _ => k.toNat < 6
  | .agind _ k _ => k.toNat < 6
  | .agstep _ k _ => k.toNat < 6
  | .agrd _ _ => true
  | .agrdIdx _ k _ => k.toNat < 6
  | .loopBodyEmission _ => true
  | .vadd _ _ _ _ t r s_ => arith t r s_
  | .vsub _ _ _ _ t r s_ => arith t r s_
  | .vmul _ _ _ _ t r s_ => arith t r s_
  | .vfma _ _ _ _ t r s_ => arith t r s_
  | .vfms _ _ _ _ t r s_ => arith t r s_
  | .vfnma _ _ _ _ t r s_ => arith t r s_
  | .vmin _ _ _ _ t s_ => arith t 0 s_
  | .vmax _ _ _ _ t s_ => arith t 0 s_
  | .vabs _ _ _ t s_ => arith t 0 s_ && t != 2
  | .vneg _ _ _ t s_ => arith t 0 s_ && t != 2
  | .vaddi _ _ _ _ => true
  | .vand _ _ _ _ => true
  | .vor _ _ _ _ => true
  | .vxor _ _ _ _ => true
  | .vnot _ _ _ => true
  | .vshl _ _ _ _ => true
  | .vshr _ _ _ _ => true
  | .vsra _ _ _ _ => true
  | .vcmp _ _ _ _ t c => t != 3 && c != 7 && (c != 6 || t == 0)
  | .vsel _ _ _ _ => true
  | .vclass _ _ _ f => f.toNat < 6
  | .vcvt _ _ f g _ _ => laneFormat f.toNat && (laneFormat g.toNat || g == 6)
  | .vpack _ _ f g _ _ => laneFormat f.toNat && formatWidth f.toNat < 32 && (laneFormat g.toNat || g == 6)
  | .vunpack _ _ f g p => unpackPair f.toNat g.toNat && p.toNat < 32 / formatWidth g.toNat
  | .vscale _ _ _ _ s_ _ _ => s_.toNat < 2
  | .vred d _ b _ o _ flags => o != 7 && flags.toNat < 4 && carryField d b flags
  | .vscan d _ b _ o _ flags => o != 7 && flags.toNat < 8 && carryField d b flags
  | .vmxq _ _ f _ => mxFormat f.toNat
  | .vmxd _ _ f g _ _ => f.toNat < 3 && mxFormat g.toNat
  | .vld _ _ _ i => short9 i
  | .vldSlot _ _ _ => true
  | .vst _ _ _ i => short9 i
  | .vstSlot _ _ _ => true
  | .vldb _ _ _ i => short9 i
  | .vldg _ _ _ _ z => z != 3
  | .vstg _ _ _ _ z => z != 3
  | .vgat _ _ _ _ => true
  | .vperm _ _ _ _ => true
  | .vbcast _ _ _ => true
  | .vmov _ _ _ => true
  | .vmovs _ _ _ => true
  | .vins _ _ _ => true
  | .mand _ _ _ => true
  | .mor _ _ _ => true
  | .mxor _ _ _ => true
  | .mnot _ _ => true
  | .mpop _ _ => true
  | .mfirst _ _ => true
  | .xexp2 _ _ _ => true
  | .xlog2 _ _ _ => true
  | .xrcp _ _ _ => true
  | .xrsq _ _ _ => true
  | .xsqrt _ _ _ => true
  | .xsin _ _ _ => true
  | .xcos _ _ _ => true
  | .xtanh _ _ _ => true
  | .xlogi _ _ _ => true
  | .xerf _ _ _ => true
  | .xsmax _ _ _ _ => true
  | .xexpm _ _ _ _ => true
  | .bld _ t _ f => tileFormat f.toNat && t.toNat < 16 / formatWidth f.toNat
  | .bldLut4 _ _ _ _ => true
  | .mma _ _ _ _ f _ _ flags => tileFormat f.toNat && flags.toNat < 1024
  | .mmav _ _ _ a f r _ flags => tileFormat f.toNat && flags.toNat < 1024 && a.toNat + ((r.toNat + 1) * formatWidth f.toNat + 15) / 16 ≤ 32
  | .acz _ _ _ _ => true
  | .acinit _ _ _ _ => true
  | .aclose _ => true
  | .acrd _ _ b _ => b.toNat ≤ 24
  | .acst _ _ => true
  | .acstPart _ _ => true
  | .acmerge n a _ => n != a
  | .acdrop _ => true
  | .tld _ _ => true
  | .tswap _ => true
  | .slabReturn _ => true
  | .cpy _ _ _ _ => true
  | .cpyh _ _ _ _ => true
  | .gath _ _ _ _ => true
  | .scat _ _ _ _ => true
  | .send _ _ _ _ => true
  | .bcast _ _ _ _ => true
  | .ratm _ _ _ => true
  | .sqld _ _ => true
  | .csum _ _ => true
  | .nmq _ _ _ => true
  | .nmr _ _ _ => true
  | .coll _ _ _ => true
  | .carry _ _ _ _ => true
  | .merge _ _ _ _ _ _ => true
  | .cmpct _ _ _ _ => true
  | .commandComplete _ _ => true
  | .scratchpadDeliveryLanding _ _ => true
  | .remoteAtomicMessage _ _ => true
  | .scaleEntryLand _ _ => true
  | .candlePartialLand _ _ => true
  | .nmrBagLand _ _ => true
  | .prismCollectiveArrival _ => true
  | .collectiveResult _ => true
  | .carryDelivery _ => true
  | .fence s_ _ => s_ != 0
  | .ldsDevice _ _ _ _ s_ _ => s_.toNat < 2
  | .stsDevice _ _ _ _ s_ _ => s_ == 0 || s_ == 2
  | .aaddDevice _ _ _ _ _ _ => true
  | .aminDevice _ _ _ _ _ _ => true
  | .amaxDevice _ _ _ _ _ _ => true
  | .aandDevice _ _ _ _ _ _ => true
  | .aorDevice _ _ _ _ _ _ => true
  | .axorDevice _ _ _ _ _ _ => true
  | .aswpDevice _ _ _ _ _ _ => true
  | .acasDevice d _ _ _ _ _ => d != 31
  | .waitvDevice _ _ _ s_ _ => s_.toNat < 2
  | .ntoneDevice _ _ s_ _ => s_ == 0 || s_ == 2
  | .ntallDevice _ _ s_ _ => s_ == 0 || s_ == 2
  | .ownx _ _ _ => true
  | .ldsSp _ _ _ s_ _ => s_.toNat < 2
  | .stsSp _ _ _ s_ _ => s_ == 0 || s_ == 2
  | .aaddSp _ _ _ _ _ => true
  | .aminSp _ _ _ _ _ => true
  | .amaxSp _ _ _ _ _ => true
  | .aandSp _ _ _ _ _ => true
  | .aorSp _ _ _ _ _ => true
  | .axorSp _ _ _ _ _ => true
  | .aswpSp _ _ _ _ _ => true
  | .acasSp d _ _ _ _ => d != 31
  | .waitvSp _ _ s_ _ => s_.toNat < 2
  | .ntoneSp _ s_ _ => s_ == 0 || s_ == 2
  | .ntallSp _ s_ _ => s_ == 0 || s_ == 2
  | .waitvFreshRead _ => true
  | .binit _ _ => true
  | .barv _ _ => true
  | .bexp _ _ => true
  | .bwait _ _ _ s_ _ => s_.toNat < 2
  | .tkt _ _ => true
  | .qpush _ _ _ _ => true
  | .qpushPublish _ => true
  | .evpop _ _ => true
  | .sigw _ _ _ _ _ => true
  | .splitterSteerGroup _ => true
  | .exposedResultExpire _ => true
  | .pageWalkComplete _ _ => true
  | .sweepPeriodBoundary _ => true
  | .sweeperVisit _ _ => true
  | .shootdownStart _ => true
  | .shootdownComplete _ => true
  | .streamPinRelease _ => true
  | .forwardedLineResponse _ _ _ => true
  | .forwardedLineTimeout _ => true
  | .hubTableWrite _ => true
  | .hubTableRead _ => true
  | .hubTableOpComplete _ => true
  | .memoryRequestAccept _ => true
  | .memoryReadReturn _ _ => true
  | .cellWriteComplete _ => true
  | .perBankRefresh _ _ _ => true
  | .formatStart _ => true
  | .formatComplete _ => true
  | .scrubUnit _ _ => true
  | .reset => true
  | .wipeComplete => true
  | .regionDescriptorWrite _ _ _ _ => true
  | .regionDescriptorRead _ _ => true
  | .regionUpdateComplete _ => true
  | .plainBufferWriteback _ _ => true
  | .ownershipTransferComplete _ _ => true
  | .pageopAlloc _ => true
  | .pageopIncref _ => true
  | .pageopDecref _ => true
  | .pageopMigrate _ => true
  | .pageopExpand _ => true
  | .pageopCompress _ => true
  | .pageopPoolput _ => true
  | .pageopPooltake _ => true
  | .moveCopyComplete _ => true
  | .queueCreate _ => true
  | .queueStop _ => true
  | .queueResume _ => true
  | .queueDestroy _ => true
  | .queueQuery _ => true
  | .queueDestroyComplete _ => true
  | .packetNop _ _ => true
  | .packetLaunch _ _ => true
  | .packetCopy _ _ => true
  | .packetBcopy _ _ => true
  | .packetNmq _ _ => true
  | .packetNmr _ _ => true
  | .packetColl _ _ => true
  | .packetSignal _ _ => true
  | .packetWait _ _ => true
  | .packetMarker _ _ => true
  | .packetBloop _ _ => true
  | .bloopIteration _ _ => true
  | .packetBwait _ _ => true
  | .beaconMulticastLanding _ _ _ => true
  | .packetComplete _ _ => true
  | .ticketPushSequenced _ => true
  | .dispatch => true
  | .ageingStep _ => true
  | .taskCommit _ => true
  | .preemptRequestArrive _ => true
  | .contextSave _ _ => true
  | .logicSoftError _ => true
  | .emit _ => true
  | .emitx _ _ => true
  | .ldpm _ _ => true
  | .ldw _ _ _ => true
  | .addw _ _ _ => true
  | .addwImm _ _ _ => true
  | .subw _ _ _ => true
  | .subwImm _ _ _ => true
  | .andw _ _ _ => true
  | .andwImm _ _ _ => true
  | .cmpw _ _ => true
  | .cmpwImm _ _ => true
  | .br _ => true
  | .brc c _ => c.toNat < 4
  | .loopw _ _ => true
  | .endl => true
  | .wtok e k => e != 7 && k != 0
  | .wsig _ _ => true
  | .stopw => true
  | .deviceUnreachable _ => true
  | .holderLostUpdate _ => true
  | .rdmaWrite _ => true
  | .rdmaRead _ => true
  | .rdmaFetchAndAdd _ => true
  | .rdmaInvalidRequest _ => true
  | .fylvathenInboundAccess _ => true
  | .fylvathenRemoteAtomic _ => true
  | .flitReceive _ _ => true
  | .flitNakReplay _ _ => true
  | .laneFailing _ _ => true
  | .laneSwitch _ => true
  | .portRetrain _ => true
  | .portDown _ => true
  | .portUp _ => true
  | .mgmtReadlog _ => true
  | .mgmtClearlog _ => true
  | .mgmtMaprange _ _ => true
  | .mgmtInwin _ _ _ => true
  | .mgmtRdmaqp _ _ => true
  | .mgmtRoute _ _ => true
  | .mgmtWcsload _ _ => true
  | .mgmtAttest _ _ => true
  | .mgmtFwupdate _ _ => true
  | .mgmtLifecycle _ _ => true
  | .mgmtDebugunlock _ _ => true
  | .mgmtPower _ _ => true
  | .mgmtUnsupported _ _ => true
  | .powerOn _ => true
  | .clockThrottle _ => true
  | .thermalCritical => true
  | .powerLoss => true
  | .frameShootdownComplete _ => true
  | .retrainComplete _ => true

end Sys2Proof
end

