-- ==== Sys2Proof/Decode.lean ====
section
/-! DEFINITION. Decoding of instruction groups (R215 to R229) and of micro-operations (R391), total on any words, and
the encoders. A word is a natural number below 2^32. -/

namespace Sys2Proof

/-- The `n`-bit field of a word whose lowest bit is `lo`. -/
def fld {n : Nat} (w lo : Nat) : BitVec n := BitVec.ofNat n (w / 2 ^ lo)

/-- Whether the `n` bits of a word from bit `lo` hold `v`. -/
def is (w lo n v : Nat) : Bool := w / 2 ^ lo % 2 ^ n == v

/-- A zero-extended immediate of field width `k` (R220). -/
def immU (w : Nat) (pay : Option Nat) (k : Nat) : BitVec 32 :=
  match pay with
  | some p => BitVec.ofNat 32 (p * 2 ^ k + w % 2 ^ k)
  | none => BitVec.ofNat 32 (w % 2 ^ k)

/-- A sign-extended immediate of field width `k` (R220). -/
def immS (w : Nat) (pay : Option Nat) (k : Nat) : BitVec 32 :=
  match pay with
  | some p => BitVec.ofNat 32 (p * 2 ^ k + w % 2 ^ k)
  | none => (BitVec.ofNat k w).signExtend 32

/-- Whether a slot of the maps R225 to R229 is assigned; `k` is engine code × 64 + opcode. -/
def slotAssigned (k : Nat) : Bool :=
  (1 ≤ k && k ≤ 52)
  || (56 ≤ k && k ≤ 61)
  || (65 ≤ k && k ≤ 72)
  || (129 ≤ k && k ≤ 157)
  || (160 ≤ k && k ≤ 170)
  || (176 ≤ k && k ≤ 181)
  || (193 ≤ k && k ≤ 204)
  || (257 ≤ k && k ≤ 268)
  || (321 ≤ k && k ≤ 335)
  || (385 ≤ k && k ≤ 399)
  || (402 ≤ k && k ≤ 414)
  || (416 ≤ k && k ≤ 423)

/-- The instruction of a head word (R224 to R229): `none` where a reserved field is not zero. `pay` is the PAYLOAD of
its IMM, `tail` its TAIL word. -/
def headFieldsS (w : Nat) (pay : Option Nat) (_ : Nat) : Option Instr :=
  match w / 8388608 % 512 with
  | 1 => if is w 0 8 0 then some (.add (fld w 18) (fld w 13) (fld w 8)) else none
  | 2 => if is w 0 8 0 then some (.sub (fld w 18) (fld w 13) (fld w 8)) else none
  | 3 => if is w 0 8 0 then some (.mul (fld w 18) (fld w 13) (fld w 8)) else none
  | 4 => if is w 0 8 0 then some (.mulh (fld w 18) (fld w 13) (fld w 8)) else none
  | 5 => if is w 0 8 0 then some (.mulhn (fld w 18) (fld w 13) (fld w 8)) else none
  | 6 => if is w 0 8 0 then some (.div (fld w 18) (fld w 13) (fld w 8)) else none
  | 7 => if is w 0 8 0 then some (.divn (fld w 18) (fld w 13) (fld w 8)) else none
  | 8 => if is w 0 8 0 then some (.rem (fld w 18) (fld w 13) (fld w 8)) else none
  | 9 => if is w 0 8 0 then some (.remn (fld w 18) (fld w 13) (fld w 8)) else none
  | 10 => if is w 0 8 0 then some (.and (fld w 18) (fld w 13) (fld w 8)) else none
  | 11 => if is w 0 8 0 then some (.or (fld w 18) (fld w 13) (fld w 8)) else none
  | 12 => if is w 0 8 0 then some (.xor (fld w 18) (fld w 13) (fld w 8)) else none
  | 13 => if is w 0 8 0 then some (.andn (fld w 18) (fld w 13) (fld w 8)) else none
  | 14 => if is w 0 8 0 then some (.sll (fld w 18) (fld w 13) (fld w 8)) else none
  | 15 => if is w 0 8 0 then some (.srl (fld w 18) (fld w 13) (fld w 8)) else none
  | 16 => if is w 0 8 0 then some (.sra (fld w 18) (fld w 13) (fld w 8)) else none
  | 17 => if is w 0 13 0 then some (.clz (fld w 18) (fld w 13)) else none
  | 18 => if is w 0 13 0 then some (.ctz (fld w 18) (fld w 13)) else none
  | 19 => if is w 0 13 0 then some (.popc (fld w 18) (fld w 13)) else none
  | 20 => if is w 0 8 0 then some (.slt (fld w 18) (fld w 13) (fld w 8)) else none
  | 21 => if is w 0 8 0 then some (.sltn (fld w 18) (fld w 13) (fld w 8)) else none
  | 22 => if is w 0 8 0 then some (.seq (fld w 18) (fld w 13) (fld w 8)) else none
  | 23 => if is w 0 3 0 then some (.sel (fld w 18) (fld w 13) (fld w 8) (fld w 3)) else none
  | 24 => if is w 12 6 0 then some (.sysr (fld w 18) (fld w 0)) else none
  | 25 => if is w 12 1 0 && is w 18 5 0 then some (.sysw (fld w 13) (fld w 0)) else none
  | 26 => if is w 16 7 0 then some (.trap (fld w 0)) else none
  | 27 => if is w 0 23 0 then some (.eret) else none
  | 28 => if is w 16 7 0 then some (.bkpt (fld w 0)) else none
  | 29 => if is w 0 23 0 then some (.nop) else none
  | 30 => if is w 0 23 0 then some (.endTask) else none
  | 31 => if is w 0 8 0 && is w 18 5 0 then some (.wstart (fld w 13) (fld w 8)) else none
  | 32 => some (.addi (fld w 18) (fld w 13) (immU w pay 13))
  | 33 => some (.andi (fld w 18) (fld w 13) (immU w pay 13))
  | 34 => some (.ori (fld w 18) (fld w 13) (immU w pay 13))
  | 35 => some (.xori (fld w 18) (fld w 13) (immU w pay 13))
  | 36 => some (.slti (fld w 18) (fld w 13) (immS w pay 13))
  | 37 => if is w 6 7 0 then some (.slli (fld w 18) (fld w 13) (fld w 0)) else none
  | 38 => if is w 6 7 0 then some (.srli (fld w 18) (fld w 13) (fld w 0)) else none
  | 39 => if is w 6 7 0 then some (.srai (fld w 18) (fld w 13) (fld w 0)) else none
  | 40 => some (.movi (fld w 18) (immS w pay 18))
  | 41 => some (.movh (fld w 18) (immU w pay 18))
  | 42 => some (.ldsp (fld w 18) (fld w 13) (fld w 11) (immS w pay 11))
  | 43 => some (.stsp (fld w 18) (fld w 13) (fld w 11) (immS w pay 11))
  | 44 => if is w 14 2 0 then some (.ldslot (fld w 18) (fld w 16) (fld w 0)) else none
  | 45 => if is w 14 2 0 then some (.stslot (fld w 18) (fld w 16) (fld w 0)) else none
  | 46 => if is w 0 8 0 then some (.min (fld w 18) (fld w 13) (fld w 8)) else none
  | 47 => if is w 0 8 0 then some (.max (fld w 18) (fld w 13) (fld w 8)) else none
  | 48 => if is w 0 7 0 then some (.ldh (fld w 18) (fld w 14) (fld w 9) (fld w 7)) else none
  | 49 => if is w 0 7 0 then some (.sth (fld w 18) (fld w 14) (fld w 9) (fld w 7)) else none
  | 50 => if is w 0 8 0 then some (.minn (fld w 18) (fld w 13) (fld w 8)) else none
  | 51 => if is w 0 8 0 then some (.maxn (fld w 18) (fld w 13) (fld w 8)) else none
  | 52 => if is w 0 12 0 then some (.xlat (fld w 19) (fld w 17) (fld w 12)) else none
  | 56 => some (.b (immS w pay 23))
  | 57 => some (.bc (fld w 18) (fld w 13) (fld w 10) (immS w pay 10))
  | 58 => some (.bz (fld w 18) (immS w pay 18))
  | 59 => some (.bnz (fld w 18) (immS w pay 18))
  | 60 => some (.call (immS w pay 23))
  | 61 => if is w 0 13 0 && is w 18 5 0 then some (.jr (fld w 13)) else none
  | _ => none

/-- The instruction of a head word (R224 to R229): `none` where a reserved field is not zero. `pay` is the PAYLOAD of
its IMM, `tail` its TAIL word. -/
def headFieldsL (w : Nat) (pay : Option Nat) (_ : Nat) : Option Instr :=
  match w / 8388608 % 512 with
  | 65 => if is w 7 5 0 && is w 20 3 0 then some (.loop (fld w 17) (fld w 12) (immU w pay 7)) else none
  | 66 => if is w 7 10 0 && is w 20 3 0 then some (.lbody (fld w 17) (immU w pay 7)) else none
  | 67 => if is w 0 12 0 && is w 15 2 0 then some (.lbrk (fld w 20) (fld w 17) (fld w 12)) else none
  | 68 => if is w 7 5 0 && is w 17 3 0 then some (.agset (fld w 20) (fld w 12) (immU w pay 7)) else none
  | 69 => if is w 0 7 0 then some (.agdim (fld w 20) (fld w 17) (fld w 12) (fld w 7)) else none
  | 70 => if is w 0 12 0 then some (.agind (fld w 20) (fld w 17) (fld w 12)) else none
  | 71 => if is w 7 10 0 then some (.agstep (fld w 20) (fld w 17) (immU w pay 7)) else none
  | 72 => if is w 0 12 0 && is w 17 3 6 then some (.agrd (fld w 20) (fld w 12)) else if is w 0 12 0 then some (.agrdIdx (fld w 20) (fld w 17) (fld w 12)) else none
  | _ => none

/-- The instruction of a head word (R224 to R229): `none` where a reserved field is not zero. `pay` is the PAYLOAD of
its IMM, `tail` its TAIL word. -/
def headFieldsV (w : Nat) (pay : Option Nat) (tail : Nat) : Option Instr :=
  match w / 8388608 % 512 with
  | 129 => some (.vadd (fld w 18) (fld w 13) (fld w 8) (fld w 5) (fld w 3) (fld w 1) (fld w 0))
  | 130 => some (.vsub (fld w 18) (fld w 13) (fld w 8) (fld w 5) (fld w 3) (fld w 1) (fld w 0))
  | 131 => some (.vmul (fld w 18) (fld w 13) (fld w 8) (fld w 5) (fld w 3) (fld w 1) (fld w 0))
  | 132 => some (.vfma (fld w 18) (fld w 13) (fld w 8) (fld w 5) (fld w 3) (fld w 1) (fld w 0))
  | 133 => some (.vfms (fld w 18) (fld w 13) (fld w 8) (fld w 5) (fld w 3) (fld w 1) (fld w 0))
  | 134 => some (.vfnma (fld w 18) (fld w 13) (fld w 8) (fld w 5) (fld w 3) (fld w 1) (fld w 0))
  | 135 => if is w 1 2 0 then some (.vmin (fld w 18) (fld w 13) (fld w 8) (fld w 5) (fld w 3) (fld w 0)) else none
  | 136 => if is w 1 2 0 then some (.vmax (fld w 18) (fld w 13) (fld w 8) (fld w 5) (fld w 3) (fld w 0)) else none
  | 137 => if is w 1 2 0 && is w 8 5 0 then some (.vabs (fld w 18) (fld w 13) (fld w 5) (fld w 3) (fld w 0)) else none
  | 138 => if is w 1 2 0 && is w 8 5 0 then some (.vneg (fld w 18) (fld w 13) (fld w 5) (fld w 3) (fld w 0)) else none
  | 139 => some (.vaddi (fld w 18) (fld w 13) (fld w 10) (immS w pay 10))
  | 140 => if is w 0 5 0 then some (.vand (fld w 18) (fld w 13) (fld w 8) (fld w 5)) else none
  | 141 => if is w 0 5 0 then some (.vor (fld w 18) (fld w 13) (fld w 8) (fld w 5)) else none
  | 142 => if is w 0 5 0 then some (.vxor (fld w 18) (fld w 13) (fld w 8) (fld w 5)) else none
  | 143 => if is w 0 5 0 && is w 8 5 0 then some (.vnot (fld w 18) (fld w 13) (fld w 5)) else none
  | 144 => if is w 0 5 0 then some (.vshl (fld w 18) (fld w 13) (fld w 8) (fld w 5)) else none
  | 145 => if is w 0 5 0 then some (.vshr (fld w 18) (fld w 13) (fld w 8) (fld w 5)) else none
  | 146 => if is w 0 5 0 then some (.vsra (fld w 18) (fld w 13) (fld w 8) (fld w 5)) else none
  | 147 => if is w 21 2 0 then some (.vcmp (fld w 18) (fld w 13) (fld w 8) (fld w 5) (fld w 3) (fld w 0)) else none
  | 148 => if is w 0 5 0 then some (.vsel (fld w 18) (fld w 13) (fld w 8) (fld w 5)) else none
  | 149 => if is w 8 5 0 then some (.vclass (fld w 18) (fld w 13) (fld w 5) (fld w 0)) else none
  | 150 => some (.vcvt (fld w 18) (fld w 13) (fld w 8) (fld w 3) (fld w 1) (fld w 0))
  | 151 => some (.vpack (fld w 18) (fld w 13) (fld w 8) (fld w 3) (fld w 1) (fld w 0))
  | 152 => some (.vunpack (fld w 18) (fld w 13) (fld w 8) (fld w 3) (fld w 0))
  | 153 => some (.vscale (fld w 18) (fld w 13) (fld w 8) (fld w 5) (fld w 3) (fld w 1) (fld w 0))
  | 154 => if is w 3 2 0 then some (.vred (fld w 18) (fld w 13) (fld w 8) (fld w 5) (fld w 0) (fld tail 18) (fld tail 0)) else none
  | 155 => if is w 3 2 0 then some (.vscan (fld w 18) (fld w 13) (fld w 8) (fld w 5) (fld w 0) (fld tail 18) (fld tail 0)) else none
  | 156 => if is w 3 5 0 then some (.vmxq (fld w 18) (fld w 13) (fld w 8) (fld w 0)) else none
  | 157 => some (.vmxd (fld w 18) (fld w 13) (fld w 8) (fld w 3) (fld w 1) (fld w 0))
  | 160 => if is w 9 1 0 then some (.vld (fld w 18) (fld w 13) (fld w 10) (immS w none 9)) else if is w 5 4 0 && is w 13 5 0 && is w 9 1 1 then some (.vldSlot (fld w 18) (fld w 10) (fld w 0)) else none
  | 161 => if is w 9 1 0 then some (.vst (fld w 18) (fld w 13) (fld w 10) (immS w none 9)) else if is w 5 4 0 && is w 13 5 0 && is w 9 1 1 then some (.vstSlot (fld w 18) (fld w 10) (fld w 0)) else none
  | 162 => if is w 9 1 0 then some (.vldb (fld w 18) (fld w 13) (fld w 10) (immS w none 9)) else none
  | 163 => if is w 2 3 0 then some (.vldg (fld w 18) (fld w 13) (fld w 8) (fld w 5) (fld w 0)) else none
  | 164 => if is w 2 3 0 then some (.vstg (fld w 18) (fld w 13) (fld w 8) (fld w 5) (fld w 0)) else none
  | 165 => if is w 0 5 0 then some (.vgat (fld w 18) (fld w 13) (fld w 8) (fld w 5)) else none
  | 166 => if is w 0 5 0 then some (.vperm (fld w 18) (fld w 13) (fld w 8) (fld w 5)) else none
  | 167 => if is w 0 5 0 && is w 8 5 0 then some (.vbcast (fld w 18) (fld w 13) (fld w 5)) else none
  | 168 => if is w 0 5 0 && is w 8 5 0 then some (.vmov (fld w 18) (fld w 13) (fld w 5)) else none
  | 169 => if is w 0 8 0 then some (.vmovs (fld w 18) (fld w 13) (fld w 8)) else none
  | 170 => if is w 0 8 0 then some (.vins (fld w 18) (fld w 13) (fld w 8)) else none
  | 176 => if is w 0 12 0 && is w 21 2 0 then some (.mand (fld w 18) (fld w 15) (fld w 12)) else none
  | 177 => if is w 0 12 0 && is w 21 2 0 then some (.mor (fld w 18) (fld w 15) (fld w 12)) else none
  | 178 => if is w 0 12 0 && is w 21 2 0 then some (.mxor (fld w 18) (fld w 15) (fld w 12)) else none
  | 179 => if is w 0 15 0 && is w 21 2 0 then some (.mnot (fld w 18) (fld w 15)) else none
  | 180 => if is w 0 15 0 then some (.mpop (fld w 18) (fld w 15)) else none
  | 181 => if is w 0 15 0 then some (.mfirst (fld w 18) (fld w 15)) else none
  | _ => none

/-- The instruction of a head word (R224 to R229): `none` where a reserved field is not zero. `pay` is the PAYLOAD of
its IMM, `tail` its TAIL word. -/
def headFieldsX (w : Nat) (_ : Option Nat) (_ : Nat) : Option Instr :=
  match w / 8388608 % 512 with
  | 193 => if is w 0 5 0 && is w 8 5 0 then some (.xexp2 (fld w 18) (fld w 13) (fld w 5)) else none
  | 194 => if is w 0 5 0 && is w 8 5 0 then some (.xlog2 (fld w 18) (fld w 13) (fld w 5)) else none
  | 195 => if is w 0 5 0 && is w 8 5 0 then some (.xrcp (fld w 18) (fld w 13) (fld w 5)) else none
  | 196 => if is w 0 5 0 && is w 8 5 0 then some (.xrsq (fld w 18) (fld w 13) (fld w 5)) else none
  | 197 => if is w 0 5 0 && is w 8 5 0 then some (.xsqrt (fld w 18) (fld w 13) (fld w 5)) else none
  | 198 => if is w 0 5 0 && is w 8 5 0 then some (.xsin (fld w 18) (fld w 13) (fld w 5)) else none
  | 199 => if is w 0 5 0 && is w 8 5 0 then some (.xcos (fld w 18) (fld w 13) (fld w 5)) else none
  | 200 => if is w 0 5 0 && is w 8 5 0 then some (.xtanh (fld w 18) (fld w 13) (fld w 5)) else none
  | 201 => if is w 0 5 0 && is w 8 5 0 then some (.xlogi (fld w 18) (fld w 13) (fld w 5)) else none
  | 202 => if is w 0 5 0 && is w 8 5 0 then some (.xerf (fld w 18) (fld w 13) (fld w 5)) else none
  | 203 => if is w 0 5 0 then some (.xsmax (fld w 18) (fld w 13) (fld w 8) (fld w 5)) else none
  | 204 => if is w 0 5 0 then some (.xexpm (fld w 18) (fld w 13) (fld w 8) (fld w 5)) else none
  | _ => none

/-- The instruction of a head word (R224 to R229): `none` where a reserved field is not zero. `pay` is the PAYLOAD of
its IMM, `tail` its TAIL word. -/
def headFieldsM (w : Nat) (_ : Option Nat) (tail : Nat) : Option Instr :=
  match w / 8388608 % 512 with
  | 257 => if is w 0 8 0 && is w 11 5 7 then some (.bldLut4 (fld w 21) (fld w 19) (fld w 16) (fld w 8)) else if is w 0 11 0 then some (.bld (fld w 21) (fld w 19) (fld w 16) (fld w 11)) else none
  | 258 => if is w 0 2 0 && is w 14 2 0 then some (.mma (fld w 20) (fld w 18) (fld w 16) (fld w 11) (fld w 6) (fld w 2) (fld tail 18) (fld tail 0)) else none
  | 259 => if is w 0 2 0 then some (.mmav (fld w 20) (fld w 18) (fld w 16) (fld w 11) (fld w 6) (fld w 2) (fld tail 18) (fld tail 0)) else none
  | 260 => if is w 0 10 0 && is w 17 3 0 then some (.acz (fld w 20) (fld w 12) (fld w 10) (fld tail 18)) else none
  | 261 => if is w 0 10 0 && is w 17 3 0 then some (.acinit (fld w 20) (fld w 12) (fld w 10) (fld tail 18)) else none
  | 262 => if is w 0 20 0 then some (.aclose (fld w 20)) else none
  | 263 => if is w 0 10 0 then some (.acrd (fld w 20) (fld w 17) (fld w 12) (fld w 10)) else none
  | 264 => if is w 0 10 0 && is w 10 2 0 && is w 17 3 0 then some (.acst (fld w 20) (fld w 12)) else if is w 0 10 0 && is w 10 2 1 && is w 17 3 0 then some (.acstPart (fld w 20) (fld w 12)) else none
  | 265 => if is w 0 17 0 then some (.acmerge (fld w 20) (fld w 17) (fld tail 18)) else none
  | 266 => if is w 0 20 0 then some (.acdrop (fld w 20)) else none
  | 267 => if is w 0 8 0 && is w 11 5 0 && is w 19 4 0 then some (.tld (fld w 16) (fld w 8)) else none
  | 268 => if is w 0 8 0 && is w 11 12 0 then some (.tswap (fld w 8)) else none
  | _ => none

/-- The instruction of a head word (R224 to R229): `none` where a reserved field is not zero. `pay` is the PAYLOAD of
its IMM, `tail` its TAIL word. -/
def headFieldsC (w : Nat) (_ : Option Nat) (tail : Nat) : Option Instr :=
  match w / 8388608 % 512 with
  | 321 => some (.cpy (fld w 18) (fld w 13) (fld w 8) (fld w 0))
  | 322 => some (.cpyh (fld w 18) (fld w 13) (fld w 8) (fld w 0))
  | 323 => some (.gath (fld w 18) (fld w 13) (fld w 8) (fld w 0))
  | 324 => some (.scat (fld w 18) (fld w 13) (fld w 8) (fld w 0))
  | 325 => some (.send (fld w 18) (fld w 13) (fld w 8) (fld w 0))
  | 326 => some (.bcast (fld w 18) (fld w 13) (fld w 8) (fld w 0))
  | 327 => if is w 8 5 0 then some (.ratm (fld w 18) (fld w 13) (fld w 0)) else none
  | 328 => if is w 8 5 0 && is w 18 5 0 then some (.sqld (fld w 13) (fld w 0)) else none
  | 329 => if is w 8 5 0 && is w 18 5 0 then some (.csum (fld w 13) (fld w 0)) else none
  | 330 => if is w 8 10 0 then some (.nmq (fld w 18) (fld w 0) (fld tail 18)) else none
  | 331 => if is w 8 10 0 then some (.nmr (fld w 18) (fld w 0) (fld tail 18)) else none
  | 332 => if is w 8 10 0 then some (.coll (fld w 18) (fld w 0) (fld tail 18)) else none
  | 333 => some (.carry (fld w 18) (fld w 13) (fld w 8) (fld w 0))
  | 334 => some (.merge (fld w 18) (fld w 13) (fld w 8) (fld w 0) (fld tail 18) (fld tail 0))
  | 335 => some (.cmpct (fld w 18) (fld w 13) (fld w 8) (fld w 0))
  | _ => none

/-- The instruction of a head word (R224 to R229): `none` where a reserved field is not zero. `pay` is the PAYLOAD of
its IMM, `tail` its TAIL word. -/
def headFieldsQ (w : Nat) (_ : Option Nat) (_ : Nat) : Option Instr :=
  match w / 8388608 % 512 with
  | 385 => if is w 8 15 0 then some (.fence (fld w 6) (fld w 0)) else none
  | 386 => some (.ldsDevice (fld w 18) (fld w 14) (fld w 9) (fld w 8) (fld w 6) (fld w 0))
  | 387 => some (.stsDevice (fld w 18) (fld w 14) (fld w 9) (fld w 8) (fld w 6) (fld w 0))
  | 388 => some (.aaddDevice (fld w 18) (fld w 14) (fld w 9) (fld w 8) (fld w 6) (fld w 0))
  | 389 => some (.aminDevice (fld w 18) (fld w 14) (fld w 9) (fld w 8) (fld w 6) (fld w 0))
  | 390 => some (.amaxDevice (fld w 18) (fld w 14) (fld w 9) (fld w 8) (fld w 6) (fld w 0))
  | 391 => some (.aandDevice (fld w 18) (fld w 14) (fld w 9) (fld w 8) (fld w 6) (fld w 0))
  | 392 => some (.aorDevice (fld w 18) (fld w 14) (fld w 9) (fld w 8) (fld w 6) (fld w 0))
  | 393 => some (.axorDevice (fld w 18) (fld w 14) (fld w 9) (fld w 8) (fld w 6) (fld w 0))
  | 394 => some (.aswpDevice (fld w 18) (fld w 14) (fld w 9) (fld w 8) (fld w 6) (fld w 0))
  | 395 => some (.acasDevice (fld w 18) (fld w 14) (fld w 9) (fld w 8) (fld w 6) (fld w 0))
  | 396 => if is w 8 1 1 then some (.waitvDevice (fld w 18) (fld w 14) (fld w 9) (fld w 6) (fld w 0)) else none
  | 397 => if is w 18 5 0 && is w 8 1 1 then some (.ntoneDevice (fld w 14) (fld w 9) (fld w 6) (fld w 0)) else none
  | 398 => if is w 18 5 0 && is w 8 1 1 then some (.ntallDevice (fld w 14) (fld w 9) (fld w 6) (fld w 0)) else none
  | 399 => if is w 0 9 0 then some (.ownx (fld w 18) (fld w 14) (fld w 9)) else none
  | 402 => if is w 14 4 0 then some (.ldsSp (fld w 18) (fld w 9) (fld w 8) (fld w 6) (fld w 0)) else none
  | 403 => if is w 14 4 0 then some (.stsSp (fld w 18) (fld w 9) (fld w 8) (fld w 6) (fld w 0)) else none
  | 404 => if is w 14 4 0 then some (.aaddSp (fld w 18) (fld w 9) (fld w 8) (fld w 6) (fld w 0)) else none
  | 405 => if is w 14 4 0 then some (.aminSp (fld w 18) (fld w 9) (fld w 8) (fld w 6) (fld w 0)) else none
  | 406 => if is w 14 4 0 then some (.amaxSp (fld w 18) (fld w 9) (fld w 8) (fld w 6) (fld w 0)) else none
  | 407 => if is w 14 4 0 then some (.aandSp (fld w 18) (fld w 9) (fld w 8) (fld w 6) (fld w 0)) else none
  | 408 => if is w 14 4 0 then some (.aorSp (fld w 18) (fld w 9) (fld w 8) (fld w 6) (fld w 0)) else none
  | 409 => if is w 14 4 0 then some (.axorSp (fld w 18) (fld w 9) (fld w 8) (fld w 6) (fld w 0)) else none
  | 410 => if is w 14 4 0 then some (.aswpSp (fld w 18) (fld w 9) (fld w 8) (fld w 6) (fld w 0)) else none
  | 411 => if is w 14 4 0 then some (.acasSp (fld w 18) (fld w 9) (fld w 8) (fld w 6) (fld w 0)) else none
  | 412 => if is w 14 4 0 && is w 8 1 1 then some (.waitvSp (fld w 18) (fld w 9) (fld w 6) (fld w 0)) else none
  | 413 => if is w 14 9 0 && is w 8 1 1 then some (.ntoneSp (fld w 9) (fld w 6) (fld w 0)) else none
  | 414 => if is w 14 9 0 && is w 8 1 1 then some (.ntallSp (fld w 9) (fld w 6) (fld w 0)) else none
  | 416 => if is w 0 8 0 && is w 18 5 0 then some (.binit (fld w 13) (fld w 8)) else none
  | 417 => if is w 0 8 0 && is w 18 5 0 then some (.barv (fld w 13) (fld w 8)) else none
  | 418 => if is w 0 8 0 && is w 18 5 0 then some (.bexp (fld w 13) (fld w 8)) else none
  | 419 => some (.bwait (fld w 18) (fld w 13) (fld w 8) (fld w 6) (fld w 0))
  | 420 => if is w 0 13 0 then some (.tkt (fld w 18) (fld w 13)) else none
  | 421 => if is w 6 2 0 then some (.qpush (fld w 18) (fld w 13) (fld w 8) (fld w 0)) else none
  | 422 => if is w 0 13 0 then some (.evpop (fld w 18) (fld w 13)) else none
  | 423 => if is w 22 1 0 then some (.sigw (fld w 18) (fld w 13) (fld w 8) (fld w 6) (fld w 0)) else none
  | _ => none

/-- The micro-operation of a control-store word (R391): `none` where a reserved field is not zero. -/
def microFields (w : Nat) : Option Instr :=
  match w / 134217728 % 32 with
  | 1 => if is w 0 25 0 then some (.emit (fld w 25)) else none
  | 2 => if is w 0 21 0 then some (.emitx (fld w 25) (fld w 21)) else none
  | 3 => if is w 0 17 0 then some (.ldpm (fld w 23) (fld w 17)) else none
  | 4 => if is w 16 3 0 then some (.ldw (fld w 23) (fld w 19) (fld w 0)) else none
  | 5 => if is w 0 14 0 && is w 18 1 0 then some (.addw (fld w 23) (fld w 19) (fld w 14)) else if is w 18 1 1 then some (.addwImm (fld w 23) (fld w 19) (fld w 0)) else none
  | 6 => if is w 0 14 0 && is w 18 1 0 then some (.subw (fld w 23) (fld w 19) (fld w 14)) else if is w 18 1 1 then some (.subwImm (fld w 23) (fld w 19) (fld w 0)) else none
  | 7 => if is w 0 14 0 && is w 18 1 0 then some (.andw (fld w 23) (fld w 19) (fld w 14)) else if is w 18 1 1 then some (.andwImm (fld w 23) (fld w 19) (fld w 0)) else none
  | 8 => if is w 0 14 0 && is w 18 1 0 && is w 23 4 0 then some (.cmpw (fld w 19) (fld w 14)) else if is w 23 4 0 && is w 18 1 1 then some (.cmpwImm (fld w 19) (fld w 0)) else none
  | 9 => if is w 11 16 0 then some (.br (fld w 0)) else none
  | 10 => if is w 11 13 0 then some (.brc (fld w 24) (fld w 0)) else none
  | 11 => if is w 11 8 0 && is w 23 4 0 then some (.loopw (fld w 19) (fld w 0)) else none
  | 12 => if is w 0 27 0 then some (.endl) else none
  | 13 => if is w 0 19 0 then some (.wtok (fld w 24) (fld w 19)) else none
  | 14 => if is w 0 13 0 && is w 23 4 0 then some (.wsig (fld w 19) (fld w 13)) else none
  | 15 => if is w 0 27 0 then some (.stopw) else none
  | _ => none

/-- The instruction of a head word. -/
def headInstr (w : Nat) (pay : Option Nat) (tail : Nat) : Option Instr :=
  match w / 536870912 with
  | 0 => headFieldsS w pay tail
  | 1 => headFieldsL w pay tail
  | 2 => headFieldsV w pay tail
  | 3 => headFieldsX w pay tail
  | 4 => headFieldsM w pay tail
  | 5 => headFieldsC w pay tail
  | 6 => headFieldsQ w pay tail
  | _ => none

/-- What a word is in the structure of a group (R216, R218). -/
inductive WordKind where
  | unassigned | dep | imm | tail | head
  deriving DecidableEq, Repr

/-- The kind of a word: P slots 0 to 5 are the prefixes (R218). -/
def wordKind (w : Nat) : WordKind :=
  match w / 16777216 with
  | 224 => .dep
  | 225 => .imm
  | 226 => .tail
  | _ => if slotAssigned (w / 8388608) then .head else .unassigned

/-- The long heads (R221). -/
def longHead (w : Nat) : Bool :=
  match w / 8388608 with
  | 154 | 155 | 258 | 259 | 260 | 261 | 265 | 330 | 331 | 332 | 334 => true
  | _ => false

/-- The width of the immediate field that IMM extends (R224), 0 where the format refuses IMM. -/
def immWidth (w : Nat) : Nat :=
  let k := w / 8388608
  if 32 ≤ k && k ≤ 36 then 13
  else if k == 40 || k == 41 then 18
  else if k == 42 || k == 43 then 11
  else if k == 56 || k == 60 then 23
  else if k == 57 then 10
  else if k == 58 || k == 59 then 18
  else if 65 ≤ k && k ≤ 72 then 7
  else if k == 139 then 10
  else 0

/-- The L words without a used immediate, before which an IMM traps with ILLEGAL (R257). -/
def immUnused (w : Nat) : Bool :=
  let k := w / 8388608
  k == 67 || k == 69 || k == 70 || k == 72

/-- The FLAGS bits that a long head defines (R221, R289, R314, R343, R370): how many, from bit 0. -/
def flagBits (w : Nat) : Nat :=
  match w / 8388608 with
  | 154 => 2
  | 155 => 3
  | 258 | 259 => 10
  | 334 => 18
  | _ => 0

/-- An instruction group (R216): its DEP references (engine code, back-distance), its instruction, how many words
stand before its head and how many it has. -/
structure Group where
  deps  : List (BitVec 3 × BitVec 5)
  instr : Instr
  head  : Nat
  len   : Nat
  deriving DecidableEq, Repr

/-- Why a group is refused: the trap code (R398) and the index of the word whose check failed (R217; log 11). -/
structure Refused where
  code : Nat
  idx  : Nat
  deriving DecidableEq, Repr

/-- A reference of a DEP word (R218). -/
def depRef (w j : Nat) : Option (BitVec 3 × BitVec 5) :=
  let b := w / 2 ^ (8 * j) % 256
  if b = 0 then none else some (BitVec.ofNat 3 (b / 32), BitVec.ofNat 5 b)

/-- The references that a DEP word names; a zero byte names nothing (R219). -/
def depRefs (w : Nat) : List (BitVec 3 × BitVec 5) :=
  (depRef w 0).toList ++ (depRef w 1).toList ++ (depRef w 2).toList

/-- Distance 0 with a nonzero engine code is a nonzero reserved field (R219). -/
def depReserved (w : Nat) : Bool := (depRefs w).any fun r => r.2 == 0

/-- Engine code 7 produces no tokens (R219). -/
def depRange (w : Nat) : Bool := (depRefs w).any fun r => r.1 == 7

/-- The head with the words before and after it: steps 2 (the rest), 3 and 4 of R217. `i` is the index of the head. -/
def decodeAt (dep imm : Option Nat) (w : Nat) (rest : List Nat) (i : Nat) : Except Refused Group :=
  if wordKind w = .unassigned then .error ⟨1, i⟩
  else if longHead w && (match rest with | t :: _ => wordKind t == .unassigned | [] => false) then .error ⟨1, i + 1⟩
  else if wordKind w = .dep || wordKind w = .tail || wordKind w = .imm then .error ⟨2, i⟩
  else if imm.isSome && immWidth w == 0 then .error ⟨2, i - 1⟩
  else if longHead w && (match rest with | t :: _ => wordKind t != .tail | [] => true) then .error ⟨2, i⟩
  else if dep.any depReserved then .error ⟨1, 0⟩
  else if imm.any fun p => immUnused w || 2 ^ (32 - immWidth w) ≤ p % 16777216 then .error ⟨1, i - 1⟩
  else
    let long := longHead w
    let tail := if long then rest.headD 0 % 16777216 else 0
    let keep := tail / 262144 * 262144 + tail % 2 ^ flagBits w
    match headInstr w (imm.map (· % 16777216)) keep with
    | none => .error ⟨1, i⟩
    | some instr =>
      if !wellFormed instr then .error ⟨1, i⟩
      else if tail ≠ keep then .error ⟨1, i + 1⟩
      else if dep.any depRange then .error ⟨14, 0⟩
      else .ok { deps := (dep.map depRefs).getD [], instr, head := i, len := if long then i + 2 else i + 1 }

/-- The group at the start of a list of words (R216, R217): one that needs a word beyond them fails its structure. -/
def decodeGroup : List Nat → Except Refused Group
  | [] => .error ⟨2, 0⟩
  | w :: ws =>
    match wordKind w with
    | .dep =>
      match ws with
      | [] => .error ⟨2, 0⟩
      | v :: vs =>
        match wordKind v with
        | .imm =>
          match vs with
          | [] => .error ⟨2, 1⟩
          | u :: us => decodeAt (some w) (some v) u us 2
        | _ => decodeAt (some w) none v vs 1
    | .imm =>
      match ws with
      | [] => .error ⟨2, 0⟩
      | v :: vs => decodeAt none (some w) v vs 1
    | _ => decodeAt none none w ws 0

/-- The least number of words of a list that show how long the group at its start is (at most 4). -/
def groupNeeds : List Nat → Nat
  | [] => 1
  | w :: ws =>
    match wordKind w with
    | .dep =>
      match ws with
      | [] => 2
      | v :: vs =>
        match wordKind v with
        | .imm =>
          match vs with
          | [] => 3
          | u :: _ => if longHead u then 4 else 3
        | _ => if longHead v then 3 else 2
    | .imm =>
      match ws with
      | [] => 2
      | v :: _ => if longHead v then 3 else 2
    | _ => if longHead w then 2 else 1

/-- The group at the start of a list of words, of which the first `room` lie in the group's aligned 64 KiB (R217): step 1
looks at every word of the group; a word beyond the 64 KiB then fails its structure (R216). -/
def decodeIn (room : Nat) (ws : List Nat) : Except Refused Group :=
  if groupNeeds ws ≤ room then decodeGroup ws
  else
    match (ws.take (groupNeeds ws)).findIdx? fun w => wordKind w == .unassigned with
    | some i => .error ⟨1, i⟩
    | none => decodeGroup (ws.take room)

/-- How many words from an address on lie in its aligned 64 KiB. -/
def wordsLeft (va : Nat) : Nat := (65536 - va % 65536) / 4

/-- The causes of a WICK trap (R394, R398). -/
def wickOpcode : Nat := 1
def wickField : Nat := 2

/-- The micro-operation of a control-store word, or its cause (R391, R394). -/
def decodeMicro (w : Nat) : Except Nat Instr :=
  let op := w / 134217728 % 32
  if op = 0 || 16 ≤ op then .error wickOpcode
  else
    match microFields w with
    | none => .error wickField
    | some i => if wellFormed i then .ok i else .error wickField

/-- How the immediate of an encoding is extended (R220). -/
inductive Imm where
  | none
  | plain (i : BitVec 32) (k : Nat)
  | signed (i : BitVec 32) (k : Nat)
  deriving DecidableEq, Repr

/-- The head word, the immediate with the width of its field, and the TAIL of an instruction word, from the encodings
of R224 to R229 (none: the row is no Miolos word). -/
def encodeHead : Instr → Option (Nat × Imm × Option Nat)
  | .add d a b => some (8388608 + d.toNat * 262144 + a.toNat * 8192 + b.toNat * 256, .none, none)
  | .sub d a b => some (16777216 + d.toNat * 262144 + a.toNat * 8192 + b.toNat * 256, .none, none)
  | .mul d a b => some (25165824 + d.toNat * 262144 + a.toNat * 8192 + b.toNat * 256, .none, none)
  | .mulh d a b => some (33554432 + d.toNat * 262144 + a.toNat * 8192 + b.toNat * 256, .none, none)
  | .mulhn d a b => some (41943040 + d.toNat * 262144 + a.toNat * 8192 + b.toNat * 256, .none, none)
  | .div d a b => some (50331648 + d.toNat * 262144 + a.toNat * 8192 + b.toNat * 256, .none, none)
  | .divn d a b => some (58720256 + d.toNat * 262144 + a.toNat * 8192 + b.toNat * 256, .none, none)
  | .rem d a b => some (67108864 + d.toNat * 262144 + a.toNat * 8192 + b.toNat * 256, .none, none)
  | .remn d a b => some (75497472 + d.toNat * 262144 + a.toNat * 8192 + b.toNat * 256, .none, none)
  | .and d a b => some (83886080 + d.toNat * 262144 + a.toNat * 8192 + b.toNat * 256, .none, none)
  | .or d a b => some (92274688 + d.toNat * 262144 + a.toNat * 8192 + b.toNat * 256, .none, none)
  | .xor d a b => some (100663296 + d.toNat * 262144 + a.toNat * 8192 + b.toNat * 256, .none, none)
  | .andn d a b => some (109051904 + d.toNat * 262144 + a.toNat * 8192 + b.toNat * 256, .none, none)
  | .sll d a b => some (117440512 + d.toNat * 262144 + a.toNat * 8192 + b.toNat * 256, .none, none)
  | .srl d a b => some (125829120 + d.toNat * 262144 + a.toNat * 8192 + b.toNat * 256, .none, none)
  | .sra d a b => some (134217728 + d.toNat * 262144 + a.toNat * 8192 + b.toNat * 256, .none, none)
  | .clz d a => some (142606336 + d.toNat * 262144 + a.toNat * 8192, .none, none)
  | .ctz d a => some (150994944 + d.toNat * 262144 + a.toNat * 8192, .none, none)
  | .popc d a => some (159383552 + d.toNat * 262144 + a.toNat * 8192, .none, none)
  | .slt d a b => some (167772160 + d.toNat * 262144 + a.toNat * 8192 + b.toNat * 256, .none, none)
  | .sltn d a b => some (176160768 + d.toNat * 262144 + a.toNat * 8192 + b.toNat * 256, .none, none)
  | .seq d a b => some (184549376 + d.toNat * 262144 + a.toNat * 8192 + b.toNat * 256, .none, none)
  | .sel d a b c => some (192937984 + d.toNat * 262144 + a.toNat * 8192 + b.toNat * 256 + c.toNat * 8, .none, none)
  | .sysr d x => some (201326592 + d.toNat * 262144 + x.toNat, .none, none)
  | .sysw a x => some (209715200 + a.toNat * 8192 + x.toNat, .none, none)
  | .trap i => some (218103808 + i.toNat, .none, none)
  | .eret => some (226492416, .none, none)
  | .bkpt i => some (234881024 + i.toNat, .none, none)
  | .nop => some (243269632, .none, none)
  | .endTask => some (251658240, .none, none)
  | .wstart a b => some (260046848 + a.toNat * 8192 + b.toNat * 256, .none, none)
  | .addi d a i => some (268435456 + d.toNat * 262144 + a.toNat * 8192 + i.toNat % 8192, .plain i 13, none)
  | .andi d a i => some (276824064 + d.toNat * 262144 + a.toNat * 8192 + i.toNat % 8192, .plain i 13, none)
  | .ori d a i => some (285212672 + d.toNat * 262144 + a.toNat * 8192 + i.toNat % 8192, .plain i 13, none)
  | .xori d a i => some (293601280 + d.toNat * 262144 + a.toNat * 8192 + i.toNat % 8192, .plain i 13, none)
  | .slti d a i => some (301989888 + d.toNat * 262144 + a.toNat * 8192 + i.toNat % 8192, .signed i 13, none)
  | .slli d a i => some (310378496 + d.toNat * 262144 + a.toNat * 8192 + i.toNat, .none, none)
  | .srli d a i => some (318767104 + d.toNat * 262144 + a.toNat * 8192 + i.toNat, .none, none)
  | .srai d a i => some (327155712 + d.toNat * 262144 + a.toNat * 8192 + i.toNat, .none, none)
  | .movi d i => some (335544320 + d.toNat * 262144 + i.toNat % 262144, .signed i 18, none)
  | .movh d i => some (343932928 + d.toNat * 262144 + i.toNat % 262144, .plain i 18, none)
  | .ldsp d a w i => some (352321536 + d.toNat * 262144 + a.toNat * 8192 + w.toNat * 2048 + i.toNat % 2048, .signed i 11, none)
  | .stsp d a w i => some (360710144 + d.toNat * 262144 + a.toNat * 8192 + w.toNat * 2048 + i.toNat % 2048, .signed i 11, none)
  | .ldslot d w i => some (369098752 + d.toNat * 262144 + w.toNat * 65536 + i.toNat, .none, none)
  | .stslot d w i => some (377487360 + d.toNat * 262144 + w.toNat * 65536 + i.toNat, .none, none)
  | .min d a b => some (385875968 + d.toNat * 262144 + a.toNat * 8192 + b.toNat * 256, .none, none)
  | .max d a b => some (394264576 + d.toNat * 262144 + a.toNat * 8192 + b.toNat * 256, .none, none)
  | .ldh d h b w => some (402653184 + d.toNat * 262144 + h.toNat * 16384 + b.toNat * 512 + w.toNat * 128, .none, none)
  | .sth d h b w => some (411041792 + d.toNat * 262144 + h.toNat * 16384 + b.toNat * 512 + w.toNat * 128, .none, none)
  | .minn d a b => some (419430400 + d.toNat * 262144 + a.toNat * 8192 + b.toNat * 256, .none, none)
  | .maxn d a b => some (427819008 + d.toNat * 262144 + a.toNat * 8192 + b.toNat * 256, .none, none)
  | .xlat h n a => some (436207616 + h.toNat * 524288 + n.toNat * 131072 + a.toNat * 4096, .none, none)
  | .b i => some (469762048 + i.toNat % 8388608, .signed i 23, none)
  | .bc a b c i => some (478150656 + a.toNat * 262144 + b.toNat * 8192 + c.toNat * 1024 + i.toNat % 1024, .signed i 10, none)
  | .bz a i => some (486539264 + a.toNat * 262144 + i.toNat % 262144, .signed i 18, none)
  | .bnz a i => some (494927872 + a.toNat * 262144 + i.toNat % 262144, .signed i 18, none)
  | .call i => some (503316480 + i.toNat % 8388608, .signed i 23, none)
  | .jr a => some (511705088 + a.toNat * 8192, .none, none)
  | .loop k a i => some (545259520 + k.toNat * 131072 + a.toNat * 4096 + i.toNat % 128, .plain i 7, none)
  | .lbody k i => some (553648128 + k.toNat * 131072 + i.toNat % 128, .plain i 7, none)
  | .lbrk x k m => some (562036736 + x.toNat * 1048576 + k.toNat * 131072 + m.toNat * 4096, .none, none)
  | .agset g a i => some (570425344 + g.toNat * 1048576 + a.toNat * 4096 + i.toNat % 128, .plain i 7, none)
  | .agdim g k a b => some (578813952 + g.toNat * 1048576 + k.toNat * 131072 + a.toNat * 4096 + b.toNat * 128, .none, none)
  | .agind g k a => some (587202560 + g.toNat * 1048576 + k.toNat * 131072 + a.toNat * 4096, .none, none)
  | .agstep g k i => some (595591168 + g.toNat * 1048576 + k.toNat * 131072 + i.toNat % 128, .plain i 7, none)
  | .agrd g a => some (604766208 + g.toNat * 1048576 + a.toNat * 4096, .none, none)
  | .agrdIdx g k a => some (603979776 + g.toNat * 1048576 + k.toNat * 131072 + a.toNat * 4096, .none, none)
  | .loopBodyEmission _ => none
  | .vadd d a b m t r s_ => some (1082130432 + d.toNat * 262144 + a.toNat * 8192 + b.toNat * 256 + m.toNat * 32 + t.toNat * 8 + r.toNat * 2 + s_.toNat, .none, none)
  | .vsub d a b m t r s_ => some (1090519040 + d.toNat * 262144 + a.toNat * 8192 + b.toNat * 256 + m.toNat * 32 + t.toNat * 8 + r.toNat * 2 + s_.toNat, .none, none)
  | .vmul d a b m t r s_ => some (1098907648 + d.toNat * 262144 + a.toNat * 8192 + b.toNat * 256 + m.toNat * 32 + t.toNat * 8 + r.toNat * 2 + s_.toNat, .none, none)
  | .vfma d a b m t r s_ => some (1107296256 + d.toNat * 262144 + a.toNat * 8192 + b.toNat * 256 + m.toNat * 32 + t.toNat * 8 + r.toNat * 2 + s_.toNat, .none, none)
  | .vfms d a b m t r s_ => some (1115684864 + d.toNat * 262144 + a.toNat * 8192 + b.toNat * 256 + m.toNat * 32 + t.toNat * 8 + r.toNat * 2 + s_.toNat, .none, none)
  | .vfnma d a b m t r s_ => some (1124073472 + d.toNat * 262144 + a.toNat * 8192 + b.toNat * 256 + m.toNat * 32 + t.toNat * 8 + r.toNat * 2 + s_.toNat, .none, none)
  | .vmin d a b m t s_ => some (1132462080 + d.toNat * 262144 + a.toNat * 8192 + b.toNat * 256 + m.toNat * 32 + t.toNat * 8 + s_.toNat, .none, none)
  | .vmax d a b m t s_ => some (1140850688 + d.toNat * 262144 + a.toNat * 8192 + b.toNat * 256 + m.toNat * 32 + t.toNat * 8 + s_.toNat, .none, none)
  | .vabs d a m t s_ => some (1149239296 + d.toNat * 262144 + a.toNat * 8192 + m.toNat * 32 + t.toNat * 8 + s_.toNat, .none, none)
  | .vneg d a m t s_ => some (1157627904 + d.toNat * 262144 + a.toNat * 8192 + m.toNat * 32 + t.toNat * 8 + s_.toNat, .none, none)
  | .vaddi d a m i => some (1166016512 + d.toNat * 262144 + a.toNat * 8192 + m.toNat * 1024 + i.toNat % 1024, .signed i 10, none)
  | .vand d a b m => some (1174405120 + d.toNat * 262144 + a.toNat * 8192 + b.toNat * 256 + m.toNat * 32, .none, none)
  | .vor d a b m => some (1182793728 + d.toNat * 262144 + a.toNat * 8192 + b.toNat * 256 + m.toNat * 32, .none, none)
  | .vxor d a b m => some (1191182336 + d.toNat * 262144 + a.toNat * 8192 + b.toNat * 256 + m.toNat * 32, .none, none)
  | .vnot d a m => some (1199570944 + d.toNat * 262144 + a.toNat * 8192 + m.toNat * 32, .none, none)
  | .vshl d a b m => some (1207959552 + d.toNat * 262144 + a.toNat * 8192 + b.toNat * 256 + m.toNat * 32, .none, none)
  | .vshr d a b m => some (1216348160 + d.toNat * 262144 + a.toNat * 8192 + b.toNat * 256 + m.toNat * 32, .none, none)
  | .vsra d a b m => some (1224736768 + d.toNat * 262144 + a.toNat * 8192 + b.toNat * 256 + m.toNat * 32, .none, none)
  | .vcmp n a b m t c => some (1233125376 + n.toNat * 262144 + a.toNat * 8192 + b.toNat * 256 + m.toNat * 32 + t.toNat * 8 + c.toNat, .none, none)
  | .vsel d a b m => some (1241513984 + d.toNat * 262144 + a.toNat * 8192 + b.toNat * 256 + m.toNat * 32, .none, none)
  | .vclass d a m f => some (1249902592 + d.toNat * 262144 + a.toNat * 8192 + m.toNat * 32 + f.toNat, .none, none)
  | .vcvt d a f g r s_ => some (1258291200 + d.toNat * 262144 + a.toNat * 8192 + f.toNat * 256 + g.toNat * 8 + r.toNat * 2 + s_.toNat, .none, none)
  | .vpack d a f g r s_ => some (1266679808 + d.toNat * 262144 + a.toNat * 8192 + f.toNat * 256 + g.toNat * 8 + r.toNat * 2 + s_.toNat, .none, none)
  | .vunpack d a f g p => some (1275068416 + d.toNat * 262144 + a.toNat * 8192 + f.toNat * 256 + g.toNat * 8 + p.toNat, .none, none)
  | .vscale d a b m s_ r t => some (1283457024 + d.toNat * 262144 + a.toNat * 8192 + b.toNat * 256 + m.toNat * 32 + s_.toNat * 8 + r.toNat * 2 + t.toNat, .none, none)
  | .vred d a b m o prof flags => some (1291845632 + d.toNat * 262144 + a.toNat * 8192 + b.toNat * 256 + m.toNat * 32 + o.toNat, .none, some (3791650816 + prof.toNat * 262144 + flags.toNat))
  | .vscan d a b m o prof flags => some (1300234240 + d.toNat * 262144 + a.toNat * 8192 + b.toNat * 256 + m.toNat * 32 + o.toNat, .none, some (3791650816 + prof.toNat * 262144 + flags.toNat))
  | .vmxq d a f p => some (1308622848 + d.toNat * 262144 + a.toNat * 8192 + f.toNat * 256 + p.toNat, .none, none)
  | .vmxd d a f g r s_ => some (1317011456 + d.toNat * 262144 + a.toNat * 8192 + f.toNat * 256 + g.toNat * 8 + r.toNat * 2 + s_.toNat, .none, none)
  | .vld d a m i => some (1342177280 + d.toNat * 262144 + a.toNat * 8192 + m.toNat * 1024 + i.toNat % 512, .none, none)
  | .vldSlot d m i => some (1342177792 + d.toNat * 262144 + m.toNat * 1024 + i.toNat, .none, none)
  | .vst d a m i => some (1350565888 + d.toNat * 262144 + a.toNat * 8192 + m.toNat * 1024 + i.toNat % 512, .none, none)
  | .vstSlot d m i => some (1350566400 + d.toNat * 262144 + m.toNat * 1024 + i.toNat, .none, none)
  | .vldb d a m i => some (1358954496 + d.toNat * 262144 + a.toNat * 8192 + m.toNat * 1024 + i.toNat % 512, .none, none)
  | .vldg d a b m z => some (1367343104 + d.toNat * 262144 + a.toNat * 8192 + b.toNat * 256 + m.toNat * 32 + z.toNat, .none, none)
  | .vstg d a b m z => some (1375731712 + d.toNat * 262144 + a.toNat * 8192 + b.toNat * 256 + m.toNat * 32 + z.toNat, .none, none)
  | .vgat d a b m => some (1384120320 + d.toNat * 262144 + a.toNat * 8192 + b.toNat * 256 + m.toNat * 32, .none, none)
  | .vperm d a b m => some (1392508928 + d.toNat * 262144 + a.toNat * 8192 + b.toNat * 256 + m.toNat * 32, .none, none)
  | .vbcast d a m => some (1400897536 + d.toNat * 262144 + a.toNat * 8192 + m.toNat * 32, .none, none)
  | .vmov d a m => some (1409286144 + d.toNat * 262144 + a.toNat * 8192 + m.toNat * 32, .none, none)
  | .vmovs d a b => some (1417674752 + d.toNat * 262144 + a.toNat * 8192 + b.toNat * 256, .none, none)
  | .vins d a b => some (1426063360 + d.toNat * 262144 + a.toNat * 8192 + b.toNat * 256, .none, none)
  | .mand d a b => some (1476395008 + d.toNat * 262144 + a.toNat * 32768 + b.toNat * 4096, .none, none)
  | .mor d a b => some (1484783616 + d.toNat * 262144 + a.toNat * 32768 + b.toNat * 4096, .none, none)
  | .mxor d a b => some (1493172224 + d.toNat * 262144 + a.toNat * 32768 + b.toNat * 4096, .none, none)
  | .mnot d a => some (1501560832 + d.toNat * 262144 + a.toNat * 32768, .none, none)
  | .mpop d a => some (1509949440 + d.toNat * 262144 + a.toNat * 32768, .none, none)
  | .mfirst d a => some (1518338048 + d.toNat * 262144 + a.toNat * 32768, .none, none)
  | .xexp2 d a m => some (1619001344 + d.toNat * 262144 + a.toNat * 8192 + m.toNat * 32, .none, none)
  | .xlog2 d a m => some (1627389952 + d.toNat * 262144 + a.toNat * 8192 + m.toNat * 32, .none, none)
  | .xrcp d a m => some (1635778560 + d.toNat * 262144 + a.toNat * 8192 + m.toNat * 32, .none, none)
  | .xrsq d a m => some (1644167168 + d.toNat * 262144 + a.toNat * 8192 + m.toNat * 32, .none, none)
  | .xsqrt d a m => some (1652555776 + d.toNat * 262144 + a.toNat * 8192 + m.toNat * 32, .none, none)
  | .xsin d a m => some (1660944384 + d.toNat * 262144 + a.toNat * 8192 + m.toNat * 32, .none, none)
  | .xcos d a m => some (1669332992 + d.toNat * 262144 + a.toNat * 8192 + m.toNat * 32, .none, none)
  | .xtanh d a m => some (1677721600 + d.toNat * 262144 + a.toNat * 8192 + m.toNat * 32, .none, none)
  | .xlogi d a m => some (1686110208 + d.toNat * 262144 + a.toNat * 8192 + m.toNat * 32, .none, none)
  | .xerf d a m => some (1694498816 + d.toNat * 262144 + a.toNat * 8192 + m.toNat * 32, .none, none)
  | .xsmax d a b m => some (1702887424 + d.toNat * 262144 + a.toNat * 8192 + b.toNat * 256 + m.toNat * 32, .none, none)
  | .xexpm d a b m => some (1711276032 + d.toNat * 262144 + a.toNat * 8192 + b.toNat * 256 + m.toNat * 32, .none, none)
  | .bld s_ t g f => some (2155872256 + s_.toNat * 2097152 + t.toNat * 524288 + g.toNat * 65536 + f.toNat * 2048, .none, none)
  | .bldLut4 s_ t g b => some (2155886592 + s_.toNat * 2097152 + t.toNat * 524288 + g.toNat * 65536 + b.toNat * 256, .none, none)
  | .mma n s_ t g f r prof flags => some (2164260864 + n.toNat * 1048576 + s_.toNat * 262144 + t.toNat * 65536 + g.toNat * 2048 + f.toNat * 64 + r.toNat * 4, .none, some (3791650816 + prof.toNat * 262144 + flags.toNat))
  | .mmav n s_ t a f r prof flags => some (2172649472 + n.toNat * 1048576 + s_.toNat * 262144 + t.toNat * 65536 + a.toNat * 2048 + f.toNat * 64 + r.toNat * 4, .none, some (3791650816 + prof.toNat * 262144 + flags.toNat))
  | .acz n b w prof => some (2181038080 + n.toNat * 1048576 + b.toNat * 4096 + w.toNat * 1024, .none, some (3791650816 + prof.toNat * 262144))
  | .acinit n b w prof => some (2189426688 + n.toNat * 1048576 + b.toNat * 4096 + w.toNat * 1024, .none, some (3791650816 + prof.toNat * 262144))
  | .aclose n => some (2197815296 + n.toNat * 1048576, .none, none)
  | .acrd n p b c => some (2206203904 + n.toNat * 1048576 + p.toNat * 131072 + b.toNat * 4096 + c.toNat * 1024, .none, none)
  | .acst n b => some (2214592512 + n.toNat * 1048576 + b.toNat * 4096, .none, none)
  | .acstPart n b => some (2214593536 + n.toNat * 1048576 + b.toNat * 4096, .none, none)
  | .acmerge n a prof => some (2222981120 + n.toNat * 1048576 + a.toNat * 131072, .none, some (3791650816 + prof.toNat * 262144))
  | .acdrop n => some (2231369728 + n.toNat * 1048576, .none, none)
  | .tld g t => some (2239758336 + g.toNat * 65536 + t.toNat * 256, .none, none)
  | .tswap t => some (2248146944 + t.toNat * 256, .none, none)
  | .slabReturn _ => none
  | .cpy a b c t => some (2692743168 + a.toNat * 262144 + b.toNat * 8192 + c.toNat * 256 + t.toNat, .none, none)
  | .cpyh a b c t => some (2701131776 + a.toNat * 262144 + b.toNat * 8192 + c.toNat * 256 + t.toNat, .none, none)
  | .gath a b c t => some (2709520384 + a.toNat * 262144 + b.toNat * 8192 + c.toNat * 256 + t.toNat, .none, none)
  | .scat a b c t => some (2717908992 + a.toNat * 262144 + b.toNat * 8192 + c.toNat * 256 + t.toNat, .none, none)
  | .send a b c t => some (2726297600 + a.toNat * 262144 + b.toNat * 8192 + c.toNat * 256 + t.toNat, .none, none)
  | .bcast a b c t => some (2734686208 + a.toNat * 262144 + b.toNat * 8192 + c.toNat * 256 + t.toNat, .none, none)
  | .ratm a b t => some (2743074816 + a.toNat * 262144 + b.toNat * 8192 + t.toNat, .none, none)
  | .sqld b t => some (2751463424 + b.toNat * 8192 + t.toNat, .none, none)
  | .csum b t => some (2759852032 + b.toNat * 8192 + t.toNat, .none, none)
  | .nmq a t prof => some (2768240640 + a.toNat * 262144 + t.toNat, .none, some (3791650816 + prof.toNat * 262144))
  | .nmr a t prof => some (2776629248 + a.toNat * 262144 + t.toNat, .none, some (3791650816 + prof.toNat * 262144))
  | .coll a t prof => some (2785017856 + a.toNat * 262144 + t.toNat, .none, some (3791650816 + prof.toNat * 262144))
  | .carry a b c t => some (2793406464 + a.toNat * 262144 + b.toNat * 8192 + c.toNat * 256 + t.toNat, .none, none)
  | .merge a b c t prof flags => some (2801795072 + a.toNat * 262144 + b.toNat * 8192 + c.toNat * 256 + t.toNat, .none, some (3791650816 + prof.toNat * 262144 + flags.toNat))
  | .cmpct a b c t => some (2810183680 + a.toNat * 262144 + b.toNat * 8192 + c.toNat * 256 + t.toNat, .none, none)
  | .commandComplete _ _ => none
  | .scratchpadDeliveryLanding _ _ => none
  | .remoteAtomicMessage _ _ => none
  | .scaleEntryLand _ _ => none
  | .candlePartialLand _ _ => none
  | .nmrBagLand _ _ => none
  | .prismCollectiveArrival _ => none
  | .collectiveResult _ => none
  | .carryDelivery _ => none
  | .fence s_ m => some (3229614080 + s_.toNat * 64 + m.toNat, .none, none)
  | .ldsDevice d h a w s_ m => some (3238002688 + d.toNat * 262144 + h.toNat * 16384 + a.toNat * 512 + w.toNat * 256 + s_.toNat * 64 + m.toNat, .none, none)
  | .stsDevice d h a w s_ m => some (3246391296 + d.toNat * 262144 + h.toNat * 16384 + a.toNat * 512 + w.toNat * 256 + s_.toNat * 64 + m.toNat, .none, none)
  | .aaddDevice d h a w s_ m => some (3254779904 + d.toNat * 262144 + h.toNat * 16384 + a.toNat * 512 + w.toNat * 256 + s_.toNat * 64 + m.toNat, .none, none)
  | .aminDevice d h a w s_ m => some (3263168512 + d.toNat * 262144 + h.toNat * 16384 + a.toNat * 512 + w.toNat * 256 + s_.toNat * 64 + m.toNat, .none, none)
  | .amaxDevice d h a w s_ m => some (3271557120 + d.toNat * 262144 + h.toNat * 16384 + a.toNat * 512 + w.toNat * 256 + s_.toNat * 64 + m.toNat, .none, none)
  | .aandDevice d h a w s_ m => some (3279945728 + d.toNat * 262144 + h.toNat * 16384 + a.toNat * 512 + w.toNat * 256 + s_.toNat * 64 + m.toNat, .none, none)
  | .aorDevice d h a w s_ m => some (3288334336 + d.toNat * 262144 + h.toNat * 16384 + a.toNat * 512 + w.toNat * 256 + s_.toNat * 64 + m.toNat, .none, none)
  | .axorDevice d h a w s_ m => some (3296722944 + d.toNat * 262144 + h.toNat * 16384 + a.toNat * 512 + w.toNat * 256 + s_.toNat * 64 + m.toNat, .none, none)
  | .aswpDevice d h a w s_ m => some (3305111552 + d.toNat * 262144 + h.toNat * 16384 + a.toNat * 512 + w.toNat * 256 + s_.toNat * 64 + m.toNat, .none, none)
  | .acasDevice d h a w s_ m => some (3313500160 + d.toNat * 262144 + h.toNat * 16384 + a.toNat * 512 + w.toNat * 256 + s_.toNat * 64 + m.toNat, .none, none)
  | .waitvDevice d h a s_ m => some (3321889024 + d.toNat * 262144 + h.toNat * 16384 + a.toNat * 512 + s_.toNat * 64 + m.toNat, .none, none)
  | .ntoneDevice h a s_ m => some (3330277632 + h.toNat * 16384 + a.toNat * 512 + s_.toNat * 64 + m.toNat, .none, none)
  | .ntallDevice h a s_ m => some (3338666240 + h.toNat * 16384 + a.toNat * 512 + s_.toNat * 64 + m.toNat, .none, none)
  | .ownx d h a => some (3347054592 + d.toNat * 262144 + h.toNat * 16384 + a.toNat * 512, .none, none)
  | .ldsSp d a w s_ m => some (3372220416 + d.toNat * 262144 + a.toNat * 512 + w.toNat * 256 + s_.toNat * 64 + m.toNat, .none, none)
  | .stsSp d a w s_ m => some (3380609024 + d.toNat * 262144 + a.toNat * 512 + w.toNat * 256 + s_.toNat * 64 + m.toNat, .none, none)
  | .aaddSp d a w s_ m => some (3388997632 + d.toNat * 262144 + a.toNat * 512 + w.toNat * 256 + s_.toNat * 64 + m.toNat, .none, none)
  | .aminSp d a w s_ m => some (3397386240 + d.toNat * 262144 + a.toNat * 512 + w.toNat * 256 + s_.toNat * 64 + m.toNat, .none, none)
  | .amaxSp d a w s_ m => some (3405774848 + d.toNat * 262144 + a.toNat * 512 + w.toNat * 256 + s_.toNat * 64 + m.toNat, .none, none)
  | .aandSp d a w s_ m => some (3414163456 + d.toNat * 262144 + a.toNat * 512 + w.toNat * 256 + s_.toNat * 64 + m.toNat, .none, none)
  | .aorSp d a w s_ m => some (3422552064 + d.toNat * 262144 + a.toNat * 512 + w.toNat * 256 + s_.toNat * 64 + m.toNat, .none, none)
  | .axorSp d a w s_ m => some (3430940672 + d.toNat * 262144 + a.toNat * 512 + w.toNat * 256 + s_.toNat * 64 + m.toNat, .none, none)
  | .aswpSp d a w s_ m => some (3439329280 + d.toNat * 262144 + a.toNat * 512 + w.toNat * 256 + s_.toNat * 64 + m.toNat, .none, none)
  | .acasSp d a w s_ m => some (3447717888 + d.toNat * 262144 + a.toNat * 512 + w.toNat * 256 + s_.toNat * 64 + m.toNat, .none, none)
  | .waitvSp d a s_ m => some (3456106752 + d.toNat * 262144 + a.toNat * 512 + s_.toNat * 64 + m.toNat, .none, none)
  | .ntoneSp a s_ m => some (3464495360 + a.toNat * 512 + s_.toNat * 64 + m.toNat, .none, none)
  | .ntallSp a s_ m => some (3472883968 + a.toNat * 512 + s_.toNat * 64 + m.toNat, .none, none)
  | .waitvFreshRead _ => none
  | .binit a b => some (3489660928 + a.toNat * 8192 + b.toNat * 256, .none, none)
  | .barv a b => some (3498049536 + a.toNat * 8192 + b.toNat * 256, .none, none)
  | .bexp a b => some (3506438144 + a.toNat * 8192 + b.toNat * 256, .none, none)
  | .bwait d a b s_ m => some (3514826752 + d.toNat * 262144 + a.toNat * 8192 + b.toNat * 256 + s_.toNat * 64 + m.toNat, .none, none)
  | .tkt d a => some (3523215360 + d.toNat * 262144 + a.toNat * 8192, .none, none)
  | .qpush d a b m => some (3531603968 + d.toNat * 262144 + a.toNat * 8192 + b.toNat * 256 + m.toNat, .none, none)
  | .qpushPublish _ => none
  | .evpop d a => some (3539992576 + d.toNat * 262144 + a.toNat * 8192, .none, none)
  | .sigw h a b o m => some (3548381184 + h.toNat * 262144 + a.toNat * 8192 + b.toNat * 256 + o.toNat * 64 + m.toNat, .none, none)
  | .splitterSteerGroup _ => none
  | .exposedResultExpire _ => none
  | .pageWalkComplete _ _ => none
  | .sweepPeriodBoundary _ => none
  | .sweeperVisit _ _ => none
  | .shootdownStart _ => none
  | .shootdownComplete _ => none
  | .streamPinRelease _ => none
  | .forwardedLineResponse _ _ _ => none
  | .forwardedLineTimeout _ => none
  | .hubTableWrite _ => none
  | .hubTableRead _ => none
  | .hubTableOpComplete _ => none
  | .memoryRequestAccept _ => none
  | .memoryReadReturn _ _ => none
  | .cellWriteComplete _ => none
  | .perBankRefresh _ _ _ => none
  | .formatStart _ => none
  | .formatComplete _ => none
  | .scrubUnit _ _ => none
  | .reset => none
  | .wipeComplete => none
  | .regionDescriptorWrite _ _ _ _ => none
  | .regionDescriptorRead _ _ => none
  | .regionUpdateComplete _ => none
  | .plainBufferWriteback _ _ => none
  | .ownershipTransferComplete _ _ => none
  | .pageopAlloc _ => none
  | .pageopIncref _ => none
  | .pageopDecref _ => none
  | .pageopMigrate _ => none
  | .pageopExpand _ => none
  | .pageopCompress _ => none
  | .pageopPoolput _ => none
  | .pageopPooltake _ => none
  | .moveCopyComplete _ => none
  | .queueCreate _ => none
  | .queueStop _ => none
  | .queueResume _ => none
  | .queueDestroy _ => none
  | .queueQuery _ => none
  | .queueDestroyComplete _ => none
  | .packetNop _ _ => none
  | .packetLaunch _ _ => none
  | .packetCopy _ _ => none
  | .packetBcopy _ _ => none
  | .packetNmq _ _ => none
  | .packetNmr _ _ => none
  | .packetColl _ _ => none
  | .packetSignal _ _ => none
  | .packetWait _ _ => none
  | .packetMarker _ _ => none
  | .packetBloop _ _ => none
  | .bloopIteration _ _ => none
  | .packetBwait _ _ => none
  | .beaconMulticastLanding _ _ _ => none
  | .packetComplete _ _ => none
  | .ticketPushSequenced _ => none
  | .dispatch => none
  | .ageingStep _ => none
  | .taskCommit _ => none
  | .preemptRequestArrive _ => none
  | .contextSave _ _ => none
  | .logicSoftError _ => none
  | .emit _ => none
  | .emitx _ _ => none
  | .ldpm _ _ => none
  | .ldw _ _ _ => none
  | .addw _ _ _ => none
  | .addwImm _ _ _ => none
  | .subw _ _ _ => none
  | .subwImm _ _ _ => none
  | .andw _ _ _ => none
  | .andwImm _ _ _ => none
  | .cmpw _ _ => none
  | .cmpwImm _ _ => none
  | .br _ => none
  | .brc _ _ => none
  | .loopw _ _ => none
  | .endl => none
  | .wtok _ _ => none
  | .wsig _ _ => none
  | .stopw => none
  | .deviceUnreachable _ => none
  | .holderLostUpdate _ => none
  | .rdmaWrite _ => none
  | .rdmaRead _ => none
  | .rdmaFetchAndAdd _ => none
  | .rdmaInvalidRequest _ => none
  | .fylvathenInboundAccess _ => none
  | .fylvathenRemoteAtomic _ => none
  | .flitReceive _ _ => none
  | .flitNakReplay _ _ => none
  | .laneFailing _ _ => none
  | .laneSwitch _ => none
  | .portRetrain _ => none
  | .portDown _ => none
  | .portUp _ => none
  | .mgmtReadlog _ => none
  | .mgmtClearlog _ => none
  | .mgmtMaprange _ _ => none
  | .mgmtInwin _ _ _ => none
  | .mgmtRdmaqp _ _ => none
  | .mgmtRoute _ _ => none
  | .mgmtWcsload _ _ => none
  | .mgmtAttest _ _ => none
  | .mgmtFwupdate _ _ => none
  | .mgmtLifecycle _ _ => none
  | .mgmtDebugunlock _ _ => none
  | .mgmtPower _ _ => none
  | .mgmtUnsupported _ _ => none
  | .powerOn _ => none
  | .clockThrottle _ => none
  | .thermalCritical => none
  | .powerLoss => none
  | .frameShootdownComplete _ => none
  | .retrainComplete _ => none

/-- The control-store word of a micro-operation (R391; none: the row is none). -/
def encodeMicro : Instr → Option Nat
  | .add _ _ _ => none
  | .sub _ _ _ => none
  | .mul _ _ _ => none
  | .mulh _ _ _ => none
  | .mulhn _ _ _ => none
  | .div _ _ _ => none
  | .divn _ _ _ => none
  | .rem _ _ _ => none
  | .remn _ _ _ => none
  | .and _ _ _ => none
  | .or _ _ _ => none
  | .xor _ _ _ => none
  | .andn _ _ _ => none
  | .sll _ _ _ => none
  | .srl _ _ _ => none
  | .sra _ _ _ => none
  | .clz _ _ => none
  | .ctz _ _ => none
  | .popc _ _ => none
  | .slt _ _ _ => none
  | .sltn _ _ _ => none
  | .seq _ _ _ => none
  | .sel _ _ _ _ => none
  | .sysr _ _ => none
  | .sysw _ _ => none
  | .trap _ => none
  | .eret => none
  | .bkpt _ => none
  | .nop => none
  | .endTask => none
  | .wstart _ _ => none
  | .addi _ _ _ => none
  | .andi _ _ _ => none
  | .ori _ _ _ => none
  | .xori _ _ _ => none
  | .slti _ _ _ => none
  | .slli _ _ _ => none
  | .srli _ _ _ => none
  | .srai _ _ _ => none
  | .movi _ _ => none
  | .movh _ _ => none
  | .ldsp _ _ _ _ => none
  | .stsp _ _ _ _ => none
  | .ldslot _ _ _ => none
  | .stslot _ _ _ => none
  | .min _ _ _ => none
  | .max _ _ _ => none
  | .ldh _ _ _ _ => none
  | .sth _ _ _ _ => none
  | .minn _ _ _ => none
  | .maxn _ _ _ => none
  | .xlat _ _ _ => none
  | .b _ => none
  | .bc _ _ _ _ => none
  | .bz _ _ => none
  | .bnz _ _ => none
  | .call _ => none
  | .jr _ => none
  | .loop _ _ _ => none
  | .lbody _ _ => none
  | .lbrk _ _ _ => none
  | .agset _ _ _ => none
  | .agdim _ _ _ _ => none
  | .agind _ _ _ => none
  | .agstep _ _ _ => none
  | .agrd _ _ => none
  | .agrdIdx _ _ _ => none
  | .loopBodyEmission _ => none
  | .vadd _ _ _ _ _ _ _ => none
  | .vsub _ _ _ _ _ _ _ => none
  | .vmul _ _ _ _ _ _ _ => none
  | .vfma _ _ _ _ _ _ _ => none
  | .vfms _ _ _ _ _ _ _ => none
  | .vfnma _ _ _ _ _ _ _ => none
  | .vmin _ _ _ _ _ _ => none
  | .vmax _ _ _ _ _ _ => none
  | .vabs _ _ _ _ _ => none
  | .vneg _ _ _ _ _ => none
  | .vaddi _ _ _ _ => none
  | .vand _ _ _ _ => none
  | .vor _ _ _ _ => none
  | .vxor _ _ _ _ => none
  | .vnot _ _ _ => none
  | .vshl _ _ _ _ => none
  | .vshr _ _ _ _ => none
  | .vsra _ _ _ _ => none
  | .vcmp _ _ _ _ _ _ => none
  | .vsel _ _ _ _ => none
  | .vclass _ _ _ _ => none
  | .vcvt _ _ _ _ _ _ => none
  | .vpack _ _ _ _ _ _ => none
  | .vunpack _ _ _ _ _ => none
  | .vscale _ _ _ _ _ _ _ => none
  | .vred _ _ _ _ _ _ _ => none
  | .vscan _ _ _ _ _ _ _ => none
  | .vmxq _ _ _ _ => none
  | .vmxd _ _ _ _ _ _ => none
  | .vld _ _ _ _ => none
  | .vldSlot _ _ _ => none
  | .vst _ _ _ _ => none
  | .vstSlot _ _ _ => none
  | .vldb _ _ _ _ => none
  | .vldg _ _ _ _ _ => none
  | .vstg _ _ _ _ _ => none
  | .vgat _ _ _ _ => none
  | .vperm _ _ _ _ => none
  | .vbcast _ _ _ => none
  | .vmov _ _ _ => none
  | .vmovs _ _ _ => none
  | .vins _ _ _ => none
  | .mand _ _ _ => none
  | .mor _ _ _ => none
  | .mxor _ _ _ => none
  | .mnot _ _ => none
  | .mpop _ _ => none
  | .mfirst _ _ => none
  | .xexp2 _ _ _ => none
  | .xlog2 _ _ _ => none
  | .xrcp _ _ _ => none
  | .xrsq _ _ _ => none
  | .xsqrt _ _ _ => none
  | .xsin _ _ _ => none
  | .xcos _ _ _ => none
  | .xtanh _ _ _ => none
  | .xlogi _ _ _ => none
  | .xerf _ _ _ => none
  | .xsmax _ _ _ _ => none
  | .xexpm _ _ _ _ => none
  | .bld _ _ _ _ => none
  | .bldLut4 _ _ _ _ => none
  | .mma _ _ _ _ _ _ _ _ => none
  | .mmav _ _ _ _ _ _ _ _ => none
  | .acz _ _ _ _ => none
  | .acinit _ _ _ _ => none
  | .aclose _ => none
  | .acrd _ _ _ _ => none
  | .acst _ _ => none
  | .acstPart _ _ => none
  | .acmerge _ _ _ => none
  | .acdrop _ => none
  | .tld _ _ => none
  | .tswap _ => none
  | .slabReturn _ => none
  | .cpy _ _ _ _ => none
  | .cpyh _ _ _ _ => none
  | .gath _ _ _ _ => none
  | .scat _ _ _ _ => none
  | .send _ _ _ _ => none
  | .bcast _ _ _ _ => none
  | .ratm _ _ _ => none
  | .sqld _ _ => none
  | .csum _ _ => none
  | .nmq _ _ _ => none
  | .nmr _ _ _ => none
  | .coll _ _ _ => none
  | .carry _ _ _ _ => none
  | .merge _ _ _ _ _ _ => none
  | .cmpct _ _ _ _ => none
  | .commandComplete _ _ => none
  | .scratchpadDeliveryLanding _ _ => none
  | .remoteAtomicMessage _ _ => none
  | .scaleEntryLand _ _ => none
  | .candlePartialLand _ _ => none
  | .nmrBagLand _ _ => none
  | .prismCollectiveArrival _ => none
  | .collectiveResult _ => none
  | .carryDelivery _ => none
  | .fence _ _ => none
  | .ldsDevice _ _ _ _ _ _ => none
  | .stsDevice _ _ _ _ _ _ => none
  | .aaddDevice _ _ _ _ _ _ => none
  | .aminDevice _ _ _ _ _ _ => none
  | .amaxDevice _ _ _ _ _ _ => none
  | .aandDevice _ _ _ _ _ _ => none
  | .aorDevice _ _ _ _ _ _ => none
  | .axorDevice _ _ _ _ _ _ => none
  | .aswpDevice _ _ _ _ _ _ => none
  | .acasDevice _ _ _ _ _ _ => none
  | .waitvDevice _ _ _ _ _ => none
  | .ntoneDevice _ _ _ _ => none
  | .ntallDevice _ _ _ _ => none
  | .ownx _ _ _ => none
  | .ldsSp _ _ _ _ _ => none
  | .stsSp _ _ _ _ _ => none
  | .aaddSp _ _ _ _ _ => none
  | .aminSp _ _ _ _ _ => none
  | .amaxSp _ _ _ _ _ => none
  | .aandSp _ _ _ _ _ => none
  | .aorSp _ _ _ _ _ => none
  | .axorSp _ _ _ _ _ => none
  | .aswpSp _ _ _ _ _ => none
  | .acasSp _ _ _ _ _ => none
  | .waitvSp _ _ _ _ => none
  | .ntoneSp _ _ _ => none
  | .ntallSp _ _ _ => none
  | .waitvFreshRead _ => none
  | .binit _ _ => none
  | .barv _ _ => none
  | .bexp _ _ => none
  | .bwait _ _ _ _ _ => none
  | .tkt _ _ => none
  | .qpush _ _ _ _ => none
  | .qpushPublish _ => none
  | .evpop _ _ => none
  | .sigw _ _ _ _ _ => none
  | .splitterSteerGroup _ => none
  | .exposedResultExpire _ => none
  | .pageWalkComplete _ _ => none
  | .sweepPeriodBoundary _ => none
  | .sweeperVisit _ _ => none
  | .shootdownStart _ => none
  | .shootdownComplete _ => none
  | .streamPinRelease _ => none
  | .forwardedLineResponse _ _ _ => none
  | .forwardedLineTimeout _ => none
  | .hubTableWrite _ => none
  | .hubTableRead _ => none
  | .hubTableOpComplete _ => none
  | .memoryRequestAccept _ => none
  | .memoryReadReturn _ _ => none
  | .cellWriteComplete _ => none
  | .perBankRefresh _ _ _ => none
  | .formatStart _ => none
  | .formatComplete _ => none
  | .scrubUnit _ _ => none
  | .reset => none
  | .wipeComplete => none
  | .regionDescriptorWrite _ _ _ _ => none
  | .regionDescriptorRead _ _ => none
  | .regionUpdateComplete _ => none
  | .plainBufferWriteback _ _ => none
  | .ownershipTransferComplete _ _ => none
  | .pageopAlloc _ => none
  | .pageopIncref _ => none
  | .pageopDecref _ => none
  | .pageopMigrate _ => none
  | .pageopExpand _ => none
  | .pageopCompress _ => none
  | .pageopPoolput _ => none
  | .pageopPooltake _ => none
  | .moveCopyComplete _ => none
  | .queueCreate _ => none
  | .queueStop _ => none
  | .queueResume _ => none
  | .queueDestroy _ => none
  | .queueQuery _ => none
  | .queueDestroyComplete _ => none
  | .packetNop _ _ => none
  | .packetLaunch _ _ => none
  | .packetCopy _ _ => none
  | .packetBcopy _ _ => none
  | .packetNmq _ _ => none
  | .packetNmr _ _ => none
  | .packetColl _ _ => none
  | .packetSignal _ _ => none
  | .packetWait _ _ => none
  | .packetMarker _ _ => none
  | .packetBloop _ _ => none
  | .bloopIteration _ _ => none
  | .packetBwait _ _ => none
  | .beaconMulticastLanding _ _ _ => none
  | .packetComplete _ _ => none
  | .ticketPushSequenced _ => none
  | .dispatch => none
  | .ageingStep _ => none
  | .taskCommit _ => none
  | .preemptRequestArrive _ => none
  | .contextSave _ _ => none
  | .logicSoftError _ => none
  | .emit n => some (134217728 + n.toNat * 33554432)
  | .emitx n a => some (268435456 + n.toNat * 33554432 + a.toNat * 2097152)
  | .ldpm d e => some (402653184 + d.toNat * 8388608 + e.toNat * 131072)
  | .ldw d a e => some (536870912 + d.toNat * 8388608 + a.toNat * 524288 + e.toNat)
  | .addw d a b => some (671088640 + d.toNat * 8388608 + a.toNat * 524288 + b.toNat * 16384)
  | .addwImm d a i => some (671350784 + d.toNat * 8388608 + a.toNat * 524288 + i.toNat)
  | .subw d a b => some (805306368 + d.toNat * 8388608 + a.toNat * 524288 + b.toNat * 16384)
  | .subwImm d a i => some (805568512 + d.toNat * 8388608 + a.toNat * 524288 + i.toNat)
  | .andw d a b => some (939524096 + d.toNat * 8388608 + a.toNat * 524288 + b.toNat * 16384)
  | .andwImm d a i => some (939786240 + d.toNat * 8388608 + a.toNat * 524288 + i.toNat)
  | .cmpw a b => some (1073741824 + a.toNat * 524288 + b.toNat * 16384)
  | .cmpwImm a i => some (1074003968 + a.toNat * 524288 + i.toNat)
  | .br t => some (1207959552 + t.toNat)
  | .brc c t => some (1342177280 + c.toNat * 16777216 + t.toNat)
  | .loopw a t => some (1476395008 + a.toNat * 524288 + t.toNat)
  | .endl => some (1610612736)
  | .wtok e k => some (1744830464 + e.toNat * 16777216 + k.toNat * 524288)
  | .wsig a e => some (1879048192 + a.toNat * 524288 + e.toNat * 8192)
  | .stopw => some (2013265920)
  | .deviceUnreachable _ => none
  | .holderLostUpdate _ => none
  | .rdmaWrite _ => none
  | .rdmaRead _ => none
  | .rdmaFetchAndAdd _ => none
  | .rdmaInvalidRequest _ => none
  | .fylvathenInboundAccess _ => none
  | .fylvathenRemoteAtomic _ => none
  | .flitReceive _ _ => none
  | .flitNakReplay _ _ => none
  | .laneFailing _ _ => none
  | .laneSwitch _ => none
  | .portRetrain _ => none
  | .portDown _ => none
  | .portUp _ => none
  | .mgmtReadlog _ => none
  | .mgmtClearlog _ => none
  | .mgmtMaprange _ _ => none
  | .mgmtInwin _ _ _ => none
  | .mgmtRdmaqp _ _ => none
  | .mgmtRoute _ _ => none
  | .mgmtWcsload _ _ => none
  | .mgmtAttest _ _ => none
  | .mgmtFwupdate _ _ => none
  | .mgmtLifecycle _ _ => none
  | .mgmtDebugunlock _ _ => none
  | .mgmtPower _ _ => none
  | .mgmtUnsupported _ _ => none
  | .powerOn _ => none
  | .clockThrottle _ => none
  | .thermalCritical => none
  | .powerLoss => none
  | .frameShootdownComplete _ => none
  | .retrainComplete _ => none


/-- The IMM prefix, emitted only where the field does not hold the value (R234). -/
def encodeImm : Imm → List Nat
  | .none => []
  | .plain i k => if i.toNat < 2 ^ k then [] else [3774873600 + i.toNat / 2 ^ k]
  | .signed i k => if (i.setWidth k).signExtend 32 = i then [] else [3774873600 + i.toNat / 2 ^ k]

/-- One reference of a DEP word. -/
def encodeRef (r : BitVec 3 × BitVec 5) : Nat := r.1.toNat * 32 + r.2.toNat

/-- The DEP prefix of at most three references (R218). -/
def encodeDeps : List (BitVec 3 × BitVec 5) → List Nat
  | [] => []
  | [a] => [3758096384 + encodeRef a]
  | [a, b] => [3758096384 + encodeRef a + 256 * encodeRef b]
  | a :: b :: c :: _ => [3758096384 + encodeRef a + 256 * encodeRef b + 65536 * encodeRef c]

/-- The words of an instruction group, in fetch order (R216). -/
def encode (deps : List (BitVec 3 × BitVec 5)) (i : Instr) : List Nat :=
  match encodeHead i with
  | some (h, imm, tail) => encodeDeps deps ++ encodeImm imm ++ [h] ++ tail.toList
  | none =>
    match encodeMicro i with
    | some w => [w]
    | none => []

/-- The words of an opcode-table word, the first at bits 31..0, with zero words after it up to four (R216). -/
def tableWords (w : Nat) : List Nat :=
  [w % 4294967296, w / 4294967296 % 4294967296, w / 18446744073709551616 % 4294967296,
   w / 79228162514264337593543950336 % 4294967296]

/-- The instruction that the decoder reads from an opcode-table word: as a Miolos group, or, where the splitter refuses
it, as a word of the control store (R391: the two streams have separate words, log 12). -/
def decodeTableWord (nbits w : Nat) : Option Instr :=
  match decodeGroup (tableWords (w % 2 ^ nbits)) with
  | .ok g => some g.instr
  | .error _ =>
    match decodeMicro (w % 2 ^ nbits % 4294967296) with
    | .ok i => some i
    | .error _ => none

end Sys2Proof
end

