-- ==== Sys2Proof/Config.lean ====
section
/-! DEFINITION. The free values: what the spec leaves open, as constants without a body. Each is applied to a counter
of State (`State.free`) or to the operands it depends on, so that no proof can see its value. -/

namespace Sys2Proof.Config

/-- The choice between an old and a new value of a read that is unordered with a write (R25, R68, R96, R273): the
first argument is the counter of State, the second names the byte, lane or register (log 6). -/
opaque pickNew : Nat → Nat → Bool

/-- Which of the things that may happen next does (R94, R183: the engines, the splitter, Wick, the cores and the agents
of the device proceed in no fixed order); the argument is the counter of State (log 14). -/
opaque turn : Nat → Nat

/-- What a sysr of a register that may only be written returns (R27, R38, R133; log 13), TRAPADDR of an emitted word, and the slot
offset of a damaged grain (R401, log 15). -/
opaque openReg : Nat → W64

/-- Cycles of the TSTAMP reference that one step takes (R251): time is not architectural (R3, log 7). -/
opaque stepCycles : Nat → Nat

/-- Which of the free cores that are left a unit gets next (R167: placement is not architectural): the arguments are the counter of
State and how many are left after it (log 8). -/
opaque placement : Nat → Nat → Nat

/-- SHA-512 of a byte string (R415, R423, R425); its values are those of the standard, not of this spec (log 9). -/
opaque sha512 : List Byte → List Byte

/-- Whether an ECDSA P-521 signature over a digest verifies under the key whose fused hash is given (R415, R423,
log 9). -/
opaque ecdsaVerifies : List Byte → List Byte → List Byte → Bool

/-- The signature of the device's identity key over a digest (R425, log 9). -/
opaque identitySign : List Byte → List Byte

/-- The device's certificate, its serial number (16 bytes), the fused hashes of the firmware and Iziviard public
keys: fixed at manufacture, not in the spec (R423, R425, log 9). -/
opaque certificate : List Byte
opaque serialNumber : List Byte
opaque firmwareKeyHash : List Byte
opaque iziviardKeyHash : List Byte

/-- The nonce the device issues for a DEBUGUNLOCK (R427, log 9). -/
opaque unlockNonce : Nat → Nat

/-- What a decoder returns for a byte of a unit whose errors exceed the limits of its code (R45, R51: no outcome is guaranteed); the
arguments are the counter of State and the byte's cell (log 31). -/
opaque misread : Nat → Nat → Byte

/-- Whether the host reads the completion records of a queue (R120: a fact of the programs around the device, which nothing in the machine
shows; log 48). -/
opaque hostReads : Nat → Bool

/-- Where the Shade zone puts a record of so many 64 KiB units: the zone's internal allocation is not architectural
(R127, log 10). -/
opaque zonePlace : Nat → Nat → Nat

end Sys2Proof.Config
end

