-- ==== Sys2Proof/Machine/Event.lean ====
section
/-! DEFINITION. The events of the device as data: what the agenda of State holds. Each is a row of
spec/opcode_table.json that is no word; `runEvent` gives it the meaning of its row. -/

namespace Sys2Proof.Machine

/-- An event that is due. -/
inductive Event where
  | loopBodyEmission (core : Nat)
  | slabReturn (core : Nat)
  | commandComplete (core : Nat) (cmd : Nat)
  | scratchpadDeliveryLanding (core : Nat) (d : Delivery)
  | remoteAtomicMessage (core : Nat) (m : AtomicMsg)
  | scaleEntryLand (core : Nat) (cmd : Nat)
  | candlePartialLand (core : Nat) (cmd : Nat)
  | nmrBagLand (core : Nat) (cmd : Nat)
  | prismCollectiveArrival (a : Arrival)
  | collectiveResult (gid : Nat)
  | carryDelivery (c : CarryMsg)
  | waitvFreshRead (core : Nat)
  | qpushPublish (core : Nat)
  | splitterSteerGroup (core : Nat)
  | exposedResultExpire (core : Nat)
  | pageWalkComplete (core : Nat) (head : Nat)
  | sweepPeriodBoundary (ctx : Nat)
  | sweeperVisit (ctx : Nat) (va : Nat)
  | shootdownStart (r : ShootReq)
  | shootdownComplete (id : Nat)
  | streamPinRelease (pin : Nat)
  | forwardedLineResponse (line : Nat) (st : LineStatus) (data : List PByte)
  | forwardedLineTimeout (line : Nat)
  | hubTableWrite (r : TableReq)
  | hubTableRead (r : TableReq)
  | hubTableOpComplete (core : Nat)
  | memoryRequestAccept (r : MemReq)
  | memoryReadReturn (id : Nat) (es : List UnitErr)
  | cellWriteComplete (addr : Nat)
  | perBankRefresh (stack : Nat) (pch : Nat) (bank : Nat)
  | formatStart (r : FormatReq)
  | formatComplete (id : Nat)
  | scrubUnit (addr : Nat) (e : UnitErr)
  | reset
  | wipeComplete
  | regionDescriptorWrite (core : Nat) (idx : Nat) (w0 : BitVec 64) (w1 : BitVec 64)
  | regionDescriptorRead (core : Nat) (idx : Nat)
  | regionUpdateComplete (core : Nat)
  | plainBufferWriteback (core : Nat) (line : Nat)
  | ownershipTransferComplete (core : Nat) (idx : Nat)
  | pageopAlloc (r : PageReq)
  | pageopIncref (r : PageReq)
  | pageopDecref (r : PageReq)
  | pageopMigrate (r : PageReq)
  | pageopExpand (r : PageReq)
  | pageopCompress (r : PageReq)
  | pageopPoolput (r : PageReq)
  | pageopPooltake (r : PageReq)
  | moveCopyComplete (mv : Nat)
  | queueCreate (r : QueueReq)
  | queueStop (r : QueueReq)
  | queueResume (r : QueueReq)
  | queueDestroy (r : QueueReq)
  | queueQuery (r : QueueReq)
  | queueDestroyComplete (r : QueueReq)
  | packetNop (q : Nat) (k : Nat)
  | packetLaunch (q : Nat) (k : Nat)
  | packetCopy (q : Nat) (k : Nat)
  | packetBcopy (q : Nat) (k : Nat)
  | packetNmq (q : Nat) (k : Nat)
  | packetNmr (q : Nat) (k : Nat)
  | packetColl (q : Nat) (k : Nat)
  | packetSignal (q : Nat) (k : Nat)
  | packetWait (q : Nat) (k : Nat)
  | packetMarker (q : Nat) (k : Nat)
  | packetBloop (q : Nat) (k : Nat)
  | bloopIteration (q : Nat) (k : Nat)
  | packetBwait (q : Nat) (k : Nat)
  | beaconMulticastLanding (ctx : Nat) (core : Nat) (d : Delivery)
  | packetComplete (q : Nat) (k : Nat)
  | ticketPushSequenced (q : Nat)
  | dispatch
  | ageingStep (q : Nat)
  | taskCommit (core : Nat)
  | preemptRequestArrive (core : Nat)
  | contextSave (core : Nat) (dmg : Nat)
  | logicSoftError (core : Nat)
  | deviceUnreachable (dev : Nat)
  | holderLostUpdate (dev : Nat)
  | rdmaWrite (r : RdmaReq)
  | rdmaRead (r : RdmaReq)
  | rdmaFetchAndAdd (r : RdmaReq)
  | rdmaInvalidRequest (qp : Nat)
  | fylvathenInboundAccess (r : PeerReq)
  | fylvathenRemoteAtomic (r : PeerReq)
  | flitReceive (port : Nat) (f : List Byte)
  | flitNakReplay (port : Nat) (ack : Nat)
  | laneFailing (port : Nat) (lane : Nat)
  | laneSwitch (port : Nat)
  | portRetrain (port : Nat)
  | portDown (port : Nat)
  | portUp (port : Nat)
  | mgmtReadlog (tag : Nat)
  | mgmtClearlog (tag : Nat)
  | mgmtMaprange (tag : Nat) (rs : List MapRange)
  | mgmtInwin (tag : Nat) (idx : Nat) (w : List W64)
  | mgmtRdmaqp (tag : Nat) (r : QpReq)
  | mgmtRoute (tag : Nat) (r : RouteReq)
  | mgmtWcsload (tag : Nat) (img : List W32)
  | mgmtAttest (tag : Nat) (nonce : List Byte)
  | mgmtFwupdate (tag : Nat) (r : FwReq)
  | mgmtLifecycle (tag : Nat) (r : LifeReq)
  | mgmtDebugunlock (tag : Nat) (r : UnlockReq)
  | mgmtPower (tag : Nat) (cap : Option Nat)
  | mgmtUnsupported (tag : Nat) (op : Nat)
  | powerOn (r : BootReq)
  | clockThrottle (down : Bool)
  | thermalCritical
  | powerLoss
  | frameShootdownComplete (id : Nat)
  | retrainComplete (port : Nat)
  deriving DecidableEq, Repr

end Sys2Proof.Machine
end

