-- ==== Sys2Proof/Machine/Map.lean ====
section
/-! DEFINITION. Sparse data in one canonical form: lists of (key, value) pairs with strictly rising keys. -/

namespace Sys2Proof.Machine

/-- A finite map: pairs with strictly rising keys. -/
abbrev Map (α : Type) := List (Nat × α)

/-- The value at a key. -/
def Map.find {α : Type} : Map α → Nat → Option α
  | [], _ => none
  | (k, v) :: m, i => if i = k then some v else Map.find m i

/-- The value at a key, or the value that an unlisted key reads as. -/
def Map.get {α : Type} (d : α) (m : Map α) (i : Nat) : α :=
  (Map.find m i).getD d

/-- Put a value at a key, keeping the keys rising. -/
def Map.set {α : Type} : Map α → Nat → α → Map α
  | [], i, a => [(i, a)]
  | (k, v) :: m, i, a =>
    if i < k then (i, a) :: (k, v) :: m
    else if i = k then (i, a) :: m
    else (k, v) :: Map.set m i a

/-- Remove a key. -/
def Map.erase {α : Type} : Map α → Nat → Map α
  | [], _ => []
  | (k, v) :: m, i => if i = k then m else (k, v) :: Map.erase m i

/-- Every entry but those of a key. -/
def Map.without {α : Type} (m : Map α) (i : Nat) : Map α := m.filter fun p => p.1 ≠ i

/-- Put a value at a key of a map whose unlisted keys read as `d`: the value `d` is not listed. -/
def Map.put {α : Type} [DecidableEq α] (d : α) (m : Map α) (i : Nat) (a : α) : Map α :=
  if a = d then Map.erase m i else Map.set m i a

/-- Keys strictly rising. -/
def Map.rising {α : Type} : Map α → Bool
  | [] => true
  | [_] => true
  | (k, _) :: (k', v') :: m => decide (k < k') && Map.rising ((k', v') :: m)

/-- A sorted list of numbers without repeats: membership, insertion, removal. -/
def NatSet.insert : List Nat → Nat → List Nat
  | [], i => [i]
  | k :: m, i => if i < k then i :: k :: m else if i = k then k :: m else k :: NatSet.insert m i

def NatSet.erase : List Nat → Nat → List Nat
  | [], _ => []
  | k :: m, i => if i = k then m else k :: NatSet.erase m i

/-- Put a number in the set or take it out. -/
def NatSet.put (m : List Nat) (i : Nat) (b : Bool) : List Nat :=
  if b then NatSet.insert m i else NatSet.erase m i

def NatSet.rising : List Nat → Bool
  | [] => true
  | [_] => true
  | k :: k' :: m => decide (k < k') && NatSet.rising (k' :: m)

/-- Byte memory: the listed bytes (an unlisted byte reads as zero, R62) and the poisoned grains (R54). -/
structure Memory where
  cells : List Host.Cell
  pois  : List Nat
  deriving DecidableEq, Repr

/-- The memory after a wipe or a clearing: every byte zero, no poison (R62, R70). -/
def Memory.empty : Memory := { cells := [], pois := [] }

/-- No listed byte equals what an unlisted one reads as. -/
def Memory.noZero : List Host.Cell → Bool
  | [] => true
  | (_, b) :: m => decide (b ≠ 0) && Memory.noZero m

/-- The canonical form: addresses strictly rising, no entry equal to zero, poisoned grains strictly rising. -/
def Memory.wf (m : Memory) : Bool :=
  Map.rising m.cells && Memory.noZero m.cells && NatSet.rising m.pois

/-- Read one byte. -/
def Memory.byte (m : Memory) (a : Nat) : Byte := Map.get 0 m.cells a

/-- The bytes of a list as entries from address `a` on; a zero byte is not listed. -/
def Memory.entries : Nat → List Byte → List Host.Cell
  | _, [] => []
  | a, b :: bs => if b = 0 then Memory.entries (a + 1) bs else (a, b) :: Memory.entries (a + 1) bs

/-- Write bytes from address `a` on. -/
def Memory.setBytes (m : Memory) (a : Nat) (bs : List Byte) : Memory :=
  { m with cells := m.cells.takeWhile (fun c => c.1 < a) ++ Memory.entries a bs
      ++ m.cells.dropWhile (fun c => c.1 < a + bs.length) }

/-- The next `n` bytes from address `a` on, out of entries none of which lies below `a`. -/
def Memory.pull : Nat → Nat → List Host.Cell → List Byte
  | 0, _, _ => []
  | n + 1, a, [] => 0 :: Memory.pull n (a + 1) []
  | n + 1, a, (k, v) :: m => if k = a then v :: Memory.pull n (a + 1) m else 0 :: Memory.pull n (a + 1) ((k, v) :: m)

/-- Read `n` bytes from address `a` on. -/
def Memory.bytes (m : Memory) (a n : Nat) : List Byte :=
  Memory.pull n a (m.cells.dropWhile fun c => c.1 < a)

/-- Set every byte and every grain of a range to zero and no poison; `g` is the size of a grain. -/
def Memory.clear (m : Memory) (g a n : Nat) : Memory :=
  { cells := m.cells.takeWhile (fun c => c.1 < a) ++ m.cells.dropWhile (fun c => c.1 < a + n)
    pois := m.pois.filter fun p => p * g + g ≤ a || a + n ≤ p * g }

/-- Mark or clear a grain. -/
def Memory.setGrain (m : Memory) (g : Nat) (b : Bool) : Memory :=
  { m with pois := NatSet.put m.pois g b }

end Sys2Proof.Machine
end

