-- ==== Sys2Proof/Machine/State.lean ====
section
/-! DEFINITION. Everything the spec gives the machine: the cores, the hub, the stacks, the ports and the management
controller, as plain data, and the machine right after reset. -/

namespace Sys2Proof.Machine

/-- Why the machine stops. -/
inductive Fault where
  /-- An explicit request names a physical address that the map of R12 does not have. Raised by
  MEMORY_REQUEST_ACCEPT, MEMORY_READ_RETURN and SCRUB_UNIT. Safe: no agent of the spec makes such a request. -/
  | noSuchAddress (addr : Nat)
  deriving DecidableEq, Repr

/-- Why the model gives no meaning. -/
inductive Refusal where
  /-- Raised by an arm of `exec` whose instruction has no meaning yet. Safe: nothing is claimed of it. -/
  | notModelled (mnemonic : String)
  deriving DecidableEq, Repr

/-- A vector lane or a slab element with its poison (R54, R269). -/
structure Lane where
  val  : W32
  pois : Bool
  deriving DecidableEq, Repr

/-- An address generator (R262), with the entry reads in flight: the L slot from which each is in effect (R264). -/
structure Gen where
  base   : W64
  ext    : Vector (BitVec 25) 6
  stride : Vector W32 6
  idx    : Vector (BitVec 24) 6
  indv   : Bool
  ind    : BitVec 3
  tbase  : BitVec 22
  ent    : W32
  reads  : List (Nat × W32)
  deriving DecidableEq, Repr

/-- A cleared generator (R168, R262). -/
def Gen.reset : Gen :=
  { base := 0, ext := Vector.replicate 6 1, stride := Vector.replicate 6 0, idx := Vector.replicate 6 0
    indv := false, ind := 0, tbase := 0, ent := 0, reads := [] }

/-- A node of the reduction tree (R201, R202): absent, or a value in the bits of its profile's node format
(FP32, or I40 in its 64-bit form), with its poison. -/
inductive Node where
  | absent
  | val (bits : Nat) (pois : Bool)
  deriving DecidableEq, Repr

/-- STATE of a chain (R317). -/
inductive ChainState where
  | none | opened | ended | closed
  deriving DecidableEq, Repr

/-- A chain generation (R317): its record, the carry stack of each element (key: element 512 × w × row + column, then
level), the subtree in progress, the initial C and the closed result. -/
structure Chain where
  st    : ChainState
  prof  : Nat
  w     : Nat
  init  : Bool
  k     : Nat
  s0    : Nat
  n     : Nat
  ct    : Nat
  kls   : Nat
  pres  : BitVec 64
  stack : Map (Map Node)
  part  : Map Node
  c     : Map Lane
  res   : Map Lane
  deriving DecidableEq, Repr

/-- A chain with no generation (R168, R317). -/
def Chain.reset : Chain :=
  { st := .none, prof := 0, w := 0, init := false, k := 0, s0 := 0, n := 0, ct := 0, kls := 0, pres := 0
    stack := [], part := [], c := [], res := [] }

/-- The tag of a sub-tile (R80): the format, for LUT4 the table and bank, and when it was loaded. -/
structure Tag where
  fmt  : BitVec 5
  tbl  : BitVec 3
  bank : Bool
  time : Nat
  deriving DecidableEq, Repr

/-- A steered word (R183): its place in program order, its engine and number among that engine's heads, its group's
address, its head's address, the address after the group, the heads it waits for, the instruction, the NPDEF it read
when it was steered (R206), where it came from, the latest L head before it (R266), for a replayed word the lbody head
with the indices and the position in the body (R260), whether it sleeps, and the handle of an access that waits (R123). -/
structure QWord where
  seq    : Nat
  eng    : Eng
  num    : Nat
  addr   : W64
  head   : W64
  next   : W64
  deps   : List (Eng × Nat)
  instr  : Instr
  np     : Nat
  origin : Origin
  lref   : Nat
  loop   : Option (Nat × List Nat × Nat)
  asleep : Bool
  held   : Option (BitVec 128)
  deriving DecidableEq, Repr

/-- Where an exposed result goes (R407): vector lanes (key 128 × register + lane), scratchpad bytes and grains, or the
flags that its word sets (R200). -/
inductive PDest where
  | lanes (ls : Map Lane)
  | spad (cells : List (Nat × Byte)) (grains : List (Nat × Bool))
  | flags (f : BitVec 7)
  deriving DecidableEq, Repr

/-- A result whose exposed latency has not elapsed (R67, R272, R407): the writing engine and head, the slot from which
that engine sees it, the heads (engine code, first head) that are issue-ordered after the writer (R96), the fences with X in their mask among them
(R84), whether PEND marked it (R71), and whether its races with those before it are settled (R68, R273). -/
structure Pend where
  eng    : Eng
  num    : Nat
  due    : Nat
  seen   : List (Nat × Nat)
  fences : List Nat := []
  marked : Bool
  dst    : PDest
  settled : Bool := false
  deriving DecidableEq, Repr

/-- What stood before a result that has become visible (R68, R96, R273): a scalar register, a mask, a handle, lanes, scratchpad or
slot bytes with their grains, or flags that were not yet set. -/
inductive Old where
  | sreg (r : Nat) (v : W64)
  | mreg (r : Nat) (v : BitVec 128)
  | handle (r : Nat) (v : BitVec 128)
  | lanes (ls : Map Lane)
  | spad (cells : List (Nat × Byte)) (grains : List (Nat × Bool))
  | slot (cells : List (Nat × Byte)) (grains : List (Nat × Bool))
  | flags (f : BitVec 7)
  deriving DecidableEq, Repr

/-- A result that has become visible and that some engines are not yet ordered after (R68, R96): its writer, the heads that are
issue-ordered after it, the fences with X in their mask among them (R84), whether it is a delivery and the barrier that counted
it, and what stood before it. -/
structure Past where
  eng    : Eng
  num    : Nat
  seen   : List (Nat × Nat)
  fences : List Nat
  landed : Bool
  bar    : Option Nat
  old    : Old
  deriving DecidableEq, Repr

/-- A handle that an xlat will write (R24, R25): `val` once its walk is complete; `seen` as for a result in flight; `asked` once it waits for
a move of its page (R130). -/
structure HPend where
  h      : BitVec 4
  num    : Nat
  due    : Nat
  seen   : List (Nat × Nat)
  va     : W64
  intent : BitVec 2
  marked : Bool
  val    : Option (BitVec 128)
  asked  : Bool := false
  deriving DecidableEq, Repr

/-- A trap found but not yet taken (R399, R444): its place in program order, what it will record, whether it ends a
Wick run (R394) and the micro-operation that it then stops at, the loop position of its group, and for a trap raised by
`trap` its completed head (R252, R444). -/
structure PTrap where
  seq    : Nat
  code   : Nat
  epc    : W64
  addr   : W64
  estat  : W64
  wick   : Bool
  wpc    : Option W64
  loop   : Option (Nat × List Nat × Nat)
  own    : Option (Eng × Nat)
  deriving DecidableEq, Repr

/-- A body in the loop buffer (R259, R260, R267). -/
structure Nest where
  body : List W32
  addr : W64
  next : W64
  num  : Nat
  ext  : List Nat
  idx  : List Nat
  pos  : Nat
  deriving DecidableEq, Repr

/-- Wick (R389, R390, R393): WSTART's fields, the micro registers, the conditions, the loop stack (start, end, count),
and the group of the wstart that runs it. -/
structure Wick where
  run     : Bool
  trapped : Bool
  wpc     : BitVec 11
  entry   : BitVec 11
  pboff   : BitVec 22
  w       : Vector W32 16
  eq      : Bool
  lt      : Bool
  stack   : List (Nat × Nat × W32)
  word    : Option QWord
  deriving DecidableEq, Repr

def Wick.reset : Wick :=
  { run := false, trapped := false, wpc := 0, entry := 0, pboff := 0, w := Vector.replicate 16 0, eq := false
    lt := false, stack := [], word := none }

/-- A completion record (R151): four little-endian doublewords. -/
structure Record where
  w0 : W64
  w1 : W64
  w2 : W64
  w3 : W64
  deriving DecidableEq, Repr

/-- How a command's or packet's work ended: the fields of its record (R151). -/
structure PRes where
  status : Nat
  cause  : Nat
  bytes  : Nat
  elems  : Nat
  pois   : Bool
  crc    : Option Nat
  deriving DecidableEq, Repr

/-- A task that a command reaches (R356): its core, and the queue, packet and ordinal that it must still have. -/
structure Target where
  core   : Nat
  qid    : Nat
  packet : Nat
  ord    : Nat
  deriving DecidableEq, Repr

/-- The answer to a line that a command forwarded (R124): the virtual address, the status, whether it timed out. -/
structure Got where
  va   : Nat
  st   : LineStatus
  late : Bool
  data : List PByte
  deriving DecidableEq, Repr

/-- The work of a command or of a packet that moves data (R345, R350): the captured records, descriptors or target blocks,
the handles they name (a packet's have none), the targets, the lines answered, units and bytes done, bytes counted by the
barrier, poison and flags met, the result that data on its way will have, and the result once it is known. -/
structure Job where
  recs    : List (List PByte)
  hs      : List (BitVec 128)
  targets : List Target
  got     : List Got
  units   : Nat
  bytes   : Nat
  pois    : Bool
  flags   : BitVec 7
  sent    : Option PRes
  res     : Option PRes
  deriving DecidableEq, Repr

def Job.empty : Job :=
  { recs := [], hs := [], targets := [], got := [], units := 0, bytes := 0, pois := false, flags := 0, sent := none
    res := none }

/-- A command in flight (R345): the identity that its pins and lines carry, the C word, its head, the profile it read,
and its operands. -/
structure Cmd where
  uid   : Nat
  instr : Instr
  num   : Nat
  np    : Nat
  tag   : BitVec 8
  a     : W64
  b     : W64
  c     : W64
  job   : Job
  deriving DecidableEq, Repr

/-- A line of the plain-access buffer (R103): its bytes, which of them are dirty, the handle it is reached through and
the task that stored (R124): its queue, LAUNCH packet and ordinal. The key is the virtual address divided by 64. -/
structure PLine where
  data   : List PByte
  dirty  : BitVec 64
  handle : BitVec 128
  qid    : Nat
  packet : Nat := 0
  ord    : Nat := 0
  deriving DecidableEq, Repr

/-- A translation-cache entry (R20, R22): context, page base, leaf, leaf address, size and the seen bits. -/
structure TlbE where
  ctx   : Nat
  base  : Nat
  size  : BitVec 2
  leaf  : W64
  addr  : Nat
  rseen : Bool
  wseen : Bool
  deriving DecidableEq, Repr

/-- A task on a core (R168): queue, LAUNCH packet, ordinal, phase, rank and gang size, context, determinism mode,
the lowest ordinal of its gang, and the recorded owners of its bindings (descriptor, owner; R106). -/
structure Task where
  qid    : Nat
  packet : Nat
  ord    : Nat
  phase  : Nat
  rank   : Nat
  gsize  : Nat
  gang   : Nat
  ctx    : Nat
  dmode  : Nat
  binds  : List (Nat × BitVec 16)
  deriving DecidableEq, Repr

/-- A free-mode push that has claimed its index and waits for room (R339, R341), with its word. -/
structure Claim where
  w     : QWord
  q     : Nat
  k     : Nat
  image : List Byte
  d     : BitVec 5
  deriving DecidableEq, Repr

/-- The management registers of a core (R27, R32, R38, R101, R133, R139), each at its own index of R223, and the BUSY
bits of the operations this core started. -/
structure MReg where
  sdva    : W64
  sdlen   : W64
  sdctl   : W64
  fmtbase : W64
  fmtlen  : W64
  fmtctl  : W64
  rglo    : W64
  rghi    : W64
  rgctl   : W64
  pgopva  : W64
  pgopdst : W64
  pgopca  : W64
  pgopctl : W64
  qarg    : W64
  qctl    : W64
  qstat   : W64
  htd     : Vector W64 8
  htctl   : W64
  sdBusy  : Bool
  fmtBusy : Bool
  rgBusy  : Bool
  pgBusy  : Bool
  qBusy   : Bool
  htBusy  : Bool
  deriving DecidableEq, Repr

def MReg.reset : MReg :=
  { sdva := 0, sdlen := 0, sdctl := 0, fmtbase := 0, fmtlen := 0, fmtctl := 0, rglo := 0, rghi := 0, rgctl := 0
    pgopva := 0, pgopdst := 0, pgopca := 0, pgopctl := 0, qarg := 0, qctl := 0, qstat := 0
    htd := Vector.replicate 8 0, htctl := 0, sdBusy := false, fmtBusy := false, rgBusy := false, pgBusy := false
    qBusy := false, htBusy := false }

/-- The system registers of a task (R200, R206, R250, R397) and, for each engine, the heads that are skipped when the
splitter meets them again (R399, R400). -/
structure SysReg where
  npdef    : BitVec 6
  fpflags  : BitVec 7
  step     : Bool
  pend     : Bool
  trapvec  : W64
  trapcode : W64
  trapaddr : W64
  epc      : W64
  estat    : W64
  skip     : Vector (List Nat) 7
  skipEpc  : W64
  deriving DecidableEq, Repr

def SysReg.reset : SysReg :=
  { npdef := 0, fpflags := 0, step := false, pend := false, trapvec := 0, trapcode := 0, trapaddr := 0, epc := 0
    estat := 0, skip := Vector.replicate 7 [], skipEpc := 0 }

/-- The entries that an sqld promises to the scale queue (R320, R359): its head, the entries not popped yet, and those of
them that have landed, oldest first, each with its poison. -/
structure Promise where
  head : Nat
  left : Nat
  got  : List (Byte × Bool)
  deriving DecidableEq, Repr

/-- The on-chip memories of a core (R64, R72, R78, R79, R80, R193, R317, R320): what stays from task to task (R70). -/
structure OnChip where
  spad   : Memory
  slot   : Memory
  cim    : Memory
  bscale : Memory
  tags   : Map Tag
  clock  : Nat
  tables : Map (BitVec 16)
  active : Vector Bool 8
  scaleq : List Promise
  deriving DecidableEq, Repr

def OnChip.empty : OnChip :=
  { spad := .empty, slot := .empty, cim := .empty, bscale := .empty, tags := [], clock := 0, tables := []
    active := Vector.replicate 8 false, scaleq := [] }

/-- The engine side of a core (R183, R219, R239): per engine the slots issued, the heads steered, the queue of words and
the latest heads in program order, most recent first, each with its place (the token window is the first 31);
the heads whose token is still to come; results in flight; what stood before results that have become visible, the latest first; and
the scalar registers and masks (32 on) that the word taken last sees as they stood before (R96). -/
structure Issue where
  slots   : Vector Nat 7
  heads   : Vector Nat 7
  queues  : Vector (List QWord) 7
  win     : Vector (List (Nat × Nat)) 7
  openTok : List (Eng × Nat)
  pend    : List Pend
  hpend   : List HPend
  past    : List Past
  view    : Map (BitVec 128)
  seq     : Nat
  hold    : Bool
  trap    : Option PTrap
  deriving DecidableEq, Repr

def Issue.reset : Issue :=
  { slots := Vector.replicate 7 0, heads := Vector.replicate 7 0, queues := Vector.replicate 7 [], win := Vector.replicate 7 []
    openTok := []
    pend := [], hpend := [], past := [], view := [], seq := 0, hold := false, trap := none }

/-- A core (R1, R168). `nests` and `runs` keep what the latest lbody and wstart heads captured, so that their words can
be met again after a trap (R400), `fired` the lbrk heads that ended an emission, `paths` where scalar control words
led; `fetched` holds code words from remote pages (R169); `fenceRel` the masks of the fences
that later strong writes carry (R111); `stepped` is the group last steered in task mode; `since` is the moment at which the task started and `ownxs` those of
its ownx words with their ranges (R103), `floor` the moment before which nothing is hidden from the core's Q engine any more, `floorX` the same for its commands (R112), `heard` the
moments that a fence.acq raises them to, by the class of the releaser (plus 6 where its release holds X), `lastRead` the moment of the latest read of a cell (R93, R108, R111); `transit` is the region of an ownx in progress with its head (R104), `drain` the slabs of draining
generations (R75). -/
structure Core where
  task    : Option Task
  handler : Bool
  stepped : Option QWord
  ending  : Bool
  pc      : W64
  s       : Vector W64 32
  v       : Map Lane
  m       : Vector (BitVec 128) 8
  h       : Vector (BitVec 128) 16
  g       : Vector Gen 8
  sys     : SysReg
  mreg    : MReg
  wick    : Wick
  mem     : OnChip
  chains  : Vector Chain 8
  drain   : Nat
  iss     : Issue
  loopx   : Vector (BitVec 25) 6
  nest    : Option Nest
  saved   : Option Nest
  nests   : List Nest
  runs    : List (Nat × W64 × W64)
  fired   : List Nat
  paths   : Map W64
  fetched : Map (LineStatus × List PByte)
  fenceRel : BitVec 6
  evq     : List Record
  cmds    : Map Cmd
  push    : Nat
  claim   : Option Claim
  plain   : Map PLine
  since   : Nat
  ownxs   : List (Nat × Nat × Nat)
  floor   : Nat
  floorX  : Nat
  heard   : Map Nat
  lastRead : Map Nat
  sleepers : List Nat
  tlb     : List TlbE
  lastCtx : Option Nat
  transit : Option (Nat × Nat)
  halting : Bool
  corrected : Nat
  deriving DecidableEq, Repr

/-- A core after reset: no task, its memories wiped (R62, R168). -/
def Core.reset : Core :=
  { task := none, handler := false, stepped := none, ending := false, pc := 0, s := Vector.replicate 32 0, v := []
    m := Vector.ofFn fun i => if i.val = 0 then BitVec.allOnes 128 else 0
    h := Vector.replicate 16 0, g := Vector.replicate 8 .reset, sys := .reset, mreg := .reset, wick := .reset
    mem := .empty, chains := Vector.replicate 8 .reset, drain := 0, iss := .reset
    loopx := Vector.replicate 6 1, nest := none, saved := none, nests := [], runs := [], fired := []
    paths := [], fetched := [], fenceRel := 0, evq := [], cmds := [], push := 0
    claim := none, plain := [], since := 0, ownxs := [], floor := 0, floorX := 0, heard := [], lastRead := [], sleepers := [], tlb := [], lastCtx := none, transit := none, halting := false
    corrected := 0 }

/-- A region descriptor (R98, R99), a window entry (R31, R414). -/
structure Region where
  w0 : W64
  w1 : W64
  deriving DecidableEq, Repr

structure Window where
  w0 : W64
  w1 : W64
  w2 : W64
  w3 : W64
  deriving DecidableEq, Repr

/-- A frame attribute (R36). -/
structure Attr where
  gran : BitVec 2
  tol  : Bool
  tcls : BitVec 3
  deriving DecidableEq, Repr

/-- The attribute a wipe gives every frame: G256, TOL clear (R62). -/
def Attr.wiped : Attr := { gran := 3, tol := false, tcls := 0 }

/-- A shootdown in progress (R27, R28). -/
structure Shoot where
  id    : Nat
  req   : ShootReq
  deriving DecidableEq, Repr

/-- A stream pin (R29): the context, the page, the direction it was translated for, its translation as a handle, the
cause of R151 of a page that is refused (R345), the agent that holds it (a command: its identity and 4096; a packet: its
index and its queue; a move: its number and 4097), and whether a shootdown has asked for its release. -/
structure Pin where
  id      : Nat
  ctx     : Nat
  base    : Nat
  size    : BitVec 2
  write   : Bool
  handle  : BitVec 128
  cause   : Option Nat
  owner   : Nat × Nat
  revoked : Bool
  deriving DecidableEq, Repr

/-- What a forwarded line was made for (R124); a store by its queue, core, LAUNCH packet and ordinal. -/
inductive LineUse where
  | load (core : Nat) (num : Nat)
  | store (qid core packet ord : Nat)
  | strong (core : Nat) (num : Nat)
  | command (id q va : Nat)
  | fetch (core va : Nat)
  deriving DecidableEq, Repr

/-- A line on its way to a holder (R31, R124): device, target address, the bytes of a write with the mask of those that are
written, the virtual address that named it here with the page of the translation used, and the virtual lane (R417). -/
structure FLine where
  id   : Nat
  dev  : Nat
  host : Bool
  va   : Nat
  len  : Nat
  data : Option (List PByte)
  op   : Nat
  use  : LineUse
  src  : Nat
  mask : BitVec 64 := BitVec.allOnes 64
  page : Nat × Nat := (0, 0)
  lane : Nat := 0
  deriving DecidableEq, Repr

/-- The answer to a forwarded line that a waiting word of the S engine, or of the Q engine (`strong`), has not yet taken. -/
structure Answer where
  core : Nat
  num  : Nat
  strong : Bool
  st   : LineStatus
  late : Bool
  data : List PByte
  deriving DecidableEq, Repr

/-- A byte of device memory that a write has changed (R93): when, counted in writes, its cell, and what it held before. -/
structure Wrote where
  stamp : Nat
  cell  : Nat
  old   : PByte
  deriving DecidableEq, Repr

/-- What an acquire that reads a word of device memory may synchronise with (R108): when it was written, its cell and width, and the
releases that its value continues, each by its core (65533: the host, 65534: a peer, 65535: the hub and the engines) and its mask. -/
structure Release where
  stamp : Nat
  cell  : Nat
  len   : Nat
  heads : List (Nat × BitVec 6)
  deriving DecidableEq, Repr

/-- A read that a stack controller has accepted (R41): its bytes as they stood, and the cells of the units whose outcome
(R47) is still to come. -/
structure ReadReq where
  req   : MemReq
  data  : List PByte
  units : List Nat
  deriving DecidableEq, Repr

/-- A page move (R130): the request, its kind (0 migrate, 1 expand, 2 compress, 3 promote, 4 the sweeper expands, 5 the
sweeper compresses), the leaf as read
at step 1 and its address, the destination leaf fields (RES 3 until a record has a place), the frame taken from the pool, the queue whose error ring an abort
is reported to, the lines answered, and how far it is (0: the copy; 1: the new leaf is written). -/
structure Move where
  req   : PageReq
  kind  : Nat
  leaf  : W64
  addr  : Nat
  dst   : W64
  pool  : Option Nat
  qid   : Option Nat
  got   : List Got
  phase : Nat
  deriving DecidableEq, Repr

/-- A frame that leaves HELD (R135, R136): its page, the completion area (none for a move), the status of the first record, the
core that asked, whether a second record follows, and whether its frame shootdown is complete. -/
structure Deferral where
  id     : Nat
  frame  : Nat
  len    : Nat
  area   : Option Nat
  stat   : Nat
  second : Bool
  shot   : Bool
  deriving DecidableEq, Repr

/-- A ticket (R153). -/
structure Ticket where
  phase : Nat
  ord   : Nat
  push  : Nat
  deriving DecidableEq, Repr

/-- A push held in a ticket stage (R154): the launch it belongs to, its ticket and image, the index that the sequencer has claimed for it,
the mask with which its publication releases (R339), and the place of the stage's memory that holds its image; none for the push of the lowest
open ticket. -/
structure Push where
  qid     : Nat
  packet  : Nat
  tk      : Ticket
  image   : List Byte
  claimed : Option Nat
  mask    : BitVec 6 := 7
  stage   : Option Nat := none
  deriving DecidableEq, Repr

/-- A loop-nest record as captured (R161 to R163). -/
structure NestRec where
  entry  : W64
  npdef  : Nat
  gang   : Nat
  pken   : Bool
  pkey   : Nat
  rank   : Nat
  dir    : Nat
  order  : List Nat
  gmapoff : Nat
  gmapen : Bool
  liveoff : Nat
  livelen : Nat
  ext    : List Nat
  binds  : List (Nat × List Nat)
  deriving DecidableEq, Repr

/-- A member of a saved unit (R405): its task and the context the save wrote, its slot, its handler mode, the plain
damage flag (R408), the landings held for it (R356, R411) and its checkpointed commands. -/
structure Saved where
  task  : Task
  core  : Core
  slot  : Nat
  dmg   : Nat
  held  : List Delivery
  deriving DecidableEq, Repr

/-- A unit (R178): a gang by its lowest ordinal, the level it was placed at and when. -/
structure Unit' where
  gang  : Nat
  size  : Nat
  level : Nat
  time  : Nat
  cores : List Nat
  saving : Bool
  deriving DecidableEq, Repr

/-- A LAUNCH that has started (R161 to R177): its record, T, the next ordinal, the tasks committed, the status that ends
it, the units that run and those saved, the descriptors bound so far by phase (R174), and when it started. -/
structure Launch where
  rec'   : NestRec
  t      : Nat
  nextOrd : Nat
  committed : Nat
  stop   : Option Nat
  units  : List Unit'
  saved  : List (Unit' × List Saved)
  bound  : List (Nat × Nat)
  time   : Nat
  deriving DecidableEq, Repr

/-- A packet of a queue that has started (R149): its index and bytes, whether it is complete (the hub tracks completion
across the window of 256, R150) or has stopped the queue, the element offset at which it starts again (R141), its LAUNCH,
the cores of its set (R156) and its work. Of a packet in the body of a BLOOP (R157): its iteration, whether its work in it
is over, the BLOOP once that is known, and whether the last iteration is over. `bloop`: COUNT and BACK of a BLOOP that
runs; `redo`: a stopped packet that RESUME runs again with this QARG (R141). -/
structure Packet where
  k      : Nat
  kind   : Nat
  bytes  : List Byte
  done   : Bool
  stop   : Bool
  base   : Nat
  launch : Option Launch
  cores  : List Nat
  job    : Job
  iter   : Nat
  held   : Bool
  inLoop : Option Nat
  fin    : Bool
  bloop  : Option (Nat × Nat)
  redo   : Option Nat := none
  deriving DecidableEq, Repr

inductive QState where
  | free | active | stopped
  deriving DecidableEq, Repr

/-- A queue of the hub (R139, R140): the captured descriptor, RIDX, the started packets, the observed slots (R145), the
count of error records, the dispatcher's credit and ageing, the
ticket sequencer (its launch, those that wait, the tickets of published entries, R445's halt), the occupied context
slots, a DESTROY in progress, and whether STOP has stopped it (R158). -/
structure Queue where
  st      : QState
  logn    : Nat
  ringva  : Nat
  hdrva   : Nat
  logstg  : Nat
  stgva   : Nat
  msetva  : Nat
  trapvec : W64
  errva   : Nat
  savepa  : Nat
  nslot   : Nat
  ageus   : Nat
  weight  : Nat
  dmode   : Nat
  prio    : Nat
  ctx     : Nat
  ridx    : Nat
  next    : Nat
  first   : Nat
  packets : List Packet
  errn    : Nat
  credit  : Int
  aged    : Nat
  held    : List Push
  feeder  : Option (Nat × Nat)
  feeders : List (Nat × Nat)
  tickets : Map Ticket
  jam     : Bool
  slots   : List Nat
  dying   : Option Requester
  byStop  : Bool := false
  deriving DecidableEq, Repr

/-- An open collective of a GID (R367): the arrivals of its current round and those held for the next. -/
structure Joined where
  arr  : List Arrival
  late : List Arrival
  deriving DecidableEq, Repr

/-- A record of an error ring that is still to be written (R123, R401): its queue, context, ring and place, its bytes, and the words of the
log entry that stands for it where it cannot be written. -/
structure RingRec where
  qid   : Nat
  ctx   : Nat
  base  : Nat
  va    : Nat
  bytes : List PByte
  words : List W64
  deriving DecidableEq, Repr

/-- An entry of a base die's error log (R53, R60): kind (0 uncorrectable, 1 FORMAT, 2 RDMA refusal, 3 SHADE), the
offset of the unit, granule and class, and the symbols found in error where the decoder can tell. -/
structure ErrRec where
  kind : Nat
  off  : Nat
  gran : BitVec 2
  tol  : Bool
  tcls : BitVec 3
  syms : Option Nat := none
  deriving DecidableEq, Repr

/-- An entry of the management log (R124, R131, R376, R401, R420, R421, R429). -/
inductive LogRec where
  | error (qid : Nat) (words : List W64)
  | holderLost (dev : Nat)
  | link (dev : Nat)
  | thermal
  | memoryError (stack : Nat)
  | poolEmpty
  | discarded (dst : Nat)
  | move (va ctx cause : Nat)
  deriving DecidableEq, Repr

/-- What the device sends out (R124, R357, R413, R415, R418), and what a stack controller answers to an explicit request (R41). -/
inductive Out where
  | line (f : FLine)
  | peerAnswer (dev : Nat) (st : LineStatus) (data : List PByte)
  | carry (dev core : Nat) (d : Delivery)
  | arrival (dev : Nat) (a : Arrival)
  | rdmaAck (qp : Nat) (data : List Byte)
  | rdmaNakAccess (qp : Nat)
  | rdmaRefused (qp : Nat) (st : LineStatus)
  | rdmaNakInvalid (qp : Nat)
  | mgmt (op tag status : Nat) (payload : List W64)
  | report (bytes : List Byte) (sig : List Byte)
  | flit (port : Nat) (bytes : List Byte)
  | nak (port : Nat) (ack : Nat)
  | memory (id : Nat) (data : List PByte)
  | ready
  deriving DecidableEq, Repr

/-- A Fylvathen port (R416 to R418, R422): its lanes, credits, the last SEQ sent and accepted, its replay buffer, the SEQ at which
a repair was asked for, and the credits that it has still to return. -/
structure Port where
  up      : Bool
  lanes   : List Nat
  failing : List Nat
  credits : Vector Nat 8
  txSeq   : Nat
  rxAck   : Nat
  nakSent : Bool
  replay  : List (Nat × List Byte)
  replaying : Bool
  repair  : Option Nat
  retrain : Bool
  buffer  : Vector Nat 8
  deriving DecidableEq, Repr

/-- A port after reset: down until it trains (R428), 64 credits per lane (R417). -/
def Port.reset : Port :=
  { up := false, lanes := [0, 1], failing := [], credits := Vector.replicate 8 64, txSeq := 0, rxAck := 0
    nakSent := false, replay := [], replaying := false, repair := none, retrain := false
    buffer := Vector.replicate 8 0 }

/-- Translation, protection and page-operation state of the hub. -/
structure Mmu where
  ctxBase : Nat
  regions : Map Region
  rwin    : Map Window
  inwin   : Map Window
  tlbs    : Map (List TlbE)
  shoots  : List Shoot
  pins    : List Pin
  nextId  : Nat
  moves   : Map Move
  pool    : List Nat
  zone    : Map Nat
  shzBase : W64
  shzLen  : W64
  cen     : Bool
  xen     : Bool
  expthr  : BitVec 3
  frtBase : W64
  defer   : List Deferral
  formats : List (Nat × FormatReq × List Nat)
  deriving DecidableEq, Repr

/-- The links and what waits on them; `inbound` holds the lines that an inbound access to a remote page has got, by its channel
(R123). -/
structure Fabric where
  devid   : Nat
  ports   : Map Port
  routes  : Map (BitVec 36)
  lost    : List Nat
  timeouts : Map Nat
  lines   : List FLine
  answers : List Answer
  inbound : Map (List Got)
  nextLine : Nat
  qps     : Map QpReq
  out     : List Out
  deriving DecidableEq, Repr

/-- The management controller (R415 to R429). -/
structure Mgmt where
  ready    : Bool
  wiping   : Bool
  powered  : Bool
  life     : LifeState
  debug    : Bool
  unlocking : Bool
  rollback : Nat
  flash    : List Byte
  running  : List Byte
  owner    : List Byte
  log      : List LogRec
  clock    : Nat
  cap      : Option Nat
  nonce    : Nat
  deriving DecidableEq, Repr

/-- The whole device. `hist` keeps what the bytes of device memory held before, the latest first, and `rels` the releases (R93, R108). `agenda` lists the events due, oldest first: what the outside world brings and what the device
itself has started; `core` and `word` are the core and the word that execute; `turn` says which of the things that may
happen next does, a free value where it is none; `free` counts free values used (log 5). -/
structure State where
  cores   : Map Core
  dram    : Memory
  attrs   : Map Attr
  old     : Map Byte
  hist    : List Wrote
  rels    : List Release
  stamp   : Nat
  reads   : List ReadReq
  errlog  : Map (List ErrRec)
  corr    : Map Nat
  uncorr  : Map Nat
  sleepers : List (Nat × Nat)
  ring    : List RingRec
  mmu     : Mmu
  queues  : Map Queue
  ptr     : Vector Nat 8
  reserved : Option (Nat × Nat)
  joined  : Map Joined
  wcs     : Map W32
  wcsLoad : Option (Nat × List W32)
  ranges  : List MapRange
  fab     : Fabric
  mgmt    : Mgmt
  agenda  : List Event
  core    : Nat
  word    : Option QWord
  turn    : Option Nat
  time    : Nat
  free    : Nat
  tstamp  : W64
  deriving DecidableEq, Repr

/-- The machine right after reset (R62, R63): everything wiped, the wipe's completion due next. -/
def State.reset : State :=
  { cores := [], dram := .empty, attrs := [], old := [], hist := [], rels := [], stamp := 0, reads := [], errlog := [], corr := [], uncorr := []
    sleepers := [], ring := []
    mmu := { ctxBase := 0, regions := [], rwin := [], inwin := [], tlbs := [], shoots := [], pins := [], nextId := 0
             moves := [], pool := [], zone := [], shzBase := 0, shzLen := 0, cen := false, xen := false, expthr := 0
             frtBase := 0, defer := [], formats := [] }
    queues := [], ptr := Vector.replicate 8 4095, reserved := none, joined := [], wcs := [], wcsLoad := none
    ranges := []
    fab := { devid := 0, ports := [], routes := [], lost := [], timeouts := [], lines := [], answers := [], inbound := []
             nextLine := 0, qps := [], out := [] }
    mgmt := { ready := false, wiping := true, powered := true, life := .manufacture, debug := true
              unlocking := false, rollback := 0, flash := [], running := [], owner := [], log := [], clock := 2500
              cap := none, nonce := 0 }
    agenda := [.wipeComplete], core := 0, word := none, turn := none, time := 0, free := 0, tstamp := 0 }

end Sys2Proof.Machine
end

