-- ==== Sys2Proof/Machine/Bits.lean ====
section
/-! DEFINITION. Fields of numbers, little-endian bytes, and total access to vectors and lists. -/

namespace Sys2Proof.Machine

/-- The `n` bits of a number from bit `lo`. -/
def bits (x lo n : Nat) : Nat := x / 2 ^ lo % 2 ^ n

/-- One bit of a number. -/
def bit (x i : Nat) : Bool := x / 2 ^ i % 2 == 1

/-- A Bool as a number. -/
def b2n (b : Bool) : Nat := if b then 1 else 0

/-- A number read as signed in `n` bits. -/
def sextN (n x : Nat) : Int :=
  let y := x % 2 ^ n
  if 2 * y < 2 ^ n then (y : Int) else (y : Int) - (2 ^ n : Nat)

/-- The low `n` bits of an integer. -/
def lowN (n : Nat) (x : Int) : Nat := (x % ((2 ^ n : Nat) : Int)).toNat

/-- The low 64 bits of an integer. -/
def lowW (x : Int) : W64 := BitVec.ofInt 64 x

/-- The little-endian bytes of a number (R6). -/
def leBytes : Nat → Nat → List Byte
  | 0, _ => []
  | n + 1, v => BitVec.ofNat 8 v :: leBytes n (v / 256)

/-- The number of little-endian bytes. -/
def leNat : List Byte → Nat
  | [] => 0
  | b :: bs => b.toNat + 256 * leNat bs

/-- The number of little-endian bytes that carry poison. -/
def leVal (bs : List PByte) : Nat := leNat (bs.map (·.1))

/-- Whether any byte carries poison. -/
def anyPois (bs : List PByte) : Bool := bs.any (·.2)

/-- Bytes without poison. -/
def clean (bs : List Byte) : List PByte := bs.map fun b => (b, false)

/-- The element of a vector, or a value where the index is out of range. -/
def vget {α : Type} {n : Nat} (v : Vector α n) (i : Nat) (d : α) : α := (v[i]?).getD d

/-- Replace the element of a vector. -/
def vset {α : Type} {n : Nat} (v : Vector α n) (i : Nat) (a : α) : Vector α n := v.setIfInBounds i a

/-- The element of a list, or a value where there is none. -/
def lget {α : Type} (l : List α) (i : Nat) (d : α) : α := (l[i]?).getD d

/-- The engine codes of R1. -/
def engIx : Eng → Nat
  | .s => 0 | .l => 1 | .v => 2 | .x => 3 | .m => 4 | .c => 5 | .q => 6

/-- The engine of a code (7 and above: none, read as Q). -/
def engOf : Nat → Eng
  | 0 => .s | 1 => .l | 2 => .v | 3 => .x | 4 => .m | 5 => .c | _ => .q

/-- Whether `n` divides `x`. -/
def aligned (x n : Nat) : Bool := x % n == 0

/-- The pieces of a byte list at the boundaries of units of `u` bytes, the first byte at address `a`: address and bytes
of each. -/
def chunks (u : Nat) : Nat → Nat → List PByte → List (Nat × List PByte)
  | 0, _, _ => []
  | fuel + 1, a, bs =>
    let n := u - a % u
    match bs with
    | [] => []
    | _ => (a, bs.take n) :: chunks u fuel (a + n) (bs.drop n)

/-- The pieces of a range at the boundaries of units of `u` bytes: address and length of each. -/
def ranges (u : Nat) : Nat → Nat → Nat → List (Nat × Nat)
  | 0, _, _ => []
  | fuel + 1, a, len =>
    if len = 0 then []
    else
      let n := min len (u - a % u)
      (a, n) :: ranges u fuel (a + n) (len - n)

/-- Write bytes whose poison is kept per grain of `g` bytes, in units of `u` bytes: a poisoned byte marks its whole unit,
and a unit written whole without poison is cleared (R52, R54). -/
def Memory.write (m : Memory) (g u a : Nat) (bs : List PByte) : Memory :=
  let m := m.setBytes a (bs.map (·.1))
  (chunks u (bs.length + 1) a bs).foldl
    (fun m c =>
      let gs := (List.range (u / g)).map fun i => c.1 / u * (u / g) + i
      if anyPois c.2 then gs.foldl (fun m k => m.setGrain k true) m
      else if c.2.length = u then { m with pois := m.pois.filter fun k => !gs.contains k }
      else m)
    m

/-- Read bytes with the poison of their grains; a poisoned byte reads as it stands. -/
def Memory.read (m : Memory) (g a n : Nat) : List PByte :=
  (m.bytes a n).mapIdx fun i b => (b, m.pois.contains ((a + i) / g))

end Sys2Proof.Machine
end

