-- ==== Sys2Proof/Machine/Dram.lean ====
section
/-! DEFINITION. Device memory behind its controllers: the physical map, frame attributes, units, poison, error logs
(R12, R36 to R60), and the near-memory port (R114). -/

namespace Sys2Proof.Machine

/-- The cell of a device physical address (R12): stack × 2^36 + stack offset; none outside the two windows. -/
def cellOf (pa : Nat) : Option Nat :=
  if pa < 1099511627776 then some pa
  else if pa < 2199023255552 then
    let y := pa - 1099511627776
    some (y / 4096 % 16 * 68719476736 + y / 65536 * 4096 + y % 4096)
  else none

/-- The frame attribute of a cell's frame (R36). -/
def attrAt (s : State) (cell : Nat) : Attr := Map.get Attr.wiped s.attrs (cell / 65536)

/-- The unit of a granule, in bytes (R40). -/
def unitOf (a : Attr) : Nat := 2 ^ (5 + a.gran.toNat)

/-- Where a byte of a stack lies (R35): its pseudo-channel, bank, row, the 64-byte column slot within the row and the byte
within the slot. -/
structure DramPlace where
  pch  : Nat
  bank : Nat
  row  : Nat
  slot : Nat
  byte : Nat
  deriving DecidableEq, Repr

/-- The placement of a stack offset (R35): the gang is the pseudo-channel divided by 4; the bank is hashed. -/
def dramPlaceOf (off : Nat) : DramPlace :=
  { pch := 4 * bits off 8 4 + bits off 6 2, bank := bits off 12 6 ^^^ bits off 22 6, row := bits off 22 14
    slot := bits off 18 4, byte := bits off 0 6 }

/-- The beat and the data pin of a bit of a 64-byte column slot (R35). -/
def beatPin (b : Nat) : Nat × Nat := (b / 8 / 4, 8 * (b / 8 % 4) + b % 8)

/-- The address tag of a cell (R46): the stack number and the stack offset bits above the unit. -/
def addressTag (s : State) (cell : Nat) : Nat := cell / unitOf (attrAt s cell)

/-- Add a record to a stack's error log of 64 records and raise the memory-error event (R60). -/
def logError (s : State) (stack : Nat) (r : ErrRec) : State :=
  let l := Map.get [] s.errlog stack
  { s with errlog := Map.set s.errlog stack ((l ++ [r]).drop ((l.length + 1) - 64))
           mgmt := { s.mgmt with log := s.mgmt.log ++ [.memoryError stack] } }

/-- A FORMAT record for a refused request (R37). -/
def logFormat (s : State) (cell : Nat) : State :=
  let a := attrAt s cell
  logError s (cell / 68719476736)
    { kind := 1, off := cell % 68719476736, gran := a.gran, tol := a.tol, tcls := a.tcls }

/-- One byte of a cell range: a poisoned unit reads as 0xFF (R53). -/
def cellBytes (s : State) (cell n : Nat) : List PByte :=
  (s.dram.read 32 cell n).map fun b => if b.2 then (255, true) else b

/-- A byte of device memory by its cell address. -/
def cellByte (s : State) (cell : Nat) : PByte :=
  if s.dram.pois.contains (cell / 32) then (255, true) else (s.dram.byte cell, false)

/-- The requests of an access to physical addresses (R37): one for each frame it touches. A piece outside the windows
has no cell. -/
def requests (pa n : Nat) : List (Option Nat × Nat) :=
  if pa < 1099511627776 then (ranges 65536 (n / 65536 + 2) pa n).map fun r => (cellOf r.1, r.2)
  else (ranges 4096 (n / 4096 + 2) pa n).map fun r => (cellOf r.1, r.2)

/-- A read of physical memory with the format it carries (R37, R41, R53). -/
def dramRead (s : State) (pa n : Nat) (f : Attr) : State × List PByte :=
  (requests pa n).foldl
    (fun r q =>
      match q.1 with
      | none => (r.1, r.2 ++ List.replicate q.2 (255, true))
      | some c =>
        if attrAt r.1 c = f then (r.1, r.2 ++ cellBytes r.1 c q.2)
        else (logFormat r.1 c, r.2 ++ List.replicate q.2 (255, true)))
    (s, [])

/-- The old bytes of a write that the near-memory port may still read (R114): those not already kept. -/
def keepOld (s : State) (cell : Nat) (n : Nat) : State :=
  (List.range n).foldl
    (fun s i =>
      match Map.find s.old (cell + i) with
      | some _ => s
      | none => { s with old := Map.set s.old (cell + i) (s.dram.byte (cell + i)) })
    s

/-- Keep what the bytes of a write held before, where it changes them (R93). -/
def keepHist (s : State) (cell : Nat) (bs : List PByte) : State :=
  let now := s.dram.read 32 cell bs.length
  let changed := ((now.zip bs).zip (List.range bs.length)).filter fun x => x.1.1.1 ≠ x.1.2.1
  { s with stamp := s.stamp + 1
           hist := changed.map (fun x => { stamp := s.stamp + 1, cell := cell + x.2, old := x.1.1 }) ++ s.hist }

/-- Store bytes at a cell: landed (R42), its units' poison as R52 gives, and its way to the cells due (R114). -/
def cellStore (s : State) (cell : Nat) (bs : List PByte) : State :=
  let u := unitOf (attrAt s cell)
  let s := keepHist (keepOld s cell bs.length) cell bs
  { s with dram := s.dram.write 32 u cell bs
           reads := s.reads.map fun r => { r with units := r.units.filter fun x => !(cell ≤ x && x + u ≤ cell + bs.length) }
           agenda := s.agenda ++ (ranges u (bs.length + 1) cell bs.length).map fun r => .cellWriteComplete r.1 }

/-- Store bytes at a cell that no near-memory read can find late (R58 structures, formats). -/
def cellStoreDirect (s : State) (cell : Nat) (bs : List PByte) : State :=
  { s with dram := s.dram.write 32 (unitOf (attrAt s cell)) cell bs }

/-- A write of physical memory with the format it carries (R37, R41, R42). -/
def dramWrite (s : State) (pa : Nat) (bs : List PByte) (f : Attr) : State :=
  ((requests pa bs.length).foldl
    (fun r q =>
      let part := r.2.take q.2
      let rest := r.2.drop q.2
      match q.1 with
      | none => (r.1, rest)
      | some c => if attrAt r.1 c = f then (cellStore r.1 c part, rest) else (logFormat r.1 c, rest))
    (s, bs)).1

/-- A read by hardware that follows physical addresses alone (R10): by the frame's own attribute. -/
def physRead (s : State) (pa n : Nat) : List PByte :=
  (requests pa n).flatMap fun q =>
    match q.1 with
    | none => List.replicate q.2 (255, true)
    | some c => cellBytes s c q.2

/-- A write by hardware that follows physical addresses alone (R10). -/
def physWrite (s : State) (pa : Nat) (bs : List PByte) : State :=
  ((requests pa bs.length).foldl
    (fun r q =>
      match q.1 with
      | none => (r.1, r.2.drop q.2)
      | some c => (cellStoreDirect r.1 c (r.2.take q.2), r.2.drop q.2))
    (s, bs)).1

/-- A free choice between an old and a new value (log 6): the counter of State moves on. -/
def pick (s : State) (tag : Nat) : State × Bool :=
  ({ s with free := s.free + 1 }, Config.pickNew s.free tag)

/-- A near-memory read of cells (R114): a unit that has not reached its cells is old or new, as a whole (log 6). -/
def nearBytes (s : State) (cell n : Nat) : State × List PByte :=
  let u := unitOf (attrAt s cell)
  (ranges u (n + 1) cell n).foldl
    (fun r q =>
      let now := cellBytes r.1 q.1 q.2
      let was := now.mapIdx fun i b => if b.2 then b else ((Map.find r.1.old (q.1 + i)).getD b.1, b.2)
      if was = now then (r.1, r.2 ++ now)
      else
        let p := pick r.1 q.1
        (p.1, r.2 ++ if p.2 then now else was))
    (s, [])

/-- Every landed write reaches the cells (R107, class N). -/
def flushNear (s : State) : State := { s with old := [] }

/-- Whether every byte of a range lies in a frame with TOL clear (R58). -/
def fullFrames (s : State) (pa n : Nat) : Bool :=
  (requests pa n).all fun q => match q.1 with | none => false | some c => !(attrAt s c).tol

end Sys2Proof.Machine
end

