-- ==== Sys2Proof/Machine/Translate.lean ====
section
/-! DEFINITION. Translation: the context table, the page walk, heat, the translation caches, handles (R14 to R26), the
frame table (R134) and the remote windows (R31). -/

namespace Sys2Proof.Machine

/-- What a translation yields: a leaf with its page size and its address in memory, or the cause that an absent handle
records: 0 absent, 1 unmapped, 2 malformed, 3 non-canonical (R19, R23). -/
inductive TOut where
  | ok (leaf : W64) (size : BitVec 2) (addr : Nat)
  | no (cause : Nat)
  deriving DecidableEq, Repr

/-- An entry of a page table or of the context table: poisoned bytes read as ones, and an entry in a tolerant frame is
malformed (R58). -/
def tableWord (s : State) (pa : Nat) : Option Nat :=
  if fullFrames s pa 8 then some (leVal (physRead s pa 8)) else none

/-- The frame-table entry of the page of a physical address (R134): 0 where tracking is off. -/
def frameEntry (s : State) (pa : Nat) : Nat :=
  if bit s.mmu.frtBase.toNat 0 then leVal (physRead s (bits s.mmu.frtBase.toNat 28 20 * 268435456 + 8 * bits pa 16 25) 8)
  else 0

/-- The address of a frame-table entry (R134). -/
def frameEntryAddr (s : State) (pa : Nat) : Nat :=
  bits s.mmu.frtBase.toNat 28 20 * 268435456 + 8 * bits pa 16 25

/-- The bytes of a page of a SIZE code (R23). -/
def pageSize (size : BitVec 2) : Nat :=
  if size = 0 then 65536 else if size = 1 then 2097152 else 1073741824

/-- The physical address at which a leaf or handle places its page. -/
def frameBase (frame : Nat) : Nat := frame * 65536

/-- The outcome of a well-placed leaf (R17 to R19, R136). -/
def leafOut (s : State) (e : Nat) (size : BitVec 2) (addr : Nat) : TOut :=
  let res := bits e 7 2
  let pmode := bit e 13
  let stack := bits e 9 4
  let pa := frameBase (bits e 16 32)
  if bits e 1 5 ≠ 0 ∨ bits e 52 2 = 3 ∨ (bit e 48 ∧ bits e 49 3 = 7) ∨ (!bit e 48 ∧ bits e 49 3 ≠ 0) then .no 2
  else if res = 3 then .no 0
  else if res = 2 then if bits e 26 22 ≠ 0 then .no 2 else .ok (BitVec.ofNat 64 e) size addr
  else if 2199023255552 ≤ pa then .no 2
  else if res = 1 then .ok (BitVec.ofNat 64 e) size addr
  else if (pmode ∧ (1099511627776 ≤ pa ∨ bits pa 36 4 ≠ stack)) ∨ (!pmode ∧ (pa < 1099511627776 ∨ stack ≠ 0))
      ∨ pa % pageSize size ≠ 0 then .no 2
  else if 2 ≤ bits (frameEntry s pa) 62 2 then .no 1
  else .ok (BitVec.ofNat 64 e) size addr

/-- The index bits of a level (R15): lowest bit and count. -/
def levelBits : Nat → Nat × Nat
  | 0 => (39, 13)
  | 1 => (30, 9)
  | 2 => (21, 9)
  | _ => (16, 5)

/-- The size of a leaf at a level (R15). -/
def levelSize : Nat → BitVec 2
  | 1 => 2
  | 2 => 1
  | _ => 0

/-- The levels of the table from one on (R15, R16, R19); `left` counts the levels that remain. -/
def walkFrom (s : State) (va : Nat) : Nat → Nat → Nat → TOut
  | 0, _, _ => .no 2
  | left + 1, lvl, table =>
    if 2199023255552 ≤ table then .no 2
    else
      let addr := table + 8 * bits va (levelBits lvl).1 (levelBits lvl).2
      match tableWord s addr with
      | none => .no 2
      | some e =>
        if !bit e 0 then .no 1
        else if bit e 6 then if lvl = 0 then .no 2 else leafOut s e (levelSize lvl) addr
        else if bits e 48 16 ≠ 0 ∨ bit e 7 ∨ bits e 1 5 ≠ 0 ∨ (lvl < 2 ∧ bits e 8 4 ≠ 0) then .no 2
        else walkFrom s va left (lvl + 1) (bits e 8 40 * 256)

/-- Where the leaf of an address lies, whatever it maps to: its address, its word and its size (R15). -/
def leafFrom (s : State) (va : Nat) : Nat → Nat → Nat → Option (Nat × Nat × BitVec 2)
  | 0, _, _ => none
  | left + 1, lvl, table =>
    if 2199023255552 ≤ table then none
    else
      let addr := table + 8 * bits va (levelBits lvl).1 (levelBits lvl).2
      match tableWord s addr with
      | none => none
      | some e =>
        if !bit e 0 then none
        else if bit e 6 then if lvl = 0 then none else some (addr, e, levelSize lvl)
        else leafFrom s va left (lvl + 1) (bits e 8 40 * 256)

/-- A doubleword of a context's entry (R14). -/
def ctxWord (s : State) (ctx i : Nat) : Option Nat := tableWord s (s.mmu.ctxBase + 64 * ctx + 8 * i)

/-- Whether a context is valid (R14). -/
def ctxValid (s : State) (ctx : Nat) : Bool := match ctxWord s ctx 0 with | some w => bit w 0 | none => false

/-- A walk (R14 to R19). -/
def walk (s : State) (ctx va : Nat) : TOut :=
  if 4503599627370496 ≤ va then .no 3
  else
    match ctxWord s ctx 0, ctxWord s ctx 1 with
    | some w0, some w1 =>
      if !bit w0 0 then .no 1
      else if bits w0 48 16 ≠ 0 ∨ bits w0 1 15 ≠ 0 ∨ bits w1 18 46 ≠ 0
          ∨ (List.range 6).any (fun i => ctxWord s ctx (i + 2) ≠ some 0) then .no 2
      else walkFrom s va 4 0 (bits w0 16 32 * 65536)
    | _, _ => .no 2

/-- The leaf of an address in a context, if the table has one. -/
def leafSpot (s : State) (ctx va : Nat) : Option (Nat × Nat × BitVec 2) :=
  match ctxWord s ctx 0 with
  | some w => if bit w 0 then leafFrom s va 4 0 (bits w 16 32 * 65536) else none
  | none => none

/-- Whether a context keeps heat (R14, R20). -/
def heatOn (s : State) (ctx : Nat) : Bool := match ctxWord s ctx 1 with | some w => bit w 17 | none => false

/-- Change a field of a leaf word in memory by an atomic update of the word (R20, R21). -/
def leafUpdate (s : State) (addr lo n : Nat) (f : Nat → Nat) : State :=
  let w := leVal (physRead s addr 8)
  let v := bits w lo n
  if f v = v then s else physWrite s addr (clean (leBytes 8 (w - v * 2 ^ lo + f v % 2 ^ n * 2 ^ lo)))

/-- One heat increment, saturating at 3 (R20). -/
def heatUp (s : State) (addr lo : Nat) : State := leafUpdate s addr lo 2 fun v => if v < 3 then v + 1 else v

/-- The cached entry for an address. -/
def tlbFind (l : List TlbE) (ctx va : Nat) : Option TlbE :=
  l.find? fun e => e.ctx = ctx && e.base ≤ va && va < e.base + pageSize e.size

/-- Whether two cached entries share an address of one context. -/
def tlbClash (e x : TlbE) : Bool :=
  x.ctx = e.ctx && x.base < e.base + pageSize e.size && e.base < x.base + pageSize x.size

/-- Put an entry into a cache of `n`; an entry that it replaces, and the oldest where the cache is full, are gone (R22: replacement
is not architectural). -/
def tlbPut (n : Nat) (l : List TlbE) (e : TlbE) : List TlbE := e :: (l.filter fun x => !tlbClash e x).take (n - 1)

/-- The entry of a translated outcome, its seen bits clear. -/
def tlbEntry (ctx va : Nat) (leaf : W64) (size : BitVec 2) (addr : Nat) : TlbE :=
  { ctx, base := va / pageSize size * pageSize size, size, leaf, addr, rseen := false, wseen := false }

/-- A translation with an intent uses an entry of a die's TLB of 1,024 (R20, R22): where HEATEN is set, each seen bit that was clear is
set and counts one in the leaf. -/
def seen (s : State) (die ctx : Nat) (e : TlbE) (intent : BitVec 2) : State :=
  let on := heatOn s ctx
  let r := on && intent ≠ 1 && !e.rseen
  let w := on && intent ≠ 0 && !e.wseen
  let e' := { e with rseen := e.rseen || r, wseen := e.wseen || w }
  let s := { s with mmu := { s.mmu with tlbs := Map.set s.mmu.tlbs die (tlbPut 1024 (Map.get [] s.mmu.tlbs die) e') } }
  let s := if r then heatUp s e.addr 56 else s
  if w then heatUp s e.addr 58 else s

/-- Whether a cached entry is used, or has been replaced and is read again: a free choice where the table has changed (R22, log 6). -/
def replaced (s : State) (e : TlbE) (now : TOut) (va : Nat) : State × Bool :=
  if now = .ok e.leaf e.size e.addr then (s, false) else pick s va

/-- A translation through a die's last-level TLB (R20, R22): only a translated outcome is cached. -/
def dieTranslate (s : State) (die ctx va : Nat) (intent : BitVec 2) : State × TOut :=
  if 4503599627370496 ≤ va then (s, .no 3)
  else
    let now := walk s ctx va
    let fill (s : State) : State × TOut :=
      match now with
      | .ok leaf size addr => (seen s die ctx (tlbEntry ctx va leaf size addr) intent, now)
      | .no _ => (s, now)
    let l := Map.get [] s.mmu.tlbs die
    match tlbFind l ctx va with
    | none => fill s
    | some e =>
      let p := replaced s e now va
      if p.2 then fill { p.1 with mmu := { p.1.mmu with tlbs := Map.set p.1.mmu.tlbs die (l.filter fun x => !tlbClash e x) } }
      else (seen p.1 die ctx e intent, .ok e.leaf e.size e.addr)

/-- The first-level TLB of 64 entries of a core. -/
def coreTlb (s : State) (core : Nat) (f : List TlbE → List TlbE) : State :=
  { s with cores := match s.cores.find core with
                    | some c => Map.set s.cores core { c with tlb := f c.tlb }
                    | none => s.cores }

/-- A translation for a core through its first-level TLB and its die's TLB (R20, R22). -/
def translate (s : State) (core ctx va : Nat) (intent : BitVec 2) : State × TOut :=
  let fill (s : State) : State × TOut :=
    let r := dieTranslate s (core / 160) ctx va intent
    match r.2 with
    | .ok leaf size addr => (coreTlb r.1 core fun l => tlbPut 64 l (tlbEntry ctx va leaf size addr), r.2)
    | .no _ => r
  match (s.cores.find core).bind fun c => tlbFind c.tlb ctx va with
  | none => fill s
  | some e =>
    let p := replaced s e (walk s ctx va) va
    if p.2 then fill (coreTlb p.1 core fun l => l.filter fun x => !tlbClash e x)
    else
      (match tlbFind (Map.get [] p.1.mmu.tlbs (core / 160)) ctx va with
        | some x => seen p.1 (core / 160) ctx x intent
        | none => p.1, .ok e.leaf e.size e.addr)

/-- The key of the hub's walk caches beside the TLBs of the dies (R22). -/
def hubCache : Nat := 8

/-- A translation by the package walker: what its caches hold, or a walk (R22). -/
def hubTranslate (s : State) (ctx va : Nat) : TOut :=
  match tlbFind (Map.get [] s.mmu.tlbs hubCache) ctx va with
  | some e => .ok e.leaf e.size e.addr
  | none => walk s ctx va

/-- What the hub's walk caches hold before an access: a translated outcome, which may be replaced at any time where the table has
changed (R22, log 6). -/
def hubRefresh (s : State) (ctx va : Nat) : State :=
  let l := Map.get [] s.mmu.tlbs hubCache
  let put (s : State) (l : List TlbE) : State := { s with mmu := { s.mmu with tlbs := Map.set s.mmu.tlbs hubCache l } }
  let fill (s : State) (l : List TlbE) : State :=
    match walk s ctx va with
    | .ok leaf size addr => put s (tlbPut 1024 l (tlbEntry ctx va leaf size addr))
    | .no _ => put s l
  match tlbFind l ctx va with
  | some e =>
    let p := replaced s e (walk s ctx va) va
    if p.2 then fill p.1 (l.filter fun x => !tlbClash e x) else p.1
  | none => match walk s ctx va with | .ok _ _ _ => fill s l | .no _ => s

/-- The handle of a translation (R23, R24). -/
def mkHandle (t : TOut) (ctx va : Nat) : BitVec 128 :=
  let low := bits ctx 0 8 * 2 ^ 84 + bits va 0 52 * 2 ^ 32
  match t with
  | .ok leaf size _ =>
    let e := leaf.toNat
    BitVec.ofNat 128 (2 ^ 127 + bits e 7 2 * 2 ^ 125 + size.toNat * 2 ^ 123 + bits e 14 2 * 2 ^ 121
      + bits e 48 1 * 2 ^ 120 + bits e 49 3 * 2 ^ 117 + bits e 52 2 * 2 ^ 115 + bits e 54 1 * 2 ^ 114
      + bits e 55 1 * 2 ^ 113 + bits e 13 1 * 2 ^ 112 + bits e 9 4 * 2 ^ 108 + low + bits e 16 32)
  | .no c => BitVec.ofNat 128 (2 ^ 127 + 3 * 2 ^ 125 + c * 2 ^ 106 + low)

/-- Fields of a handle (R23). -/
def hV (h : BitVec 128) : Bool := bit h.toNat 127
def hRes (h : BitVec 128) : Nat := bits h.toNat 125 2
def hSize (h : BitVec 128) : BitVec 2 := BitVec.ofNat 2 (bits h.toNat 123 2)
def hFormat (h : BitVec 128) : Attr :=
  { gran := BitVec.ofNat 2 (bits h.toNat 121 2), tol := bit h.toNat 120, tcls := BitVec.ofNat 3 (bits h.toNat 117 3) }
def hCodec (h : BitVec 128) : Nat := bits h.toNat 115 2
def hWr (h : BitVec 128) : Bool := bit h.toNat 114
def hEo (h : BitVec 128) : Bool := bit h.toNat 113
def hPmode (h : BitVec 128) : Bool := bit h.toNat 112
def hStack (h : BitVec 128) : Nat := bits h.toNat 108 4
def hCause (h : BitVec 128) : Nat := bits h.toNat 106 2
def hCtx (h : BitVec 128) : Nat := bits h.toNat 84 8
def hOrigin (h : BitVec 128) : Nat := bits h.toNat 32 52
def hFrame (h : BitVec 128) : Nat := bits h.toNat 0 32

/-- The page base of a handle (R26). -/
def hBase (h : BitVec 128) : Nat := hOrigin h / pageSize (hSize h) * pageSize (hSize h)

/-- Whether the `n` bytes from offset `o` lie in the handle's page (R26); `o` is an exact unsigned number. -/
def hInRange (h : BitVec 128) (o n : Nat) : Bool :=
  hOrigin h + o + n ≤ hBase h + pageSize (hSize h)

/-- The physical address of a virtual address in the page of a local handle (R26). -/
def hPhys (h : BitVec 128) (va : Nat) : Nat := frameBase (hFrame h) + (va - hBase h)

/-- The window entry of a remote page, if the line is in it (R31): the target address. -/
def windowTarget (s : State) (idx va n : Nat) : Option (Window × Nat) :=
  match Map.find s.mmu.rwin idx with
  | none => none
  | some w =>
    let w0 := w.w0.toNat
    let base := bits w0 0 52
    if bit w0 63 ∧ base ≤ va ∧ va + n ≤ base + 2 ^ bits w0 56 6 then
      some (w, (w.w1.toNat + (va - base)) % 2 ^ 64)
    else none

end Sys2Proof.Machine
end

