-- ==== Sys2Proof/Machine/Regions.lean ====
section
/-! DEFINITION. The region table: descriptors and the access check (R98 to R102, R104). -/

namespace Sys2Proof.Machine

/-- Who makes a device access, as R102 groups the accessors. -/
inductive Accessor where
  | plain (core : Nat)
  | strong (core : Nat)
  | command (core : Nat)
  | beacon
  | candle (stack : Nat)
  | hub
  | prism
  | inbound
  | inboundAtomic
  deriving DecidableEq, Repr

/-- What the check answers: go on, refused, or wait for the end of a transfer (R104). -/
inductive Permit where
  | yes | no | wait
  deriving DecidableEq, Repr

/-- Fields of a descriptor (R98, R99). -/
def rBase (r : Region) : Nat := bits r.w0.toNat 28 36 * 65536
def rLog (r : Region) : Nat := bits r.w0.toNat 22 6
def rMode (r : Region) : Nat := bits r.w0.toNat 16 3
def rCtx (r : Region) : Nat := bits r.w0.toNat 8 8
def rV (r : Region) : Bool := bit r.w0.toNat 0
def rTransit (r : Region) : Bool := bit r.w1.toNat 16
def rOwner (r : Region) : Nat := bits r.w1.toNat 0 16

/-- Whether a valid descriptor of a context covers an address (R100). -/
def rCovers (r : Region) (ctx va : Nat) : Bool :=
  rV r && rCtx r == ctx && rBase r ≤ va && va < rBase r + 2 ^ rLog r

/-- The smallest valid descriptor that covers an address, with its index (R100). -/
def regionAt (s : State) (ctx va : Nat) : Option (Nat × Region) :=
  s.mmu.regions.foldl
    (fun best r =>
      if rCovers r.2 ctx va then
        match best with
        | none => some r
        | some b => if rLog r.2 < rLog b.2 then some r else best
      else best)
    none

/-- The OWNER value of an accessor that can own a region (R99). -/
def ownerOf : Accessor → Option Nat
  | .plain c | .strong c | .command c => some c
  | .beacon => some 16384
  | .candle st => some (32768 + st)
  | _ => none

/-- What R102 permits by mode; `strong` says whether a Beacon or hub access is a strong one. The Prism units read the participant
table by strong accesses. -/
def permitMode (a : Accessor) (mode owner : Nat) (transit write strong : Bool) : Permit :=
  let yes (b : Bool) : Permit := if b then .yes else .no
  match mode with
  | 0 => .yes
  | 1 =>
    if ownerOf a = some owner then if transit then .wait else .yes else .no
  | 2 => match a with | .inboundAtomic => .no | _ => yes (!write)
  | 3 =>
    match a with
    | .plain _ | .command _ | .candle _ => .no
    | .strong _ | .prism | .inbound | .inboundAtomic => .yes
    | .beacon | .hub => yes strong
  | 4 =>
    match a with
    | .plain _ | .strong _ | .inbound | .inboundAtomic => .no
    | _ => .yes
  | _ => .no

/-- The check of an access at one address (R100, R102, R104). -/
def permitAt (s : State) (a : Accessor) (ctx va : Nat) (write strong : Bool) : Permit :=
  match regionAt s ctx va with
  | none => .yes
  | some r => permitMode a (rMode r.2) (rOwner r.2) (rTransit r.2) write strong

/-- The check of an access to `n` bytes, region by region: the first address refused, or whether to wait (R100). -/
def permit (s : State) (a : Accessor) (ctx va n : Nat) (write strong : Bool) : Permit × Nat :=
  (ranges 65536 (n / 65536 + 2) va n).foldl
    (fun r q =>
      if r.1 ≠ .yes then r
      else (permitAt s a ctx q.1 write strong, q.1))
    (.yes, va)

/-- Set a region's OWNER and TRANSIT (R104). -/
def setOwner (s : State) (idx owner : Nat) (transit : Bool) : State :=
  match Map.find s.mmu.regions idx with
  | none => s
  | some r =>
    let w1 := r.w1.toNat / 131072 * 131072 + b2n transit * 65536 + owner % 65536
    { s with mmu := { s.mmu with regions := Map.set s.mmu.regions idx { r with w1 := BitVec.ofNat 64 w1 } } }

end Sys2Proof.Machine
end

