-- ==== Sys2Proof/Machine/Issue.lean ====
section
/-! DEFINITION. Words in their engines: cores, queues, tokens, issue order and results in flight (R67, R94 to R96, R183,
R219, R272, R407). -/

namespace Sys2Proof.Machine

/-- A core of the device. -/
def getCore (s : State) (c : Nat) : Core := Map.get Core.reset s.cores c

/-- Replace a core. -/
def setCore (s : State) (c : Nat) (k : Core) : State := { s with cores := Map.set s.cores c k }

/-- The core that executes. -/
def here (s : State) : Core := getCore s s.core

/-- Change the core that executes. -/
def onHere (s : State) (f : Core → Core) : State := setCore s s.core (f (here s))

/-- Put an event back where it was: before every other of its channel. -/
def dueAgain (s : State) (e : Event) : State := { s with agenda := e :: s.agenda }

/-- Add events to the agenda. -/
def due (s : State) (es : List Event) : State := { s with agenda := s.agenda ++ es }

/-- The number of heads of an engine that have issued. -/
def issued (i : Issue) (e : Nat) : Nat := vget i.heads e 0 - (vget i.queues e []).length

/-- Whether a head has produced its token (R95); a head before the task's first is satisfied at once. -/
def produced (i : Issue) (e : Eng) (h : Nat) : Bool :=
  h ≤ issued i (engIx e) && !i.openTok.contains (e, h)

/-- Whether a word is issue-ordered after the writer of a result (R96): it waits on the writer, or a link of the chain
leads to it. -/
def ordered (w : QWord) (eng : Eng) (num : Nat) (seen : List (Nat × Nat)) : Bool :=
  w.deps.contains (eng, num)
  || seen.any (fun p => p.1 = engIx w.eng && p.2 ≤ w.num)
  || w.deps.any fun d => seen.any fun p => p.1 = engIx d.1 && p.2 ≤ d.2

/-- The heads that are issue-ordered after a writer once a word has issued. -/
def seenBy (w : QWord) (eng : Eng) (num : Nat) (seen : List (Nat × Nat)) : List (Nat × Nat) :=
  if ordered w eng num seen && !(seen.any fun p => p.1 = engIx w.eng) then (engIx w.eng, w.num) :: seen else seen

/-- Whether a word is a fence with release semantics and X in its mask (R84). -/
def fencesX (w : QWord) : Bool :=
  match w.instr with
  | .fence sem m => sem.getLsbD 1 && m.getLsbD 2
  | _ => false

/-- The fences among the heads that are issue-ordered after a writer once a word has issued (R84). -/
def fencedBy (w : QWord) (seen : List (Nat × Nat)) (fences : List Nat) : List Nat :=
  if fencesX w && seen.any (fun p => p.1 = engIx w.eng && p.2 ≤ w.num) then w.num :: fences else fences

/-- Whether a result that has become visible was written by a word into what that word's own engine then sees (R66, R73, R272): a
scalar register is not such a place, but for the interlocked S engine (R239). -/
def ownSight (w : QWord) (p : Past) : Bool :=
  w.eng = p.eng && !p.landed && match p.old with | .sreg _ _ => w.eng == .s | _ => true

/-- Whether a word sees a result that has become visible (R66, R96, R239); an L word sees every earlier mask (R261). -/
def pastSeen (w : QWord) (p : Past) : Bool :=
  ownSight w p || ordered w p.eng p.num p.seen || match p.old with | .mreg _ _ => w.eng == .l | _ => false

/-- Whether a command that captures bytes sees a result (R84): only through a fence with X that consumed its token and whose token the
command names. -/
def captureSeen (w : QWord) (fences : List Nat) : Bool := fences.any fun f => w.deps.contains (.q, f)

/-- Whether every engine is ordered after a result, and every fence stands that a capture needs. -/
def pastOver (p : Past) : Bool :=
  ((List.range 7).all fun e => p.seen.any fun q => q.1 = e)
  && match p.old with | .spad _ _ => !p.fences.isEmpty | _ => true

/-- Keep what stood before a result that has become visible. -/
def remember (k : Core) (p : Past) : Core := { k with iss := { k.iss with past := p :: k.iss.past } }

/-- Record the issue order that a word makes (R96); a token that is consumed has been produced, so its pending bits are
clear (R71). The bits of a handle stand for the eight slots (R25). -/
def noteOrder (i : Issue) (w : QWord) : Issue :=
  { i with
    pend := i.pend.map fun p =>
      let seen := seenBy w p.eng p.num p.seen
      { p with seen, fences := fencedBy w seen p.fences, marked := p.marked && !(w.deps.contains (p.eng, p.num)) }
    hpend := i.hpend.map fun p => { p with seen := seenBy w .s p.num p.seen }
    past := (i.past.map fun p =>
      let seen := seenBy w p.eng p.num p.seen
      { p with seen, fences := fencedBy w seen p.fences }).filter fun p => !pastOver p }

/-- An acquire of the Q engine sees what has landed (R92, R108): with a barrier, what that barrier has counted. -/
def acquired (k : Core) (w : QWord) (bar : Option Nat) : Core :=
  let hit (p : Past) : Bool :=
    p.landed && (bar.isNone || p.bar == bar) && !(p.seen.any fun q => q.1 = engIx w.eng)
  let past := k.iss.past.map fun p => if hit p then { p with seen := (engIx w.eng, w.num) :: p.seen } else p
  { k with iss := { k.iss with past } }

/-- How a word of engine `e`, about to take slot `slot`, sees a result in flight (R67, R68, R272, R273). -/
inductive Sight where
  | new | old | either
  deriving DecidableEq, Repr

def sight (w : QWord) (slot : Nat) (eng : Eng) (num duePt : Nat) (seen : List (Nat × Nat)) : Sight :=
  if ordered w eng num seen then .new
  else if w.eng = eng then if duePt ≤ slot then .new else .old
  else .either

/-- The sight of a result for the word that executes; an agent that is no word sees what is visible to every reader. -/
def sightHere (k : Core) (w : Option QWord) (p : Pend) : Sight :=
  let slot := vget k.iss.slots (engIx p.eng) 0
  match w with
  | some w => sight w slot p.eng p.num p.due p.seen
  | none => if p.due ≤ slot || !p.seen.isEmpty then .new else .either

/-- Whether two results in flight race: their words are of different engines, and the later is not ordered after the earlier (R68, R273). -/
def racing (p q : Pend) : Bool := p.eng ≠ q.eng && !q.settled && !(p.seen.any fun x => x.1 = engIx q.eng && x.2 ≤ q.num)

/-- The values of a result where it meets an earlier one: each is its own, or the earlier one's. -/
def settleValues {α : Type} (s : State) (old : Map α) (vs : Map α) : State × Map α :=
  vs.foldl
    (fun r v =>
      match Map.find old v.1 with
      | none => (r.1, r.2 ++ [v])
      | some o => let x := pick r.1 v.1; (x.1, r.2 ++ [(v.1, if x.2 then o else v.2)]))
    (s, [])

/-- A result that races an earlier one leaves each lane, and each byte, with one of the two values (R68, R273, log 6). -/
def settleWith (s : State) (p q : Pend) : State × Pend :=
  match p.dst, q.dst with
  | .lanes old, .lanes ls => let r := settleValues s old ls; (r.1, { q with dst := .lanes r.2 })
  | .spad old _, .spad cells grains => let r := settleValues s old cells; (r.1, { q with dst := .spad r.2 grains })
  | _, _ => (s, q)

/-- The races among the results in flight of a core are settled, each once. -/
def settleRaces (s : State) (c : Nat) : State :=
  let k := getCore s c
  if k.iss.pend.all (·.settled) then s
  else
    let r := k.iss.pend.foldl
      (fun (a : State × List Pend) q =>
        let x := a.2.foldl (fun y p => if racing p y.2 then settleWith y.1 p y.2 else y) (a.1, q)
        (x.1, a.2 ++ [{ x.2 with settled := true }]))
      (s, [])
    setCore r.1 c { k with iss := { k.iss with pend := r.2 } }

/-- Cells at addresses that follow one another, as one run of bytes. -/
def runsOf : List (Nat × Byte) → List (Nat × List Byte)
  | [] => []
  | (a, b) :: cs =>
    match runsOf cs with
    | (o, bs) :: rs => if a + 1 = o then (a, b :: bs) :: rs else (a, [b]) :: (o, bs) :: rs
    | [] => [(a, [b])]

/-- The bytes and the grains of a memory at given places, as they stand. -/
def standing (m : Memory) (cells : List (Nat × Byte)) (grains : List (Nat × Bool)) : List (Nat × Byte) × List (Nat × Bool) :=
  (cells.map fun c => (c.1, m.byte c.1), grains.map fun g => (g.1, m.pois.contains g.1))

/-- The bytes and grains of a range of an on-chip memory of `size` bytes, as they stand. -/
def rangeStands (m : Memory) (size off n : Nat) : List (Nat × Byte) × List (Nat × Bool) :=
  let places := (List.range n).map fun i => (off + i) % size
  (places.map fun a => (a, m.byte a), ((places.map (· / 32)).eraseDups).map fun g => (g, m.pois.contains g))

/-- Merge the results at the front whose latency has elapsed into the registers and the scratchpad (R67, R272); what they replace is
kept for the engines that are not ordered after them. -/
def mergePend (k : Core) (p : Pend) : Core :=
  let note (k : Core) (old : Old) : Core :=
    remember k { eng := p.eng, num := p.num, seen := p.seen, fences := p.fences, landed := false, bar := none, old }
  match p.dst with
  | .lanes ls =>
    let k1 := note k (.lanes (ls.map fun l => (l.1, Map.get ⟨0, false⟩ k.v l.1)))
    { k1 with v := ls.foldl (fun v l => Map.put ⟨0, false⟩ v l.1 l.2) k.v }
  | .spad cells grains =>
    let o := standing k.mem.spad cells grains
    let m := (runsOf cells).foldl (fun m c => m.setBytes c.1 c.2) k.mem.spad
    let m := grains.foldl (fun m g => m.setGrain g.1 g.2) m
    { note k (.spad o.1 o.2) with mem := { k.mem with spad := m } }
  | .flags f => { note k (.flags (f &&& ~~~k.sys.fpflags)) with sys := { k.sys with fpflags := k.sys.fpflags ||| f } }

def expireFrom (k : Core) : List Pend → Core
  | [] => { k with iss := { k.iss with pend := [] } }
  | p :: ps =>
    if p.due ≤ vget k.iss.slots (engIx p.eng) 0 then expireFrom (mergePend k p) ps
    else { k with iss := { k.iss with pend := p :: ps } }

/-- Results become visible to every reader once their latency has elapsed. -/
def expire (k : Core) : Core := expireFrom k k.iss.pend

/-- Every result in flight becomes visible (at the end of a task, R176). -/
def mergeAll (k : Core) : Core :=
  let k := k.iss.pend.foldl mergePend k
  { k with iss := { k.iss with pend := [] } }

/-- Completed handles whose slot has come (R25). -/
def expireHandles (k : Core) : Core :=
  let slot := vget k.iss.slots 0 0
  let ripe := k.iss.hpend.filter fun p => p.val.isSome && p.due ≤ slot
  let k := ripe.foldl
    (fun k p =>
      let k1 := remember k { eng := .s, num := p.num, seen := p.seen, fences := [], landed := false, bar := none
                             old := .handle p.h.toNat (vget k.h p.h.toNat 0) }
      { k1 with h := vset k.h p.h.toNat (p.val.getD 0) })
    k
  { k with iss := { k.iss with hpend := k.iss.hpend.filter fun p => !(p.val.isSome && p.due ≤ slot) } }

/-- The scalar registers and masks that a word has changed are kept as they stood (R96). -/
def rememberRegs (s : State) (c : Nat) (w : QWord) (before : Core) : State :=
  let k := getCore s c
  if k.task ≠ before.task ∨ (k.s = before.s ∧ k.m = before.m) then s
  else
    let seen : List (Nat × Nat) := if w.eng = .s then [(0, w.num)] else []
    let note (k : Core) (old : Old) : Core := remember k { eng := w.eng, num := w.num, seen, fences := [], landed := false, bar := none, old }
    let k := (List.range 32).foldl
      (fun k r => if vget k.s r 0 = vget before.s r 0 then k else note k (.sreg r (vget before.s r 0))) k
    setCore s c ((List.range 8).foldl
      (fun k r => if vget k.m r 0 = vget before.m r 0 then k else note k (.mreg r (vget before.m r 0))) k)

/-- The word that executes takes `n` issue slots. -/
def takeSlots (s : State) (n : Nat) : State :=
  match s.word with
  | none => s
  | some w => onHere s fun k =>
      let e := engIx w.eng
      let k := { k with iss := { k.iss with slots := vset k.iss.slots e (vget k.iss.slots e 0 + n) } }
      expireHandles (expire k)

/-- The end of a word that has its whole effect and its token. -/
def retireN (s : State) (n : Nat) : State :=
  { takeSlots s n with word := none }

def retire (s : State) : State := retireN s 1

/-- The end of a word whose token comes later (R95, R113). -/
def retireOpen (s : State) : State :=
  match s.word with
  | none => s
  | some w =>
    let s := takeSlots s 1
    let s := onHere s fun k => { k with iss := { k.iss with openTok := k.iss.openTok ++ [(w.eng, w.num)] } }
    { s with word := none }

/-- A head produces its token. -/
def produce (s : State) (c : Nat) (e : Eng) (h : Nat) : State :=
  let k := getCore s c
  setCore s c { k with iss := { k.iss with openTok := k.iss.openTok.filter fun t => t ≠ (e, h) } }

/-- Put a word back at the front of its queue. -/
def putBack (i : Issue) (w : QWord) : Issue :=
  { i with queues := vset i.queues (engIx w.eng) (w :: vget i.queues (engIx w.eng) []) }

/-- The word waits, interruptibly, and tries again in a later turn of its engine (R255). -/
def stall (s : State) : State :=
  match s.word with
  | none => s
  | some w => { onHere s (fun k => { k with iss := putBack k.iss w }) with word := none }

/-- The word sleeps until an event wakes it (R117). -/
def stallAsleep (s : State) : State :=
  match s.word with
  | none => s
  | some w => { onHere s (fun k => { k with iss := putBack k.iss { w with asleep := true } }) with word := none }

/-- Whether the words before the end of a task have retired in every engine but S, and their commands have completed (R176), an xlat whose
walk goes on among them. -/
def othersRetired (k : Core) : Bool :=
  (k.iss.queues.toList.drop 1).all (·.isEmpty) && k.iss.hpend.all (·.val.isSome) && k.cmds.isEmpty && k.transit.isNone && k.nest.isNone && k.claim.isNone
  && k.iss.trap.isNone

/-- The head of an engine's queue. -/
def queueHead (i : Issue) (e : Eng) : Option QWord := (vget i.queues (engIx e) []).head?

/-- A value as a word sees it (R68, R96), from what stood before its writers, the latest first: as far back as the first that the word
is ordered after, each new or old (log 6). `f` gives what an entry kept of the value. -/
def olderSeen {α : Type} (w : QWord) (tag : Nat) (f : Old → Option α) : List Past → State → α → State × α
  | [], s, a => (s, a)
  | p :: ps, s, a =>
    match f p.old with
    | none => olderSeen w tag f ps s a
    | some b =>
      if pastSeen w p then (s, a)
      else
        let x := pick s tag
        if x.2 then (x.1, a) else olderSeen w tag f ps x.1 b

/-- The key of a register in what a word sees: a scalar register by its number, a mask from 32 on. -/
def regKey : Old → Option (Nat × BitVec 128)
  | .sreg r v => some (r, v.setWidth 128)
  | .mreg r v => some (32 + r, v)
  | _ => none

/-- The scalar registers and masks that a word sees as they stood before (R96, R302): each whole, old or new. -/
def viewOf (s : State) (k : Core) (w : QWord) : State × Map (BitVec 128) :=
  if k.iss.past.isEmpty then (s, [])
  else
    ((k.iss.past.filterMap fun p => (regKey p.old).map (·.1)).eraseDups).foldl
      (fun r key =>
        let now : BitVec 128 := if key < 32 then (vget k.s key 0).setWidth 128 else vget k.m (key - 32) 0
        let x := olderSeen w key (fun o => (regKey o).bind fun q => if q.1 = key then some q.2 else none) k.iss.past r.1 now
        (x.1, if x.2 = now then r.2 else Map.set r.2 key x.2))
      (s, [])

/-- Take the head of an engine's queue out as the word that executes on a core (R183, R96). -/
def takeHead (s : State) (c : Nat) (e : Eng) : State :=
  let k := getCore s c
  match vget k.iss.queues (engIx e) [] with
  | [] => s
  | w :: q =>
    let i := noteOrder { k.iss with queues := vset k.iss.queues (engIx e) q } w
    let v := viewOf s { k with iss := i } w
    { setCore v.1 c { k with iss := { i with view := v.2 } } with core := c, word := some w }

/-- Whether the head of a queue may issue: awake, its tokens produced, and before any trap that waits (R95, R399). -/
def ready (k : Core) (w : QWord) : Bool :=
  !w.asleep && w.deps.all (fun d => produced k.iss d.1 d.2)
  && (match k.iss.trap with | some t => w.seq < t.seq | none => true)

end Sys2Proof.Machine
end

