-- ==== Sys2Proof/Machine/Order.lean ====
section
/-! DEFINITION. What a read of device memory may return (R92, R93, R103, R108 to R111): the newest value of a byte, or an older one that
nothing has made visible to the reading core. Only the reads of the cores' S and Q engines and of their commands look back; every other
agent reads the newest value (log 89). -/

namespace Sys2Proof.Machine

/-- The agents that releases come from beside the cores: the host, a peer, and the hub with the engines of the device. -/
def byHost : Nat := 65533
def byPeer : Nat := 65534
def byHub : Nat := 65535

/-- The class of an agent as another one sees it, by its bit of a mask (R107): L the same core, C another core, X the device's own
agents, P a peer, H the host. -/
def classOf (me who : Nat) : Nat :=
  if who = byHost then 5 else if who = byPeer then 4 else if who = byHub then 2 else if who = me then 0 else if me < 1280 then 1 else 2

/-- The latest strong write to a word up to a moment (R108). -/
def lastStrong (s : State) (cell n m : Nat) : Option Release :=
  s.rels.find? fun r => r.stamp ≤ m && r.cell < cell + n && cell < r.cell + r.len

/-- The releases whose value, or a value of an atomic after them, a word holds at a moment (R108): no plain or engine write to the word
has replaced it. -/
def releasesAt (s : State) (cell n m : Nat) : List (Nat × BitVec 6) :=
  match lastStrong s cell n m with
  | none => []
  | some r => if s.hist.any fun e => r.stamp < e.stamp && e.stamp ≤ m && cell ≤ e.cell && e.cell < cell + n then [] else r.heads

/-- Whether a release holds the class of a core in its mask, and whether that core's acquire holds the releaser's (R108). -/
def reaches (me : Nat) (r : Nat × BitVec 6) : Bool := r.2.getLsbD (classOf r.1 me)
def accepts (me : Nat) (acq : BitVec 6) (r : Nat × BitVec 6) : Bool := acq.getLsbD (classOf me r.1)

/-- A strong read of a core at a moment (R108, R111, R112): the core is ordered after what it synchronises with, its commands where the
release holds X; what it would synchronise with as an acquire of a larger mask waits for a fence.acq. -/
def observe (s : State) (c cell n m : Nat) (acq : BitVec 6) : State :=
  let rs := releasesAt s cell n m
  if rs.isEmpty then s
  else
    let k := getCore s c
    let near := rs.filter (reaches c)
    let far := rs.filter fun r => r.2.getLsbD 2
    let raise (floor : Nat) (rs : List (Nat × BitVec 6)) : Nat := if rs.any (accepts c acq) then max floor m else floor
    let hear (h : Map Nat) (i : Nat) : Map Nat := Map.set h i (max m (Map.get 0 h i))
    let heard := far.foldl (fun h r => hear h (6 + classOf c r.1)) (near.foldl (fun h r => hear h (classOf c r.1)) k.heard)
    setCore s c { k with floor := raise k.floor near, floorX := raise k.floorX far, heard }

/-- A fence.acq with a mask (R111): the strong reads before it act as acquires. -/
def fenceAcq (k : Core) (mask : BitVec 6) : Core :=
  let raise (lo floor : Nat) : Nat :=
    k.heard.foldl (fun f x => if lo ≤ x.1 && x.1 < lo + 6 && mask.getLsbD (x.1 - lo) then max f x.2 else f) floor
  { k with floor := raise 0 k.floor, floorX := raise 6 k.floorX }

/-- A core and its commands are ordered after everything that has been written so far (R97, R104, R113, R115, R116, R119). -/
def catchUp (s : State) (c : Nat) : State :=
  let k := getCore s c
  if k.floor = s.stamp ∧ k.floorX = s.stamp then s else setCore s c { k with floor := s.stamp, floorX := s.stamp }

/-- A word that names the token of a command of its core sees what the command has written (R95, R113). -/
def heedTokens (s : State) (c : Nat) : State :=
  match s.word with
  | some w => if w.deps.any fun d => d.1 == .c then catchUp s c else s
  | none => s

/-- A strong write to a word, as later acquires find it (R107, R108): with a mask of zero it releases nothing; an atomic continues the
releases before it, and any other write ends them. -/
def noteRelease (s : State) (who cell n : Nat) (mask : BitVec 6) (atomic : Bool) : State :=
  let own := if mask = 0 then [] else [(who, mask)]
  let before := if atomic then match lastStrong s cell n s.stamp with | some r => r.heads | none => [] else []
  let heads := (own ++ before).eraseDups
  if heads.isEmpty && (lastStrong s cell n s.stamp).isNone then s
  else { s with rels := { stamp := s.stamp, cell, len := n, heads } :: s.rels }

/-- The writes to cells that a reader may not have seen yet: after a moment, the latest first. -/
def unseen (s : State) (cell n after : Nat) : List Wrote :=
  s.hist.filter fun e => after < e.stamp && cell ≤ e.cell && e.cell < cell + n

/-- The moment of a read: now, or before one of the writes that may still be hidden (R93), each a free choice (log 6). -/
def momentOf (tag : Nat) : List Wrote → State → Nat → State × Nat
  | [], s, m => (s, m)
  | e :: es, s, m =>
    if m < e.stamp then momentOf tag es s m
    else
      let x := pick s tag
      if x.2 then (x.1, m) else momentOf tag es x.1 (e.stamp - 1)

/-- What a cell held at a moment. -/
def heldAt (es : List Wrote) (now : PByte) (cell m : Nat) : PByte :=
  es.foldl (fun b e => if e.cell = cell && m < e.stamp then e.old else b) now

/-- The moment before which a core reads no cell of a range any more (R93): its floor, and its own latest reads of the cells. -/
def lowest (k : Core) (after cell n : Nat) : Nat :=
  (List.range n).foldl (fun a i => max a (Map.get 0 k.lastRead (cell + i))) after

/-- Keep the moment of a read of cells, where a later read could fall behind it. -/
def keepRead (k : Core) (cell n m : Nat) : Core :=
  { k with lastRead := (List.range n).foldl (fun r i => Map.set r (cell + i) m) k.lastRead }

/-- A core reads nothing older than its own write to cells (R93, R94). -/
def keepOwn (s : State) (c cell n : Nat) : State :=
  let k := getCore s c
  if (unseen s cell n k.since).isEmpty then s else setCore s c (keepRead k cell n s.stamp)

/-- Bytes of consecutive cells as a core reads them, whole at one moment or each byte at its own (R93): `after` is the moment from which on
nothing is hidden, `by'` what keeps the reads of the core's commands apart from its own. With the moment of the last byte. -/
def readBack (s : State) (c cell : Nat) (bs : List PByte) (after : Nat) (whole : Bool) (by' : Nat := 0) : State × List PByte × Nat :=
  let n := bs.length
  if (unseen s cell n after).isEmpty then (s, bs, s.stamp)
  else if whole then
    let k := getCore s c
    let es := unseen s cell n (lowest k after (cell + by') n)
    let p := momentOf cell es s s.stamp
    (setCore p.1 c (keepRead k (cell + by') n p.2), (bs.zip (List.range n)).map fun b => heldAt es b.1 (cell + b.2) p.2, p.2)
  else
    (bs.zip (List.range n)).foldl
      (fun r b =>
        let k := getCore r.1 c
        let es := unseen r.1 (cell + b.2) 1 (lowest k after (cell + b.2 + by') 1)
        let p := momentOf (cell + b.2) es r.1 r.1.stamp
        (setCore p.1 c (keepRead k (cell + b.2 + by') 1 p.2), r.2.1 ++ [heldAt es b.1 (cell + b.2) p.2], p.2))
      (s, [], s.stamp)

/-- The reads of a core's commands among the moments that the core keeps. -/
def byCommand : Nat := 2 ^ 51

/-- Bytes of consecutive cells as a command of a core reads them (R93, R112): each unit of `u` bytes as it stood at one moment (R41). -/
def readUnits (s : State) (c cell : Nat) (bs : List PByte) (u : Nat) : State × List PByte :=
  let after := (getCore s c).floorX
  if (unseen s cell bs.length after).isEmpty then (s, bs)
  else
    (chunks u (bs.length / u + 3) cell bs).foldl
      (fun r q => let x := readBack r.1 c q.1 q.2 after true byCommand; (x.1, r.2 ++ x.2.1)) (s, [])

end Sys2Proof.Machine
end

