-- ==== Sys2Proof/Machine/Device.lean ====
section
/-! DEFINITION. Accesses to device memory through a translation: local frames, shade records (R128, R129), lines to remote
holders (R31, R124), shootdowns (R28), promotions (R130) and the plain-access buffer (R103). -/

namespace Sys2Proof.Machine

/-- Whether two ranges share a byte. -/
def overlaps (a n b m : Nat) : Bool := a < b + m && b < a + n

/-- The causes of R151. -/
def causeNotPresent : Nat := 1
def causeOwnership : Nat := 2
def causePoison : Nat := 3
def causeLayout : Nat := 4
def causeTimeout : Nat := 5

/-- The bytes of an encoded piece as R129 gives; none where MODE, LEN or ARG disagrees with its table: a bit of ARG over a sector of
zeros, or an ARG that is not the least high byte. -/
def decodePiece (codec mode len arg : Nat) (p : List Byte) : Option (List Byte) :=
  let inter (hi : Nat → Byte) : List Byte := (List.range 128).flatMap fun k => [lget p k 0, hi k]
  match codec, mode with
  | 1, 0 =>
    let js := (List.range 8).filter fun j => bit arg j
    if len ≠ js.length ∨ (List.range len).any (fun i => ((p.drop (32 * i)).take 32).all (· == 0)) then none
    else some ((List.range 8).flatMap fun j =>
      if bit arg j then (p.drop (32 * (js.filter (· < j)).length)).take 32 else List.replicate 32 0)
  | 2, 1 => if len = 0 ∧ arg = 0 then some (List.replicate 256 0) else none
  | 2, 2 => if len = 4 then some (inter fun _ => BitVec.ofNat 8 arg) else none
  | 2, 3 =>
    let nib (k : Nat) : Nat := bits (lget p (128 + k / 2) 0).toNat (4 * (k % 2)) 4
    if len = 6 ∧ (List.range 128).any (fun k => nib k = 0) ∧ (List.range 128).all (fun k => arg + nib k < 256) then
      some (inter fun k => BitVec.ofNat 8 (arg + nib k))
    else none
  | 2, 0 => if len = 8 ∧ arg = 0 then some p else none
  | _, _ => none

/-- The encoder of R129: MODE, ARG and the encoded bytes of a piece. -/
def encodePiece (codec : Nat) (p : List Byte) : Nat × Nat × List Byte :=
  if codec = 1 then
    let live := (List.range 8).filter fun j => ((p.drop (32 * j)).take 32).any (· ≠ 0)
    (0, live.foldl (fun a j => a + 2 ^ j) 0, live.flatMap fun j => (p.drop (32 * j)).take 32)
  else
    let his := (List.range 128).map fun k => (lget p (2 * k + 1) 0).toNat
    let los := (List.range 128).map fun k => lget p (2 * k) 0
    let lo := his.foldl min 255
    if p.all (· == 0) then (1, 0, [])
    else if his.all (· == lo) then (2, lo, los)
    else if his.all (fun h => h - lo ≤ 15) then
      (3, lo, los ++ (List.range 64).map fun j =>
        BitVec.ofNat 8 ((lget his (2 * j) 0 - lo) + 16 * (lget his (2 * j + 1) 0 - lo)))
    else (0, 0, p)

/-- Bytes of a record, `d` bytes after its start (R128). -/
def recByte (s : State) (rec d n : Nat) : List PByte := physRead s (rec + d) n

/-- Piece `i` of a shade page (R128, R129): 256 bytes, poisoned where its record does not decode. Where the descriptors before it, which
place its payload, read poisoned, its own bytes cannot be found: it is poisoned too (log 88). -/
def shadePiece (s : State) (rec codec i : Nat) : State × List PByte :=
  let heads := recByte s rec 0 (2 * i)
  let lens := heads.map (·.1)
  let before := (List.range i).foldl (fun a j => a + bits (lget lens (2 * j) 0).toNat 0 4) 0
  let d := recByte s rec (2 * i) 2
  let b0 := (lget d 0 (0, true)).1.toNat
  let body := recByte s rec (16384 + 32 * before) (32 * bits b0 0 4)
  if anyPois heads || anyPois d || anyPois body then (s, List.replicate 256 (255, true))
  else
    match decodePiece codec (bits b0 4 4) (bits b0 0 4) (lget d 1 (0, true)).1.toNat (body.map (·.1)) with
    | some bs => (s, clean bs)
    | none =>
      let c := (cellOf rec).getD 0
      (logError s (c / 68719476736) { kind := 3, off := c % 68719476736, gran := 3, tol := false, tcls := 0 },
        List.replicate 256 (255, true))

/-- Bytes of a shade page (R129). -/
def shadeRead (s : State) (rec codec off n : Nat) : State × List PByte :=
  (ranges 256 (n / 256 + 2) off n).foldl
    (fun r q =>
      let p := shadePiece r.1 rec codec (q.1 / 256)
      (p.1, r.2 ++ (p.2.drop (q.1 % 256)).take q.2))
    (s, [])

/-- The page of the translation that a handle holds (R23). -/
def handlePage (h : BitVec 128) : Nat × Nat := (hBase h, pageSize (hSize h))

/-- The virtual lane of a request (R417): atomics on lane 2, the others on lane 0. -/
def lineLane (op : Nat) : Nat := if 4 ≤ op ∧ op < 24 then 2 else 0

/-- Send a line to the holder of a remote page (R124): one request, with the mask of the bytes that it writes. -/
def sendLine (s : State) (w : Window) (va len : Nat) (data : Option (List PByte)) (op : Nat) (use : LineUse)
    (src : Nat := 0) (page : Nat × Nat := (0, 0)) (mask : BitVec 64 := BitVec.allOnes 64) : State :=
  let f : FLine := { id := s.fab.nextLine, dev := bits w.w2.toNat 48 16, host := bit w.w0.toNat 62, va, len, data, op, use, src, mask
                     page, lane := lineLane op }
  { s with fab := { s.fab with nextLine := s.fab.nextLine + 1, lines := s.fab.lines ++ [f], out := s.fab.out ++ [.line f] } }

/-- A line that does not reach its holder: its answer is due at once (R31). -/
def failLine (s : State) (va : Nat) (bs : List PByte) (use : LineUse) (page : Nat × Nat) : State :=
  let id := s.fab.nextLine
  let f : FLine := { id, dev := 0, host := false, va, len := bs.length, data := some bs, op := 0, use, src := va, page }
  due { s with fab := { s.fab with nextLine := id + 1, lines := s.fab.lines ++ [f] } } [.forwardedLineResponse id (.notPresent 1) []]

/-- The task by which a write is known (R124): that of a core, where it is of the queue. -/
def storeUse (s : State) (qid core : Nat) : LineUse :=
  match (getCore s core).task with
  | some t => if t.qid = qid then .store qid core t.packet t.ord else .store qid core 0 0
  | none => .store qid core 0 0

/-- Whether the device of a line is known to be lost, so that the line fails at once (R124, R421). -/
def unreachable (s : State) (dev : Nat) : Bool := s.fab.lost.contains dev

/-- A write through a remote handle: one request for each line that it touches (R124). -/
def forwardWrite (s : State) (h : BitVec 128) (va : Nat) (data : List PByte) (use : LineUse) : State :=
  (chunks 64 (data.length + 1) va data).foldl
    (fun s q =>
      match windowTarget s (hFrame h) q.1 q.2.length with
      | some (w, t) => sendLine s w t q.2.length (some q.2) 0 use q.1 (handlePage h)
      | none => failLine s q.1 q.2 use (handlePage h))
    s

/-- The dirty bytes of a buffered line go to a remote holder as one request with their mask (R103, R124). -/
def forwardMasked (s : State) (h : BitVec 128) (va : Nat) (data : List PByte) (mask : BitVec 64) (use : LineUse) : State :=
  match windowTarget s (hFrame h) va data.length with
  | some (w, t) => sendLine s w t data.length (some data) 0 use va (handlePage h) mask
  | none => failLine s va data use (handlePage h)

/-- What a read of device memory yields at once: bytes, or the handle leads to a remote holder. -/
inductive DevRead where
  | data (bs : List PByte)
  | remote
  deriving DecidableEq, Repr

/-- Read through a handle of a present page whose range is checked (R123). -/
def handleRead (s : State) (h : BitVec 128) (va n : Nat) : State × DevRead :=
  match hRes h with
  | 0 => let r := dramRead s (hPhys h va) n (hFormat h); (r.1, .data r.2)
  | 1 => let r := shadeRead s (frameBase (hFrame h)) (hCodec h) (va - hBase h) n; (r.1, .data r.2)
  | _ => (s, .remote)

/-- The dirty runs of a line of the plain-access buffer: offset and bytes. -/
def dirtyRuns (l : PLine) : List (Nat × List PByte) :=
  (List.range 64).foldl
    (fun rs i =>
      if !bit l.dirty.toNat i then rs
      else
        match rs.reverse with
        | (o, bs) :: more =>
          if o + bs.length = i then more.reverse ++ [(o, bs ++ [lget l.data i (0, false)])]
          else rs ++ [(i, [lget l.data i (0, false)])]
        | [] => [(i, [lget l.data i (0, false)])])
    []

/-- Write the dirty bytes of a line back through its handle (R103): to a local frame, or to a remote holder; the line stays, clean. A
line with stores never holds the handle of a shade page. -/
def writeBack (s : State) (c line : Nat) : State :=
  let k := getCore s c
  match Map.find k.plain line with
  | none => s
  | some l =>
    let s :=
      if hRes l.handle = 2 && l.dirty ≠ 0 then
        forwardMasked s l.handle (line * 64) l.data l.dirty (.store l.qid c l.packet l.ord)
      else if hRes l.handle = 0 then
        (dirtyRuns l).foldl
          (fun s r =>
            let pa := hPhys l.handle (line * 64 + r.1)
            let s := dramWrite s pa r.2 (hFormat l.handle)
            match cellOf pa with | some x => keepOwn s c x r.2.length | none => s)
          s
      else s
    let k := getCore s c
    setCore s c { k with plain := Map.set k.plain line { l with dirty := 0 } }

/-- Write back and drop the lines of a core that a test picks. -/
def writeBackIf (s : State) (c : Nat) (hit : Nat × PLine → Bool) : State :=
  let lines := ((getCore s c).plain.filter hit).map (·.1)
  let s := lines.foldl (fun s l => writeBack s c l) s
  let k := getCore s c
  setCore s c { k with plain := k.plain.filter fun l => !lines.contains l.1 }

/-- Write back and drop the lines of a core that overlap a range (R103, R104 step 3). -/
def writeBackRange (s : State) (c lo len : Nat) : State := writeBackIf s c fun l => overlaps (l.1 * 64) 64 lo len

/-- The handles that a shootdown drops (R28 step 2): those of a context that overlap a range. -/
def dropHandle (ctx lo len : Nat) (h : BitVec 128) : BitVec 128 :=
  if hV h && hCtx h == ctx && overlaps (hBase h) (pageSize (hSize h)) lo len then
    BitVec.ofNat 128 (h.toNat % 2 ^ 127) else h

/-- Step 2 of a shootdown on a core: its TLB and its handles; what an xlat has translated and not yet written is translated again
(R28, R30). -/
def shootCore (ctx lo len : Nat) (k : Core) : Core :=
  let again (p : HPend) : HPend := { p with val := p.val.bind fun v => if dropHandle ctx lo len v = v then some v else none }
  { k with tlb := k.tlb.filter fun e => !(e.ctx = ctx && overlaps e.base (pageSize e.size) lo len)
           h := k.h.map (dropHandle ctx lo len)
           cmds := k.cmds.map fun m => (m.1, { m.2 with job := { m.2.job with hs := m.2.job.hs.map (dropHandle ctx lo len) } })
           iss := { k.iss with hpend := k.iss.hpend.map again } }

/-- Walks of a core that wait for a translation. -/
def walksOf (c : Nat) (k : Core) : List Event :=
  (k.iss.hpend.filter fun p => p.val.isNone).map fun p => .pageWalkComplete c p.num

/-- Change the contexts that saves hold (R409, R411). -/
def mapSaved (s : State) (f : Core → Core) : State :=
  { s with queues := s.queues.map fun q => (q.1, { q.2 with packets := q.2.packets.map fun p =>
      { p with launch := p.launch.map fun l =>
          { l with saved := l.saved.map fun u => (u.1, u.2.map fun v => { v with core := f v.core }) } } }) }

/-- The context slot of a member (R404). -/
def slotBase (q : Queue) (i : Nat) : Nat := q.savepa + 4096 + i * 9568256

/-- Where h0 to h15 begin in the control block. -/
def handlesAt : Nat := 400

/-- V of a handle in a slot (R28, R409): a shootdown that covers its page clears it. -/
def slotHandles (s : State) (base : Nat) (old new : Core) : State :=
  (List.range 16).foldl
    (fun s i =>
      if vget old.h i 0 = vget new.h i 0 then s
      else physWrite s (base + handlesAt + 16 * i) (clean (leBytes 16 (vget new.h i 0).toNat)))
    s

/-- Change the contexts that saves hold, and V of their handles in their slots (R28, R136, R409). -/
def changeSaved (s : State) (f : Core → Core) : State :=
  let all := s.queues.flatMap fun q => q.2.packets.flatMap fun p => match p.launch with
    | some l => l.saved.flatMap fun u => u.2.map fun v => (slotBase q.2 v.slot, v.core)
    | none => []
  all.foldl (fun s x => slotHandles s x.1 x.2 (f x.2)) (mapSaved s f)

/-- Whether the page of a translation has a byte in a range: a shootdown covers the whole of such a leaf (R28). -/
def pageHit (h : BitVec 128) (lo len : Nat) : Bool := overlaps (hBase h) (pageSize (hSize h)) lo len

/-- Every core that runs a task of a context writes back and drops its plain lines of the pages that a range covers. -/
def writeBackCtx (s : State) (ctx lo len : Nat) : State :=
  s.cores.foldl
    (fun s c => match c.2.task with
      | some t => if t.ctx = ctx then writeBackIf s c.1 fun l => overlaps (l.1 * 64) 64 lo len || pageHit l.2.handle lo len else s
      | none => s) s

/-- Whether a pin holds the translation of a page that a range covers, whatever the size of its leaf (R28, R29). -/
def pinHit (p : Pin) (ctx lo len : Nat) : Bool :=
  p.ctx = ctx && (overlaps p.base (pageSize p.size) lo len || (p.cause.isNone && pageHit p.handle lo len))

/-- Step 2 of a shootdown (R28): every cached copy of a covered leaf goes, covered handles and pins are revoked,
and what the plain-access buffers hold is on its way (step 4). -/
def shootRange (s : State) (ctx lo len : Nat) : State :=
  let s := writeBackCtx s ctx lo len
  let live := (s.mmu.pins.filter fun p => p.cause.isNone && !p.revoked && pinHit p ctx lo len).map (·.id)
  let before := s.cores
  let s := { s with
    cores := s.cores.map fun c => (c.1, shootCore ctx lo len c.2)
    mmu := { s.mmu with
      tlbs := s.mmu.tlbs.map fun t =>
        (t.1, t.2.filter fun e => !(e.ctx = ctx && overlaps e.base (pageSize e.size) lo len))
      pins := s.mmu.pins.map fun p =>
        if live.contains p.id then { p with revoked := true } else p } }
  let s := changeSaved s (shootCore ctx lo len)
  due s (live.map .streamPinRelease
    ++ s.cores.flatMap fun c =>
      let old := walksOf c.1 (Map.get Core.reset before c.1)
      (walksOf c.1 c.2).filter fun e => !old.contains e)

/-- A shootdown that is complete once its revoked pins are gone (R28 step 3). -/
def pinsOn (s : State) (ctx lo len : Nat) : List Pin := s.mmu.pins.filter fun p => p.revoked && pinHit p ctx lo len

/-- Start a move of the page of a leaf (R130 steps 1 and 2); the copy ends by MOVE_COPY_COMPLETE. -/
def startMove (s : State) (req : PageReq) (kind : Nat) (leaf : W64) (addr : Nat) (dst : W64) (pool qid : Option Nat) :
    State :=
  let id := s.mmu.nextId
  let s := { s with mmu := { s.mmu with nextId := id + 1
                                        moves := Map.set s.mmu.moves id { req, kind, leaf, addr, dst, pool, qid, got := [], phase := 0 } } }
  due (shootRange s req.ctx req.va (pageSize req.size)) [.moveCopyComplete id]

/-- The move of a page, if one is in progress (R130). -/
def movingAt (s : State) (ctx va : Nat) : Bool :=
  s.mmu.moves.any fun m => m.2.req.ctx = ctx && m.2.req.va ≤ va && va < m.2.req.va + pageSize m.2.req.size

/-- Whether the leaf of an address maps a shade page. -/
def shadeAt (s : State) (ctx va : Nat) : Bool :=
  match walk s ctx va with
  | .ok leaf _ _ => bits leaf.toNat 7 2 == 1
  | .no _ => false

/-- Ask for the promotion of the shade page of an address (R130): a pool frame, or a wait with POOL_EMPTY raised. -/
def promote (s : State) (ctx va : Nat) : State :=
  if movingAt s ctx va || 64 ≤ s.mmu.moves.length then s
  else
    match walk s ctx va with
    | .ok leaf size addr =>
      if bits leaf.toNat 7 2 ≠ 1 then s
      else
        match s.mmu.pool with
        | [] => if s.mgmt.log.getLast? = some .poolEmpty then s
          else { s with mgmt := { s.mgmt with log := s.mgmt.log ++ [.poolEmpty] } }
        | f :: fs =>
          let pa := frameBase f
          let dst := pa + (if pa < 1099511627776 then 8192 + bits pa 36 4 * 512 else 0)
          startMove { s with mmu := { s.mmu with pool := fs } }
            { src := .host 0, va := va / pageSize size * pageSize size, dst := 0, ca := 0, size, ctx } 3 leaf addr
            (BitVec.ofNat 64 dst) (some f) none
    | .no _ => s

/-- Write through a handle of a present page whose range and permission are checked: done, or to be tried again once the
shade page is promoted (R123). -/
def handleWrite (s : State) (h : BitVec 128) (va : Nat) (bs : List PByte) (use : LineUse) : State × Bool :=
  match hRes h with
  | 0 => (dramWrite s (hPhys h va) bs (hFormat h), true)
  | 1 =>
    match walk s (hCtx h) va with
    | .ok leaf size addr =>
      if bits leaf.toNat 7 2 = 0 then
        let h' := mkHandle (.ok leaf size addr) (hCtx h) va
        (dramWrite s (hPhys h' va) bs (hFormat h'), true)
      else (promote s (hCtx h) va, false)
    | .no _ => (s, true)
  | _ => (forwardWrite s h va bs use, true)

/-- Empty the plain-access buffer of a core (R119, R403). -/
def writeBackAll (s : State) (c : Nat) : State := writeBackRange s c 0 4503599627370496

/-- Whether plain stores are on their way to remote holders (R103, R124): of a core, and of any core to a region. -/
def storesOut (s : State) (c : Nat) : Bool :=
  s.fab.lines.any fun l => match l.use with | .store _ x _ _ => x == c | _ => false
def regionOut (s : State) (r : Region) : Bool :=
  s.fab.lines.any fun l => match l.use with
    | .store _ _ _ _ => l.data.isSome && overlaps l.src l.len (rBase r) (2 ^ rLog r)
    | _ => false

/-- The transfer of R104 for a binding: the owner's lines are written back, and TRANSIT stands until they have landed. -/
def transfer (s : State) (idx new : Nat) : State :=
  match Map.find s.mmu.regions idx with
  | none => s
  | some r =>
    let s := if rOwner r < 1280 then writeBackRange s (rOwner r) (rBase r) (2 ^ rLog r) else s
    let out := regionOut s r
    let s := setOwner s idx new out
    if out then due s [.ownershipTransferComplete 65535 idx] else s

/-- The channel of the lines that the hub reads for one of its structures (R123): of a queue by its number, of others from 4096 on. -/
def hubKey (n : Nat) : Nat := 7 + 4 * n

/-- What stands for a cause of R151 where a hub read waits for lines of a remote page (R123). -/
def hubWaits : Nat := 0

/-- A line of a remote page for the hub (R123, R124): its bytes or the cause that fails it, once its answer has come to the channel; the
line is sent where it is not on its way. -/
def hubLine (s : State) (key : Nat) (h : BitVec 128) (va n : Nat) : State × Except Nat (List PByte) :=
  match (Map.get [] s.fab.inbound key).find? fun g => g.va = va && (n ≤ g.data.length || g.st ≠ .ok || g.late) with
  | some g =>
    if g.late then (s, .error causeTimeout)
    else match g.st with
      | .ok => (s, .ok (g.data.take n))
      | .ownership => (s, .error causeOwnership)
      | .notPresent _ => (s, .error causeNotPresent)
  | none =>
    match windowTarget s (hFrame h) va n with
    | none => (s, .error causeNotPresent)
    | some (w, t) =>
      if unreachable s (bits w.w2.toNat 48 16) && !bit w.w0.toNat 62 then (s, .error causeNotPresent)
      else if s.fab.lines.any fun l => l.use = .command key 4098 va then (s, .error hubWaits)
      else (sendLine s w t n none 0 (.command key 4098 va) va (handlePage h), .error hubWaits)

/-- The lines of a piece of a remote page: all of them are asked for at once. -/
def hubLines (s : State) (key : Nat) (h : BitVec 128) (va n : Nat) : State × Except Nat (List PByte) :=
  (ranges 64 (n / 64 + 2) va n).foldl
    (fun r q =>
      let x := hubLine r.1 key h q.1 q.2
      (x.1, match r.2, x.2 with
        | .ok bs, .ok d => .ok (bs ++ d)
        | .ok _, .error c => .error c
        | .error c, .error d => .error (if c = hubWaits then d else c)
        | .error c, .ok _ => .error c))
    (s, .ok [])

/-- The lines of a range that a channel has got are used up. -/
def dropLines (s : State) (key va n : Nat) : State :=
  match (Map.get [] s.fab.inbound key).filter fun g => !(va ≤ g.va && g.va < va + n) with
  | [] => if (Map.find s.fab.inbound key).isSome then { s with fab := { s.fab with inbound := Map.erase s.fab.inbound key } } else s
  | l => { s with fab := { s.fab with inbound := Map.set s.fab.inbound key l } }

/-- A hub access to a virtual address (R123, R445): the bytes, or the cause of R151 with the failing address; `hubWaits` where lines of a
remote page are on their way. -/
def hubRead (s : State) (a : Accessor) (key ctx va n : Nat) (strong : Bool) : State × Except (Nat × Nat) (List PByte) :=
  let r := (ranges 65536 (n / 65536 + 2) va n).foldl
    (fun (r : State × Except (Nat × Nat) (List PByte)) q =>
      match r.2 with
      | .error e => (r.1, .error e)
      | .ok bs =>
        let s := hubRefresh r.1 ctx q.1
        match hubTranslate s ctx q.1 with
        | .no _ => (s, .error (causeNotPresent, q.1))
        | .ok leaf size addr =>
          if (permit s a ctx q.1 q.2 false strong).1 ≠ .yes then (s, .error (causeOwnership, q.1))
          else
            let h := mkHandle (.ok leaf size addr) ctx q.1
            match handleRead s h q.1 q.2 with
            | (s, .data d) => (s, .ok (bs ++ d))
            | (s, .remote) =>
              match hubLines s key h q.1 q.2 with
              | (s, .ok d) => (s, .ok (bs ++ d))
              | (s, .error c) => (s, .error (c, q.1)))
    (s, .ok [])
  match r.2 with
  | .ok bs => (dropLines r.1 key va n, .ok bs)
  | .error e => (if e.1 = hubWaits then r.1 else dropLines r.1 key va n, .error e)

/-- Whether what a later hub read needs is still on its way from a remote holder (R123); the lines that have come stay for that read. -/
def hubComing (s : State) (a : Accessor) (key ctx va n : Nat) (strong : Bool) : State × Bool :=
  match hubRead s a key ctx va n strong with
  | (t, .error e) => if e.1 = hubWaits then (t, true) else (s, false)
  | (_, .ok _) => (s, false)

/-- What a hub write comes to (R123, R445). -/
inductive HubWrite where
  | done | wait | failed (cause va : Nat)
  deriving DecidableEq, Repr

/-- The check of a hub write: a page that does not translate or is refused fails, a shade page waits for its promotion. -/
def hubWriteCheck (s : State) (a : Accessor) (ctx va n : Nat) (strong : Bool) : HubWrite :=
  (ranges 65536 (n / 65536 + 2) va n).foldl
    (fun e q =>
      match e with
      | .failed c v => .failed c v
      | _ =>
        match hubTranslate s ctx q.1 with
        | .no _ => .failed causeNotPresent q.1
        | .ok leaf _ _ =>
          if !bit leaf.toNat 54 || (permit s a ctx q.1 q.2 true strong).1 ≠ .yes then .failed causeOwnership q.1
          else if bits leaf.toNat 7 2 = 1 || movingAt s ctx q.1 then .wait
          else e)
    .done

/-- A hub write to a virtual address (R445). -/
def hubWrite (s : State) (a : Accessor) (ctx va : Nat) (bs : List PByte) (strong : Bool) (qid : Nat) :
    State × HubWrite :=
  let s := (ranges 65536 (bs.length / 65536 + 2) va bs.length).foldl (fun s q => hubRefresh s ctx q.1) s
  match hubWriteCheck s a ctx va bs.length strong with
  | .failed c v => (s, .failed c v)
  | .wait => ((ranges 65536 (bs.length / 65536 + 2) va bs.length).foldl (fun s q => promote s ctx q.1) s, .wait)
  | .done =>
    ((chunks 65536 (bs.length / 65536 + 3) va bs).foldl
      (fun s q =>
        match hubTranslate s ctx q.1 with
        | .no _ => s
        | .ok leaf size addr =>
          (handleWrite s (mkHandle (.ok leaf size addr) ctx q.1) q.1 q.2 (.store qid 65535 0 0)).1)
      s, .done)

/-- Write a record into an error ring (R401): done, to be tried again once the page is promoted or its move is over (R123), or into the
management log. -/
def ringWrite (s : State) (r : RingRec) : State × Bool :=
  let fail : State := { s with mgmt := { s.mgmt with log := s.mgmt.log ++ [.error r.qid r.words] } }
  if !aligned r.base 4096 then (fail, true)
  else
    match hubTranslate s r.ctx r.va with
    | .no _ => (fail, true)
    | .ok leaf _ _ =>
      if bit leaf.toNat 48 then (fail, true)
      else
        match hubWrite s .hub r.ctx r.va r.bytes true r.qid with
        | (s, .done) => (s, true)
        | (s, .wait) => (s, false)
        | (_, .failed _ _) => (fail, true)

/-- An error record in its ring (R401), after those of the queue that wait. -/
def errorRecord (s : State) (qid kind code core ord : Nat) (epc taddr estat ridx aux : W64) : State :=
  match Map.find s.queues qid with
  | none => s
  | some q =>
    let n := q.errn + 1
    let s := { s with queues := Map.set s.queues qid { q with errn := n } }
    let body := [BitVec.ofNat 8 kind, BitVec.ofNat 8 code] ++ leBytes 2 core ++ leBytes 4 ord ++ leBytes 8 epc.toNat
      ++ leBytes 8 taddr.toNat ++ leBytes 8 estat.toNat ++ leBytes 8 ridx.toNat ++ leBytes 8 aux.toNat
    let bytes := clean (leBytes 8 n ++ body)
    let r : RingRec := { qid, ctx := q.ctx, base := q.errva, va := q.errva + 64 * (n % 64)
                         bytes := bytes ++ List.replicate (64 - bytes.length) (0, false)
                         words := [BitVec.ofNat 64 n, BitVec.ofNat 64 (leNat (body.take 8)), epc, taddr, estat, ridx, aux] }
    if s.ring.any fun x => x.qid = qid then { s with ring := s.ring ++ [r] }
    else
      match ringWrite s r with
      | (s, true) => s
      | (s, false) => { s with ring := s.ring ++ [r] }

/-- The oldest record that waits is tried again (R123, R401). -/
def retryRing (s : State) : State :=
  match s.ring with
  | [] => s
  | r :: rs =>
    match ringWrite { s with ring := rs } r with
    | (s, true) => s
    | (s, false) =>
      { s with ring := s.ring.filter (fun x => x.qid ≠ r.qid) ++ r :: s.ring.filter fun x => x.qid = r.qid }

end Sys2Proof.Machine
end

