-- ==== Sys2Proof/Machine/Context.lean ====
section
/-! DEFINITION. The context slot that a save writes (R404 to R407). What the slot's regions hold and where they begin the spec gives; how
the control block, the engine-queue images, the chain records, the exposed-result entries and the slabs are packed inside them it leaves
open, and the packing here is this model's (log 91). -/

namespace Sys2Proof.Machine

/-- The offset in a window of the byte of a cell: the inverse of `cellOf` in the window of `pa`. -/
def offsetIn (pa cell : Nat) : Nat :=
  if pa < 1099511627776 then cell
  else 1099511627776 + cell % 68719476736 / 4096 * 65536 + cell / 68719476736 * 4096 + cell % 4096

/-- Replace `n` bytes of physical memory, and the poison of their units, by the image of an on-chip memory (R405). -/
def storeImage (s : State) (pa n : Nat) (m : Memory) : State :=
  let inside (cell : Nat) : Bool := pa ≤ offsetIn pa cell && offsetIn pa cell < pa + n
  let cells := s.dram.cells.filter fun c => !inside c.1
  let s := { s with dram := { cells, pois := s.dram.pois.filter fun g => !inside (g * 32) } }
  m.cells.foldl
    (fun s c => if c.1 < n then match cellOf (pa + c.1) with
        | some x => { s with dram := { s.dram with cells := Map.put 0 s.dram.cells x c.2 } }
        | none => s
      else s) s

/-- The words of a completion record (R151). -/
def recordBytes (r : Record) : List Byte :=
  leBytes 8 r.w0.toNat ++ leBytes 8 r.w1.toNat ++ leBytes 8 r.w2.toNat ++ leBytes 8 r.w3.toNat

/-- The vector registers as memory (R405): lane i of register r at byte 512 r + 4 i. -/
def lanesImage (v : Map Lane) : Memory :=
  v.foldl (fun m l => m.setBytes (4 * l.1) (leBytes 4 l.2.val.toNat)) .empty

/-- A generator's fields in the order of R262. -/
def genBytes (g : Gen) : List Byte :=
  leBytes 8 g.base.toNat ++ g.ext.toList.flatMap (fun x => leBytes 4 x.toNat) ++ g.stride.toList.flatMap (fun x => leBytes 4 x.toNat)
    ++ g.idx.toList.flatMap (fun x => leBytes 4 x.toNat) ++ [BitVec.ofNat 8 (b2n g.indv), BitVec.ofNat 8 g.ind.toNat]
    ++ leBytes 4 g.tbase.toNat ++ leBytes 4 g.ent.toNat

/-- The control block of R405: the state word, FPC and EPC; the scalar and system registers from offset 24 on; h0 to h15 from 400 on; then
the masks, generators, token windows, skip counts, push counter, loop state, Wick's state, the promised scale count and the active
banks. -/
def controlBlock (k : Core) (t : Task) (word : Nat) (epc : W64) : List Byte :=
  let w (x : Nat) : List Byte := leBytes 8 x
  let wick := k.wick
  w word ++ w k.pc.toNat ++ w epc.toNat ++ k.s.toList.flatMap (fun x => w x.toNat)
    ++ w k.sys.trapvec.toNat ++ w k.sys.trapcode.toNat ++ w k.sys.trapaddr.toNat ++ w k.sys.estat.toNat ++ w k.sys.fpflags.toNat
    ++ w k.sys.npdef.toNat ++ w (b2n k.sys.pend + 2 * b2n k.sys.step)
    ++ w (b2n wick.run + b2n wick.trapped * 2 + wick.wpc.toNat * 2 ^ 16 + wick.pboff.toNat * 2 ^ 32)
    ++ w t.ord ++ w t.phase ++ w t.rank ++ w t.gsize ++ leBytes 24 0
    ++ k.h.toList.flatMap (fun x => leBytes 16 x.toNat) ++ k.m.toList.flatMap (fun x => leBytes 16 x.toNat)
    ++ k.g.toList.flatMap genBytes
    ++ k.iss.win.toList.flatMap (fun l => w l.length ++ (l.take 31).flatMap fun h => leBytes 4 h.2)
    ++ k.sys.skip.toList.flatMap (fun l => leBytes 4 l.length) ++ w k.push
    ++ (match k.nest with | some n => w n.addr.toNat ++ w n.pos ++ n.idx.flatMap (leBytes 4) | none => w 0)
    ++ wick.w.toList.flatMap (fun x => leBytes 4 x.toNat) ++ [BitVec.ofNat 8 (b2n wick.eq), BitVec.ofNat 8 (b2n wick.lt)]
    ++ wick.stack.flatMap (fun x => leBytes 4 x.1 ++ leBytes 4 x.2.1 ++ leBytes 4 x.2.2.toNat)
    ++ w (k.mem.scaleq.foldl (fun a p => a + p.left) 0)
    ++ k.mem.active.toList.map fun b => BitVec.ofNat 8 (b2n b)

/-- The code tables (R405): both banks of tables 0 to 7, bank k of table t at 64 t + 32 k. -/
def tablesImage (m : OnChip) : List Byte :=
  (List.range 256).flatMap fun i => leBytes 2 (Map.get 0 m.tables i).toNat

/-- The scale-queue entries that have landed, oldest first (R405). -/
def scaleEntries (m : OnChip) : List (Byte × Bool) := m.scaleq.flatMap (·.got)

/-- The image of an engine queue (R405): up to 64 unissued words, each by its group's address with its origin in the low bits. -/
def queueImage (q : List QWord) : List Byte :=
  let origin : Origin → Nat | .fetched => 1 | .replayed => 2 | .emitted => 3
  let bs := (q.take 64).flatMap fun w => leBytes 8 (w.addr.toNat / 4 * 4 + origin w.origin)
  bs ++ List.replicate (512 - bs.length) 0

/-- A chain's record in the order of R317, with the levels whose slabs it holds. -/
def chainRecord (c : Chain) : List Byte :=
  let st : ChainState → Nat | .none => 0 | .opened => 1 | .ended => 2 | .closed => 3
  let bs := [BitVec.ofNat 8 (st c.st), BitVec.ofNat 8 c.prof, BitVec.ofNat 8 c.w, BitVec.ofNat 8 (b2n c.init)] ++ leBytes 4 c.k
    ++ leBytes 4 c.s0 ++ leBytes 4 c.n ++ leBytes 4 c.ct ++ leBytes 4 c.kls ++ leBytes 8 c.pres.toNat
  bs ++ List.replicate (64 - bs.length) 0

/-- A node as its word of a slab: an absent one is zero. -/
def nodeWord : Node → Nat
  | .absent => 0
  | .val b _ => b

/-- Whether a node is poisoned. -/
def nodePois : Node → Bool
  | .absent => false
  | .val _ p => p

/-- The elements of a chain's slabs in order: the initial C, the closed result, the subtree in progress and the carry stacks, by element
and level. -/
def slabElems (c : Chain) : List (Nat × Bool) :=
  c.c.map (fun x => (x.2.val.toNat, x.2.pois)) ++ c.res.map (fun x => (x.2.val.toNat, x.2.pois))
    ++ c.part.map (fun x => (nodeWord x.2, nodePois x.2))
    ++ c.stack.flatMap fun x => x.2.map fun y => (nodeWord y.2, nodePois y.2)

/-- The words of the slabs held by generations, packed in chain order (R405); an element of NP3 takes 8 bytes. -/
def slabImage (k : Core) : List Byte :=
  (k.chains.toList.flatMap fun c => (slabElems c).flatMap fun x => leBytes (if c.prof = 3 then 8 else 4) x.1).take 2097152

/-- Bits as bytes, the lowest first. -/
def bitBytes : Nat → List Bool → List Byte
  | 0, _ => []
  | n + 1, bs =>
    BitVec.ofNat 8 (((bs.take 8).mapIdx fun i b => b2n b * 2 ^ i).foldl (· + ·) 0) :: bitBytes n (bs.drop 8)

/-- The poisoned grains of an on-chip memory as bits of the poison map, from byte `off` of the map on. -/
def grainBits (off : Nat) (pois : List Nat) : Memory :=
  pois.foldl (fun m g => m.setBytes (off + g / 8) [BitVec.ofNat 8 ((m.byte (off + g / 8)).toNat ||| 2 ^ (g % 8))]) .empty

/-- The poison map (R405): the scratchpad, the compute-in-memory store, the B-scale store and slot memory by grains of 32 bytes, then the
slab elements, the vector lanes and the scale-queue entries, one bit each, in this order without gaps. -/
def poisonMap (k : Core) : List Memory :=
  let ix (bs : List Bool) : List Nat := (bs.zip (List.range bs.length)).filterMap fun x => if x.1 then some x.2 else none
  [grainBits 0 k.mem.spad.pois, grainBits 16384 k.mem.cim.pois, grainBits 20480 k.mem.bscale.pois, grainBits 20736 k.mem.slot.pois,
   grainBits 20800 (ix ((k.chains.toList.flatMap slabElems).map (·.2))),
   grainBits 86336 ((k.v.filter fun l => l.2.pois).map (·.1)), grainBits 86848 (ix ((scaleEntries k.mem).map (·.2)))]

/-- What an exposed result writes: its kind, its place, and the values and poison in order (R407). -/
def destBytes : PDest → List Byte × List Byte
  | .lanes ls => (BitVec.ofNat 8 1 :: leBytes 7 ((ls.head?.map (·.1)).getD 0 / 128) ++ bitBytes 16 ((List.range 128).map fun i =>
      ls.any fun l => l.1 % 128 = i), ls.flatMap fun l => leBytes 4 l.2.val.toNat)
  | .spad cells _ => (BitVec.ofNat 8 2 :: leBytes 7 ((cells.head?.map (·.1)).getD 0) ++ leBytes 16 cells.length, cells.map (·.2))
  | .flags f => (BitVec.ofNat 8 3 :: leBytes 7 f.toNat ++ leBytes 16 0, [])

/-- An entry of the exposed-result queue (R407): a descriptor of 64 bytes with the engine, REM and the destination, then up to 4 KiB of
values. -/
def exposedEntry (k : Core) (p : Pend) : List Byte :=
  let rem := p.due - vget k.iss.slots (engIx p.eng) 0
  let d := destBytes p.dst
  let head := [BitVec.ofNat 8 (engIx p.eng), BitVec.ofNat 8 rem] ++ leBytes 6 0 ++ d.1
  let bs := head ++ List.replicate (64 - head.length) 0 ++ d.2.take 4096
  bs ++ List.replicate (4160 - bs.length) 0

/-- The entry of an xlat whose handle is still to be written (R25, R407). -/
def xlatEntry (k : Core) (p : HPend) : List Byte :=
  let head := [BitVec.ofNat 8 0, BitVec.ofNat 8 (p.due - vget k.iss.slots 0 0)] ++ leBytes 6 0 ++ [BitVec.ofNat 8 4] ++ leBytes 7 p.h.toNat
    ++ leBytes 8 p.va.toNat ++ leBytes 8 p.intent.toNat
  head ++ List.replicate (4160 - head.length) 0

/-- The state word of a context slot (R406). -/
def stateWord (k : Core) (t : Task) (dmg : Nat) : Nat :=
  2 ^ 63 + b2n (dmg ≠ 0) * 2 ^ 62 + b2n k.handler * 2 ^ 61 + min 32 (k.iss.pend.length + k.iss.hpend.length) * 2 ^ 48
    + min dmg 65535 * 2 ^ 32 + t.ord % 2 ^ 32

/-- The group that executes first at restore where an S word waits (R255), and otherwise EPC as it stands. -/
def slotEpc (k : Core) : W64 :=
  match queueHead k.iss .s with
  | some w => w.addr
  | none => k.sys.epc

/-- Write a context into the slot at a physical address (R405): where a live range is declared, only its bytes of the scratchpad. -/
def writeSlot (s : State) (base : Nat) (k : Core) (t : Task) (dmg liveoff livelen : Nat) : State :=
  let put (s : State) (off n : Nat) (bs : List Byte) : State := storeImage s (base + off) n (Memory.empty.setBytes 0 (bs.take n))
  let s := put s 0 4096 (controlBlock k t (stateWord k t dmg) (slotEpc k))
  let s := put s 4096 2048 (k.evq.flatMap recordBytes)
  let s := put s 6144 512 (tablesImage k.mem)
  let s := put s 6656 1024 ((scaleEntries k.mem).map (·.1))
  let s := put s 8192 4096 (k.iss.queues.toList.flatMap queueImage)
  let s := put s 12288 4096 (k.chains.toList.flatMap chainRecord)
  let s := put s 16384 133120 (k.iss.hpend.flatMap (xlatEntry k) ++ k.iss.pend.flatMap (exposedEntry k))
  let s := storeImage s (base + 163840) 98304 ((poisonMap k).foldl (fun m x => x.cells.foldl (fun m c => m.setBytes c.1 [c.2]) m) .empty)
  let s := if livelen = 0 then storeImage s (base + 262144) 4194304 k.mem.spad
    else physWrite s (base + 262144 + liveoff) (clean (k.mem.spad.bytes liveoff livelen))
  let s := put s 4456448 2097152 (slabImage k)
  let s := storeImage s (base + 6553600) 1048576 k.mem.cim
  let s := storeImage s (base + 7602176) 65536 k.mem.bscale
  let s := storeImage s (base + 7667712) 16384 (lanesImage k.v)
  storeImage s (base + 7684096) 16384 k.mem.slot

end Sys2Proof.Machine
end

