-- ==== Sys2Proof/Machine/Tasks.lean ====
section
/-! DEFINITION. Tasks, gangs, launches and the dispatcher (R161 to R182), the end and the halt of a task (R176, R177),
pre-emption, the save and the restore (R402 to R409). -/

namespace Sys2Proof.Machine

/-- A queue of the hub; an unlisted queue is FREE (R139). -/
def getQueue (s : State) (q : Nat) : Option Queue := Map.find s.queues q

def setQueue (s : State) (q : Nat) (x : Queue) : State := { s with queues := Map.set s.queues q x }

/-- A started packet of a queue. -/
def getPacket (s : State) (q k : Nat) : Option Packet :=
  (getQueue s q).bind fun x => x.packets.find? fun p => p.k = k

def setPacket (s : State) (q : Nat) (p : Packet) : State :=
  match getQueue s q with
  | none => s
  | some x => setQueue s q { x with packets := x.packets.map fun y => if y.k = p.k then p else y }

/-- Change the launch of a packet. -/
def modLaunch (s : State) (q k : Nat) (f : Launch → Launch) : State :=
  match getPacket s q k with
  | some p => setPacket s q { p with launch := p.launch.map f }
  | none => s

def getLaunch (s : State) (q k : Nat) : Option Launch := (getPacket s q k).bind (·.launch)

/-- The extent of a dimension of a record. -/
def NestRec.extOf (r : NestRec) (d : Nat) : Nat := lget r.ext d 1

/-- The indices of a task and its phase (R166), from its ordinal, walk position by walk position. -/
def taskIndex (r : NestRec) (strict : Bool) : List Nat → Nat → List (Nat × Nat) × Nat
  | [], _ => ([], 0)
  | d :: ds, rem =>
    let e := r.extOf d
    let digit := rem % e
    let more := taskIndex r strict ds (rem / e)
    let ix := if bit r.dir d then e - 1 - digit else digit
    ((d, ix) :: more.1, if strict && r.pken && d == r.pkey then digit else more.2)

/-- idx_d of a task (R166). -/
def idxOf (ix : List (Nat × Nat)) (d : Nat) : Nat := ((ix.find? fun p => p.1 = d).map (·.2)).getD 0

/-- The number of tasks of a phase (R166). -/
def phaseSize (l : Launch) (strict : Bool) : Nat :=
  if strict && l.rec'.pken then l.t / l.rec'.extOf l.rec'.pkey else l.t

/-- The size of the gang whose lowest ordinal is given (R170). -/
def gangSize (l : Launch) (strict : Bool) (ord : Nat) : Nat :=
  let p := phaseSize l strict
  min l.rec'.gang ((ord / p + 1) * p - ord)

/-- The descriptors that a task names, without repeats (R163). -/
def taskBinds (r : NestRec) (ix : List (Nat × Nat)) : List Nat :=
  (r.binds.map fun b =>
    (b.1 + (List.range 6).foldl (fun a d => a + idxOf ix d * lget b.2 d 0) 0) % 4096).eraseDups

/-- The tasks that hold a descriptor, running or saved: queue, packet. -/
def bindersOf (s : State) (desc : Nat) : List (Nat × Nat) :=
  let running := s.cores.filterMap fun c =>
    c.2.task.bind fun t => if t.binds.any (·.1 = desc) then some (t.qid, t.packet) else none
  let saved := s.queues.flatMap fun q => q.2.packets.flatMap fun p =>
    match p.launch with
    | none => []
    | some l => l.saved.flatMap fun u => u.2.filterMap fun v =>
        if v.task.binds.any (·.1 = desc) then some (q.1, p.k) else none
  running ++ saved

/-- What the binding check of a gang comes to (R174). -/
inductive BindOut where
  | pass | wait | fail
  deriving DecidableEq, Repr

/-- The binding check of a gang, in ordinal order and slot order (R174). -/
def bindCheck (s : State) (qid k : Nat) (q : Queue) (l : Launch) (ord size : Nat) : BindOut :=
  let strict := q.dmode = 0
  let members := (List.range size).map fun r => taskIndex l.rec' strict l.rec'.order (ord + r)
  let names := members.map fun m => (m.2, taskBinds l.rec' m.1)
  let step (acc : BindOut × List Nat) (phase desc : Nat) : BindOut × List Nat :=
    if acc.1 ≠ .pass then acc
    else
      let ok := match Map.find s.mmu.regions desc with
        | some r => rV r && rMode r == 1 && rCtx r == q.ctx
        | none => false
      if !ok then (.fail, acc.2)
      else if strict && (l.bound.contains (phase, desc) || acc.2.contains desc) then (.fail, acc.2)
      else if (bindersOf s desc).any fun b => b ≠ (qid, k) || !strict then (.wait, acc.2)
      else (.pass, desc :: acc.2)
  (names.foldl (fun a m => m.2.foldl (fun a d => step a m.1 d) a) (BindOut.pass, [])).1

/-- The next unit of a LAUNCH, if R167, R173 and R174 let it start: its lowest ordinal and size; or a failed check. -/
inductive NextUnit where
  | none | fails | unit (ord size : Nat)
  deriving DecidableEq, Repr

def nextUnit (s : State) (qid k : Nat) (q : Queue) (l : Launch) : NextUnit :=
  let strict := q.dmode = 0
  if l.stop.isSome || l.t ≤ l.nextOrd then .none
  else
    let p := phaseSize l strict
    let size := gangSize l strict l.nextOrd
    if l.committed < l.nextOrd / p * p then .none
    else
      match bindCheck s qid k q l l.nextOrd size with
      | .pass => .unit l.nextOrd size
      | .wait => .none
      | .fail => .fails

/-- The LAUNCH packets of a queue, earliest started first. -/
def launches (q : Queue) : List (Nat × Launch) :=
  q.packets.filterMap fun p => if p.done then none else p.launch.map fun l => (p.k, l)

/-- The saved unit of a queue that was saved earliest (R180); a gang is saved once none of its members runs. -/
def savedUnit (q : Queue) : Option (Nat × Unit' × List Saved) :=
  (launches q).foldl
    (fun best l => (l.2.saved.filter fun u => !(l.2.units.any fun v => v.gang = u.1.gang)).foldl
      (fun best u => match best with
        | some b => if u.1.time < b.2.1.time then some (l.1, u) else best
        | none => some (l.1, u)) best)
    none

/-- The ready unit of a queue (R180): how many cores it needs. -/
def readyNeed (s : State) (qid : Nat) (q : Queue) : Option Nat :=
  if q.dying.isSome then none
  else
    match savedUnit q with
    | some u => some u.2.2.length
    | none => (launches q).foldl
        (fun r l => match r with
          | some n => some n
          | none => match nextUnit s qid l.1 q l.2 with | .unit _ n => some n | _ => none)
        none

/-- The effective level of a queue (R179). -/
def level (q : Queue) : Nat := min 7 (q.prio + q.aged)

/-- Cores that hold no task. -/
def freeCores (s : State) : List Nat :=
  (List.range 1280).filter fun c => match s.cores.find c with | some k => k.task.isNone | none => true

/-- `n` cores of a list, one after another, each a free choice among those left (R167, log 8). -/
def anyOrder (c : Nat) : Nat → List Nat → List Nat
  | 0, _ => []
  | n + 1, l =>
    let i := if l.length = 0 then 0 else Config.placement c n % l.length
    match l[i]? with
    | none => []
    | some x => x :: anyOrder c n (l.eraseIdx i)

/-- The order in which free cores are given is not architectural (R167, log 8). -/
def placeOrder (s : State) : List Nat := anyOrder s.free (freeCores s).length (freeCores s)

/-- The on-chip memories as a task finds them (R70, R80, R193, R316). -/
def clearedFor (k : Core) (ctx : Nat) : OnChip :=
  if k.lastCtx = some ctx then k.mem else .empty

/-- A core at a task's first word (R168). -/
def startCore (k : Core) (q : Queue) (r : NestRec) (t : Task) (ix : List (Nat × Nat)) : Core :=
  let s := (List.range 6).foldl (fun v d => vset v (24 + d) (BitVec.ofNat 64 (idxOf ix d))) (Vector.replicate 32 (0 : W64))
  { Core.reset with
    task := some t, pc := r.entry, s := vset s 30 (BitVec.ofNat 64 t.ord)
    sys := { SysReg.reset with npdef := BitVec.ofNat 6 r.npdef, trapvec := q.trapvec }
    mreg := k.mreg, mem := clearedFor k t.ctx, lastCtx := some t.ctx, tlb := k.tlb, corrected := k.corrected }

/-- Deliver bytes into a scratchpad (R64, R86): the grains' poison, and the barrier's byte balance. -/
def spadWrite (m : Memory) (off : Nat) (bs : List PByte) : Memory :=
  (chunks 4194304 3 (off % 4194304) bs).foldl (fun m c => m.write 32 32 (c.1 % 4194304) c.2) m

/-- Read a scratchpad as it stands, wrapping (R64). -/
def spadRead (m : Memory) (off n : Nat) : List PByte :=
  (ranges 4194304 3 (off % 4194304) n).flatMap fun r => m.read 32 (r.1 % 4194304) r.2

/-- The gang map (R171): the core of each rank that runs at GMAPOFF plus twice the rank; the entries of members that have ended stay. -/
def gangMap (r : NestRec) (cores : List (Nat × Nat)) (k : Core) : Core :=
  if !r.gmapen then k
  else
    let n := 2 * cores.foldl (fun a c => max a (c.1 + 1)) 0
    let bs := cores.foldl (fun bs c => bs.take (2 * c.1) ++ clean (leBytes 2 c.2) ++ bs.drop (2 * c.1 + 2)) (spadRead k.mem.spad r.gmapoff n)
    { k with mem := { k.mem with spad := spadWrite k.mem.spad r.gmapoff bs } }

/-- Perform the bindings of a member on its core (R106): the recorded owners. -/
def bindAll (s : State) (core : Nat) (descs : List Nat) : State × List (Nat × BitVec 16) :=
  descs.foldl
    (fun r d =>
      let old := match Map.find r.1.mmu.regions d with | some g => rOwner g | none => 49152
      (transfer r.1 d core, r.2 ++ [(d, BitVec.ofNat 16 old)]))
    (s, [])

/-- Return the bindings of a task to their recorded owners, from whichever owner the task has left them (R106, R177). -/
def unbindAll (s : State) (t : Task) : State := t.binds.foldl (fun s b => transfer s b.1 b.2.toNat) s

/-- Place a gang that starts (R167, R168, R171, R174). -/
def placeNew (s : State) (qid k : Nat) (q : Queue) (l : Launch) (ord size : Nat) : State :=
  let strict := q.dmode = 0
  let cores := (placeOrder s).take size
  let s := { s with free := s.free + 1 }
  let s := (cores.zip (List.range size)).foldl
    (fun s c =>
      let ix := taskIndex l.rec' strict l.rec'.order (ord + c.2)
      let (s, binds) := bindAll s c.1 (taskBinds l.rec' ix.1)
      let t : Task := { qid, packet := k, ord := ord + c.2, phase := ix.2, rank := c.2, gsize := size, gang := ord
                        ctx := q.ctx, dmode := q.dmode, binds }
      let core := { startCore (getCore s c.1) q l.rec' t ix.1 with since := s.stamp, floor := s.stamp, floorX := s.stamp }
      let s := setCore s c.1 (gangMap l.rec' ((List.range size).zip cores) core)
      modLaunch s qid k fun l => { l with bound := if strict then l.bound ++ binds.map fun b => (ix.2, b.1) else [] })
    s
  modLaunch s qid k fun l =>
    { l with nextOrd := ord + size
             units := l.units ++ [{ gang := ord, size, level := level q, time := s.time, cores, saving := false }] }

/-- Fields of a barrier's doublewords (R85): PHASE, ARR, EXPECT, OVF, POISON, OWNER, PBYTES. -/
structure Barrier where
  phase  : Nat
  arr    : Nat
  expect : Nat
  ovf    : Bool
  pois   : Bool
  rsv    : Nat
  owner  : Nat
  pbytes : Int
  deriving DecidableEq, Repr

def Barrier.ofNat (x : Nat) : Barrier :=
  { phase := bits x 0 4, arr := bits x 4 20, expect := bits x 24 20, ovf := bit x 72, pois := bit x 73
    rsv := bits x 74 6, owner := bits x 80 16, pbytes := sextN 32 (bits x 96 32) }

def Barrier.toNat (b : Barrier) : Nat :=
  b.phase + b.arr * 2 ^ 4 + b.expect * 2 ^ 24 + b2n b.ovf * 2 ^ 72 + b2n b.pois * 2 ^ 73 + b.rsv * 2 ^ 74
    + b.owner * 2 ^ 80 + lowN 32 b.pbytes * 2 ^ 96

/-- An update of a barrier by arrivals and bytes, with its advance (R86, R87). -/
def Barrier.update (b : Barrier) (arrivals : Nat) (bytes : Int) (pois : Bool) : Barrier :=
  let arr := b.arr + arrivals
  let pb := b.pbytes + bytes
  let wide := (arrivals ≠ 0 && b.expect < arr) || pb < -2147483648 || 2147483647 < pb
  let b := { b with arr := arr % 1048576, pbytes := sextN 32 (lowN 32 pb), ovf := b.ovf || wide, pois := b.pois || pois }
  if !b.ovf && b.arr == b.expect && b.pbytes == 0 then { b with phase := (b.phase + 1) % 16, arr := 0 } else b

/-- Apply an update to the barrier at an offset of a scratchpad (R69, R86): the bytes of a poisoned grain read as 0xFF (R53). -/
def barrierUpdate (m : Memory) (off arrivals : Nat) (bytes : Int) (pois : Bool) : Memory :=
  let bs := (spadRead m off 16).map fun b => if b.2 then ((255 : Byte), true) else b
  spadWrite m off (clean (leBytes 16 ((Barrier.ofNat (leVal bs)).update arrivals bytes pois).toNat))

/-- A result loses the scratchpad bytes that a later write replaces, and the grains none of whose bytes it still holds. -/
def cutCells (p : Pend) (gone : Nat → Bool) : Pend :=
  match p.dst with
  | .spad cells grains =>
    let cells := cells.filter fun c => !gone c.1
    { p with dst := .spad cells (grains.filter fun g => cells.any fun c => c.1 / 32 = g.1) }
  | _ => p

/-- A result that races a write: each byte is left to one of the two (R68, log 6). -/
def raceCells (s : State) (p : Pend) (hit : Nat → Bool) : State × Pend :=
  match p.dst with
  | .spad cells _ =>
    let r := (cells.filter fun c => hit c.1).foldl
      (fun (a : State × List Nat) c => let x := pick a.1 c.1; (x.1, if x.2 then c.1 :: a.2 else a.2)) (s, [])
    (r.1, cutCells p r.2.contains)
  | _ => (s, p)

/-- Bytes that are written to a core's scratchpad replace those of every result that is visible to all by now, or to the writer
(R66, R68): one whose latency has elapsed or whose token a word has consumed. -/
def overwrite (s : State) (c : Nat) (mine : Pend → Sight) (off n : Nat) : State :=
  let hit (a : Nat) : Bool := (a + 4194304 - off % 4194304) % 4194304 < n
  let k := getCore s c
  let r := k.iss.pend.foldl
    (fun (a : State × List Pend) p =>
      match mine p with
      | .new => (a.1, a.2 ++ [cutCells p hit])
      | .old => (a.1, a.2 ++ [p])
      | .either =>
        if p.seen.isEmpty then let x := raceCells a.1 p hit; (x.1, a.2 ++ [x.2])
        else (a.1, a.2 ++ [cutCells p hit]))
    (s, [])
  setCore r.1 c { k with iss := { k.iss with pend := r.2 } }

/-- Count landed bytes at a barrier, then settle what is left (R86, R350). -/
def countAt (m : Memory) (bar : Option Nat) (landed rest : Nat) (pois late : Bool) : Memory :=
  match bar with
  | none => m
  | some b =>
    let m := if landed = 0 then m else barrierUpdate m b 0 (-(landed : Int)) pois
    if rest = 0 then m else barrierUpdate m b 0 (-(rest : Int)) late

/-- A barrier's 16 bytes hold what every reader sees before an update (R89): a result in flight there is visible to it, or races it. -/
def barrierSeen (s : State) (c : Nat) (bar : Option Nat) : State :=
  match bar with
  | none => s
  | some b =>
    let k := getCore s c
    let touch (p : Pend) : Bool := match p.dst with
      | .spad cells _ => cells.any fun x => (x.1 + 4194304 - b % 4194304) % 4194304 < 16
      | _ => false
    let r := k.iss.pend.foldl
      (fun (a : State × Core × List Pend) p =>
        if !touch p then (a.1, a.2.1, a.2.2 ++ [p])
        else
          match sightHere k none p with
          | .new => (a.1, mergePend a.2.1 p, a.2.2)
          | _ => let x := pick a.1 b; (x.1, if x.2 then (mergePend a.2.1 p, a.2.2) else (a.2.1, a.2.2 ++ [p])))
      (s, k, [])
    setCore r.1 c { r.2.1 with iss := { r.2.1.iss with pend := r.2.2 } }

/-- A barrier of a core counts landed bytes and settles what is left (R86, R350). -/
def countBar (s : State) (c : Nat) (bar : Option Nat) (landed rest : Nat) (pois late : Bool) : State :=
  let s := barrierSeen s c bar
  let k := getCore s c
  setCore s c { k with mem := { k.mem with spad := countAt k.mem.spad bar landed rest pois late } }

/-- The head of a command of a core that a delivery belongs to; one that no word of the core has asked for has none. -/
def foreign : Nat := 4294967296

/-- A delivery lands in the scratchpad of a core, then decrements its barrier (R86, R350, R356); what it replaces is kept for the words
that neither the command's token nor an acquire orders after it (R66, R68). -/
def landFor (s : State) (c head : Nat) (d : Delivery) : State :=
  let s := overwrite s c (sightHere (getCore s c) none) d.off d.data.length
  let k := getCore s c
  let o := rangeStands k.mem.spad 4194304 d.off d.data.length
  let k1 := if d.data.isEmpty then k else
    remember k { eng := .c, num := head, seen := [], fences := [], landed := true, bar := d.bar, old := .spad o.1 o.2 }
  let s := setCore s c { k1 with mem := { k1.mem with spad := spadWrite k1.mem.spad d.off d.data } }
  countBar s c d.bar d.data.length d.rest (anyPois d.data) d.pois

/-- A delivery from elsewhere lands (R356). -/
def land (s : State) (c : Nat) (d : Delivery) : State := landFor s c foreign d

/-- Restore a saved unit on free cores (R409). -/
def placeSaved (s : State) (qid k : Nat) (q : Queue) (u : Unit') (ms : List Saved) : State :=
  let cores := (placeOrder s).take ms.length
  let s := { s with free := s.free + 1 }
  let r := (getLaunch s qid k).map (·.rec')
  let s := (cores.zip ms).foldl
    (fun s c =>
      let v := c.2
      let s := v.task.binds.foldl (fun s b => transfer s b.1 c.1) s
      let old := getCore s c.1
      let core := { v.core with mreg := old.mreg, tlb := old.tlb, corrected := old.corrected, task := some v.task }
      let core := match r with
        | some r =>
          if r.livelen = 0 then core
          else
            let keep := (core.mem.spad.clear 32 0 r.liveoff).clear 32 (r.liveoff + r.livelen)
              (4194304 - (r.liveoff + r.livelen))
            { core with mem := { core.mem with spad := keep } }
        | none => core
      let core := match r with | some r => gangMap r ((ms.map (·.task.rank)).zip cores) core | none => core
      let s := v.held.foldl (fun s d => land s c.1 d) (setCore s c.1 { core with lastCtx := some q.ctx, floor := s.stamp, floorX := s.stamp })
      let s := physWrite s (slotBase q v.slot) (clean (leBytes 8 0))
      due s (walksOf c.1 core ++ (if core.drain = 0 then [] else [.slabReturn c.1])
        ++ core.cmds.map fun m => .commandComplete c.1 m.1))
    s
  let s := modLaunch s qid k fun l =>
    { l with saved := l.saved.filter fun x => x.1 ≠ u
             units := l.units ++ [{ u with level := level q, time := s.time, cores, saving := false }] }
  match getQueue s qid with
  | some q => setQueue s qid { q with slots := q.slots.filter fun i => !(ms.any fun v => v.slot = i) }
  | none => s

/-- pick(L) of R180: the queue, its credit refilled as often as needed; `fuel` bounds the refills. -/
def pickQueue (s : State) (lvl : Nat) (qs : List Nat) : Nat → State × Option Nat
  | 0 => (s, qs.head?)
  | fuel + 1 =>
    let p := vget s.ptr lvl 4095
    let order := (qs.filter fun q => p < q) ++ qs.filter fun q => q ≤ p
    match order.find? fun q => match getQueue s q with | some x => 0 < x.credit | none => false with
    | some q => ({ s with ptr := vset s.ptr lvl q }, some q)
    | none =>
      if qs = [] then (s, none)
      else
        let s := qs.foldl
          (fun s q => match getQueue s q with
            | some x => setQueue s q { x with credit := min (x.credit + x.weight) x.weight }
            | none => s) s
        pickQueue s lvl qs fuel

/-- The candidate victims of preempt_for in the order of R181: queue, packet and unit. -/
def victims (s : State) (lvl : Nat) : List (Nat × Nat × Unit') :=
  let all := s.queues.flatMap fun q =>
    (launches q.2).flatMap fun l => (l.2.units.filter fun u =>
      u.level < lvl && !u.saving && u.cores.length ≤ q.2.nslot - q.2.slots.length).map fun u => (q.1, l.1, u)
  let before (a b : Nat × Nat × Unit') : Bool :=
    if a.2.2.level ≠ b.2.2.level then a.2.2.level < b.2.2.level
    else if a.2.2.time ≠ b.2.2.time then b.2.2.time < a.2.2.time
    else if a.1 ≠ b.1 then b.1 < a.1
    else b.2.2.gang < a.2.2.gang
  all.foldl (fun l v => (l.takeWhile fun x => before x v) ++ v :: l.dropWhile fun x => before x v) []

/-- preempt_for(L, k) of R181: whether it succeeds, with the victims' requests due (R402). -/
def preemptFor (s : State) (lvl k : Nat) : State × Bool :=
  let vs := victims s lvl
  let total := vs.foldl (fun a v => a + v.2.2.cores.length) 0
  if total < k then (s, false)
  else
    let chosen := (vs.foldl (fun (a : List (Nat × Nat × Unit') × Nat) v =>
      if a.2 ≥ k then a else (a.1 ++ [v], a.2 + v.2.2.cores.length)) ([], 0)).1
    (chosen.foldl
      (fun s v =>
        let s := modLaunch s v.1 v.2.1 fun l =>
          { l with units := l.units.map fun u => if u = v.2.2 then { u with saving := true } else u }
        due s (v.2.2.cores.map .preemptRequestArrive))
      s, true)

/-- Cores that running saves will free (R180). -/
def coming (s : State) : Nat :=
  s.queues.foldl (fun a q => (launches q.2).foldl (fun a l => l.2.units.foldl
    (fun a u => if u.saving then a + u.cores.length else a) a) a) 0

/-- A LAUNCH whose binding check fails stops with status OWNERSHIP (R174). -/
def failBindings (s : State) : State :=
  s.queues.foldl
    (fun s q => (launches q.2).foldl
      (fun s l => match nextUnit s q.1 l.1 q.2 l.2 with
        | .fails => modLaunch s q.1 l.1 fun l => { l with stop := some 4 }
        | _ => s) s) s

/-- The procedure of R180; `fuel` bounds the units placed at once. -/
def dispatchLoop (s : State) : Nat → State
  | 0 => s
  | fuel + 1 =>
    let s := failBindings s
    let ready := s.queues.filterMap fun q => (readyNeed s q.1 q.2).map fun n => (q.1, q.2, n)
    if ready.isEmpty then s
    else
      let lvl := ready.foldl (fun a r => max a (level r.2.1)) 0
      let top := (ready.filter fun r => level r.2.1 = lvl).map (·.1)
      let picked : State × Option Nat := match s.reserved with
        | some (qid, _) => if top = [qid] then (s, some qid) else pickQueue s lvl top 1400
        | none => pickQueue s lvl top 1400
      match picked with
      | (s, none) => s
      | (s, some qid) =>
        match getQueue s qid, ready.find? fun r => r.1 = qid with
        | some q, some (_, _, need) =>
          let free := (freeCores s).length
          if need ≤ free then
            let s := match savedUnit q with
              | some (k, u, ms) => placeSaved s qid k q u ms
              | none => (launches q).foldl
                  (fun (r : State × Bool) l =>
                    if r.2 then r
                    else match nextUnit r.1 qid l.1 q l.2 with
                      | .unit ord size => (placeNew r.1 qid l.1 q l.2 ord size, true)
                      | _ => r)
                  (s, false) |>.1
            let s := match getQueue s qid with
              | some q => setQueue s qid { q with credit := q.credit - need, aged := 0 }
              | none => s
            dispatchLoop { s with reserved := none, time := s.time + 1 } fuel
          else if need ≤ free + coming s then { s with reserved := some (qid, need) }
          else { (preemptFor s lvl (need - free)).1 with reserved := some (qid, need) }
        | _, _ => s

/-- The status of a launch that is over: every task committed, or stopped with nothing left to run (R174, R177). -/
def launchOver (s : State) (qid k : Nat) (l : Launch) : Option Nat :=
  let busy := s.cores.any fun c => match c.2.task with | some t => t.qid = qid && t.packet = k | none => false
  if busy || !l.saved.isEmpty then none
  else
    match l.stop with
    | some st => some st
    | none => if l.committed = l.t then some 1 else none

/-- A packet's work has ended: PACKET_COMPLETE writes its record (R150). -/
def finishPacket (s : State) (qid k : Nat) (r : PRes) : State :=
  match getPacket s qid k with
  | some p => if p.job.res.isSome then s else due (setPacket s qid { p with job := { p.job with res := some r } }) [.packetComplete qid k]
  | none => s

/-- End a launch that is over (R177). -/
def launchCheck (s : State) (qid k : Nat) : State :=
  match getLaunch s qid k with
  | none => s
  | some l =>
    match launchOver s qid k l with
    | none => s
    | some st =>
      finishPacket s qid k { status := st, cause := if st = 4 then causeOwnership else 0, bytes := 0
                             elems := l.committed, pois := false, crc := none }

/-- Sequencers look again when a task commits or a launch ends (R154, R155). -/
def wakeSequencers (s : State) : State :=
  due s ((s.queues.filter fun q => !q.2.held.isEmpty).map fun q => .ticketPushSequenced q.1)

/-- Whether an event concerns a word of a core's task. -/
def wordEvent (c : Nat) (e : Event) : Bool :=
  match e with
  | .waitvFreshRead x => x == c
  | .pageWalkComplete x _ => x == c
  | .slabReturn x => x == c
  | _ => false

/-- A line whose word is gone: its answer reaches nobody. -/
def orphan (c : Nat) (f : FLine) : FLine :=
  match f.use with
  | .load x _ | .strong x _ | .fetch x _ => if x = c then { f with use := .load 65535 0 } else f
  | _ => f

/-- A core whose task is gone, with the memories that stay (R70, R176). -/
def freeCore (s : State) (c : Nat) : State :=
  let k := mergeAll (getCore s c)
  let mem := { k.mem with scaleq := k.mem.scaleq.map fun p => { p with head := 0 } }
  { setCore s c { Core.reset with mem, mreg := k.mreg, lastCtx := k.lastCtx, tlb := k.tlb, corrected := k.corrected }
    with sleepers := s.sleepers.filter fun p => p.2 ≠ c
         agenda := s.agenda.filter fun e => !wordEvent c e
         fab := { s.fab with lines := s.fab.lines.map (orphan c), answers := s.fab.answers.filter fun a => a.core ≠ c } }

/-- The saved members of a gang are gone (R141, R177, R408, R411): their slots are free, their bindings return and their
commands end. -/
def dropSaved (s : State) (qid k : Nat) (which : Nat → Bool) : State :=
  match getLaunch s qid k with
  | none => s
  | some l =>
    let ms := (l.saved.filter fun u => which u.1.gang).flatMap (·.2)
    let owners := ms.flatMap fun v => v.core.cmds.map fun c => (c.1, 4096)
    let s := ms.foldl (fun s v => v.task.binds.foldl (fun s b => setOwner s b.1 b.2.toNat false) s) s
    let s := { s with mmu := { s.mmu with pins := s.mmu.pins.filter fun p => !owners.contains p.owner } }
    let s := match getQueue s qid with
      | some q => setQueue s qid { q with slots := q.slots.filter fun i => !(ms.any fun v => v.slot = i) }
      | none => s
    modLaunch s qid k fun l => { l with saved := l.saved.filter fun u => !which u.1.gang }

/-- Take a core out of its unit. -/
def leaveUnit (s : State) (t : Task) (c : Nat) : State :=
  modLaunch s t.qid t.packet fun l =>
    { l with units := (l.units.map fun u => if u.gang = t.gang then { u with cores := u.cores.filter (· ≠ c) } else u).filter
                        fun u => !u.cores.isEmpty }

/-- The commit of a task (R119, R176). -/
def commitTask (s : State) (c : Nat) : State :=
  match (getCore s c).task with
  | none => s
  | some t =>
    let s := flushNear (unbindAll (writeBackAll s c) t)
    let s := leaveUnit (freeCore s c) t c
    let s := modLaunch s t.qid t.packet fun l => { l with committed := l.committed + 1 }
    due (launchCheck (wakeSequencers s) t.qid t.packet) [.dispatch]

/-- A core stops issuing: words that have not issued are gone, sleepers leave their lists (R177, R402). -/
def stopCore (s : State) (c : Nat) : State :=
  let k := getCore s c
  let k := { k with halting := true, ending := false, nest := none, claim := none, sleepers := []
                    wick := { k.wick with run := false }
                    iss := { k.iss with queues := Vector.replicate 7 [], trap := none, hpend := [] } }
  { setCore s c k with sleepers := s.sleepers.filter fun p => p.2 ≠ c }

/-- Halt the gang of a task (R177): no further task of the launch starts. `status` is none for a destroyed queue. -/
def haltGang (s : State) (t : Task) (status : Option Nat) : State :=
  let members := s.cores.filter fun c => match c.2.task with
    | some u => u.qid = t.qid && u.packet = t.packet && u.gang = t.gang
    | none => false
  let s := dropSaved (members.foldl (fun s c => stopCore s c.1) s) t.qid t.packet (· == t.gang)
  match status with
  | some st => modLaunch s t.qid t.packet fun l => { l with stop := some (l.stop.getD st) }
  | none => s

/-- Halt a core's task with an error record of a kind (R177, R399, R410). -/
def haltTask (s : State) (c kind : Nat) : State :=
  let k := getCore s c
  match k.task with
  | none => s
  | some t =>
    let s := errorRecord s t.qid kind (if kind ≤ 2 then k.sys.trapcode.toNat % 256 else 0) c t.ord k.sys.epc k.sys.trapaddr
      k.sys.estat (BitVec.ofNat 64 t.packet) 0
    haltGang s t (some 3)

/-- The end of a halted task once its commands have drained (R177): its plain stores are written back and land, then its bindings
return. -/
def finishHalt (s : State) (c : Nat) : State :=
  match (getCore s c).task with
  | none => s
  | some t =>
    let s := writeBackAll s c
    if storesOut s c then s
    else
      let s := leaveUnit (freeCore (unbindAll s t) c) t c
      due (launchCheck (wakeSequencers s) t.qid t.packet) [.dispatch]

/-- Whether a core has nothing in flight (R176, R403): a checkpointed coll and an xlat do not hold the drain. -/
def drained (k : Core) : Bool :=
  k.cmds.all (fun m => match m.2.instr with | .coll _ _ _ => true | _ => false) && k.transit.isNone

/-- The words of a task are done (R176). -/
def allDone (k : Core) : Bool := (vget k.iss.queues 0 []).isEmpty && othersRetired k

/-- The flags of every word that has issued are in FPFLAGS when a context is saved (R200, R299, R309). -/
def gatherFlags (k : Core) : Core :=
  let f := k.iss.pend.foldl (fun f p => match p.dst with | .flags g => f ||| g | _ => f) k.sys.fpflags
  let iss := { k.iss with pend := k.iss.pend.filter (fun p => match p.dst with | .flags _ => false | _ => true)
                          past := k.iss.past.filter fun p => match p.old with | .flags _ => false | _ => true }
  { k with sys := { k.sys with fpflags := f }, iss }

/-- Save a halted member into a context slot (R404 to R408, R175): the context, the damage, the image. -/
def saveMember (s : State) (c dmg : Nat) : State :=
  let k0 := getCore s c
  match k0.task with
  | none => s
  | some t =>
    match getQueue s t.qid with
    | none => s
    | some q =>
      let s := writeBackAll s c
      let s := t.binds.foldl (fun s b => setOwner s b.1 2047 false) s
      let k := gatherFlags (getCore s c)
      let slot := ((List.range q.nslot).find? fun i => !q.slots.contains i).getD 0
      let live := match getLaunch s t.qid t.packet with | some l => (l.rec'.liveoff, l.rec'.livelen) | none => (0, 0)
      let s := writeSlot s (slotBase q slot) k t dmg live.1 live.2
      let clear := { k with halting := false, iss := { k.iss with hold := false } }
      let v : Saved := { task := t, core := clear, slot, dmg, held := [] }
      let s := setQueue s t.qid { q with slots := NatSet.insert q.slots slot }
      let s := { freeCore s c with time := s.time + 1 }
      let s := modLaunch s t.qid t.packet fun l =>
        let u := l.units.find? fun u => u.gang = t.gang
        match u with
        | none => l
        | some u =>
          let mine := l.saved.find? fun x => x.1.gang = t.gang
          let saved := match mine with
            | some x => l.saved.map fun y => if y.1.gang = t.gang then (x.1, x.2 ++ [v]) else y
            | none => l.saved ++ [({ u with time := s.time, cores := [] }, [v])]
          { l with saved }
      leaveUnit s t c

/-- A damaged save is never restored (R408): a record of kind DAMAGED, whose AUX is a free value (log 15), and the gang ends as
a halt. -/
def discardDamaged (s : State) (t : Task) : State :=
  let s := errorRecord { s with free := s.free + 1 } t.qid 4 0 65535 t.ord 0 0 0 (BitVec.ofNat 64 t.packet) (Config.openReg s.free)
  let s := dropSaved s t.qid t.packet (· == t.gang)
  launchCheck (modLaunch s t.qid t.packet fun l => { l with stop := some (l.stop.getD 3) }) t.qid t.packet

end Sys2Proof.Machine
end

