-- ==== Sys2Proof/Machine/Ops.lean ====
section
/-! DEFINITION. Taking a trap and returning from one (R399, R400, R444), the end of a word, and the named operations on
registers, handles, scratchpad and slot memory that the meanings share. -/

namespace Sys2Proof.Machine

/-! ### Traps -/

/-- The trap codes of R398. -/
def tIllegal : Nat := 1
def tPrefix : Nat := 2
def tPrivileged : Nat := 3
def tOwnership : Nat := 4
def tHandleRevoked : Nat := 5
def tHandleRange : Nat := 6
def tNotPresent : Nat := 7
def tAlign : Nat := 8
def tProfile : Nat := 9
def tProfileUnsupported : Nat := 10
def tTreeAlign : Nat := 11
def tScaleImbalance : Nat := 12
def tAccumExhaust : Nat := 13
def tTokenRange : Nat := 14
def tBarrierOverflow : Nat := 15
def tPendingRead : Nat := 16
def tBreak : Nat := 17
def tPoisonUse : Nat := 18
def tWick : Nat := 19
def tQueueMalformed : Nat := 20

/-- ESTAT (R397): engine, emitted, replayed, DETAIL. -/
def estat (eng : Nat) (emitted replayed : Bool) (detail : Nat) : W64 :=
  BitVec.ofNat 64 (eng * 2 ^ 61 + b2n emitted * 2 ^ 60 + b2n replayed * 2 ^ 59 + detail % 2 ^ 32)

/-- Drop the words of every queue that stand after a place in program order; they are no heads any more (R399 step 1). A waitv that a
notify has woken is no sleeper any more and completes (R117): with `keep` it stays. -/
def discardAfter (i : Issue) (seq : Nat) (keep : Bool := false) : Issue :=
  let late (w : QWord) : Bool := seq < w.seq && !(keep && w.asleep)
  let gone (e : Nat) : List Nat := ((vget i.queues e []).filter late).map (·.num)
  { i with
    heads := Vector.ofFn fun e => vget i.heads e.val 0 - (gone e.val).length
    win := Vector.ofFn fun e => (vget i.win e.val []).filter fun h => !(gone e.val).contains h.2
    queues := i.queues.map fun q => q.filter fun w => !late w }

/-- Whether the head of the Q queue is a waitv that a notify has woken and whose fresh read is still to come (R117). -/
def woken (s : State) (c : Nat) : Bool :=
  match queueHead (getCore s c).iss .q with
  | some w => w.asleep && (getCore s c).sleepers.isEmpty && s.sleepers.all (·.2 ≠ c)
  | none => false

/-- Whether a word that sleeps stands after a place in program order. -/
def sleepsAfter (i : Issue) (seq : Nat) : Bool := i.queues.toList.any fun q => q.any fun w => w.asleep && seq < w.seq

/-- Whether every word before the trap has issued (R399 step 2). -/
def settled (i : Issue) (t : PTrap) : Bool := i.queues.toList.all fun q => q.all fun w => !(w.seq < t.seq)

/-- Make a head as if it had not issued: it is the last of its engine, and will be met again (R394). -/
def unissue (i : Issue) (e : Eng) (n : Nat) : Issue :=
  let x := engIx e
  { i with heads := vset i.heads x (min (vget i.heads x 0) (n - 1))
           win := vset i.win x ((vget i.win x []).filter fun h => h.2 < n)
           openTok := i.openTok.filter fun t => t ≠ (e, n) }

/-- The heads of an engine after a place in program order, in that order, then those still to be skipped (R399 step 4). -/
def headsAfter (k : Core) (i : Issue) (seq e : Nat) : List Nat :=
  (((vget i.win e []).filter fun h => seq < h.1).map (·.2)).reverse ++ vget k.sys.skip e []

/-- Take a trap (R399): the skip counts, TRAPCODE, TRAPADDR, ESTAT and EPC; then handler mode at TRAPVEC, or the halt of
the task where TRAPVEC is 0 or the core is in handler mode already. A trap in a loop body suspends its nest (R267); a trap
while Wick runs leaves the wstart to be executed again (R394). -/
def takeTrap (s : State) (c : Nat) (t : PTrap) : State :=
  let k := getCore s c
  let i := match t.wick || k.wick.run, k.wick.word with
    | true, some w => unissue k.iss .s w.num
    | _, _ => k.iss
  let skips := Vector.ofFn fun e : Fin 7 => if t.wick then [] else headsAfter k i t.seq e.val
  let win := if t.wick then i.win else i.win.map fun l => l.filter fun h => !(t.seq < h.1)
  let body := t.loop.bind fun l => (k.nests.find? fun n => n.num = l.1).map fun n => { n with idx := l.2.1, pos := l.2.2 }
  let k1 := { k with
    sys := { k.sys with trapcode := BitVec.ofNat 64 t.code, trapaddr := t.addr, epc := t.epc, estat := t.estat
                        skip := skips, skipEpc := t.epc }
    wick := { k.wick with run := false, trapped := k.wick.trapped || t.wick || k.wick.run
                          wpc := match t.wpc with | some a => a.setWidth 11 | none => k.wick.wpc }
    nest := none, saved := body, ending := false
    iss := { i with trap := none, win := win } }
  if k.handler || k.sys.trapvec = 0 then haltTask (setCore s c k1) c (if k.handler then 2 else 1)
  else setCore s c { k1 with handler := true, pc := k.sys.trapvec }

/-- Take the trap that waits once every word before it has issued. -/
def settle (s : State) (c : Nat) : State :=
  let k := getCore s c
  match k.iss.trap with
  | none => s
  | some t => if settled k.iss t then takeTrap s c t else s

/-- The engines without a head that has no effect. -/
def withoutHead (i : Issue) (own : Option (Eng × Nat)) : Issue :=
  match own with
  | some (e, n) => { unissue i e n with queues := vset i.queues (engIx e) [] }
  | none => i

/-- A trap is found (R399, R444): the earliest group in program order counts, every later word that has not issued is
discarded, and a sleeper among them leaves its list (R117). `own` is the head that trapped, which has no effect. -/
def foundTrap (s : State) (c : Nat) (t : PTrap) (own : Option (Eng × Nat)) : State :=
  let k := getCore s c
  let i := withoutHead k.iss own
  let first := match k.iss.trap with | some t0 => if t0.seq < t.seq then t0 else t | none => t
  let later := (match k.iss.trap with | some t0 => if t0.seq < t.seq then t else t0 | none => t).own
  let i := if k.iss.trap.isSome then match later with | some (e, n) => unissue i e n | none => i else i
  let k1 := { k with iss := { discardAfter i first.seq (woken s c) with trap := some first } }
  let s1 := setCore s c k1
  let s2 := if sleepsAfter k.iss first.seq && !woken s c then
      { setCore s c { k1 with sleepers := [] } with sleepers := s.sleepers.filter fun p => p.2 ≠ c }
    else s1
  settle { s2 with word := none } c

/-- The word that executes traps with a code, TRAPADDR and DETAIL: its group has no effect (R399). -/
def raise (s : State) (code : Nat) (addr : W64) (detail : Nat) : State :=
  match s.word with
  | none => s
  | some w =>
    let emitted := w.origin = .emitted
    let epc := if emitted then w.next else w.addr
    foundTrap s s.core
      { seq := w.seq, code, epc, addr, estat := estat (engIx w.eng) emitted (w.origin = .replayed) detail
        wick := emitted, wpc := if emitted then some w.addr else none, loop := w.loop, own := none }
      (some (w.eng, w.num))

/-- A loop-body check of the lbody that executes fails (R259): ENG is 0 (R397). -/
def raiseBody (s : State) (code addr detail : Nat) : State :=
  match s.word with
  | none => s
  | some w =>
    foundTrap s s.core
      { seq := w.seq, code, epc := w.addr, addr := BitVec.ofNat 64 addr, estat := estat 0 false false detail
        wick := false, wpc := none, loop := none, own := none }
      (some (w.eng, w.num))

/-- A trap whose TRAPADDR is the virtual address of the failing word (R398). A word that Wick emits has none: what TRAPADDR
holds then is open (log 13). -/
def raiseWord (s : State) (code : Nat) : State :=
  match s.word with
  | none => s
  | some w =>
    if w.origin = .emitted then raise { s with free := s.free + 1 } code (Config.openReg s.free) 0 else raise s code w.head 0

/-- A trap of a word that has completed (R252): EPC holds the next group. -/
def raiseAfter (s : State) (w : QWord) (code detail : Nat) (epc : W64) : State :=
  foundTrap { s with word := none } s.core
    { seq := w.seq, code, epc, addr := w.head, estat := estat (engIx w.eng) false (w.origin = .replayed) detail
      wick := false, wpc := none, loop := none, own := some (w.eng, w.num) } none

/-- A trap found by the splitter before a group is steered (R217): ENG is 0. `loop` is the place of a group that a nest replays. -/
def raiseSplitter (s : State) (c code : Nat) (epc addr : W64) (detail : Nat) (loop : Option (Nat × List Nat × Nat) := none) : State :=
  foundTrap { s with word := none } c
    { seq := (getCore s c).iss.seq, code, epc, addr, estat := estat 0 false loop.isSome detail, wick := false, wpc := none
      loop, own := none } none

/-- A trap of a STEP (R250, R252): the group of word `w` has completed, EPC holds the next. -/
def raiseStep (s : State) (c : Nat) (w : QWord) (epc : W64) (loop : Option (Nat × List Nat × Nat)) : State :=
  foundTrap { s with word := none } c
    { seq := (getCore s c).iss.seq, code := tBreak, epc, addr := w.head
      estat := estat (engIx w.eng) false (w.origin = .replayed) 131072, wick := false, wpc := none, loop, own := none } none

/-- A trap of Wick (R394): the run ends, EPC holds the wstart group and the skip counts clear. -/
def raiseWick (s : State) (c code : Nat) (addr : W64) (detail : Nat) : State :=
  let k := getCore s c
  match k.wick.word with
  | none => s
  | some w =>
    let s := setCore s c { k with wick := { k.wick with trapped := true } }
    foundTrap { s with word := none } c
      { seq := k.iss.seq, code, epc := w.addr, addr, estat := estat 0 false false detail, wick := true
        wpc := some (k.wick.wpc.setWidth 64), loop := none, own := none }
      none

/-- The nest with which emission goes on at an address (R267, R400): the suspended one, at the group of its body that EPC names. -/
def resumeNest (k : Core) : Option Nest :=
  k.saved.bind fun n =>
    let o := k.sys.epc.toNat - n.addr.toNat
    if k.sys.epc = k.sys.skipEpc then some n
    else if n.addr.toNat ≤ k.sys.epc.toNat ∧ o < 4 * n.body.length ∧ o % 4 = 0 then some { n with pos := o / 4 }
    else none

/-- Return from a trap (R400): task mode at EPC; the skip counts stand only when EPC holds the value that the trap
wrote; a suspended nest goes on where EPC names a group of its body. -/
def returnTrap (k : Core) : Core :=
  { k with
    handler := false, pc := k.sys.epc, stepped := none
    sys := if k.sys.epc = k.sys.skipEpc then k.sys else { k.sys with skip := Vector.replicate 7 [] }
    nest := resumeNest k, saved := none }

/-! ### Registers -/

/-- A scalar register: s0 reads zero (R238); the word taken last may see a register as it stood before a word that it is not ordered
after (R96). -/
def sreg (k : Core) (r : BitVec 5) : W64 :=
  if r = 0 then 0
  else match Map.find k.iss.view r.toNat with
    | some v => v.setWidth 64
    | none => vget k.s r.toNat 0

/-- Write a scalar register: a write to s0 is discarded (R238). -/
def setSreg (k : Core) (r : BitVec 5) (v : W64) : Core :=
  if r = 0 then k else { k with s := vset k.s r.toNat v, iss := { k.iss with view := Map.without k.iss.view r.toNat } }

/-- A mask register: m0 reads all ones (R222); as for a scalar register, one that the word is not ordered after may read as before. -/
def mreg (k : Core) (m : BitVec 3) : BitVec 128 :=
  if m = 0 then BitVec.allOnes 128
  else match Map.find k.iss.view (32 + m.toNat) with
    | some v => v
    | none => vget k.m m.toNat 0

/-- Write a mask register: a write to m0 is discarded (R222). -/
def setMreg (k : Core) (m : BitVec 3) (v : BitVec 128) : Core :=
  if m = 0 then k else { k with m := vset k.m m.toNat v, iss := { k.iss with view := Map.without k.iss.view (32 + m.toNat) } }

/-- A lane of a vector register, as it stands without the results in flight; lane i of register r has key 128 r + i. -/
def laneBase (k : Core) (key : Nat) : Lane := Map.get ⟨0, false⟩ k.v key

/-- Put lanes into the register file. -/
def setLanes (k : Core) (ls : Map Lane) : Core := { k with v := ls.foldl (fun v l => Map.put ⟨0, false⟩ v l.1 l.2) k.v }

/-- A value as the word that executes sees it, from what stood before its writers (R68, R96); an agent that is no word sees it as it
stands. -/
def olderHere {α : Type} (s : State) (k : Core) (tag : Nat) (f : Old → Option α) (a : α) : State × α :=
  match s.word with
  | some w => if k.iss.past.isEmpty then (s, a) else olderSeen w tag f k.iss.past s a
  | none => (s, a)

/-- Whether a pending bit is met (R71): PEND is set, and was when the result was issued. -/
def pendingBit (k : Core) (p : Pend) : Bool := p.marked && k.sys.pend

/-- One lane as the word that executes sees it (R272, R273): the results in flight in order, each new, old or a free
choice (log 6). The Bool tells whether a pending bit of R71 is met. -/
def laneSeen (s : State) (k : Core) (key : Nat) : State × Lane × Bool :=
  let b := olderHere s k key (fun o => match o with | .lanes ls => Map.find ls key | _ => none) (laneBase k key)
  k.iss.pend.foldl
    (fun r p =>
      match p.dst with
      | .spad _ _ => r
      | .flags _ => r
      | .lanes ls =>
        match Map.find ls key with
        | none => r
        | some l =>
          match sightHere k s.word p with
          | .new => (r.1, l, r.2.2)
          | .old => (r.1, r.2.1, r.2.2 || pendingBit k p)
          | .either =>
            let c := pick r.1 key
            (c.1, if c.2 then l else r.2.1, r.2.2))
    (b.1, b.2, false)

/-- The lanes of a register that a mask names, as the word that executes sees them, and the lowest one whose pending bit is
met; the other lanes are not looked at and stand as they are. -/
def vecSeen (s : State) (r : Nat) (mask : BitVec 128) : State × List Lane × Option Nat :=
  let k := here s
  let file := (k.v.dropWhile fun l => l.1 < 128 * r).takeWhile fun l => l.1 < 128 * r + 128
  if k.iss.pend.isEmpty && k.iss.past.isEmpty then (s, (List.range 128).map fun i => Map.get ⟨0, false⟩ file (128 * r + i), none)
  else
    (List.range 128).foldl
      (fun a i =>
        if mask.getLsbD i then
          let l := laneSeen a.1 k (128 * r + i)
          (l.1, a.2.1 ++ [l.2.1], if a.2.2.isNone && l.2.2 then some i else a.2.2)
        else (a.1, a.2.1 ++ [laneBase k (128 * r + i)], a.2.2))
      (s, [], none)

/-- A result enters flight (R67, R272), with its pending bits where PEND is set (R71). -/
def exposeNow (s : State) (w : QWord) (latency : Nat) (dst : PDest) : State :=
  onHere s fun k =>
    let p : Pend := { eng := w.eng, num := w.num, due := vget k.iss.slots (engIx w.eng) 0 + latency, seen := []
                      marked := k.sys.pend, dst }
    { k with iss := { k.iss with pend := k.iss.pend ++ [p] } }

def expose (s : State) (latency : Nat) (dst : PDest) : State :=
  match s.word with
  | none => s
  | some w => exposeNow s w latency dst

/-- The flags of the word that executes: ORed into FPFLAGS when it produces its token (R200). -/
def orFlags (s : State) (latency : Nat) (f : BitVec 7) : State :=
  if f = 0 then s else expose s latency (.flags f)

/-- Flags that a C command sets when it produces its token (R200). -/
def cmdFlags (k : Core) (num : Nat) (f : BitVec 7) : Core :=
  if f = 0 then k
  else
    let k1 := remember k { eng := .c, num, seen := [], fences := [], landed := false, bar := none, old := .flags (f &&& ~~~k.sys.fpflags) }
    { k1 with sys := { k.sys with fpflags := k.sys.fpflags ||| f } }

/-- Each flag of a set, seen or not (R200, log 6). -/
def pickFlags (s : State) (f : BitVec 7) : State × BitVec 7 :=
  (List.range 7).foldl
    (fun r i =>
      if f.getLsbD i then
        let c := pick r.1 i
        (c.1, if c.2 then r.2 ||| BitVec.ofNat 7 (2 ^ i) else r.2)
      else r)
    (s, 0)

/-- The flags of results that the word that executes is not ordered after, each of which it sees or not (R200). -/
def looseFlags (s : State) (k : Core) : BitVec 7 :=
  match s.word with
  | none => 0
  | some w => k.iss.past.foldl (fun a p => match p.old with | .flags f => if pastSeen w p then a else a ||| f | _ => a) 0

/-- FPFLAGS as the word that executes sees it (R200): the flags of a word whose token it is not ordered after, each seen
or not (log 6). -/
def flagsSeen (s : State) : State × BitVec 7 :=
  let k := here s
  let loose := looseFlags s k
  let b := pickFlags s loose
  k.iss.pend.foldl
    (fun r p =>
      match p.dst with
      | .flags f =>
        match sightHere k s.word p with
        | .new => (r.1, r.2 ||| f)
        | .old => r
        | .either => let c := pickFlags r.1 f; (c.1, r.2 ||| c.2)
      | _ => r)
    (b.1, k.sys.fpflags &&& ~~~loose ||| b.2)

/-- Write FPFLAGS (R200): the flags of a word that the write is not ordered after follow it or are erased (log 6). -/
def setFlags (s : State) (v : BitVec 7) : State :=
  let k := here s
  let b := pickFlags s (looseFlags s k)
  let r := k.iss.pend.foldl
    (fun (r : State × List Pend) p =>
      match p.dst with
      | .flags _ =>
        match sightHere k s.word p with
        | .new => r
        | .old => (r.1, r.2 ++ [p])
        | .either => let c := pick r.1 7; (c.1, if c.2 then r.2 ++ [p] else r.2)
      | _ => (r.1, r.2 ++ [p]))
    (b.1, [])
  let past := k.iss.past.filter fun p => match p.old with | .flags _ => false | _ => true
  onHere r.1 fun k => { k with sys := { k.sys with fpflags := v ||| b.2 }, iss := { k.iss with pend := r.2, past } }

/-- How the word that executes sees the handle of an xlat (R25): a scalar word by its slot alone, any other word as it is ordered. -/
def handleSight (k : Core) (w : QWord) (p : HPend) : Sight :=
  if w.eng = .s then if p.due ≤ vget k.iss.slots 0 0 then .new else .old
  else if ordered w .s p.num p.seen then .new
  else .either

/-- The handle that the word which executes sees (R25): the latest xlat whose slot has come, or that is issue-ordered
before a word of another engine. `none`: the walk is not complete, and the word waits; the Bool tells whether a pending bit is met (R71). -/
def handleSeen (s : State) (h : BitVec 4) : State × Option (BitVec 128) × Bool :=
  let k := here s
  match s.word with
  | none => (s, some (vget k.h h.toNat 0), false)
  | some w =>
    let b := olderHere s k h.toNat (fun o => match o with | .handle r v => if r = h.toNat then some v else none | _ => none) (vget k.h h.toNat 0)
    k.iss.hpend.foldl
      (fun r p =>
        if p.h ≠ h then r
        else
          match handleSight k w p with
          | .new => (r.1, p.val, r.2.2)
          | .old => (r.1, r.2.1, r.2.2 || (p.marked && k.sys.pend))
          | .either =>
            match p.val with
            | none => r
            | some v =>
              let c := pick r.1 h.toNat
              (c.1, if c.2 then some v else r.2.1, r.2.2))
      (b.1, some b.2, false)

/-! ### Scratchpad and slot memory -/

/-- A scratchpad offset: bits [21:0] of the sum (R64). -/
def spadOff (x : Nat) : Nat := x % 4194304

/-- What stood at an address of the scratchpad: its byte and its grain's poison. -/
def oldByte (a : Nat) : Old → Option PByte
  | .spad cells grains =>
    match Map.find cells a with
    | some b => some (b, (Map.find grains (a / 32)).getD false)
    | none => none
  | _ => none

/-- The same of slot memory. -/
def oldSlot (a : Nat) : Old → Option PByte
  | .slot cells grains =>
    match Map.find cells a with
    | some b => some (b, (Map.find grains (a / 32)).getD false)
    | none => none
  | _ => none

/-- Whether a result in flight touches the 32-bit word of an address. -/
def wordTouched (cells : List (Nat × Byte)) (a : Nat) : Bool := cells.any fun c => c.1 / 4 = a / 4

/-- How a command that captures bytes sees a result in flight (R84). -/
def sightCapture (w : Option QWord) (p : Pend) : Sight :=
  match w with
  | some w => if captureSeen w p.fences then .new else .either
  | none => .either

/-- A byte as a command that captures it sees it, from what stood before its writers (R84). -/
def captureOlder (w : QWord) (a : Nat) : List Past → State → PByte → State × PByte
  | [], s, b => (s, b)
  | p :: ps, s, b =>
    match oldByte a p.old with
    | none => captureOlder w a ps s b
    | some o =>
      if captureSeen w p.fences || p.landed && ordered w p.eng p.num p.seen then (s, b)
      else
        let x := pick s a
        if x.2 then (x.1, b) else captureOlder w a ps x.1 o

/-- One scratchpad byte with the poison of its grain, which stand as `now`, as the word that executes sees it (R66 to R68), or as a command captures it (R84). The Bool
tells whether a pending bit of its word is met (R71). -/
def byteSeen (s : State) (k : Core) (a : Nat) (now : PByte) (capture : Bool) : State × PByte × Bool :=
  let b := match capture, s.word with
    | true, some w => captureOlder w a k.iss.past s now
    | _, _ => olderHere s k a (oldByte a) now
  k.iss.pend.foldl
    (fun r p =>
      match p.dst with
      | .lanes _ => r
      | .flags _ => r
      | .spad cells grains =>
        let c := Map.find cells a
        let g := Map.find grains (a / 32)
        let new : PByte := (c.getD r.2.1.1, g.getD r.2.1.2)
        match if capture then sightCapture s.word p else sightHere k s.word p with
        | .new => (r.1, new, r.2.2)
        | .old => (r.1, r.2.1, r.2.2 || (pendingBit k p && wordTouched cells a))
        | .either =>
          if c.isNone && g.isNone then r
          else
            let x := pick r.1 a
            (x.1, if x.2 then new else r.2.1, r.2.2))
    (b.1, b.2, false)

/-- Whether cells and grains lie in a range of the scratchpad, up to a word. -/
def inRange (off n : Nat) (cells : List (Nat × Byte)) (grains : List (Nat × Bool)) : Bool :=
  cells.any (fun c => (c.1 + 3 + 4194304 - off) % 4194304 < n + 6)
  || grains.any fun g => (g.1 * 32 + 31 + 4194304 - off) % 4194304 < n + 31

/-- Whether a result in flight, or one that some engine is not ordered after, touches a range of the scratchpad. -/
def inFlight (k : Core) (off n : Nat) : Bool :=
  (k.iss.pend.any fun p => match p.dst with | .spad cells grains => inRange off n cells grains | _ => false)
  || k.iss.past.any fun p => match p.old with | .spad cells grains => inRange off n cells grains | _ => false

/-- Poison of a read by grain (R68): where a byte comes from a poisoned state, so is the rest of its grain in the result. -/
def spreadGrains (off : Nat) (bs : List PByte) : List PByte :=
  let hurt := (bs.zip (List.range bs.length)).filterMap fun x => if x.1.2 then some ((off + x.2) / 32) else none
  bs.mapIdx fun i b => (b.1, b.2 || hurt.contains ((off + i) / 32))

/-- Bytes of the scratchpad as the word that executes sees them, or as a command captures them; a poisoned byte reads as it stands.
With the offset of the first pending word (R71). -/
def spadLook (s : State) (off n : Nat) (capture : Bool) : State × List PByte × Option Nat :=
  let k := here s
  let o := spadOff off
  if !inFlight k o n then (s, spadRead k.mem.spad o n, none)
  else
    let r := ((spadRead k.mem.spad o n).zip (List.range n)).foldl
      (fun (r : State × List PByte × Option Nat) x =>
        let a := (o + x.2) % 4194304
        let b := byteSeen r.1 k a x.1 capture
        (b.1, b.2.1 :: r.2.1, if r.2.2.isNone && b.2.2 then some (a / 4 * 4) else r.2.2))
      (s, [], none)
    (r.1, spreadGrains o r.2.1.reverse, r.2.2)

/-- Bytes of the scratchpad as the word that executes sees them (R66 to R68). -/
def spadSeen (s : State) (off n : Nat) : State × List PByte × Option Nat := spadLook s off n false

/-- Bytes of the scratchpad as a command captures them (R84). -/
def spadCaptured (s : State) (off n : Nat) : State × List PByte := let r := spadLook s off n true; (r.1, r.2.1)

/-- Keep what stands in a range that a word is about to write at once (R68): the S engine's later words see the write, and so do those of
the Q engine after its own. -/
def keepStanding (k : Core) (w : Option QWord) (slot : Bool) (off n : Nat) : Core :=
  match w with
  | none => k
  | some w =>
    let o := if slot then rangeStands k.mem.slot 16384 off n else rangeStands k.mem.spad 4194304 off n
    let seen : List (Nat × Nat) := if w.eng = .s then [(0, w.num)] else []
    remember k { eng := w.eng, num := w.num, seen, fences := [], landed := false, bar := none
                 old := if slot then .slot o.1 o.2 else .spad o.1 o.2 }

/-- Write bytes to the scratchpad at once: they replace those of results that this word is ordered after (R66, R68). -/
def spadStore (s : State) (off : Nat) (bs : List PByte) : State :=
  let s := overwrite s s.core (sightHere (here s) s.word) (spadOff off) bs.length
  onHere s fun k =>
    let k := keepStanding k s.word false (spadOff off) bs.length
    { k with mem := { k.mem with spad := spadWrite k.mem.spad (spadOff off) bs } }

/-- Bytes of slot memory as the word that executes sees them (R73). -/
def slotSeen (s : State) (off n : Nat) : State × List PByte :=
  let k := here s
  let now := k.mem.slot.read 32 off n
  if k.iss.past.any fun p => match p.old with | .slot cells _ => cells.any (fun c => off ≤ c.1 && c.1 < off + n) | _ => false then
    let r := (now.zip (List.range n)).foldl
      (fun (r : State × List PByte) x => let b := olderHere r.1 k (off + x.2) (oldSlot (off + x.2)) x.1; (b.1, b.2 :: r.2)) (s, [])
    (r.1, spreadGrains off r.2.reverse)
  else (s, now)

/-- Write bytes to slot memory (R73). -/
def slotStore (s : State) (off : Nat) (bs : List PByte) : State :=
  onHere s fun k =>
    let k := keepStanding k s.word true off bs.length
    { k with mem := { k.mem with slot := k.mem.slot.write 32 32 off bs } }

/-- The offset of the first poisoned byte of a read (R56). -/
def firstPois (off : Nat) (bs : List PByte) : Option Nat :=
  (bs.findIdx? (·.2)).map fun i => (off + i) % 4194304

/-! ### Deliveries and commands seen from outside a core -/

/-- Wake the sleepers on a scratchpad word (R118): one or all. -/
def wakeSpad (s : State) (c addr : Nat) : State :=
  let k := getCore s c
  if k.sleepers.contains addr then
    due (setCore s c { k with sleepers := k.sleepers.filter (· ≠ addr) }) [.waitvFreshRead c]
  else s

/-- Wake sleepers on a device word (R118); the word is named by its cell address. -/
def wakeDevice (s : State) (cell : Nat) (all : Bool) : State :=
  let hit := s.sleepers.filter fun p => p.1 = cell
  let woken := if all then hit else hit.take 1
  due { s with sleepers := s.sleepers.filter fun p => !woken.contains p } (woken.map fun p => .waitvFreshRead p.2)

end Sys2Proof.Machine
end

