-- ==== Sys2Proof/Machine/Operands.lean ====
section
/-! DEFINITION. Operand forms: immediates, branch targets, scratchpad and slot addresses, generators, and device accesses
through handles with their checks (R26, R220, R224, R262). -/

namespace Sys2Proof.Machine

/-- An extended immediate, zero-extended or sign-extended to 64 bits (R220). -/
def immZ (i : BitVec 32) : W64 := i.setWidth 64
def immSx (i : BitVec 32) : W64 := i.signExtend 64

/-- The bytes of the width codes of ldsp and its like (R224). -/
def wdBytes (w : BitVec 2) : Nat := 2 ^ w.toNat

/-- A branch target: the head's address plus four times the signed offset (R224). -/
def branchTarget (w : QWord) (i : BitVec 32) : W64 := w.head + immSx i * 4

/-- The offset that sA plus a signed immediate forms (R64, R244). -/
def formOff (k : Core) (a : BitVec 5) (i : BitVec 32) : Nat := spadOff (sreg k a + immSx i).toNat

/-- The offset that sA times 1 plus 64 times a signed immediate forms (R224, VM). -/
def formOff64 (k : Core) (a : BitVec 5) (i : BitVec 32) : Nat := spadOff (sreg k a + immSx i * 64).toNat

/-- The ENT that a word in L slot `slot` uses (R264). -/
def genEnt (g : Gen) (slot : Nat) : W32 :=
  g.reads.foldl (fun e r => if r.1 ≤ slot then r.2 else e) g.ent

/-- The address of a generator, modulo 2^64 (R262). -/
def genAddr (g : Gen) (slot : Nat) : Nat :=
  let term (d : Nat) : Int :=
    let c : Int := if g.indv && g.ind.toNat == d then (genEnt g slot).toInt else (vget g.idx d 0).toNat
    c * (vget g.stride d 0).toInt
  lowN 64 ((g.base.toNat : Int) + (List.range 6).foldl (fun a d => a + term d) 0)

/-- The snapshot of a generator's address by a word (R266): as of the slot of the latest L word before it; each L head
takes one slot, so head n has slot n - 1. -/
def snapshot (k : Core) (w : QWord) (g : BitVec 3) : Nat :=
  genAddr (vget k.g g.toNat .reset) (w.lref - 1)

/-- What the checks of R26 answer for a device access: a trap with its code, TRAPADDR and DETAIL; a wait for a transfer
of ownership; or the access, at its virtual address. -/
inductive DevCheck where
  | trap (code : Nat) (addr : W64) (detail : Nat)
  | wait
  | go (va : Nat)
  deriving DecidableEq, Repr

/-- Checks 1 to 6 of R26 in their order, for `n` bytes at offset `o`; `write` for a store, an atomic or a barrier update,
`align` what the address must be a multiple of. -/
def devCheck (s : State) (acc : Accessor) (hn : BitVec 4) (h : BitVec 128) (o n : Nat) (write : Bool) (align : Nat) :
    DevCheck :=
  let va := hOrigin h + o
  let addr := BitVec.ofNat 64 va
  if !hV h then .trap tHandleRevoked addr hn.toNat
  else if hRes h = 3 then .trap tNotPresent addr (hCause h)
  else if !hInRange h o n then .trap tHandleRange addr hn.toNat
  else if hEo h || (write && !hWr h) then .trap tOwnership addr 0
  else if !aligned va align then .trap tAlign addr 0
  else
    match permit s acc (hCtx h) va n write true with
    | (.yes, _) => .go va
    | (.no, a) => .trap tOwnership (BitVec.ofNat 64 a) 0
    | (.wait, _) => .wait

/-- The handle with which an access goes on: that of a waiting word was captured, and is translated again once a move or
a shootdown has revoked it (R30, R123). -/
def liveHandle (s : State) (w : QWord) (h : BitVec 128) : BitVec 128 :=
  match w.held with
  | none => h
  | some x =>
    if hRes x = 1 || hRes x = 0 then
      match walk s (hCtx x) (hOrigin x) with
      | .ok leaf size addr => mkHandle (.ok leaf size addr) (hCtx x) (hOrigin x)
      | .no c => mkHandle (.no c) (hCtx x) (hOrigin x)
    else x

/-- A word that waits with the handle it was issued with (R123). -/
def stallHolding (s : State) (h : BitVec 128) : State :=
  stall { s with word := s.word.map fun w => { w with held := some h } }

/-- The answer to a forwarded line of the word that executes, if it has come (R124). -/
def answerOf (s : State) : Option Answer :=
  s.word.bind fun w => s.fab.answers.find? fun a => a.core = s.core && a.num = w.num && a.strong == (w.eng == .q)

/-- Whether the word that executes has a line on its way. -/
def lineOut (s : State) : Bool :=
  match s.word with
  | none => false
  | some w => s.fab.lines.any fun l => match l.use with
    | .load c n => w.eng == .s && c = s.core && n = w.num
    | .strong c n => w.eng == .q && c = s.core && n = w.num
    | _ => false

/-- Forget the answer that the word has taken. -/
def dropAnswer (s : State) : State :=
  match s.word with
  | none => s
  | some w => { s with fab := { s.fab with answers := s.fab.answers.filter fun a => !(a.core = s.core && a.num = w.num && a.strong == (w.eng == .q)) } }

/-- The trap of a failed line (R33, R124): NOT_PRESENT with the CAUSE that the holder returned, and CAUSE 1 for a line that timed
out. -/
def lineTrap (s : State) (a : Answer) (va : Nat) : State :=
  let s := dropAnswer s
  match a.st, a.late with
  | .ownership, false => raise s tOwnership (BitVec.ofNat 64 va) 0
  | .notPresent c, false => raise s tNotPresent (BitVec.ofNat 64 va) c
  | _, _ => raise s tNotPresent (BitVec.ofNat 64 va) 1

end Sys2Proof.Machine
end

