-- ==== Sys2Proof/Machine/Plain.lean ====
section
/-! DEFINITION. Plain accesses: the plain-access buffer of the core that executes (R103, R246). -/

namespace Sys2Proof.Machine

/-- The line of the buffer that holds an address, filled from memory where it is absent. -/
def plainLine (s : State) (h : BitVec 128) (line : Nat) : State × PLine :=
  match Map.find (here s).plain line with
  | some l => (s, l)
  | none =>
    let q := match (here s).task with | some t => t.qid | none => 0
    let r := handleRead s h (line * 64) 64
    let d := match r.2 with | .data d => d | .remote => List.replicate 64 (0, false)
    (r.1, { data := d, dirty := 0, handle := h, qid := q })

/-- The moment from which on a plain read of a byte finds what memory held (R103): the task's start, or the core's last ownx on its region. -/
def plainAfter (k : Core) (va : Nat) : Nat :=
  k.ownxs.foldl (fun a x => if x.1 ≤ va && va < x.1 + x.2.1 then max a x.2.2 else a) k.since

/-- Bytes that a forwarded read returned, with the core's own stores over them (R103, R124). -/
def overlayOwn (k : Core) (va : Nat) (bs : List PByte) : List PByte :=
  bs.mapIdx fun i b =>
    match Map.find k.plain ((va + i) / 64) with
    | some l => if bit l.dirty.toNat ((va + i) % 64) then lget l.data ((va + i) % 64) b else b
    | none => b

/-- A plain read of bytes in one line (R103): the core's own stores, and otherwise what memory holds or has held since its task started or
its last ownx on their region, each byte a free choice (log 6). -/
def plainRead (s : State) (h : BitVec 128) (va n : Nat) : State × List PByte :=
  match handleRead s h va n with
  | (s, .remote) => (s, [])
  | (s, .data now) =>
    let r := match (if hRes h = 0 then cellOf (hPhys h va) else none) with
      | some cell => let x := readBack s s.core cell now (plainAfter (here s) va) false; (x.1, x.2.1)
      | none => (s, now)
    (r.1, overlayOwn (here r.1) va r.2)

/-- A plain store of bytes in one line enters the buffer (R103). -/
def plainStore (s : State) (h : BitVec 128) (va : Nat) (bs : List Byte) : State :=
  let line := va / 64
  let (s, l) := plainLine s h line
  let o := va % 64
  let data := l.data.take o ++ clean bs ++ l.data.drop (o + bs.length)
  let dirty := l.dirty ||| BitVec.ofNat 64 ((2 ^ bs.length - 1) * 2 ^ o)
  let q := match (here s).task with | some t => (t.qid, t.packet, t.ord) | none => (l.qid, l.packet, l.ord)
  onHere s fun k => { k with plain := Map.set k.plain line { data, dirty, handle := h, qid := q.1, packet := q.2.1, ord := q.2.2 } }

/-- The value that a plain load yields: poisoned bytes trap (R56), else sD is written. -/
def plainLoaded (s : State) (d : BitVec 5) (va : Nat) (bs : List PByte) : State :=
  match bs.findIdx? (·.2) with
  | some i => raise s tPoisonUse (BitVec.ofNat 64 (va + i)) 2
  | none => retire (onHere s fun k => setSreg k d (BitVec.ofNat 64 (leVal bs)))

/-- ldh (R246): the seven checks of R26, then the bytes where they lie. -/
def loadHandle (s : State) (d : BitVec 5) (hn : BitVec 4) (o n : Nat) : State :=
  match handleSeen s hn with
  | (s, none, _) => stall s
  | (s, some h, marked) =>
    let w := s.word.getD { seq := 0, eng := .s, num := 0, addr := 0, head := 0, next := 0, deps := [], instr := .nop, np := 0
                           origin := .fetched, lref := 0, loop := none, asleep := false, held := none }
    let h := liveHandle s w h
    if marked then raise s tPendingRead (BitVec.ofNat 64 (hOrigin h + o)) 0
    else
      match devCheck s (.plain s.core) hn h o n false n with
      | .trap c a x => raise s c a x
      | .wait => stall s
      | .go va =>
        if hRes h ≠ 2 then
          let r := plainRead s h va n
          plainLoaded r.1 d va r.2
        else
          match windowTarget s (hFrame h) va n with
          | none => raise s tNotPresent (BitVec.ofNat 64 va) 1
          | some (win, t) =>
            match answerOf s with
            | some a =>
              if a.st = .ok && !a.late then plainLoaded (dropAnswer s) d va (overlayOwn (here s) va a.data)
              else lineTrap s a va
            | none =>
              if unreachable s (bits win.w2.toNat 48 16) && !bit win.w0.toNat 62 then
                raise s tNotPresent (BitVec.ofNat 64 va) 1
              else if lineOut s then stallHolding s h
              else stallHolding (sendLine s win t n none 0 (.load s.core w.num)) h

/-- sth (R246): the checks of R26 for a store, a wait for the promotion of a shade page (R123), then the buffer. -/
def storeHandle (s : State) (d : BitVec 5) (hn : BitVec 4) (o n : Nat) : State :=
  match handleSeen s hn with
  | (s, none, _) => stall s
  | (s, some h, marked) =>
    let h := match s.word with | some w => liveHandle s w h | none => h
    if marked then raise s tPendingRead (BitVec.ofNat 64 (hOrigin h + o)) 0
    else
      match devCheck s (.plain s.core) hn h o n true n with
      | .trap c a x => raise s c a x
      | .wait => stall s
      | .go va =>
        let bs := leBytes n (sreg (here s) d).toNat
        match hRes h with
        | 1 =>
          match walk s (hCtx h) va with
          | .ok leaf size addr =>
            if bits leaf.toNat 7 2 = 1 then stallHolding (promote s (hCtx h) va) h
            else retire (plainStore s (mkHandle (.ok leaf size addr) (hCtx h) va) va bs)
          | .no c => raise s tNotPresent (BitVec.ofNat 64 va) c
        | 2 =>
          match windowTarget s (hFrame h) va n with
          | none => raise s tNotPresent (BitVec.ofNat 64 va) 1
          | some _ => retire (plainStore s h va bs)
        | _ => retire (plainStore s h va bs)

end Sys2Proof.Machine
end

