-- ==== Sys2Proof/Machine/SysRegs.lean ====
section
/-! DEFINITION. The system registers by index, their access by mode and the rules of their writes (R223, R249 to R251, R27,
R32, R38, R101, R127, R133, R134, R139, R200, R206, R389, R397). -/

namespace Sys2Proof.Machine

/-- WSTART as it reads (R389). -/
def wickReg (w : Wick) : W64 :=
  BitVec.ofNat 64 (b2n w.run * 2 ^ 63 + b2n w.trapped * 2 ^ 62 + w.wpc.toNat * 2 ^ 39 + w.entry.toNat * 2 ^ 22
    + w.pboff.toNat)

/-- SHCTL as it reads (R127). -/
def shctl (m : Mmu) : W64 :=
  BitVec.ofNat 64 (m.pool.length * 2 ^ 8 + b2n m.cen * 2 ^ 7 + b2n m.xen * 2 ^ 6 + m.expthr.toNat)

/-- A register that only handler-mode software writes and nobody reads back (R27, R38, R133): what a read returns is open
(log 13). -/
def openRead (s : State) : State × W64 := ({ s with free := s.free + 1 }, Config.openReg s.free)

/-- The value of a system register (R223); software that finds BUSY clear is ordered after what its clearing releases (R28, R32, R39, R101). -/
def sysValue (s : State) (x : Nat) : State × W64 :=
  let k := here s
  let m := k.mreg
  let t (f : Task → Nat) : State × W64 := (s, match k.task with | some t => BitVec.ofNat 64 (f t) | none => 0)
  let busy (v : W64) (i : Nat) (b : Bool) : State × W64 := (s, v ||| BitVec.ofNat 64 (b2n b * 2 ^ i))
  let released (v : W64) (i : Nat) (b : Bool) : State × W64 :=
    (if b then s else catchUp s s.core, v ||| BitVec.ofNat 64 (b2n b * 2 ^ i))
  match x with
  | 0x000 => t (·.ord)
  | 0x001 => t (·.phase)
  | 0x002 => t (·.rank)
  | 0x003 => t (·.gsize)
  | 0x004 => (s, BitVec.ofNat 64 s.core)
  | 0x005 => (s, s.tstamp)
  | 0x008 => (s, k.sys.npdef.setWidth 64)
  | 0x009 => let r := flagsSeen s; (r.1, r.2.setWidth 64)
  | 0x00A => (s, BitVec.ofNat 64 (b2n k.sys.step * 2 + b2n k.sys.pend))
  | 0x010 => (s, k.sys.trapvec)
  | 0x011 => (s, k.sys.trapcode)
  | 0x012 => (s, k.sys.trapaddr)
  | 0x013 => (s, k.sys.epc)
  | 0x014 => (s, k.sys.estat)
  | 0x018 => (s, wickReg k.wick)
  | 0x102 => released m.sdctl 9 m.sdBusy
  | 0x10A => released m.fmtctl 9 m.fmtBusy
  | 0x110 => (s, m.rglo)
  | 0x111 => (s, m.rghi)
  | 0x112 => released m.rgctl 14 m.rgBusy
  | 0x118 => (s, s.mmu.shzBase)
  | 0x119 => (s, s.mmu.shzLen)
  | 0x11A => (s, shctl s.mmu)
  | 0x121 => (s, m.pgopdst)
  | 0x123 => busy m.pgopctl 19 m.pgBusy
  | 0x128 => (s, s.mmu.frtBase)
  | 0x130 => (s, m.qarg)
  | 0x131 => busy m.qctl 31 m.qBusy
  | 0x132 => (s, m.qstat)
  | 0x140 => released m.htctl 15 m.htBusy
  | _ => if 0x138 ≤ x ∧ x < 0x140 then (s, vget m.htd (x - 0x138) 0) else openRead s

/-- Change the management registers of the core that executes. -/
def onRegs (s : State) (f : MReg → MReg) : State := onHere s fun k => { k with mreg := f k.mreg }

/-- Change the task's system registers. -/
def onSys (s : State) (f : SysReg → SysReg) : State := onHere s fun k => { k with sys := f k.sys }

/-- Shootdowns in progress or about to start (R27). -/
def shootCount (s : State) : Nat :=
  s.mmu.shoots.length + (s.agenda.filter fun e => match e with | .shootdownStart _ => true | _ => false).length

/-- Page operations in progress or about to start (R133). -/
def pageOpCount (s : State) : Nat :=
  s.mmu.moves.length + s.mmu.defer.length
    + (s.agenda.filter fun e => match e with
        | .pageopAlloc _ | .pageopIncref _ | .pageopDecref _ | .pageopMigrate _ | .pageopExpand _ | .pageopCompress _
        | .pageopPoolput _ | .pageopPooltake _ => true
        | _ => false).length

/-- SDCTL (R27): the shootdown that a GO starts. -/
def writeSdctl (s : State) (v : Nat) : State :=
  let m := (here s).mreg
  if bits v 10 54 ≠ 0 then raiseWord s tIllegal
  else
    let keep := BitVec.ofNat 64 (bits v 0 8)
    if !bit v 8 then retire (onRegs s fun m => { m with sdctl := keep })
    else if m.sdBusy || 16 ≤ shootCount s then stall s
    else
      due (retire (onRegs s fun m => { m with sdctl := keep, sdBusy := true }))
        [.shootdownStart { src := .core s.core, ctx := bits v 0 8, vpn := bits m.sdva.toNat 16 36
                           units := bits m.sdlen.toNat 0 25 }]

/-- Whether a format names a legal range and attribute (R38). -/
def formatLegal (base len ctl : Nat) : Bool :=
  let pa := bits base 16 32 * 65536
  let units := bits len 0 25
  let top := if pa < 1099511627776 then 1099511627776 else 2199023255552
  bits base 48 16 == 0 && bits base 0 16 == 0 && bits len 25 39 == 0 && bits ctl 10 54 == 0 && bits ctl 0 2 == 0
  && units ≠ 0 && pa + units * 65536 ≤ top
  && (pa < 1099511627776 || (aligned pa 1048576 && aligned units 16))
  && (if bit ctl 5 then bits ctl 2 3 ≠ 7 else bits ctl 2 3 == 0)

/-- FMTCTL (R38). -/
def writeFmtctl (s : State) (v : Nat) : State :=
  let m := (here s).mreg
  let keep := BitVec.ofNat 64 (bits v 2 6 * 4)
  if !bit v 8 then retire (onRegs s fun m => { m with fmtctl := keep })
  else if !formatLegal m.fmtbase.toNat m.fmtlen.toNat v then raiseWord s tIllegal
  else if m.fmtBusy then stall s
  else
    due (retire (onRegs s fun m => { m with fmtctl := keep, fmtBusy := true }))
      [.formatStart { core := s.core, pa := bits m.fmtbase.toNat 16 32 * 65536, units := bits m.fmtlen.toNat 0 25
                      gran := BitVec.ofNat 2 (bits v 6 2), tol := bit v 5, tcls := BitVec.ofNat 3 (bits v 2 3) }]

/-- Whether OWNER agrees with MODE (R99). -/
def ownerLegal (mode owner : Nat) : Bool :=
  if mode ≠ 1 then owner == 49152
  else
    match owner / 16384 with
    | 0 => owner < 1280
    | 1 => owner == 16384
    | 2 => owner < 32768 + 16
    | _ => false

/-- Whether a descriptor may be written at an index (R101). -/
def regionLegal (s : State) (idx : Nat) (r : Region) : Bool :=
  bits r.w0.toNat 19 3 == 0 && bits r.w0.toNat 1 7 == 0 && bits r.w1.toNat 16 48 == 0
  && (!rV r
      || (16 ≤ rLog r && rLog r ≤ 40 && aligned (rBase r) (2 ^ rLog r) && rMode r < 5 && ownerLegal (rMode r) (rOwner r)
          && s.mmu.regions.all fun o =>
              o.1 == idx || !rV o.2 || rCtx o.2 ≠ rCtx r || rBase o.2 ≠ rBase r || rLog o.2 ≠ rLog r))

/-- RGCTL (R101, R186): a binding holds a descriptor until it ends. -/
def writeRgctl (s : State) (v : Nat) : State :=
  let m := (here s).mreg
  let idx := bits v 0 12
  let go := bit v 13
  let rd := bit v 12
  let keep := BitVec.ofNat 64 idx
  if bits v 15 49 ≠ 0 || (go && rd) || (go && !regionLegal s idx { w0 := m.rglo, w1 := m.rghi }) then
    raiseWord s tIllegal
  else if !go && !rd then retire (onRegs s fun m => { m with rgctl := keep })
  else if m.rgBusy || (go && !(bindersOf s idx).isEmpty) then stall s
  else
    due (retire (onRegs s fun m => { m with rgctl := keep, rgBusy := true }))
      [if go then .regionDescriptorWrite s.core idx m.rglo m.rghi else .regionDescriptorRead s.core idx]

/-- SHCTL (R127). -/
def writeShctl (s : State) (v : Nat) : State :=
  if bits v 17 47 ≠ 0 || bits v 3 3 ≠ 0 then raiseWord s tIllegal
  else
    retire { s with mmu := { s.mmu with cen := bit v 7, xen := bit v 6, expthr := BitVec.ofNat 3 v } }

/-- The event that starts a page operation (R133). -/
def pageOpEvent (op : Nat) (r : PageReq) : Event :=
  match op with
  | 0 => .pageopAlloc r
  | 1 => .pageopIncref r
  | 2 => .pageopDecref r
  | 3 => .pageopMigrate r
  | 4 => .pageopExpand r
  | 5 => .pageopCompress r
  | 6 => .pageopPoolput r
  | _ => .pageopPooltake r

/-- PGOPCTL (R133). -/
def writePgopctl (s : State) (v : Nat) : State :=
  let m := (here s).mreg
  let va := m.pgopva.toNat
  let dst := m.pgopdst.toNat
  let ca := m.pgopca.toNat
  let keep := BitVec.ofNat 64 (bits v 12 6 * 4096 + bits v 0 8)
  if !bit v 18 then retire (onRegs s fun m => { m with pgopctl := keep })
  else if bits v 20 44 ≠ 0 || bits v 8 4 ≠ 0 || bits va 52 12 ≠ 0 || bits va 0 16 ≠ 0 || bits dst 48 16 ≠ 0
      || bits dst 14 2 ≠ 0 || bits dst 0 7 ≠ 0 || bits ca 48 16 ≠ 0 || bits ca 0 6 ≠ 0 || 8 ≤ bits v 12 4
      || bits v 16 2 = 3 then raiseWord s tIllegal
  else if m.pgBusy || 64 ≤ pageOpCount s then stall s
  else
    due (retire (onRegs s fun m => { m with pgopctl := keep, pgBusy := true }))
      [pageOpEvent (bits v 12 4)
        { src := .core s.core, va, dst := m.pgopdst, ca, size := BitVec.ofNat 2 (bits v 16 2), ctx := bits v 0 8 }]

/-- The event that starts a queue operation (R139). -/
def queueOpEvent (op : Nat) (r : QueueReq) : Event :=
  match op with
  | 0 => .queueCreate r
  | 1 => .queueStop r
  | 2 => .queueResume r
  | 3 => .queueDestroy r
  | _ => .queueQuery r

/-- The translation context of the task of a core (R14). -/
def taskCtx (k : Core) : Nat := match k.task with | some t => t.ctx | none => 0

/-- QCTL (R139). -/
def writeQctl (s : State) (v : Nat) : State :=
  let m := (here s).mreg
  let keep := BitVec.ofNat 64 (bits v 27 3 * 2 ^ 27 + bits v 0 12)
  if !bit v 30 then retire (onRegs s fun m => { m with qctl := keep })
  else if bits v 32 32 ≠ 0 || bits v 12 15 ≠ 0 || 5 ≤ bits v 27 3 then raiseWord s tIllegal
  else if m.qBusy then stall s
  else
    due (retire (onRegs s fun m => { m with qctl := keep, qBusy := true }))
      [queueOpEvent (bits v 27 3) { src := .core s.core, ctx := taskCtx (here s), qid := bits v 0 12, arg := m.qarg }]

/-- Whether an entry may be written into a hub table (R32). -/
def tableLegal (s : State) (window : Bool) (idx : Nat) (ws : List W64) : Bool :=
  let w (i : Nat) : Nat := (lget ws i 0).toNat
  if window then
    (List.range 4).all (fun i => w (i + 4) == 0) && bits (w 0) 52 4 == 0 && bits (w 2) 2 22 == 0 && bits (w 3) 32 32 == 0
    && (!bit (w 0) 63
        || (16 ≤ bits (w 0) 56 6 && bits (w 0) 56 6 ≤ 40 && aligned (bits (w 0) 0 52) (2 ^ bits (w 0) 56 6)))
  else
    (List.range 6).all (fun i => w (i + 2) == 0) && bits (w 0) 48 16 == 0 && bits (w 0) 1 15 == 0
    && bits (w 1) 18 46 == 0 && (!bit (w 0) 0 || bits (w 0) 16 32 * 65536 < 2199023255552)
    && (bit (w 0) 0 || s.queues.all fun q => q.2.st == .free || q.2.ctx ≠ idx)

/-- HTCTL (R32). -/
def writeHtctl (s : State) (v : Nat) : State :=
  let m := (here s).mreg
  let idx := bits v 0 10
  let tbl := bit v 12
  let go := bit v 14
  let rd := bit v 13
  let keep := BitVec.ofNat 64 (b2n tbl * 4096 + idx)
  if bits v 16 48 ≠ 0 || bits v 10 2 ≠ 0 || (go && rd) || (!tbl && 256 ≤ idx)
      || (go && !tableLegal s tbl idx m.htd.toList) then raiseWord s tIllegal
  else if !go && !rd then retire (onRegs s fun m => { m with htctl := keep })
  else if m.htBusy then stall s
  else
    let r : TableReq := { src := .core s.core, window := tbl, idx, words := m.htd.toList }
    due (retire (onRegs s fun m => { m with htctl := keep, htBusy := true }))
      [if go then .hubTableWrite r else .hubTableRead r]

/-- A management register write in handler mode (R249). The reserved bits of FMTBASE and FMTLEN, which R38's map marks as SDVA's, trap at their
own sysw; those of FMTCTL written without GO are dropped (log 103). -/
def writeMgmt (s : State) (x : Nat) (v : W64) : State :=
  let n := v.toNat
  match x with
  | 0x100 =>
    if bits n 52 12 ≠ 0 || bits n 0 16 ≠ 0 then raiseWord s tIllegal else retire (onRegs s fun m => { m with sdva := v })
  | 0x101 => if bits n 25 39 ≠ 0 then raiseWord s tIllegal else retire (onRegs s fun m => { m with sdlen := v })
  | 0x102 => writeSdctl s n
  | 0x108 =>
    if bits n 48 16 ≠ 0 || bits n 0 16 ≠ 0 then raiseWord s tIllegal else retire (onRegs s fun m => { m with fmtbase := v })
  | 0x109 => if bits n 25 39 ≠ 0 then raiseWord s tIllegal else retire (onRegs s fun m => { m with fmtlen := v })
  | 0x10A => writeFmtctl s n
  | 0x110 => retire (onRegs s fun m => { m with rglo := v })
  | 0x111 => retire (onRegs s fun m => { m with rghi := v })
  | 0x112 => writeRgctl s n
  | 0x11A => writeShctl s n
  | 0x120 => retire (onRegs s fun m => { m with pgopva := v })
  | 0x121 => retire (onRegs s fun m => { m with pgopdst := v })
  | 0x122 => retire (onRegs s fun m => { m with pgopca := v })
  | 0x123 => writePgopctl s n
  | 0x130 => retire (onRegs s fun m => { m with qarg := v })
  | 0x131 => writeQctl s n
  | 0x140 => writeHtctl s n
  | _ =>
    if 0x138 ≤ x ∧ x < 0x140 then retire (onRegs s fun m => { m with htd := vset m.htd (x - 0x138) v })
    else raiseWord s tIllegal

/-- A write of NPDEF (R206). -/
def writeNpdef (s : State) (v : W64) : State :=
  if bits v.toNat 6 58 ≠ 0 then raiseWord s tIllegal
  else if 4 ≤ v.toNat then raiseWord s tProfile
  else retire (onSys s fun r => { r with npdef := v.setWidth 6 })

/-- A write of FPFLAGS (R200). -/
def writeFpflags (s : State) (v : W64) : State :=
  if bits v.toNat 7 57 ≠ 0 then raiseWord s tIllegal else retire (setFlags s (v.setWidth 7))

/-- A write of DBGCTL (R249, R250). -/
def writeDbgctl (s : State) (v : W64) : State :=
  let k := here s
  if bits v.toNat 2 62 ≠ 0 then raiseWord s tIllegal
  else if !k.handler && bit v.toNat 1 ≠ k.sys.step then raiseWord s tPrivileged
  else retire (onSys s fun r => { r with step := bit v.toNat 1, pend := bit v.toNat 0 })

/-- A handler-mode write of a trap register (R397). -/
def writeTrapReg (s : State) (x : Nat) (v : W64) : State :=
  let n := v.toNat
  match x with
  | 0x010 =>
    if bits n 52 12 ≠ 0 || bits n 0 2 ≠ 0 then raiseWord s tIllegal else retire (onSys s fun r => { r with trapvec := v })
  | 0x011 => if bits n 8 56 ≠ 0 then raiseWord s tIllegal else retire (onSys s fun r => { r with trapcode := v })
  | 0x012 => retire (onSys s fun r => { r with trapaddr := v })
  | 0x013 =>
    if bits n 52 12 ≠ 0 || bits n 0 2 ≠ 0 then raiseWord s tIllegal else retire (onSys s fun r => { r with epc := v })
  | _ => if bits n 32 27 ≠ 0 then raiseWord s tIllegal else retire (onSys s fun r => { r with estat := v })

/-- sysr (R249). -/
def readSys (s : State) (d : BitVec 5) (x : Nat) : State :=
  if 0x100 ≤ x ∧ (here s).handler = false then raiseWord s tPrivileged
  else
    let r := sysValue s x
    retire (onHere r.1 fun k => setSreg k d r.2)

/-- sysw, in the order of R249: access by mode, reserved bits, value rules. -/
def writeSys (s : State) (x : Nat) (v : W64) : State :=
  let handler := (here s).handler
  match x with
  | 0x008 => writeNpdef s v
  | 0x009 => writeFpflags s v
  | 0x00A => writeDbgctl s v
  | _ =>
    if !handler then raiseWord s tPrivileged
    else if 0x100 ≤ x then writeMgmt s x v
    else if 0x010 ≤ x ∧ x ≤ 0x014 then writeTrapReg s x v
    else raiseWord s tIllegal

end Sys2Proof.Machine
end

