-- ==== Sys2Proof/Machine/Fetch.lean ====
section
/-! DEFINITION. Fetching words and groups of a task (R169, R216, R217), and which words hold the splitter, read or write
masks and generators. -/

namespace Sys2Proof.Machine

/-- What a fetch comes to: words, a wait for a line, or a trap with its code, TRAPADDR and DETAIL. -/
inductive Fetched (α : Type) where
  | ok (a : α)
  | wait
  | trap (code addr detail : Nat)
  deriving DecidableEq, Repr

/-- Fetch one word (R169): translated in the queue's context with read intent and read as a strong access (R26, R102). -/
def fetchWord (s : State) (c va : Nat) : State × Fetched Nat :=
  let ctx := taskCtx (getCore s c)
  let t := translate s c ctx va 0
  let h := mkHandle t.2 ctx va
  let s := t.1
  if hRes h = 3 then (s, .trap tNotPresent va (4 + hCause h))
  else if hEo h then (s, .trap tOwnership va 0)
  else
    match permit s (.strong c) ctx va 4 false true with
    | (.no, a) => (s, .trap tOwnership a 0)
    | (.wait, _) => (s, .wait)
    | (.yes, _) =>
      match handleRead s h va 4 with
      | (s, .data bs) => if anyPois bs then (s, .trap tPoisonUse va 2) else (s, .ok (leVal bs))
      | (s, .remote) =>
        match Map.find (getCore s c).fetched va with
        | some (st, bs) =>
          let k := getCore s c
          let gone := setCore s c { k with fetched := Map.erase k.fetched va }
          match st with
          | .ok => if anyPois bs then (gone, .trap tPoisonUse va 2) else (s, .ok (leVal bs))
          | .ownership => (gone, .trap tOwnership va 0)
          | .notPresent cause => (gone, .trap tNotPresent va (4 + cause))
        | none =>
          match windowTarget s (hFrame h) va 4 with
          | none => (s, .trap tNotPresent va 5)
          | some (win, t) =>
            if s.fab.lines.any fun l => l.use = .fetch c va then (s, .wait)
            else if unreachable s (bits win.w2.toNat 48 16) && !bit win.w0.toNat 62 then (s, .trap tNotPresent va 5)
            else (sendLine s win t 4 none 0 (.fetch c va) va (handlePage h), .wait)

/-- Fetch the words from `va` until `enough` says so; at most `fuel`. -/
def fetchWords (c va : Nat) (enough : List Nat → Bool) : Nat → State → List Nat → State × Fetched (List Nat)
  | 0, s, ws => (s, .ok ws)
  | fuel + 1, s, ws =>
    if enough ws then (s, .ok ws)
    else
      match fetchWord s c ((va + 4 * ws.length) % 18446744073709551616) with
      | (s, .ok w) => fetchWords c va enough fuel s (ws ++ [w])
      | (s, .wait) => (s, .wait)
      | (s, .trap a b d) => (s, .trap a b d)

/-- Fetch and check the group at `va` (R216, R217): the group with its words. -/
def fetchGroup (s : State) (c va : Nat) : State × Fetched (Group × List Nat) :=
  match fetchWords c va (fun ws => decide (groupNeeds ws ≤ ws.length)) 4 s [] with
  | (s, .ok ws) =>
    match decodeIn (wordsLeft va) ws with
    | .ok g => (s, .ok (g, ws))
    | .error e => (s, .trap e.code (va + 4 * e.idx) 0)
  | (s, .wait) => (s, .wait)
  | (s, .trap a b d) => (s, .trap a b d)

/-- The engine of a head word (R215). -/
def headEngine (w : Nat) : Eng := engOf (w / 536870912)

/-- The S words after which the splitter steers nothing until they have executed (R184, R249). -/
def holdsSplitter : Instr → Bool
  | .b _ | .bc _ _ _ _ | .bz _ _ | .bnz _ _ | .call _ | .jr _ | .trap _ | .eret | .bkpt _ | .endTask | .wstart _ _ => true
  | .sysw _ x => x = 8 || x = 10 || x = 16
  | _ => false

/-- The mask register that a V word writes (R261). -/
def writesMask : Instr → Option (BitVec 3)
  | .vcmp n _ _ _ _ _ => some n
  | .mand d _ _ | .mor d _ _ | .mxor d _ _ => some d
  | .mnot d _ => some d
  | _ => none

/-- The generator whose snapshot a word takes (R266). -/
def readsGen : Instr → Option (BitVec 3)
  | .bld _ _ g _ | .bldLut4 _ _ g _ | .mma _ _ _ g _ _ _ _ => some g
  | .tld g _ => some g
  | _ => none

/-- The generator that an L word changes (R266). -/
def writesGen : Instr → Option (BitVec 3)
  | .agset g _ _ => some g
  | .agdim g _ _ _ => some g
  | .agind g _ _ => some g
  | .agstep g _ _ => some g
  | _ => none

/-- Whether a queue holds a word that satisfies a condition. -/
def anyQueued (i : Issue) (f : QWord → Bool) : Bool := i.queues.toList.any fun q => q.any f

/-- What a word waits for beside its tokens: a snapshot for the earlier L words, a change of a generator for the earlier
snapshots (R266), an lbrk for the earlier writers of its mask (R261), a scalar word for the walk of an xlat whose slot has
come (R25), S words for the end of Wick (R254), and end for every word before it (R176, R255: it waits for the commit). -/
def unblocked (k : Core) (w : QWord) : Bool :=
  (match readsGen w.instr with | some _ => decide (w.lref ≤ issued k.iss 1) | none => true)
  && (match writesGen w.instr with
      | some g => !anyQueued k.iss fun c => decide (c.seq < w.seq) && readsGen c.instr == some g
      | none => true)
  && (match w.instr with
      | .lbrk _ _ m => !anyQueued k.iss fun c => decide (c.seq < w.seq) && writesMask c.instr == some m
      | .endTask => othersRetired k
      | _ => true)
  && (w.eng ≠ .s || (!k.wick.run && !k.iss.hpend.any fun p => p.val.isNone && decide (p.due ≤ vget k.iss.slots 0 0)))

end Sys2Proof.Machine
end

