-- ==== Sys2Proof/Machine/Flags.lean ====
section
/-! DEFINITION. The flags of FPFLAGS (R200) and the conditions of branches and compares. -/

namespace Sys2Proof.Machine

/-- The bits of FPFLAGS (R200). -/
def fNX : BitVec 7 := 1
def fUF : BitVec 7 := 2
def fOF : BitVec 7 := 4
def fDZ : BitVec 7 := 8
def fNV : BitVec 7 := 16
def fSAT : BitVec 7 := 32
def fAL : BitVec 7 := 64

/-- A flag where a condition holds. -/
def flagIf (c : Bool) (f : BitVec 7) : BitVec 7 := if c then f else 0

/-- The conditions of bc (R224): eq, ne, lt, ge signed, ltn, gen unsigned. -/
def branchCond (c : BitVec 3) (a b : W64) : Bool :=
  match c.toNat with
  | 0 => a == b
  | 1 => a != b
  | 2 => a.slt b
  | 3 => !a.slt b
  | 4 => a.ult b
  | _ => !a.ult b

/-- A truth value in a scalar register. -/
def boolW (b : Bool) : W64 := if b then 1 else 0

end Sys2Proof.Machine
end

