-- ==== Sys2Proof/Machine/Formats.lean ====
section
/-! DEFINITION. Number formats, rounding and conversion (spec/08_number_formats_and_reduction_tree.md R187 to R199). -/

namespace Sys2Proof.Machine

/-- Sticky flags in the layout of FPFLAGS (R200). -/
abbrev FlagSet := BitVec 7

/-- The value of an encoding: a NaN with its sign, its quiet bit and its fraction of `fw` bits, an infinity, or a finite
number m × 2^e with a sign (zero where m is 0). -/
inductive FVal where
  | nan (neg quiet : Bool) (frac fw : Nat)
  | inf (neg : Bool)
  | fin (neg : Bool) (m : Nat) (e : Int)
  deriving DecidableEq, Repr

/-- The default NaN (R188): positive, quiet bit alone. -/
def defaultNaN : FVal := .nan false true 1 1

/-- Whether a value is a signalling NaN (R188). -/
def signalling : FVal → Bool
  | .nan _ q _ _ => !q
  | _ => false

def FVal.isNaN : FVal → Bool
  | .nan _ _ _ _ => true
  | _ => false

def FVal.isInf : FVal → Bool
  | .inf _ => true
  | _ => false

def FVal.isZero : FVal → Bool
  | .fin _ m _ => m == 0
  | _ => false

/-- The sign of a value. -/
def FVal.neg : FVal → Bool
  | .nan n _ _ _ => n
  | .inf n => n
  | .fin n _ _ => n

/-- Special encodings of a float format (R188): infinities and NaNs, E4M3's NaN alone, or none. -/
inductive Special where
  | ieee | e4m3 | plain
  deriving DecidableEq, Repr

/-- A float format (R188, R190): fraction bits, exponent bits, bias, its special encodings, and the low zero bits of its
stored form. -/
structure FFmt where
  mant : Nat
  expw : Nat
  bias : Nat
  spec : Special
  low  : Nat
  deriving DecidableEq, Repr

def fFP32 : FFmt := { mant := 23, expw := 8, bias := 127, spec := .ieee, low := 0 }
def fFP16 : FFmt := { mant := 10, expw := 5, bias := 15, spec := .ieee, low := 0 }
def fBF16 : FFmt := { mant := 7, expw := 8, bias := 127, spec := .ieee, low := 0 }
def fE4M3 : FFmt := { mant := 3, expw := 4, bias := 7, spec := .e4m3, low := 0 }
def fE5M2 : FFmt := { mant := 2, expw := 5, bias := 15, spec := .ieee, low := 0 }
def fE2M1 : FFmt := { mant := 1, expw := 2, bias := 1, spec := .plain, low := 0 }
def fI40 : FFmt := { mant := 39, expw := 15, bias := 16383, spec := .ieee, low := 9 }

/-- The exponent of the smallest normal number. -/
def FFmt.emin (f : FFmt) : Int := 1 - f.bias

/-- The exponent of the largest finite number, and its significand as an integer of mant + 1 bits. -/
def FFmt.emax (f : FFmt) : Int :=
  match f.spec with
  | .ieee => (2 ^ f.expw - 2 : Nat) - (f.bias : Int)
  | _ => (2 ^ f.expw - 1 : Nat) - (f.bias : Int)

def FFmt.maxSig (f : FFmt) : Nat :=
  match f.spec with
  | .e4m3 => 14
  | _ => 2 ^ (f.mant + 1) - 1

/-- Bits of an encoding from its fields. -/
def FFmt.pack (f : FFmt) (neg : Bool) (e m : Nat) : Nat :=
  ((b2n neg * 2 ^ f.expw + e) * 2 ^ f.mant + m) * 2 ^ f.low

/-- The value of an encoding (R188, R190). -/
def FFmt.value (f : FFmt) (x : Nat) : FVal :=
  let x := x / 2 ^ f.low
  let m := x % 2 ^ f.mant
  let e := x / 2 ^ f.mant % 2 ^ f.expw
  let neg := bit x (f.mant + f.expw)
  let top := e == 2 ^ f.expw - 1
  match f.spec with
  | .ieee =>
    if top then if m = 0 then .inf neg else .nan neg (bit m (f.mant - 1)) m f.mant
    else if e = 0 then .fin neg m (1 - f.bias - f.mant)
    else .fin neg (2 ^ f.mant + m) ((e : Int) - f.bias - f.mant)
  | .e4m3 =>
    if top && m == 7 then .nan neg true m 3
    else if e = 0 then .fin neg m (1 - f.bias - f.mant)
    else .fin neg (2 ^ f.mant + m) ((e : Int) - f.bias - f.mant)
  | .plain =>
    if e = 0 then .fin neg m (1 - f.bias - f.mant)
    else .fin neg (2 ^ f.mant + m) ((e : Int) - f.bias - f.mant)

/-- A NaN delivered in a format, quieted (R198). -/
def FFmt.nanBits (f : FFmt) (neg : Bool) (frac fw : Nat) : Nat :=
  match f.spec with
  | .ieee =>
    let m := if f.mant ≤ fw then frac / 2 ^ (fw - f.mant) else frac * 2 ^ (f.mant - fw)
    let m := m % 2 ^ (f.mant - 1) + 2 ^ (f.mant - 1)
    f.pack neg (2 ^ f.expw - 1) m
  | .e4m3 => f.pack neg 15 7
  | .plain => 0

/-- An infinity, or the largest finite number, of a format. -/
def FFmt.infBits (f : FFmt) (neg : Bool) : Nat := f.pack neg (2 ^ f.expw - 1) 0
def FFmt.maxBits (f : FFmt) (neg : Bool) : Nat :=
  f.pack neg (match f.spec with | .ieee => 2 ^ f.expw - 2 | _ => 2 ^ f.expw - 1) (f.maxSig - 2 ^ f.mant)

/-- Rounding of the quotient of m × 2^e by 2^u to an integer (R197): the rounded integer, and whether it is inexact. -/
def roundScaled (neg : Bool) (m : Nat) (e u : Int) (rm : BitVec 2) : Nat × Bool :=
  if u ≤ e then (m * 2 ^ (e - u).toNat, false)
  else
    let n := (u - e).toNat
    let r := m / 2 ^ n
    let rest := m % 2 ^ n
    let half := 2 ^ (n - 1)
    let up := match rm.toNat with
      | 0 => decide (half < rest) || (rest == half && r % 2 == 1)
      | 1 => false
      | 2 => !neg && rest ≠ 0
      | _ => neg && rest ≠ 0
    (if up then r + 1 else r, rest ≠ 0)

/-- The outcome of a finite overflow (R199). -/
def FFmt.overflow (f : FFmt) (neg : Bool) (rm : BitVec 2) (sat : Bool) : Nat × FlagSet :=
  let fl := fOF ||| fNX ||| flagIf sat fSAT
  match f.spec with
  | .plain => (f.maxBits neg, fl)
  | _ =>
    let toInf := match rm.toNat with
      | 0 => true
      | 1 => false
      | 2 => !neg
      | _ => neg
    if sat || !toInf then (f.maxBits neg, fl)
    else (if f.spec = .e4m3 then f.pack neg 15 7 else f.infBits neg, fl)

/-- round(x, f, rm) of R197 for a finite x, with the overflow of R199. -/
def FFmt.round (f : FFmt) (neg : Bool) (m : Nat) (e : Int) (rm : BitVec 2) (sat : Bool) : Nat × FlagSet :=
  if m = 0 then (f.pack neg 0 0, 0)
  else
    let top := max ((Nat.log2 m : Int) + e) f.emin
    let r := roundScaled neg m e (top - f.mant) rm
    let carry := decide (2 ^ (f.mant + 1) ≤ r.1)
    let sig := if carry then r.1 / 2 else r.1
    let top := if carry then top + 1 else top
    if f.emax < top ∨ (top = f.emax ∧ f.maxSig < sig) then f.overflow neg rm sat
    else
      let small := decide (sig < 2 ^ f.mant)
      (if small then f.pack neg 0 sig else f.pack neg (top + f.bias).toNat (sig - 2 ^ f.mant),
        flagIf r.2 fNX ||| flagIf (r.2 && small) fUF)

/-- sat_cvt to a float format (R199). -/
def FFmt.cvt (f : FFmt) (x : FVal) (rm : BitVec 2) (sat : Bool) : Nat × FlagSet :=
  match x with
  | .nan neg q frac fw =>
    if f.spec = .plain then (0, fNV) else (f.nanBits neg frac fw, flagIf (!q) fNV)
  | .inf neg =>
    if f.spec = .plain || sat then (f.maxBits neg, flagIf sat fSAT)
    else (if f.spec = .e4m3 then f.pack neg 15 7 else f.infBits neg, 0)
  | .fin neg m e => f.round neg m e rm sat

/-- round_rne. -/
def FFmt.rne (f : FFmt) (x : FVal) : Nat × FlagSet := f.cvt x 0 false

/-! ### Format codes (R187) -/

/-- The float format of a code. -/
def floatFmt (code : Nat) : Option FFmt :=
  match code with
  | 0 => some fFP32
  | 1 => some fFP16
  | 2 => some fBF16
  | 3 => some fE4M3
  | 4 => some fE5M2
  | 5 => some fE2M1
  | _ => none

/-- The width in bits of an element of a code (R187). -/
def codeWidth (code : Nat) : Nat :=
  match code with
  | 0 => 32 | 1 => 16 | 2 => 16 | 3 => 8 | 4 => 8 | 5 => 4 | 6 => 8 | 7 => 4 | 8 => 8 | 9 => 16 | 10 => 32 | 11 => 64
  | 12 => 8 | 13 => 16 | 14 => 32 | 15 => 64 | 16 => 4 | 17 => 4 | 18 => 8 | 19 => 8 | 20 => 4 | _ => 0

/-- Whether a code is a signed or an unsigned integer format (R191). -/
def codeSigned (code : Nat) : Bool := (8 ≤ code && code ≤ 11) || code == 16
def codeUnsigned (code : Nat) : Bool := (12 ≤ code && code ≤ 15) || code == 17
def codeInt (code : Nat) : Bool := codeSigned code || codeUnsigned code

/-- The format of an element: that of the block's elements for an MX code (R194), else the code itself. -/
def mxElement (code : Nat) : Nat :=
  match code with
  | 18 => 3
  | 19 => 4
  | 20 => 5
  | _ => code

/-- An integer as an exact value. -/
def ofInt (x : Int) : FVal := .fin (decide (x < 0)) x.natAbs 0

/-- The integer that an element of an integer code holds (R191). -/
def intOf (code x : Nat) : Int :=
  if codeSigned code then sextN (codeWidth code) x else (x % 2 ^ codeWidth code : Nat)

/-- E8M0 (R192). -/
def e8m0 (x : Nat) : FVal := if x % 256 = 255 then defaultNaN else .fin false 1 ((x % 256 : Nat) - 127)

/-- The value of an element by its code (R187 to R192); LUT4 codes are decoded by their table before this. -/
def elemValue (code x : Nat) : FVal :=
  match floatFmt code with
  | some f => f.value (x % 2 ^ codeWidth code)
  | none => if code = 6 then e8m0 x else ofInt (intOf code x)

/-- The smallest and largest integers of a code (R191). -/
def intMin (code : Nat) : Int := if codeSigned code then -(2 ^ (codeWidth code - 1) : Nat) else 0
def intMax (code : Nat) : Int :=
  if codeSigned code then (2 ^ (codeWidth code - 1) - 1 : Nat) else (2 ^ codeWidth code - 1 : Nat)

/-- An integer clamped to a code's range: bits, and whether it changed. -/
def clampInt (code : Nat) (x : Int) : Nat × Bool :=
  let y := max (intMin code) (min (intMax code) x)
  (lowN (codeWidth code) y, y ≠ x)

/-- sat_cvt to an integer format (R199). -/
def cvtInt (code : Nat) (x : FVal) (rm : BitVec 2) (sat : Bool) : Nat × FlagSet :=
  match x with
  | .nan _ _ _ _ => (0, fNV)
  | .inf neg => (lowN (codeWidth code) (if neg then intMin code else intMax code), fNV ||| flagIf sat fSAT)
  | .fin neg m e =>
    let r := roundScaled neg m e 0 rm
    let c := clampInt code (if neg then -(r.1 : Int) else r.1)
    if c.2 then (c.1, fNV ||| flagIf sat fSAT) else (c.1, flagIf r.2 fNX)

/-- Convert an element from code `g` to code `f` (R199, R283): bits and flags. -/
def convert (f g x : Nat) (rm : BitVec 2) (sat : Bool) : Nat × FlagSet :=
  let x := x % 2 ^ codeWidth g
  if f = g then (x, 0)
  else
    match floatFmt f with
    | some fmt => fmt.cvt (elemValue g x) rm sat
    | none =>
      if codeInt g then
        if sat then let c := clampInt f (intOf g x); (c.1, flagIf c.2 fSAT)
        else (lowN (codeWidth f) (intOf g x), 0)
      else cvtInt f (elemValue g x) rm sat

/-! ### Exact arithmetic -/

/-- A finite value as a signed integer at a scale not above its own. -/
def scaled (x : FVal) (e : Int) : Int :=
  match x with
  | .fin neg m ex => let y : Int := (m * 2 ^ (ex - e).toNat : Nat); if neg then -y else y
  | _ => 0

/-- The scale of a finite value. -/
def scaleOf : FVal → Int
  | .fin _ _ e => e
  | _ => 0

/-- The first NaN of a list of operands (R198), and NV where any is signalling. -/
def nanRule (xs : List FVal) : Option (FVal × FlagSet) :=
  (xs.find? FVal.isNaN).map fun x => (x, flagIf (xs.any signalling) fNV)

/-- The exact sum of two values that are no NaN; an exact zero by R277, where `rdn` holds for rounding toward −∞. -/
def addNumbers (x y : FVal) (rdn : Bool) : FVal × FlagSet :=
  match x, y with
  | .inf a, .inf b => if a = b then (.inf a, 0) else (defaultNaN, fNV)
  | .inf a, _ => (.inf a, 0)
  | _, .inf b => (.inf b, 0)
  | _, _ =>
    let e := min (scaleOf x) (scaleOf y)
    let t := scaled x e + scaled y e
    if t = 0 then (.fin (rdn || (x.isZero && y.isZero && x.neg && y.neg)) 0 0, 0)
    else (.fin (decide (t < 0)) t.natAbs e, 0)

/-- The exact sum, NaN operands first. -/
def addExact (x y : FVal) (rdn : Bool) : FVal × FlagSet :=
  match nanRule [x, y] with
  | some r => r
  | none => addNumbers x y rdn

/-- The exact product of two values that are no NaN. -/
def mulNumbers (x y : FVal) : FVal × FlagSet :=
  let neg := x.neg != y.neg
  match x, y with
  | .fin _ m e, .fin _ n f => (.fin neg (m * n) (e + f), 0)
  | _, _ => if x.isZero || y.isZero then (defaultNaN, fNV) else (.inf neg, 0)

/-- The exact product, NaN operands first. -/
def mulExact (x y : FVal) : FVal × FlagSet :=
  match nanRule [x, y] with
  | some r => r
  | none => mulNumbers x y

/-- A value with its sign changed; a NaN keeps its own. -/
def negate : FVal → FVal
  | .nan n q f w => .nan n q f w
  | .inf n => .inf (!n)
  | .fin n m e => .fin (!n) m e

/-- Whether a product is 0 × ∞ (R277). -/
def zeroTimesInf (x y : FVal) : Bool := (x.isZero && y.isInf) || (x.isInf && y.isZero)

/-- x × y + z exactly, the NaN operands in the order given (R277). -/
def fmaExact (x y z : FVal) (negProd rdn : Bool) (order : List FVal) : FVal × FlagSet :=
  match nanRule order with
  | some r => (r.1, r.2 ||| flagIf (zeroTimesInf x y) fNV)
  | none =>
    let p := mulNumbers x y
    if p.1.isNaN then p else addNumbers (if negProd then negate p.1 else p.1) z rdn

/-- The exact order of two values that are no NaN; −0 and +0 are equal. -/
def compareVals (x y : FVal) : Ordering :=
  match x, y with
  | .inf a, .inf b => if a = b then .eq else if a then .lt else .gt
  | .inf a, _ => if a then .lt else .gt
  | _, .inf b => if b then .gt else .lt
  | _, _ =>
    let e := min (scaleOf x) (scaleOf y)
    compare (scaled x e) (scaled y e)

/-- min2 and max2 of FP32 encodings (R277). -/
def min2 (a b : Nat) : Nat × FlagSet :=
  let x := fFP32.value a
  let y := fFP32.value b
  match nanRule [x, y] with
  | some r => fFP32.cvt r.1 0 false |> fun c => (c.1, r.2)
  | none => if compareVals x y = .lt || (compareVals x y = .eq && x.neg) then (a, 0) else (b, 0)

def max2 (a b : Nat) : Nat × FlagSet :=
  let x := fFP32.value a
  let y := fFP32.value b
  match nanRule [x, y] with
  | some r => fFP32.cvt r.1 0 false |> fun c => (c.1, r.2)
  | none => if compareVals x y = .gt || (compareVals x y = .eq && !x.neg) then (a, 0) else (b, 0)

end Sys2Proof.Machine
end

