-- ==== Sys2Proof/Machine/Tree.lean ====
section
/-! DEFINITION. The reduction tree, block values, profiles and the carry stack (spec/08_number_formats_and_reduction_tree.md
R201 to R214). -/

namespace Sys2Proof.Machine

/-- The node format of a profile (R205, R211). -/
def nodeFmt (np : Nat) : FFmt := if np ≤ 1 then fFP32 else fI40

/-- A node with its poison; a poisoned result sets no flag (R55). -/
def mkNode (r : Nat × FlagSet) (pois : Bool) : Node × FlagSet := (.val r.1 pois, if pois then 0 else r.2)

/-- combine of R202 under a profile. -/
def combineSum (np : Nat) (a b : Node) : Node × FlagSet :=
  match a, b with
  | .absent, _ => (b, 0)
  | _, .absent => (a, 0)
  | .val x p, .val y q =>
    let f := nodeFmt np
    let e := addExact (f.value x) (f.value y) false
    let r := f.rne e.1
    mkNode (r.1, r.2 ||| e.2) (p || q)

/-- A combine of two FP32 or integer nodes that does not round. -/
def combineExact (g : Nat → Nat → Nat × FlagSet) (a b : Node) : Node × FlagSet :=
  match a, b with
  | .absent, _ => (b, 0)
  | _, .absent => (a, 0)
  | .val x p, .val y q => mkNode (g x y) (p || q)

/-- An affine pair in one number: a below, b from bit 64 on (R210). -/
def pairOf (a b : Nat) : Nat := a % 18446744073709551616 + b * 18446744073709551616

/-- The pair combine of R210. -/
def combineAffine (np : Nat) (x y : Node) : Node × FlagSet :=
  match x, y with
  | .absent, _ => (y, 0)
  | _, .absent => (x, 0)
  | .val l p, .val r q =>
    let f := nodeFmt np
    let a1 := f.value (l % 18446744073709551616)
    let b1 := f.value (l / 18446744073709551616)
    let a2 := f.value (r % 18446744073709551616)
    let b2 := f.value (r / 18446744073709551616)
    let ea := mulExact a1 a2
    let eb := match nanRule [b1, a2, b2] with
      | some n => n
      | none => let m := mulNumbers a2 b1; if m.1.isNaN then m else addNumbers m.1 b2 false
    let ra := f.rne ea.1
    let rb := f.rne eb.1
    mkNode (pairOf ra.1 rb.1, ra.2 ||| rb.2 ||| ea.2 ||| eb.2) (p || q)

/-- One level of the tree: neighbours combined, a last one without a right neighbour unchanged (R201, R202). -/
def pairUp (f : Node → Node → Node × FlagSet) : List Node → List Node × FlagSet
  | a :: b :: l =>
    let r := f a b
    let m := pairUp f l
    (r.1 :: m.1, r.2 ||| m.2)
  | l => (l, 0)

/-- tree_fold of R202; `fuel` bounds the levels. -/
def treeFold (f : Node → Node → Node × FlagSet) : Nat → List Node → Node × FlagSet
  | _, [] => (.absent, 0)
  | _, [a] => (a, 0)
  | 0, a :: _ => (a, 0)
  | fuel + 1, l =>
    let r := pairUp f l
    let t := treeFold f fuel r.1
    (t.1, r.2 ||| t.2)

/-- carry_merge of R207 from a level on: `n` counts the leaves of the levels, and bit `lvl` of n tells whether a level is
occupied. -/
def carryMerge (f : Node → Node → Node × FlagSet) (n : Nat) : Nat → Nat → Map Node → Node → Map Node × FlagSet
  | 0, lvl, st, v => (Map.set st lvl v, 0)
  | fuel + 1, lvl, st, v =>
    if bit n lvl then
      let r := f (Map.get .absent st lvl) v
      let m := carryMerge f n fuel (lvl + 1) (Map.erase st lvl) r.1
      (m.1, r.2 ||| m.2)
    else (Map.set st lvl v, 0)

/-- The stack's entries folded onto a node, the lowest level first and the higher entry left (R207 to R209). -/
def foldOnto (f : Node → Node → Node × FlagSet) (st : Map Node) (v : Node) : Node × FlagSet :=
  st.foldl (fun r e => let c := f e.2 r.1; (c.1, r.2 ||| c.2)) (v, 0)

/-- close_fold of R207. -/
def closeFold (f : Node → Node → Node × FlagSet) (st : Map Node) : Node × FlagSet := foldOnto f st .absent

/-! ### Block values (R203, R204, R291) -/

/-- A leaf: its value and poison, or absent. -/
abbrev Leaf := Option (FVal × Bool)

/-- The block value of plain leaves (R291), rounded once to the profile's node format. -/
def blockPlain (np : Nat) (ls : List Leaf) : Node × FlagSet :=
  let xs := ls.filterMap fun l => l.map (·.1)
  let pois := ls.any fun l => match l with | some x => x.2 | none => false
  let f := nodeFmt np
  if xs.isEmpty then (.absent, 0)
  else
    match nanRule xs with
    | some r => mkNode ((f.rne r.1).1, r.2) pois
    | none =>
      if xs.any fun x => x.isInf then
        if xs.any (fun x => x.isInf && x.neg) && xs.any (fun x => x.isInf && !x.neg) then
          mkNode ((f.rne defaultNaN).1, fNV) pois
        else mkNode (f.rne (.inf (xs.any fun x => x.isInf && x.neg))) pois
      else
        let e := xs.foldl (fun e x => min e (scaleOf x)) 0
        let t := xs.foldl (fun t x => t + scaled x e) 0
        let z := if t = 0 then FVal.fin (xs.all FVal.neg) 0 0 else .fin (decide (t < 0)) t.natAbs e
        mkNode (f.rne z) pois

/-- align_block of R203 for the present elements: integers, the term W − 2 − E, and AL. An integer operand stands as it is.
An absent element is `none`. -/
def alignBlock (w : Option Nat) (v : List (Option FVal)) : List Int × Int × Bool :=
  match w with
  | none => (v.map fun x => match x with | some y => scaled y 0 | none => 0, 0, false)
  | some w =>
    let logs := v.filterMap fun x => match x with
      | some (.fin _ m e) => if m = 0 then none else some ((Nat.log2 m : Int) + e)
      | _ => none
    let top := match logs with | [] => 0 | l :: ls => ls.foldl max l
    let sh : Int := (w : Int) - 2 - top
    let one (x : Option FVal) : Int × Bool := match x with
      | some (.fin neg m e) =>
        let r := roundScaled neg m e (-sh) 1
        (if neg then -(r.1 : Int) else r.1, r.2)
      | _ => (0, false)
    let qs := v.map one
    (qs.map (·.1), sh, qs.any (·.2))

/-- One operand of a block: elements before the block scale, the poison of each, the alignment width (none for integers),
and the block scale. -/
structure BlockSide where
  elems : List (Option FVal)
  pois  : List Bool
  width : Option Nat
  scale : FVal
  deriving DecidableEq, Repr

/-- The element values with the block scale in them, as far as NaN, infinity and sign are concerned (R194, R204): a NaN
scale makes every element the default NaN. -/
def scaledElem (s : BlockSide) (x : FVal) : FVal := if s.scale.isNaN then defaultNaN else x

/-- The block value of R204 as an exact value with flags; `none` where every pair is absent. -/
def blockExact (a b : BlockSide) : Option (FVal × FlagSet × Bool) :=
  let pairs := (a.elems.zip a.pois).zip (b.elems.zip b.pois)
  let here := pairs.filterMap fun p => match p.1.1, p.2.1 with
    | some x, some y => some (scaledElem a x, scaledElem b y, p.1.2 || p.2.2)
    | _, _ => none
  if here.isEmpty then none
  else
    let pois := here.any (·.2.2)
    let nanPair (p : FVal × FVal × Bool) : Bool := p.1.isNaN || p.2.1.isNaN || zeroTimesInf p.1 p.2.1
    let infPair (p : FVal × FVal × Bool) : Bool := !nanPair p && (p.1.isInf || p.2.1.isInf)
    let neg (p : FVal × FVal × Bool) : Bool := p.1.neg != p.2.1.neg
    match here.find? nanPair with
    | some p =>
      let sn := flagIf (here.any fun q => signalling q.1 || signalling q.2.1) fNV
      if p.1.isNaN then some (p.1, sn, pois)
      else if p.2.1.isNaN then some (p.2.1, sn, pois)
      else some (defaultNaN, sn ||| fNV, pois)
    | none =>
      if here.any infPair then
        if here.any (fun p => infPair p && neg p) && here.any (fun p => infPair p && !neg p) then
          some (defaultNaN, fNV, pois)
        else some (.inf (here.any fun p => infPair p && neg p), 0, pois)
      else
        let present := pairs.map fun p => p.1.1.isSome && p.2.1.isSome
        let mask (l : List (Option FVal)) : List (Option FVal) := (l.zip present).map fun x => if x.2 then x.1 else none
        let qa := alignBlock a.width (mask a.elems)
        let qb := alignBlock b.width (mask b.elems)
        let t := ((qa.1.zip qb.1).map fun p => p.1 * p.2).foldl (· + ·) (0 : Int)
        let e := -qa.2.1 - qb.2.1 + scaleOf a.scale + scaleOf b.scale
        let fl := flagIf (qa.2.2 || qb.2.2) fAL
        if t = 0 then
          some (.fin (here.all fun p => (p.1.isZero || p.2.1.isZero) && neg p) 0 0, fl, pois)
        else some (.fin (decide (t < 0)) t.natAbs e, fl, pois)

/-- The block value as a node (R204, R205). -/
def blockNode (np : Nat) (a b : BlockSide) : Node × FlagSet :=
  match blockExact a b with
  | none => (.absent, 0)
  | some (v, fl, pois) =>
    let r := (nodeFmt np).rne v
    mkNode (r.1, r.2 ||| fl) pois

/-- The root column of a profile (R205, R207): an FP32 value, +0 where the root is absent. -/
def rootValue (np : Nat) (v : Node) : Lane × FlagSet :=
  match v with
  | .absent => (⟨0, false⟩, 0)
  | .val x p =>
    if np ≤ 1 then (⟨BitVec.ofNat 32 x, p⟩, 0)
    else
      let r := fFP32.rne (fI40.value x)
      (⟨BitVec.ofNat 32 r.1, p⟩, if p then 0 else r.2)

/-- An FP32 value as a node of a profile: exact in I40 (R190, R207). -/
def nodeOf (np : Nat) (l : Lane) : Node :=
  if np ≤ 1 then .val l.val.toNat l.pois
  else
    match fFP32.value l.val.toNat with
    | .nan neg _ frac fw => .val (fI40.pack neg 32767 ((frac * 2 ^ (39 - fw)) % 2 ^ 39)) l.pois
    | v => .val (fI40.rne v).1 l.pois

/-- The profile of a word (R206): its field, or NPDEF as the word was steered; none traps with PROFILE. -/
def profileOf (np : Nat) (field : BitVec 6) : Option Nat :=
  if field.toNat = 63 then some np else if field.toNat < 4 then some field.toNat else none

end Sys2Proof.Machine
end

