-- ==== Sys2Proof/Machine/Vector.lean ====
section
/-! DEFINITION. The vector instructions but reductions and scans (spec/12_vector_instructions.md R269 to R288, R294 to
R298). -/

namespace Sys2Proof.Machine

/-- No mask: every lane (R269). -/
def allLanes : BitVec 128 := BitVec.allOnes 128

/-- A lane of a list. -/
def laneAt (l : List Lane) (i : Nat) : Lane := lget l i ⟨0, false⟩

/-- The active lanes of a mask, ascending. -/
def active (m : BitVec 128) : List Nat := (List.range 128).filter fun i => m.getLsbD i

/-- A trap of a read that meets a pending bit (R71): TRAPADDR holds the lane number. -/
def raiseLane (s : State) (code i detail : Nat) : State := raise s code (BitVec.ofNat 64 i) detail

/-- A poisoned lane reads as 0xFF in every byte (R55, R306). -/
def readLane (l : Lane) : Lane := if l.pois then ⟨0xFFFFFFFF, true⟩ else l

/-- Read registers under a mask, in order: their lanes, or the trap of the first pending one. -/
def readRegs (mask : BitVec 128) : List Nat → State → List (List Lane) → State × Option (List (List Lane))
  | [], s, acc => (s, some acc)
  | r :: rs, s, acc =>
    match vecSeen s r mask with
    | (s, _, some i) => (raiseLane s tPendingRead i 0, none)
    | (s, l, none) => readRegs mask rs s (acc ++ [l.map readLane])

/-- Write lanes of a register with an exposed latency, with the flags, and end the word (R271, R272, R274). -/
def writeLanes (s : State) (d : BitVec 5) (latency : Nat) (ls : List (Nat × Lane)) (fl : FlagSet) : State :=
  retire (orFlags (expose s latency (.lanes (ls.map fun l => (128 * d.toNat + l.1, l.2)))) latency fl)

/-- A lane-wise word: each active lane from the same lanes of its sources (R269). -/
def laneWise (s : State) (d : BitVec 5) (m : BitVec 3) (latency : Nat) (srcs : List (BitVec 5))
    (f : List W32 → W32 × FlagSet) : Host.Outcome State Fault Refusal :=
  let mask := mreg (here s) m
  match readRegs mask (srcs.map (·.toNat)) s [] with
  | (s, none) => .next s
  | (s, some rs) =>
    let out := (active mask).map fun i =>
      let ls := rs.map fun r => laneAt r i
      let p := ls.any (·.pois)
      let r := f (ls.map (·.val))
      ((i, (⟨r.1, p⟩ : Lane)), if p then (0 : FlagSet) else r.2)
    .next (writeLanes s d latency (out.map (·.1)) (out.foldl (fun a o => a ||| o.2) 0))

/-- An operand of a list of lane values. -/
def opd (l : List W32) (i : Nat) : W32 := lget l i 0

/-! ### Arithmetic (R275 to R278) -/

/-- An FP32 result in a lane. -/
def fpLane (x : FVal × FlagSet) (rm : BitVec 2) : W32 × FlagSet :=
  let r := fFP32.cvt x.1 rm false
  (BitVec.ofNat 32 r.1, r.2 ||| x.2)

/-- The FP32 value of a lane. -/
def fpOf (x : W32) : FVal := fFP32.value x.toNat

/-- A 32-bit integer result (R276): wrapped, or clamped with SAT. -/
def intLane (t : BitVec 2) (sat : BitVec 1) (x : Int) : W32 × FlagSet :=
  if sat = 1 then let c := clampInt (if t = 1 then 10 else 14) x; (BitVec.ofNat 32 c.1, flagIf c.2 fSAT)
  else (BitVec.ofInt 32 x, 0)

/-- A lane read as i32 (T = 1) or n32. -/
def intVal (t : BitVec 2) (x : W32) : Int := if t = 1 then x.toInt else x.toNat

/-- The latency of an arithmetic word (R271). -/
def arithLatency (t : BitVec 2) (f32 : Nat) : Nat := if t = 0 then f32 else 2

def execVadd (d a b : BitVec 5) (m : BitVec 3) (t r : BitVec 2) (q : BitVec 1) (s : State) :
    Host.Outcome State Fault Refusal :=
  laneWise s d m (arithLatency t 3) [a, b] fun l =>
    if t = 0 then fpLane (addExact (fpOf (opd l 0)) (fpOf (opd l 1)) (r == 3)) r
    else intLane t q (intVal t (opd l 0) + intVal t (opd l 1))

/-- vsub: a plus the negated b; the NaN of b keeps its sign (R198, R277). -/
def execVsub (d a b : BitVec 5) (m : BitVec 3) (t r : BitVec 2) (q : BitVec 1) (s : State) :
    Host.Outcome State Fault Refusal :=
  laneWise s d m (arithLatency t 3) [a, b] fun l =>
    if t = 0 then fpLane (addExact (fpOf (opd l 0)) (negate (fpOf (opd l 1))) (r == 3)) r
    else intLane t q (intVal t (opd l 0) - intVal t (opd l 1))

def execVmul (d a b : BitVec 5) (m : BitVec 3) (t r : BitVec 2) (q : BitVec 1) (s : State) :
    Host.Outcome State Fault Refusal :=
  laneWise s d m (arithLatency t 3) [a, b] fun l =>
    if t = 0 then fpLane (mulExact (fpOf (opd l 0)) (fpOf (opd l 1))) r
    else intLane t q (intVal t (opd l 0) * intVal t (opd l 1))

/-- A fused product and sum in FP32, the NaN order a, b, d (R277). -/
def fmaLane (l : List W32) (negProd negAdd : Bool) (r : BitVec 2) : W32 × FlagSet :=
  let a := fpOf (opd l 0)
  let b := fpOf (opd l 1)
  let d := fpOf (opd l 2)
  fpLane (fmaExact a b (if negAdd then negate d else d) negProd (r == 3) [a, b, d]) r

def execVfma (d a b : BitVec 5) (m : BitVec 3) (t r : BitVec 2) (q : BitVec 1) (s : State) :
    Host.Outcome State Fault Refusal :=
  laneWise s d m (arithLatency t 4) [a, b, d] fun l =>
    if t = 0 then fmaLane l false false r
    else intLane t q (intVal t (opd l 0) * intVal t (opd l 1) + intVal t (opd l 2))

def execVfms (d a b : BitVec 5) (m : BitVec 3) (t r : BitVec 2) (q : BitVec 1) (s : State) :
    Host.Outcome State Fault Refusal :=
  laneWise s d m (arithLatency t 4) [a, b, d] fun l =>
    if t = 0 then fmaLane l false true r
    else intLane t q (intVal t (opd l 0) * intVal t (opd l 1) - intVal t (opd l 2))

def execVfnma (d a b : BitVec 5) (m : BitVec 3) (t r : BitVec 2) (q : BitVec 1) (s : State) :
    Host.Outcome State Fault Refusal :=
  laneWise s d m (arithLatency t 4) [a, b, d] fun l =>
    if t = 0 then fmaLane l true false r
    else intLane t q (intVal t (opd l 2) - intVal t (opd l 0) * intVal t (opd l 1))

def execVmin (d a b : BitVec 5) (m : BitVec 3) (t : BitVec 2) (_q : BitVec 1) (s : State) :
    Host.Outcome State Fault Refusal :=
  laneWise s d m 2 [a, b] fun l =>
    if t = 0 then let r := min2 (opd l 0).toNat (opd l 1).toNat; (BitVec.ofNat 32 r.1, r.2)
    else (if intVal t (opd l 0) ≤ intVal t (opd l 1) then opd l 0 else opd l 1, 0)

def execVmax (d a b : BitVec 5) (m : BitVec 3) (t : BitVec 2) (_q : BitVec 1) (s : State) :
    Host.Outcome State Fault Refusal :=
  laneWise s d m 2 [a, b] fun l =>
    if t = 0 then let r := max2 (opd l 0).toNat (opd l 1).toNat; (BitVec.ofNat 32 r.1, r.2)
    else (if intVal t (opd l 1) ≤ intVal t (opd l 0) then opd l 0 else opd l 1, 0)

def execVabs (d a : BitVec 5) (m : BitVec 3) (t : BitVec 2) (q : BitVec 1) (s : State) :
    Host.Outcome State Fault Refusal :=
  laneWise s d m 2 [a] fun l =>
    if t = 0 then (opd l 0 &&& 0x7FFFFFFF, 0) else intLane t q (opd l 0).toInt.natAbs

def execVneg (d a : BitVec 5) (m : BitVec 3) (t : BitVec 2) (q : BitVec 1) (s : State) :
    Host.Outcome State Fault Refusal :=
  laneWise s d m 2 [a] fun l =>
    if t = 0 then (opd l 0 ^^^ 0x80000000, 0) else intLane t q (-(opd l 0).toInt)

def execVaddi (d a : BitVec 5) (m : BitVec 3) (i : BitVec 32) (s : State) : Host.Outcome State Fault Refusal :=
  laneWise s d m 2 [a] fun l => (opd l 0 + i, 0)

/-! ### Logic, shifts, compare, select, classify (R279 to R282) -/

def execVand (d a b : BitVec 5) (m : BitVec 3) (s : State) : Host.Outcome State Fault Refusal :=
  laneWise s d m 2 [a, b] fun l => (opd l 0 &&& opd l 1, 0)

def execVor (d a b : BitVec 5) (m : BitVec 3) (s : State) : Host.Outcome State Fault Refusal :=
  laneWise s d m 2 [a, b] fun l => (opd l 0 ||| opd l 1, 0)

def execVxor (d a b : BitVec 5) (m : BitVec 3) (s : State) : Host.Outcome State Fault Refusal :=
  laneWise s d m 2 [a, b] fun l => (opd l 0 ^^^ opd l 1, 0)

def execVnot (d a : BitVec 5) (m : BitVec 3) (s : State) : Host.Outcome State Fault Refusal :=
  laneWise s d m 2 [a] fun l => (~~~(opd l 0), 0)

def execVshl (d a b : BitVec 5) (m : BitVec 3) (s : State) : Host.Outcome State Fault Refusal :=
  laneWise s d m 2 [a, b] fun l => (opd l 0 <<< ((opd l 1).toNat % 32), 0)

def execVshr (d a b : BitVec 5) (m : BitVec 3) (s : State) : Host.Outcome State Fault Refusal :=
  laneWise s d m 2 [a, b] fun l => (opd l 0 >>> ((opd l 1).toNat % 32), 0)

def execVsra (d a b : BitVec 5) (m : BitVec 3) (s : State) : Host.Outcome State Fault Refusal :=
  laneWise s d m 2 [a, b] fun l => ((opd l 0).sshiftRight ((opd l 1).toNat % 32), 0)

/-- The conditions of vcmp (R280): the truth of cc, and NV for a signalling NaN. -/
def compareLane (t : BitVec 2) (c : BitVec 3) (a b : W32) : Bool × FlagSet :=
  let x := fpOf a
  let y := fpOf b
  let un := t = 0 && (x.isNaN || y.isNaN)
  let ord := if t = 0 then compareVals x y else compare (intVal t a) (intVal t b)
  let r := match c.toNat with
    | 0 => !un && ord == .eq
    | 1 => un || ord != .eq
    | 2 => !un && ord == .lt
    | 3 => !un && ord != .gt
    | 4 => !un && ord == .gt
    | 5 => !un && ord != .lt
    | _ => un
  (r, flagIf (t = 0 && (signalling x || signalling y)) fNV)

/-- A mask of 128 truth values. -/
def maskOf (l : List Nat) : BitVec 128 := BitVec.ofNat 128 (l.foldl (fun a i => a + 2 ^ i) 0)

/-- The lowest poisoned lane among those named. -/
def poisonedLane (ix : List Nat) (rs : List (List Lane)) : Option Nat :=
  ix.find? fun i => rs.any fun r => (laneAt r i).pois

def execVcmp (n : BitVec 3) (a b : BitVec 5) (m : BitVec 3) (t : BitVec 2) (c : BitVec 3) (s : State) :
    Host.Outcome State Fault Refusal :=
  let mask := mreg (here s) m
  match readRegs mask [a.toNat, b.toNat] s [] with
  | (s, none) => .next s
  | (s, some rs) =>
    match poisonedLane (active mask) rs with
    | some i => .next (raiseLane s tPoisonUse i 3)
    | none =>
      let out := (active mask).map fun i => (i, compareLane t c (laneAt (lget rs 0 []) i).val (laneAt (lget rs 1 []) i).val)
      let v := maskOf ((out.filter fun o => o.2.1).map (·.1))
      let fl := out.foldl (fun a o => a ||| o.2.2) (0 : FlagSet)
      .next (retire (orFlags (onHere s fun k => setMreg k n v) 1 fl))

/-- vsel: every lane from vA or vB by the mask (R281). -/
def execVsel (d a b : BitVec 5) (m : BitVec 3) (s : State) : Host.Outcome State Fault Refusal :=
  let mask := mreg (here s) m
  match readRegs mask [a.toNat] s [] with
  | (s, none) => .next s
  | (s, some ra) =>
    match readRegs (~~~mask) [b.toNat] s [] with
    | (s, none) => .next s
    | (s, some rb) =>
      let out := (List.range 128).map fun i =>
        (i, if mask.getLsbD i then laneAt (lget ra 0 []) i else laneAt (lget rb 0 []) i)
      .next (writeLanes s d 2 out 0)

/-- The class bit of an encoding (R282). -/
def classBit (f x : Nat) : Nat :=
  match floatFmt f with
  | none => 0
  | some fmt =>
    match fmt.value (x % 2 ^ codeWidth f) with
    | .nan _ q _ _ => if q then 9 else 8
    | .inf neg => if neg then 0 else 7
    | .fin neg m e =>
      if m = 0 then if neg then 3 else 4
      else
        let sub := decide (m < 2 ^ fmt.mant) && e == fmt.emin - fmt.mant
        if sub then if neg then 2 else 5 else if neg then 1 else 6

def execVclass (d a : BitVec 5) (m : BitVec 3) (f : BitVec 5) (s : State) : Host.Outcome State Fault Refusal :=
  laneWise s d m 2 [a] fun l => (BitVec.ofNat 32 (2 ^ classBit f.toNat (opd l 0).toNat), 0)

/-! ### Conversions (R283 to R286) -/

def execVcvt (d a : BitVec 5) (f g : BitVec 5) (r : BitVec 2) (q : BitVec 1) (s : State) :
    Host.Outcome State Fault Refusal :=
  laneWise s d 0 3 [a] fun l =>
    let c := convert f.toNat g.toNat (opd l 0).toNat r (q == 1)
    (BitVec.ofNat 32 c.1, c.2)

/-- Elements of `w` bits packed into 32-bit lanes, the first in the lowest bits (R284); a lane is poisoned with any of its
elements. -/
def packLanes (w : Nat) (es : List (Nat × Bool)) : List Lane :=
  let per := 32 / w
  (List.range (es.length / per)).map fun j =>
    let g := (es.drop (j * per)).take per
    ⟨BitVec.ofNat 32 (g.foldr (fun e a => a * 2 ^ w + e.1) 0), g.any (·.2)⟩

def execVpack (d a : BitVec 5) (f g : BitVec 5) (r : BitVec 2) (q : BitVec 1) (s : State) :
    Host.Outcome State Fault Refusal :=
  match readRegs allLanes [a.toNat, d.toNat] s [] with
  | (s, none) => .next s
  | (s, some rs) =>
    let cs := (lget rs 0 []).map fun l => (convert f.toNat g.toNat l.val.toNat r (q == 1), l.pois)
    let w := codeWidth f.toNat
    let new := packLanes w (cs.map fun c => (c.1.1, c.2))
    let out := (lget rs 1 []).drop (4 * w) ++ new
    let fl := cs.foldl (fun a c => if c.2 then a else a ||| c.1.2) (0 : FlagSet)
    .next (writeLanes s d 3 (out.mapIdx fun i l => (i, l)) fl)

def execVunpack (d a : BitVec 5) (f g : BitVec 5) (p : BitVec 3) (s : State) : Host.Outcome State Fault Refusal :=
  let w := codeWidth g.toNat
  let per := 32 / w
  let src (i : Nat) : Nat := (128 * p.toNat + i) / per
  let used := maskOf (((List.range 128).map src).eraseDups)
  match readRegs used [a.toNat] s [] with
  | (s, none) => .next s
  | (s, some rs) =>
    let out := (List.range 128).map fun i =>
      let l := laneAt (lget rs 0 []) (src i)
      let x := bits l.val.toNat ((128 * p.toNat + i) % per * w) w
      let c := convert f.toNat g.toNat x 0 false
      ((i, (⟨BitVec.ofNat 32 c.1, l.pois⟩ : Lane)), if l.pois then (0 : FlagSet) else c.2)
    .next (writeLanes s d 3 (out.map (·.1)) (out.foldl (fun a o => a ||| o.2) 0))

/-- a × 2^k (R286). Beyond 1,000 every FP32 result is that of 1,000, so k is held in that range. -/
def scaleBy (x : FVal) (k : Int) : FVal :=
  match x with
  | .fin n m e => .fin n m (e + max (-1000) (min 1000 k))
  | y => y

def scaleLane (t r : BitVec 2) (q : BitVec 1) (a b : W32) : W32 × FlagSet :=
  if t = 1 ∧ b.toNat % 256 = 255 then
    match fpOf a with
    | .nan n qt f w => fpLane (.nan n qt f w, 0) 0
    | _ => fpLane (defaultNaN, 0) 0
  else if (fpOf a).isInf then (a, 0)
  else
    let k : Int := if t = 0 then b.toInt else (b.toNat % 256 : Nat) - 127
    let c := fFP32.cvt (scaleBy (fpOf a) k) r (q == 1)
    (BitVec.ofNat 32 c.1, c.2)

def execVscale (d a b : BitVec 5) (m : BitVec 3) (t r : BitVec 2) (q : BitVec 1) (s : State) :
    Host.Outcome State Fault Refusal :=
  laneWise s d m 3 [a, b] fun l => scaleLane t r q (opd l 0) (opd l 1)

/-! ### MX blocks (R194, R195, R287, R288) -/

/-- The exponent emax of R195 of an element code. -/
def mxEmax (e : Nat) : Int := if e = 3 then 8 else if e = 4 then 15 else 2

/-- The E8M0 scale that R195 chooses for the present elements of a block. -/
def mxScale (e : Nat) (xs : List FVal) : Nat :=
  if xs.any FVal.isNaN then 255
  else
    let logs := xs.filterMap fun x => match x with
      | .fin _ m ex => if m = 0 then none else some ((Nat.log2 m : Int) + ex)
      | _ => none
    match logs with
    | [] => 127
    | l :: ls => (max (-127) (min 127 (ls.foldl max l - mxEmax e)) + 127).toNat

/-- x / X for a scale that is no NaN. -/
def unscale (x : FVal) (scale : Nat) : FVal :=
  match x with
  | .fin n m e => .fin n m (e - ((scale : Int) - 127))
  | y => y

/-- A block quantised (R195, R287): its scale, its codes and the flags. An absent element is `none`. -/
def mxQuantise (e : Nat) (xs : List (Option FVal)) : Nat × List Nat × FlagSet :=
  let scale := mxScale e (xs.filterMap id)
  if scale = 255 then (255, xs.map fun _ => 0, fNV)
  else
    let cs := xs.map fun x => match x, floatFmt e with
      | some v, some f => f.cvt (unscale v scale) 0 true
      | _, _ => (0, 0)
    (scale, cs.map (·.1), cs.foldl (fun a c => a ||| c.2) 0)

/-- The lane whose bytes hold element i of the layout of R287. -/
def mxLane (w i : Nat) : Nat := i * w / 32

def execVmxq (d a : BitVec 5) (f : BitVec 5) (p : BitVec 3) (s : State) : Host.Outcome State Fault Refusal :=
  let mask := mreg (here s) p
  match readRegs mask [a.toNat] s [] with
  | (s, none) => .next s
  | (s, some rs) =>
    let e := mxElement f.toNat
    let w := codeWidth e
    let ls := lget rs 0 []
    let blocks := (List.range 4).map fun j =>
      let ix := (List.range 32).map (32 * j + ·)
      let q := mxQuantise e (ix.map fun i => if mask.getLsbD i then some (fpOf (laneAt ls i).val) else none)
      (q, ix.any fun i => mask.getLsbD i && (laneAt ls i).pois)
    let codes := blocks.flatMap fun b => b.1.2.1
    let image := codes.foldr (fun c a => a * 2 ^ w + c) 0
      + ((blocks.map fun b => b.1.1).foldr (fun x a => a * 256 + x) 0) * 2 ^ (8 * 508)
    let pois (lane : Nat) : Bool :=
      (lane == 127 && blocks.any (·.2))
        || (List.range 128).any fun i => mxLane w i == lane && (lget blocks (i / 32) ((0, [], 0), false)).2
    let fl := blocks.foldl (fun a b => if b.2 then a else a ||| b.1.2.2) (0 : FlagSet)
    .next (writeLanes s d 6 ((List.range 128).map fun i => (i, ⟨BitVec.ofNat 32 (bits image (32 * i) 32), pois i⟩)) fl)

/-- An element of an MX block with its scale (R194). -/
def mxValue (e x scale : Nat) : FVal :=
  if scale = 255 then defaultNaN
  else
    match elemValue e x with
    | .fin n m ex => .fin n m (ex + ((scale : Int) - 127))
    | y => y

def execVmxd (d a : BitVec 5) (f g : BitVec 5) (r : BitVec 2) (q : BitVec 1) (s : State) :
    Host.Outcome State Fault Refusal :=
  let e := mxElement g.toNat
  let w := codeWidth e
  let used := maskOf ((((List.range 128).map (mxLane w)) ++ [127]).eraseDups)
  match readRegs used [a.toNat] s [] with
  | (s, none) => .next s
  | (s, some rs) =>
    let ls := lget rs 0 []
    let out := (List.range 128).map fun i =>
      let l := laneAt ls (mxLane w i)
      let x := bits l.val.toNat (i * w % 32) w
      let scale := bits (laneAt ls 127).val.toNat (8 * (i / 32)) 8
      let c := match floatFmt f.toNat with
        | some fmt => fmt.cvt (mxValue e x scale) r (q == 1)
        | none => (0, 0)
      let p := l.pois || (laneAt ls 127).pois
      ((i, (⟨BitVec.ofNat 32 c.1, p⟩ : Lane)), if p then (0 : FlagSet) else c.2)
    .next (writeLanes s d 6 (out.map (·.1)) (out.foldl (fun a o => a ||| o.2) 0))

/-! ### Memory moves (R294, R295) -/

/-- Words of 4 bytes at offsets, as lanes: each poisoned with its bytes; and the first pending word (R71). -/
def spadLanes (s : State) (offs : List (Nat × Nat)) (n : Nat) : State × List (Nat × Lane) × Option Nat :=
  offs.foldl
    (fun r o =>
      let b := spadSeen r.1 o.2 n
      (b.1, r.2.1 ++ [(o.1, ⟨BitVec.ofNat 32 (leVal b.2.1), anyPois b.2.1⟩)], if r.2.2.isNone then b.2.2 else r.2.2))
    (s, [], none)

/-- A vector load: the lanes at the given offsets (R294, R295). -/
def loadLanes (s : State) (d : BitVec 5) (latency : Nat) (offs : List (Nat × Nat)) (n : Nat) : State :=
  let r := spadLanes s offs n
  match r.2.2 with
  | some p => raise r.1 tPendingRead (BitVec.ofNat 64 p) 0
  | none => writeLanes r.1 d latency r.2.1 0

def execVld (d a : BitVec 5) (m : BitVec 3) (i : BitVec 32) (s : State) : Host.Outcome State Fault Refusal :=
  let o := formOff64 (here s) a i
  if !aligned o 64 then .next (raise s tAlign (BitVec.ofNat 64 o) 0)
  else .next (loadLanes s d 4 ((active (mreg (here s) m)).map fun j => (j, spadOff (o + 4 * j))) 4)

def execVldb (d a : BitVec 5) (m : BitVec 3) (i : BitVec 32) (s : State) : Host.Outcome State Fault Refusal :=
  let o := formOff64 (here s) a i
  if !aligned o 4 then .next (raise s tAlign (BitVec.ofNat 64 o) 0)
  else
    let b := spadSeen s o 4
    match b.2.2 with
    | some p => .next (raise b.1 tPendingRead (BitVec.ofNat 64 p) 0)
    | none =>
      let l : Lane := ⟨BitVec.ofNat 32 (leVal b.2.1), anyPois b.2.1⟩
      .next (writeLanes b.1 d 4 ((active (mreg (here s) m)).map fun j => (j, l)) 0)

/-- Slot memory as lanes (R72). -/
def execVldSlot (d : BitVec 5) (m : BitVec 3) (i : BitVec 5) (s : State) : Host.Outcome State Fault Refusal :=
  let r := slotSeen s (512 * i.toNat) 512
  let lane (j : Nat) : Lane :=
    let w := (r.2.drop (4 * j)).take 4
    ⟨BitVec.ofNat 32 (leVal w), anyPois w⟩
  .next (writeLanes r.1 d 1 ((active (mreg (here s) m)).map fun j => (j, lane j)) 0)

/-- The stored bytes of lanes: address and byte. -/
def storeCells (ls : List (Nat × Lane)) (n : Nat) : List (Nat × Byte) :=
  ls.foldl
    (fun m l => ((leBytes n l.2.val.toNat).mapIdx fun j b => (spadOff (l.1 + j), b)).foldl (fun m c => Map.set m c.1 c.2) m)
    []

/-- The grains that a vector store marks or clears (R54, R294): a grain with a poisoned lane is marked; one that `whole`
covers with unpoisoned lanes is cleared. -/
def storeGrains (ls : List (Nat × Lane)) (whole : Bool) : List (Nat × Bool) :=
  let marked := (ls.filter (·.2.pois)).map fun l => l.1 / 32
  let full := if whole then
      (ls.map fun l => l.1 / 32).eraseDups.filter fun g =>
        !marked.contains g && (ls.filter fun l => l.1 / 32 = g).length = 8
    else []
  (marked.eraseDups.map fun g => (g, true)) ++ full.map fun g => (g, false)

/-- A vector store to the scratchpad with its exposed latency (R66). -/
def storeLanes (s : State) (ls : List (Nat × Lane)) (n : Nat) (whole : Bool) : State :=
  retire (expose s 4 (.spad (storeCells ls n) (storeGrains ls whole)))

def execVst (d a : BitVec 5) (m : BitVec 3) (i : BitVec 32) (s : State) : Host.Outcome State Fault Refusal :=
  let o := formOff64 (here s) a i
  let mask := mreg (here s) m
  if !aligned o 64 then .next (raise s tAlign (BitVec.ofNat 64 o) 0)
  else
    match readRegs mask [d.toNat] s [] with
    | (s, none) => .next s
    | (s, some rs) =>
      .next (storeLanes s ((active mask).map fun j => (spadOff (o + 4 * j), laneAt (lget rs 0 []) j)) 4 true)

/-- The bytes of a lane with its poison. -/
def laneBytes (l : Lane) : List PByte := (leBytes 4 l.val.toNat).map fun b => (b, l.pois)

def execVstSlot (d : BitVec 5) (m : BitVec 3) (i : BitVec 5) (s : State) : Host.Outcome State Fault Refusal :=
  let mask := mreg (here s) m
  match readRegs mask [d.toNat] s [] with
  | (s, none) => .next s
  | (s, some rs) =>
    let ls := lget rs 0 []
    let base := 512 * i.toNat
    let put (mem : Memory) (g : Nat) : Memory :=
      let ix := (List.range 8).map (8 * g + ·)
      if ix.all fun j => mask.getLsbD j then
        mem.write 32 32 (base + 32 * g) (ix.flatMap fun j => laneBytes (laneAt ls j))
      else
        (ix.filter fun j => mask.getLsbD j).foldl (fun mem j => mem.write 32 32 (base + 4 * j) (laneBytes (laneAt ls j))) mem
    .next (retire (onHere s fun k =>
      let k := keepStanding k s.word true base 512
      { k with mem := { k.mem with slot := (List.range 16).foldl put k.mem.slot } }))

/-- The offsets of a gather or scatter (R295). -/
def gatherOffs (s : State) (a : BitVec 5) (size : Nat) (mask : BitVec 128) (ix : List Lane) : List (Nat × Nat) :=
  (active mask).map fun j => (j, spadOff ((sreg (here s) a).toNat + size * (laneAt ix j).val.toNat))

/-- The checks of a gather or scatter (R295): poisoned indices, then alignment. -/
def gatherCheck (s : State) (mask : BitVec 128) (ix : List Lane) (offs : List (Nat × Nat)) (size : Nat) :
    Option State :=
  match poisonedLane (active mask) [ix] with
  | some i => some (raiseLane s tPoisonUse i 3)
  | none =>
    match offs.find? fun o => !aligned o.2 size with
    | some o => some (raise s tAlign (BitVec.ofNat 64 o.2) 0)
    | none => none

def execVldg (d a b : BitVec 5) (m : BitVec 3) (z : BitVec 2) (s : State) : Host.Outcome State Fault Refusal :=
  let mask := mreg (here s) m
  match readRegs mask [b.toNat] s [] with
  | (s, none) => .next s
  | (s, some rs) =>
    let size := 2 ^ z.toNat
    let ix := lget rs 0 []
    let offs := gatherOffs s a size mask ix
    match gatherCheck s mask ix offs size with
    | some t => .next t
    | none => .next (loadLanes s d 8 offs size)

def execVstg (d a b : BitVec 5) (m : BitVec 3) (z : BitVec 2) (s : State) : Host.Outcome State Fault Refusal :=
  let mask := mreg (here s) m
  match readRegs mask [b.toNat, d.toNat] s [] with
  | (s, none) => .next s
  | (s, some rs) =>
    let size := 2 ^ z.toNat
    let ix := lget rs 0 []
    let offs := gatherOffs s a size mask ix
    match gatherCheck s mask ix offs size with
    | some t => .next t
    | none => .next (storeLanes s (offs.map fun o => (o.2, laneAt (lget rs 1 []) o.1)) size false)

/-! ### Lane moves and masks (R296 to R298) -/

def execVgat (d a b : BitVec 5) (m : BitVec 3) (s : State) : Host.Outcome State Fault Refusal :=
  let mask := mreg (here s) m
  match readRegs mask [b.toNat] s [] with
  | (s, none) => .next s
  | (s, some rs) =>
    let ix := lget rs 0 []
    match poisonedLane (active mask) [ix] with
    | some i => .next (raiseLane s tPoisonUse i 3)
    | none =>
      let src (j : Nat) : Nat := (laneAt ix j).val.toNat % 128
      match readRegs (maskOf ((active mask).map src).eraseDups) [a.toNat] s [] with
      | (s, none) => .next s
      | (s, some ra) =>
        .next (writeLanes s d 3 ((active mask).map fun j => (j, laneAt (lget ra 0 []) (src j))) 0)

def execVperm (d a b : BitVec 5) (m : BitVec 3) (s : State) : Host.Outcome State Fault Refusal :=
  let mask := mreg (here s) m
  match readRegs mask [b.toNat] s [] with
  | (s, none) => .next s
  | (s, some rs) =>
    let ix := lget rs 0 []
    match poisonedLane (active mask) [ix] with
    | some i => .next (raiseLane s tPoisonUse i 3)
    | none =>
      let src (j : Nat) : Nat := (laneAt ix j).val.toNat % 256
      let low := ((active mask).map src).filter (· < 128)
      let high := (((active mask).map src).filter (128 ≤ ·)).map (· - 128)
      match readRegs (maskOf low.eraseDups) [a.toNat] s [] with
      | (s, none) => .next s
      | (s, some ra) =>
        match readRegs (maskOf high.eraseDups) [d.toNat] s [] with
        | (s, none) => .next s
        | (s, some rd) =>
          let table := lget ra 0 [] ++ lget rd 0 []
          .next (writeLanes s d 3 ((active mask).map fun j => (j, laneAt table (src j))) 0)

def execVbcast (d a : BitVec 5) (m : BitVec 3) (s : State) : Host.Outcome State Fault Refusal :=
  let l : Lane := ⟨(sreg (here s) a).setWidth 32, false⟩
  .next (writeLanes s d 2 ((active (mreg (here s) m)).map fun j => (j, l)) 0)

def execVmov (d a : BitVec 5) (m : BitVec 3) (s : State) : Host.Outcome State Fault Refusal :=
  laneWise s d m 2 [a] fun l => (opd l 0, 0)

def execVmovs (d a b : BitVec 5) (s : State) : Host.Outcome State Fault Refusal :=
  let i := (sreg (here s) b).toNat % 128
  match readRegs (maskOf [i]) [a.toNat] s [] with
  | (s, none) => .next s
  | (s, some rs) =>
    let l := laneAt (lget rs 0 []) i
    if l.pois then .next (raiseLane s tPoisonUse i 3)
    else .next (retire (onHere s fun k => setSreg k d (l.val.setWidth 64)))

def execVins (d a b : BitVec 5) (s : State) : Host.Outcome State Fault Refusal :=
  .next (writeLanes s d 2 [((sreg (here s) b).toNat % 128, ⟨(sreg (here s) a).setWidth 32, false⟩)] 0)

/-- A mask word (R298): its result is seen by the next V slot (R271). -/
def maskWord (s : State) (d : BitVec 3) (v : BitVec 128) : Host.Outcome State Fault Refusal :=
  .next (retire (onHere s fun k => setMreg k d v))

def execMand (d a b : BitVec 3) (s : State) : Host.Outcome State Fault Refusal :=
  maskWord s d (mreg (here s) a &&& mreg (here s) b)

def execMor (d a b : BitVec 3) (s : State) : Host.Outcome State Fault Refusal :=
  maskWord s d (mreg (here s) a ||| mreg (here s) b)

def execMxor (d a b : BitVec 3) (s : State) : Host.Outcome State Fault Refusal :=
  maskWord s d (mreg (here s) a ^^^ mreg (here s) b)

def execMnot (d a : BitVec 3) (s : State) : Host.Outcome State Fault Refusal := maskWord s d (~~~(mreg (here s) a))

def execMpop (d : BitVec 5) (a : BitVec 3) (s : State) : Host.Outcome State Fault Refusal :=
  .next (retire (onHere s fun k => setSreg k d (BitVec.ofNat 64 (active (mreg k a)).length)))

def execMfirst (d : BitVec 5) (a : BitVec 3) (s : State) : Host.Outcome State Fault Refusal :=
  .next (retire (onHere s fun k => setSreg k d (BitVec.ofNat 64 ((active (mreg k a)).headD 128))))

end Sys2Proof.Machine
end

