-- ==== Sys2Proof/Machine/Matrix.lean ====
section
/-! DEFINITION. The matrix instructions: tiles, code tables, accumulator chains (spec/14_matrix_instructions.md R310 to R328,
spec/03_on_chip_memories.md R74 to R80). -/

namespace Sys2Proof.Machine

/-! ### Formats and tiles (R78 to R80, R313) -/

/-- The alignment width W of a matrix format; none for an integer format, which is not aligned (R203, R313). -/
def matrixWidth (f : Nat) : Option Nat :=
  if codeInt f then none
  else if f = 1 ∨ f = 2 ∨ f = 7 then some 16
  else if f = 20 then some 4
  else some 8

/-- An MX format (R194). -/
def isMx (f : Nat) : Bool := 18 ≤ f && f ≤ 20

/-- The bytes of a tile whose elements have `b` bits (R78). -/
def tileBytes (b : Nat) : Nat := 16384 * b

/-- The key of the tag of sub-tile `t` of slot `sl` in the numbering of `b`-bit elements. -/
def tagKey (b sl t : Nat) : Nat := (if b = 16 then 0 else if b = 8 then 16 else 32) + 4 * sl + t

/-- The tile that (slot, t) names: the most recently loaded one of those with a set tag (R80), with its width. -/
def tileNamed (m : OnChip) (sl t : Nat) : Option (Nat × Tag) :=
  [16, 8, 4].foldl
    (fun best b =>
      match Map.find m.tags (tagKey b sl t), best with
      | some g, some x => if x.2.time < g.time then some (b, g) else best
      | some g, none => some (b, g)
      | none, _ => best)
    none

/-- The sub-tiles of a slot whose bytes overlap sub-tile `t` of `b`-bit elements (R78, R80). -/
def overlapping (b sl t : Nat) : List Nat :=
  [16, 8, 4].flatMap fun w =>
    ((List.range 4).filter fun u =>
      u * tileBytes w < t * tileBytes b + tileBytes b && t * tileBytes b < u * tileBytes w + tileBytes w).map (tagKey w sl)

/-- Whether a range of the scratchpad meets the pending bit of a result (R71), else its bytes. -/
def spadRange (s : State) (off n : Nat) : State × Option (List PByte) :=
  match spadSeen s off n with
  | (s, _, some p) => (raise s tPendingRead (BitVec.ofNat 64 p) 0, none)
  | (s, bs, none) => (s, some bs)

/-- Bytes as a computation takes them: a poisoned one as 0xFF (R55). -/
def asRead (bs : List PByte) : List PByte := bs.map fun b => if b.2 then (255, true) else b

/-- Load a tile image into a sub-tile with its scales and its tag (R315). -/
def loadTile (s : State) (sl t : Nat) (g : BitVec 3) (fmt tbl : Nat) : State :=
  match s.word with
  | none => s
  | some w =>
    let b := codeWidth fmt
    let a := spadOff (snapshot (here s) w g)
    if !aligned a 64 then raise s tAlign (BitVec.ofNat 64 a) 0
    else
      let n := tileBytes b
      match spadRange s a n with
      | (s, none) => s
      | (s, some bs) =>
        match (if isMx fmt then spadRange s (a + n) 4096 else (s, some (List.replicate 4096 (127, false)))) with
        | (s, none) => s
        | (s, some sc) =>
          retire (onHere s fun k =>
            let m := k.mem
            let tags := (overlapping b sl t).foldl Map.erase m.tags
            let tag : Tag := { fmt := BitVec.ofNat 5 fmt, tbl := BitVec.ofNat 3 tbl
                               bank := fmt == 7 && vget m.active tbl false, time := m.clock + 1 }
            { k with mem := { m with cim := m.cim.write 32 32 (sl * 262144 + t * n) bs
                                     bscale := m.bscale.write 32 32 (sl * 16384 + t * 4096) sc
                                     tags := Map.set tags (tagKey b sl t) tag, clock := m.clock + 1 } })

/-- bld (R315). -/
def execBld (s_ t : BitVec 2) (g : BitVec 3) (f : BitVec 5) (s : State) : Host.Outcome State Fault Refusal :=
  .next (loadTile s s_.toNat t.toNat g f.toNat 0)

/-- bld of LUT4 codes (R315): the tag captures the table and its active bank. -/
def execBldLut4 (s_ t : BitVec 2) (g b : BitVec 3) (s : State) : Host.Outcome State Fault Refusal :=
  .next (loadTile s s_.toNat t.toNat g 7 b.toNat)

/-- The key of an entry of a code table (R193). -/
def tableKey (t : Nat) (bank : Bool) (c : Nat) : Nat := (2 * t + b2n bank) * 16 + c

/-- tld (R316): the shadow bank of a table; earlier M words have decoded already. -/
def execTld (g t : BitVec 3) (s : State) : Host.Outcome State Fault Refusal :=
  match s.word with
  | none => .next s
  | some w =>
    let a := spadOff (snapshot (here s) w g)
    if !aligned a 32 then .next (raise s tAlign (BitVec.ofNat 64 a) 0)
    else
      match spadRange s a 32 with
      | (s, none) => .next s
      | (s, some bs) =>
        if anyPois bs then .next (raise s tPoisonUse (BitVec.ofNat 64 a) 0)
        else
          .next (retire (onHere s fun k =>
            let bank := !vget k.mem.active t.toNat false
            let put (m : Map (BitVec 16)) (c : Nat) : Map (BitVec 16) :=
              Map.put 0 m (tableKey t.toNat bank c) (BitVec.ofNat 16 (leVal ((bs.drop (2 * c)).take 2)))
            { k with mem := { k.mem with tables := (List.range 16).foldl put k.mem.tables } }))

/-- tswap (R316). -/
def execTswap (t : BitVec 3) (s : State) : Host.Outcome State Fault Refusal :=
  .next (retire (onHere s fun k =>
    { k with mem := { k.mem with active := vset k.mem.active t.toNat (!vget k.mem.active t.toNat false) } }))

/-! ### Slabs (R74 to R77) -/

/-- The occupied levels of the carry stack. -/
def ones (n : Nat) : Nat := ((List.range 26).filter fun i => bit n i).length

/-- The demand D of an open chain (R76). -/
def demand (prof w n : Nat) (init : Bool) : Nat :=
  (if prof ≤ 1 then w else 2 * w) * (ones n + 1) + (if init then w else 0)

/-- The slabs that a chain holds (R76). -/
def slabs (c : Chain) : Nat :=
  match c.st with
  | .none => 0
  | .closed => c.w
  | _ => demand c.prof c.w c.n c.init

/-- The slabs of every chain. -/
def slabsHeld (k : Core) : Nat := k.chains.toList.foldl (fun a c => a + slabs c) 0

/-- What R77 decides for a chain that goes from `old` to `new` slabs. -/
inductive Room where
  | ok | wait | exhausted
  deriving DecidableEq, Repr

def room (k : Core) (old new : Nat) : Room :=
  let others := slabsHeld k - old
  if 64 < new ∨ 64 < others + new then .exhausted
  else if 64 < others + k.drain + new then .wait
  else .ok

/-- The current generation of a chain ends and its slabs drain (R75). -/
def dropChain (k : Core) (n : Nat) : Core :=
  let c := vget k.chains n .reset
  { k with chains := vset k.chains n .reset, drain := k.drain + slabs c }

/-- Slabs of drained generations are due to return. -/
def dueSlabs (s : State) : State := if (here s).drain = 0 then s else due s [.slabReturn s.core]

/-- SLAB_RETURN (R75): every M word that named a draining generation has retired, since M words act in order. -/
def execSlabReturn (core : Nat) (s : State) : Host.Outcome State Fault Refusal :=
  .next (setCore s core { getCore s core with drain := 0 })

def chainOf (s : State) (n : BitVec 3) : Chain := vget (here s).chains n.toNat .reset

def setChain (s : State) (n : BitVec 3) (c : Chain) : State := onHere s fun k => { k with chains := vset k.chains n.toNat c }

/-- The profile of a long M word (R206): PROFILE, then PROFILE_UNSUPPORTED. -/
def matrixProfile (s : State) (prof : BitVec 6) : State × Option Nat :=
  match profileOf ((s.word.map (·.np)).getD 0) prof with
  | none => (raiseWord s tProfile, none)
  | some p => if p = 0 then (raiseWord s tProfileUnsupported, none) else (s, some p)

/-! ### Starting, closing, reading and dropping chains -/

/-- Start a generation (R75, R77, R318): the old one drains; where room is short without its slabs, they return at once,
since every earlier M word has retired. -/
def startChain (s : State) (n : BitVec 3) (c : Chain) : State :=
  let k := here s
  let old := slabs (chainOf s n)
  match room k old (slabs c) with
  | .exhausted => raiseWord s tAccumExhaust
  | .wait => stall s
  | .ok =>
    let tight := 64 < slabsHeld k + k.drain + slabs c
    let k1 := if tight then { k with chains := vset k.chains n.toNat .reset } else dropChain k n.toNat
    dueSlabs (retire (setChain (onHere s fun _ => k1) n c))

/-- acz (R318). -/
def execAcz (n : BitVec 3) (b : BitVec 5) (w : BitVec 2) (prof : BitVec 6) (s : State) : Host.Outcome State Fault Refusal :=
  match matrixProfile s prof with
  | (s, none) => .next s
  | (s, some p) =>
    let v := (sreg (here s) b).toNat
    let k := bits v 32 32
    let s0 := bits v 0 24
    if bits v 24 8 ≠ 0 ∨ (k = 0 ∧ s0 ≠ 0) ∨ (k ≠ 0 ∧ k ≤ 256 * s0) then .next (raiseWord s tIllegal)
    else .next (startChain s n { Chain.reset with st := .opened, prof := p, w := w.toNat + 1, k, s0 })

/-- The FP32 elements of a scratchpad range as lanes, those that are not zero. -/
def lanesOf : Nat → List PByte → Map Lane
  | i, a :: b :: c :: d :: bs =>
    let l : Lane := ⟨BitVec.ofNat 32 (leVal [a, b, c, d]), anyPois [a, b, c, d]⟩
    if l = ⟨0, false⟩ then lanesOf (i + 1) bs else (i, readLane l) :: lanesOf (i + 1) bs
  | _, _ => []

/-- acinit (R318): the initial value C is read from the scratchpad. -/
def execAcinit (n : BitVec 3) (b : BitVec 5) (w : BitVec 2) (prof : BitVec 6) (s : State) :
    Host.Outcome State Fault Refusal :=
  match matrixProfile s prof with
  | (s, none) => .next s
  | (s, some p) =>
    let o := spadOff (sreg (here s) b).toNat
    let wd := w.toNat + 1
    let c : Chain := { Chain.reset with st := .opened, prof := p, w := wd, init := true }
    if !aligned o 64 then .next (raise s tAlign (BitVec.ofNat 64 o) 0)
    else
      match room (here s) (slabs (chainOf s n)) (slabs c) with
      | .exhausted => .next (raiseWord s tAccumExhaust)
      | .wait => .next (stall s)
      | .ok =>
        match spadRange s o (32768 * wd) with
        | (s, none) => .next s
        | (s, some bs) => .next (startChain s n { c with c := lanesOf 0 bs })

/-- The result of one element at aclose (R205, R207, R322). -/
def closeElem (c : Chain) (key : Nat) : Lane × FlagSet :=
  let f := combineSum c.prof
  let r := closeFold f (Map.get [] c.stack key)
  if c.init then
    let l := Map.get ⟨0, false⟩ c.c key
    match r.1 with
    | .absent => (l, r.2)
    | v =>
      let x := f (nodeOf c.prof l) v
      let y := rootValue c.prof x.1
      (y.1, r.2 ||| x.2 ||| y.2)
  else
    let y := rootValue c.prof r.1
    (y.1, r.2 ||| y.2)

/-- The keys of two maps, rising. -/
def keysOf (a b : List Nat) : List Nat := b.foldl NatSet.insert a

/-- aclose (R322). -/
def execAclose (n : BitVec 3) (s : State) : Host.Outcome State Fault Refusal :=
  let c := chainOf s n
  match c.st with
  | .none => .next (raiseWord s tIllegal)
  | .closed => .next (retire s)
  | _ =>
    if c.ct ≠ 0 then .next (raiseWord s tTreeAlign)
    else
      let out := (keysOf (c.stack.map (·.1)) (c.c.map (·.1))).map fun key => (key, closeElem c key)
      let res := (out.filter fun o => o.2.1 ≠ ⟨0, false⟩).map fun o => (o.1, o.2.1)
      let fl := out.foldl (fun a o => a ||| o.2.2) (0 : FlagSet)
      .next (retire (orFlags (setChain s n { c with st := .closed, stack := [], part := [], c := [], res }) 0 fl))

/-- acrd (R323): two rows of a column tile into eight registers. -/
def execAcrd (n p : BitVec 3) (b : BitVec 5) (c : BitVec 2) (s : State) : Host.Outcome State Fault Refusal :=
  let ch := chainOf s n
  if ch.st ≠ .closed ∨ ch.w ≤ c.toNat then .next (raiseWord s tIllegal)
  else
    let lane (q l : Nat) : Nat × Lane :=
      let row := 2 * p.toNat + q / 4
      (128 * (b.toNat + q) + l, Map.get ⟨0, false⟩ ch.res (512 * ch.w * row + 512 * c.toNat + 128 * (q % 4) + l))
    .next (retire (expose s 8 (.lanes ((List.range 8).flatMap fun q => (List.range 128).map fun l => lane q l))))

/-- Bytes that an acst writes from an offset that is a multiple of 64, with the poison of the grains they fill (R54, R66). -/
def exposeBytes (s : State) (off : Nat) (bs : List PByte) : State :=
  let cells := bs.mapIdx fun i b => ((off + i) % 4194304, b.1)
  let grains := (chunks 32 (bs.length + 1) off bs).map fun c => (c.1 / 32 % 131072, anyPois c.2)
  expose s 8 (.spad cells grains)

/-- Every element of a chain in order. -/
def elemKeys (c : Chain) : List Nat := List.range (8192 * c.w)

/-- acst of the result (R324). -/
def execAcst (n : BitVec 3) (b : BitVec 5) (s : State) : Host.Outcome State Fault Refusal :=
  let c := chainOf s n
  let o := spadOff (sreg (here s) b).toNat
  if c.st ≠ .closed then .next (raiseWord s tIllegal)
  else if !aligned o 64 then .next (raise s tAlign (BitVec.ofNat 64 o) 0)
  else .next (retire (exposeBytes s o ((elemKeys c).flatMap fun key => laneBytes (Map.get ⟨0, false⟩ c.res key))))

/-- The header of a part (R324). -/
def partHeader (c : Chain) : List Byte :=
  leBytes 4 c.k ++ leBytes 4 c.s0 ++ leBytes 4 c.n ++ leBytes 1 c.prof ++ leBytes 1 c.w
    ++ leBytes 2 (b2n (c.st == .ended)) ++ leBytes 8 c.pres.toNat ++ leBytes 40 0

/-- acst.part (R211, R324): close_fold of every element without a root rounding. -/
def execAcstPart (n : BitVec 3) (b : BitVec 5) (s : State) : Host.Outcome State Fault Refusal :=
  let c := chainOf s n
  let o := spadOff (sreg (here s) b).toNat
  if c.st = .none ∨ c.st = .closed ∨ c.k = 0 ∨ c.init then .next (raiseWord s tIllegal)
  else if !aligned o 64 then .next (raise s tAlign (BitVec.ofNat 64 o) 0)
  else if c.ct ≠ 0 then .next (raiseWord s tTreeAlign)
  else
    let e := if c.prof ≤ 1 then 4 else 8
    let out := (elemKeys c).map fun key => closeFold (combineSum c.prof) (Map.get [] c.stack key)
    let body := out.flatMap fun r => match r.1 with
      | .absent => List.replicate e (0, false)
      | .val x p => (leBytes e x).map fun y => (y, p)
    let fl := out.foldl (fun a r => a ||| r.2) (0 : FlagSet)
    .next (retire (orFlags (exposeBytes s o (clean (partHeader c) ++ body)) 0 fl))

/-- acdrop (R325). -/
def execAcdrop (n : BitVec 3) (s : State) : Host.Outcome State Fault Refusal :=
  .next (dueSlabs (retire (onHere s fun k => dropChain k n.toNat)))

/-- Whether a number is 2^j for a j from 0 to 23, and that j (R326). -/
def powerOf (n : Nat) : Option Nat := (List.range 24).find? fun j => n == 2 ^ j

/-- acmerge (R212, R326). -/
def execAcmerge (n a : BitVec 3) (prof : BitVec 6) (s : State) : Host.Outcome State Fault Refusal :=
  match matrixProfile s prof with
  | (s, none) => .next s
  | (s, some _) =>
    let d := chainOf s n
    let r := chainOf s a
    if d.st = .none ∨ d.st = .closed ∨ r.st = .none ∨ r.st = .closed then .next (raiseWord s tIllegal)
    else
      match powerOf d.n with
      | none => .next (raiseWord s tTreeAlign)
      | some j =>
        if d.st ≠ .opened ∨ d.ct ≠ 0 ∨ r.ct ≠ 0 ∨ d.init ∨ r.init ∨ d.k = 0 ∨ r.k ≠ d.k ∨ r.prof ≠ d.prof ∨ r.w ≠ d.w
            ∨ d.s0 % 2 ^ (j + 1) ≠ 0 ∨ r.s0 ≠ d.s0 + 2 ^ j ∨ r.n = 0 ∨ 2 ^ j < r.n ∨ (r.n ≠ 2 ^ j ∧ r.st ≠ .ended) then
          .next (raiseWord s tTreeAlign)
        else
          let f := combineSum d.prof
          let out := (keysOf (d.stack.map (·.1)) (r.stack.map (·.1))).map fun key =>
            let x := closeFold f (Map.get [] r.stack key)
            let y := f (Map.get .absent (Map.get [] d.stack key) j) x.1
            (key, y.1, x.2 ||| y.2)
          let stack := out.map fun o => (o.1, ([(j + 1, o.2.1)] : Map Node))
          let fl := out.foldl (fun a o => a ||| o.2.2) (0 : FlagSet)
          let c := { d with n := 2 ^ (j + 1), pres := d.pres ||| r.pres, stack, st := r.st }
          let s := onHere (setChain s n c) fun k => dropChain k a.toNat
          .next (dueSlabs (retire (orFlags s 0 fl)))

/-! ### The scale queue (R320, R359) -/

/-- Whether a head of the C engine stands before a word in program order: it has been met, and not after the word. -/
def metBefore (k : Core) (w : QWord) (head : Nat) : Bool :=
  !(vget k.sys.skip 5 []).contains head && !((vget k.iss.win 5 []).any fun h => h.2 = head && w.seq < h.1)

/-- The entries promised to a word (R320). -/
def promisedTo (k : Core) (w : QWord) : Nat :=
  k.mem.scaleq.foldl (fun a p => if metBefore k w p.head then a + p.left else a) 0

/-- Take entries from the front of the queue; `none` where one of them has not landed. -/
def popScales : Nat → List Promise → Option (List (Byte × Bool) × List Promise)
  | n, [] => if n = 0 then some ([], []) else none
  | n, p :: ps =>
    if n < p.left then
      if n ≤ p.got.length then some (p.got.take n, { p with left := p.left - n, got := p.got.drop n } :: ps) else none
    else if p.got.length < p.left then none
    else (popScales (n - p.left) ps).map fun r => (p.got ++ r.1, r.2)

/-! ### mma and mmav (R319, R321) -/

/-- The codes of a row of bytes, `b` bits each, with the poison of each (R82). -/
def codesOf (b : Nat) : List PByte → List (Nat × Bool)
  | [] => []
  | x :: bs =>
    if b = 4 then (x.1.toNat % 16, x.2) :: (x.1.toNat / 16, x.2) :: codesOf b bs
    else if b = 8 then (x.1.toNat, x.2) :: codesOf b bs
    else
      match bs with
      | [] => []
      | y :: bs => (x.1.toNat + 256 * y.1.toNat, x.2 || y.2) :: codesOf b bs

/-- A list in pieces of `n`. -/
def pieces {α : Type} (n : Nat) : Nat → List α → List (List α)
  | 0, _ => []
  | fuel + 1, l => l.take n :: pieces n fuel (l.drop n)

/-- The columns of a list of rows. -/
def columns {α : Type} (n : Nat) (rows : List (List α)) : List (List α) :=
  rows.foldr (fun r cs => List.zipWith (· :: ·) r cs) (List.replicate n [])

/-- The value of a code of a tile (R188, R191, R193, R194): a LUT4 code through its table and bank. -/
def tileValue (m : OnChip) (tag : Tag) (x : Nat) : FVal :=
  if tag.fmt = 7 then elemValue 2 (Map.get 0 m.tables (tableKey tag.tbl.toNat tag.bank x)).toNat
  else elemValue (mxElement tag.fmt.toNat) x

/-- One side of a block of 32 elements (R203, R204, R319): the first `here` elements are present. -/
def sideOf (value : Nat → FVal) (width : Option Nat) (here : Nat) (codes : List (Nat × Bool)) (scale : Byte × Bool)
    (scaled : Bool) : BlockSide :=
  { elems := codes.mapIdx fun i c => if i < here then some (value c.1) else none
    pois := codes.map fun c => c.2 || scale.2
    width
    scale := if scaled then e8m0 scale.1.toNat else .fin false 1 0 }

/-- The eight blocks of a row or column. -/
def sidesOf (value : Nat → FVal) (width : Option Nat) (kp : Nat) (codes : List (Nat × Bool)) (scales : List (Byte × Bool))
    (scaled : Bool) : List BlockSide :=
  (pieces 32 8 codes).mapIdx fun j c => sideOf value width (kp - 32 * j) c (lget scales j (127, false)) scaled

/-- One element of a column tile (R319): the blocks folded as levels 5 to 8. -/
def dotNode (np : Nat) (a b : List BlockSide) : Node × FlagSet :=
  let blks := (a.zip b).map fun p => blockNode np p.1 p.2
  let r := treeFold (combineSum np) 4 (blks.map (·.1))
  (r.1, blks.foldl (fun f x => f ||| x.2) r.2)

/-- A column tile of a K-step: key and node of the elements of the present rows (R319). -/
def tileNodes (m : OnChip) (ch : Chain) (width : Nat) (tag : Tag) (sl t ct kp : Nat) (f : Nat)
    (rows : List (List PByte)) (xs : List (Byte × Bool)) : List (Nat × Node) × FlagSet :=
  let base := sl * 262144 + t * tileBytes width
  let codes := codesOf width (asRead (m.cim.read 32 base (tileBytes width)))
  let cols := columns 512 (pieces 512 256 codes)
  let mx := isMx tag.fmt.toNat
  let bsc := columns 512 (pieces 512 8 (asRead (m.bscale.read 32 (sl * 16384 + t * 4096) 4096)))
  let bside := (cols.zip bsc).map fun c => sidesOf (tileValue m tag) (matrixWidth tag.fmt.toNat) kp c.1 c.2 mx
  let aside := rows.mapIdx fun i r =>
    sidesOf (elemValue (mxElement f)) (matrixWidth f) kp (codesOf (codeWidth f) r) ((xs.drop (8 * i)).take 8) (isMx f)
  let out := (aside.mapIdx fun i a => bside.mapIdx fun c b =>
    (512 * ch.w * i + 512 * ct + c, dotNode ch.prof a b)).flatten
  (out.map fun o => (o.1, o.2.1), out.foldl (fun f o => f ||| o.2.2) (0 : FlagSet))

/-- A column tile delivered to a chain; after the last one the subtree is merged (R207, R319). -/
def deliverTile (c : Chain) (ct kl nr : Nat) (nodes : List (Nat × Node)) : Chain × FlagSet :=
  let part := nodes.foldl (fun m x => if x.2 = .absent then m else Map.set m x.1 x.2) c.part
  let pres := c.pres ||| BitVec.ofNat 64 ((2 ^ nr - 1) * 2 ^ (16 * ct))
  if ct + 1 < c.w then ({ c with part, pres, ct := ct + 1, kls := kl }, 0)
  else
    let out := (keysOf (c.stack.map (·.1)) (part.map (·.1))).map fun key =>
      (key, carryMerge (combineSum c.prof) c.n 25 0 (Map.get [] c.stack key) (Map.get .absent part key))
    let ended := kl < 255 || (c.k ≠ 0 && 256 * (c.s0 + c.n) + kl + 1 == c.k)
    ({ c with part := [], pres, ct := 0, n := c.n + 1, st := if ended then .ended else c.st
              stack := out.map fun o => (o.1, o.2.1) },
      out.foldl (fun f o => f ||| o.2.2) (0 : FlagSet))

/-- Check 5 of R321: whether a chain can take a delivery. -/
def canTake (c : Chain) (ct kl : Nat) : Bool :=
  c.st != .ended && ct == c.ct && (c.ct == 0 || kl == c.kls)
    && (c.k == 0 || (256 * (c.s0 + c.n) + kl + 1 ≤ c.k && (kl == 255 || 256 * (c.s0 + c.n) + kl + 1 == c.k)))
    && (ct + 1 < c.w || c.n < 16777216)

/-- The A operand of an mma or mmav: scratchpad rows from an offset, or registers from one on. -/
inductive ASource where
  | spad (off : Nat)
  | regs (r : Nat)
  deriving DecidableEq, Repr

/-- The bytes of `n` registers. -/
def regBytes (ls : List (List Lane)) : List PByte := ls.flatMap fun l => l.flatMap laneBytes

/-- Read the A operand: `bytes` bytes in rows of `32 b` (R311, R319). -/
def readA (s : State) (src : ASource) (bytes : Nat) : State × Option (List PByte) :=
  match src with
  | .spad off => spadRange s off bytes
  | .regs r =>
    let rest := (bytes + 511) / 512
    (List.range rest).foldl
      (fun acc i =>
        match acc.2 with
        | none => acc
        | some bs =>
          match readRegs (maskOf (List.range (min 128 ((bytes - 512 * i) / 4)))) [r + i] acc.1 [] with
          | (s, none) => (s, none)
          | (s, some ls) => (s, some (bs ++ regBytes ls)))
      (s, some [])

/-- A delivery with its checks in the order of R321. -/
def deliver (s : State) (n : BitVec 3) (sl t : Nat) (src : State → QWord → ASource) (f nr : Nat) (prof : BitVec 6)
    (flags : BitVec 18) : State :=
  match matrixProfile s prof with
  | (s, none) => s
  | (s, some _) =>
    match s.word with
    | none => s
    | some w =>
      let k := here s
      let c := chainOf s n
      if c.st = .none ∨ c.st = .closed then raiseWord s tIllegal
      else
        match tileNamed k.mem sl t with
        | none => raiseWord s tIllegal
        | some (width, tag) =>
          if codeInt f != codeInt tag.fmt.toNat then raiseWord s tIllegal
          else
            let a := src s w
            let bad := match a with | .spad off => !aligned off 64 | .regs _ => false
            let ct := bits flags.toNat 0 2
            let kl := bits flags.toNat 2 8
            if bad then raise s tAlign (BitVec.ofNat 64 (match a with | .spad off => off | .regs _ => 0)) 0
            else if !canTake c ct kl then raiseWord s tTreeAlign
            else
              let need := if isMx f then 8 * nr else 0
              if promisedTo k w < need then
                if anyQueued k.iss fun x => decide (x.seq < w.seq)
                    && (match x.instr with | .sqld _ _ => true | _ => false) then stall s
                else raiseWord s tScaleImbalance
              else
                match popScales need k.mem.scaleq with
                | none => stall s
                | some (xs, left) =>
                  let grown := if ct + 1 < c.w then slabs c else demand c.prof c.w (c.n + 1) c.init
                  match (if grown ≤ slabs c then .ok else room k (slabs c) grown) with
                  | Room.exhausted => raiseWord s tAccumExhaust
                  | .wait => stall s
                  | .ok =>
                    match readA s a (32 * codeWidth f * nr) with
                    | (s, none) => s
                    | (s, some bs) =>
                      let rows := pieces (32 * codeWidth f) nr (asRead bs)
                      let v := tileNodes k.mem c width tag sl t ct (kl + 1) f rows (asRead xs)
                      let d := deliverTile c ct kl nr v.1
                      let s := onHere (setChain s n d.1) fun k => { k with mem := { k.mem with scaleq := left } }
                      retire (orFlags s 0 (v.2 ||| d.2))

/-- mma (R319). -/
def execMma (n : BitVec 3) (s_ t : BitVec 2) (g : BitVec 3) (f : BitVec 5) (r : BitVec 4) (prof : BitVec 6)
    (flags : BitVec 18) (s : State) : Host.Outcome State Fault Refusal :=
  .next (deliver s n s_.toNat t.toNat (fun s w => .spad (spadOff (snapshot (here s) w g))) f.toNat (r.toNat + 1) prof flags)

/-- mmav (R319): the A operand lies in vector registers. -/
def execMmav (n : BitVec 3) (s_ t : BitVec 2) (a : BitVec 5) (f : BitVec 5) (r : BitVec 4) (prof : BitVec 6)
    (flags : BitVec 18) (s : State) : Host.Outcome State Fault Refusal :=
  .next (deliver s n s_.toNat t.toNat (fun _ _ => .regs a.toNat) f.toNat (r.toNat + 1) prof flags)

end Sys2Proof.Machine
end

