-- ==== Sys2Proof/Machine/Frames.lean ====
section
/-! DEFINITION. The frame table, stream pins and the records of page operations (R29, R134 to R136, R151). -/

namespace Sys2Proof.Machine

/-- Fields of a frame-table entry (R134). -/
def feState (e : Nat) : Nat := bits e 62 2
def feSize (e : Nat) : BitVec 2 := BitVec.ofNat 2 (bits e 32 2)
def feRef (e : Nat) : Nat := bits e 0 32

/-- A frame-table entry. -/
def mkFrame (state : Nat) (size : BitVec 2) (ref : Nat) : Nat :=
  state * 4611686018427387904 + size.toNat * 4294967296 + ref % 4294967296

/-- Write the entry of a physical page (R134). -/
def setFrame (s : State) (pa e : Nat) : State := physWrite s (frameEntryAddr s pa) (clean (leBytes 8 e))

/-- The pins on a page of local memory (R29, R135), but for those of one agent. -/
def pinsOnFrame (s : State) (pa n : Nat) (but : Nat × Nat) : Nat :=
  (s.mmu.pins.filter fun p =>
    p.cause.isNone && p.owner ≠ but && hRes p.handle == 0
      && overlaps (frameBase (hFrame p.handle)) (pageSize (hSize p.handle)) pa n).length

/-- Whether a move other than one holds a page of local memory as its source or destination (R130 step 4, R138). -/
def movesOnFrame (s : State) (pa n but : Nat) : Bool :=
  s.mmu.moves.any fun m =>
    m.1 ≠ but && [m.2.leaf, m.2.dst].any fun l =>
      bits l.toNat 7 2 == 0 && overlaps (frameBase (bits l.toNat 16 32)) (pageSize m.2.req.size) pa n

/-- No move: what a count of every move leaves out. -/
def noMove : Nat := 2 ^ 64

/-- No agent: what a count of every pin leaves out. -/
def nobody : Nat × Nat := (0, 5000)

/-- The completion record of a page operation (R133, R151). -/
def pageRecord (s : State) (area status cause : Nat) : State :=
  physWrite s area (clean (leBytes 8 (status + cause * 256 + 13 * 1048576) ++ leBytes 24 0))

/-- The statuses of R150 that page operations use. -/
def stDone : Nat := 1
def stRefused : Nat := 9
def stAborted : Nat := 10
def stDeferred : Nat := 11
def stFreed : Nat := 12

/-- A DRAINING page whose last pin has dropped becomes FREE, and its second record is written (R135). -/
def drainCheck (s : State) : State :=
  let ripe (d : Deferral) : Bool := d.second && d.shot && pinsOnFrame s d.frame d.len nobody == 0 && !movesOnFrame s d.frame d.len noMove
  let s' := (s.mmu.defer.filter ripe).foldl
    (fun s d =>
      let s := if feState (frameEntry s d.frame) = 2 then setFrame s d.frame (mkFrame 3 (feSize (frameEntry s d.frame)) 0)
        else s
      match d.area with | some a => pageRecord s (a + 32) stFreed 0 | none => s)
    s
  { s' with mmu := { s'.mmu with defer := s'.mmu.defer.filter fun d => !ripe d } }

/-- Release the pins of an agent (R29). -/
def unpin (s : State) (owner : Nat × Nat) : State :=
  drainCheck { s with mmu := { s.mmu with pins := s.mmu.pins.filter fun p => p.owner ≠ owner } }

end Sys2Proof.Machine
end

