-- ==== Sys2Proof/Machine/Layout.lean ====
section
/-! DEFINITION. Layout records, tensors and their elements, packed images and block scales (R81 to R83, R347, R348). -/

namespace Sys2Proof.Machine

/-- A well-formed layout record (R81). -/
structure Lay where
  base : Nat
  hidx : Nat
  fmt  : Nat
  spad : Bool
  rank : Nat
  ext  : List Nat
  str  : List Int
  deriving DecidableEq, Repr

/-- A captured record (R81, R83): a poisoned byte gives cause POISON, a malformed record LAYOUT. A packet's record lies in
device memory and names no handle (R146). -/
def parseLay (rec : List PByte) (packet : Bool) : Except Nat Lay :=
  let x := leVal rec
  let w := bits x 64 32
  let ext := (List.range 6).map fun i => bits x (128 + 32 * i) 32
  let str := (List.range 6).map fun i => sextN 32 (bits x (320 + 32 * i) 32)
  let l : Lay := { base := bits x 0 64, hidx := bits w 16 4, fmt := bits w 8 5, spad := bit w 3, rank := bits w 0 3, ext, str }
  if anyPois rec then .error causePoison
  else if bits w 22 10 ≠ 0 ∨ bits w 13 3 ≠ 0 ∨ bits w 4 4 ≠ 0 ∨ bits x 96 32 ≠ 0 ∨ l.rank = 0 ∨ l.rank = 7
      ∨ ext.any (16777216 < ·) ∨ (ext.drop l.rank).any (· ≠ 1) ∨ 20 < l.fmt
      ∨ (l.spad ∧ (l.hidx ≠ 0 ∨ 4194304 ≤ l.base)) ∨ (packet ∧ (l.spad ∨ l.hidx ≠ 0)) then .error causeLayout
  else .ok l

/-- The elements of a tensor. -/
def Lay.count (l : Lay) : Nat := l.ext.foldl (· * ·) 1

/-- Whether a format has block scales. -/
def mxFmt (f : Nat) : Bool := 18 ≤ f

/-- The bytes of `n` elements of a format, packed (R347). -/
def packedBytes (f n : Nat) : Nat := (n * codeWidth f + 7) / 8

/-- The blocks of a row of an MX tensor and of the whole (R348). -/
def Lay.rowBlocks (l : Lay) : Nat := (lget l.ext 0 1 + 31) / 32
def Lay.blocks (l : Lay) : Nat := l.rowBlocks * (l.ext.drop 1).foldl (· * ·) 1

/-- The bytes of a tensor's packed image (R347). -/
def Lay.image (l : Lay) : Nat :=
  let n := packedBytes l.fmt l.count
  if mxFmt l.fmt then (n + 63) / 64 * 64 + l.blocks else n

/-- The element offsets of a tensor, in logical order: idx_0 runs fastest (R82). -/
def offsFrom : List (Nat × Int) → List Int
  | [] => [0]
  | (e, st) :: more => (offsFrom more).flatMap fun o => (List.range e).map fun i => o + st * (i : Nat)

def Lay.offs (l : Lay) : List Int := offsFrom (l.ext.zip l.str)

/-- A tensor at its place: the scratchpad, or device memory of a context from a base on; `tol`: an MX tensor on a page of
its tolerance class (R348). -/
structure Side where
  lay  : Lay
  dev  : Bool
  ctx  : Nat
  base : Nat
  tol  : Bool
  deriving DecidableEq, Repr

/-- An address of a tensor's space. -/
def Side.at' (t : Side) (off : Int) : Nat :=
  if t.dev then lowN 64 ((t.base : Int) + off) else lowN 22 ((t.base : Int) + off)

/-- The first byte of an element (R82, R348), and whether it is a high nibble. -/
def Side.elem (t : Side) (e : Int) : Nat × Bool :=
  let b := codeWidth t.lay.fmt
  let p := e * b / 8
  (t.at' (if t.tol then 4096 * (p / 3840) + 256 + p % 3840 else p), b = 4 && e % 2 = 1)

/-- The place of the scale of the block that begins at an element offset (R348). -/
def Side.scaleAt (t : Side) (e : Int) : Nat :=
  let b := codeWidth t.lay.fmt
  if t.tol then
    let g := e * b / 8 / (4 * b : Nat)
    let n : Int := if b = 4 then 240 else 120
    t.at' (4096 * (g / n) + g % n)
  else
    let emax := (t.lay.ext.zip t.lay.str).foldl (fun a x => a + ((x.1 : Int) - 1) * x.2) (0 : Int)
    let sa := 64 * ((((emax + 1) * b + 7) / 8 + 63) / 64)
    t.at' (sa + e / 32)

/-- The limits of an MX record off a tolerant page (R348). -/
def Lay.mxOk (l : Lay) : Bool :=
  lget l.str 0 0 == 1 && (l.str.drop 1).all fun x => decide (0 ≤ x) && x % 32 == 0

/-- Whether two formats convert (R349). -/
def convertible (f g : Nat) : Bool :=
  let ok (x : Nat) : Bool := x ≤ 5 || (8 ≤ x && x ≤ 17) || (18 ≤ x && x ≤ 20)
  f == g || (ok f && ok g)

/-- CRC-64/XZ (R148). -/
def crcBit : Nat → Nat → Nat
  | 0, c => c
  | n + 1, c => crcBit n (if c % 2 = 1 then c / 2 ^^^ 14514072000185962306 else c / 2)

def crc64 (bs : List Byte) : Nat :=
  (bs.foldl (fun c b => crcBit 8 ((c ^^^ b.toNat) % 256) ^^^ c / 256) 18446744073709551615) ^^^ 18446744073709551615

end Sys2Proof.Machine
end

