-- ==== Sys2Proof/Machine/Jobs.lean ====
section
/-! DEFINITION. What moves data: commands and packets read and write tensors through pinned pages (R29, R30, R345 to R351). A
job runs in one step once the lines that it reads from remote pages have come and no page that it writes is shade. -/

namespace Sys2Proof.Machine

/-- Who runs a job: its identity, its accessor (R102), its context, the core whose scratchpad it uses, the word whose
issue order decides what it sees there (R346), the queue that its forwarded writes belong to, and the lines answered. -/
structure Agent where
  owner : Nat × Nat
  acc   : Accessor
  ctx   : Nat
  core  : Nat
  word  : Option QWord
  qid   : Nat
  got   : List Got
  deriving DecidableEq, Repr

/-- A job in progress: the lines still missing (handle, address, length), the shade pages to promote first, and the bytes
that this command writes where it reads (R353), with their space. -/
structure Run where
  s    : State
  miss : List (BitVec 128 × Nat × Nat)
  prom : List (Nat × Nat)
  mine : Option (Side × Map PByte)
  deriving DecidableEq, Repr

/-- A run that starts. -/
def Run.start (s : State) : Run := { s, miss := [], prom := [], mine := none }

/-! ### Pages -/

/-- The die whose TLB an agent uses (R20, R30, R33): that of its core or of its stack; the spec names none for the others, which use the
die that the page's number gives (log 93). -/
def dieOf (a : Accessor) (va : Nat) : Nat :=
  match a with
  | .plain c | .strong c | .command c => if c < 1280 then c / 160 else va / 65536 % 8
  | .candle st => st / 2
  | _ => va / 65536 % 8

/-- The translation of a page for an agent, by its die's TLB with its direction as intent (R20, R22, R30, R345). -/
def agentTranslate (s : State) (ag : Agent) (ctx va : Nat) (write : Bool) : State × BitVec 128 :=
  let r := dieTranslate s (dieOf ag.acc va) ctx va (if write then 1 else 0)
  (r.1, mkHandle r.2 ctx va)

/-- The cause for which a page is refused (R345). -/
def refusal (s : State) (ag : Agent) (h : BitVec 128) (va : Nat) (write : Bool) : Option Nat :=
  if hRes h = 3 then some causeNotPresent
  else if write && !hWr h then some causeOwnership
  else if permitAt s ag.acc (hCtx h) va write false = .no then some causeOwnership
  else none

/-- The page of an access of an agent through its pin: the outcome recorded at acceptance (R345), and the check of every access against the
descriptor as it stands when the access is made (R100). -/
def pinned (s : State) (ag : Agent) (p : Pin) (va : Nat) : Except Nat (BitVec 128) :=
  match p.cause with
  | some c => .error c
  | none => if permitAt s ag.acc p.ctx va p.write false = .no then .error causeOwnership else .ok p.handle

/-- Pin the 64 KiB unit of an address; a valid handle gives the translation of its own page (R345). A page in a move is
pinned for a write only after it (R130). -/
def pinUnit (s : State) (ag : Agent) (ctx va : Nat) (write : Bool) (first : Option (BitVec 128)) : State :=
  let base := va / 65536 * 65536
  if (write && movingAt s ctx va) || s.mmu.pins.any fun p => p.owner = ag.owner && p.ctx = ctx && p.base = base && p.write = write then s
  else
    let own := match first with
      | some h => if hV h && hCtx h = ctx && hBase h ≤ va && va < hBase h + pageSize (hSize h) then some h else none
      | none => none
    let t := match own with
      | some h => (s, h)
      | none => agentTranslate s ag ctx va write
    let p : Pin := { id := t.1.mmu.nextId, ctx, base, size := 0, write, handle := t.2
                     cause := refusal t.1 ag t.2 base write, owner := ag.owner, revoked := false }
    { t.1 with mmu := { t.1.mmu with pins := t.1.mmu.pins ++ [p], nextId := t.1.mmu.nextId + 1 } }

/-- The page of an address for an agent: through its pin, or translated now; a write to a page in a move waits (R130), and so
does an owner's access while its region changes hands (R104). -/
def pageFor (r : Run) (ag : Agent) (ctx va : Nat) (write : Bool) : Run × Except Nat (BitVec 128) :=
  let base := va / 65536 * 65536
  let r := if permitAt r.s ag.acc ctx va write false = .wait then { r with prom := r.prom ++ [(ctx, va)] } else r
  match r.s.mmu.pins.find? fun p => p.owner = ag.owner && p.ctx = ctx && p.base = base && p.write = write with
  | some p => (r, pinned r.s ag p va)
  | none =>
    let t := agentTranslate r.s ag ctx va write
    let prom := if write && movingAt r.s ctx va then r.prom ++ [(ctx, va)] else r.prom
    ({ r with s := t.1, prom }, match refusal t.1 ag t.2 va write with | some c => .error c | none => .ok t.2)

/-! ### Bytes -/

/-- Bytes of a remote page from the lines that have come (R124); a line that has not is missing. -/
def remoteBytes (r : Run) (ag : Agent) (h : BitVec 128) (va n : Nat) : Run × List PByte × Option Nat :=
  (ranges 64 (n / 64 + 2) va n).foldl
    (fun a q =>
      match a.2.2 with
      | some _ => a
      | none =>
        match ag.got.find? fun g => g.va = q.1 && q.2 ≤ g.data.length || g.va = q.1 && g.st ≠ .ok with
        | some g =>
          if g.late then (a.1, a.2.1, some causeTimeout)
          else match g.st with
            | .ok => (a.1, a.2.1 ++ g.data.take q.2, none)
            | .ownership => (a.1, a.2.1, some causeOwnership)
            | .notPresent _ => (a.1, a.2.1, some causeNotPresent)
        | none =>
          match windowTarget a.1.s (hFrame h) q.1 q.2 with
          | none => (a.1, a.2.1, some causeNotPresent)
          | some (w, _) =>
            if unreachable a.1.s (bits w.w2.toNat 48 16) && !bit w.w0.toNat 62 then (a.1, a.2.1, some causeNotPresent)
            else ({ a.1 with miss := a.1.miss ++ [(h, q.1, q.2)] }, a.2.1 ++ List.replicate q.2 (0, false), none))
    (r, [], none)

/-- Bytes of a local page as an agent reads them: a command of a core may find an older state of a unit (R93, R112). -/
def agentBytes (s : State) (ag : Agent) (h : BitVec 128) (va : Nat) (bs : List PByte) : State × List PByte :=
  match ag.acc, (if hRes h = 0 then cellOf (hPhys h va) else none) with
  | .command c, some cell => if c < 1280 then readUnits s c cell bs (unitOf (hFormat h)) else (s, bs)
  | _, _ => (s, bs)

/-- Read bytes of device memory: those before the first refused page, and the cause. -/
def readDevice (r : Run) (ag : Agent) (ctx a n : Nat) : Run × List PByte × Option Nat :=
  (ranges 65536 (n / 65536 + 2) a n).foldl
    (fun x q =>
      match x.2.2 with
      | some _ => x
      | none =>
        match pageFor x.1 ag ctx q.1 false with
        | (r, .error c) => (r, x.2.1, some c)
        | (r, .ok h) =>
          match handleRead r.s h q.1 q.2 with
          | (s, .data bs) => let y := agentBytes s ag h q.1 bs; ({ r with s := y.1 }, x.2.1 ++ y.2, none)
          | (_, .remote) => let y := remoteBytes r ag h q.1 q.2; (y.1, x.2.1 ++ y.2.1, y.2.2))
    (r, [], none)

/-- Read bytes of the agent's scratchpad as its word is ordered (R346); poisoned bytes read as 0xFF (R55). -/
def readSpad (r : Run) (ag : Agent) (off n : Nat) : Run × List PByte :=
  let s := r.s
  let t := spadSeen { s with core := ag.core, word := ag.word } off n
  ({ r with s := { t.1 with core := s.core, word := s.word } }, t.2.1.map fun b => if b.2 then (255, true) else b)

/-- Whether two tensors lie in one space. -/
def sameSpace (t u : Side) : Bool := t.dev == u.dev && t.ctx == u.ctx

/-- Read bytes of a tensor's space; one that this command writes too is old or new (R353, log 6). -/
def readSpan (r : Run) (ag : Agent) (t : Side) (a n : Nat) : Run × List PByte × Option Nat :=
  let x := if t.dev then readDevice r ag t.ctx a n else let x := readSpad r ag a n; (x.1, x.2, none)
  match r.mine with
  | none => x
  | some (d, m) =>
    if !sameSpace d t then x
    else
      let y := (x.2.1.zip (List.range x.2.1.length)).foldl
        (fun (y : State × List PByte) b =>
          match Map.find m (a + b.2) with
          | none => (y.1, y.2 ++ [b.1])
          | some v => let p := pick y.1 (a + b.2); (p.1, y.2 ++ [if p.2 then v else b.1]))
        (x.1.s, [])
      ({ x.1 with s := y.1 }, y.2, x.2.2)

/-- Whether bytes of device memory may be written: the cause of the first refused page, or of a line outside its window. -/
def writeCheck (r : Run) (ag : Agent) (ctx a n : Nat) : Run × Option Nat :=
  (ranges 65536 (n / 65536 + 2) a n).foldl
    (fun x q =>
      match x.2 with
      | some _ => x
      | none =>
        match pageFor x.1 ag ctx q.1 true with
        | (r, .error c) => (r, some c)
        | (r, .ok h) =>
          if hRes h = 2 && (windowTarget r.s (hFrame h) q.1 q.2).isNone then (r, some causeNotPresent) else (r, none))
    (r, none)

/-- Write bytes of device memory whose pages have been checked. -/
def writeDevice (r : Run) (ag : Agent) (ctx a : Nat) (bs : List PByte) : Run :=
  (chunks 65536 (bs.length / 65536 + 3) a bs).foldl
    (fun r q =>
      match pageFor r ag ctx q.1 true with
      | (r, .error _) => r
      | (r, .ok h) =>
        match handleWrite r.s h q.1 q.2 (storeUse r.s ag.qid ag.core) with
        | (s, true) => { r with s }
        | (_, false) => { r with prom := r.prom ++ [(ctx, q.1)] })
    r

/-- A delivery into the scratchpad of the core that a job works for: one of its command, whose token orders words after it (R95, R113). -/
def landOwn (s : State) (ag : Agent) (d : Delivery) : State :=
  landFor s ag.core (match ag.word with | some w => w.num | none => foreign) d

/-- Write bytes of a tensor's space: a landing in the scratchpad (R65), or device memory. -/
def writeSpan (r : Run) (ag : Agent) (t : Side) (a : Nat) (bs : List PByte) : Run :=
  if t.dev then writeDevice r ag t.ctx a bs
  else { r with s := landOwn r.s ag { off := a, data := bs, bar := none, rest := 0, pois := false } }

/-! ### Elements -/

/-- Addresses of elements of `nb` bytes as runs: first address and count. -/
def addrRuns (nb : Nat) : List Nat → List (Nat × Nat)
  | [] => []
  | a :: as =>
    match addrRuns nb as with
    | (o, c) :: rs => if a + nb = o then (a, c + 1) :: rs else (a, 1) :: (o, c) :: rs
    | [] => [(a, 1)]

/-- Bytes as elements of `nb` bytes, each with its poison. -/
def elemsOf (nb : Nat) : Nat → List PByte → List (Nat × Bool)
  | 0, _ => []
  | fuel + 1, bs => if bs.length < nb ∨ bs = [] then [] else (leVal (bs.take nb), anyPois (bs.take nb)) :: elemsOf nb fuel (bs.drop nb)

/-- Read elements at their offsets, up to the first that needs a refused page. -/
def readElems (r : Run) (ag : Agent) (t : Side) (es : List Int) : Run × List (Nat × Bool) × Option Nat :=
  let b := codeWidth t.lay.fmt
  if b = 4 then
    es.foldl
      (fun x e =>
        match x.2.2 with
        | some _ => x
        | none =>
          let p := t.elem e
          match readSpan x.1 ag t p.1 1 with
          | (r, y :: _, none) => (r, x.2.1 ++ [(if p.2 then y.1.toNat / 16 else y.1.toNat % 16, y.2)], none)
          | (r, _, c) => (r, x.2.1, c))
      (r, [], none)
  else
    (addrRuns (b / 8) (es.map fun e => (t.elem e).1)).foldl
      (fun x q =>
        match x.2.2 with
        | some _ => x
        | none =>
          let y := readSpan x.1 ag t q.1 (q.2 * (b / 8))
          (y.1, x.2.1 ++ elemsOf (b / 8) q.2 y.2.1, y.2.2))
      (r, [], none)

/-- How many of the elements may be written, and the cause that stops the next (R345, R351). -/
def canWrite (r : Run) (ag : Agent) (t : Side) (es : List Int) : Run × Nat × Option Nat :=
  if !t.dev then (r, es.length, none)
  else
    let nb := max 1 (codeWidth t.lay.fmt / 8)
    es.foldl
      (fun x e =>
        match x.2.2 with
        | some _ => x
        | none =>
          match writeCheck x.1 ag t.ctx (t.elem e).1 nb with
          | (r, none) => (r, x.2.1 + 1, none)
          | (r, c) => (r, x.2.1, c))
      (r, 0, none)

/-- The bytes that elements fill, by address, the later one standing (R353): a nibble keeps the other half of its byte. -/
def fillBytes (t : Side) (old : Nat → PByte) (xs : List (Int × Nat × Bool)) : Map PByte :=
  let b := codeWidth t.lay.fmt
  xs.foldl
    (fun m x =>
      let p := t.elem x.1
      if b = 4 then
        let o := (Map.find m p.1).getD (old p.1)
        let v := if p.2 then o.1.toNat % 16 + 16 * (x.2.1 % 16) else o.1.toNat / 16 * 16 + x.2.1 % 16
        Map.set m p.1 (BitVec.ofNat 8 v, o.2 || x.2.2)
      else
        ((leBytes (b / 8) x.2.1).zip (List.range (b / 8))).foldl
          (fun m y => Map.set m (if t.dev then (p.1 + y.2) % 2 ^ 64 else (p.1 + y.2) % 4194304) (y.1, x.2.2)) m)
    []

/-- Bytes by address as runs. -/
def byteRuns : Map PByte → List (Nat × List PByte)
  | [] => []
  | (a, b) :: m =>
    match byteRuns m with
    | (o, bs) :: rs => if a + 1 = o then (a, b :: bs) :: rs else (a, [b]) :: (o, bs) :: rs
    | [] => [(a, [b])]

/-- The bytes of which elements fill one nibble alone. -/
def halfBytes (t : Side) (xs : List (Int × Nat × Bool)) : List Nat :=
  if codeWidth t.lay.fmt ≠ 4 then []
  else
    let ps := xs.map fun x => t.elem x.1
    ((ps.map (·.1)).eraseDups).filter fun a => !(ps.contains (a, true) && ps.contains (a, false))

/-- The bytes that elements fill, with the halves of bytes that stay. -/
def elemBytes (r : Run) (ag : Agent) (t : Side) (xs : List (Int × Nat × Bool)) : Run × Map PByte :=
  let y := (halfBytes t xs).foldl
    (fun (y : Run × Map PByte) a =>
      match readSpan { y.1 with mine := none } ag t a 1 with
      | (r, b :: _, _) => (r, Map.set y.2 a b)
      | (r, [], _) => (r, y.2))
    (r, [])
  ({ y.1 with mine := r.mine }, fillBytes t (fun a => Map.get (0, false) y.2 a) xs)

/-- Write bytes by address into a tensor's space. -/
def writeBytes (r : Run) (ag : Agent) (t : Side) (m : Map PByte) : Run :=
  (byteRuns m).foldl (fun r q => writeSpan r ag t q.1 q.2) r

/-- Write elements at their offsets, in logical order. -/
def writeElems (r : Run) (ag : Agent) (t : Side) (xs : List (Int × Nat × Bool)) : Run :=
  let y := elemBytes r ag t xs
  writeBytes y.1 ag t y.2

/-- The first element of the block of each element of an MX tensor, by logical index (R348). -/
def blockFirst (ext0 i : Nat) : Nat := i - i % ext0 % 32

/-- Read the scale of the block of each element; one that is refused stops at its element. -/
def readScales (r : Run) (ag : Agent) (t : Side) (offs : Array Int) (ix : List Nat) : Run × List (Nat × Bool) × Option Nat :=
  let e0 := max 1 (lget t.lay.ext 0 1)
  (ix.foldl
    (fun (x : (Run × List (Nat × Bool) × Option Nat) × Option (Nat × Nat × Bool)) i =>
      match x.1.2.2, x.2 with
      | some _, _ => x
      | none, last =>
        let f := blockFirst e0 i
        match (match last with | some l => if l.1 = f then some (l.2.1, l.2.2) else none | none => none) with
        | some v => ((x.1.1, x.1.2.1 ++ [v], none), last)
        | none =>
          match readSpan x.1.1 ag t (t.scaleAt ((offs[f]?).getD 0)) 1 with
          | (r, y :: _, none) => ((r, x.1.2.1 ++ [(y.1.toNat, y.2)], none), some (f, y.1.toNat, y.2))
          | (r, _, c) => ((r, x.1.2.1, c), none))
    ((r, [], none), none)).1

/-! ### Places, packed images and results -/

/-- The place of a tensor (R81, R146, R348): a record of a command names a handle; one whose handle is revoked is translated
again (R30). The cause of a record that its page does not allow. -/
def placeOf (s : State) (ag : Agent) (l : Lay) (h : Option (BitVec 128)) : Except Nat Side :=
  if l.spad then
    if mxFmt l.fmt && !l.mxOk then .error causeLayout else .ok { lay := l, dev := false, ctx := 0, base := l.base, tol := false }
  else
    let h := match h with
      | some h => if hV h then h else mkHandle (walk s (hCtx h) (hOrigin h)) (hCtx h) (hOrigin h)
      | none => mkHandle (walk s ag.ctx l.base) ag.ctx l.base
    let base := if ag.owner.2 = 4096 then lowN 64 ((hOrigin h : Int) + l.base) else l.base
    let f := hFormat h
    let tol := mxFmt l.fmt && hRes h == 0 && f.tol
    if tol && f.tcls ≠ (if l.fmt = 20 then 4 else 5) then .error 10
    else if tol && !aligned base 4096 then .error causeLayout
    else if mxFmt l.fmt && !tol && !l.mxOk then .error causeLayout
    else .ok { lay := l, dev := true, ctx := hCtx h, base, tol }

/-- The 64 KiB units of device memory that a tensor touches (R345). -/
def touched (t : Side) : List Nat :=
  if !t.dev then []
  else
    let offs := t.lay.offs
    let nb := max 1 (codeWidth t.lay.fmt / 8)
    let data := offs.foldl
      (fun us e =>
        let a := (t.elem e).1
        let lo := a / 65536
        let hi := (a + nb - 1) / 65536
        let us := if us.contains lo then us else us ++ [lo]
        if us.contains hi then us else us ++ [hi])
      []
    if !mxFmt t.lay.fmt then data
    else
      (List.range offs.length).foldl
        (fun us i =>
          if blockFirst (max 1 (lget t.lay.ext 0 1)) i ≠ i then us
          else
            let u := t.scaleAt (lget offs i 0) / 65536
            if us.contains u then us else us ++ [u])
        data

/-- Pin every page that a tensor touches (R29, R345). -/
def pinSide (s : State) (ag : Agent) (t : Side) (write : Bool) (h : Option (BitVec 128)) : State :=
  (touched t).foldl (fun s u => pinUnit s ag t.ctx (u * 65536) write h) s

/-- Whether a tensor without block scales lies on a page of class 4 or 5 (R348). -/
def wrongClass (s : State) (ag : Agent) (t : Side) : Bool :=
  t.dev && !mxFmt t.lay.fmt && s.mmu.pins.any fun p =>
    p.owner = ag.owner && p.cause.isNone && hRes p.handle == 0 && (hFormat p.handle).tol
      && ((hFormat p.handle).tcls == 4 || (hFormat p.handle).tcls == 5) && (touched t).contains (p.base / 65536)

/-- Elements packed without gaps, nibbles low first (R148, R347). -/
def packElems (b : Nat) : List (Nat × Bool) → List PByte
  | [] => []
  | x :: xs =>
    if b = 4 then
      match xs with
      | [] => [(BitVec.ofNat 8 (x.1 % 16), x.2)]
      | y :: ys => (BitVec.ofNat 8 (x.1 % 16 + 16 * (y.1 % 16)), x.2 || y.2) :: packElems b ys
    else (leBytes (b / 8) x.1).map (fun y => (y, x.2)) ++ packElems b xs

/-- What a job comes to: its result, the image bytes that its barrier counts, and how many it would count at DONE (R350). -/
structure JobOut where
  res    : PRes
  landed : Nat
  want   : Nat
  flags  : BitVec 7
  deriving DecidableEq, Repr

/-- A stop before anything has moved (R351). -/
def stopped0 (cause want : Nat) : JobOut :=
  { res := { status := 3, cause, bytes := 0, elems := 0, pois := false, crc := none }, landed := 0, want, flags := 0 }

/-- The status and cause of a stop. -/
def resOf (stop : Option Nat) (bytes elems : Nat) (pois : Bool) : PRes :=
  { status := if stop.isSome then 3 else 1, cause := stop.getD 0, bytes, elems, pois, crc := none }

/-- The packed image of a tensor as far as it can be read: the bytes, the elements read and the cause of a stop (R347). -/
def readImage (r : Run) (ag : Agent) (t : Side) : Run × List PByte × Nat × Option Nat :=
  let offs := t.lay.offs
  let x := readElems r ag t offs
  let body := packElems (codeWidth t.lay.fmt) x.2.1
  if x.2.2.isSome || !mxFmt t.lay.fmt then (x.1, body, x.2.1.length, x.2.2)
  else
    let firsts := (List.range offs.length).filter fun i => blockFirst (max 1 (lget t.lay.ext 0 1)) i == i
    let y := readScales x.1 ag t offs.toArray firsts
    let pad := List.replicate ((body.length + 63) / 64 * 64 - body.length) ((0, false) : PByte)
    let sc := y.2.1.map fun v => ((BitVec.ofNat 8 v.1, v.2) : PByte)
    (y.1, body ++ pad ++ sc, if y.2.2.isSome then lget firsts sc.length 0 else offs.length, y.2.2)

end Sys2Proof.Machine
end

