-- ==== Sys2Proof/Machine/Moves.lean ====
section
/-! DEFINITION. Moving elements from tensor to tensor with conversion (R347 to R349, R353, R355), and packed images (R356,
R357). What a command, a packet or a collective moves goes through here. -/

namespace Sys2Proof.Machine

/-- The rest of the causes of R151. -/
def causeTreeAlign : Nat := 6
def causeState : Nat := 7
def causeFormat : Nat := 10

/-- An element of an array, or a value where there is none. -/
def aget {α : Type} (l : Array α) (i : Nat) (d : α) : α := (l[i]?).getD d

/-- The length of dimension 0 of a tensor, along which its blocks run. -/
def rowLen (t : Side) : Nat := max 1 (lget t.lay.ext 0 1)

/-- What a move has come to: the elements moved, the cause that stops the next, the bytes to write by address, the poison
and the flags. -/
structure Moved where
  n     : Nat
  cause : Option Nat
  bytes : Map PByte
  pois  : Bool
  flags : FlagSet
  deriving DecidableEq, Repr

/-- A source element: its bits, its poison, and the scale of its block with its poison. -/
structure SrcElem where
  bits  : Nat
  pois  : Bool
  scale : Nat × Bool
  deriving DecidableEq, Repr

/-- The value of a source element (R349). -/
def srcValue (g : Nat) (x : SrcElem) : FVal :=
  if mxFmt g then mxValue (mxElement g) x.bits x.scale.1 else elemValue g x.bits

/-- A source element delivered in a destination format without block scales (R349). -/
def convertElem (f g : Nat) (x : SrcElem) : Nat × FlagSet :=
  if f = g then (x.bits, 0)
  else if mxFmt g then
    match floatFmt f with
    | some fmt => fmt.cvt (srcValue g x) 0 true
    | none => cvtInt f (srcValue g x) 0 true
  else convert f g x.bits 0 true

/-- Elements of a destination, each with its source format, grouped by their blocks: the logical index of the first of the
block, and its elements. -/
def byBlock (e0 : Nat) : Map (Nat × SrcElem) → List (Nat × List (Nat × Nat × SrcElem))
  | [] => []
  | (i, x) :: m =>
    match byBlock e0 m with
    | (f, xs) :: bs => if blockFirst e0 i = f then (f, (i, x) :: xs) :: bs else (blockFirst e0 i, [(i, x)]) :: (f, xs) :: bs
    | [] => [(blockFirst e0 i, [(i, x)])]

/-- A block of an MX destination (R195, R196, R349): its elements by position, its scale, the poison and the flags. -/
def mxBlock (f e0 first : Nat) (xs : List (Nat × Nat × SrcElem)) : List (Nat × Nat) × Nat × Bool × FlagSet :=
  let e := mxElement f
  let pois := xs.any fun x => x.2.2.pois
  if xs.all fun x => x.2.1 = f then
    (xs.map fun x => (x.1 - first, x.2.2.bits), (match xs with | x :: _ => x.2.2.scale.1 | [] => 127)
      , pois || (match xs with | x :: _ => x.2.2.scale.2 | [] => false), 0)
  else
    let q := mxQuantise e ((List.range 32).map fun j => (xs.find? fun x => x.1 = first + j).map fun x => srcValue x.2.1 x.2.2)
    let gone := (List.range 32).filter fun j => e0 ≤ first % e0 + j
    (xs.map (fun x => (x.1 - first, lget q.2.1 (x.1 - first) 0)) ++ gone.map (fun j => (j, 0)), q.1, pois
      , if pois then 0 else q.2.2)

/-- Lay converted elements out for a destination, without writing them: the bytes by address and the flags (R349). Each
element stands with its logical index and its source format. -/
def layElems (r : Run) (ag : Agent) (dst : Side) (dO : Array Int) (xs : List (Nat × Nat × SrcElem)) :
    Run × Map PByte × FlagSet :=
  let f := dst.lay.fmt
  if !mxFmt f then
    let ys := xs.map fun x => (x.1, convertElem f x.2.1 x.2.2, x.2.2.pois)
    let b := elemBytes r ag dst (ys.map fun y => (aget dO y.1 0, y.2.1.1, y.2.2))
    (b.1, b.2, ys.foldl (fun a y => if y.2.2 then a else a ||| y.2.1.2) 0)
  else
    let m : Map (Nat × SrcElem) := xs.foldl (fun m x => Map.set m x.1 x.2) []
    let blocks := (byBlock (rowLen dst) m).map fun b => (b.1, mxBlock f (rowLen dst) b.1 b.2)
    let elems := blocks.flatMap fun b => b.2.1.map fun x =>
      ((if lget dst.lay.str 0 0 = 1 then aget dO b.1 0 + (x.1 : Int) else aget dO (b.1 + x.1) 0), x.2, b.2.2.2.1)
    let y := elemBytes r ag dst elems
    let bytes := blocks.foldl
      (fun m b => Map.set m (dst.scaleAt (aget dO b.1 0)) (BitVec.ofNat 8 b.2.2.1, b.2.2.2.1)) y.2
    (y.1, bytes, blocks.foldl (fun a b => a ||| b.2.2.2.2) 0)

/-- How many of the elements may be written as far as their blocks' scales go, and the cause that stops the next. -/
def scalesOpen (r : Run) (ag : Agent) (t : Side) (offs : Array Int) (ix : List Nat) : Run × Nat × Option Nat :=
  if !t.dev || !mxFmt t.lay.fmt then (r, ix.length, none)
  else
    ix.foldl
      (fun x i =>
        match x.2.2 with
        | some _ => x
        | none =>
          match writeCheck x.1 ag t.ctx (t.scaleAt (aget offs (blockFirst (rowLen t) i) 0)) 1 with
          | (r, none) => (r, x.2.1 + 1, none)
          | (r, c) => (r, x.2.1, c))
      (r, 0, none)

/-- The earliest stop of several: where it is and its cause. -/
def firstStop (all : Nat) (l : List (Nat × Option Nat)) : Nat × Option Nat :=
  l.foldl (fun b x => match x.2 with | some _ => if x.1 < b.1 ∨ (b.2.isNone ∧ x.1 = b.1) then x else b | none => b) (all, none)

/-- Read source elements, convert them and lay them out for the destination, without writing them: `pairs` gives the
logical indices (destination, source) in order, `unit` how many elements stand or fall together (R351). -/
def moveOnce (r : Run) (ag : Agent) (dst src : Side) (pairs : List (Nat × Nat)) (unit : Nat) : Run × Moved :=
  let so := src.lay.offs.toArray
  let dO := dst.lay.offs.toArray
  let g := src.lay.fmt
  let e1 := readElems r ag src (pairs.map fun p => aget so p.2 0)
  let e2 := if mxFmt g then readScales e1.1 ag src so (pairs.map (·.2)) else (e1.1, [], none)
  let e3 := canWrite e2.1 ag dst (pairs.map fun p => aget dO p.1 0)
  let e4 := scalesOpen e3.1 ag dst dO (pairs.map (·.1))
  let stop := firstStop pairs.length
    [(e1.2.1.length, e1.2.2), (e2.2.1.length, e2.2.2), (e3.2.1, e3.2.2), (e4.2.1, e4.2.2)]
  let n := stop.1 / max 1 unit * max 1 unit
  let scales := if mxFmt g then e2.2.1 else e1.2.1.map fun _ => (127, false)
  let xs : List (Nat × Nat × SrcElem) := ((pairs.zip (e1.2.1.zip scales)).take n).map fun x =>
    (x.1.1, g, { bits := x.2.1.1, pois := x.2.1.2 || x.2.2.2, scale := x.2.2 })
  let y := layElems e4.1 ag dst dO xs
  (y.1, { n, cause := stop.2, bytes := y.2.1, pois := xs.any fun x => x.2.2.pois, flags := y.2.2 })

/-- The lowest and the highest of some numbers. -/
def hull (l : List Nat) : Option (Nat × Nat) :=
  l.foldl (fun h a => match h with | none => some (a, a) | some (x, y) => some (min x a, max y a)) none

/-- Whether what a move writes may touch what it reads. -/
def mayTouch (dst src : Side) (pairs : List (Nat × Nat)) (bytes : Map PByte) : Bool :=
  let so := src.lay.offs.toArray
  let data := pairs.map fun p => (src.elem (aget so p.2 0)).1
  let scales := if mxFmt src.lay.fmt then pairs.map fun p => src.scaleAt (aget so (blockFirst (rowLen src) p.2) 0) else []
  sameSpace dst src && match hull (data ++ scales), hull (bytes.map (·.1)) with
    | some (a, b), some (c, d) => c < b + 8 && a ≤ d
    | _, _ => false

/-- Passes of a move over itself: what it reads where it writes is old or new (R353). -/
def movePasses (ag : Agent) (dst src : Side) (pairs : List (Nat × Nat)) (unit : Nat) : Nat → Run × Moved → Run × Moved
  | 0, p => p
  | n + 1, p => movePasses ag dst src pairs unit n (moveOnce { p.1 with mine := some (dst, p.2.bytes) } ag dst src pairs unit)

/-- Move elements (R349, R353); `apart`: every source element is read before any is written (R355). -/
def moveElems (r : Run) (ag : Agent) (dst src : Side) (pairs : List (Nat × Nat)) (unit : Nat) (apart : Bool) :
    Run × Moved :=
  let p := moveOnce r ag dst src pairs unit
  let p := if apart || !mayTouch dst src pairs p.2.bytes then p else movePasses ag dst src pairs unit pairs.length p
  (writeBytes { p.1 with mine := none } ag dst p.2.bytes, p.2)

/-- The image bytes of the first `n` elements of a tensor (R347, R351). -/
def imageOf (l : Lay) (n : Nat) : Nat := if n = l.count then l.image else packedBytes l.fmt n

/-- What a tensor record of a job stands for. -/
def tensorOf (s : State) (ag : Agent) (rec : List PByte) (h : BitVec 128) : Except Nat Side :=
  match parseLay rec (ag.owner.2 ≠ 4096) with
  | .error c => .error c
  | .ok l => placeOf s ag l (if ag.owner.2 = 4096 then some h else none)

/-- The image of a record, 0 where it is malformed (R350). -/
def wantOf (ag : Agent) (rec : List PByte) : Nat :=
  match parseLay rec (ag.owner.2 ≠ 4096) with | .ok l => l.image | .error _ => 0

/-- A record of a job and the handle captured with it. -/
def jobRec (j : Job) (i : Nat) : List PByte := lget j.recs i []
def jobHandle (j : Job) (i : Nat) : BitVec 128 := lget j.hs i 0

/-- The result of a tensor move whose units are `per` elements each; `base` units and elements were done before. -/
def moveOut (dst : Lay) (want base : Nat) (unit : Nat) (stop : Option Nat) (m : Moved) : JobOut :=
  let n := base + m.n
  let b := imageOf dst n - imageOf dst base
  { res := resOf stop (imageOf dst n) (n / max 1 unit) m.pois, landed := b, want, flags := m.flags }

/-- cpy, and a COPY packet from element `base` on (R353, R352). -/
def copyJob (r : Run) (ag : Agent) (j : Job) (base : Nat) : Run × JobOut :=
  let want := wantOf ag (jobRec j 0)
  match tensorOf r.s ag (jobRec j 0) (jobHandle j 0), tensorOf r.s ag (jobRec j 1) (jobHandle j 1) with
  | .error c, _ => (r, stopped0 c want)
  | .ok _, .error c => (r, stopped0 c want)
  | .ok dst, .ok src =>
    if dst.lay.count ≠ src.lay.count || !convertible dst.lay.fmt src.lay.fmt then (r, stopped0 causeLayout want)
    else if wrongClass r.s ag dst || wrongClass r.s ag src then (r, stopped0 causeFormat want)
    else
      let n := src.lay.count
      let p := moveElems r ag dst src (((List.range n).drop base).map fun i => (i, i)) 1 false
      (p.1, moveOut dst.lay want (min base n) 1 p.2.cause p.2)

/-- The rows of a record (R355): how many, and the elements of each. -/
def Lay.rows (l : Lay) : Nat := lget l.ext (l.rank - 1) 1
def Lay.rowSize (l : Lay) : Nat := (l.ext.mapIdx fun i e => if i = l.rank - 1 then 1 else e).foldl (· * ·) 1

/-- Read row numbers in logical order up to the first that stops the command (R355). -/
def readRows (r : Run) (ag : Agent) (idx : Side) (rows : Nat) : Run × List Nat × Option Nat :=
  let x := readElems r ag idx idx.lay.offs
  let y := x.2.1.foldl
    (fun (y : List Nat × Option Nat) e =>
      match y.2 with
      | some _ => y
      | none =>
        let v := intOf idx.lay.fmt e.1
        if e.2 then (y.1, some causePoison)
        else if v < 0 ∨ (rows : Int) ≤ v then (y.1, some causeLayout)
        else (y.1 ++ [v.toNat], none))
    ([], none)
  (x.1, y.1, if y.2.isSome then y.2 else x.2.2)

/-- The refused page that keeps cmpct from reading (R355): one of either tensor's pins. -/
def refusedPin (s : State) (ag : Agent) (t : Side) (write : Bool) : Option Nat :=
  (s.mmu.pins.find? fun p =>
    p.owner = ag.owner && p.write = write && p.cause.isSome && t.dev && p.ctx = t.ctx
      && (touched t).contains (p.base / 65536)).bind (·.cause)

/-- The image bytes of `n` rows of a record: those of their elements and of their blocks' scales (R347, R355). -/
def rowsImage (l : Lay) (n : Nat) : Nat :=
  packedBytes l.fmt (n * l.rowSize)
    + if !mxFmt l.fmt then 0 else if l.rank = 1 then n else n * (l.blocks / max 1 l.rows)

/-- What a row move lands at DONE (R350): the whole destination, or for scat the rows that the index record names. -/
def rowsWant (ag : Agent) (j : Job) (kind : Nat) : Nat :=
  if kind ≠ 1 then wantOf ag (jobRec j 0)
  else
    match parseLay (jobRec j 0) (ag.owner.2 ≠ 4096), parseLay (jobRec j 2) (ag.owner.2 ≠ 4096) with
    | .ok d, .ok x => rowsImage d x.count
    | _, _ => 0

/-- Row moves (R355): gath (0), scat (1) and cmpct (2). -/
def rowsJob (r : Run) (ag : Agent) (j : Job) (kind : Nat) : Run × JobOut :=
  let want := rowsWant ag j kind
  match tensorOf r.s ag (jobRec j 0) (jobHandle j 0), tensorOf r.s ag (jobRec j 1) (jobHandle j 1),
      tensorOf r.s ag (jobRec j 2) (jobHandle j 2) with
  | .error c, _, _ => (r, stopped0 c want)
  | .ok _, .error c, _ => (r, stopped0 c want)
  | .ok _, .ok _, .error c => (r, stopped0 c want)
  | .ok dst, .ok src, .ok idx =>
    let table := if kind = 1 then dst.lay else src.lay
    let flat := if kind = 1 then src.lay else dst.lay
    let size := table.rowSize
    let n := idx.lay.count
    if ! [10, 11, 14, 15].contains idx.lay.fmt || flat.count ≠ n * size || !convertible dst.lay.fmt src.lay.fmt
        || (kind = 2 && 1048576 < src.lay.image) then (r, stopped0 causeLayout want)
    else if wrongClass r.s ag dst || wrongClass r.s ag src || wrongClass r.s ag idx then (r, stopped0 causeFormat want)
    else
      match (if kind = 2 then refusedPin r.s ag src false <|> refusedPin r.s ag dst true else none) with
      | some c => (r, stopped0 c want)
      | none =>
        let x := readRows r ag idx table.rows
        let pairs := (x.2.1.zip (List.range x.2.1.length)).flatMap fun q =>
          (List.range size).map fun t =>
            if kind = 1 then (q.1 * size + t, q.2 * size + t) else (q.2 * size + t, q.1 * size + t)
        let p := moveElems x.1 ag dst src pairs size (kind = 2)
        let stop := if p.2.cause.isSome then p.2.cause else x.2.2
        let units := if size = 0 then x.2.1.length else p.2.n / size
        let bytes := if kind = 1 then rowsImage dst.lay units else imageOf dst.lay p.2.n
        (p.1, { res := resOf stop bytes units p.2.pois, landed := bytes, want, flags := p.2.flags })

/-- cpyh (R354): `a` and `b` are the registers, `c` the control word. -/
def flatJob (r : Run) (ag : Agent) (j : Job) (a b c : Nat) : Run × JobOut :=
  let n := bits c 0 24
  let l : Lay := { base := 0, hidx := 0, fmt := 12, spad := false, rank := 1, ext := [n], str := [1] }
  let h := jobHandle j 0
  let dev : Side := { lay := l, dev := true, ctx := hCtx h, base := lowN 64 ((hOrigin h : Int) + b), tol := false }
  let spad : Side := { lay := { l with spad := true }, dev := false, ctx := 0, base := spadOff a, tol := false }
  let p := if bit c 40 then moveElems r ag dev spad ((List.range n).map fun i => (i, i)) 1 false
           else moveElems r ag spad dev ((List.range n).map fun i => (i, i)) 1 false
  (p.1, moveOut l n 0 1 p.2.cause p.2)

/-- csum, and the checksum of a MARKER (R148, R360). -/
def sumJob (r : Run) (ag : Agent) (j : Job) : Run × JobOut :=
  match tensorOf r.s ag (jobRec j 0) (jobHandle j 0) with
  | .error c => (r, stopped0 c 0)
  | .ok t =>
    if wrongClass r.s ag t then (r, stopped0 causeFormat 0)
    else
      let x := readElems r ag t t.lay.offs
      let n := x.2.1.length
      let bs := packElems (codeWidth t.lay.fmt) x.2.1
      let res := resOf x.2.2 (imageOf t.lay n) n (anyPois bs)
      (x.1, { res := { res with crc := if x.2.2.isNone then some (crc64 (bs.map (·.1))) else none }
              landed := 0, want := 0, flags := 0 })

/-- The packed image of a source tensor with how far it could be read: bytes, elements, the cause of a stop, and the whole
image's length (R347, R351). -/
def imageJob (r : Run) (ag : Agent) (rec : List PByte) (h : BitVec 128) :
    Run × Except Nat (List PByte × Nat × Option Nat) × Nat :=
  match tensorOf r.s ag rec h with
  | .error c => (r, .error c, wantOf ag rec)
  | .ok t =>
    if wrongClass r.s ag t then (r, .error causeFormat, t.lay.image)
    else let x := readImage r ag t; (x.1, .ok x.2, t.lay.image)

end Sys2Proof.Machine
end

