-- ==== Sys2Proof/Machine/Commands.lean ====
section
/-! DEFINITION. Commands from acceptance to completion (R343 to R346, R350, R351, R113), and their targets (R356). -/

namespace Sys2Proof.Machine

/-! ### Targets (R356) -/

/-- Whether a task is the one that a target names. -/
def isTarget (t : Target) (u : Task) : Bool := u.qid == t.qid && u.packet == t.packet && u.ord == t.ord

/-- The task that a core runs, as a target for commands of a context; none where it runs no task of that context. -/
def targetOf (s : State) (ctx core : Nat) : Option Target :=
  match (getCore s core).task with
  | some t => if t.ctx = ctx then some { core, qid := t.qid, packet := t.packet, ord := t.ord } else none
  | none => none

/-- The core that runs the task of a target now. -/
def targetCore (s : State) (t : Target) : Option Nat :=
  (s.cores.find? fun c => match c.2.task with | some u => isTarget t u | none => false).map (·.1)

/-- Whether the task of a target is saved. -/
def targetSaved (s : State) (t : Target) : Bool :=
  match getLaunch s t.qid t.packet with
  | some l => l.saved.any fun u => u.2.any fun v => isTarget t v.task
  | none => false

/-- A delivery reaches its target: it lands, or is held for a saved task (R356, R411); one whose task has ended is dropped. `own`: the core
whose command it is, with the command's head. -/
def deliverTo (s : State) (t : Target) (d : Delivery) (own : Nat × Nat := (65535, foreign)) : State × Bool :=
  match targetCore s t with
  | some c => (landFor s c (if own.1 = c then own.2 else foreign) d, true)
  | none =>
    if targetSaved s t then
      (modLaunch s t.qid t.packet fun l =>
        { l with saved := l.saved.map fun u =>
            (u.1, u.2.map fun v => if isTarget t v.task then { v with held := v.held ++ [d] } else v) }, true)
    else (s, false)

/-! ### Acceptance (R344, R345) -/

/-- The word that stands for a command: what its head is ordered after, it sees (R346). -/
def cmdWord (k : Cmd) : QWord :=
  { seq := 0, eng := .c, num := k.num, addr := 0, head := 0, next := 0, deps := [], instr := k.instr, np := k.np
    origin := .fetched, lref := 0, loop := none, asleep := false, held := none }

/-- The agent that runs a command of a core. -/
def agentOf (s : State) (core : Nat) (k : Cmd) : Agent :=
  let c := getCore s core
  { owner := (k.uid, 4096), acc := .command core, ctx := (match c.task with | some t => t.ctx | none => 0), core
    word := some (cmdWord k), qid := (match c.task with | some t => t.qid | none => 0), got := k.job.got }

/-- Whether the C engine may accept a command (R345); it waits while a transfer of ownership is in progress (R104). -/
def hasRoom (k : Core) : Bool := decide (k.cmds.length + k.evq.length < 64) && k.transit.isNone

/-- The checks of R344 on alignment and values, then acceptance. Each offset comes with its alignment, and each value that
must fit 22 bits stands in `offs`. -/
def cWord (s : State) (aligns : List (Nat × Nat)) (offs : List W64) (legal : Bool) (go : State → State) : State :=
  match aligns.find? fun p => !aligned p.1 p.2 with
  | some p => raise s tAlign (BitVec.ofNat 64 p.1) 0
  | none =>
    if !legal || offs.any fun v => 4194304 ≤ v.toNat then raiseWord s tIllegal
    else if !hasRoom (here s) then stall s
    else go s

/-- The profile of a long C word (R206, R344). -/
def longProfile (s : State) (prof : BitVec 6) (go : State → Nat → State) : State :=
  match s.word with
  | none => s
  | some w =>
    match profileOf w.np prof with
    | none => raiseWord s tProfile
    | some np => go s np

/-- Capture bytes of the scratchpad (R84). -/
def capture (s : State) (off n : Nat) : State × List PByte := spadCaptured s off n

/-- Capture several 64-byte records. -/
def captureRecs (s : State) (offs : List Nat) : State × List (List PByte) :=
  offs.foldl (fun a o => let r := capture a.1 o 64; (r.1, a.2 ++ [r.2])) (s, [])

/-- The handles that records name (R345), 0 for a record of the scratchpad; none while one of them waits for its walk. -/
def captureHandles (s : State) (recs : List (List PByte)) : State × Option (List (BitVec 128)) :=
  recs.foldl
    (fun a rec =>
      match a.2, parseLay rec false with
      | none, _ => a
      | some hs, .ok l =>
        if l.spad then (a.1, some (hs ++ [0]))
        else
          match handleSeen a.1 (BitVec.ofNat 4 l.hidx) with
          | (s, some h, _) => (s, some (hs ++ [h]))
          | (s, none, _) => (s, none)
      | some hs, .error _ => (a.1, some (hs ++ [0])))
    (s, some [])

/-- Accept a command (R345): `prep` pins its pages and fixes what acceptance decides; `es` are the events that carry it
out. -/
def acceptCmd (s : State) (np : Nat) (tag : BitVec 8) (a b c : W64) (job : Job) (prep : State → Agent → Cmd → State × Job)
    (es : Nat → Nat → List Event) : State :=
  match s.word with
  | none => s
  | some w =>
    let uid := s.mmu.nextId
    let s := { s with mmu := { s.mmu with nextId := uid + 1 } }
    let k : Cmd := { uid, instr := w.instr, num := w.num, np, tag, a, b, c, job }
    let r := prep s (agentOf s s.core k) k
    let core := s.core
    due (retireOpen (onHere r.1 fun x => { x with cmds := Map.set x.cmds uid { k with job := r.2 } })) (es core uid)

/-- A barrier field of a captured descriptor that is not 16-byte aligned traps (R344); `at'` is where the field lies. -/
def barField (s : State) (d : List PByte) (at' : Nat) (go : State → State) : State :=
  let o := bits (leVal d) at' 22
  if !anyPois d && !aligned o 16 then raise s tAlign (BitVec.ofNat 64 o) 0 else go s

/-- The event that completes a command. -/
def completes (core uid : Nat) : List Event := [.commandComplete core uid]

/-- Pin the pages of the tensors of a job; the Bools tell which of them are destinations. -/
def pinRecs (s : State) (ag : Agent) (j : Job) (dirs : List Bool) : State :=
  (dirs.zip (List.range dirs.length)).foldl
    (fun s d =>
      match tensorOf s ag (jobRec j d.2) (jobHandle j d.2) with
      | .ok t => pinSide s ag t d.1 (some (jobHandle j d.2))
      | .error _ => s)
    s

/-- Accept a command of tensors whose records stand at offsets of the scratchpad. -/
def acceptTensors (s : State) (tag : BitVec 8) (a b c : W64) (offs : List Nat) (dirs : List Bool)
    (es : Nat → Nat → List Event) : State :=
  let r := captureRecs s offs
  match captureHandles r.1 r.2 with
  | (s, none) => stall s
  | (s, some hs) =>
    acceptCmd s 0 tag a b c { Job.empty with recs := r.2, hs } (fun s ag k => (pinRecs s ag k.job dirs, k.job)) es

/-! ### Completion (R113, R350, R351) -/

/-- The completion record of a command or packet (R151). -/
def recordOf (r : PRes) (kind tag : Nat) : Record :=
  { w0 := BitVec.ofNat 64 (r.status + r.cause * 256 + b2n r.pois * 65536 + b2n r.crc.isSome * 131072 + kind * 1048576
            + tag * 16777216)
    w1 := BitVec.ofNat 64 (min r.bytes 1099511627775), w2 := BitVec.ofNat 64 (min r.elems 1099511627775)
    w3 := BitVec.ofNat 64 (r.crc.getD 0) }

/-- Find a command of a core. -/
def getCmd (s : State) (core uid : Nat) : Option Cmd := Map.find (getCore s core).cmds uid

def setCmd (s : State) (core : Nat) (k : Cmd) : State :=
  let c := getCore s core
  setCore s core { c with cmds := Map.set c.cmds k.uid k }

/-- What a command has landed in its core's scratchpad is counted by the barrier that it names, and by no other (R97, R116). -/
def tagLandings (k : Core) (num : Nat) (bar : Option Nat) : Core :=
  let tag (p : Past) : Past := if p.landed && p.num = num && p.bar.isNone then { p with bar } else p
  { k with iss := { k.iss with past := k.iss.past.map tag } }

/-- The end of a command: its barrier counts what landed and is settled, its flags and its record are written, its pins go
and its token comes (R113, R200, R350, R351). -/
def endCmd (s : State) (core : Nat) (k : Cmd) (bar : Option Nat) (o : JobOut) : State :=
  let rest := if o.res.status = 1 then 0 else o.want - o.landed
  let s := countBar s core bar o.landed rest o.res.pois false
  let c := cmdFlags (tagLandings (getCore s core) k.num bar) k.num o.flags
  let c := { c with evq := c.evq ++ [recordOf o.res 0 k.tag.toNat], cmds := Map.erase c.cmds k.uid }
  unpin (produce (setCore s core c) core .c k.num) (k.uid, 4096)

/-- The lines of a job that are not on their way yet. -/
def askLines (s : State) (id q : Nat) (miss : List (BitVec 128 × Nat × Nat)) : State :=
  miss.foldl
    (fun s m =>
      if s.fab.lines.any fun l => l.use = .command id q m.2.1 then s
      else
        match windowTarget s (hFrame m.1) m.2.1 m.2.2 with
        | some (w, t) => sendLine s w t m.2.2 none 0 (.command id q m.2.1) m.2.1 (handlePage m.1)
        | none => s)
    s

/-- What a run comes to: it waits for lines (its event comes again with their answers) or for promotions (it tries again),
or it is over. -/
def settleRun {α : Type} (s : State) (id q : Nat) (e : Event) (r : Run × α) (done : State → α → State) : State :=
  if !r.1.miss.isEmpty then askLines s id q r.1.miss
  else if !r.1.prom.isEmpty then due (r.1.prom.foldl (fun s p => promote s p.1 p.2) s) [e]
  else done r.1.s r.2

/-- The result of a command is known: it completes. -/
def setRes (s : State) (core : Nat) (k : Cmd) (r : PRes) : State :=
  due (setCmd s core { k with job := { k.job with res := some r } }) [.commandComplete core k.uid]

/-- What stops a command at acceptance with a cause (R351). -/
def stopJob (j : Job) (cause : Nat) : Job :=
  { j with res := some { status := 3, cause, bytes := 0, elems := 0, pois := false, crc := none } }

/-- Run a command whose own barrier is `bar`. -/
def runCmd (s : State) (core : Nat) (k : Cmd) (bar : Option Nat) (f : Run → Agent → Run × JobOut) : State :=
  settleRun s k.uid 4096 (.commandComplete core k.uid) (f (Run.start s) (agentOf s core k)) fun s o =>
    endCmd s core k bar o

end Sys2Proof.Machine
end

