-- ==== Sys2Proof/Machine/Exponent.lean ====
section
/-! DEFINITION. The exponent engine: its function sets and instructions (spec/13_exponent_engine_instructions.md R301 to
R309). -/

namespace Sys2Proof.Machine

/-- An FP32 encoding as a value. -/
def c32 (x : Nat) : FVal := fFP32.value x

/-- round_rne to FP32, as a value (R304). -/
def r32 (x : FVal) : FVal := fFP32.value (fFP32.rne x).1

/-- rnd of a function set (R303). -/
def rnd (np : Nat) (x : FVal) : FVal := (nodeFmt np).value ((nodeFmt np).rne x).1

/-- Exact sums and products of finite values. -/
def addX (x y : FVal) : FVal := (addNumbers x y false).1
def mulX (x y : FVal) : FVal := (mulNumbers x y).1

/-- x / y rounded once to FP32 RNE, for finite x and finite nonzero y: bits and flags. -/
def divBits (x y : FVal) : Nat × FlagSet :=
  match x, y with
  | .fin nx p ex, .fin ny q ey =>
    let neg := nx != ny
    if p = 0 ∨ q = 0 then (fFP32.pack neg 0 0, 0)
    else
      let d : Int := (Nat.log2 p : Int) - Nat.log2 q
      let below := if 0 ≤ d then decide (p < q * 2 ^ d.toNat) else decide (p * 2 ^ (-d).toNat < q)
      let top := max ((if below then d - 1 else d) + ex - ey) fFP32.emin
      let n := ex - ey - (top - fFP32.mant)
      let num := if 0 ≤ n then p * 2 ^ n.toNat else p
      let den := if 0 ≤ n then q else q * 2 ^ (-n).toNat
      let sticky := if num % den = 0 then 0 else 1
      fFP32.round neg (4 * (num / den) + 2 * (if den ≤ 2 * (num % den) then 1 else 0)
        + (if 2 * (num % den) = den then 0 else sticky)) (top - fFP32.mant - 2) 0 false
  | _, _ => (0, 0)

def divX (x y : FVal) : FVal := fFP32.value (divBits x y).1

/-- The integer square root, bit by bit from `2 ^ fuel` down. -/
def isqrtFrom (x : Nat) : Nat → Nat → Nat
  | 0, r => r
  | i + 1, r => let t := r + 2 ^ i; isqrtFrom x i (if t * t ≤ x then t else r)

/-- √x rounded once to FP32 RNE, for finite positive x: 80 bits of the root and a sticky bit decide the rounding. -/
def sqrtBits (m : Nat) (e : Int) : Nat × FlagSet :=
  let odd := e % 2 ≠ 0
  let y := (if odd then 2 * m else m) * 2 ^ 112
  let h := ((if odd then e - 1 else e) - 112) / 2
  let r := isqrtFrom y 80 0
  fFP32.round false (2 * r + (if r * r = y then 0 else 1)) (h - 1) 0 false

/-- 1 / √x rounded once to FP32 RNE, for finite positive x. -/
def rsqrtBits (m : Nat) (e : Int) : Nat × FlagSet :=
  let odd := e % 2 ≠ 0
  let y := if odd then 2 * m else m
  let h := (if odd then e - 1 else e) / 2
  let r := isqrtFrom (2 ^ 120 / y) 62 0
  fFP32.round false (2 * r + (if r * r * y = 2 ^ 120 then 0 else 1)) (-60 - h - 1) 0 false

/-- horner of R303: highest coefficient first, one rounding per step. -/
def horner (np : Nat) (c : List Nat) (r : FVal) : FVal :=
  match c.reverse with
  | [] => .fin false 0 0
  | k :: ks => ks.foldl (fun p j => rnd np (addX (mulX p r) (c32 j))) (c32 k)

/-- The coefficients of R305. -/
def polyEXP : List Nat :=
  [0x3F800000, 0x3F317218, 0x3E75FDF0, 0x3D635847, 0x3C1D955B, 0x3AAEC3FF, 0x3921848A, 0x377FE5FC]
def polyLOG : List Nat := [0x4038AA3B, 0x3F763849, 0x3F13BB69, 0x3ED30BBF, 0x3EA42588]
def polySIN : List Nat := [0x40C90FDB, 0xC2255DE6, 0x42A335E3, 0xC2996966, 0x42283C20]
def polyCOS : List Nat := [0x3F800000, 0xC19DE9E6, 0x4281E0F8, 0xC2AAE9E4, 0x4270FA84, 0xC1D368F5]
def polyTANH : List Nat := [0xBEAAAAAB, 0x3E088889, 0xBD5D0DD1, 0x3CB327A5]
def polyERF : List Nat := [0x3F906EBB, 0xBEC093A3, 0x3DE71791, 0xBCDC1671, 0x3BAB2DE7, 0xBA6016CD]
def polyAS : List Nat := [0x3E827906, 0xBE91A98E, 0x3FB5F0E2, 0xBFBA00E5, 0x3F87DC25]

/-- P and LOG2E (R303, R305). -/
def constP : FVal := c32 0x3EA7BA15
def constLOG2E : FVal := fI40.value 0x3FFF71547652B800

def one : FVal := .fin false 1 0

/-- The nearest integer, ties to even. -/
def nearestInt (x : FVal) : Int :=
  match x with
  | .fin neg m e =>
    let r := (roundScaled neg m e 0 0).1
    if neg then -(r : Int) else r
  | _ => 0

/-- e2 of R303: bits. Beyond 2^±400 the rounding to FP32 no longer depends on n, so its effect is held there. -/
def e2Bits (np : Nat) (z : FVal) : Nat :=
  if z.isInf then 0
  else
    let n := nearestInt z
    let r := r32 (addX z (ofInt (-n)))
    match horner np polyEXP r with
    | .fin s m e => (fFP32.rne (.fin s m (e + max (-400) (min 400 n)))).1
    | v => (fFP32.rne v).1

def e2 (np : Nat) (z : FVal) : FVal := c32 (e2Bits np z)

/-- |x|. -/
def absX : FVal → FVal
  | .nan _ q f w => .nan false q f w
  | .inf _ => .inf false
  | .fin _ m e => .fin false m e

/-- Whether x < y for values that are no NaN. -/
def ltX (x y : FVal) : Bool := compareVals x y == .lt

/-- 2^k as a value. -/
def pow2 (k : Int) : FVal := .fin false 1 k

/-- xlog2 of a positive finite x (R304). -/
def log2Bits (np m : Nat) (e : Int) : Nat :=
  let l := Nat.log2 m
  let half := decide (3 * 2 ^ l ≤ 2 * m)
  let k : Int := (l : Int) + e + b2n half
  let mm : FVal := .fin false m (-(l : Int) - b2n half)
  let q := divX (addX mm (ofInt (-1))) (addX mm one)
  let t := rnd np (mulX q q)
  let y := rnd np (mulX q (horner np polyLOG t))
  (fFP32.rne (addX (ofInt k) y)).1

/-- xsin and xcos of a finite x (R304): j picks S, C, −S or −C. -/
def trigBits (np : Nat) (x : FVal) (cos : Bool) : Nat :=
  let x4 := mulX x (ofInt 4)
  let q := nearestInt x4
  let r := addX x (mulX (ofInt (-q)) (pow2 (-2)))
  let t := rnd np (mulX r r)
  let sn := rnd np (mulX r (horner np polySIN t))
  let cs := horner np polyCOS t
  let j := (q % 4).toNat
  let v := match (if cos then j + 1 else j) % 4 with
    | 0 => sn
    | 1 => cs
    | 2 => negate sn
    | _ => negate cs
  if v.isZero then 0 else (fFP32.rne v).1

/-- Whether 4x is an integer. -/
def quarterInt (x : FVal) : Bool :=
  match x with
  | .fin neg m e => !(roundScaled neg m (e + 2) 0 1).2
  | _ => false

def tanhBits (np : Nat) (x : FVal) : Nat :=
  if ltX (absX x) (pow2 (-2)) then
    let t := rnd np (mulX x x)
    let y := rnd np (mulX t (horner np polyTANH t))
    (fFP32.rne (addX x (mulX x y))).1
  else
    let u := e2 np (mulX (mulX (ofInt (-2)) (absX x)) constLOG2E)
    let q := divX (r32 (addX one (negate u))) (r32 (addX one u))
    (fFP32.rne (if x.neg then negate q else q)).1

def logiBits (np : Nat) (x : FVal) : Nat :=
  if ltX x (ofInt (-17)) then e2Bits np (mulX x constLOG2E)
  else
    let u := e2 np (mulX (negate x) constLOG2E)
    (divBits one (r32 (addX one u))).1

def erfBits (np : Nat) (x : FVal) : Nat :=
  let a := absX x
  if ltX a (pow2 (-1)) then
    let t := rnd np (mulX x x)
    (fFP32.rne (mulX x (horner np polyERF t))).1
  else
    let w := r32 (mulX x x)
    let g := e2 np (if w.isInf then .inf true else mulX (negate w) constLOG2E)
    let tau := divX one (r32 (addX one (r32 (mulX constP a))))
    let q := rnd np (mulX tau (horner np polyAS tau))
    let y := r32 (addX one (negate (mulX q g)))
    (fFP32.rne (if x.neg then negate y else y)).1

/-- The flags of a result of R304 that is no special case (R306). -/
def inexactFlags (r : Nat) : FlagSet :=
  let v := c32 r
  if v.isInf then fOF ||| fNX
  else fNX ||| flagIf (ltX (absX v) (pow2 (-126))) fUF

/-- A result with NX (R306). -/
def inexact (r : Nat) : Nat × FlagSet := (r, inexactFlags r)

def defNaN32 : Nat := 0x7FC00000

/-- The unary functions: 1 xexp2 to 10 xerf (R301, R304, R306). -/
def expFn (op np x : Nat) : Nat × FlagSet :=
  match c32 x with
  | .nan n q f w => fFP32.cvt (.nan n q f w) 0 false
  | .inf neg =>
    match op with
    | 1 => (if neg then 0 else x, 0)
    | 2 => if neg then (defNaN32, fNV) else (x, 0)
    | 3 => (fFP32.pack neg 0 0, 0)
    | 4 => if neg then (defNaN32, fNV) else (0, 0)
    | 5 => if neg then (defNaN32, fNV) else (x, 0)
    | 6 | 7 => (defNaN32, fNV)
    | 9 => (if neg then 0 else 0x3F800000, 0)
    | _ => (fFP32.pack neg 127 0, 0)
  | .fin neg m e =>
    if m = 0 then
      match op with
      | 1 => (0x3F800000, 0)
      | 2 => (0xFF800000, fDZ)
      | 3 | 4 => (fFP32.infBits neg, fDZ)
      | 7 => (0x3F800000, 0)
      | 9 => (0x3F000000, 0)
      | _ => (x, 0)
    else
      let v : FVal := .fin neg m e
      match op with
      | 1 =>
        let k := nearestInt v
        if compareVals v (ofInt k) = .eq ∧ -149 ≤ k ∧ k ≤ 127 then ((fFP32.rne (pow2 k)).1, 0)
        else inexact (e2Bits np v)
      | 2 =>
        if neg then (defNaN32, fNV)
        else if m = 2 ^ Nat.log2 m then ((fFP32.rne (ofInt ((Nat.log2 m : Int) + e))).1, 0)
        else inexact (log2Bits np m e)
      | 3 => divBits one v
      | 4 => if neg then (defNaN32, fNV) else rsqrtBits m e
      | 5 => if neg then (defNaN32, fNV) else sqrtBits m e
      | 6 => if quarterInt v then (trigBits np v false, 0) else inexact (trigBits np v false)
      | 7 => if quarterInt v then (trigBits np v true, 0) else inexact (trigBits np v true)
      | 8 => inexact (tanhBits np v)
      | 9 => inexact (logiBits np v)
      | _ => inexact (erfBits np v)

/-- xsmax and xexpm (R308). -/
def expPair (smax : Bool) (np a b : Nat) : Nat × FlagSet :=
  let x := c32 a
  let y := c32 b
  match nanRule [x, y] with
  | some r => ((fFP32.rne r.1).1, r.2)
  | none =>
    if smax && compareVals x y == .eq then (0x3F800000, 0)
    else if !smax && x.isInf && x.neg then (0, 0)
    else
      let d := addNumbers x (negate y) false
      let r := expFn 1 np (fFP32.rne d.1).1
      (r.1, r.2 ||| d.2)

/-- A unary X word: eight X slots of exposed latency (R302); the profile is NPDEF as it was steered (R303). -/
def expWord (s : State) (d a : BitVec 5) (m : BitVec 3) (op : Nat) : Host.Outcome State Fault Refusal :=
  match s.word with
  | none => .next s
  | some w => laneWise s d m 8 [a] fun l => let r := expFn op w.np (opd l 0).toNat; (BitVec.ofNat 32 r.1, r.2)

def expWord2 (s : State) (d a b : BitVec 5) (m : BitVec 3) (smax : Bool) : Host.Outcome State Fault Refusal :=
  match s.word with
  | none => .next s
  | some w =>
    laneWise s d m 8 [a, b] fun l =>
      let r := expPair smax w.np (opd l 0).toNat (opd l 1).toNat
      (BitVec.ofNat 32 r.1, r.2)

def execXexp2 (d a : BitVec 5) (m : BitVec 3) (s : State) : Host.Outcome State Fault Refusal := expWord s d a m 1
def execXlog2 (d a : BitVec 5) (m : BitVec 3) (s : State) : Host.Outcome State Fault Refusal := expWord s d a m 2
def execXrcp (d a : BitVec 5) (m : BitVec 3) (s : State) : Host.Outcome State Fault Refusal := expWord s d a m 3
def execXrsq (d a : BitVec 5) (m : BitVec 3) (s : State) : Host.Outcome State Fault Refusal := expWord s d a m 4
def execXsqrt (d a : BitVec 5) (m : BitVec 3) (s : State) : Host.Outcome State Fault Refusal := expWord s d a m 5
def execXsin (d a : BitVec 5) (m : BitVec 3) (s : State) : Host.Outcome State Fault Refusal := expWord s d a m 6
def execXcos (d a : BitVec 5) (m : BitVec 3) (s : State) : Host.Outcome State Fault Refusal := expWord s d a m 7
def execXtanh (d a : BitVec 5) (m : BitVec 3) (s : State) : Host.Outcome State Fault Refusal := expWord s d a m 8
def execXlogi (d a : BitVec 5) (m : BitVec 3) (s : State) : Host.Outcome State Fault Refusal := expWord s d a m 9
def execXerf (d a : BitVec 5) (m : BitVec 3) (s : State) : Host.Outcome State Fault Refusal := expWord s d a m 10

def execXsmax (d a b : BitVec 5) (m : BitVec 3) (s : State) : Host.Outcome State Fault Refusal :=
  expWord2 s d a b m true

def execXexpm (d a b : BitVec 5) (m : BitVec 3) (s : State) : Host.Outcome State Fault Refusal :=
  expWord2 s d a b m false

end Sys2Proof.Machine
end

