-- ==== Sys2Proof/Machine/Partials.lean ====
section
/-! DEFINITION. Softmax partials and their merge (R214, R370). -/

namespace Sys2Proof.Machine

/-- A softmax partial: m, l and o_0 onward, as FP32 encodings with their poison. -/
abbrev Partial := List Lane

/-- Whether two values are the same number (R214). -/
def sameNumber (x y : FVal) : Bool := !x.isNaN && !y.isNaN && compareVals x y == .eq

/-- The coefficient of one side (R214). -/
def sideCoef (np x m : Nat) : Nat × FlagSet :=
  if sameNumber (c32 x) (c32 m) then (0x3F800000, 0)
  else
    let d := addExact (c32 x) (negate (c32 m)) false
    let y := fFP32.rne d.1
    let r := expFn 1 np y.1
    (r.1, d.2 ||| y.2 ||| r.2)

/-- two_sum of R214. -/
def twoSum (np c1 x1 c2 x2 : Nat) : Nat × FlagSet :=
  let p := mulExact (c32 c1) (c32 x1)
  let q := mulExact (c32 c2) (c32 x2)
  if np = 0 then
    let a := fFP32.rne p.1
    let b := fFP32.rne q.1
    let t := addExact (c32 a.1) (c32 b.1) false
    let r := fFP32.rne t.1
    (r.1, p.2 ||| q.2 ||| a.2 ||| b.2 ||| t.2 ||| r.2)
  else
    match nanRule [c32 c1, c32 x1, c32 c2, c32 x2] with
    | some v => ((fFP32.rne v.1).1, v.2)
    | none =>
      let t := addExact p.1 q.1 false
      let r := fFP32.rne t.1
      (r.1, p.2 ||| q.2 ||| t.2 ||| r.2)

/-- merge_softmax of two present partials (R214); a poisoned m reaches every field (R55). -/
def mergeSoftmax (np : Nat) (a b : Partial) : Partial × FlagSet :=
  match a, b with
  | ma :: xs, mb :: ys =>
    let m := max2 ma.val.toNat mb.val.toNat
    let c1 := sideCoef np ma.val.toNat m.1
    let c2 := sideCoef np mb.val.toNat m.1
    let bad := ma.pois || mb.pois
    let zs := (xs.zip ys).map fun p => (twoSum np c1.1 p.1.val.toNat c2.1 p.2.val.toNat, bad || p.1.pois || p.2.pois)
    (⟨BitVec.ofNat 32 m.1, bad⟩ :: zs.map fun z => ⟨BitVec.ofNat 32 z.1.1, z.2⟩
      , if bad then 0 else zs.foldl (fun f z => if z.2 then f else f ||| z.1.2) (m.2 ||| c1.2 ||| c2.2))
  | _, _ => (a, 0)

/-- merge_softmax where a partial may be absent. -/
def mergeOpt (np : Nat) (a b : Option Partial) : Option Partial × FlagSet :=
  match a, b with
  | none, _ => (b, 0)
  | some _, none => (a, 0)
  | some x, some y => let r := mergeSoftmax np x y; (some r.1, r.2)

/-- The bytes of a partial, each field with its poison. -/
def partialBytes (p : Partial) : List PByte := p.flatMap fun l => (leBytes 4 l.val.toNat).map fun b => (b, l.pois)

/-- Read a partial of head dimension `d` as it stands for an agent. -/
def readPartial (r : Run) (ag : Agent) (off d : Nat) : Run × Partial :=
  let x := readSpad r ag off (8 + 4 * d)
  (x.1, (List.range (d + 2)).map fun i =>
    let b := (x.2.drop (4 * i)).take 4
    ⟨BitVec.ofNat 32 (leVal b), anyPois b⟩)

/-- merge (R370): each left partial is replaced in turn, its reads before its write. -/
def mergeJob (r : Run) (ag : Agent) (np a b d h : Nat) (bar : Option Nat) : Run × JobOut :=
  let psz := 64 * ((8 + 4 * d + 63) / 64)
  let x := (List.range h).foldl
    (fun (x : Run × Bool × FlagSet) i =>
      let lo := (a + i * psz) % 4194304
      let p := readPartial x.1 ag lo d
      let q := readPartial p.1 ag ((b + i * psz) % 4194304) d
      let m := mergeSoftmax np p.2 q.2
      ({ q.1 with s := landOwn q.1.s ag { off := lo, data := partialBytes m.1, bar, rest := 0, pois := false } }
        , x.2.1 || m.1.any (·.pois), x.2.2 ||| m.2))
    (r, false, 0)
  (x.1, { res := resOf none (h * (8 + 4 * d)) h x.2.1, landed := 0, want := 0, flags := x.2.2 })

end Sys2Proof.Machine
end

