-- ==== Sys2Proof/Machine/VectorReduce.lean ====
section
/-! DEFINITION. vred and vscan with their carry register (spec/12_vector_instructions.md R289 to R293). -/

namespace Sys2Proof.Machine

/-- The combine of an operation (R289). -/
def redCombine (op np : Nat) : Node → Node → Node × FlagSet :=
  match op with
  | 0 => combineSum np
  | 1 => combineExact max2
  | 2 => combineExact min2
  | 3 => combineExact fun x y => ((x + y) % 4294967296, 0)
  | 4 => combineExact fun x y => (if sextN 32 y ≤ sextN 32 x then x else y, 0)
  | 5 => combineExact fun x y => (if sextN 32 x ≤ sextN 32 y then x else y, 0)
  | _ => combineAffine np

/-- The identity of an operation, as the result lanes of an absent root (R289). -/
def redIdentity (op : Nat) : List W32 :=
  match op with
  | 0 => [0]
  | 1 => [0xFF800000]
  | 2 => [0x7F800000]
  | 3 => [0]
  | 4 => [0x80000000]
  | 5 => [0x7FFFFFFF]
  | _ => [0x3F800000, 0]

/-- The level of a register node: 128 leaves, or 64 pairs (R289). -/
def redLevel (op : Nat) : Nat := if op = 6 then 6 else 7

/-- Whether an operation's stack entries are in I40 (R290). -/
def redWide (op np : Nat) : Bool := (op == 0 || op == 6) && 2 ≤ np

/-- The lanes of a level's entry (R290), low word first; for pairs, a before b. -/
def entryLanes (op np l : Nat) : List Nat :=
  if op = 6 then
    if redWide op np then [4 * l, 4 * l + 1, 4 * l + 2, 4 * l + 3] else [2 * l, 2 * l + 1]
  else if redWide op np then [2 * l, 2 * l + 1] else [l]

/-- A node from the words of its entry. -/
def entryNode (op np : Nat) (ws : List Lane) : Node :=
  let x (i : Nat) : Nat := (laneAt ws i).val.toNat
  let v := if op = 6 then
      if redWide op np then pairOf (x 0 + x 1 * 2 ^ 32) (x 2 + x 3 * 2 ^ 32) else pairOf (x 0) (x 1)
    else x 0 + x 1 * 2 ^ 32
  .val v (ws.any (·.pois))

/-- The words of a node's entry. -/
def nodeEntry (op np : Nat) (v : Nat) : List Nat :=
  if op = 6 then
    if redWide op np then [bits v 0 32, bits v 32 32, bits v 64 32, bits v 96 32] else [bits v 0 32, bits v 64 32]
  else [bits v 0 32, bits v 32 32]

/-- A carry (R290): the count, the stack, the exact sum of NP3 and its poison. -/
structure Carry where
  n     : Nat
  stack : Map Node
  sum   : Int
  pois  : Bool
  deriving DecidableEq, Repr

def Carry.empty : Carry := { n := 0, stack := [], sum := 0, pois := false }

/-- The tag of a carry (R290). -/
def carryTag (op np : Nat) : Nat := 2 ^ 31 + np * 256 + op

/-- What reading a carry comes to (R290): a trap code with TRAPADDR's lane for POISON_USE, or the carry. -/
def readCarry (op np : Nat) (ls : List Lane) : Except (Nat × Nat) Carry :=
  let n := (laneAt ls 0).val.toNat
  let unit := 2 ^ redLevel op
  if (laneAt ls 0).pois then .error (tPoisonUse, 0)
  else if n ≠ 0 && (laneAt ls 1).pois then .error (tPoisonUse, 1)
  else if n ≠ 0 && (laneAt ls 2).pois then .error (tPoisonUse, 2)
  else if n % unit ≠ 0 || 4294967296 ≤ n + unit || (n ≠ 0 && (laneAt ls 1).val.toNat ≠ carryTag op np) then
    .error (tTreeAlign, 0)
  else if n = 0 then .ok .empty
  else
    let abs := (laneAt ls 2).val.toNat
    let levels := (List.range 32).filter fun l => bit n l
    let stack := levels.map fun l =>
      (l, if bit abs l then Node.absent else entryNode op np ((entryLanes op np l).map (laneAt ls)))
    let words := (List.range 10).map fun i => laneAt ls (64 + i)
    let exact := op == 0 && np == 3
    let sum := if exact then sextN 320 (words.foldr (fun l a => a * 4294967296 + l.val.toNat) 0) else 0
    .ok { n, stack, sum, pois := exact && words.any (·.pois) }

/-- The register image of a carry (R290). -/
def carryLanes (op np : Nat) (c : Carry) : List (Nat × Lane) :=
  let abs := (c.stack.filter fun e => e.2 = .absent).foldl (fun a e => a + 2 ^ e.1) 0
  let entries : List (Nat × Lane) := c.stack.flatMap fun e => match e.2 with
    | .absent => []
    | .val v p => ((entryLanes op np e.1).zip (nodeEntry op np v)).map fun w => (w.1, ⟨BitVec.ofNat 32 w.2, p⟩)
  let sum := lowN 320 c.sum
  let exact : List (Nat × Lane) := if op = 0 ∧ np = 3 then
      (List.range 10).map fun i => (64 + i, ⟨BitVec.ofNat 32 (bits sum (32 * i) 32), c.pois⟩)
    else []
  let img := (entries ++ exact).foldl (fun m l => Map.set m l.1 l.2)
    [(0, (⟨BitVec.ofNat 32 c.n, false⟩ : Lane)), (1, ⟨BitVec.ofNat 32 (carryTag op np), false⟩), (2, ⟨BitVec.ofNat 32 abs, false⟩)]
  (List.range 128).map fun i => (i, Map.get ⟨0, false⟩ img i)

/-- The leaves of a register (R289): lanes, or pairs. -/
def regLeaves (op np : Nat) (mask : BitVec 128) (ls : List Lane) : List Node :=
  if op = 6 then
    (List.range 64).map fun j =>
      if mask.getLsbD (2 * j) then
        let a := laneAt ls (2 * j)
        let b := laneAt ls (2 * j + 1)
        match nodeOf np a, nodeOf np b with
        | .val x p, .val y q => .val (pairOf x y) (p || q)
        | _, _ => .absent
      else .absent
  else
    (List.range 128).map fun i =>
      if mask.getLsbD i then .val (laneAt ls i).val.toNat (laneAt ls i).pois else .absent

/-- A plain FP32 leaf for a block value. -/
def plainLeaf (n : Node) : Leaf :=
  match n with
  | .absent => none
  | .val x p => some (fFP32.value x, p)

/-- The nodes that a register's leaves are merged as: its leaves, or under NP1 to NP3 the block values of fsum (R291). -/
def regBlocks (op np : Nat) (leaves : List Node) : List Node × FlagSet :=
  if op = 0 ∧ np ≠ 0 then
    let bs := (List.range 4).map fun j => blockPlain np (((leaves.drop (32 * j)).take 32).map plainLeaf)
    (bs.map (·.1), bs.foldl (fun a b => a ||| b.2) 0)
  else (leaves, 0)

/-- The exact sum of the present finite leaves in units of 2^−149 (R290), and whether any present leaf is poisoned. -/
def exactSum (leaves : List Node) : Int × Bool :=
  leaves.foldl
    (fun a n => match n with
      | .absent => a
      | .val x p =>
        let v := fFP32.value x
        (a.1 + (if v.isNaN || v.isInf then 0 else scaled v (-149)), a.2 || p))
    (0, false)

/-- A carry after a register (R291). -/
def carryAfter (op np : Nat) (c : Carry) (leaves : List Node) : Carry × FlagSet :=
  let f := redCombine op np
  let bs := regBlocks op np leaves
  let v := treeFold f 8 bs.1
  let m := carryMerge f c.n 32 (redLevel op) c.stack v.1
  let e := if op = 0 ∧ np = 3 then exactSum leaves else (0, false)
  ({ n := c.n + 2 ^ redLevel op, stack := m.1, sum := c.sum + e.1, pois := c.pois || e.2 }, bs.2 ||| v.2 ||| m.2)

/-- Root rounding (R292): the result lanes, with the exact sum of NP3, whose poison reaches what is computed from it (R290). -/
def redRoot (op np : Nat) (r : Node) (sum : Int) (bad : Bool) : List Lane × FlagSet :=
  match r with
  | .absent => ((redIdentity op).map fun x => ⟨x, false⟩, 0)
  | .val v p =>
    let p := p || (bad && op == 0 && np == 3 && !(fI40.value v).isNaN && !(fI40.value v).isInf)
    let out (l : List (Nat × FlagSet)) : List Lane × FlagSet :=
      (l.map fun x => ⟨BitVec.ofNat 32 x.1, p⟩, if p then 0 else l.foldl (fun a x => a ||| x.2) 0)
    if op = 6 then
      let a := bits v 0 64
      let b := bits v 64 64
      if np ≤ 1 then out [(a, 0), (b, 0)] else out [fFP32.rne (fI40.value a), fFP32.rne (fI40.value b)]
    else if op = 0 ∧ 2 ≤ np then
      let x := fI40.value v
      if np = 3 && !x.isNaN && !x.isInf then
        out [fFP32.rne (if sum = 0 then .fin (x.isZero && x.neg) 0 0 else .fin (decide (sum < 0)) sum.natAbs (-149))]
      else out [fFP32.rne x]
    else out [(v, 0)]

/-- vred (R291). -/
def redWord (s : State) (d a b : BitVec 5) (op np : Nat) (mask : BitVec 128) (start close : Bool) : State :=
  match readRegs mask [a.toNat] s [] with
  | (s, none) => s
  | (s, some ra) =>
    match (if start then (s, some []) else readRegs allLanes [b.toNat] s []) with
    | (s, none) => s
    | (s, some rb) =>
      match (if start then .ok .empty else readCarry op np (lget rb 0 [])) with
      | .error (code, i) => if code = tPoisonUse then raiseLane s code i 3 else raiseWord s code
      | .ok c =>
        let r := carryAfter op np c (regLeaves op np mask (lget ra 0 []))
        if close then
          let f := closeFold (redCombine op np) r.1.stack
          let o := redRoot op np f.1 r.1.sum r.1.pois
          let s := expose s 12 (.lanes (o.1.mapIdx fun i l => (128 * d.toNat + i, l)))
          let s := if start then s
            else expose s 12 (.lanes ((List.range 128).map fun i => (128 * b.toNat + i, ⟨0, false⟩)))
          retire (orFlags s 12 (r.2 ||| f.2 ||| o.2))
        else
          let s := expose s 12 (.lanes ((carryLanes op np r.1).map fun l => (128 * b.toNat + l.1, l.2)))
          retire (orFlags s 12 r.2)

/-- The leaves of a register as an affine reduction names them: the lanes that its mask reads (R289). -/
def redMask (op : Nat) (mask : BitVec 128) : BitVec 128 :=
  if op = 6 then maskOf ((List.range 128).filter fun i => mask.getLsbD (i / 2 * 2)) else mask

def execVred (d a b : BitVec 5) (m o : BitVec 3) (prof : BitVec 6) (flags : BitVec 18) (s : State) :
    Host.Outcome State Fault Refusal :=
  match s.word with
  | none => .next s
  | some w =>
    match profileOf w.np prof with
    | none => .next (raiseWord s tProfile)
    | some np =>
      .next (redWord s d a b o.toNat np (redMask o.toNat (mreg (here s) m)) (flags.getLsbD 0) (flags.getLsbD 1))

/-- A running scan (R209, R293): the stack with all whole blocks so far, its count, the exact sum, the outputs so far with
their flags. `i` is the leaf or pair. -/
structure Scan where
  n     : Nat
  stack : Map Node
  part  : List Node
  sum   : Int
  last  : Node
  lastFl : FlagSet
  out   : List (Nat × List Lane)
  fl    : FlagSet
  deriving DecidableEq, Repr

/-- One leaf of a scan: its prefix, delivered where `take` holds (R209); `bad`: the carried exact sum is poisoned. -/
def scanStep (op np : Nat) (excl bad : Bool) (take : Nat → Bool) (q : Scan) (i : Nat) (x : Node) : Scan :=
  let f := redCombine op np
  let blocks := op = 0 ∧ np ≠ 0
  let part := if blocks then q.part ++ [x] else [x]
  let v := if blocks then blockPlain np (part.map plainLeaf) else (x, 0)
  let e := if op = 0 ∧ np = 3 then (exactSum [x]).1 else 0
  let sum := q.sum + e
  let incl := foldOnto f q.stack v.1
  let r := if excl then redRoot op np q.last q.sum bad else redRoot op np incl.1 sum bad
  let need := take i
  let fl := q.fl ||| (if need then r.2 ||| (if excl then q.lastFl else incl.2 ||| v.2) else 0)
  let out := if need then q.out ++ [(i, r.1)] else q.out
  let whole := decide (¬blocks) || part.length == 32
  let lvl := if blocks then 5 else 0
  if whole then
    let m := carryMerge f q.n 33 lvl q.stack v.1
    { n := q.n + part.length, stack := m.1, part := [], sum, last := incl.1, lastFl := incl.2 ||| v.2, out, fl := fl }
  else { q with part, sum, last := incl.1, lastFl := incl.2 ||| v.2, out, fl }

/-- vscan (R293). -/
def scanWord (s : State) (d a b : BitVec 5) (op np : Nat) (mask take : BitVec 128) (start close excl : Bool) : State :=
  match readRegs mask [a.toNat] s [] with
  | (s, none) => s
  | (s, some ra) =>
    match (if start then (s, some []) else readRegs allLanes [b.toNat] s []) with
    | (s, none) => s
    | (s, some rb) =>
      match (if start then .ok .empty else readCarry op np (lget rb 0 [])) with
      | .error (code, i) => if code = tPoisonUse then raiseLane s code i 3 else raiseWord s code
      | .ok c =>
        let leaves := regLeaves op np mask (lget ra 0 [])
        let width := if op = 6 then 2 else 1
        let first := closeFold (redCombine op np) c.stack
        let q := (leaves.zip (List.range 128)).foldl
          (fun q x => scanStep op np excl c.pois (fun i => take.getLsbD (width * i)) q x.2 x.1)
          { n := c.n, stack := c.stack, part := [], sum := c.sum, last := first.1, lastFl := first.2, out := [], fl := 0 }
        let r := carryAfter op np c leaves
        let lanes := q.out.flatMap fun o => o.2.mapIdx fun j l => (128 * d.toNat + width * o.1 + j, l)
        let s := expose s 12 (.lanes lanes)
        let s := if close then
            if start then s else expose s 12 (.lanes ((List.range 128).map fun i => (128 * b.toNat + i, ⟨0, false⟩)))
          else expose s 12 (.lanes ((carryLanes op np r.1).map fun l => (128 * b.toNat + l.1, l.2)))
        retire (orFlags s 12 (q.fl ||| r.2))

def execVscan (d a b : BitVec 5) (m o : BitVec 3) (prof : BitVec 6) (flags : BitVec 18) (s : State) :
    Host.Outcome State Fault Refusal :=
  match s.word with
  | none => .next s
  | some w =>
    match profileOf w.np prof with
    | none => .next (raiseWord s tProfile)
    | some np =>
      let mask := mreg (here s) m
      .next (scanWord s d a b o.toNat np (redMask o.toNat mask) mask (flags.getLsbD 0) (flags.getLsbD 1) (flags.getLsbD 2))

end Sys2Proof.Machine
end

