-- ==== Sys2Proof/Machine/NearMem.lean ====
section
/-! DEFINITION. Near-memory commands: Candle queries (R361, R362, R373 to R384) and indexed reductions (R363, R364). -/

namespace Sys2Proof.Machine

/-- The status of a stop of a Candle or adder request: OWNERSHIP where the region table refuses it (R102). -/
def nearStop (cause bytes elems : Nat) (pois : Bool) : PRes :=
  { status := if cause = causeOwnership then 4 else 3, cause, bytes, elems, pois, crc := none }

/-- A result without effect. -/
def bare (status cause : Nat) : PRes := { status, cause, bytes := 0, elems := 0, pois := false, crc := none }

/-- A read of physical memory through the near-memory port (R114). -/
def nearRead (s : State) (pa n : Nat) (f : Attr) : State × List PByte :=
  (requests pa n).foldl
    (fun r q =>
      match q.1 with
      | none => (r.1, r.2 ++ List.replicate q.2 (255, true))
      | some c =>
        if attrAt r.1 c = f then let x := nearBytes r.1 c q.2; (x.1, r.2 ++ x.2)
        else (logFormat r.1 c, r.2 ++ List.replicate q.2 (255, true)))
    (s, [])

/-- Read device memory for an adder or a Candle unit: its own stacks' pages through the near-memory port, the others as any
command does. -/
def nearDevice (r : Run) (ag : Agent) (a n : Nat) : Run × List PByte × Option Nat :=
  (ranges 65536 (n / 65536 + 2) a n).foldl
    (fun x q =>
      match x.2.2 with
      | some _ => x
      | none =>
        match pageFor x.1 ag ag.ctx q.1 false with
        | (r, .error c) => (r, x.2.1, some c)
        | (r, .ok h) =>
          if hRes h = 0 then
            let y := nearRead r.s (hPhys h q.1) q.2 (hFormat h)
            ({ r with s := y.1 }, x.2.1 ++ y.2, none)
          else let y := readDevice r ag ag.ctx q.1 q.2; (y.1, x.2.1 ++ y.2.1, y.2.2))
    (r, [], none)

/-! ### The position map (R375, R376, R378) -/

/-- A position-map entry is malformed (R375). -/
def entryBad (x : Nat) : Bool :=
  let n := bits x 176 15
  let pol := bit x 255
  bits x 252 3 ≠ 0 || (powerOf' n).isNone || bits x 96 32 ≠ 256 * n * bits x 32 32
  || (!pol && (bits x 248 4 ≠ 0 || bits x 244 4 ≠ 0 || 256 * n < bits x 128 32))
  || (pol && (bits x 32 32 ≠ 0 || n < bits x 248 4 + 2 ^ bits x 244 4))
where
  powerOf' (n : Nat) : Option Nat := (List.range 15).find? fun j => n == 2 ^ j

/-- The registered range that holds an entry (R376). -/
def entryRange (s : State) (va : Nat) : Option MapRange := s.ranges.find? fun r => r.va ≤ va && va + 32 ≤ r.va + r.len

/-- Whether an entry is still on its way from a remote holder (R123). -/
def entryComing (s : State) (key va : Nat) : State × Bool :=
  match entryRange s va with
  | none => (s, false)
  | some r => hubComing s .hub key r.ctx va 32 true

/-- Read an entry in the context of its registered range (R376): a result that stops the query, or its bits. -/
def readEntry (s : State) (key va : Nat) : State × Except PRes Nat :=
  match entryRange s va with
  | none => (s, .error (bare 3 causeNotPresent))
  | some r =>
    match hubRead s .hub key r.ctx va 32 true with
    | (s, .error e) => (s, .error (bare 3 e.1))
    | (s, .ok bs) =>
      if anyPois bs then (s, .error (bare 3 causePoison))
      else if entryBad (leVal bs) then (s, .error (bare 3 causeLayout))
      else (s, .ok (leVal bs))

/-- GEN and LOST of an entry. -/
def entryGen (x : Nat) : Nat := bits x 64 32
def entryLost (x : Nat) : Bool := bit x 191

/-- The present leaves of an entry (R378). -/
def presentLeaves (x : Nat) : Nat :=
  let len := bits x 128 32
  if !bit x 255 || len == 0 then len
  else
    let nb := (len + 255) / 256
    let sinks := min nb (bits x 248 4)
    let held := sinks + min (2 ^ bits x 244 4) (nb - sinks)
    256 * (held - 1) + (len - 256 * (nb - 1))

/-! ### Candle queries (R361, R362, R383, R384) -/

/-- Fields of an nmq descriptor (R361). -/
def qBtva (x : Nat) : Nat := bits x 0 52
def qNblk (x : Nat) : Nat := bits x 64 16
def qStack (x : Nat) : Nat := bits x 80 4
def qDim (x : Nat) : Nat := bits x 96 9
def qGen (x : Nat) : Nat := bits x 128 32
def qPmva (x : Nat) : Nat := bits x 192 52
def qOff (x : Nat) : Nat := bits x 256 22
def qRoff (x : Nat) : Nat := bits x 288 22
def qBar (x : Nat) : Option Nat := if bit x 351 then some (bits x 320 22) else none
def qScale (x : Nat) : Nat := bits x 352 32

/-- CORE and PROF of a near-memory or collective descriptor: zero in a command (R361, R363, R365). -/
def dCore (x : Nat) : Nat := bits x 384 11
def dProf (x : Nat) : Nat := bits x 400 6

/-- Whether the packet fields are as they must be. -/
def dBad (x : Nat) (packet : Bool) (lo hi : Nat) : Bool :=
  bits x 395 5 ≠ 0 || bits x 406 106 ≠ 0
  || if packet then dProf x < lo || hi < dProf x || 1280 ≤ dCore x else dCore x ≠ 0 || dProf x ≠ 0

/-- An nmq descriptor is malformed (R361); a misaligned barrier of a command has trapped before (R344). -/
def nmqBad (x : Nat) (packet : Bool) : Bool :=
  bits x 52 12 ≠ 0 || bits x 84 12 ≠ 0 || bits x 105 23 ≠ 0 || bits x 244 12 ≠ 0 || bits x 278 10 ≠ 0 || bits x 310 10 ≠ 0
  || bits x 342 9 ≠ 0 || dBad x packet 1 3 || !aligned (qBtva x) 8 || qNblk x == 0 || qDim x == 0 || 256 < qDim x
  || !aligned (qPmva x) 32 || !aligned (qOff x) 64 || !aligned (qRoff x) 64 || !aligned (bits x 320 22) 16

/-- The first read of a query's entry (R380): the query goes on with it, or is stopped; none while the entry is on its way. -/
def admitQuery (s : State) (key : Nat) (j : Job) : State × Option Job :=
  let x := leVal (jobRec j 0)
  let c := entryComing s key (qPmva x)
  if c.2 then (c.1, none)
  else
    match readEntry s key (qPmva x) with
    | (s, .error r) => (s, some { j with res := some r })
    | (s, .ok e) =>
      let j := { j with recs := j.recs ++ [clean (leBytes 32 e)] }
      let r := if entryGen e ≠ qGen x || entryLost e then some (bare 5 0)
        else if qNblk x < (presentLeaves e + 255) / 256 then some (bare 3 causeLayout) else none
      (s, some { j with res := r })

/-- Pin the pages of a range of device memory for reading (R29). -/
def pinRange (s : State) (ag : Agent) (a n : Nat) : State :=
  (ranges 65536 (n / 65536 + 2) a n).foldl (fun s q => pinUnit s ag ag.ctx q.1 false none) s

/-- The acceptance of a query (R29, R380, R383): the query is captured, its block table pinned and the entry read; what stops it at once. -/
def takeQuery (s : State) (key : Nat) (ag : Agent) (j : Job) (packet : Bool) : State × Job :=
  let d := jobRec j 0
  let x := leVal d
  let stop (s : State) (j : Job) (r : PRes) : State × Job := (s, { j with res := some r })
  if anyPois d then stop s j (bare 3 causePoison)
  else if nmqBad x packet then stop s j (bare 3 causeLayout)
  else
    let q := readSpad (Run.start s) ag (qOff x) (qDim x)
    let j := { j with recs := [d, q.2] }
    let s := pinRange q.1.s { ag with acc := .candle (qStack x) } (qBtva x) (8 * qNblk x)
    match admitQuery s key j with
    | (s, some j) => (s, j)
    | (s, none) => (s, j)

/-- A query goes on only once its entry has been read, and may be read again (R123, R380): the job, or that it waits. -/
def queryReady (s : State) (key : Nat) (j : Job) : State × Option Job :=
  let first := if j.recs.length < 3 then admitQuery s key j else (s, some j)
  match first with
  | (s, none) => (s, none)
  | (s, some j) =>
    let c := entryComing s key (qPmva (leVal (jobRec j 0)))
    (c.1, if c.2 && j.res.isNone then none else some j)

/-- A page that a Candle reads (R362, R373): its handle, or what stops the query. -/
def candlePage (r : Run) (ag : Agent) (st va : Nat) : Run × Except Nat (BitVec 128) :=
  match pageFor r ag ag.ctx va false with
  | (r, .error c) => (r, .error c)
  | (r, .ok h) =>
    let f := hFormat h
    if hRes h ≠ 0 || !hPmode h || hStack h ≠ st || (f.tol && f.tcls ≠ 2) then (r, .error causeFormat) else (r, .ok h)

/-- The score of a leaf (R383): x as an FP32 encoding. -/
def leafScore (np : Nat) (q k : List PByte) (scale : Nat) : Lane × FlagSet :=
  let side (bs : List PByte) : BlockSide :=
    { elems := bs.map fun b => some (fE4M3.value b.1.toNat), pois := bs.map (·.2), width := some 8, scale := one }
  let n := dotNode np ((pieces 32 ((q.length + 31) / 32) q).map side) ((pieces 32 ((k.length + 31) / 32) k).map side)
  match n.1 with
  | .absent => (⟨0, false⟩, 0)
  | .val b p =>
    let y := mulExact ((nodeFmt np).value b) (c32 scale)
    let x := fFP32.rne (mulExact y.1 constLOG2E).1
    (⟨BitVec.ofNat 32 x.1, p⟩, if p then 0 else n.2 ||| y.2 ||| x.2)

/-- A leaf partial (R383): a poisoned score reaches every field (R55). -/
def leafPartial (np : Nat) (q k v : List PByte) (scale : Nat) : Partial × FlagSet :=
  let x := leafScore np q k scale
  let p := x.1.pois
  (x.1 :: ⟨0x3F800000, p⟩ :: v.map fun b => ⟨BitVec.ofNat 32 (fFP32.rne (fE4M3.value b.1.toNat)).1, p || b.2⟩, x.2)

/-- The leaf partials of the present leaves of a block, from its key rows and its value rows. -/
def blockLeaves (np d scale : Nat) (q ks vs : List PByte) : Nat → List Partial × FlagSet
  | 0 => ([], 0)
  | n + 1 =>
    let l := leafPartial np q (ks.take d) (vs.take d) scale
    let r := blockLeaves np d scale q (ks.drop d) (vs.drop d) n
    (l.1 :: r.1, l.2 ||| r.2)

/-- One level of the tree of R201 over partials. -/
def pairPartials (np : Nat) : List Partial → List Partial × FlagSet
  | a :: b :: l =>
    let m := mergeSoftmax np a b
    let r := pairPartials np l
    (m.1 :: r.1, m.2 ||| r.2)
  | l => (l, 0)

/-- tree_fold over partials, the absent ones beyond the last (R201, R383). -/
def foldPartials (np : Nat) : Nat → List Partial → Option Partial × FlagSet
  | 0, l => (l.head?, 0)
  | n + 1, l =>
    match l with
    | [] => (none, 0)
    | [p] => (some p, 0)
    | _ =>
      let r := pairPartials np l
      let t := foldPartials np n r.1
      (t.1, r.2 ||| t.2)

/-- What a query has read: its leaf partials, flags, blocks consumed, and what stops it. -/
structure Query where
  leaves : List Partial
  flags  : FlagSet
  blocks : Nat
  stop   : Option Nat
  deriving DecidableEq, Repr

/-- The block of a table entry (R362, R373): its leaf partials. -/
def queryBlock (r : Run) (ag : Agent) (np x n : Nat) (q : List PByte) (va : Nat) : Run × Except Nat (List Partial × FlagSet) :=
  let d := qDim x
  let two := 128 < d
  if !aligned va 65536 then (r, .error causeLayout)
  else
    match candlePage r ag (qStack x) va with
    | (r, .error c) => (r, .error c)
    | (r, .ok h) =>
      match (if two then candlePage r ag (qStack x) (lowN 64 (va + 65536)) else (r, .ok h)) with
      | (r, .error c) => (r, .error c)
      | (r, .ok h') =>
        let ks := nearRead r.s (frameBase (hFrame h) + (va - hBase h)) (d * n) (hFormat h)
        let vp := frameBase (hFrame h') + ((if two then lowN 64 (va + 65536) else va) - hBase h') + if two then 0 else 32768
        let vs := nearRead ks.1 vp (d * n) (hFormat h')
        ({ r with s := vs.1 }, .ok (blockLeaves np d (qScale x) q ks.2 vs.2 n))

/-- The blocks of a query in order (R362): only table entries with present leaves are read. -/
def queryBlocks (r : Run) (ag : Agent) (np x p : Nat) (q : List PByte) : Run × Query :=
  (List.range ((p + 255) / 256)).foldl
    (fun (a : Run × Query) b =>
      match a.2.stop with
      | some _ => a
      | none =>
        match readDevice a.1 ag ag.ctx (qBtva x + 8 * b) 8 with
        | (r, _, some c) => (r, { a.2 with stop := some c })
        | (r, bs, none) =>
          if anyPois bs then (r, { a.2 with stop := some causePoison })
          else
            match queryBlock r ag np x (min 256 (p - 256 * b)) q (leVal bs) with
            | (r, .error c) => (r, { a.2 with stop := some c })
            | (r, .ok l) => (r, { a.2 with leaves := a.2.leaves ++ l.1, flags := a.2.flags ||| l.2, blocks := b + 1 }))
    (r, { leaves := [], flags := 0, blocks := 0, stop := none })

/-- A query (R380, R383): its result, the partial that lands if it is done, and its flags. -/
def queryJob (r : Run) (key : Nat) (ag : Agent) (np : Nat) (j : Job) : Run × PRes × List PByte × FlagSet :=
  let x := leVal (jobRec j 0)
  let e := leVal (jobRec j 2)
  let ag := { ag with acc := .candle (qStack x) }
  let b := queryBlocks r ag np x (presentLeaves e) (jobRec j 1)
  match b.2.stop with
  | some c => (b.1, nearStop c 0 b.2.blocks false, [], b.2.flags)
  | none =>
    match readEntry b.1.s key (qPmva x) with
    | (s, .error res) => ({ b.1 with s }, res, [], b.2.flags)
    | (s, .ok e2) =>
      let r := { b.1 with s }
      if entryGen e2 ≠ entryGen e || entryLost e2 then (r, bare 5 0, [], b.2.flags)
      else
        let t := foldPartials np 32 b.2.leaves
        let p := t.1.getD (⟨0xFF800000, false⟩ :: (List.replicate (qDim x + 1) ⟨0, false⟩))
        let out := partialBytes p
        (r, { status := 1, cause := 0, bytes := out.length, elems := b.2.blocks, pois := anyPois out, crc := none }
          , out, b.2.flags ||| t.2)

/-! ### Indexed reductions (R363, R364) -/

/-- Fields of an nmr descriptor (R363). -/
def rTabva (x : Nat) : Nat := bits x 0 52
def rLen (x : Nat) : Nat := bits x 64 13
def rFmt (x : Nat) : Nat := bits x 80 5
def rRows (x : Nat) : Nat := bits x 96 32
def rIoff (x : Nat) : Nat := bits x 128 22
def rNidx (x : Nat) : Nat := bits x 160 21
def rBoff (x : Nat) : Nat := bits x 192 22
def rNbag (x : Nat) : Nat := bits x 224 17
def rOoff (x : Nat) : Nat := bits x 256 22
def rBar (x : Nat) : Option Nat := if bit x 319 then some (bits x 288 22) else none
def rStr (x : Nat) : Nat := bits x 320 32

/-- An nmr descriptor is malformed (R363). -/
def nmrBad (x : Nat) (packet : Bool) : Bool :=
  bits x 52 12 ≠ 0 || bits x 77 3 ≠ 0 || bits x 85 11 ≠ 0 || bits x 150 10 ≠ 0 || bits x 181 11 ≠ 0 || bits x 214 10 ≠ 0
  || bits x 241 15 ≠ 0 || bits x 278 10 ≠ 0 || bits x 310 9 ≠ 0 || bits x 352 32 ≠ 0 || dBad x packet 0 3
  || ! [0, 1, 2, 3, 4, 8, 10].contains (rFmt x) || rLen x == 0 || 4096 < rLen x || rRows x == 0 || !aligned (rIoff x) 4
  || rNidx x == 0 || 1048576 < rNidx x || !aligned (rBoff x) 4 || rNbag x == 0 || 65536 < rNbag x || !aligned (rOoff x) 64
  || !aligned (bits x 288 22) 16 || rStr x < rLen x * codeWidth (rFmt x) / 8

/-- A word of a captured list. -/
def listWord (l : List PByte) (i : Nat) : Nat × Bool := let b := (l.drop (4 * i)).take 4; (leVal b, anyPois b)

/-- The acceptance of an indexed reduction (R29): its bounds and indices are captured and the rows that they name pinned. -/
def takeBags (s : State) (ag : Agent) (j : Job) (packet : Bool) : State × Job :=
  let d := jobRec j 0
  let x := leVal d
  if anyPois d then (s, { j with res := some (bare 3 causePoison) })
  else if nmrBad x packet then (s, { j with res := some (bare 3 causeLayout) })
  else
    let b := readSpad (Run.start s) ag (rBoff x) (4 * (rNbag x + 1))
    let i := readSpad b.1 ag (rIoff x) (4 * rNidx x)
    let rows := ((List.range (rNidx x)).filterMap fun k =>
      let w := listWord i.2 k
      if w.2 || rRows x ≤ w.1 then none else some w.1).eraseDups
    (rows.foldl (fun s w => pinRange s { ag with acc := .hub } (lowN 64 ((rTabva x + w * rStr x : Nat) : Int)) (rLen x * codeWidth (rFmt x) / 8)) i.1.s,
      { j with recs := [d, b.2, i.2] })

/-- The bytes of an indexed reduction's results (R350). -/
def bagsWant (x : Nat) : Nat := 4 * rLen x * rNbag x

/-- A leaf as an FP32 encoding with its flags; an FP32 NaN stays bit for bit as it is (R198, R364). -/
def leaf32 : FVal → Nat × FlagSet
  | .nan neg _ frac 23 => (fFP32.pack neg 255 frac, 0)
  | x => fFP32.rne x

/-- The sum of a column of a bag (R364): the value of vred.fsum.start.close over its leaves. -/
def columnSum (np : Nat) (xs : List (FVal × Bool)) : Lane × FlagSet :=
  let nodes : List (Node × FlagSet) :=
    if np = 0 then xs.map fun x => let r := leaf32 x.1; (.val r.1 x.2, if x.2 then 0 else r.2)
    else (pieces 32 ((xs.length + 31) / 32) xs).map fun b => blockPlain np (b.map some)
  let t := treeFold (combineSum np) 32 (nodes.map (·.1))
  let sum := xs.foldl (fun a x => a + (if x.1.isNaN || x.1.isInf then 0 else scaled x.1 (-149))) (0 : Int)
  let o := redRoot 0 np t.1 sum false
  (laneAt o.1 0, nodes.foldl (fun f n => f ||| n.2) (t.2 ||| o.2))

/-- The rows of a bag: each as values with their poison, or what stops the command before it. -/
def bagRows (r : Run) (ag : Agent) (x : Nat) (idx : List PByte) (lo hi : Nat) :
    Run × Except Nat (List (List (FVal × Bool))) :=
  let nb := codeWidth (rFmt x) / 8
  (List.range (hi - lo)).foldl
    (fun (a : Run × Except Nat (List (List (FVal × Bool)))) k =>
      match a.2 with
      | .error _ => a
      | .ok rows =>
        let w := listWord idx (lo + k)
        if w.2 then (a.1, .error causePoison)
        else if rRows x ≤ w.1 then (a.1, .error causeLayout)
        else
          match nearDevice a.1 ag (lowN 64 (rTabva x + w.1 * rStr x)) (rLen x * nb) with
          | (r, _, some c) => (r, .error c)
          | (r, bs, none) =>
            (r, .ok (rows ++ [(elemsOf nb (rLen x) bs).map fun e => (elemValue (rFmt x) e.1, e.2)])))
    (r, .ok [])

/-- One bag (R364): its result row, or what stops the command before it. -/
def bagJob (r : Run) (ag : Agent) (np : Nat) (j : Job) (n : Nat) : Run × Except Nat (List PByte × FlagSet) :=
  let x := leVal (jobRec j 0)
  let lo := listWord (jobRec j 1) n
  let hi := listWord (jobRec j 1) (n + 1)
  if lo.2 || hi.2 then (r, .error causePoison)
  else if (n = 0 && lo.1 ≠ 0) || hi.1 < lo.1 || rNidx x < hi.1 || (n + 1 = rNbag x && hi.1 ≠ rNidx x) then
    (r, .error causeLayout)
  else
    match bagRows r { ag with acc := .hub } x (jobRec j 2) lo.1 hi.1 with
    | (r, .error c) => (r, .error c)
    | (r, .ok rows) =>
      let cols := (columns (rLen x) rows).map fun c => columnSum np c
      (r, .ok (partialBytes (cols.map (·.1)), cols.foldl (fun f c => f ||| c.2) 0))

/-- Where the result row of a bag lands (R364). -/
def bagOff (x n : Nat) : Nat := (rOoff x + n * (64 * ((rLen x + 15) / 16))) % 4194304

/-! ### nmq and nmr (R343, R361, R363) -/

/-- The channel of what the hub reads for a command (R123). -/
def cmdKey (uid : Nat) : Nat := hubKey (65536 + uid)

/-- nmq (R361, R380, R383). -/
def execNmq (a : BitVec 5) (t : BitVec 8) (prof : BitVec 6) (s : State) : Host.Outcome State Fault Refusal :=
  .next (longProfile s prof fun s np =>
    if np = 0 then raiseWord s tProfileUnsupported
    else
      let va := sreg (here s) a
      let o := spadOff va.toNat
      cWord s [(o, 64)] [va] true fun s =>
        let r := captureRecs s [o]
        barField r.1 (lget r.2 0 []) 320 fun s =>
          acceptCmd s np t va 0 0 { Job.empty with recs := r.2 } (fun s ag k => takeQuery s (cmdKey k.uid) ag k.job false)
            fun core uid => [.candlePartialLand core uid])

/-- nmr (R363, R364). -/
def execNmr (a : BitVec 5) (t : BitVec 8) (prof : BitVec 6) (s : State) : Host.Outcome State Fault Refusal :=
  .next (longProfile s prof fun s np =>
    let va := sreg (here s) a
    let o := spadOff va.toNat
    cWord s [(o, 64)] [va] true fun s =>
      let r := captureRecs s [o]
      barField r.1 (lget r.2 0 []) 288 fun s =>
        acceptCmd s np t va 0 0 { Job.empty with recs := r.2 } (fun s ag k => takeBags s ag k.job false)
          fun core uid => [.nmrBagLand core uid])

/-- CANDLE_PARTIAL_LAND (R362, R380, R384): the query runs, its partial lands or its barrier is settled. -/
def execCandlePartialLand (core cmd : Nat) (s : State) : Host.Outcome State Fault Refusal :=
  match getCmd s core cmd with
  | none => .next s
  | some k =>
    let x := leVal (jobRec k.job 0)
    let want := if anyPois (jobRec k.job 0) || nmqBad x false then 0 else 8 + 4 * qDim x
    let settle (s : State) : State := countBar s core (qBar x) 0 want false false
    match k.job.res with
    | some r => .next (setRes (settle s) core k r)
    | none =>
      match queryReady s (cmdKey cmd) k.job with
      | (s, none) => .next (due s [.candlePartialLand core cmd])
      | (s, some j) =>
        let k := { k with job := j }
        match j.res with
        | some r => .next (setRes (settle s) core k r)
        | none =>
          let s := setCmd s core k
          .next (settleRun s k.uid 4096 (.candlePartialLand core cmd) (queryJob (Run.start s) (cmdKey cmd) (agentOf s core k) k.np j)
            fun s y =>
              let s := if y.1.status = 1 then landFor s core k.num { off := qRoff x, data := y.2.1, bar := qBar x, rest := 0, pois := false }
                else settle s
              setRes s core { k with job := { j with flags := y.2.2 } } y.1)

/-- NMR_BAG_LAND (R364): the next bag's result row lands, or the command ends. -/
def execNmrBagLand (core cmd : Nat) (s : State) : Host.Outcome State Fault Refusal :=
  match getCmd s core cmd with
  | none => .next s
  | some k =>
    let x := leVal (jobRec k.job 0)
    match k.job.res with
    | some r => .next (setRes s core k r)
    | none =>
      let n := k.job.units
      if rNbag x ≤ n then
        .next (setRes s core k { status := 1, cause := 0, bytes := k.job.bytes, elems := n, pois := k.job.pois, crc := none })
      else
        .next (settleRun s k.uid 4096 (.nmrBagLand core cmd) (bagJob (Run.start s) (agentOf s core k) k.np k.job n)
          fun s y =>
            match y with
            | .error c =>
              setRes (countBar s core (rBar x) 0 (bagsWant x - k.job.bytes) false false) core k (nearStop c k.job.bytes n k.job.pois)
            | .ok (bs, fl) =>
              let s := landFor s core k.num { off := bagOff x n, data := bs, bar := rBar x, rest := 0, pois := false }
              let j := { k.job with units := n + 1, bytes := k.job.bytes + bs.length, pois := k.job.pois || anyPois bs
                                    flags := k.job.flags ||| fl }
              due (setCmd s core { k with job := j }) [.nmrBagLand core cmd])

end Sys2Proof.Machine
end

