-- ==== Sys2Proof/Machine/Collect.lean ====
section
/-! DEFINITION. Collectives at the Prism units (R365 to R369, R371, R211, R212). -/

namespace Sys2Proof.Machine

/-! ### The descriptor (R365) -/

def cPtva (x : Nat) : Nat := bits x 0 52
def cGid (x : Nat) : Nat := bits x 64 16
def cParts (x : Nat) : Nat := bits x 80 16
def cMe (x : Nat) : Nat := bits x 96 16
def cOp (x : Nat) : Nat := bits x 112 2
def cCvt (x : Nat) : Bool := bit x 114
def cPart (x : Nat) : Bool := bit x 115
def cLogl (x : Nat) : Nat := bits x 120 6
def cK (x : Nat) : Nat := bits x 128 32
def cSrec (x : Nat) : Nat := bits x 192 22
def cDrec (x : Nat) : Nat := bits x 224 22
def cBar (x : Nat) : Option Nat := if bit x 287 then some (bits x 256 22) else none

/-- A coll descriptor is malformed (R365). -/
def collBad (x : Nat) (packet : Bool) : Bool :=
  bits x 52 12 ≠ 0 || bits x 116 4 ≠ 0 || bits x 126 2 ≠ 0 || bits x 160 32 ≠ 0 || bits x 214 10 ≠ 0 || bits x 246 10 ≠ 0
  || bits x 278 9 ≠ 0 || bits x 288 96 ≠ 0 || dBad x packet 0 3 || cParts x == 0 || 4096 < cParts x || cParts x ≤ cMe x
  || 1 < cOp x || (cOp x == 0 && cPart x) || cLogl x < 8 || 32 < cLogl x || !aligned (cPtva x) 4 || !aligned (cSrec x) 64
  || !aligned (cDrec x) 64 || !aligned (bits x 256 22) 16

/-! ### An arrival (R365, R366) -/

/-- The record of a collective, in the scratchpad: a packet's names no handle. -/
def collTensor (s : State) (ag : Agent) (rec : List PByte) (h : BitVec 128) : Except Nat Side :=
  match parseLay rec false with
  | .error c => .error c
  | .ok l => placeOf s ag l (if ag.owner.2 = 4096 then some h else none)

/-- The header of a part (R324): the cause that stops the participant where it is none. -/
def partHead (bs : List PByte) : Except Nat PartHead :=
  let x := leVal bs
  let h : PartHead := { k := bits x 0 32, s0 := bits x 32 24, n := bits x 64 32, prof := bits x 96 8, w := bits x 104 8
                        pres := bits x 128 64 }
  if anyPois bs then .error causePoison
  else if h.w = 0 ∨ 4 < h.w ∨ h.prof = 0 ∨ 3 < h.prof then .error causeLayout
  else .ok h

/-- The source of a participant: its format, its elements, a part's header, the flags, or the cause of its failure. -/
structure Source where
  fmt   : Nat
  elems : List PElem
  head  : Option PartHead
  flags : FlagSet
  fail  : Option Nat
  deriving DecidableEq, Repr

/-- A source quantised to MXFP8 with E4M3 elements and expanded again (R368), block by block. -/
def quantiseSource (xs : List PElem) : List PElem × FlagSet :=
  let blocks := (pieces 32 ((xs.length + 31) / 32) xs).map fun b =>
    let q := mxQuantise 3 (b.map fun x => some (c32 x.bits))
    let bad := b.any (·.pois)
    ((q.2.1.map fun c => ({ bits := (fFP32.rne (mxValue 3 c q.1)).1, pois := bad } : PElem)), if bad then 0 else q.2.2)
  (blocks.flatMap (·.1), blocks.foldl (fun f b => f ||| b.2) 0)

/-- Read a chain part: the header and its elements in the node format of its profile (R324). -/
def partSource (r : Run) (ag : Agent) (off : Nat) (h : PartHead) : Run × Source :=
  let e := if h.prof = 1 then 4 else 8
  let x := readSpad r ag (off + 64) (e * (8192 * h.w))
  (x.1, { fmt := if h.prof = 1 then 0 else 15, head := some h, flags := 0, fail := none
          elems := (elemsOf e (8192 * h.w) x.2).map fun y => { bits := y.1, pois := y.2 } })

/-- Read a tensor: the elements with the scales of their blocks. -/
def tensorSource (r : Run) (ag : Agent) (t : Side) (cvt : Bool) : Run × Source :=
  let x := readElems r ag t t.lay.offs
  let y := if mxFmt t.lay.fmt then readScales x.1 ag t t.lay.offs.toArray (List.range t.lay.count) else (x.1, [], none)
  let elems : List PElem :=
    if mxFmt t.lay.fmt then
      (x.2.1.zip y.2.1).map fun e => { bits := e.1.1 + 256 * e.2.1, pois := e.1.2 || e.2.2 }
    else x.2.1.map fun e => { bits := e.1, pois := e.2 }
  let q := if cvt && t.lay.fmt == 0 then quantiseSource elems else (elems, 0)
  (y.1, { fmt := t.lay.fmt, elems := q.1, head := none, flags := q.2, fail := if x.2.2.isSome then x.2.2 else y.2.2 })

/-- The source of a participant. -/
def readSource (r : Run) (ag : Agent) (j : Job) (x : Nat) : Run × Source :=
  let none' (c : Nat) : Source := { fmt := 0, elems := [], head := none, flags := 0, fail := some c }
  if cPart x then
    match partHead (jobRec j 1) with
    | .error c => (r, none' c)
    | .ok h => partSource r ag (cSrec x) h
  else
    match collTensor r.s ag (jobRec j 1) (jobHandle j 1) with
    | .error c => (r, none' c)
    | .ok t =>
      if wrongClass r.s ag t then (r, none' causeFormat)
      else
        match refusedPin r.s ag t false with
        | some c => (r, none' c)
        | none => tensorSource r ag t (cCvt x)

/-- What R345, R368 and R369 require of a participant's destination: the cause of its failure. -/
def destFail (s : State) (ag : Agent) (j : Job) (x np fmt count : Nat) : Option Nat :=
  match collTensor s ag (jobRec j 2) (jobHandle j 2) with
  | .error c => some c
  | .ok t =>
    let lay :=
      if cOp x = 0 then
        t.lay.count == cParts x * count && (if cCvt x then fmt == 0 && t.lay.fmt == 0 else convertible t.lay.fmt fmt)
      else t.lay.fmt == 0 && t.lay.count == count && (cPart x || fmt == if np < 2 then 0 else 15)
    if !lay then some causeLayout
    else if wrongClass s ag t then some causeFormat
    else refusedPin s ag t true

/-- The participant table (R365), which Prism reads by strong accesses (R102): device and core of each entry. -/
def readTable (r : Run) (ag : Agent) (x : Nat) : Run × Except Nat (List (Nat × Nat)) :=
  match readDevice r { ag with acc := .prism } ag.ctx (cPtva x) (4 * cParts x) with
  | (r, _, some c) => (r, .error c)
  | (r, bs, none) =>
    if anyPois bs then (r, .error causePoison)
    else (r, .ok ((List.range (cParts x)).map fun p => let w := (listWord bs p).1; (bits w 16 16, bits w 0 16)))

/-- The arrival of a participant, with the flags of its own quantisation. -/
def arrivalJob (r : Run) (ag : Agent) (np : Nat) (j : Job) : Run × Arrival × FlagSet :=
  let x := leVal (jobRec j 0)
  let t := readTable r ag x
  let src := readSource t.1 ag j x
  let count := src.2.elems.length
  let fail := match t.2 with
    | .error c => some c
    | .ok _ => src.2.fail <|> destFail src.1.s ag j x np src.2.fmt count
  (src.1,
    { gid := cGid x, np := cParts x, me := cMe x, op := cOp x, cvt := cCvt x, part := cPart x, logl := cLogl x, k := cK x
      prof := np, count, head := src.2.head, fmt := src.2.fmt, src := src.2.elems, fail
      tab := (match t.2 with | .ok l => l | .error _ => []), dev := src.1.s.fab.devid, core := ag.core, owner := some ag.owner },
    src.2.flags)

/-! ### Prism (R366, R367) -/

/-- An arrival joins the open instance of its GID, or waits for the next (R367). -/
def joinArrival (j : Joined) (a : Arrival) : Joined :=
  if j.arr.any fun b => b.me = a.me then { j with late := j.late ++ [a] } else { j with arr := j.arr ++ [a] }

/-- The participants of an instance by logical index, once all that participant 0 names have arrived. -/
def fullInstance (j : Joined) : Option (List Arrival) :=
  match j.arr.find? fun a => a.me = 0 with
  | none => none
  | some z =>
    let ps := (List.range z.np).filterMap fun p => j.arr.find? fun a => a.me = p
    if ps.length = z.np then some ps else none

/-- Whether two participants agree (R366). -/
def agree (a b : Arrival) : Bool :=
  a.np == b.np && a.op == b.op && a.cvt == b.cvt && a.part == b.part && a.logl == b.logl && a.k == b.k && a.prof == b.prof
  && a.count == b.count

/-- Whether the parts meet R212 by logical index. -/
def partsMeet (z : Arrival) (ps : List Arrival) : Bool :=
  let l := 2 ^ z.logl
  if z.part then
    ps.all fun a =>
      match a.head, z.head with
      | some h, some g =>
        let last := a.me + 1 == z.np
        h.k == g.k && h.k ≠ 0 && h.prof == z.prof && 256 * h.s0 == a.me * l
        && (if last then 256 * h.n ≤ l && (h.k ≤ 256 * (h.s0 + h.n)) else 256 * h.n == l)
      | _, _ => false
  else (z.np - 1) * l < z.k && z.k ≤ z.np * l

/-- The cause for which a complete collective fails (R366, R369), if any. -/
def collFail (ps : List Arrival) : Option Nat :=
  match ps with
  | [] => none
  | z :: _ =>
    match (ps.find? fun a => a.fail.isSome && a.fail ≠ some causeState).bind (·.fail) with
    | some c => some c
    | none =>
      if ps.any (fun a => a.fail.isSome || !agree z a || a.tab ≠ ps.map fun b => (b.dev, b.core)) then some causeState
      else if z.op = 1 && !partsMeet z ps then some causeTreeAlign
      else none

/-- Element `i` of a part as a node (R202, R324): one whose PRES bit is clear is absent. -/
def partNode (a : Arrival) (i : Nat) (e : PElem) : Node :=
  match a.head with
  | none => .val e.bits e.pois
  | some h => if bit h.pres (16 * (i % (512 * h.w) / 512) + i / (512 * h.w)) then .val e.bits e.pois else .absent

/-- The elements of a reduction (R369): tree_fold over the parts, rounded once. -/
def reduceParts (np : Nat) (ps : List Arrival) : List Lane × FlagSet :=
  let rows := ps.map fun a => a.src.mapIdx fun i e => partNode a i e
  let n := match ps with | z :: _ => z.count | [] => 0
  let out := (columns n rows).map fun c =>
    let t := treeFold (combineSum np) 13 c
    let o := rootValue np t.1
    (o.1, if o.1.pois then 0 else t.2 ||| o.2)
  (out.map (·.1), out.foldl (fun f o => f ||| o.2) 0)

/-- What every destination receives, in logical order, each element with its source format (R368, R369). -/
def collElems (ps : List Arrival) : List (Nat × Nat × SrcElem) × FlagSet :=
  match ps with
  | [] => ([], 0)
  | z :: _ =>
    if z.op = 0 then
      ((ps.flatMap fun a => a.src.map fun e =>
          (a.fmt, if mxFmt a.fmt then ({ bits := e.bits % 256, pois := e.pois, scale := (e.bits / 256, e.pois) } : SrcElem)
                  else { bits := e.bits, pois := e.pois, scale := (127, false) })).mapIdx fun i x => (i, x), 0)
    else
      let r := reduceParts z.prof ps
      (r.1.mapIdx fun i l => (i, 0, { bits := l.val.toNat, pois := l.pois, scale := (127, false) }), r.2)

/-! ### Participants of this device -/

/-- A participant of this device: its agent, its job, its profile and the task whose scratchpad it uses. -/
structure Local where
  ag   : Agent
  job  : Job
  task : Option Target
  deriving DecidableEq, Repr

/-- The core and command of an identity, on a core that runs. -/
def runningCmd (s : State) (uid : Nat) : Option (Nat × Cmd) :=
  (s.cores.find? fun c => (Map.find c.2.cmds uid).isSome).bind fun c => (Map.find c.2.cmds uid).map fun k => (c.1, k)

/-- The saved task and the command of an identity (R371). -/
def savedCmd (s : State) (uid : Nat) : Option (Saved × Cmd) :=
  s.queues.findSome? fun q => q.2.packets.findSome? fun p => p.launch.bind fun l => l.saved.findSome? fun u =>
    u.2.findSome? fun v => (Map.find v.core.cmds uid).map fun k => (v, k)

/-- The target that names a task. -/
def targetFor (core : Nat) (t : Task) : Target := { core, qid := t.qid, packet := t.packet, ord := t.ord }

/-- The agent of a packet that works in the scratchpad of a core. -/
def packetAgent (s : State) (q k : Nat) (acc : Accessor) (j : Job) : Agent :=
  { owner := (k, q), acc, ctx := (match getQueue s q with | some x => x.ctx | none => 0)
    core := (match j.targets with | t :: _ => (targetCore s t).getD t.core | [] => 0), word := none, qid := q, got := j.got }

/-- Find a participant by its command or packet. -/
def localOf (s : State) (owner : Nat × Nat) : Option Local :=
  if owner.2 = 4096 then
    match runningCmd s owner.1, savedCmd s owner.1 with
    | some (c, k), _ =>
      some { ag := agentOf s c k, job := k.job, task := (getCore s c).task.map (targetFor c) }
    | none, some (v, k) =>
      some { ag := { owner, acc := .command 2047, ctx := v.task.ctx, core := 0, word := none, qid := v.task.qid, got := k.job.got }
             job := k.job, task := some (targetFor 0 v.task) }
    | none, none => none
  else
    (getPacket s owner.2 owner.1).map fun p =>
      { ag := packetAgent s owner.2 owner.1 (.command 65535) p.job, job := p.job, task := p.job.targets.head? }

/-- The result of a participant's command or packet is known. -/
def setLocal (s : State) (owner : Nat × Nat) (res : PRes) (fl : FlagSet) : State :=
  if owner.2 = 4096 then
    match runningCmd s owner.1 with
    | some (c, k) => setRes s c { k with job := { k.job with flags := k.job.flags ||| fl } } res
    | none =>
      mapSaved s fun c =>
        match Map.find c.cmds owner.1 with
        | some k =>
          { c with cmds := Map.set c.cmds owner.1
                     { k with job := { k.job with flags := k.job.flags ||| fl, res := some res } } }
        | none => c
  else finishPacket s owner.2 owner.1 res

/-- The core and the head of a participant's command. -/
def ownHead (p : Local) : Nat × Nat := match p.ag.word with | some w => (p.ag.core, w.num) | none => (65535, foreign)

/-- Write bytes by address for a participant: device memory, or landings in its task's scratchpad. -/
def putLocal (r : Run) (p : Local) (dst : Side) (m : Map PByte) : Run :=
  (byteRuns m).foldl
    (fun r q =>
      if dst.dev then writeDevice r p.ag dst.ctx q.1 q.2
      else
        match p.task with
        | some t => { r with s := (deliverTo r.s t { off := q.1, data := q.2, bar := none, rest := 0, pois := false } (ownHead p)).1 }
        | none => r)
    r

/-- Count image bytes at a participant's barrier, then settle it. -/
def countLocal (s : State) (p : Local) (bar : Option Nat) (landed rest : Nat) (pois : Bool) : State :=
  match bar, p.task with
  | some b, some t =>
    let one (s : State) (n : Nat) (x : Bool) : State :=
      if n = 0 then s else (deliverTo s t { off := 0, data := [], bar := some b, rest := n, pois := x }).1
    one (one s landed pois) rest false
  | _, _ => s

/-- What lands at a participant: bytes, elements that may be written, the cause that stops the next, flags. -/
structure Landing where
  owner : Nat × Nat
  who   : Local
  dst   : Option Side
  n     : Nat
  cause : Option Nat
  bytes : Map PByte
  flags : FlagSet
  deriving DecidableEq, Repr

/-- Lay the result out for a participant (R349, R351). -/
def landingOf (r : Run) (owner : Nat × Nat) (p : Local) (xs : List (Nat × Nat × SrcElem)) : Run × Landing :=
  let l : Landing := { owner, who := p, dst := none, n := 0, cause := some causeLayout, bytes := [], flags := 0 }
  match collTensor r.s p.ag (jobRec p.job 2) (jobHandle p.job 2) with
  | .error c => (r, { l with cause := some c })
  | .ok dst =>
    if !(xs.all fun x => convertible dst.lay.fmt x.2.1) then (r, { l with dst := some dst })
    else
      let dO := dst.lay.offs.toArray
      let a := canWrite r p.ag dst (xs.map fun x => aget dO x.1 0)
      let b := scalesOpen a.1 p.ag dst dO (xs.map (·.1))
      let stop := firstStop xs.length [(a.2.1, a.2.2), (b.2.1, b.2.2)]
      let y := layElems b.1 p.ag dst dO (xs.take stop.1)
      (y.1, { l with dst := some dst, n := stop.1, cause := stop.2, bytes := y.2.1, flags := y.2.2 })

/-- Keep each byte of a landing or not, a free choice (R366, log 6). -/
def pickBytes (s : State) (m : Map PByte) : State × Map PByte :=
  m.foldl (fun r b => let p := pick r.1 b.1; (p.1, if p.2 then r.2 ++ [b] else r.2)) (s, [])

/-- The image of a participant's destination, 0 where its record is malformed (R350). -/
def wantLocal (p : Local) : Nat := match parseLay (jobRec p.job 2) false with | .ok l => l.image | .error _ => 0

/-- A participant completes: what has landed is counted, the rest settled, the result known. -/
def endLocal (r : Run) (l : Landing) (others : Bool) (pois : Bool) (fl : FlagSet) : Run :=
  let want := wantLocal l.who
  let bar := cBar (leVal (jobRec l.who.job 0))
  match l.dst with
  | none => { r with s := setLocal (countLocal r.s l.who bar 0 want false) l.owner (resOf l.cause 0 0 false) fl }
  | some dst =>
    if others && l.cause.isNone then
      let m := pickBytes r.s l.bytes
      let r := putLocal { r with s := m.1 } l.who dst m.2
      { r with s := setLocal (countLocal r.s l.who bar 0 want false) l.owner (resOf (some causeState) 0 0 pois) fl }
    else
      let r := putLocal r l.who dst l.bytes
      let b := imageOf dst.lay l.n
      { r with s := setLocal (countLocal r.s l.who bar b (want - b) pois) l.owner (resOf l.cause b l.n pois) (fl ||| l.flags) }

/-! ### coll and its events -/

/-- coll (R365): its descriptor and records are captured and its pages pinned; a malformed descriptor joins nothing. -/
def execColl (a : BitVec 5) (t : BitVec 8) (prof : BitVec 6) (s : State) : Host.Outcome State Fault Refusal :=
  .next (longProfile s prof fun s np =>
    let va := sreg (here s) a
    let o := spadOff va.toNat
    cWord s [(o, 64)] [va] true fun s =>
      let d := captureRecs s [o]
      let b := lget d.2 0 []
      let x := leVal b
      barField d.1 b 256 fun s =>
        let bad := if anyPois b then some causePoison else if collBad x false then some causeLayout else none
        match bad with
        | some c => acceptCmd s np t va 0 0 { Job.empty with recs := d.2 } (fun s _ k => (s, stopJob k.job c)) completes
        | none =>
          let r := captureRecs s [cSrec x, cDrec x]
          match captureHandles r.1 (if cPart x then [[], lget r.2 1 []] else r.2) with
          | (s, none) => stall s
          | (s, some hs) =>
            acceptCmd s np t va 0 0 { Job.empty with recs := d.2 ++ r.2, hs := 0 :: hs }
              (fun s ag k =>
                let s := if cPart x then s else
                  match collTensor s ag (jobRec k.job 1) (jobHandle k.job 1) with
                  | .ok t => pinSide s ag t false (some (jobHandle k.job 1))
                  | .error _ => s
                match collTensor s ag (jobRec k.job 2) (jobHandle k.job 2) with
                | .ok t => (pinSide s ag t true (some (jobHandle k.job 2)), k.job)
                | .error _ => (s, k.job))
              completes)

/-- A core sends the arrivals of its coll commands in the order of their acceptance (R367). -/
def earlierColl (s : State) (core : Nat) (k : Cmd) : Bool :=
  (getCore s core).cmds.any fun m =>
    decide (m.2.num < k.num) && m.2.job.res.isNone && m.2.job.units == 0
    && (match m.2.instr with | .coll _ _ _ => true | _ => false)

/-- The run of a coll command: its arrival is sent once; then it waits for its instance. -/
def collRun (s : State) (core : Nat) (k : Cmd) : State :=
  if k.job.units = 1 then due s [.collectiveResult (cGid (leVal (jobRec k.job 0)))]
  else if earlierColl s core k then due s [.commandComplete core k.uid]
  else
    settleRun s k.uid 4096 (.commandComplete core k.uid) (arrivalJob (Run.start s) (agentOf s core k) k.np k.job) fun s y =>
      due (setCmd s core { k with job := { k.job with units := 1, flags := y.2 } }) [.prismCollectiveArrival y.1]

/-- The peers that take part in a collective. -/
def peersOf (s : State) (a : Arrival) : List Nat := ((a.tab.map (·.1)).filter fun d => d ≠ s.fab.devid).eraseDups

/-- The context that this device binds to collective deliveries of a peer (R419). -/
def admitsPeer (s : State) (dev : Nat) : Bool :=
  s.mmu.inwin.any fun e =>
    bit e.2.w0.toNat 63 && bit e.2.w0.toNat 62 && bit e.2.w0.toNat 52 && bits e.2.w1.toNat 48 16 == dev

/-- PRISM_COLLECTIVE_ARRIVAL (R366, R367): a participant joins; one of this device is announced to its peers, and one of a peer
that no window entry admits is refused. -/
def execPrismCollectiveArrival (a : Arrival) (s : State) : Host.Outcome State Fault Refusal :=
  let a := if a.owner.isNone && !admitsPeer s a.dev then { a with fail := some causeState } else a
  let s := if a.owner.isNone then s
    else { s with fab := { s.fab with out := s.fab.out ++ (peersOf s a).map fun d => .arrival d a } }
  let j := joinArrival (Map.get { arr := [], late := [] } s.joined a.gid) a
  let s := { s with joined := Map.set s.joined a.gid j }
  .next (if (fullInstance j).isSome then due s [.collectiveResult a.gid] else s)

/-- The instance of a GID closes; the arrivals held for the next one open it (R367). -/
def closeInstance (s : State) (gid : Nat) (j : Joined) : State :=
  let n := j.late.foldl joinArrival { arr := [], late := [] }
  let s := { s with joined := if n.arr.isEmpty then Map.erase s.joined gid else Map.set s.joined gid n }
  if (fullInstance n).isSome then due s [.collectiveResult gid] else s

/-- The participants of this device in an instance. -/
def locals (s : State) (ps : List Arrival) : List ((Nat × Nat) × Local) :=
  ps.filterMap fun a => a.owner.bind fun o => (localOf s o).map fun p => (o, p)

/-- Every participant lays out its result: those that lack lines or promotions make the instance wait. -/
def layOutAll (s : State) (ls : List ((Nat × Nat) × Local)) (xs : List (Nat × Nat × SrcElem)) :
    Run × List Landing × List ((Nat × Nat) × List (BitVec 128 × Nat × Nat)) :=
  ls.foldl
    (fun a l =>
      let y := landingOf { a.1 with miss := [] } l.1 l.2 xs
      (y.1, a.2.1 ++ [y.2], if y.1.miss.isEmpty then a.2.2 else a.2.2 ++ [(l.1, y.1.miss)]))
    (Run.start s, [], [])

/-- COLLECTIVE_RESULT (R366 to R369): all participants have arrived, and those of this device complete. -/
def execCollectiveResult (gid : Nat) (s : State) : Host.Outcome State Fault Refusal :=
  match Map.find s.joined gid with
  | none => .next s
  | some j =>
    match fullInstance j with
    | none => .next s
    | some ps =>
      let ls := locals s ps
      match collFail ps with
      | some c =>
        let s := ls.foldl
          (fun s l => setLocal (countLocal s l.2 (cBar (leVal (jobRec l.2.job 0))) 0 (wantLocal l.2) false) l.1
            (resOf (some c) 0 0 false) 0) s
        .next (closeInstance s gid j)
      | none =>
        let out := collElems ps
        let y := layOutAll s ls out.1
        if !y.2.2.isEmpty then .next (y.2.2.foldl (fun s a => askLines s a.1.1 a.1.2 a.2) s)
        else
          let bad := y.2.1.find? fun l => l.cause.isSome && l.n = 0 && l.dst.isSome && l.cause = some causeLayout
          let stop := y.2.1.any fun l => l.cause.isSome
          let pois := out.1.any fun x => x.2.2.pois
          let r := match bad with
            | some _ => y.2.1.foldl (fun (r : Run) (l : Landing) => endLocal r { l with dst := none, cause := some causeLayout } false false 0)
                (Run.start s)
            | none => y.2.1.foldl (fun (r : Run) (l : Landing) => endLocal r l stop pois out.2) y.1
          if !r.prom.isEmpty then
            .next (due (r.prom.foldl (fun s p => promote s p.1 p.2) s) [.collectiveResult gid])
          else .next (closeInstance r.s gid j)

end Sys2Proof.Machine
end

