-- ==== Sys2Proof/Machine/Strong.lean ====
section
/-! DEFINITION. Strong accesses at their point of performance (R107, R331 to R336), releases, and the hub's accesses to
rings, headers and indices (R142 to R144, R445). An operation is named by its device opcode of R331. -/

namespace Sys2Proof.Machine

def opLds : Nat := 2
def opSts : Nat := 3
def opCas : Nat := 11
def opWaitv : Nat := 12
def opNtone : Nat := 13
def opNtall : Nat := 14

/-- Whether an operation counts as a write (R333). -/
def opWrites (op : Nat) : Bool := 3 ≤ op && op ≤ 11

/-- The new value of the w bytes, if the operation writes (R333). -/
def strongNew (op n old v x : Nat) : Option Nat :=
  let m := 2 ^ (8 * n)
  let old := old % m
  let v := v % m
  let sg (a : Nat) : Int := sextN (8 * n) a
  match op with
  | 3 => some v
  | 4 => some ((old + v) % m)
  | 5 => some (if sg old ≤ sg v then old else v)
  | 6 => some (if sg v ≤ sg old then old else v)
  | 7 => some (old &&& v)
  | 8 => some (old ||| v)
  | 9 => some (old ^^^ v)
  | 10 => some v
  | 11 => if old = v then some (x % m) else none
  | _ => none

/-- The operation of a SIGNAL packet or sigw (R147): store, add, unsigned max, or. -/
def signalNew (op old v : Nat) : Nat :=
  match op with
  | 0 => v
  | 1 => (old + v) % 18446744073709551616
  | 2 => max old v
  | _ => old ||| v

/-- Whether a release must still wait (R107): with P for forwarded writes to peers, with H for those to the host. -/
def releaseHeld (s : State) (mask : BitVec 6) : Bool :=
  s.fab.lines.any fun l => l.data.isSome && ((mask.getLsbD 4 && !l.host) || (mask.getLsbD 5 && l.host))

/-- A release with mask N: what has landed reaches the cells (R107, R114). -/
def releaseNear (s : State) (mask : BitVec 6) : State := if mask.getLsbD 3 then flushNear s else s

/-- The mask with which a word releases: its own for .rel and .ar, and those of earlier fences for a strong write (R111). -/
def releaseMask (k : Core) (sem : BitVec 2) (mask : BitVec 6) (writes : Bool) : BitVec 6 :=
  (if sem.getLsbD 1 then mask else 0) ||| (if writes then k.fenceRel else 0)

/-- The word of device memory that a sleeper list names (R117): by its cell, or by its place in a shade record. -/
def wordKey (h : BitVec 128) (va : Nat) : Nat :=
  if hRes h = 1 then 17592186044416 + hFrame h * 1073741824 + (va - hBase h) else (cellOf (hPhys h va)).getD 0

/-- What a strong access comes to: the value read, a poisoned byte, a wait for a promotion, or a remote holder. -/
inductive StrongOut where
  | done (old : Nat)
  | poisoned (i : Nat)
  | wait
  | remote
  deriving DecidableEq, Repr

/-- A write first waits for the promotion of a shade page and for a move of its page (R130, R334): the handle of the page as it lies now. -/
def promoted (s : State) (h : BitVec 128) (va : Nat) : Option (BitVec 128) :=
  if movingAt s (hCtx h) va then none
  else if hRes h ≠ 1 then some h
  else
    match walk s (hCtx h) va with
    | .ok leaf size addr => if bits leaf.toNat 7 2 = 1 then none else some (mkHandle (.ok leaf size addr) (hCtx h) va)
    | .no _ => none

/-- The cell at which a local access is performed, if it lies in a frame (R42, R107). -/
def strongCell (h : BitVec 128) (va : Nat) : Option Nat := if hRes h = 0 then cellOf (hPhys h va) else none

/-- What a word of a core's scratchpad is among the words at which releases are kept (R108): beyond every cell of device memory. -/
def spadKey (core o : Nat) : Nat := 2 ^ 50 + core * 4194304 + o

/-- The bytes that a strong read finds with the moment of its read: a lds of a core may find an older state, whole (`back`: R93, R108); an
atomic, and a waitv, which its sleeper list orders among the writes (R118), find the newest. -/
def strongRead (s : State) (who : Nat) (back : Bool) (cell : Option Nat) (now : List PByte) : State × List PByte × Nat :=
  match cell with
  | some c => if back then readBack s who c now (getCore s who).floor true else (s, now, s.stamp)
  | none => (s, now, s.stamp)

/-- What a strong write leaves for later acquires and for its own core's later reads (R94, R108). -/
def strongWrote (s : State) (who : Nat) (cell : Option Nat) (n : Nat) (mask : BitVec 6) (atomic : Bool) : State :=
  match cell with
  | none => s
  | some c =>
    let s := noteRelease s who c n mask atomic
    if who < 1280 then keepOwn s who c n else s

/-- A strong access of this device's memory, indivisible (R107, R333, R334): `f` gives the new value, if any; `who` makes it (a core, or
another agent), `back` tells whether it may find an older state, `acq` is its mask as an acquire, `mask` the one with which it releases.
Agents outside a partial mask may observe the write late (R110): a core's later lds, plain loads and commands may look back past it, and
every other agent observes it at once (log 89). -/
def strongLocal (s : State) (who : Nat) (back : Bool) (acq : BitVec 6) (h : BitVec 128) (va n : Nat) (writes reads : Bool)
    (f : Nat → Option Nat) (mask : BitVec 6) : State × StrongOut :=
  match (if writes then promoted s h va else some h) with
  | none => (promote s (hCtx h) va, .wait)
  | some h =>
    match handleRead s h va n with
    | (s, .remote) => (s, .remote)
    | (s, .data now) =>
      let cell := strongCell h va
      let r := strongRead s who back cell now
      match (if reads then r.2.1.findIdx? (·.2) else none) with
      | some i => (r.1, .poisoned i)
      | none =>
        let old := leVal r.2.1
        let s := match cell with | some c => if reads && who < 1280 then observe r.1 who c n r.2.2 acq else r.1 | none => r.1
        let s := match f old with
          | some v => strongWrote (handleWrite s h va (clean (leBytes n v)) (.strong s.core 0)).1 who cell n mask reads
          | none => s
        (releaseNear s mask, .done old)

/-! ### Hub words: WIDX, RIDX and ring slots (R142 to R144, R445) -/

/-- A strong write of the hub to a word of device memory, as acquires find it (R115, R144): its mask, and whether it is an atomic. -/
def hubRelease (s : State) (who ctx va n : Nat) (mask : BitVec 6) (atomic : Bool) : State :=
  match hubTranslate s ctx va with
  | .ok leaf size addr =>
    match strongCell (mkHandle (.ok leaf size addr) ctx va) va with
    | some c => noteRelease s who c n mask atomic
    | none => s
  | .no _ => s

/-- A doubleword that the hub reads; `hubWaits` as a cause where it is on its way from a remote holder (R123). A poisoned word is used as
the value it reads, which the spec leaves open (log 90). -/
def hubWord (s : State) (key ctx va : Nat) : State × Except (Nat × Nat) Nat :=
  match hubRead s .hub key ctx va 8 true with
  | (s, .ok bs) => (s, .ok (leVal bs))
  | (s, .error e) => (s, .error e)

/-- A claim on WIDX (R142): an atomic add of 1; `none` while the header's page is being promoted or its word is on its way. -/
def claimIndex (s : State) (q : Queue) (qid : Nat) : State × Except (Nat × Nat) (Option Nat) :=
  match hubWord s (hubKey qid) q.ctx q.hdrva with
  | (s, .error e) => (s, if e.1 = hubWaits then .ok none else .error e)
  | (s, .ok k) =>
    match hubWrite s .hub q.ctx q.hdrva (clean (leBytes 8 (k + 1))) true qid with
    | (s, .done) => (hubRelease s byHub q.ctx q.hdrva 8 0 true, .ok (some k))
    | (s, .wait) => (s, .ok none)
    | (s, .failed c va) => (s, .error (c, va))

/-- The address of ring slot k (R142). -/
def slotVa (q : Queue) (k : Nat) : Nat := q.ringva + 64 * (k % 2 ^ q.logn)

/-- Write bytes 8 to 63 of a slot, then word 0 as a release with a mask (R143, R339). -/
def publish (s : State) (who : Nat) (q : Queue) (qid k : Nat) (image : List PByte) (mask : BitVec 6) : State × HubWrite :=
  match hubWrite s .hub q.ctx (slotVa q k + 8) (image.drop 8) true qid with
  | (s, .done) =>
    match hubWrite s .hub q.ctx (slotVa q k) (image.take 8) true qid with
    | (s, .done) => (releaseNear (hubRelease s who q.ctx (slotVa q k) 8 mask false) mask, .done)
    | r => r
  | r => r

/-- Whether index k has room (R142): RIDX > k − 2^LOGN; not yet while RIDX is on its way. -/
def roomFor (s : State) (q : Queue) (qid k : Nat) : State × Except (Nat × Nat) Bool :=
  match hubWord s (hubKey qid) q.ctx (q.hdrva + 8) with
  | (s, .ok r) => (s, .ok (decide (k < r + 2 ^ q.logn)))
  | (s, .error e) => (s, if e.1 = hubWaits then .ok false else .error e)

end Sys2Proof.Machine
end

