-- ==== Sys2Proof/Machine/Copy.lean ====
section
/-! DEFINITION. The copy, message and scale instructions of the C engine and the events that carry them out
(spec/16_copy_and_collective_instructions.md R343 to R360, R370). -/

namespace Sys2Proof.Machine

/-! ### Tensor copies -/

/-- A barrier that a register names; a c field of 0 names none (R343). -/
def barOf (c : BitVec 5) (v : W64) : Option Nat := if c = 0 then none else some (spadOff v.toNat)

/-- What R344 checks of a barrier operand. -/
def barAlign (c : BitVec 5) (v : W64) : List (Nat × Nat) := if c = 0 then [] else [(spadOff v.toNat, 16)]
def barOffs (c : BitVec 5) (v : W64) : List W64 := if c = 0 then [] else [v]

/-- cpy, gath, scat and cmpct: their records are captured and their pages pinned. -/
def tensorWord (s : State) (a b c : BitVec 5) (t : BitVec 8) (rows : Bool) : State :=
  let k := here s
  let va := sreg k a
  let vb := sreg k b
  let vc := sreg k c
  let oa := spadOff va.toNat
  let ob := spadOff vb.toNat
  cWord s ([(oa, 64), (ob, 64)] ++ barAlign c vc) ([va, vb] ++ barOffs c vc) true fun s =>
    acceptTensors s t va vb vc ([oa, ob] ++ if rows then [spadOff (ob + 64)] else [])
      ([true, false] ++ if rows then [false] else []) completes

/-- cpy (R353). -/
def execCpy (a b c : BitVec 5) (t : BitVec 8) (s : State) : Host.Outcome State Fault Refusal :=
  .next (tensorWord s a b c t false)

/-- gath (R355). -/
def execGath (a b c : BitVec 5) (t : BitVec 8) (s : State) : Host.Outcome State Fault Refusal :=
  .next (tensorWord s a b c t true)

/-- scat (R355). -/
def execScat (a b c : BitVec 5) (t : BitVec 8) (s : State) : Host.Outcome State Fault Refusal :=
  .next (tensorWord s a b c t true)

/-- cmpct (R355). -/
def execCmpct (a b c : BitVec 5) (t : BitVec 8) (s : State) : Host.Outcome State Fault Refusal :=
  .next (tensorWord s a b c t true)

/-- cpyh (R354). -/
def execCpyh (a b c : BitVec 5) (t : BitVec 8) (s : State) : Host.Outcome State Fault Refusal :=
  let k := here s
  let va := sreg k a
  let vb := sreg k b
  let vc := sreg k c
  let x := vc.toNat
  let n := bits x 0 24
  .next (cWord s [(bits x 42 22, 16)] [va] (bits x 28 12 == 0 && 1 ≤ n && n ≤ 4194304) fun s =>
    match handleSeen s (BitVec.ofNat 4 (bits x 24 4)) with
    | (s, none, _) => stall s
    | (s, some h, _) =>
      let h := if hV h then h else mkHandle (walk s (hCtx h) (hOrigin h)) (hCtx h) (hOrigin h)
      acceptCmd s 0 t va vb vc { Job.empty with hs := [h] }
        (fun s ag k =>
          let l : Lay := { base := 0, hidx := 0, fmt := 12, spad := false, rank := 1, ext := [n], str := [1] }
          (pinSide s ag { lay := l, dev := true, ctx := hCtx h, base := lowN 64 ((hOrigin h : Int) + vb.toNat), tol := false }
            (bit x 40) (some h), k.job))
        completes)

/-- csum (R360). -/
def execCsum (b : BitVec 5) (t : BitVec 8) (s : State) : Host.Outcome State Fault Refusal :=
  let vb := sreg (here s) b
  let ob := spadOff vb.toNat
  .next (cWord s [(ob, 64)] [vb] true fun s => acceptTensors s t 0 vb 0 [ob] [false] completes)

/-! ### Messages -/

/-- The targets of a message (R356): all of them run tasks of the context, or the command stops with cause STATE. -/
def fixTargets (s : State) (ctx : Nat) (j : Job) (cores : List Nat) : Job :=
  let ts := cores.filterMap (targetOf s ctx)
  if ts.length = cores.length then { j with targets := ts } else stopJob j causeState

/-- A C word with one source record and targets that `find` gives. -/
def messageWord (s : State) (t : BitVec 8) (va vb vc : W64) (find : State → Agent → Job → State × Job) : State :=
  let r := captureRecs s [spadOff vb.toNat]
  match captureHandles r.1 r.2 with
  | (s, none) => stall s
  | (s, some hs) =>
    acceptCmd s 0 t va vb vc { Job.empty with recs := r.2, hs }
      (fun s ag k => let x := find s ag k.job; (if x.2.res.isSome then x.1 else pinRecs x.1 ag k.job [false], x.2)) completes

/-- send (R356). -/
def execSend (a b c : BitVec 5) (t : BitVec 8) (s : State) : Host.Outcome State Fault Refusal :=
  let k := here s
  let va := sreg k a
  let vb := sreg k b
  let vc := sreg k c
  let x := va.toNat
  .next (cWord s ([(bits x 42 22, 16), (spadOff vb.toNat, 64)] ++ barAlign c vc) ([vb] ++ barOffs c vc)
      (bits x 38 3 == 0 && bits x 11 5 == 0 && bits x 0 11 < 1280) fun s =>
    messageWord s t va vb vc fun s ag j => (s, fixTargets s ag.ctx j [bits x 0 11]))

/-- The cores of a set of a queue's multicast table (R156): the cause of R151 where the table cannot be read, `hubWaits` while it is on its
way. -/
def setCores (s : State) (key : Nat) (q : Queue) (set : Nat) : State × Except Nat (List Nat) :=
  match hubRead s .hub key q.ctx (q.msetva + 160 * set) 160 true with
  | (s, .error e) => (s, .error e.1)
  | (s, .ok bs) =>
    if anyPois bs then (s, .error causePoison)
    else let x := leVal bs; (s, .ok ((List.range 1280).filter fun c => bit x c))

/-- bcast (R356). -/
def execBcast (a b c : BitVec 5) (t : BitVec 8) (s : State) : Host.Outcome State Fault Refusal :=
  let k := here s
  let va := sreg k a
  let vb := sreg k b
  let vc := sreg k c
  let x := va.toNat
  .next (cWord s ([(bits x 42 22, 16), (spadOff vb.toNat, 64)] ++ barAlign c vc) ([vb] ++ barOffs c vc)
      (bits x 38 3 == 0 && bits x 6 10 == 0) fun s =>
    let key := hubKey (4096 + s.core)
    let set := bits x 0 6
    let qid := match (here s).task with | some t => t.qid | none => 4096
    let coming := match getQueue s qid with
      | some q => if q.msetva = 0 then (s, false) else hubComing s .hub key q.ctx (q.msetva + 160 * set) 160 true
      | none => (s, false)
    if coming.2 then stall coming.1
    else
      messageWord s t va vb vc fun s _ j =>
        match getQueue s qid with
        | none => (s, stopJob j causeState)
        | some q =>
          if q.msetva = 0 then (s, stopJob j causeState)
          else
            match setCores s key q set with
            | (s, .error e) => (s, stopJob j e)
            | (s, .ok cores) => (s, fixTargets s q.ctx j cores))

/-- The completion of send and bcast (R350, R356): the image lands in every target; a target whose task has ended receives
nothing, and the command then stops with cause STATE. -/
def sendRun (s : State) (core : Nat) (k : Cmd) (bar : Option Nat) : State :=
  let ag := agentOf s core k
  match k.job.res with
  | some res => endCmd s core k bar { res, landed := 0, want := wantOf ag (jobRec k.job 0), flags := 0 }
  | none =>
    let x := imageJob (Run.start s) ag (jobRec k.job 0) (jobHandle k.job 0)
    settleRun s k.uid 4096 (.commandComplete core k.uid) x fun s y =>
      match y with
      | (.error c, want) => endCmd s core k bar (stopped0 c want)
      | (.ok (bs, n, stop), want) =>
        let v := k.a.toNat
        let d : Delivery := { off := bits v 16 22, data := bs, bar := if bit v 41 then some (bits v 42 22) else none
                              rest := want - bs.length, pois := false }
        let r := k.job.targets.foldl (fun r t => let y := deliverTo r.1 t d (core, k.num); (y.1, r.2 && y.2)) (s, true)
        let res := if r.2 then resOf stop bs.length n (anyPois bs) else resOf (some causeState) 0 0 (anyPois bs)
        endCmd r.1 core k bar { res, landed := bs.length, want, flags := 0 }

/-- ratm (R358): a remote atomic message on its way to a core that runs a task of the issuing task's context. -/
def execRatm (a b : BitVec 5) (t : BitVec 8) (s : State) : Host.Outcome State Fault Refusal :=
  let k := here s
  let va := sreg k a
  let vb := sreg k b
  let x := va.toNat
  let op := bits x 60 4
  let off := bits x 16 22
  let n := if op = 7 ∨ op = 8 then 16 else if bit x 59 then 8 else 4
  let c := bits x 0 11
  .next (cWord s [(off, n)] []
      (op ≤ 8 && bits x 38 21 == 0 && bits x 11 5 == 0 && c < 1280 && (op ≠ 7 || (1 ≤ vb.toNat && vb.toNat ≤ 1048575))
        && (op ≠ 8 || vb.toNat ≤ 2147483647)) fun s =>
    let hit := match (here s).task with | some t => (targetOf s t.ctx c).isSome | none => false
    acceptCmd s 0 t va vb 0 Job.empty (fun s ag k => (s, fixTargets s ag.ctx k.job [c])) fun core uid =>
      if hit then
        [.remoteAtomicMessage c { op := BitVec.ofNat 4 op, wide := bit x 59, off, val := vb, owner := some (core, uid) }]
      else [.commandComplete core uid])

/-- A remote atomic at the bank unit of a core (R69, R358), a release with mask L, C and X: whether its word was clean. -/
def applyAtomic (s : State) (core : Nat) (m : AtomicMsg) : State × Bool :=
  let op := m.op.toNat
  let n := if op = 7 ∨ op = 8 then 16 else if m.wide then 8 else 4
  let r := spadSeen { s with core, word := none } m.off n
  let s := { r.1 with core := s.core, word := s.word }
  if anyPois r.2.1 then (s, false)
  else
    let old := leVal r.2.1
    let v := m.val.toNat
    let new :=
      if op = 7 then ((Barrier.ofNat old).update v 0 false).toNat
      else if op = 8 then ((Barrier.ofNat old).update 0 v false).toNat
      else (strongNew (op + 4) n old v 0).getD old
    let s := land s core { off := m.off, data := clean (leBytes n new), bar := none, rest := 0, pois := false }
    (noteRelease s byHub (spadKey core m.off) n 7 true, true)

/-- REMOTE_ATOMIC_MESSAGE (R69, R358): the target is the core that runs the task, wherever it is by now; while the task is saved, the message
and those after it of its channel wait. -/
def execRemoteAtomicMessage (core : Nat) (m : AtomicMsg) (s : State) : Host.Outcome State Fault Refusal :=
  match m.owner with
  | none => if (getCore s core).task.isNone then .next s else .next (applyAtomic s core m).1
  | some (c, uid) =>
    match getCmd s c uid with
    | none => .next s
    | some k =>
      match k.job.targets.head?.bind (targetCore s) with
      | some target =>
        let r := applyAtomic s target m
        .next (match getCmd r.1 c uid with
          | some k => setRes r.1 c k (if r.2 then resOf none 0 1 false else resOf (some causePoison) 0 0 false)
          | none => r.1)
      | none =>
        if (match k.job.targets with | t :: _ => targetSaved s t | [] => false) then
          .next (dueAgain s (.remoteAtomicMessage core m))
        else .next (setRes s c k (resOf (some causeState) 0 0 false))

/-! ### carry (R357) -/

/-- The fields of a carry's target block. -/
structure CarryBlock where
  dev  : Nat
  core : Nat
  off  : Nat
  bar  : Option Nat
  deriving DecidableEq, Repr

/-- A captured target block: the cause that stops the command. -/
def parseCarry (bs : List PByte) : Except Nat CarryBlock :=
  let x := leVal bs
  if anyPois bs then .error causePoison
  else if bits x 27 5 ≠ 0 ∨ bits x 54 10 ≠ 0 ∨ bits x 86 9 ≠ 0 ∨ x / 2 ^ 96 ≠ 0 ∨ (bit x 95 ∧ !aligned (bits x 64 22) 16) then
    .error causeLayout
  else .ok { dev := bits x 0 16, core := bits x 16 11, off := bits x 32 22, bar := if bit x 95 then some (bits x 64 22) else none }

/-- carry (R357). -/
def execCarry (a b c : BitVec 5) (t : BitVec 8) (s : State) : Host.Outcome State Fault Refusal :=
  let k := here s
  let va := sreg k a
  let vb := sreg k b
  let vc := sreg k c
  let oa := spadOff va.toNat
  let ob := spadOff vb.toNat
  .next (cWord s ([(oa, 32), (ob, 64)] ++ barAlign c vc) ([va, vb] ++ barOffs c vc) true fun s =>
    let blk := capture s oa 32
    let r := captureRecs blk.1 [ob]
    match captureHandles r.1 r.2 with
    | (s, none) => stall s
    | (s, some hs) =>
      acceptCmd s 0 t va vb vc { Job.empty with recs := blk.2 :: r.2, hs := 0 :: hs }
        (fun s ag k =>
          let j := match parseCarry blk.2 with
            | .error e => stopJob k.job e
            | .ok x => if x.dev = s.fab.devid then fixTargets s ag.ctx k.job [x.core] else k.job
          (if j.res.isSome then s else pinRecs s ag k.job [false, false], j))
        completes)

/-- A carry's image leaves: to a core of this device, or over a link to a peer (R357). -/
def sendCarry (s : State) (core : Nat) (k : Cmd) (b : CarryBlock) (d : Delivery) : State :=
  if b.dev = s.fab.devid then
    due s [.carryDelivery { src := b.dev, core := b.core, d, owner := some (core, k.uid) }]
  else
    let f : FLine := { id := s.fab.nextLine, dev := b.dev, host := false, va := 0, len := d.data.length, data := some d.data
                       op := 64, use := .command k.uid 4096 (2 ^ 64), src := 0 }
    { s with fab := { s.fab with nextLine := f.id + 1, lines := s.fab.lines ++ [f], out := s.fab.out ++ [.carry b.dev b.core d] } }

/-- The completion of carry (R350, R357): the image is read once and sent, and the command ends when its landing is answered. -/
def carryRun (s : State) (core : Nat) (k : Cmd) (bar : Option Nat) : State :=
  let ag := agentOf s core k
  let want := wantOf ag (jobRec k.job 1)
  let fin (s : State) (k : Cmd) (res : PRes) : State := endCmd s core k bar { res, landed := k.job.bytes, want, flags := 0 }
  match k.job.res, k.job.sent, parseCarry (jobRec k.job 0) with
  | some res, _, _ => fin s k res
  | none, _, .error e => fin s k (resOf (some e) 0 0 false)
  | none, some p, .ok _ =>
    match k.job.got.find? fun g => g.va = 2 ^ 64 with
    | none => s
    | some g =>
      if g.late then fin s k (resOf (some causeTimeout) 0 0 p.pois)
      else if g.st = .ok then fin s k p
      else fin s k (resOf (some causeState) 0 0 p.pois)
  | none, none, .ok b =>
    settleRun s k.uid 4096 (.commandComplete core k.uid) (imageJob (Run.start s) ag (jobRec k.job 1) (jobHandle k.job 1))
      fun s y =>
        match y with
        | (.error c, _) => fin s k (resOf (some c) 0 0 false)
        | (.ok (bs, n, stop), _) =>
          if 4096 < want then fin s k (resOf (some causeLayout) 0 0 false)
          else if b.dev ≠ s.fab.devid && unreachable s b.dev then fin s k (resOf (some causeNotPresent) 0 0 false)
          else
            let sent := resOf stop bs.length n (anyPois bs)
            let k := { k with job := { k.job with sent := some sent, bytes := bs.length } }
            sendCarry (setCmd s core k) core k b { off := b.off, data := bs, bar := b.bar, rest := want - bs.length, pois := false }

/-- The context that this device binds to deliveries from a peer (R357, R419): that of the lowest-numbered entry of the
inbound window table with V, KIND and MSG set and its SRCDEV. -/
def senderCtx (s : State) (dev : Nat) : Option Nat :=
  (s.mmu.inwin.find? fun e =>
    bit e.2.w0.toNat 63 && bit e.2.w0.toNat 62 && bit e.2.w0.toNat 52 && bits e.2.w1.toNat 48 16 == dev).map fun e =>
      bits e.2.w1.toNat 0 8

/-- CARRY_DELIVERY (R357): the image lands in the target, a core that runs a task of the sender's context. -/
def execCarryDelivery (c : CarryMsg) (s : State) : Host.Outcome State Fault Refusal :=
  match c.owner with
  | some (core, uid) =>
    match getCmd s core uid with
    | none => .next s
    | some k =>
      let r := match k.job.targets with | t :: _ => deliverTo s t c.d (core, k.num) | [] => (s, false)
      .next (match getCmd r.1 core uid with
        | some k => setRes r.1 core k (if r.2 then k.job.sent.getD (resOf none 0 0 false) else resOf (some causeState) 0 0 false)
        | none => r.1)
  | none =>
    let answer (s : State) (st : LineStatus) : State :=
      { s with fab := { s.fab with out := s.fab.out ++ [.peerAnswer c.src st []] } }
    match (senderCtx s c.src).bind fun ctx => targetOf s ctx c.core with
    | some _ => .next (answer (land s c.core c.d) .ok)
    | none => .next (answer s (.notPresent causeState))

/-- SCRATCHPAD_DELIVERY_LANDING (R65, R86): bytes land in the scratchpad of a core that runs a task. -/
def execScratchpadDeliveryLanding (core : Nat) (d : Delivery) (s : State) : Host.Outcome State Fault Refusal :=
  if (getCore s core).task.isNone then .next s else .next (land s core d)

/-! ### The scale queue (R359) -/

/-- The entries that an sqld announces: 0 for a record that R359 does not allow. -/
def sqldCount (rec : List PByte) : Nat :=
  match parseLay rec false with
  | .ok l => if l.fmt = 6 && l.count ≤ 1024 then l.count else 0
  | .error _ => 0

/-- sqld (R320, R359): its entries are announced at acceptance, which waits for room in the queue. -/
def execSqld (b : BitVec 5) (t : BitVec 8) (s : State) : Host.Outcome State Fault Refusal :=
  let vb := sreg (here s) b
  let ob := spadOff vb.toNat
  .next (cWord s [(ob, 64)] [vb] true fun s =>
    let r := captureRecs s [ob]
    match r.1.word, captureHandles r.1 r.2 with
    | none, _ => s
    | some _, (s, none) => stall s
    | some w, (s, some hs) =>
      let n := sqldCount (lget r.2 0 [])
      let held := (here s).mem.scaleq.foldl (fun a p => a + p.left) 0
      if 1024 < held + n then
        if (vget (here s).iss.queues (engIx .m) []).any fun x => decide (x.seq < w.seq) then stall s
        else raiseWord s tScaleImbalance
      else
        acceptCmd s 0 t 0 vb 0 { Job.empty with recs := r.2, hs }
          (fun s ag k =>
            let p : Promise := { head := w.num, left := n, got := [] }
            let s := if n = 0 then s else onHere s fun c => { c with mem := { c.mem with scaleq := c.mem.scaleq ++ [p] } }
            (pinRecs s ag k.job [false], k.job))
          (fun core uid => [.scaleEntryLand core uid]))

/-- Change the promise of an sqld. -/
def onPromise (s : State) (core head : Nat) (f : Promise → Promise) : State :=
  let k := getCore s core
  let scaleq := (k.mem.scaleq.map fun p => if p.head = head then f p else p).filter fun p => p.left ≠ 0
  setCore s core { k with mem := { k.mem with scaleq } }

/-- SCALE_ENTRY_LAND (R359): the next entry of an sqld enters the scale queue, or the sqld ends; a stop withdraws the entries
that are not delivered. -/
def execScaleEntryLand (core cmd : Nat) (s : State) : Host.Outcome State Fault Refusal :=
  match getCmd s core cmd with
  | none => .next s
  | some k =>
    let ag := agentOf s core k
    let rec' := jobRec k.job 0
    let n := sqldCount rec'
    let i := k.job.units
    let stop (s : State) (c : Nat) : State :=
      setRes (onPromise s core k.num fun p => { p with left := p.left - (n - i) }) core k (resOf (some c) i i k.job.pois)
    match tensorOf s ag rec' (jobHandle k.job 0) with
    | .error c => .next (stop s c)
    | .ok t =>
      if t.lay.fmt ≠ 6 || 1024 < t.lay.count then .next (stop s causeLayout)
      else if wrongClass s ag t then .next (stop s causeFormat)
      else if n ≤ i then .next (setRes s core k (resOf none i i k.job.pois))
      else
        .next (settleRun s k.uid 4096 (.scaleEntryLand core cmd)
          (readElems (Run.start s) ag t [lget t.lay.offs i 0]) fun s y =>
            match y with
            | (_, some c) => stop s c
            | (e :: _, none) =>
              let s := onPromise s core k.num fun p => { p with got := p.got ++ [(BitVec.ofNat 8 e.1, e.2)] }
              due (setCmd s core { k with job := { k.job with units := i + 1, pois := k.job.pois || e.2 } })
                [.scaleEntryLand core cmd]
            | ([], none) => stop s causeLayout)

end Sys2Proof.Machine
end

