-- ==== Sys2Proof/Machine/Complete.lean ====
section
/-! DEFINITION. merge (R370) and the completion of every command (R113, R351). -/

namespace Sys2Proof.Machine

/-- The head dimension and the number of partials of merge (R370). -/
def mergeDims (flags : BitVec 18) : Nat × Nat := (bits flags.toNat 0 8 + 1, bits flags.toNat 8 10 + 1)

/-- merge (R370). -/
def execMerge (a b c : BitVec 5) (t : BitVec 8) (prof : BitVec 6) (_flags : BitVec 18) (s : State) :
    Host.Outcome State Fault Refusal :=
  .next (longProfile s prof fun s np =>
    let k := here s
    let va := sreg k a
    let vb := sreg k b
    let vc := sreg k c
    cWord s (barAlign c vc) ([va, vb] ++ barOffs c vc) true fun s =>
      acceptCmd s np t va vb vc Job.empty (fun s _ k => (s, k.job)) completes)

/-- A command whose effect is over: its record is written and its token comes. -/
def endKnown (s : State) (core : Nat) (k : Cmd) : State :=
  match k.job.res with
  | none => s
  | some res => endCmd s core k none { res, landed := 0, want := 0, flags := k.job.flags }

/-- COMMAND_COMPLETE (R113, R351): the command has its effect, as far as it has not had it, and completes. -/
def execCommandComplete (core cmd : Nat) (s : State) : Host.Outcome State Fault Refusal :=
  match getCmd s core cmd with
  | none => .next s
  | some k =>
    match k.instr with
    | .cpy _ _ c _ => .next (runCmd s core k (barOf c k.c) fun r ag => copyJob r ag k.job 0)
    | .gath _ _ c _ => .next (runCmd s core k (barOf c k.c) fun r ag => rowsJob r ag k.job 0)
    | .scat _ _ c _ => .next (runCmd s core k (barOf c k.c) fun r ag => rowsJob r ag k.job 1)
    | .cmpct _ _ c _ => .next (runCmd s core k (barOf c k.c) fun r ag => rowsJob r ag k.job 2)
    | .cpyh _ _ _ _ =>
      .next (runCmd s core k (if bit k.c.toNat 41 then some (bits k.c.toNat 42 22) else none) fun r ag =>
        flatJob r ag k.job k.a.toNat k.b.toNat k.c.toNat)
    | .csum _ _ => .next (runCmd s core k none fun r ag => sumJob r ag k.job)
    | .send _ _ c _ => .next (sendRun s core k (barOf c k.c))
    | .bcast _ _ c _ => .next (sendRun s core k (barOf c k.c))
    | .carry _ _ c _ => .next (carryRun s core k (barOf c k.c))
    | .merge _ _ c _ _ fl =>
      .next (runCmd s core k none fun r ag =>
        mergeJob r ag k.np k.a.toNat k.b.toNat (mergeDims fl).1 (mergeDims fl).2 (barOf c k.c))
    | .coll _ _ _ => .next (if k.job.res.isSome then endKnown s core k else collRun s core k)
    | _ => .next (endKnown s core k)

end Sys2Proof.Machine
end

