-- ==== Sys2Proof/Machine/Mmu.lean ====
section
/-! DEFINITION. The events of translation: results in flight, the sweeper (R20, R21, R132), shootdowns (R27, R28), stream pins
(R29, R30) and the hub's tables (R32). -/

namespace Sys2Proof.Machine

/-- An answer of the management channel (R415). -/
def answerHost (s : State) (op tag status : Nat) (payload : List W64) : State :=
  { s with fab := { s.fab with out := s.fab.out ++ [.mgmt op tag status payload] } }

/-- The statuses of R415. -/
def mgOk : Nat := 0
def mgUnsupported : Nat := 1
def mgField : Nat := 2
def mgAuth : Nat := 3
def mgState : Nat := 4
def mgBusy : Nat := 5

/-- EXPOSED_RESULT_EXPIRE (R67): a result whose exposed latency has elapsed is visible to every reader. -/
def execExposedResultExpire (core : Nat) (s : State) : Host.Outcome State Fault Refusal :=
  let s := settleRaces s core
  .next (setCore s core (expireHandles (expire (getCore s core))))

/-! ### The sweeper (R20, R21, R132) -/

/-- The entries of a table of `n` that memory lists as nonzero. -/
def tableEntries (s : State) (table n : Nat) : List Nat :=
  ((s.dram.cells.filterMap fun c =>
    let o := offsetIn table c.1
    if table ≤ o ∧ o < table + 8 * n then some ((o - table) / 8) else none).eraseDups)

/-- The leaves below a table (R15, R16): the virtual addresses of their pages. -/
def leavesFrom (s : State) : Nat → Nat → Nat → Nat → List Nat
  | 0, _, _, _ => []
  | left + 1, lvl, table, va =>
    if 2199023255552 ≤ table then []
    else
      (tableEntries s table (2 ^ (levelBits lvl).2)).flatMap fun i =>
        let at' := va + i * 2 ^ (levelBits lvl).1
        match tableWord s (table + 8 * i) with
        | none => []
        | some e =>
          if !bit e 0 then []
          else if bit e 6 then if lvl = 0 then [] else [at']
          else leavesFrom s left (lvl + 1) (bits e 8 40 * 256) at'

/-- Every leaf of a context. -/
def leavesOf (s : State) (ctx : Nat) : List Nat :=
  match ctxWord s ctx 0 with
  | some w => if bit w 0 then leavesFrom s 4 0 (bits w 16 32 * 65536) 0 else []
  | none => []

/-- SWEEPEN of a context (R14). -/
def sweepOn (s : State) (ctx : Nat) : Bool :=
  ctxValid s ctx && match ctxWord s ctx 1 with | some w => bit w 16 | none => false

/-- SWEEP_PERIOD_BOUNDARY (R20, R21): the seen bits of the context clear and a new period begins, in which the sweeper
visits every leaf once. -/
def execSweepPeriodBoundary (ctx : Nat) (s : State) : Host.Outcome State Fault Refusal :=
  let tlbs := s.mmu.tlbs.map fun t =>
    (t.1, t.2.map fun e => if e.ctx = ctx then { e with rseen := false, wseen := false } else e)
  let s := { s with mmu := { s.mmu with tlbs } }
  if !ctxValid s ctx then .next s
  else if sweepOn s ctx then .next (due s ((leavesOf s ctx).map (.sweeperVisit ctx) ++ [.sweepPeriodBoundary ctx]))
  else if heatOn s ctx then .next (due s [.sweepPeriodBoundary ctx])
  else .next s

/-- The local frame of the pool as a leaf names it: RES 0, PMODE and STACK by its window (R18). -/
def poolLeaf (f : Nat) : W64 :=
  let pa := frameBase f
  BitVec.ofNat 64 (pa + if pa < 1099511627776 then 8192 + bits pa 36 4 * 512 else 0)

/-- The 64 KiB units of a shade record (R128). -/
def recordUnits (n : Nat) : Nat := (n + 65535) / 65536

/-- Whether the Shade zone holds another record of so many units (R127, R128). -/
def zoneRoom (s : State) (units : Nat) : Bool :=
  s.mmu.zone.foldl (fun a z => a + z.2) 0 + units ≤ s.mmu.shzLen.toNat * 32

/-- The frames of the expansion pool, with those that a sweep on its way brings and those that a move that aborts returns (R132): a set of at
most 256. -/
def poolSize (s : State) : Nat :=
  s.mmu.pool.length + (s.mmu.moves.filter fun m => m.2.kind == 5 || m.2.pool.isSome).length

/-- The one move that the sweeper starts at a visit (R132), by the heat that the visit found. -/
def sweeperMove (s : State) (ctx va heat : Nat) : State :=
  match walk s ctx va with
  | .no _ => s
  | .ok leaf size addr =>
    let e := leaf.toNat
    let thr := s.mmu.expthr.toNat
    let req : PageReq := { src := .host 0, va := va / pageSize size * pageSize size, dst := 0, ca := 0, size, ctx }
    if movingAt s ctx va || 64 ≤ s.mmu.moves.length then s
    else if bits e 7 2 = 1 then
      if s.mmu.xen && thr ≠ 0 && thr ≤ heat then
        match s.mmu.pool with
        | [] => s
        | f :: fs => startMove { s with mmu := { s.mmu with pool := fs } } req 4 leaf addr (poolLeaf f) (some f) none
      else s
    else if s.mmu.cen && bits e 7 2 == 0 && size == 1 && bits e 52 2 ≠ 0 && heat == 0 && s.mmu.shzLen ≠ 0
        && zoneRoom s 1 && poolSize s < 256 && feState (frameEntry s (frameBase (bits e 16 32))) == 0 then
      startMove s req 5 leaf addr 384 none none
    else s

/-- SWEEPER_VISIT (R21, R132): the heat of a leaf fades, whatever the leaf maps to, and the sweeper starts at most one move. Whether it
compares the heats before or after the decrement of the visit the spec does not say; it compares them before (log 87). -/
def execSweeperVisit (ctx va : Nat) (s : State) : Host.Outcome State Fault Refusal :=
  match leafSpot s ctx va with
  | none => .next s
  | some (addr, e, _) =>
    let s := if sweepOn s ctx then leafUpdate (leafUpdate s addr 56 2 (· - 1)) addr 58 2 (· - 1) else s
    .next (sweeperMove s ctx va (bits e 56 2 + bits e 58 2))

/-! ### Shootdowns (R27, R28) -/

/-- The range of a shootdown: its first address and its length. The spec gives UNITS 1 to 2^24 and 0 (R27); what a larger value of its 25 bits
does it does not say, and the model takes it as a plain count of units (log 97). -/
def shootSpan (r : ShootReq) : Nat × Nat := if r.units = 0 then (0, 4503599627370496) else (r.vpn * 65536, r.units * 65536)

/-- Whether an event is a walk in flight of a core that runs a task of a context. -/
def walkIn (s : State) (ctx : Nat) (e : Event) : Bool :=
  match e with
  | .pageWalkComplete c _ => match (getCore s c).task with | some t => t.ctx == ctx | none => false
  | _ => false

/-- SHOOTDOWN_START (R27, R28 steps 1 and 2): at most 16 are in progress; the walks of the context wait for step 5. -/
def execShootdownStart (r : ShootReq) (s : State) : Host.Outcome State Fault Refusal :=
  match r.src with
  | .host tag =>
    if 256 ≤ r.ctx ∨ 68719476736 ≤ r.vpn ∨ 33554432 ≤ r.units then .next (answerHost s 3 tag mgField [])
    else go
  | .core _ => go
where
  /-- The shootdown enters its steps. -/
  go : Host.Outcome State Fault Refusal :=
    if 16 ≤ s.mmu.shoots.length then .next (dueAgain s (.shootdownStart r))
    else
      let id := s.mmu.nextId
      let s := { s with mmu := { s.mmu with nextId := id + 1, shoots := s.mmu.shoots ++ [{ id, req := r }] } }
      let s := shootRange s r.ctx (shootSpan r).1 (shootSpan r).2
      let s := { s with agenda := s.agenda.filter fun e => !walkIn s r.ctx e }
      .next (due s [.shootdownComplete id])

/-- The walks of the cores of a context that wait and are not due. -/
def restartWalks (s : State) (ctx : Nat) : State :=
  due s (s.cores.flatMap fun c =>
    match c.2.task with
    | some t => if t.ctx = ctx then (walksOf c.1 c.2).filter fun e => !s.agenda.contains e else []
    | none => [])

/-- Whether writes made through a translation that a range covers are still on their way to a remote holder (R28 step 4). -/
def writesOut (s : State) (lo len : Nat) : Bool :=
  s.fab.lines.any fun l => l.data.isSome && (overlaps l.src l.len lo len || overlaps l.page.1 l.page.2 lo len)

/-- SHOOTDOWN_COMPLETE (R28 steps 3 to 5): in arrival order, once the covered pins are gone and the covered writes have
landed. -/
def execShootdownComplete (id : Nat) (s : State) : Host.Outcome State Fault Refusal :=
  match s.mmu.shoots.find? fun x => x.id = id with
  | none => .next s
  | some x =>
    let lo := (shootSpan x.req).1
    let len := (shootSpan x.req).2
    if (s.mmu.shoots.head?.map (·.id)) ≠ some id || !(pinsOn s x.req.ctx lo len).isEmpty || writesOut s lo len then
      .next (due s [.shootdownComplete id])
    else
      let s := flushNear { s with mmu := { s.mmu with shoots := s.mmu.shoots.filter fun y => y.id ≠ id } }
      let s := if s.mmu.shoots.any fun y => y.req.ctx = x.req.ctx then s else restartWalks s x.req.ctx
      match x.req.src with
      | .host tag => .next (answerHost s 3 tag mgOk [])
      | .core c =>
        let k := getCore s c
        .next (setCore s c { k with mreg := { k.mreg with sdBusy := false } })

/-! ### Stream pins (R29, R30) -/

/-- Who reads the pages of a job's descriptor (R102): a Candle unit for a query, the hub for a bag sum, a Beacon for a copy. -/
def pinAccessor (s : State) (p : Pin) (l : Local) : Accessor :=
  let candle := Accessor.candle (qStack (leVal (jobRec l.job 0)))
  match (if p.owner.2 = 4096 then none else getPacket s p.owner.2 p.owner.1 : Option Packet).map (·.kind), ((runningCmd s p.owner.1).map fun c => c.2.instr : Option Instr) with
  | some 5, _ => candle
  | some 6, _ => .hub
  | some 3, _ | some 4, _ => .beacon
  | some _, _ => l.ag.acc
  | none, some (.nmq _ _ _) => candle
  | none, some (.nmr _ _ _) => .hub
  | none, _ => l.ag.acc

/-- The agent of a pin's owner: a command, a packet. -/
def pinAgent (s : State) (p : Pin) : Option Agent := (localOf s p.owner).map fun l => { l.ag with acc := pinAccessor s p l }

/-- STREAM_PIN_RELEASE (R29, R30): a pin that a shootdown has revoked is released, and its agent goes on with a new
translation of the same page, or without one where the page is in a move (R130). -/
def execStreamPinRelease (pin : Nat) (s : State) : Host.Outcome State Fault Refusal :=
  match s.mmu.pins.find? fun p => p.id = pin with
  | none => .next s
  | some p =>
    let s := drainCheck { s with mmu := { s.mmu with pins := s.mmu.pins.filter fun x => x.id ≠ pin } }
    if !p.revoked then .next s
    else
      match pinAgent s p with
      | none => .next s
      | some ag => .next (pinUnit s ag p.ctx p.base p.write none)

/-! ### The hub's tables (R32) -/

/-- The answer of a table operation: BUSY clears, or the host is answered. -/
def tableDone (s : State) (src : Requester) (status : Nat) (ws : List W64) : State :=
  match src with
  | .core c => due s [.hubTableOpComplete c]
  | .host tag => answerHost (flushNear s) 16 tag status ws

/-- A period of a context begins where its entry asks for one and none runs (R14, R20, R21). -/
def startSweep (s : State) (ctx : Nat) : State :=
  if ctxValid s ctx && (sweepOn s ctx || heatOn s ctx) && !s.agenda.contains (.sweepPeriodBoundary ctx) then
    due s [.sweepPeriodBoundary ctx]
  else s

/-- HUB_TABLE_WRITE (R32): a context entry goes to the table in memory, a window entry to the hub's storage. -/
def execHubTableWrite (r : TableReq) (s : State) : Host.Outcome State Fault Refusal :=
  let w (i : Nat) : W64 := lget r.words i 0
  let bad := match r.src with
    | .host _ => (if r.window then 1024 else 256) ≤ r.idx || !tableLegal s r.window r.idx r.words
    | .core _ => false
  if bad then .next (tableDone s r.src mgField [])
  else if r.window then
    let e : Window := { w0 := w 0, w1 := w 1, w2 := w 2, w3 := w 3 }
    let rwin := if e = { w0 := 0, w1 := 0, w2 := 0, w3 := 0 } then Map.erase s.mmu.rwin r.idx else Map.set s.mmu.rwin r.idx e
    .next (tableDone { s with mmu := { s.mmu with rwin } } r.src mgOk [])
  else
    let s := physWrite s (s.mmu.ctxBase + 64 * r.idx) (clean ((List.range 8).flatMap fun i => leBytes 8 (w i).toNat))
    .next (tableDone (startSweep s r.idx) r.src mgOk [])

/-- HUB_TABLE_READ (R32): the entry goes to HTD0 to HTD7, or to the host. -/
def execHubTableRead (r : TableReq) (s : State) : Host.Outcome State Fault Refusal :=
  let ws : List W64 :=
    if r.window then
      match Map.find s.mmu.rwin r.idx with
      | some e => [e.w0, e.w1, e.w2, e.w3, 0, 0, 0, 0]
      | none => List.replicate 8 0
    else (List.range 8).map fun i => BitVec.ofNat 64 (leVal (physRead s (s.mmu.ctxBase + 64 * r.idx + 8 * i) 8))
  match r.src with
  | .core c =>
    let k := getCore s c
    .next (tableDone (setCore s c { k with mreg := { k.mreg with htd := Vector.ofFn fun i => lget ws i.val 0 } }) r.src mgOk [])
  | .host _ =>
    if (if r.window then 1024 else 256) ≤ r.idx then .next (tableDone s r.src mgField [])
    else .next (tableDone s r.src mgOk ws)

/-- HUB_TABLE_OP_COMPLETE (R32): BUSY clears, a release with the full mask. -/
def execHubTableOpComplete (core : Nat) (s : State) : Host.Outcome State Fault Refusal :=
  let k := getCore s core
  .next (flushNear (setCore s core { k with mreg := { k.mreg with htBusy := false } }))

end Sys2Proof.Machine
end

