-- ==== Sys2Proof/Machine/Lines.lean ====
section
/-! DEFINITION. Lines to remote holders: what their answers and timeouts do (R31, R124, R421). -/

namespace Sys2Proof.Machine

/-- The cause of R151 of a failed line. -/
def lineCause (st : LineStatus) (late : Bool) : Nat :=
  if late then causeTimeout else match st with | .ownership => causeOwnership | _ => causeNotPresent

/-- The bytes of an answer, as many as the line asked for: what did not come is poisoned (R54). -/
def lineBytes (n : Nat) (data : List PByte) : List PByte := (data ++ List.replicate n (255, true)).take n

/-- The error record of a forwarded write that failed (R124, R401): the task that made the store is the one that the line carries. -/
def forwardRecord (s : State) (f : FLine) (qid core packet ord cause : Nat) : State :=
  errorRecord s qid 6 cause (if core < 1280 then core else 65535) ord 0 (BitVec.ofNat 64 f.src) 0 (BitVec.ofNat 64 packet) 0

/-- The event that carries a command on. -/
def cmdEvent (core : Nat) (k : Cmd) : Event :=
  match k.instr with
  | .sqld _ _ => .scaleEntryLand core k.uid
  | .nmq _ _ _ => .candlePartialLand core k.uid
  | .nmr _ _ _ => .nmrBagLand core k.uid
  | _ => .commandComplete core k.uid

/-- The event that carries a packet on (R149). -/
def packetEvent (q k kind : Nat) : Event :=
  match kind with
  | 1 => .packetNop q k
  | 2 => .packetLaunch q k
  | 3 => .packetCopy q k
  | 4 => .packetBcopy q k
  | 5 => .packetNmq q k
  | 6 => .packetNmr q k
  | 7 => .packetColl q k
  | 8 => .packetSignal q k
  | 9 => .packetWait q k
  | 10 => .packetMarker q k
  | 11 => .packetBloop q k
  | _ => .packetBwait q k

/-- A line that a command asked for has come: the command goes on. -/
def cmdGot (s : State) (uid : Nat) (g : Got) : State :=
  match runningCmd s uid with
  | some (c, k) => due (setCmd s c { k with job := { k.job with got := k.job.got ++ [g] } }) [cmdEvent c k]
  | none =>
    let s' := mapSaved s fun c =>
      match Map.find c.cmds uid with
      | some k => { c with cmds := Map.set c.cmds uid { k with job := { k.job with got := k.job.got ++ [g] } } }
      | none => c
    match savedCmd s uid with
    | some (_, k) =>
      match k.instr with
      | .coll _ _ _ => due s' [.collectiveResult (cGid (leVal (jobRec k.job 0)))]
      | _ => s'
    | none => s'

/-- A line that a packet asked for has come: the packet goes on. -/
def packetGot (s : State) (q k : Nat) (g : Got) : State :=
  match getPacket s q k with
  | some p => due (setPacket s q { p with job := { p.job with got := p.job.got ++ [g] } }) [packetEvent q k p.kind]
  | none => s

/-- A line that a move asked for has come: the move goes on (R130). -/
def moveGot (s : State) (mv : Nat) (g : Got) : State :=
  match Map.find s.mmu.moves mv with
  | some m => due { s with mmu := { s.mmu with moves := Map.set s.mmu.moves mv { m with got := m.got ++ [g] } } } [.moveCopyComplete mv]
  | none => s

/-- A line is answered, or has timed out (R124). -/
def lineEnds (s : State) (id : Nat) (st : LineStatus) (data : List PByte) (late : Bool) : State :=
  match s.fab.lines.find? fun f => f.id = id with
  | none => s
  | some f =>
    let s := { s with fab := { s.fab with lines := s.fab.lines.filter fun x => x.id ≠ id } }
    let bs := if f.data.isSome then if 16 ≤ f.op && f.op < 64 then data.take f.len else [] else lineBytes f.len data
    let silent := f.op = 3 ∨ f.op = 13 ∨ f.op = 14 ∨ 16 ≤ f.op
    match f.use with
    | .load c n => if 1280 ≤ c then s else { s with fab := { s.fab with answers := s.fab.answers ++ [{ core := c, num := n, strong := false, st, late, data := bs }] } }
    | .strong c n =>
      { s with fab := { s.fab with answers := s.fab.answers ++ [{ core := c, num := n, strong := true, st, late
                                                                  data := if silent then data.take f.len else lineBytes f.len data }] } }
    | .store q c packet ord => if st = .ok && !late then s else forwardRecord s f q c packet ord (lineCause st late)
    | .command uid q va =>
      let g : Got := { va, st, late, data := bs }
      if q = 4096 then cmdGot s uid g
      else if q = 4097 then moveGot s uid g
      else if q = 4098 then
        { s with fab := { s.fab with inbound := Map.set s.fab.inbound uid (Map.get [] s.fab.inbound uid ++ [g]) } }
      else packetGot s q uid g
    | .fetch c va =>
      let k := getCore s c
      setCore s c { k with fetched := Map.set k.fetched va (if late then .notPresent 1 else st, bs) }

/-- FORWARDED_LINE_RESPONSE (R124): a peer that answers is no longer silent (R421). -/
def execForwardedLineResponse (line : Nat) (st : LineStatus) (data : List PByte) (s : State) :
    Host.Outcome State Fault Refusal :=
  let s := match s.fab.lines.find? fun f => f.id = line with
    | some f => if f.host then s else { s with fab := { s.fab with timeouts := Map.erase s.fab.timeouts f.dev } }
    | none => s
  .next (lineEnds s line st data false)

/-- FORWARDED_LINE_TIMEOUT (R124, R421): 50 µs have passed; the eighth silent request makes the peer unreachable. -/
def execForwardedLineTimeout (line : Nat) (s : State) : Host.Outcome State Fault Refusal :=
  match s.fab.lines.find? fun f => f.id = line with
  | none => .next s
  | some f =>
    let n := Map.get 0 s.fab.timeouts f.dev + 1
    let s' := lineEnds s line (.notPresent 1) [] true
    if f.host then .next s'
    else
      let s' := { s' with fab := { s'.fab with timeouts := Map.set s'.fab.timeouts f.dev n } }
      .next (if n = 8 && !unreachable s' f.dev then due s' [.deviceUnreachable f.dev] else s')

end Sys2Proof.Machine
end

