-- ==== Sys2Proof/Machine/MemoryCtl.lean ====
section
/-! DEFINITION. The stack controllers: explicit requests, the decoder's outcomes, formats, scrubbing, the wipe and reset
(R34 to R63, R114). -/

namespace Sys2Proof.Machine

/-! ### Requests and outcomes (R41 to R53) -/

/-- The units that a range of cells touches, by their first cells. -/
def unitsOf (s : State) (cell n : Nat) : List Nat :=
  let u := unitOf (attrAt s cell)
  (ranges u (n + 1) cell n).map fun r => r.1 / u * u

/-- The format that a request carries. -/
def memFormat (r : MemReq) : Attr := { gran := r.gran, tol := r.tol, tcls := r.tcls }

/-- MEMORY_REQUEST_ACCEPT (R37, R41, R42): a write lands; a read returns what stood at its acceptance. -/
def execMemoryRequestAccept (r : MemReq) (s : State) : Host.Outcome State Fault Refusal :=
  if (requests r.addr r.len).any fun q => q.1.isNone then .fault (.noSuchAddress r.addr)
  else
    match r.write with
    | some bs => .next (dramWrite s r.addr (bs.take r.len) (memFormat r))
    | none =>
      let x := dramRead s r.addr r.len (memFormat r)
      let units := (requests r.addr r.len).flatMap fun q =>
        match q.1 with
        | some c => if attrAt s c = (memFormat r) then unitsOf s c q.2 else []
        | none => []
      .next { x.1 with reads := x.1.reads ++ [{ req := r, data := x.2, units }] }

/-- The counters of the pseudo-channel of a cell (R35, R60), by stack and pseudo-channel: saturating at 32 bits. -/
def countCell (m : Map Nat) (cell : Nat) : Map Nat :=
  let key := cell / 68719476736 * 64 + (dramPlaceOf (cell % 68719476736)).pch
  Map.put 0 m key (min (Map.get 0 m key + 1) 4294967295)

/-- Poison a unit (R47, R52, R53), with its record in the error log (R60): the symbols found in error where the decoder tells. -/
def poisonUnit (s : State) (unit : Nat) (syms : Option Nat) : State :=
  let a := attrAt s unit
  let dram := (List.range (unitOf a / 32)).foldl (fun m i => m.setGrain (unit / 32 + i) true) s.dram
  logError { s with dram, uncorr := countCell s.uncorr unit } (unit / 68719476736)
    { kind := 0, off := unit % 68719476736, gran := a.gran, tol := a.tol, tcls := a.tcls, syms }

/-- The width of an element of a tolerance class and the lowest of its covered bits (R48). -/
def coverOf (tcls : Nat) : Nat × Nat :=
  match tcls with
  | 0 => (16, 7)
  | 1 => (16, 10)
  | 2 => (8, 3)
  | 3 => (8, 2)
  | 4 => (4, 1)
  | 5 => (8, 2)
  | _ => (8, 5)

/-- Whether a unit carries the full code (R45, R50): it lies in a frame with TOL clear, or in a scale area. -/
def fullCode (a : Attr) (unit : Nat) : Bool := !a.tol || (4 ≤ a.tcls.toNat && unit % 4096 < 256)

/-- Whether a bit of a unit is covered by its code (R45, R48 to R50). -/
def covered (a : Attr) (unit b : Nat) : Bool :=
  let c := coverOf a.tcls.toNat
  fullCode a unit || c.2 ≤ b % c.1

/-- The data bits and the check bits of a unit (R40). -/
def dataBits (a : Attr) : Nat := 8 * unitOf a
def checkBits (a : Attr) : Nat := 16 * 2 ^ a.gran.toNat

/-- The symbol of a bit of a unit under the full code (R45): the bit, its byte, or the pin that carries it. -/
def fullSymbol (a : Attr) (b : Nat) : Nat :=
  let c := b - dataBits a
  match a.gran.toNat with
  | 0 => b
  | 1 => b / 8
  | g => if b < dataBits a then 32 * (b / 512) + (beatPin (b % 512)).2 else 32 * 2 ^ (g - 1) + 2 * (c / 32) + c % 2

/-- The place of a data bit among the packed covered bits of a tolerant unit (R50). -/
def packedBit (a : Attr) (b : Nat) : Nat :=
  let c := coverOf a.tcls.toNat
  b / c.1 * (c.1 - c.2) + (b % c.1 - c.2)

/-- The bits of a symbol of a tolerant code (R50). -/
def packedWidth (a : Attr) : Nat :=
  match a.gran.toNat with
  | 0 => 1
  | 1 => 8
  | _ => 16

/-- The symbol of a covered bit under the code of a tolerant unit (R50): the check symbols stand after the packed ones. -/
def packedSymbol (a : Attr) (b : Nat) : Nat :=
  let k := packedWidth a
  if b < dataBits a then packedBit a b / k
  else (packedBit a (dataBits a - 1) + k) / k + (b - dataBits a) / k

/-- The symbols of a unit that a list of flipped bits puts in error, each once. -/
def symbolsHit (a : Attr) (unit : Nat) (flips : List Nat) : List Nat :=
  (flips.filter fun b => b < dataBits a + checkBits a && (dataBits a ≤ b || covered a unit b)).foldl
    (fun l b => NatSet.insert l (if fullCode a unit then fullSymbol a b else packedSymbol a b)) []

/-- How many symbols in error a code corrects, and up to how many it detects (R45, R50). -/
def codeLimits (a : Attr) (unit : Nat) : Nat × Nat :=
  if fullCode a unit then
    match a.gran.toNat with
    | 0 => (1, 2)
    | 1 | 2 => (1, 3)
    | _ => (2, 6)
  else if a.gran = 3 then (3, 5) else (2, 2)

/-- What a code makes of the errors of a unit (R45 to R47, R50): nothing found, corrected, detected with the symbols in error, or
beyond what the code guarantees. -/
inductive Verdict where
  | clean | corrected
  | detected (n : Nat)
  | beyond
  deriving DecidableEq, Repr

/-- The bits in which two tags differ. -/
def tagBits (x y : Nat) : Nat := ((List.range 40).filter fun i => bit (x ^^^ y) i).length

/-- The verdict on a unit (R45, R46, R50): a differing tag is an error that no correction mends, and is detected where its bits
with the other symbols in error are within the limits; SEC-DED also detects what one nibble holds. -/
def verdict (s : State) (e : UnitErr) : Verdict :=
  let a := attrAt s e.unit
  let hit := symbolsHit a e.unit e.flips
  let lim := codeLimits a e.unit
  let tag := match e.other with | some o => tagBits (addressTag s e.unit) (addressTag s o) | none => 0
  let nibble := fullCode a e.unit && a.gran == 0 && hit.all fun b => b / 4 == hit.headD 0 / 4
  if 0 < tag then if hit.length + tag ≤ lim.2 then .detected (hit.length + tag) else .beyond
  else if hit.isEmpty then .clean
  else if hit.length ≤ lim.1 then .corrected
  else if hit.length ≤ lim.2 || nibble then .detected hit.length
  else .beyond

/-- The flipped bits that no code covers (R51). -/
def looseBits (a : Attr) (e : UnitErr) : List Nat := e.flips.filter fun b => b < dataBits a && !covered a e.unit b

/-- A byte with some bits of its unit flipped; `i` is the byte's place in the unit. -/
def flipByte (flips : List Nat) (i : Nat) (b : Byte) : Byte :=
  (List.range 8).foldl (fun x j => if flips.contains (8 * i + j) then x ^^^ BitVec.ofNat 8 (2 ^ j) else x) b

/-- Uncovered bits change in the cells, unseen (R51). -/
def driftUnit (s : State) (unit : Nat) (flips : List Nat) : State :=
  let bs := (s.dram.bytes unit (unitOf (attrAt s unit))).mapIdx fun i b => flipByte flips i b
  if flips.isEmpty then s else { s with dram := s.dram.setBytes unit bs }

/-- What a read of a unit gives (R47, R51): its bytes as stored with uncovered bits as the cells hold them, poison, or bytes that
no code vouches for. -/
inductive UnitRead where
  | kept (flips : List Nat)
  | lost
  | misread (n : Nat)
  deriving DecidableEq, Repr

/-- A byte of a unit as its read gives it; `i` is the byte's place in the unit, `cell` its cell. -/
def UnitRead.byte (r : UnitRead) (cell i : Nat) (b : PByte) : PByte :=
  match r with
  | .kept flips => if b.2 then b else (flipByte flips i b.1, false)
  | .lost => (255, true)
  | .misread n => (Config.misread n cell, false)

/-- The decoding of a unit that is read (R47, R51 to R53): its effect on cells, counters and log, and what it gives. A poisoned
unit is poisoned before any correction is tried. Errors beyond the limits have no guaranteed outcome: the unit is found
uncorrectable, miscorrected, or passed unseen (log 31). A scrub writes a corrected unit back (R59). -/
def decodeUnit (s : State) (e : UnitErr) (scrub : Bool) : State × UnitRead :=
  let a := attrAt s e.unit
  if s.dram.pois.contains (e.unit / 32) then (s, .kept [])
  else
    let loose := looseBits a e
    match verdict s e with
    | .clean => (driftUnit s e.unit loose, .kept loose)
    | .corrected => ({ driftUnit s e.unit loose with corr := countCell s.corr e.unit }, .kept loose)
    | .detected n =>
      let p := pick s e.unit
      (poisonUnit p.1 e.unit (if p.2 then some n else none), .lost)
    | .beyond =>
      let p := pick s e.unit
      if p.2 then (poisonUnit p.1 e.unit none, .lost)
      else
        let q := pick p.1 e.unit
        let n := q.1.free
        let s := { q.1 with free := n + 1 }
        let bs := (List.range (unitOf a)).map fun i => Config.misread n (e.unit + i)
        if !q.2 then (s, .misread n)
        else
          let s := { s with corr := countCell s.corr e.unit }
          (if scrub then { s with dram := s.dram.setBytes e.unit bs } else s, .misread n)

/-- The errors of a unit among those of a request. -/
def errOf (es : List UnitErr) (unit : Nat) : UnitErr :=
  (es.find? fun e => e.unit = unit).getD { unit, flips := [], other := none }

/-- The cells of the bytes of a request; none for a byte outside the windows. -/
def cellsOf (r : MemReq) : List (Option Nat) :=
  (requests r.addr r.len).flatMap fun q => (List.range q.2).map fun i => q.1.map (· + i)

/-- MEMORY_READ_RETURN (R43, R47): the units of the oldest read with an identity are decoded, each by its own errors, and
returned. -/
def execMemoryReadReturn (id : Nat) (es : List UnitErr) (s : State) : Host.Outcome State Fault Refusal :=
  match s.reads.find? fun r => r.req.id = id with
  | none => .next s
  | some r =>
    let s := { s with reads := s.reads.eraseP fun x => x.req.id = id }
    let d := r.units.foldl
      (fun (a : State × List (Nat × UnitRead)) u => let x := decodeUnit a.1 (errOf es u) false; (x.1, a.2 ++ [(u, x.2)])) (s, [])
    let data := (r.data.zip (cellsOf r.req)).map fun b =>
      match b.2 with
      | none => b.1
      | some c =>
        match d.2.find? fun u => u.1 ≤ c && c < u.1 + unitOf (attrAt s u.1) with
        | some u => u.2.byte c (c - u.1) b.1
        | none => b.1
    .next { d.1 with fab := { d.1.fab with out := d.1.fab.out ++ [.memory id data] } }

/-- CELL_WRITE_COMPLETE (R114): the unit of a landed write holds its value in the cells. -/
def execCellWriteComplete (addr : Nat) (s : State) : Host.Outcome State Fault Refusal :=
  let u := unitOf (attrAt s addr)
  let lo := addr / u * u
  .next { s with old := s.old.filter fun c => !(lo ≤ c.1 && c.1 < lo + u) }

/-- PER_BANK_REFRESH (R44): it delays accesses, and delay is not architectural (R3). -/
def execPerBankRefresh (_stack _pch _bank : Nat) (s : State) : Host.Outcome State Fault Refusal := .next s

/-- SCRUB_UNIT (R59): a unit is read; one found uncorrectable is written back poisoned. -/
def execScrubUnit (addr : Nat) (e : UnitErr) (s : State) : Host.Outcome State Fault Refusal :=
  if 1099511627776 ≤ addr then .fault (.noSuchAddress addr)
  else
    let u := unitOf (attrAt s addr)
    .next (decodeUnit s { e with unit := addr / u * u } true).1

/-! ### Formats (R36 to R39, R136) -/

/-- The page of a physical address is DRAINING (R134, R136), at whichever size it is tracked. -/
def drainingAt (s : State) (pa : Nat) : Bool :=
  [(65536, 0), (2097152, 1), (1073741824, 2)].any fun q =>
    let e := frameEntry s (pa / q.1 * q.1)
    feState e == 2 && q.2 ≤ (feSize e).toNat

/-- The pieces in which a range is formatted: 64 KiB of a stack, or 1 MiB of the interleaved window (R36). -/
def formatPieces (pa units : Nat) : List Nat :=
  if pa < 1099511627776 then (List.range units).map fun i => pa + i * 65536
  else (List.range ((pa % 1048576 / 65536 + units + 15) / 16)).map fun i => pa / 1048576 * 1048576 + i * 1048576

/-- The frames of a piece, by their first cells (R36, R39). -/
def pieceFrames (pa : Nat) : List Nat :=
  if pa < 1099511627776 then [pa / 65536 * 65536]
  else (List.range 16).map fun st => st * 68719476736 + (pa - 1099511627776) / 1048576 * 65536

/-- Format a frame (R39): its attribute, every byte zero, no poison. -/
def formatFrame (s : State) (cell : Nat) (a : Attr) : State :=
  { s with attrs := Map.put Attr.wiped s.attrs (cell / 65536) a, dram := s.dram.clear 32 cell 65536
           old := s.old.filter fun c => !(cell ≤ c.1 && c.1 < cell + 65536)
           hist := s.hist.filter fun e => !(cell ≤ e.cell && e.cell < cell + 65536)
           reads := s.reads.map fun r => { r with units := r.units.filter fun x => !(cell ≤ x && x < cell + 65536) } }

/-- Format pieces of physical memory. -/
def formatAll (s : State) (pieces : List Nat) (a : Attr) : State :=
  pieces.foldl (fun s p => (pieceFrames p).foldl (fun s c => formatFrame s c a) s) s

/-- Whether a piece holds a DRAINING page. -/
def pieceDrains (s : State) (p : Nat) : Bool :=
  if p < 1099511627776 then drainingAt s p else (List.range 16).any fun i => drainingAt s (p + i * 65536)

/-- The attribute of a format. -/
def formatAttr (r : FormatReq) : Attr := { gran := r.gran, tol := r.tol, tcls := r.tcls }

/-- FORMAT_START (R38, R39, R136): a piece with a DRAINING page waits until that page is FREE. -/
def execFormatStart (r : FormatReq) (s : State) : Host.Outcome State Fault Refusal :=
  let ps := formatPieces r.pa r.units
  let wait := ps.filter (pieceDrains s)
  let s := formatAll s (ps.filter fun p => !wait.contains p) (formatAttr r)
  let id := s.mmu.nextId
  let s := { s with mmu := { s.mmu with nextId := id + 1, formats := s.mmu.formats ++ [(id, r, wait)] } }
  .next (due s [.formatComplete id])

/-- FORMAT_COMPLETE (R39): BUSY clears, a release. -/
def execFormatComplete (id : Nat) (s : State) : Host.Outcome State Fault Refusal :=
  match s.mmu.formats.find? fun f => f.1 = id with
  | none => .next s
  | some f =>
    let wait := f.2.2.filter (pieceDrains s)
    let s := formatAll s (f.2.2.filter fun p => !wait.contains p) (formatAttr f.2.1)
    if !wait.isEmpty then
      .next (due { s with mmu := { s.mmu with formats := s.mmu.formats.map fun x => if x.1 = id then (id, f.2.1, wait) else x } }
        [.formatComplete id])
    else
      let s := flushNear { s with mmu := { s.mmu with formats := s.mmu.formats.filter fun x => x.1 ≠ id } }
      let k := getCore s f.2.1.core
      .next (setCore s f.2.1.core { k with mreg := { k.mreg with fmtBusy := false } })

/-! ### Reset and wipe (R62, R63) -/

/-- What the outside world brings: it is not lost when the device starts again. -/
def fromOutside : Event → Bool
  | .mgmtReadlog _ | .mgmtClearlog _ | .mgmtMaprange _ _ | .mgmtInwin _ _ _ | .mgmtRdmaqp _ _ | .mgmtRoute _ _
  | .mgmtWcsload _ _ | .mgmtAttest _ _ | .mgmtFwupdate _ _ | .mgmtLifecycle _ _ | .mgmtDebugunlock _ _
  | .mgmtPower _ _ | .mgmtUnsupported _ _ | .reset | .powerOn _ | .powerLoss | .clockThrottle _ | .thermalCritical
  | .rdmaWrite _ | .rdmaRead _ | .rdmaFetchAndAdd _ | .rdmaInvalidRequest _ | .fylvathenInboundAccess _
  | .fylvathenRemoteAtomic _ | .flitReceive _ _ | .flitNakReplay _ _ | .laneFailing _ _ | .portDown _ | .portUp _
  | .memoryRequestAccept _ | .scrubUnit _ _ | .perBankRefresh _ _ _ | .logicSoftError _ => true
  | .shootdownStart r => isHost r.src
  | .hubTableWrite r | .hubTableRead r => isHost r.src
  | .pageopAlloc r | .pageopIncref r | .pageopDecref r | .pageopMigrate r | .pageopExpand r | .pageopCompress r
  | .pageopPoolput r | .pageopPooltake r => isHost r.src
  | .queueCreate r | .queueStop r | .queueResume r | .queueDestroy r | .queueQuery r => isHost r.src
  | _ => false
where
  /-- A request of the management channel. -/
  isHost : Requester → Bool
    | .host _ => true
    | .core _ => false

/-- The machine from which a reset or a power-on starts: what fuses, flash and the management log hold stays, what firmware sets
at power-on stands again (R428), everything else is as after reset, the wipe's completion due (R62, R423, R426). -/
def restart (s : State) : State :=
  { State.reset with
    mgmt := { State.reset.mgmt with
      life := s.mgmt.life, rollback := s.mgmt.rollback, flash := s.mgmt.flash, running := s.mgmt.running
      owner := s.mgmt.owner, powered := s.mgmt.powered, nonce := s.mgmt.nonce, log := s.mgmt.log
      debug := s.mgmt.life = .manufacture || s.mgmt.life = .returned }
    mmu := { State.reset.mmu with ctxBase := s.mmu.ctxBase, shzBase := s.mmu.shzBase, shzLen := s.mmu.shzLen
                                  frtBase := s.mmu.frtBase }
    fab := { State.reset.fab with out := s.fab.out }
    agenda := .wipeComplete :: s.agenda.filter fromOutside, turn := s.turn, time := s.time, free := s.free }

/-- RESET (R62, R63): everything clears and the wipe starts. -/
def execReset (s : State) : Host.Outcome State Fault Refusal := .next (if s.mgmt.powered then restart s else s)

/-- WIPE_COMPLETE (R63, R427): the device is reported ready, a release; debug opens where a token has asked for it. -/
def execWipeComplete (s : State) : Host.Outcome State Fault Refusal :=
  if !s.mgmt.wiping then .next s
  else
    let s := flushNear s
    .next { s with mgmt := { s.mgmt with ready := true, wiping := false, debug := s.mgmt.debug || s.mgmt.unlocking
                                         unlocking := false }
                   fab := { s.fab with out := s.fab.out ++ [.ready] } }

end Sys2Proof.Machine
end

