-- ==== Sys2Proof/Machine/Sync.lean ====
section
/-! DEFINITION. The synchronisation, atomic and queue instructions (spec/15_synchronisation_instructions.md R329 to R342). -/

namespace Sys2Proof.Machine

/-- The width of a strong access (R331). -/
def wideBytes (w : BitVec 1) : Nat := if w = 0 then 4 else 8

/-- The end of a strong access: sD takes the value read, and the word its token (R330, R333). -/
def strongEnd (s : State) (d : BitVec 5) (op old : Nat) : State :=
  retire (if op = opSts ∨ op = opNtone ∨ op = opNtall then s else onHere s fun k => setSreg k d (BitVec.ofNat 64 old))

/-- A waitv that reads the value it waits for enqueues its core and sleeps (R117). -/
def sleepOnDevice (s : State) (key : Nat) : State :=
  stallAsleep { s with sleepers := s.sleepers ++ [(key, s.core)] }

/-- The operations that a host window serves (R334): lds, sts, and aadd of a doubleword. -/
def hostServes (op n : Nat) : Bool := op == opLds || op == opSts || (op == 4 && n == 8)

/-- An acquire of a remote word orders the core after what the holder's side has written here, where its mask holds the holder's class (R108;
log 89). -/
def remoteSeen (s : State) (host : Bool) (acq : BitVec 6) : State := if acq.getLsbD (if host then 5 else 4) then catchUp s s.core else s

/-- A strong access that travels whole to a remote holder (R124, R334). -/
def strongRemote (s : State) (acq : BitVec 6) (h : BitVec 128) (va n op v x : Nat) (finish : State → Nat → State) : State :=
  match s.word, windowTarget s (hFrame h) va n with
  | none, _ => s
  | some _, none => raise s tNotPresent (BitVec.ofNat 64 va) 1
  | some w, some (win, t) =>
    let host := bit win.w0.toNat 62
    if host && !hostServes op n then raise s tOwnership (BitVec.ofNat 64 va) 0
    else
      match answerOf s with
      | some a =>
        if a.st = .ok && !a.late then
          match a.data.findIdx? (·.2) with
          | some i => if op = opSts then finish (dropAnswer s) 0 else raise (dropAnswer s) tPoisonUse (BitVec.ofNat 64 (va + i)) 2
          | none => finish (remoteSeen (dropAnswer s) host acq) (leVal a.data)
        else lineTrap s a va
      | none =>
        if unreachable s (bits win.w2.toNat 48 16) && !host then raise s tNotPresent (BitVec.ofNat 64 va) 1
        else if lineOut s then stallHolding s h
        else
          let data := if op = opLds then none else some (clean (leBytes n v ++ if op = opCas then leBytes n x else []))
          stallHolding (sendLine s win t n data op (.strong s.core w.num) va (handlePage h)) h

/-- The mask of an acquire: that of .acq and .ar (R107). -/
def acquireMask (sem : BitVec 2) (mask : BitVec 6) : BitVec 6 := if sem.getLsbD 0 then mask else 0

/-- A strong access in its device form (R331 to R336): the checks of R26, then the access at its point of performance.
`fresh`: a woken waitv, which completes with what it reads. With a partial mask, what a write and the writes that it covers look like to
agents outside the mask is `strongLocal`'s (R110, log 89). -/
def deviceWord (s : State) (d : BitVec 5) (hn : BitVec 4) (a : BitVec 5) (n op : Nat) (sem : BitVec 2) (mask : BitVec 6)
    (fresh : Bool) : State :=
  match handleSeen s hn with
  | (s, none, _) => stall s
  | (s, some h, _) =>
    let h := match s.word with | some w => liveHandle s w h | none => h
    let k := here s
    let o := (sreg k a).toNat
    let v := (sreg k d).toNat
    let x := (sreg k (d + 1)).toNat
    let rel := releaseMask k sem mask (opWrites op)
    let acq := acquireMask sem mask
    match devCheck s (.strong s.core) hn h o n (opWrites op) n with
    | .trap c addr x => raise s c addr x
    | .wait => stall s
    | .go va =>
      if releaseHeld s rel then stallHolding s h
      else if hRes h = 2 then strongRemote (releaseNear s rel) acq h va n op v x fun s old => strongEnd s d op old
      else if op = opNtone ∨ op = opNtall then
        strongEnd (wakeDevice (releaseNear s rel) (wordKey h va) (op = opNtall)) d op 0
      else
        match strongLocal s s.core (op = opLds) acq h va n (opWrites op) (op ≠ opSts) (fun old => strongNew op n old v x) rel with
        | (s, .done old) =>
          if op = opWaitv && old = v && !fresh then sleepOnDevice s (wordKey h va) else strongEnd s d op old
        | (s, .poisoned i) => raise s tPoisonUse (BitVec.ofNat 64 (va + i)) 2
        | (s, .wait) => stallHolding s h
        | (s, .remote) => stall s

/-- A strong read of a scratchpad word (R107, R108): what it synchronises with makes the landings that it covers visible too. -/
def spadAcquired (s : State) (o n : Nat) (acq : BitVec 6) : State :=
  let key := spadKey s.core o
  let hit := (releasesAt s key n s.stamp).any fun r => reaches s.core r && accepts s.core acq r
  let s := observe s s.core key n s.stamp acq
  match s.word with
  | some w => if hit then onHere s fun k => acquired k w none else s
  | none => s

/-- A strong access in its scratchpad form (R331, R333): at the bank unit, indivisibly (R69). -/
def spadWord (s : State) (d a : BitVec 5) (n op : Nat) (sem : BitVec 2) (mask : BitVec 6) (fresh : Bool) : State :=
  let k := here s
  let o := spadOff (sreg k a).toNat
  let v := (sreg k d).toNat
  let x := (sreg k (d + 1)).toNat
  let rel := releaseMask k sem mask (opWrites op)
  if !aligned o n then raise s tAlign (BitVec.ofNat 64 o) 0
  else if releaseHeld s rel then stall s
  else
    let s := releaseNear s rel
    let note (s : State) (atomic : Bool) : State := noteRelease s s.core (spadKey s.core o) n rel atomic
    if op = opNtone ∨ op = opNtall then strongEnd (wakeSpad s s.core o) d op 0
    else if op = opSts then strongEnd (note (spadStore s o (clean (leBytes n v))) false) d op 0
    else
      match spadSeen s o n with
      | (s, bs, _) =>
        match firstPois o bs with
        | some p => raise s tPoisonUse (BitVec.ofNat 64 p) 0
        | none =>
          let old := leVal bs
          if op = opWaitv && old = v && !fresh then
            stallAsleep (onHere s fun k => { k with sleepers := k.sleepers ++ [o] })
          else
            let s := spadAcquired s o n (acquireMask sem mask)
            let s := match strongNew op n old v x with
              | some y => note (spadStore s o (clean (leBytes n y))) true
              | none => s
            strongEnd s d op old

/-! ### The strong accesses (R331 to R336) -/

def execLdsDevice (d : BitVec 5) (h : BitVec 4) (a : BitVec 5) (w : BitVec 1) (s_ : BitVec 2) (m : BitVec 6) (s : State) :
    Host.Outcome State Fault Refusal := .next (deviceWord s d h a (wideBytes w) opLds s_ m false)

def execStsDevice (d : BitVec 5) (h : BitVec 4) (a : BitVec 5) (w : BitVec 1) (s_ : BitVec 2) (m : BitVec 6) (s : State) :
    Host.Outcome State Fault Refusal := .next (deviceWord s d h a (wideBytes w) opSts s_ m false)

def execAaddDevice (d : BitVec 5) (h : BitVec 4) (a : BitVec 5) (w : BitVec 1) (s_ : BitVec 2) (m : BitVec 6) (s : State) :
    Host.Outcome State Fault Refusal := .next (deviceWord s d h a (wideBytes w) 4 s_ m false)

def execAminDevice (d : BitVec 5) (h : BitVec 4) (a : BitVec 5) (w : BitVec 1) (s_ : BitVec 2) (m : BitVec 6) (s : State) :
    Host.Outcome State Fault Refusal := .next (deviceWord s d h a (wideBytes w) 5 s_ m false)

def execAmaxDevice (d : BitVec 5) (h : BitVec 4) (a : BitVec 5) (w : BitVec 1) (s_ : BitVec 2) (m : BitVec 6) (s : State) :
    Host.Outcome State Fault Refusal := .next (deviceWord s d h a (wideBytes w) 6 s_ m false)

def execAandDevice (d : BitVec 5) (h : BitVec 4) (a : BitVec 5) (w : BitVec 1) (s_ : BitVec 2) (m : BitVec 6) (s : State) :
    Host.Outcome State Fault Refusal := .next (deviceWord s d h a (wideBytes w) 7 s_ m false)

def execAorDevice (d : BitVec 5) (h : BitVec 4) (a : BitVec 5) (w : BitVec 1) (s_ : BitVec 2) (m : BitVec 6) (s : State) :
    Host.Outcome State Fault Refusal := .next (deviceWord s d h a (wideBytes w) 8 s_ m false)

def execAxorDevice (d : BitVec 5) (h : BitVec 4) (a : BitVec 5) (w : BitVec 1) (s_ : BitVec 2) (m : BitVec 6) (s : State) :
    Host.Outcome State Fault Refusal := .next (deviceWord s d h a (wideBytes w) 9 s_ m false)

def execAswpDevice (d : BitVec 5) (h : BitVec 4) (a : BitVec 5) (w : BitVec 1) (s_ : BitVec 2) (m : BitVec 6) (s : State) :
    Host.Outcome State Fault Refusal := .next (deviceWord s d h a (wideBytes w) 10 s_ m false)

def execAcasDevice (d : BitVec 5) (h : BitVec 4) (a : BitVec 5) (w : BitVec 1) (s_ : BitVec 2) (m : BitVec 6) (s : State) :
    Host.Outcome State Fault Refusal := .next (deviceWord s d h a (wideBytes w) opCas s_ m false)

/-- waitv (R117, R335). -/
def execWaitvDevice (d : BitVec 5) (h : BitVec 4) (a : BitVec 5) (s_ : BitVec 2) (m : BitVec 6) (s : State) :
    Host.Outcome State Fault Refusal := .next (deviceWord s d h a 8 opWaitv s_ m false)

/-- ntone and ntall (R118, R336). -/
def execNtoneDevice (h : BitVec 4) (a : BitVec 5) (s_ : BitVec 2) (m : BitVec 6) (s : State) :
    Host.Outcome State Fault Refusal := .next (deviceWord s 0 h a 8 opNtone s_ m false)

def execNtallDevice (h : BitVec 4) (a : BitVec 5) (s_ : BitVec 2) (m : BitVec 6) (s : State) :
    Host.Outcome State Fault Refusal := .next (deviceWord s 0 h a 8 opNtall s_ m false)

def execLdsSp (d a : BitVec 5) (w : BitVec 1) (s_ : BitVec 2) (m : BitVec 6) (s : State) :
    Host.Outcome State Fault Refusal := .next (spadWord s d a (wideBytes w) opLds s_ m false)

def execStsSp (d a : BitVec 5) (w : BitVec 1) (s_ : BitVec 2) (m : BitVec 6) (s : State) :
    Host.Outcome State Fault Refusal := .next (spadWord s d a (wideBytes w) opSts s_ m false)

def execAaddSp (d a : BitVec 5) (w : BitVec 1) (s_ : BitVec 2) (m : BitVec 6) (s : State) :
    Host.Outcome State Fault Refusal := .next (spadWord s d a (wideBytes w) 4 s_ m false)

def execAminSp (d a : BitVec 5) (w : BitVec 1) (s_ : BitVec 2) (m : BitVec 6) (s : State) :
    Host.Outcome State Fault Refusal := .next (spadWord s d a (wideBytes w) 5 s_ m false)

def execAmaxSp (d a : BitVec 5) (w : BitVec 1) (s_ : BitVec 2) (m : BitVec 6) (s : State) :
    Host.Outcome State Fault Refusal := .next (spadWord s d a (wideBytes w) 6 s_ m false)

def execAandSp (d a : BitVec 5) (w : BitVec 1) (s_ : BitVec 2) (m : BitVec 6) (s : State) :
    Host.Outcome State Fault Refusal := .next (spadWord s d a (wideBytes w) 7 s_ m false)

def execAorSp (d a : BitVec 5) (w : BitVec 1) (s_ : BitVec 2) (m : BitVec 6) (s : State) :
    Host.Outcome State Fault Refusal := .next (spadWord s d a (wideBytes w) 8 s_ m false)

def execAxorSp (d a : BitVec 5) (w : BitVec 1) (s_ : BitVec 2) (m : BitVec 6) (s : State) :
    Host.Outcome State Fault Refusal := .next (spadWord s d a (wideBytes w) 9 s_ m false)

def execAswpSp (d a : BitVec 5) (w : BitVec 1) (s_ : BitVec 2) (m : BitVec 6) (s : State) :
    Host.Outcome State Fault Refusal := .next (spadWord s d a (wideBytes w) 10 s_ m false)

def execAcasSp (d a : BitVec 5) (w : BitVec 1) (s_ : BitVec 2) (m : BitVec 6) (s : State) :
    Host.Outcome State Fault Refusal := .next (spadWord s d a (wideBytes w) opCas s_ m false)

def execWaitvSp (d a : BitVec 5) (s_ : BitVec 2) (m : BitVec 6) (s : State) : Host.Outcome State Fault Refusal :=
  .next (spadWord s d a 8 opWaitv s_ m false)

def execNtoneSp (a : BitVec 5) (s_ : BitVec 2) (m : BitVec 6) (s : State) : Host.Outcome State Fault Refusal :=
  .next (spadWord s 0 a 8 opNtone s_ m false)

def execNtallSp (a : BitVec 5) (s_ : BitVec 2) (m : BitVec 6) (s : State) : Host.Outcome State Fault Refusal :=
  .next (spadWord s 0 a 8 opNtall s_ m false)

/-- WAITV_FRESH_READ (R117): a woken sleeper reads its word afresh; where it must wait to do so, it stays woken. -/
def execWaitvFreshRead (core : Nat) (s : State) : Host.Outcome State Fault Refusal :=
  match queueHead (getCore s core).iss .q with
  | none => .next s
  | some w =>
    if !w.asleep then .next s
    else
      let t := takeHead s core .q
      let t := { t with word := some { w with asleep := false } }
      let r := match w.instr with
        | .waitvDevice d h a sem m => deviceWord t d h a 8 opWaitv sem m true
        | .waitvSp d a sem m => spadWord t d a 8 opWaitv sem m true
        | _ => stall t
      let r := rememberRegs r core w (getCore t core)
      match queueHead (getCore r core).iss .q with
      | some x =>
        if x.num = w.num && (getCore r core).iss.trap.isNone then
          let k := getCore r core
          let q := { x with asleep := true } :: (vget k.iss.queues 6 []).tail
          .next (due (setCore r core { k with iss := { k.iss with queues := vset k.iss.queues 6 q } }) [.waitvFreshRead core])
        else .next r
      | none => .next r

/-- fence (R111, R332): with .acq the strong reads before it act as acquires with its mask; a bwait before it does so for the landings that its
barrier has counted where the mask holds L. -/
def execFence (s_ : BitVec 2) (m : BitVec 6) (s : State) : Host.Outcome State Fault Refusal :=
  let rel := if s_.getLsbD 1 then m else 0
  let acq := acquireMask s_ m
  if releaseHeld s rel then .next (stall s)
  else
    let s := onHere (releaseNear s rel) fun k => fenceAcq { k with fenceRel := k.fenceRel ||| rel } acq
    .next (retire (match s.word with
      | some w => if acq.getLsbD 0 then onHere s fun k => acquired k w none else s
      | none => s))

/-! ### Ownership (R104, R105, R337) -/

/-- Whether a value is an owner that R99 allows for EXCL. -/
def exclOwner (v : Nat) : Bool := v < 1280 || v == 16384 || (32768 ≤ v && v < 32784)

/-- Steps 2 and 3 of R104 on a core: its lines of a range are written back and dropped, and its later plain reads there fetch anew
(R103). -/
def freshRange (s : State) (c base len : Nat) : State :=
  let s := writeBackRange s c base len
  let k := getCore s c
  setCore s c { k with ownxs := (base, len, s.stamp) :: k.ownxs.filter fun x => x.1 ≠ base ∨ x.2.1 ≠ len }

/-- Steps 2 to 4 of R104 for the core that executes: its plain accesses of a range are written back and dropped, and the token
comes once they have landed. No region changes its owner: its number stands as 4096. -/
def releasePlain (s : State) (base len : Nat) : State :=
  let s := freshRange s s.core base len
  if !storesOut s s.core then retire s
  else
    let c := s.core
    let n := match s.word with | some w => w.num | none => 0
    let s := onHere s fun k => { k with transit := some (4096, n) }
    due (retireOpen s) [.ownershipTransferComplete c 4096]

/-- ownx (R104, R105, R337). -/
def execOwnx (d : BitVec 5) (h : BitVec 4) (a : BitVec 5) (s : State) : Host.Outcome State Fault Refusal :=
  match handleSeen s h with
  | (s, none, _) => .next (stall s)
  | (s, some hv, _) =>
    let o := (sreg (here s) a).toNat
    let va := hOrigin hv + o
    let addr := BitVec.ofNat 64 va
    let v := (sreg (here s) d).toNat
    if !hV hv then .next (raise s tHandleRevoked addr h.toNat)
    else if hRes hv = 3 then .next (raise s tNotPresent addr (hCause hv))
    else if !hInRange hv o 1 then .next (raise s tHandleRange addr h.toNat)
    else
      match regionAt s (hCtx hv) va with
      | none => .next (releasePlain s (va / 65536 * 65536) 65536)
      | some (idx, r) =>
        if rMode r = 4 then .next (raise s tOwnership addr 0)
        else if rMode r ≠ 1 then .next (releasePlain s (rBase r) (2 ^ rLog r))
        else if rOwner r ≠ s.core ∨ rTransit r then .next (raise s tOwnership addr 0)
        else if !exclOwner v then .next (raiseWord s tIllegal)
        else if v = s.core then .next (releasePlain s (rBase r) (2 ^ rLog r))
        else
          let c := s.core
          let n := match s.word with | some w => w.num | none => 0
          let s := onHere (setOwner s idx v true) fun k => { k with transit := some (idx, n) }
          .next (due (retireOpen s) [.ownershipTransferComplete c idx])

/-! ### Barriers (R86, R87, R338) -/

/-- Read the barrier at an offset (R338): a trap for a poisoned grain, or for OVF where the word uses it. -/
def withBarrier (s : State) (o : Nat) (overflow : Bool) (f : State → Barrier → State) : State :=
  match spadSeen s o 16 with
  | (s, bs, _) =>
    if anyPois bs then raise s tPoisonUse (BitVec.ofNat 64 o) 0
    else
      let b := Barrier.ofNat (leVal bs)
      if overflow && b.ovf then raise s tBarrierOverflow (BitVec.ofNat 64 o) 0 else f s b

/-- Put a barrier into the scratchpad. -/
def putBarrier (s : State) (o : Nat) (b : Barrier) : State := spadStore s o (clean (leBytes 16 b.toNat))

def execBinit (a b : BitVec 5) (s : State) : Host.Outcome State Fault Refusal :=
  let o := spadOff (sreg (here s) a).toNat
  let n := (sreg (here s) b).toNat
  if !aligned o 16 then .next (raise s tAlign (BitVec.ofNat 64 o) 0)
  else if n = 0 ∨ 1048575 < n then .next (raiseWord s tIllegal)
  else
    .next (retire (putBarrier s o { phase := 0, arr := 0, expect := n, ovf := false, pois := false, rsv := 0
                                    owner := s.core, pbytes := 0 }))

def execBarv (a b : BitVec 5) (s : State) : Host.Outcome State Fault Refusal :=
  let o := spadOff (sreg (here s) a).toNat
  let n := (sreg (here s) b).toNat
  if !aligned o 16 then .next (raise s tAlign (BitVec.ofNat 64 o) 0)
  else if n = 0 ∨ 1048575 < n then .next (raiseWord s tIllegal)
  else .next (withBarrier s o true fun s x => retire (putBarrier s o (x.update n 0 false)))

def execBexp (a b : BitVec 5) (s : State) : Host.Outcome State Fault Refusal :=
  let o := spadOff (sreg (here s) a).toNat
  let n := (sreg (here s) b).toNat
  if !aligned o 16 then .next (raise s tAlign (BitVec.ofNat 64 o) 0)
  else if 2147483647 < n then .next (raiseWord s tIllegal)
  else .next (withBarrier s o false fun s x => retire (putBarrier s o (x.update 0 n false)))

/-- A bwait that returns observes an advance (R111, R116): an acquire whose mask holds L sees what the barrier has counted and is ordered after
what that covers; another may become one by a fence.acq. -/
def advanceSeen (s : State) (o : Nat) (acq : BitVec 6) : State :=
  match s.word with
  | none => s
  | some w =>
    if acq.getLsbD 0 then catchUp (onHere s fun k => acquired k w (some o)) s.core
    else onHere s fun k => { k with heard := Map.set (Map.set k.heard 0 s.stamp) 6 s.stamp }

/-- bwait (R338): it waits and reads the barrier again until its phase differs. -/
def execBwait (d a b : BitVec 5) (s_ : BitVec 2) (m : BitVec 6) (s : State) : Host.Outcome State Fault Refusal :=
  let o := spadOff (sreg (here s) a).toNat
  let n := (sreg (here s) b).toNat
  if !aligned o 16 then .next (raise s tAlign (BitVec.ofNat 64 o) 0)
  else if 15 < n then .next (raiseWord s tIllegal)
  else
    .next (withBarrier s o true fun s x =>
      if x.phase = n then stall s
      else retire (onHere (advanceSeen s o (acquireMask s_ m)) fun k => setSreg k d (BitVec.ofNat 64 x.phase)))

/-! ### Tickets, pushes, events and signals (R339, R340) -/

/-- tkt (R153, R339). -/
def execTkt (d a : BitVec 5) (s : State) : Host.Outcome State Fault Refusal :=
  let v := (sreg (here s) a).toNat
  if 65536 < v then .next (raiseWord s tIllegal)
  else
    let n := max (here s).push v
    .next (retire (onHere s fun k => setSreg { k with push := n } d (BitVec.ofNat 64 n)))

/-- A push of an image into a queue whose checks have passed, in free mode (R142, R339): the claim, then the wait for room;
QPUSH_PUBLISH writes the slot. -/
def freePush (s : State) (d : BitVec 5) (qid : Nat) (q : Queue) (image : List Byte) : State :=
  match s.word, claimIndex s q qid with
  | none, _ => s
  | some _, (s, .error e) => raise s tQueueMalformed (BitVec.ofNat 64 e.2) 0
  | some _, (s, .ok none) => stall s
  | some w, (s, .ok (some k)) =>
    retireOpen (onHere s fun c => { c with claim := some { w, q := qid, k, image, d } })

/-- Whether a ticket is the lowest open one of its launch (R154): every task of a lower ordinal has committed. -/
def lowestTask (s : State) (qid packet ord : Nat) : Bool :=
  let lower (t : Task) : Bool := t.qid == qid && t.packet == packet && t.ord < ord
  !(s.cores.any fun c => match c.2.task with | some t => lower t | none => false)
  && (match getLaunch s qid packet with
      | none => true
      | some l => !(l.saved.any fun u => u.2.any fun v => lower v.task))

/-- The ticket order (R153). -/
def ticketBefore (a b : Ticket) : Bool :=
  a.phase < b.phase || (a.phase == b.phase && (a.ord < b.ord || (a.ord == b.ord && a.push < b.push)))

/-- The mask with which a push is published (R339): L, C and X, and its mask field. -/
def pushMask (w : Option QWord) : BitVec 6 :=
  match w with
  | some w => match w.instr with | .qpush _ _ _ m => 7 ||| m | _ => 7
  | none => 7

/-- Whether a push of a task has the lowest open ticket (R154): no task of a lower ordinal can push, and no earlier push of the task is held. -/
def lowestPush (s : State) (q : Queue) (t : Task) : Bool :=
  lowestTask s t.qid t.packet t.ord && !(q.held.any fun p => p.qid = t.qid && p.packet = t.packet && p.tk.ord = t.ord)

/-- A stop of the hub (R445): the queue stops; one that is stopped already stays so. -/
def stopQueue (s : State) (qid : Nat) : State :=
  match getQueue s qid with
  | some q => setQueue s qid { q with st := if q.st = .active then .stopped else q.st }
  | none => s

/-- A failing access of the hub (R445): the queue stops and its error ring receives a record of kind REFUSED. -/
def hubStop (s : State) (qid cause va k : Nat) : State :=
  errorRecord (stopQueue s qid) qid 8 cause 65535 0 0 (BitVec.ofNat 64 va) 0 (BitVec.ofNat 64 k) 0

/-- A failing access of the sequencer (R445): its pushes stay held until RESUME. -/
def jamSequencer (s : State) (qid cause va k : Nat) : State :=
  let s := match getQueue s qid with | some q => setQueue s qid { q with jam := true } | none => s
  hubStop s qid cause va k

/-- The places of a stage that hold a push. -/
def staged (q : Queue) : List Nat := q.held.filterMap (·.stage)

/-- A place of a stage's memory (R140, R154). -/
def stageVa (q : Queue) (i : Nat) : Nat := q.stgva + 64 * i

/-- What handing a push to a sequencer comes to: the place of the stage that holds its image, none for the lowest open ticket, or a wait. -/
inductive Staging where
  | at' (place : Option Nat)
  | wait
  deriving DecidableEq, Repr

/-- The image of a push goes to the stage's memory (R154, R445), at its lowest free place: the spec does not say which (log 94). The push
waits while the stage is full; one whose image cannot be written stops the queue and stays with the sequencer. -/
def stagePush (s : State) (qid : Nat) (q : Queue) (lowest : Bool) (image : List Byte) : State × Staging :=
  if lowest then (s, .at' none)
  else
    match (List.range (2 ^ q.logstg)).find? fun i => !(staged q).contains i with
    | none => (s, .wait)
    | some i =>
      match hubWrite s .hub q.ctx (stageVa q i) (clean image) true qid with
      | (s, .done) => (s, .at' (some i))
      | (s, .wait) => (s, .wait)
      | (s, .failed c va) => (jamSequencer s qid c va 0, .at' none)

/-- A ticketed push (R153 to R155): handed to the target's sequencer, or a wait for the stage or for another launch. -/
def ticketPush (s : State) (d : BitVec 5) (qid : Nat) (q : Queue) (t : Task) (image : List Byte) : State :=
  let mine := (t.qid, t.packet)
  let line := if q.feeders.contains mine then q.feeders else q.feeders ++ [mine]
  let q1 := { q with feeders := line }
  if q.feeder ≠ some mine ∧ (q.feeder.isSome ∨ line.head? ≠ some mine) then stall (setQueue s qid q1)
  else
    let q1 := { q1 with feeder := some mine, feeders := line.filter (· ≠ mine) }
    let n := (here s).push
    let tk : Ticket := { phase := if t.dmode = 0 then t.phase else 0, ord := t.ord, push := n }
    match stagePush (setQueue s qid q1) qid q1 (lowestPush s q t) image with
    | (s, .wait) => stall s
    | (s, .at' stage) =>
      let p : Push := { qid := t.qid, packet := t.packet, tk, image, claimed := none, mask := pushMask s.word, stage }
      let held := (q.held.takeWhile fun x => ticketBefore x.tk tk) ++ p :: q.held.dropWhile fun x => ticketBefore x.tk tk
      let s := match getQueue s qid with | some q => setQueue s qid { q with held } | none => s
      let s := onHere s fun k => setSreg { k with push := n + 1 } d (BitVec.ofNat 64 (9223372036854775808 + n))
      due (retire s) [.ticketPushSequenced qid]

/-- qpush (R339). A target under DESTROY takes no push: it is neither ACTIVE nor STOPPED any more, which the spec does not say in so many words
(log 92). -/
def execQpush (d a b : BitVec 5) (_m : BitVec 6) (s : State) : Host.Outcome State Fault Refusal :=
  let o := spadOff (sreg (here s) a).toNat
  let qid := (sreg (here s) b).toNat
  if !aligned o 64 then .next (raise s tAlign (BitVec.ofNat 64 o) 0)
  else if 4095 < qid then .next (raiseWord s tIllegal)
  else
    match spadSeen s o 64 with
    | (s, bs, _) =>
      match firstPois o bs with
      | some p => .next (raise s tPoisonUse (BitVec.ofNat 64 p) 0)
      | none =>
        match getQueue s qid, (here s).task with
        | some q, some t =>
          let kind := bits (leVal bs) 0 4
          let ticketed := t.dmode ≠ 2
          if q.st = .free ∨ q.dying.isSome ∨ q.ctx ≠ t.ctx ∨ kind = 0
              ∨ (ticketed ∧ (q.logstg = 0 ∨ 65536 ≤ (here s).push)) then .next (raiseWord s tQueueMalformed)
          else if ticketed then .next (ticketPush s d qid q t (bs.map (·.1)))
          else .next (freePush s d qid q (bs.map (·.1)))
        | _, _ => .next (raiseWord s tQueueMalformed)

/-- QPUSH_PUBLISH (R142, R339, R445): where there is room and its release may be performed (R107), the slot is written and word 0 last; a
failing access traps. -/
def execQpushPublish (core : Nat) (s : State) : Host.Outcome State Fault Refusal :=
  match (getCore s core).claim with
  | none => .next s
  | some c =>
    let drop (s : State) : State := setCore s core { getCore s core with claim := none }
    let fail (s : State) (va : Nat) : State :=
      raise (drop { s with core, word := some c.w }) tQueueMalformed (BitVec.ofNat 64 va) 0
    match getQueue s c.q with
    | none => .next (fail s c.w.head.toNat)
    | some q =>
      let mask := pushMask (some c.w)
      match roomFor s q c.q c.k with
      | (s, .error e) => .next (fail s e.2)
      | (s, .ok false) => .next s
      | (s, .ok true) =>
        if releaseHeld s mask then .next s
        else
          match publish (releaseNear s mask) core q c.q c.k (clean c.image) mask with
          | (s, .failed _ va) => .next (fail s va)
          | (s, .wait) => .next s
          | (s, .done) =>
            let s := drop s
            let k := getCore s core
            let s := rememberRegs (setCore s core (setSreg k c.d (BitVec.ofNat 64 c.k))) core c.w k
            .next (produce s core .q c.w.num)

/-- evpop (R115, R339): an acquire with mask L, C and X. -/
def execEvpop (d a : BitVec 5) (s : State) : Host.Outcome State Fault Refusal :=
  let o := spadOff (sreg (here s) a).toNat
  if !aligned o 32 then .next (raise s tAlign (BitVec.ofNat 64 o) 0)
  else
    match (here s).evq with
    | [] => .next (retire (onHere s fun k => setSreg k d 0))
    | r :: rs =>
      let s := catchUp (spadStore s o (clean (recordBytes r))) s.core
      let s := match s.word with | some w => onHere s fun k => acquired k w none | none => s
      .next (retire (onHere s fun k => setSreg { k with evq := rs } d r.w0))

/-- sigw (R147, R340): a strong atomic with .rel and its mask on a word of a SYNC region, then ntall. -/
def execSigw (h : BitVec 4) (a b : BitVec 5) (o_ : BitVec 2) (m : BitVec 6) (s : State) : Host.Outcome State Fault Refusal :=
  match handleSeen s h with
  | (s, none, _) => .next (stall s)
  | (s, some hv, _) =>
    let hv := match s.word with | some w => liveHandle s w hv | none => hv
    let o := (sreg (here s) a).toNat
    let v := (sreg (here s) b).toNat
    let mask : BitVec 6 := if m = 0 then 7 else m
    let rel := mask ||| (here s).fenceRel
    match devCheck s (.strong s.core) h hv o 8 true 8 with
    | .trap c addr x => .next (raise s c addr x)
    | .wait => .next (stall s)
    | .go va =>
      let sync := match regionAt s (hCtx hv) va with | some (_, r) => rMode r == 3 | none => false
      let local' := hRes hv ≠ 2
      if (local' && !sync) then .next (raise s tOwnership (BitVec.ofNat 64 va) 0)
      else if releaseHeld s rel then .next (stallHolding s hv)
      else if !local' then
        .next (strongRemote (releaseNear s rel) 0 hv va 8 (20 + o_.toNat) v 0 fun s _ => retire s)
      else
        match strongLocal s s.core false 0 hv va 8 true true (fun old => some (signalNew o_.toNat old v)) rel with
        | (s, .done _) => .next (retire (wakeDevice s (wordKey hv va) true))
        | (s, .poisoned i) => .next (raise s tPoisonUse (BitVec.ofNat 64 (va + i)) 2)
        | (s, .wait) => .next (stallHolding s hv)
        | (s, .remote) => .next (stall s)

end Sys2Proof.Machine
end

