-- ==== Sys2Proof/Machine/RegionOps.lean ====
section
/-! DEFINITION. The events of the region table and of the plain-access buffers (R101, R103 to R106). -/

namespace Sys2Proof.Machine

/-- Every plain-access buffer of the context of a descriptor writes back and drops its lines of the region (R101). -/
def regionLines (s : State) (r : Option Region) : State :=
  match r with
  | some r => if rV r then writeBackCtx s (rCtx r) (rBase r) (2 ^ rLog r) else s
  | none => s

/-- REGION_DESCRIPTOR_WRITE (R101): once no binding holds the descriptor, it changes and the buffers write back. -/
def execRegionDescriptorWrite (core idx : Nat) (w0 w1 : BitVec 64) (s : State) : Host.Outcome State Fault Refusal :=
  if !(bindersOf s idx).isEmpty then .next (due s [.regionDescriptorWrite core idx w0 w1])
  else
    let old := Map.find s.mmu.regions idx
    let new : Region := { w0, w1 }
    let regions := if new = { w0 := 0, w1 := 0 } then Map.erase s.mmu.regions idx else Map.set s.mmu.regions idx new
    let s := { s with mmu := { s.mmu with regions } }
    .next (due (regionLines (regionLines s old) (some new)) [.regionUpdateComplete core])

/-- REGION_DESCRIPTOR_READ (R101): the descriptor goes to RGLO and RGHI. -/
def execRegionDescriptorRead (core idx : Nat) (s : State) : Host.Outcome State Fault Refusal :=
  let r := (Map.find s.mmu.regions idx).getD { w0 := 0, w1 := 0 }
  let k := getCore s core
  .next (due (setCore s core { k with mreg := { k.mreg with rglo := r.w0, rghi := r.w1 } }) [.regionUpdateComplete core])

/-- REGION_UPDATE_COMPLETE (R101): every access under the old descriptor has landed; BUSY clears, a release. A command checks every access
against the descriptor that stands when it makes it (R100), so that only forwarded writes can still be on their way. -/
def execRegionUpdateComplete (core : Nat) (s : State) : Host.Outcome State Fault Refusal :=
  if s.fab.lines.any fun l => l.data.isSome then .next (due s [.regionUpdateComplete core])
  else
    let k := getCore s core
    .next (flushNear (setCore s core { k with mreg := { k.mreg with rgBusy := false } }))

/-- PLAIN_BUFFER_WRITEBACK (R103): dirty bytes of a line are written back. -/
def execPlainBufferWriteback (core line : Nat) (s : State) : Host.Outcome State Fault Refusal :=
  .next (writeBack s core line)

/-- What the new owner of a region reads, if it is a core, comes after the old owner's writes (R104): its plain reads fetch anew. -/
def newOwner (s : State) (c : Nat) (r : Region) : State :=
  if c < 1280 then catchUp (freshRange s c (rBase r) (2 ^ rLog r)) c else s

/-- Step 4 of R104: TRANSIT clears. -/
def transferOver (s : State) (idx : Nat) : State :=
  match Map.find s.mmu.regions idx with
  | some r => newOwner (setOwner s idx (rOwner r) false) (rOwner r) r
  | none => s

/-- OWNERSHIP_TRANSFER_COMPLETE (R104 steps 2 to 4): the region's lines are written back and have landed, TRANSIT clears and
the ownx produces its token. A transfer that the hub makes for a binding (R106) has no core. -/
def execOwnershipTransferComplete (core idx : Nat) (s : State) : Host.Outcome State Fault Refusal :=
  if 1280 ≤ core then
    match Map.find s.mmu.regions idx with
    | none => .next s
    | some r => .next (if regionOut s r then due s [.ownershipTransferComplete core idx] else transferOver s idx)
  else
    match (getCore s core).transit with
    | none => .next s
    | some (i, n) =>
      if i ≠ idx then .next s
      else
        let s := match Map.find s.mmu.regions idx with
          | some r => freshRange s core (rBase r) (2 ^ rLog r)
          | none => s
        if storesOut s core then .next (due s [.ownershipTransferComplete core idx])
        else
          let s := transferOver s idx
          let k := getCore s core
          .next (produce (setCore s core { k with transit := none }) core .q n)

end Sys2Proof.Machine
end

