-- ==== Sys2Proof/Machine/Pages.lean ====
section
/-! DEFINITION. Page operations, moves and the frame table's operations (R127 to R138). -/

namespace Sys2Proof.Machine

/-! ### Acceptance and records (R133) -/

/-- The causes of R151 that page operations use. -/
def causeShared : Nat := 8
def causeSize : Nat := 9
def causePool : Nat := 11
def causeZone : Nat := 12
def causeChanged : Nat := 13
def causeOverflow : Nat := 14
def causeNotrack : Nat := 15

/-- Whether a request of the host has legal fields; those of a core are checked at PGOPCTL (R133). -/
def pageFields (r : PageReq) : Bool :=
  r.va < 4503599627370496 && aligned r.va 65536 && r.ca < 281474976710656 && aligned r.ca 64 && r.size ≠ 3 && r.ctx < 256
  && bits r.dst.toNat 48 16 == 0 && bits r.dst.toNat 14 2 == 0 && bits r.dst.toNat 0 7 == 0

/-- The answer to the host: PGOPDST as it stands after the operation. -/
def pageAnswer (s : State) (r : PageReq) (status : Nat) (dst : W64) : State :=
  match r.src with | .host tag => answerHost s 2 tag status [dst] | .core _ => s

/-- BUSY clears when the operation is accepted. -/
def pageAccept (s : State) (r : PageReq) : State :=
  match r.src with
  | .core c => let k := getCore s c; setCore s c { k with mreg := { k.mreg with pgBusy := false } }
  | .host _ => s

/-- A page operation that ends with its one record (R133). -/
def pageEnds (s : State) (r : PageReq) (status cause : Nat) : State :=
  flushNear (pageAnswer (pageRecord s r.ca status cause) r mgOk r.dst)

/-- Accept an operation and carry it out. -/
def pageOp (s : State) (r : PageReq) (f : State → State) : State :=
  if (match r.src with | .host _ => !pageFields r | .core _ => false) then pageAnswer s r mgField 0
  else f (pageAccept s r)

/-! ### Frame operations (R134 to R136) -/

/-- The physical address that PGOPDST names. -/
def reqFrame (r : PageReq) : Nat := frameBase (bits r.dst.toNat 16 32)

/-- Whether tracking is on (R134). -/
def tracking (s : State) : Bool := bit s.mmu.frtBase.toNat 0

/-- What a frame operation checks first: tracking, and the SIZE of a HELD or DRAINING page (R135). -/
def frameOp (s : State) (r : PageReq) (f : State → Nat → State) : State :=
  let e := frameEntry s (reqFrame r)
  if !tracking s then pageEnds s r stRefused causeNotrack
  else if (feState e = 1 ∨ feState e = 2) ∧ feSize e ≠ r.size then pageEnds s r stRefused causeSize
  else f s e

/-- PAGEOP_ALLOC (R135). -/
def execPageopAlloc (r : PageReq) (s : State) : Host.Outcome State Fault Refusal :=
  .next (pageOp s r fun s => frameOp s r fun s e =>
    if feState e = 0 ∨ feState e = 3 then pageEnds (setFrame s (reqFrame r) (mkFrame 1 r.size 1)) r stDone 0
    else pageEnds s r stRefused causeState)

/-- PAGEOP_INCREF (R135). -/
def execPageopIncref (r : PageReq) (s : State) : Host.Outcome State Fault Refusal :=
  .next (pageOp s r fun s => frameOp s r fun s e =>
    if feState e ≠ 1 then pageEnds s r stRefused causeState
    else if feRef e = 4294967295 then pageEnds s r stRefused causeOverflow
    else pageEnds (setFrame s (reqFrame r) (mkFrame 1 (feSize e) (feRef e + 1))) r stDone 0)

/-- Whether a handle of local memory names a page (R136). -/
def namesFrame (pa n : Nat) (h : BitVec 128) : Bool :=
  hV h && hRes h == 0 && overlaps (frameBase (hFrame h)) (pageSize (hSize h)) pa n

/-- A frame shootdown on a core (R136): its TLB and its handles. -/
def frameCore (pa n : Nat) (k : Core) : Core :=
  { k with tlb := k.tlb.filter fun e => !namesFrame pa n (mkHandle (.ok e.leaf e.size e.addr) e.ctx e.base)
           h := k.h.map fun h => if namesFrame pa n h then BitVec.ofNat 128 (h.toNat % 2 ^ 127) else h
           iss := { k.iss with hpend := k.iss.hpend.map fun p =>
                      { p with val := p.val.bind fun v => if namesFrame pa n v then none else some v } } }

/-- The plain lines of a core that lead to a page are written back and dropped. -/
def frameLines (s : State) (c pa n : Nat) : State :=
  let lines := ((getCore s c).plain.filter fun l => namesFrame pa n l.2.handle).map (·.1)
  let s := lines.foldl (fun s l => writeBack s c l) s
  let k := getCore s c
  setCore s c { k with plain := k.plain.filter fun l => !lines.contains l.1 }

/-- A frame shootdown (R136): every cached leaf and handle that names the page goes, in any context; pins stay. -/
def frameShoot (s : State) (pa n : Nat) : State :=
  let s := s.cores.foldl (fun s c => if c.2.plain.isEmpty then s else frameLines s c.1 pa n) s
  let before := s.cores
  let tlbs := s.mmu.tlbs.map fun t =>
    (t.1, t.2.filter fun e => !namesFrame pa n (mkHandle (.ok e.leaf e.size e.addr) e.ctx e.base))
  let s := { s with cores := s.cores.map fun c => (c.1, frameCore pa n c.2), mmu := { s.mmu with tlbs } }
  let s := changeSaved s (frameCore pa n)
  due s (s.cores.flatMap fun c =>
    let old := walksOf c.1 (Map.get Core.reset before c.1)
    (walksOf c.1 c.2).filter fun e => !old.contains e)

/-- A page leaves HELD: FREE, or DRAINING while pins or other moves hold it (R135, R136). -/
def leaveHeld (s : State) (pa n : Nat) (size : BitVec 2) (area : Option Nat) (but : Nat × Nat) (mv : Nat) : State :=
  let busy := pinsOnFrame s pa n but ≠ 0 || movesOnFrame s pa n mv
  let id := s.mmu.nextId
  let d : Deferral := { id, frame := pa, len := n, area, stat := if busy then stDeferred else stFreed, second := busy, shot := false }
  let s := setFrame s pa (mkFrame (if busy then 2 else 3) size 0)
  let s := { s with mmu := { s.mmu with nextId := id + 1, defer := s.mmu.defer ++ [d] } }
  due (frameShoot s pa n) [.frameShootdownComplete id]

/-- PAGEOP_DECREF (R135, R136). -/
def execPageopDecref (r : PageReq) (s : State) : Host.Outcome State Fault Refusal :=
  .next (pageOp s r fun s => frameOp s r fun s e =>
    if feState e ≠ 1 ∨ feRef e = 0 then pageEnds s r stRefused causeState
    else if 1 < feRef e then pageEnds (setFrame s (reqFrame r) (mkFrame 1 (feSize e) (feRef e - 1))) r stDone 0
    else
      pageAnswer (leaveHeld s (reqFrame r) (pageSize (feSize e)) (feSize e) (some r.ca) nobody noMove) r mgOk r.dst)

/-- FRAME_SHOOTDOWN_COMPLETE (R136): the first record is written; the second follows when the last pin drops (R135). -/
def execFrameShootdownComplete (id : Nat) (s : State) : Host.Outcome State Fault Refusal :=
  match s.mmu.defer.find? fun d => d.id = id with
  | none => .next s
  | some d =>
    let s := match d.area with | some a => flushNear (pageRecord s a d.stat 0) | none => s
    let defer := if d.second then s.mmu.defer.map fun x => if x.id = id then { x with shot := true } else x
      else s.mmu.defer.filter fun x => x.id ≠ id
    .next (drainCheck { s with mmu := { s.mmu with defer } })

/-! ### The pool (R132, R133) -/

/-- The pool is a set of frames (R132): one that it holds is not held twice. -/
def poolAdd (s : State) (f : Nat) : State :=
  if s.mmu.pool.contains f then s else { s with mmu := { s.mmu with pool := s.mmu.pool ++ [f] } }

/-- PAGEOP_POOLPUT (R132, R133): the local 2 MiB frame that FRAME names enters the pool; no other field is read. A FRAME that names no 2 MiB
frame is refused with FORMAT, which the spec lists for moves only (log 95). -/
def execPageopPoolput (r : PageReq) (s : State) : Host.Outcome State Fault Refusal :=
  .next (pageOp s r fun s =>
    let pa := reqFrame r
    let f := bits r.dst.toNat 16 32
    if !aligned pa 2097152 || 2199023255552 ≤ pa then pageEnds s r stRefused causeFormat
    else if 256 ≤ poolSize s && !s.mmu.pool.contains f then pageEnds s r stRefused causePool
    else pageEnds (poolAdd s f) r stDone 0)

/-- PGOPDST takes a frame: the core's register, or the host's answer. -/
def giveFrame (s : State) (r : PageReq) (dst : W64) : State :=
  match r.src with
  | .core c => let k := getCore s c; setCore s c { k with mreg := { k.mreg with pgopdst := dst } }
  | .host _ => s

/-- PAGEOP_POOLTAKE (R132, R133): a frame leaves the pool and is written to PGOPDST. -/
def execPageopPooltake (r : PageReq) (s : State) : Host.Outcome State Fault Refusal :=
  .next (pageOp s r fun s =>
    match s.mmu.pool with
    | [] => pageEnds s r stRefused causePool
    | f :: fs =>
      let s := giveFrame { s with mmu := { s.mmu with pool := fs } } r (poolLeaf f)
      pageEnds s { r with dst := poolLeaf f } stDone 0)

/-! ### Moves (R130, R131, R133) -/

/-- The queue whose error ring an abort is reported to: that of the core's task; none for the host and the sweeper. -/
def reqQueue (s : State) (r : PageReq) : Option Nat :=
  match r.src with
  | .core c => (getCore s c).task.map (·.qid)
  | .host _ => none

/-- The fields of a leaf that a move replaces (R130 step 5): RES, STACK, PMODE and FRAME. -/
def placeFields : Nat := 281474976645120 + 8192 + 7680 + 384

/-- The destination that PGOPDST names (R133): its leaf fields, or the cause of a refusal. -/
def destOf (s : State) (r : PageReq) (size : BitVec 2) (local' : Bool) : Except Nat W64 :=
  let d := r.dst.toNat
  let pa := reqFrame r
  let pmode := bit d 13
  let res := bits d 7 2
  if res = 1 ∨ res = 3 ∨ (local' ∧ res ≠ 0) then .error causeFormat
  else if res = 2 then if bits d 26 22 ≠ 0 then .error causeFormat else .ok (BitVec.ofNat 64 (d &&& placeFields))
  else if 2199023255552 ≤ pa || !aligned pa (pageSize size) || (pmode && (1099511627776 ≤ pa || bits pa 36 4 ≠ bits d 9 4))
      || (!pmode && (pa < 1099511627776 || bits d 9 4 ≠ 0)) then .error causeFormat
  else if feState (frameEntry s pa) = 1 ∨ feState (frameEntry s pa) = 2 then .error causeState
  else .ok (BitVec.ofNat 64 (d &&& placeFields))

/-- A requested move (R133): its refusals in their order, then steps 1 and 2 of R130. A full move table makes it wait. A COMPRESS of a page whose
CODEC is 0, compression off (R17), is refused with STATE, which the spec does not say (log 96). -/
def moveOp (s : State) (r : PageReq) (kind : Nat) (again : Event) : State :=
  match walk s r.ctx r.va with
  | .no _ => pageEnds (pageAccept s r) r stRefused causeState
  | .ok leaf size addr =>
    let e := leaf.toNat
    let res := bits e 7 2
    let fe := frameEntry s (frameBase (bits e 16 32))
    let no (c : Nat) : State := pageEnds (pageAccept s r) r stRefused c
    let okRes : Bool := match kind with | 0 => res == 0 || res == 2 | 1 => res == 1 | _ => res == 0 && bits e 52 2 ≠ 0
    if r.size ≠ size then no causeSize
    else if !okRes || movingAt s r.ctx r.va then no causeState
    else if res = 0 ∧ feState fe = 1 ∧ 1 < feRef fe then no causeShared
    else if kind ≠ 0 ∧ size ≠ 1 then no causeSize
    else
      match (if kind = 2 then .ok 384 else destOf s r size (kind = 1)) with
      | .error c => no c
      | .ok dst =>
        if kind = 2 && !zoneRoom s 1 then no causeZone
        else if 64 ≤ s.mmu.moves.length then dueAgain s again
        else
          let req := { r with va := r.va / pageSize size * pageSize size }
          startMove (pageAccept s r) req kind leaf addr dst none (reqQueue s r)

/-- A request of a move whose fields are legal. -/
def moveReq (s : State) (r : PageReq) (kind : Nat) (again : Event) : State :=
  if (match r.src with | .host _ => !pageFields r | .core _ => false) then pageAnswer s r mgField 0
  else moveOp s r kind again

/-- PAGEOP_MIGRATE (R130, R133). -/
def execPageopMigrate (r : PageReq) (s : State) : Host.Outcome State Fault Refusal := .next (moveReq s r 0 (.pageopMigrate r))

/-- PAGEOP_EXPAND (R130, R133). -/
def execPageopExpand (r : PageReq) (s : State) : Host.Outcome State Fault Refusal := .next (moveReq s r 1 (.pageopExpand r))

/-- PAGEOP_COMPRESS (R130, R133). -/
def execPageopCompress (r : PageReq) (s : State) : Host.Outcome State Fault Refusal := .next (moveReq s r 2 (.pageopCompress r))

/-- The attribute that a leaf names (R18). -/
def leafAttr (e : Nat) : Attr := { gran := BitVec.ofNat 2 (bits e 14 2), tol := bit e 48, tcls := BitVec.ofNat 3 (bits e 49 3) }

/-- The agent of a move: what it reads of a remote page comes as lines (R124). -/
def moveAgent (m : Move) (mv : Nat) : Agent :=
  { owner := (mv, 4097), acc := .hub, ctx := m.req.ctx, core := 0, word := none, qid := 0, got := m.got }

/-- The page of a move as far as its lines have come: its bytes, or the cause that stops the copy (R131). -/
def moveSource (s : State) (m : Move) (mv : Nat) : Run × Except Nat (List PByte) :=
  let h := mkHandle (.ok m.leaf m.req.size m.addr) m.req.ctx m.req.va
  let n := pageSize m.req.size
  match handleRead s h m.req.va n with
  | (s, .data bs) => (Run.start s, if anyPois bs then .error causePoison else .ok bs)
  | (s, .remote) =>
    match remoteBytes (Run.start s) (moveAgent m mv) h m.req.va n with
    | (r, _, some c) => (r, .error c)
    | (r, bs, none) => (r, if r.miss.isEmpty && anyPois bs then .error causePoison else .ok bs)

/-- The answers of the lines that a move has written stand apart from those that it has read. -/
def writeKey (va : Nat) : Nat := 2 ^ 60 + va

/-- The copy to a remote page (R124, R130): its lines leave once; then their answers are awaited. -/
def moveForward (s : State) (m : Move) (mv : Nat) (bs : List PByte) : State × Option (Option Nat) :=
  let idx := bits m.dst.toNat 16 32
  let lines := chunks 64 (bs.length / 64 + 2) m.req.va bs
  if (lines.any fun l => (windowTarget s idx l.1 l.2.length).isNone) then (s, some (some causeNotPresent))
  else
    let sent := lines.any fun l => s.fab.lines.any (fun f => f.use = .command mv 4097 (writeKey l.1))
      || m.got.any fun g => g.va = writeKey l.1
    if !sent then
      (lines.foldl
        (fun s l => match windowTarget s idx l.1 l.2.length with
          | some (w, t) => sendLine s w t l.2.length (some l.2) 0 (.command mv 4097 (writeKey l.1)) l.1 (m.req.va, pageSize m.req.size)
          | none => s) s, none)
    else
      match m.got.find? fun g => 2 ^ 60 ≤ g.va && (g.late || g.st ≠ .ok) with
      | some g => (s, some (some (lineCause g.st g.late)))
      | none => if lines.all fun l => m.got.any fun g => g.va = writeKey l.1 then (s, some none) else (s, none)

/-- The record of a shade page (R128, R129): header and payload. -/
def shadeRecord (codec : Nat) (bs : List PByte) : List PByte :=
  let ps := ((chunks 256 (bs.length / 256 + 2) 0 bs).map fun c => encodePiece codec (c.2.map (·.1)))
  let head := ps.flatMap fun p => [BitVec.ofNat 8 (p.1 * 16 + p.2.2.length / 32), BitVec.ofNat 8 p.2.1]
  clean (head ++ ps.flatMap fun p => p.2.2)

/-- A place in the zone for a record of so many units: its allocation is not architectural (R127, log 10). -/
def zonePlaceFor (s : State) (units : Nat) : State × Option Nat :=
  let free := (List.range (s.mmu.shzLen.toNat * 32 + 1 - units)).filter fun i =>
    i + units ≤ s.mmu.shzLen.toNat * 32 && !(s.mmu.zone.any fun z => overlaps z.1 z.2 i units)
  match free with
  | [] => (s, none)
  | f :: _ => ({ s with free := s.free + 1 }, some (lget free (Config.zonePlace s.free units % free.length) f))

/-- A move ends (R130 step 6): its entry leaves the table, its record is written and its requester answered. -/
def moveEnds (s : State) (m : Move) (mv status cause : Nat) (dst : W64) : State :=
  let s := { s with mmu := { s.mmu with moves := Map.erase s.mmu.moves mv } }
  let s := drainCheck (unpin s (mv, 4097))
  if m.kind ≤ 2 then pageEnds s { m.req with dst } status cause else flushNear s

/-- The report of an abort (R131): the issuing queue's error ring, whose record has a field for the page and none for the context (R401), or the
management log. -/
def moveReport (s : State) (m : Move) (cause : Nat) : State :=
  match m.qid with
  | some q => errorRecord s q 7 cause 65535 0 0 (BitVec.ofNat 64 m.req.va) 0 0 (BitVec.ofNat 64 m.req.va)
  | none => { s with mgmt := { s.mgmt with log := s.mgmt.log ++ [.move m.req.va m.req.ctx cause] } }

/-- A pool frame that a move did not use goes back. -/
def returnPool (s : State) (m : Move) : State :=
  match m.pool with | some f => poolAdd s f | none => s

/-- A move aborts (R131): no new leaf, both heats clear, the destination returns. -/
def moveAborts (s : State) (m : Move) (mv cause : Nat) : State :=
  let s := leafUpdate (leafUpdate s m.addr 56 2 fun _ => 0) m.addr 58 2 fun _ => 0
  let da := frameBase (bits m.dst.toNat 16 32)
  let s := if bits m.dst.toNat 7 2 = 1 then
      { s with mmu := { s.mmu with zone := Map.erase s.mmu.zone ((da - s.mmu.shzBase.toNat) / 65536) } }
    else s
  moveEnds (moveReport (returnPool s m) m cause) m mv stAborted cause m.req.dst

/-- A leaf without its heats: what step 5 of R130 compares. -/
def coldLeaf (e : Nat) : Nat := e - bits e 56 4 * 2 ^ 56

/-- The words of a page that sleepers wait on follow it (R117, R130). -/
def moveSleepers (s : State) (m : Move) (leaf : W64) : State :=
  let n := pageSize m.req.size
  let h (l : W64) : BitVec 128 := mkHandle (.ok l m.req.size m.addr) m.req.ctx m.req.va
  let offOf (key : Nat) : Option Nat :=
    let pa := frameBase (hFrame (h m.leaf))
    if hRes (h m.leaf) = 1 then
      let b := 17592186044416 + hFrame (h m.leaf) * 1073741824
      if b ≤ key ∧ key < b + n then some (key - b) else none
    else if hRes (h m.leaf) = 0 then
      let o := offsetIn pa key
      if key < 17592186044416 ∧ pa ≤ o ∧ o < pa + n ∧ cellOf o = some key then some (o - pa) else none
    else none
  let key (h : BitVec 128) (va : Nat) : Nat :=
    if hRes h = 1 then 17592186044416 + hFrame h * 1073741824 + (va - hBase h) else (cellOf (hPhys h va)).getD 0
  { s with sleepers := s.sleepers.map fun p =>
      match offOf p.1 with
      | some o => (key (h leaf) (m.req.va + o), p.2)
      | none => p }

/-- The frames of a tracked page change hands (R135): the destination takes the source's state, the source leaves HELD. -/
def passState (s : State) (m : Move) (mv : Nat) : State :=
  let pa := frameBase (bits m.leaf.toNat 16 32)
  let da := frameBase (bits m.dst.toNat 16 32)
  let e := if bits m.leaf.toNat 7 2 = 0 then frameEntry s pa else 0
  let toLocal := bits m.dst.toNat 7 2 = 0
  let s := if toLocal && feState e == 1 then setFrame s da (mkFrame 1 (feSize e) (feRef e))
    else if toLocal && feState (frameEntry s da) == 3 then setFrame s da 0
    else s
  if feState e = 1 then leaveHeld s pa (pageSize m.req.size) m.req.size none (mv, 4097) mv else s

/-- Step 5 of R130: the leaf is compared, but for its heats, and replaced; a shootdown follows. -/
def moveCommit (s : State) (m : Move) (mv : Nat) : State :=
  let now := leVal (physRead s m.addr 8)
  let pa := frameBase (bits m.leaf.toNat 16 32)
  let st := feState (frameEntry s pa)
  if coldLeaf now ≠ coldLeaf m.leaf.toNat then moveAborts s m mv causeChanged
  else if bits m.leaf.toNat 7 2 = 0 ∧ 2 ≤ st then moveAborts s m mv causeState
  else
    let new := BitVec.ofNat 64 (coldLeaf now - (coldLeaf now &&& placeFields) + m.dst.toNat)
    let s := physWrite s m.addr (clean (leBytes 8 new.toNat))
    let s := passState (moveSleepers s m new) m mv
    let s := { s with mmu := { s.mmu with moves := Map.set s.mmu.moves mv { m with phase := 1 } } }
    due (shootRange s m.req.ctx m.req.va (pageSize m.req.size)) [.moveCopyComplete mv]

/-- A compression's destination (R128): the record goes into the zone; one that is too long, or has no room, is not made. -/
def moveCompress (s : State) (m : Move) (mv : Nat) (bs : List PByte) : State :=
  let rec' := shadeRecord (bits m.leaf.toNat 52 2) bs
  let units := recordUnits rec'.length
  match (if 24 < units then (s, none) else zonePlaceFor s units) with
  | (s, none) => moveEnds s m mv stRefused causeZone m.req.dst
  | (s, some i) =>
    let pa := s.mmu.shzBase.toNat + i * 65536
    let s := physWrite s pa rec'
    let s := { s with mmu := { s.mmu with zone := Map.set s.mmu.zone i units } }
    moveCommit s { m with dst := BitVec.ofNat 64 (pa + 128) } mv

/-- Step 3 and 4 of R130: the destination is formatted and the page copied, encoded or sent. -/
def moveCopy (s : State) (m : Move) (mv : Nat) : State :=
  match moveSource s m mv with
  | (r, .error c) => moveAborts r.s m mv c
  | (r, .ok bs) =>
    if !r.miss.isEmpty then askLines r.s mv 4097 r.miss
    else if m.kind = 2 ∨ m.kind = 5 then moveCompress r.s m mv bs
    else if bits m.dst.toNat 7 2 = 0 then
      let a := leafAttr m.leaf.toNat
      let pa := frameBase (bits m.dst.toNat 16 32)
      let s := formatAll r.s (formatPieces pa (pageSize m.req.size / 65536)) a
      moveCommit (dramWrite s pa bs a) m mv
    else
      match moveForward r.s m mv bs with
      | (s, none) => s
      | (s, some (some c)) => moveAborts s m mv c
      | (s, some none) => moveCommit s m mv

/-- A move whose leaf is written ends (R130 step 6, R132, R133): what the page has left is given back. -/
def moveFinish (s : State) (m : Move) (mv : Nat) : State :=
  let pa := frameBase (bits m.leaf.toNat 16 32)
  let src := BitVec.ofNat 64 (m.leaf.toNat &&& placeFields)
  let s := if bits m.leaf.toNat 7 2 = 1 then
      { s with mmu := { s.mmu with zone := Map.erase s.mmu.zone ((pa - s.mmu.shzBase.toNat) / 65536) } }
    else s
  let untracked := feState (frameEntry s pa) = 0
  if m.kind = 5 then moveEnds (poolAdd s (bits m.leaf.toNat 16 32)) m mv stDone 0 0
  else if m.kind = 2 ∧ untracked then moveEnds (giveFrame s m.req src) m mv stDone 0 src
  else moveEnds s m mv stDone 0 m.req.dst

/-- MOVE_COPY_COMPLETE (R130): a move goes on once its shootdown's pins are gone and the writes that it covers have
landed. -/
def execMoveCopyComplete (mv : Nat) (s : State) : Host.Outcome State Fault Refusal :=
  match Map.find s.mmu.moves mv with
  | none => .next s
  | some m =>
    let n := pageSize m.req.size
    let mine := s.fab.lines.any fun l => match l.use with | .command id q _ => id == mv && q == 4097 | _ => false
    if mine then .next s
    else if !(pinsOn s m.req.ctx m.req.va n).isEmpty || writesOut s m.req.va n then .next (due s [.moveCopyComplete mv])
    else .next (if m.phase = 0 then moveCopy s m mv else moveFinish s m mv)

end Sys2Proof.Machine
end

