-- ==== Sys2Proof/Machine/Queues.lean ====
section
/-! DEFINITION. Queues: their operations, the dispatcher's look at a ring, completion of packets and the ticket sequencer
(R139 to R145, R149 to R155, R445). -/

namespace Sys2Proof.Machine

/-! ### The end of a queue operation (R139) -/

/-- BUSY clears with QSTAT filled, or the host is answered. -/
def queueOpEnds (s : State) (src : Requester) (qstat : Nat) : State :=
  match src with
  | .core c =>
    let k := getCore s c
    setCore s c { k with mreg := { k.mreg with qstat := BitVec.ofNat 64 qstat, qBusy := false } }
  | .host tag => answerHost s 1 tag mgOk [BitVec.ofNat 64 qstat]

/-- The results of R139. -/
def qOk : Nat := 0
def qState : Nat := 1
def qCtx : Nat := 2
def qRing : Nat := 3
def qSave : Nat := 4
def qField : Nat := 5
def qDesc : Nat := 6

/-! ### CREATE (R140, R404) -/

/-- A field of a reserved bit, or one out of its values (R140). -/
def descBad (x : Nat) : Bool :=
  bits x 61 3 ≠ 0 || bits x 52 4 ≠ 0 || bits x 116 12 ≠ 0 || bits x 180 8 ≠ 0 || bits x 244 12 ≠ 0 || bits x 308 12 ≠ 0
  || bits x 372 12 ≠ 0 || bits x 432 16 ≠ 0 || bits x 384 6 ≠ 0 || bits x 488 8 ≠ 0 || bits x 474 6 ≠ 0 || bits x 467 5 ≠ 0
  || bits x 456 8 ≠ 0 || bits x 472 2 == 3 || bits x 480 8 == 0 || (1 ≤ bits x 188 4 && bits x 188 4 ≤ 5)

/-- Every page of a range translates in a context and lies in no tolerant frame: a local one by the attributes of its frames (R36, R58), any
other by its leaf. -/
def rangeOpen (s : State) (ctx va n : Nat) : Bool :=
  (ranges 65536 (n / 65536 + 2) va n).all fun q =>
    match walk s ctx q.1 with
    | .ok leaf size addr =>
      let h := mkHandle (.ok leaf size addr) ctx q.1
      !bit leaf.toNat 48 && (hRes h ≠ 0 || fullFrames s (hPhys h q.1) q.2)
    | .no _ => false

/-- Every byte of a range lies in a region of a mode (R100). -/
def rangeMode (s : State) (ctx va n mode : Nat) : Bool :=
  (ranges 65536 (n / 65536 + 2) va n).all fun q =>
    match regionAt s ctx q.1 with
    | some (_, r) => rMode r == mode
    | none => false

/-- What R140 requires of the ring, the header, the stage and the set table. -/
def ringOk (s : State) (x : Nat) : Bool :=
  let logn := bits x 56 5
  let ctx := bits x 448 8
  let ring := bits x 0 52
  let hdr := bits x 64 52
  let logs := bits x 188 4
  let stg := bits x 128 52
  let mset := bits x 192 52
  6 ≤ logn && logn ≤ 20 && aligned ring (64 * 2 ^ logn) && aligned hdr 64 && aligned mset 64
  && rangeOpen s ctx ring (64 * 2 ^ logn) && rangeOpen s ctx hdr 64 && rangeMode s ctx hdr 16 3
  && (logs == 0
      || (aligned stg (64 * 2 ^ logs) && rangeOpen s ctx stg (64 * 2 ^ logs) && rangeMode s ctx stg (64 * 2 ^ logs) 4))
  && (mset == 0 || rangeOpen s ctx mset 10240)

/-- The length of a save area (R404). -/
def saveLen (nslot : Nat) : Nat := 4096 + nslot * 9568256

/-- NSLOT of a save area that R404 allows. -/
def saveSlots (s : State) (pa : Nat) : Option Nat :=
  let head := physRead s pa 4096
  let n := leVal (head.take 4)
  let len := saveLen n
  let top := if pa < 1099511627776 then 1099511627776 else 2199023255552
  if !aligned pa 4096 || anyPois head || n = 0 || 1280 < n || leVal (head.drop 4) ≠ 0 || top < pa + len then none
  else if (ranges 65536 (len / 65536 + 2) pa len).any fun q => !fullFrames s q.1 q.2 || 2 ≤ feState (frameEntry s q.1) || drainingAt s q.1
    then none
  else if s.queues.any fun q => q.2.st ≠ .free && overlaps q.2.savepa (saveLen q.2.nslot) pa len then none
  else some n

/-- The queue that a descriptor describes. -/
def newQueue (x nslot widx : Nat) : Queue :=
  { st := .active, logn := bits x 56 5, ringva := bits x 0 52, hdrva := bits x 64 52, logstg := bits x 188 4
    stgva := bits x 128 52, msetva := bits x 192 52, trapvec := BitVec.ofNat 64 (bits x 256 52), errva := bits x 320 52
    savepa := bits x 384 48, nslot, ageus := bits x 496 16, weight := bits x 480 8, dmode := bits x 472 2
    prio := bits x 464 3, ctx := bits x 448 8, ridx := widx, next := widx, first := widx, packets := [], errn := 0
    credit := (bits x 480 8 : Nat), aged := 0, held := [], feeder := none, feeders := [], tickets := [], jam := false
    slots := [], dying := none }

/-- CREATE with a descriptor (R140): the first failing check of CTX, FIELD, RING and SAVE; then RIDX := WIDX. It waits for a header on a remote
page (R123). -/
def createQueue (s : State) (r : QueueReq) (x : Nat) : State :=
  let ctx := bits x 448 8
  let hdr := bits x 64 52
  let ends (s : State) (c : Nat) : State := queueOpEnds s r.src c
  if !ctxValid s ctx then ends s qCtx
  else if descBad x then ends s qField
  else if !ringOk s x then ends s qRing
  else
    match saveSlots s (bits x 384 48) with
    | none => ends s qSave
    | some n =>
      match hubWord s (hubKey r.qid) ctx hdr with
      | (s, .error e) => if e.1 = hubWaits then dueAgain s (.queueCreate r) else ends s qRing
      | (s, .ok w) =>
        match hubWrite s .hub ctx (hdr + 8) (clean (leBytes 8 w)) true r.qid with
        | (s, .done) => ends (setQueue s r.qid (newQueue x n w)) qOk
        | (s, .wait) => dueAgain s (.queueCreate r)
        | (s, .failed _ _) => ends s qRing

/-- QUEUE_CREATE (R139, R140): the descriptor is captured whole or CREATE fails. Before the device is ready no queue can be created (R63); that
CREATE then answers STATE is the model's choice (log 98). -/
def execQueueCreate (r : QueueReq) (s : State) : Host.Outcome State Fault Refusal :=
  let free := match getQueue s r.qid with | some q => q.st == .free | none => true
  if !free || !s.mgmt.ready || 4096 ≤ r.qid then .next (queueOpEnds s r.src qState)
  else if !aligned r.arg.toNat 64 || 256 ≤ r.ctx then .next (queueOpEnds s r.src qDesc)
  else
    match hubRead s .hub (hubKey r.qid) r.ctx r.arg.toNat 64 true with
    | (s, .error e) => .next (if e.1 = hubWaits then dueAgain s (.queueCreate r) else queueOpEnds s r.src qDesc)
    | (s, .ok bs) => .next (if anyPois bs then queueOpEnds s r.src qDesc else createQueue s r (leVal bs))

/-! ### Malformed queues and notifies (R144, R145) -/

/-- An error record of QUEUE_MALFORMED (R144, R145). -/
def malformedRecord (s : State) (qid k : Nat) : State :=
  errorRecord s qid 5 20 65535 0 0 0 0 (BitVec.ofNat 64 k) 0

/-- ntall on a word of hub structures (R144). -/
def hubNotify (s : State) (ctx va : Nat) : State :=
  match walk s ctx va with
  | .ok leaf size addr => wakeDevice s (wordKey (mkHandle (.ok leaf size addr) ctx va) va) true
  | .no _ => s

/-! ### Packets as read (R145, R146) -/

/-- Whether a body breaks R146: reserved bytes and limits of each kind. An address has only its alignment to keep: one beyond 2^52 does not
translate (R15). -/
def bodyBad (x : Nat) : Bool :=
  let z (lo n : Nat) : Bool := bits x lo n == 0
  let va (lo al : Nat) : Bool := aligned (bits x lo 64) al
  match bits x 0 4 with
  | 1 => !z 128 384
  | 2 => !(va 128 64 && z 192 320)
  | 3 => !(va 128 64 && va 192 64 && z 256 256)
  | 4 => !(va 128 64 && z 214 10 && z 246 9 && aligned (bits x 224 22) 16 && z 262 250)
  | 5 | 6 | 7 => !(va 128 64 && z 192 320)
  | 8 => !(va 128 8 && z 259 5 && z 270 242)
  | 9 => !(va 128 8 && z 258 6 && z 270 242)
  | 10 => !(va 128 64 && z 192 320)
  | 11 => !(bits x 128 32 ≠ 0 && bits x 160 8 ≠ 0 && z 168 24 && z 292 220)
  | 12 => !(z 150 10 && aligned (bits x 128 22) 16 && z 166 2 && z 172 340)
  | _ => true

/-- Whether COMPL can be used (R145). -/
def complOk (x : Nat) : Bool := aligned (bits x 64 64) 32 && bits x 116 12 == 0

/-- A packet breaks R145; a set is named while MSETVA is 0 (R156). -/
def packetBad (q : Queue) (x : Nat) : Bool :=
  let kind := bits x 0 4
  kind == 0 || 12 < kind || bits x 4 4 ≠ 0 || bits x 9 7 ≠ 0 || bits x 40 24 ≠ 0 || !complOk x || bodyBad x
  || ((kind == 4 || kind == 12) && q.msetva == 0)

/-- The set that a BCOPY or BWAIT names (R146). -/
def msetOf (x : Nat) : Nat := if bits x 0 4 = 4 then bits x 256 6 else bits x 160 6

/-- A packet that starts. -/
def newPacket (k : Nat) (bytes : List Byte) (cores : List Nat) : Packet :=
  { k, kind := bits (leNat (bytes.take 1)) 0 4, bytes, done := false, stop := false, base := 0, launch := none, cores, job := .empty
    iter := 0, held := false, inLoop := none, fin := false, bloop := none }

/-- The kinds that a BLOOP's body may hold (R157). -/
def beaconKind (kind : Nat) : Bool := kind == 4 || kind == 8 || kind == 12

/-- The published body of a slot as the dispatcher sees it ahead: none where it is poisoned or cannot be read, an error while its line is on
its way (R123). -/
def slotAhead (s : State) (qid : Nat) (q : Queue) (k : Nat) : Except Unit (Option Nat) :=
  match (hubRead s .hub (hubKey qid) q.ctx (slotVa q k) 64 true).2 with
  | .ok bs => .ok (if anyPois bs then none else some (leVal bs))
  | .error e => if e.1 = hubWaits then .error () else .ok none

/-- The BLOOP whose body holds a packet (R157): the first one published after it, if only packets that a body may hold stand
between them and its BACK reaches the packet; or the slot that has to be waited for. `fuel` bounds the window. -/
def coverAhead (s : State) (qid : Nat) (q : Queue) (k j : Nat) : Nat → Except Nat (Option Nat)
  | 0 => .ok none
  | fuel + 1 =>
    if q.ridx + min 256 (2 ^ q.logn) ≤ j then .ok none
    else
      match slotAhead s qid q j with
      | .error () => .error j
      | .ok none => .ok none
      | .ok (some x) =>
        if bits x 0 4 = 11 then .ok (if j - k ≤ bits x 160 8 then some j else none)
        else if beaconKind (bits x 0 4) then coverAhead s qid q k (j + 1) fuel
        else .ok none

/-- The look for that BLOOP: the slots of a ring on a remote page are asked for one after the other, and let go once it is over; `none` while
one is on its way. -/
def coverLook (s : State) (qid : Nat) (q : Queue) (k : Nat) : State × Option (Option Nat) :=
  match coverAhead s qid q k (k + 1) 256 with
  | .error j => ((hubComing s .hub (hubKey qid) q.ctx (slotVa q j) 64 true).1, none)
  | .ok c =>
    if (Map.find s.fab.inbound (hubKey qid)).isNone then (s, some c)
    else ((List.range 256).foldl (fun s i => dropLines s (hubKey qid) (slotVa q (k + 1 + i)) 64) s, some c)

/-- The BLOOP that a started packet belongs to, as far as it is known; a DESTROY ends a body whose BLOOP has not started. -/
def coverOfPacket (s : State) (qid : Nat) (q : Queue) (p : Packet) : State × Option (Option Nat) :=
  if !beaconKind p.kind then (s, some none)
  else
    match p.inLoop with
    | some j => (s, some (if q.dying.isSome && !(q.packets.any fun b => b.k = j) then none else some j))
    | none => if q.dying.isSome then (s, some none) else coverLook s qid q p.k

/-- A packet that depends on index j may start (R149): j is behind, or complete, or over for this iteration of the body that
both lie in, or ended by a DESTROY (R141). -/
def depDone (q : Queue) (cover : Option Nat) (j : Nat) : Bool :=
  j < q.ridx || j < q.first
  || match q.packets.find? fun p => p.k = j with
     | some p => p.done || (p.held && cover.isSome && p.inLoop == cover)
     | none => q.dying.isSome && j < q.next

/-- The dependences of a packet (R149): FENCE, which a MARKER implies (R148), and the back-distances. -/
def depsDone (q : Queue) (k x : Nat) (cover : Option Nat) : Bool :=
  let earlier := (List.range (k - q.ridx)).all fun i => depDone q cover (q.ridx + i)
  ((!bit x 8 && bits x 0 4 ≠ 10) || earlier)
  && [bits x 16 8, bits x 24 8, bits x 32 8].all fun d => d == 0 || k < d || depDone q cover (k - d)

/-- The packet at which RIDX stands (R150), past those of a BLOOP's body that wait for the others, if it has stopped the queue. -/
def stoppedAt (q : Queue) : Option Packet :=
  match (List.range 256).find? fun i => !(q.packets.any fun p => p.k = q.ridx + i && p.held) with
  | some i => q.packets.find? fun p => p.k = q.ridx + i && p.stop
  | none => none

/-! ### The dispatcher's look at a ring (R143 to R145, R149) -/

/-- RIDX advances past the packets that are complete (R144), by a release with the full mask, which waits as R107 says; where it meets a packet
that has stopped, the queue stops. -/
def advance (s : State) (qid : Nat) : Nat → State
  | 0 => s
  | fuel + 1 =>
    match getQueue s qid with
    | none => s
    | some q =>
      match q.packets.find? fun p => p.k = q.ridx with
      | none => s
      | some p =>
        if p.stop then (if p.redo.isSome then s else stopQueue s qid)
        else if !p.done || releaseHeld s 63 then s
        else
          match hubWrite s .hub q.ctx (slotVa q q.ridx) (clean (leBytes 8 0)) true qid with
          | (s, .wait) => s
          | (s, .failed c va) => hubStop s qid c va q.ridx
          | (s, .done) =>
            match hubWrite s .hub q.ctx (q.hdrva + 8) (clean (leBytes 8 (q.ridx + 1))) true qid with
            | (s, .wait) => s
            | (s, .failed c va) => hubStop s qid c va q.ridx
            | (s, .done) =>
              let s := flushNear (hubNotify (hubRelease s byHub q.ctx (q.hdrva + 8) 8 63 false) q.ctx (q.hdrva + 8))
              match getQueue s qid with
              | none => s
              | some q =>
                advance (setQueue s qid { q with ridx := q.ridx + 1, tickets := Map.erase q.tickets q.ridx
                                                 packets := q.packets.filter fun x => x.k ≠ q.ridx }) qid fuel

/-- A packet starts: its set is captured (R156), a malformed one stops the queue at its index (R145); it waits for what lies on a remote page
(R123). `base` is the element offset of a COPY or BCOPY that RESUME runs again (R141), `loop` its place in a body. -/
def startPacket (s : State) (qid : Nat) (q : Queue) (k base : Nat) (loop : Option Nat × Nat := (none, 0)) : State :=
  match hubRead s .hub (hubKey qid) q.ctx (slotVa q k) 64 true with
  | (s, .error e) => if e.1 = hubWaits then s else hubStop s qid e.1 e.2 k
  | (t, .ok bs) =>
    let x := leVal bs
    let bytes := bs.map (·.1)
    let kind := bits x 0 4
    let add (s : State) (p : Packet) : State :=
      match getQueue s qid with
      | some q =>
        let n := { p with base := if kind = 3 ∨ kind = 4 then base else 0, inLoop := loop.1, iter := loop.2 }
        setQueue s qid { q with packets := q.packets.filter (fun y => y.k ≠ k) ++ [n], next := max q.next (k + 1) }
      | none => s
    if anyPois bs || packetBad q x then
      let p := newPacket k (if anyPois (bs.take 16) then List.replicate 64 0 else bytes) []
      due (stopQueue (add t { p with job := { Job.empty with res := some (bare 6 0) } }) qid) [.packetComplete qid k]
    else if beaconKind kind && kind ≠ 8 then
      match setCores t (hubKey qid) q (msetOf x) with
      | (t, .error c) =>
        if c = hubWaits then (hubComing s .hub (hubKey qid) q.ctx (q.msetva + 160 * msetOf x) 160 true).1
        else if c = causePoison then
          due (add t { newPacket k bytes [] with job := { Job.empty with res := some (bare 3 causePoison) } }) [.packetComplete qid k]
        else hubStop t qid c (q.msetva + 160 * msetOf x) k
      | (t, .ok cores) => due (add t (newPacket k bytes cores)) [packetEvent qid k kind]
    else due (add t (newPacket k bytes [])) [packetEvent qid k kind]

/-- The packets that RESUME runs again (R141) start once they can be read. -/
def redoPackets (s : State) (qid : Nat) : State :=
  match getQueue s qid with
  | none => s
  | some q =>
    if q.st ≠ .active then s
    else
      (q.packets.filter fun p => p.stop && p.redo.isSome).foldl
        (fun s p => startPacket s qid q p.k (p.redo.getD 0) (p.inLoop, p.iter)) s

/-- The dispatcher looks at an ACTIVE queue (R143, R144, R149): the next packet starts if it may. Word 0 alone decides whether it is published;
what has come of a slot on a remote page is let go where the packet does not start. -/
def lookQueue (s : State) (qid : Nat) : State :=
  let s := advance (redoPackets s qid) qid 257
  match getQueue s qid with
  | none => s
  | some q =>
    if q.st ≠ .active then s
    else
      match hubWord s (hubKey qid) q.ctx q.hdrva with
      | (s, .error e) => if e.1 = hubWaits then s else hubStop s qid e.1 e.2 q.next
      | (s, .ok w) =>
        if 9223372036854775808 ≤ w then malformedRecord (stopQueue s qid) qid q.ridx
        else if q.ridx + min 256 (2 ^ q.logn) ≤ q.next then s
        else
          match hubRead s .hub (hubKey qid) q.ctx (slotVa q q.next) 64 true with
          | (s, .error e) => if e.1 = hubWaits then s else hubStop s qid e.1 e.2 q.next
          | (seen, .ok bs) =>
            if anyPois (bs.take 8) then startPacket s qid q q.next 0
            else
              let x := leVal (bs.take 8)
              if bits x 0 4 = 0 then seen
              else
                match (if beaconKind (bits x 0 4) then coverLook s qid q q.next else (s, some none)) with
                | (s, none) => s
                | (s, some cover) =>
                  if depsDone q q.next x cover then startPacket s qid q q.next 0 else dropLines s (hubKey qid) (slotVa q q.next) 64

/-! ### Completion (R150, R151) -/

/-- Whether a status stops the queue (R150). -/
def stopping (status : Nat) : Bool := status == 3 || status == 4 || (6 ≤ status && status ≤ 8)

/-- The record of a packet (R151), with the ticket of its entry. -/
def packetRecord (q : Queue) (p : Packet) (res : PRes) : List Byte :=
  let r := recordOf res p.kind 0
  let t := Map.find q.tickets p.k
  let add (w : W64) (n : Nat) : W64 := w + BitVec.ofNat 64 n
  recordBytes
    { w0 := match t with | some t => add r.w0 (2 ^ 18 + t.ord % 2 ^ 32 * 2 ^ 32) | none => r.w0
      w1 := match t with | some t => add r.w1 (t.phase % 2 ^ 24 * 2 ^ 40) | none => r.w1
      w2 := match t with | some t => add r.w2 (t.push % 2 ^ 16 * 2 ^ 40) | none => r.w2
      w3 := r.w3 }

/-- A launch is over: targets that it fed serve the next one (R155). -/
def releaseFeeder (s : State) (qid k : Nat) : State :=
  { s with queues := s.queues.map fun q =>
      if q.2.feeder = some (qid, k) ∧ q.2.held.isEmpty then (q.1, { q.2 with feeder := none })
      else (q.1, { q.2 with feeders := q.2.feeders.filter (· ≠ (qid, k)) }) }

/-- What a packet's end does once its record stands (R144, R150). -/
def packetOver (s : State) (qid : Nat) (p : Packet) (res : PRes) : State :=
  let s := if p.kind = 2 then releaseFeeder s qid p.k else s
  let s := flushNear s
  if stopping res.status then
    let s := stopQueue (setPacket s qid { p with stop := true }) qid
    if res.status = 6 then malformedRecord s qid p.k else s
  else advance (setPacket s qid { p with done := true }) qid 257

/-- The queue stops again where a packet that has stopped is reached (R150). -/
def meetStop (s : State) (qid : Nat) : State :=
  match getQueue s qid with
  | some q => if (stoppedAt q).isSome then stopQueue s qid else s
  | none => s

/-- The end of a packet's work in an iteration of its BLOOP's body (R157): it waits for the others. -/
def heldOver (s : State) (qid j : Nat) (p : Packet) : State :=
  meetStop (due (setPacket s qid { p with held := true, inLoop := some j }) [.bloopIteration qid j]) qid

/-- Packets that wait for a BLOOP complete: it has ended, or they have no body. -/
def releaseBody (s : State) (q : Nat) (ps : List Packet) : State :=
  due (ps.foldl (fun s p => setPacket s q { p with held := false, fin := true }) s)
    ((ps.filter fun p => p.job.res.isSome).map fun p => .packetComplete q p.k)

/-- Whether a completion record waits for the writes on their way to peers and the host (R120): it lies there, or the host reads it. -/
def recordWaits (s : State) (qid ctx va : Nat) : Bool :=
  (s.fab.lines.any fun l => l.data.isSome)
  && (Config.hostReads qid || match hubTranslate s ctx va with | .ok leaf _ _ => bits leaf.toNat 7 2 == 2 | .no _ => false)

/-- PACKET_COMPLETE (R115, R120, R150, R151, R445): the record is written, as a release, and the packet is complete or stops its queue; under
DESTROY a packet whose record cannot be written ends without one. -/
def execPacketComplete (q k : Nat) (s : State) : Host.Outcome State Fault Refusal :=
  let s := unpin s (k, q)
  match getQueue s q, getPacket s q k with
  | some x, some p =>
    match p.job.res with
    | none => .next s
    | some res =>
      if p.done || p.stop then .next s
      else
        match (if p.fin || stopping res.status then (s, some none) else coverOfPacket s q x p) with
        | (s, none) => .next (due s [.packetComplete q k])
        | (s, some (some j)) => .next (if p.held then s else heldOver s q j p)
        | (s, some none) =>
          let w := leNat p.bytes
          let compl := bits w 64 64
          if compl = 0 || !complOk w || (x.dying.isSome && p.kind = 2) then .next (packetOver s q p res)
          else if recordWaits s q x.ctx compl then .next (due s [.packetComplete q k])
          else
            match hubWrite s .hub x.ctx compl (clean (packetRecord x p res)) true q with
            | (s, .done) => .next (packetOver (hubRelease s byHub x.ctx compl 32 7 false) q p res)
            | (s, .wait) => .next (due s [.packetComplete q k])
            | (s, .failed c va) =>
              let s := hubStop s q c va k
              .next (if x.dying.isSome then setPacket s q { p with done := true } else s)
  | _, _ => .next s

/-! ### STOP, RESUME, DESTROY and QUERY (R141) -/

/-- QUEUE_STOP (R141). -/
def execQueueStop (r : QueueReq) (s : State) : Host.Outcome State Fault Refusal :=
  match getQueue s r.qid with
  | some q =>
    .next (if q.st = .active then queueOpEnds (setQueue s r.qid { q with st := .stopped, byStop := true }) r.src qOk
      else queueOpEnds s r.src qState)
  | none => .next (queueOpEnds s r.src qState)

/-- QUEUE_RESUME (R141, R445): the packet that stopped the queue is read and run again; one whose record could not be written
completes; the sequencer goes on. A RESUME during a DESTROY answers STATE, as a second DESTROY does (log 99). -/
def execQueueResume (r : QueueReq) (s : State) : Host.Outcome State Fault Refusal :=
  match getQueue s r.qid with
  | none => .next (queueOpEnds s r.src qState)
  | some q =>
    if q.st ≠ .stopped || q.dying.isSome then .next (queueOpEnds s r.src qState)
    else
      let s := setQueue s r.qid { q with st := .active, jam := false, byStop := false }
      let s := match stoppedAt q with
        | some p => redoPackets (setPacket s r.qid { p with redo := some r.arg.toNat }) r.qid
        | none => s
      let again := q.packets.filter fun p => p.job.res.isSome && !p.done && !p.stop && !p.held
      let es := again.map (fun p => Event.packetComplete r.qid p.k) ++ (if q.held.isEmpty then [] else [.ticketPushSequenced r.qid])
      .next (queueOpEnds (due s (es ++ [.dispatch])) r.src qOk)

/-- QUEUE_DESTROY (R141): the started work ends as R141 gives for its kind. Packets of a body whose BLOOP has not started complete by themselves,
and records that could not be written are tried again. A second DESTROY answers STATE (log 99). -/
def execQueueDestroy (r : QueueReq) (s : State) : Host.Outcome State Fault Refusal :=
  match getQueue s r.qid with
  | none => .next (queueOpEnds s r.src qState)
  | some q =>
    if q.st ≠ .stopped || q.dying.isSome then .next (queueOpEnds s r.src qState)
    else
      let waits := q.packets.filter fun p => (p.kind = 9 || p.kind = 12) && p.job.res.isNone
      let s := waits.foldl (fun s p => unpin s (p.k, r.qid)) s
      let s := setQueue s r.qid { q with dying := some r.src, packets := q.packets.filter fun p => !waits.contains p }
      let s := (launches q).foldl
        (fun s l =>
          let s := dropSaved s r.qid l.1 fun _ => true
          let s := modLaunch s r.qid l.1 fun l => { l with stop := some (l.stop.getD 3) }
          let mine := s.cores.filterMap fun c => c.2.task.bind fun t => if t.qid = r.qid ∧ t.packet = l.1 then some c.1 else none
          launchCheck (drainCheck (mine.foldl stopCore s)) r.qid l.1)
        s
      let loops := q.packets.filter (·.bloop.isSome)
      let alone := q.packets.filter fun p => p.held && !(loops.any fun b => p.inLoop == some b.k)
      let again := q.packets.filter fun p => p.job.res.isSome && !p.done && !p.stop && !p.held
      .next (due (releaseBody s r.qid alone) ((again.map fun p => Event.packetComplete r.qid p.k)
        ++ (loops.map fun p => Event.bloopIteration r.qid p.k) ++ [.queueDestroyComplete r]))

/-- QUEUE_DESTROY_COMPLETE (R141): the queue is FREE once nothing that it started runs. Pushes that its sequencer still holds go with it, which
the spec does not say (log 100). -/
def execQueueDestroyComplete (r : QueueReq) (s : State) : Host.Outcome State Fault Refusal :=
  match getQueue s r.qid with
  | none => .next (queueOpEnds s r.src qOk)
  | some q =>
    let tasks := s.cores.any fun c => match c.2.task with | some t => t.qid = r.qid | none => false
    if tasks || q.packets.any fun p => !p.done && !p.stop then .next (due s [.queueDestroyComplete r])
    else .next (queueOpEnds { s with queues := Map.erase s.queues r.qid } r.src qOk)

/-- QUEUE_QUERY (R139, R141, R150): QSTATE, and the element offset that the stopped packet has reached; the tasks of a LAUNCH are no elements. -/
def execQueueQuery (r : QueueReq) (s : State) : Host.Outcome State Fault Refusal :=
  match getQueue s r.qid with
  | none => .next (queueOpEnds s r.src 0)
  | some q =>
    let st := match q.st with | .free => 0 | .active => 1 | .stopped => 2
    let off := match stoppedAt q with
      | some p => if p.kind = 2 then 0 else match p.job.res with | some x => x.elems % 2 ^ 40 | none => 0
      | none => 0
    .next (queueOpEnds s r.src (off * 2 ^ 24 + st * 2 ^ 14))

/-! ### The ticket sequencer (R153 to R155) -/

/-- The first held push leaves the stage. -/
def pushLeaves (s : State) (qid k : Nat) (p : Push) : State :=
  match getQueue s qid with
  | none => s
  | some q =>
    let held := q.held.drop 1
    let whole := match getPacket s p.qid p.packet with | some x => x.done || x.stop | none => true
    let feeder := if held.isEmpty && whole then none else q.feeder
    let s := setQueue s qid { q with held, feeder, tickets := Map.set q.tickets k p.tk }
    if held.isEmpty then s else due s [.ticketPushSequenced qid]

/-- The image of a held push: the sequencer's own, or read from the stage's memory (R154, R445); `none` while it is on its way. -/
def pushImage (s : State) (qid : Nat) (q : Queue) (p : Push) : State × Except (Nat × Nat) (Option (List PByte)) :=
  match p.stage with
  | none => (s, .ok (some (clean p.image)))
  | some i =>
    match hubRead s .hub (hubKey qid) q.ctx (stageVa q i) 64 true with
    | (s, .ok bs) => (s, .ok (some bs))
    | (s, .error e) => (s, if e.1 = hubWaits then .ok none else .error e)

/-- A claimed push is published once its release may be performed (R107, R143, R339). -/
def publishPush (s : State) (qid : Nat) (x : Queue) (k : Nat) (p : Push) : State :=
  if releaseHeld s p.mask then due s [.ticketPushSequenced qid]
  else
    match pushImage s qid x p with
    | (s, .error e) => jamSequencer s qid e.1 e.2 k
    | (s, .ok none) => due s [.ticketPushSequenced qid]
    | (s, .ok (some image)) =>
      match publish (releaseNear s p.mask) byHub x qid k image p.mask with
      | (s, .failed c va) => jamSequencer s qid c va k
      | (s, .wait) => due s [.ticketPushSequenced qid]
      | (s, .done) => pushLeaves s qid k p

/-- TICKET_PUSH_SEQUENCED (R142, R153, R154, R445): the lowest open ticket is claimed, and published once there is room. -/
def execTicketPushSequenced (q : Nat) (s : State) : Host.Outcome State Fault Refusal :=
  match getQueue s q with
  | none => .next s
  | some x =>
    match x.held with
    | [] => .next s
    | p :: ps =>
      if x.jam || x.dying.isSome then .next s
      else
        match p.claimed with
        | none =>
          if !lowestTask s p.qid p.packet p.tk.ord then .next s
          else
            match claimIndex s x q with
            | (s, .error e) => .next (jamSequencer s q e.1 e.2 0)
            | (s, .ok none) => .next (due s [.ticketPushSequenced q])
            | (s, .ok (some k)) =>
              let s := match getQueue s q with
                | some y => setQueue s q { y with held := { p with claimed := some k } :: ps }
                | none => s
              .next (due s [.ticketPushSequenced q])
        | some k =>
          match roomFor s x q k with
          | (s, .error e) => .next (jamSequencer s q e.1 e.2 k)
          | (s, .ok false) => .next s
          | (s, .ok true) => .next (publishPush s q x k p)

end Sys2Proof.Machine
end

