-- ==== Sys2Proof/Machine/Packets.lean ====
section
/-! DEFINITION. What each packet kind does once it has started (R146 to R149, R156 to R158, R161 to R165). -/

namespace Sys2Proof.Machine

/-- A packet that runs: its queue and itself; nothing where it is over or waits for the others of a BLOOP's body. -/
def packetRun (s : State) (q k : Nat) (f : Queue → Packet → State) : Host.Outcome State Fault Refusal :=
  match getQueue s q, getPacket s q k with
  | some x, some p => if p.done || p.stop || p.held || p.job.res.isSome then .next s else .next (f x p)
  | _, _ => .next s

/-- The packet's event happens again later. -/
def again (s : State) (q : Nat) (p : Packet) : State := due s [packetEvent q p.k p.kind]

/-- A number of the body (R146): its lowest bit, counted from byte 0, and its width. -/
def body (p : Packet) (lo n : Nat) : Nat := bits (leNat p.bytes) lo n

/-- Store the work of a packet. -/
def setJob (s : State) (q : Nat) (p : Packet) (j : Job) : State := setPacket s q { p with job := j }

/-- Read blocks of 64 bytes of device memory for a packet (R146); a block that cannot be read ends it with `bad`. -/
def fetchBlocks (s : State) (q : Nat) (p : Packet) (acc : Accessor) (vas : List Nat) (bad : Nat → PRes)
    (done : State → List (List PByte) → State) : State :=
  let ag := packetAgent s q p.k acc p.job
  settleRun s p.k q (packetEvent q p.k p.kind)
    (vas.foldl
      (fun (x : Run × Except Nat (List (List PByte))) va =>
        match x.2 with
        | .error _ => x
        | .ok l =>
          match readDevice x.1 ag ag.ctx va 64 with
          | (r, _, some c) => (r, .error c)
          | (r, bs, none) => (r, .ok (l ++ [bs])))
      (Run.start s, .ok []))
    fun s y =>
      match y with
      | .error c => finishPacket s q p.k (bad c)
      | .ok l => done s l

/-- A stop with status FAULT and a cause. -/
def faultRes (cause : Nat) : PRes := bare 3 cause

/-! ### NOP and COPY (R146, R353) -/

/-- NOP completes at once. -/
def execPacketNop (q k : Nat) (s : State) : Host.Outcome State Fault Refusal :=
  packetRun s q k fun _ _ => finishPacket s q k (bare 1 0)

/-- A tensor that COPY and BCOPY do not take (R146). -/
def tooBig (rec : List PByte) : Bool :=
  match parseLay rec true with | .ok l => 1099511627776 ≤ l.count || 1099511627776 ≤ l.image | .error _ => false

/-- Whether a write line is on its way to a remote holder. -/
def anyStoreOut (s : State) : Bool := s.fab.lines.any fun l => l.data.isSome

/-- Whether a packet writes to a remote page (R120). -/
def remotePin (s : State) (owner : Nat × Nat) : Bool :=
  s.mmu.pins.any fun p => p.owner = owner && p.write && p.cause.isNone && hRes p.handle == 2

/-- COPY (R146, R352, R353). -/
def execPacketCopy (q k : Nat) (s : State) : Host.Outcome State Fault Refusal :=
  packetRun s q k fun _ p =>
    let acc : Accessor := .command 65535
    if p.job.recs.isEmpty then
      fetchBlocks s q p acc [body p 192 64, body p 128 64] faultRes fun s recs =>
        if recs.any tooBig then finishPacket s q k (bare 6 0)
        else
          let j := { p.job with recs }
          again (pinRecs (setJob s q p j) (packetAgent s q k acc j) j [true, false]) q p
    else if remotePin s (k, q) && anyStoreOut s then again s q p
    else
      settleRun s k q (packetEvent q k p.kind) (copyJob (Run.start s) (packetAgent s q k acc p.job) p.job p.base) fun s o =>
        finishPacket s q k o.res

/-! ### BCOPY (R156, R157) -/

/-- A packet of a BLOOP's body waits for its dependences within the iteration (R157); where a DESTROY finds a packet of the body stopped, the
body cannot go on and the packet is over (R141). -/
def bodyWaits (s : State) (q : Nat) (x : Queue) (p : Packet) (f : State) : State :=
  if p.inLoop.isNone || depsDone x p.k (leNat p.bytes) p.inLoop then f
  else if x.dying.isSome && x.packets.any fun b => b.stop && b.inLoop == p.inLoop then finishPacket s q p.k (bare 1 0)
  else again s q p

/-- The steps of the BLOOP whose body a packet lies in, at its iteration: SSTEP, DSTEP and PSTEP times it (R157). -/
def loopSteps (s : State) (q : Nat) (p : Packet) : Int × Nat × Nat :=
  match p.inLoop.bind (getPacket s q) with
  | some b => (sextN 64 (body b 192 64) * (p.iter : Nat), body b 256 32 * p.iter, body b 288 4 * p.iter)
  | none => (0, 0, 0)

/-- A record whose BASE is moved. -/
def moveBase (rec : List PByte) (d : Int) : List PByte :=
  let base := lowN 64 ((leVal (rec.take 8) : Int) + d)
  ((leBytes 8 base).zip ((rec.take 8).map (·.2))) ++ rec.drop 8

/-- The packed image of a tensor from an element on (R141, R352): its bytes, the elements read with those before, and the
cause of a stop. -/
def imageFrom (r : Run) (ag : Agent) (t : Side) (base : Nat) : Run × List PByte × Nat × Option Nat :=
  let offs := t.lay.offs
  let x := readElems r ag t (offs.drop base)
  let bs := packElems (codeWidth t.lay.fmt) x.2.1
  if x.2.2.isSome || !mxFmt t.lay.fmt then (x.1, bs, base + x.2.1.length, x.2.2)
  else
    let firsts := (List.range offs.length).filter fun i => blockFirst (max 1 (lget t.lay.ext 0 1)) i == i
    let y := readScales x.1 ag t offs.toArray firsts
    let n := packedBytes t.lay.fmt t.lay.count
    let pad := List.replicate ((n + 63) / 64 * 64 - n) ((0, false) : PByte)
    let sc := y.2.1.map fun v => ((BitVec.ofNat 8 v.1, v.2) : PByte)
    (y.1, bs ++ pad ++ sc, if y.2.2.isSome then lget firsts sc.length 0 else offs.length, y.2.2)

/-- Where the data of a BCOPY lands from an element on, and its barrier (R146, R156, R157). -/
def bcopyOff (s : State) (q : Nat) (p : Packet) (skip : Nat) : Nat := (body p 192 22 + (loopSteps s q p).2.1 + skip) % 4194304
def bcopyBar (p : Packet) : Option Nat := if bit (leNat p.bytes) 255 then some (body p 224 22) else none

/-- The landings of a BCOPY (R156). -/
def bcopyLand (s : State) (q ctx : Nat) (p : Packet) (skip : Nat) (bs : List PByte) : State :=
  if bs.isEmpty then s
  else
    due s (p.cores.map fun c =>
      .beaconMulticastLanding ctx c { off := bcopyOff s q p skip, data := bs, bar := bcopyBar p, rest := 0, pois := false })

/-- Whether a landing of a BCOPY is still to come. -/
def bcopyOut (s : State) (ctx : Nat) (p : Packet) : Bool :=
  s.agenda.any fun e => match e with
    | .beaconMulticastLanding c core d => c == ctx && p.cores.contains core && d.bar == bcopyBar p
    | _ => false

/-- BCOPY (R102, R146, R156, R157): the source is read once and lands in every core of the set. -/
def execPacketBcopy (q k : Nat) (s : State) : Host.Outcome State Fault Refusal :=
  packetRun s q k fun x p =>
    bodyWaits s q x p <|
      match p.job.sent with
      | some res => if bcopyOut s x.ctx p then again s q p else finishPacket s q k res
      | none =>
        if p.job.recs.isEmpty then
          fetchBlocks s q p .beacon [body p 128 64] (fun c => nearStop c 0 0 false) fun s recs =>
            if recs.any tooBig then finishPacket s q k (bare 6 0)
            else
              let j := { p.job with recs := recs.map fun r => moveBase r (loopSteps s q p).1 }
              again (pinRecs (setJob s q p j) (packetAgent s q k .beacon j) j [false]) q p
        else
          let ag := packetAgent s q k .beacon p.job
          let rec' := jobRec p.job 0
          match tensorOf s ag rec' 0 with
          | .error c => finishPacket s q k (faultRes c)
          | .ok t =>
            if wrongClass s ag t then finishPacket s q k (faultRes causeFormat)
            else
              let b0 := if codeWidth t.lay.fmt = 4 then p.base / 2 * 2 else p.base
              let base := min b0 t.lay.count
              settleRun s k q (packetEvent q k p.kind) (imageFrom (Run.start s) ag t base) fun s y =>
                let pois := anyPois y.1
                let b := imageOf t.lay y.2.1
                let res := match y.2.2 with
                  | some c => nearStop c b y.2.1 pois
                  | none => resOf none b y.2.1 pois
                let s := setJob s q p { p.job with sent := some res }
                again (bcopyLand s q x.ctx p (packedBytes t.lay.fmt base) y.1) q p

/-- BEACON_MULTICAST_LANDING (R97, R156): a burst lands in a core that runs a task of the context. -/
def execBeaconMulticastLanding (ctx core : Nat) (d : Delivery) (s : State) : Host.Outcome State Fault Refusal :=
  match (getCore s core).task with
  | some t => .next (if t.ctx = ctx then land s core d else s)
  | none => .next s

/-! ### Near-memory packets (R361, R363, R365) -/

/-- The descriptor of an NMQ, NMR or COLL packet: read once, with the task of CORE. -/
def fetchDesc (s : State) (q : Nat) (x : Queue) (p : Packet) (take : State → Job → State) : State :=
  fetchBlocks s q p .hub [body p 128 64] (fun c => nearStop c 0 0 false) fun s recs =>
    let d := lget recs 0 []
    if anyPois d then finishPacket s q p.k (faultRes causePoison)
    else
      match targetOf s x.ctx (dCore (leVal d)) with
      | none => finishPacket s q p.k (faultRes causeState)
      | some t => take s { p.job with recs, targets := [t], got := [] }

/-- What acceptance comes to: the packet goes on, or its barrier is settled and it ends. -/
def taken (s : State) (q : Nat) (p : Packet) (j : Job) (bar : Option Nat) (want : Nat) : State :=
  match j.res, j.targets with
  | some r, t :: _ =>
    finishPacket (if want = 0 then s else (deliverTo s t { off := 0, data := [], bar, rest := want, pois := false }).1) q p.k r
  | _, _ => again (setJob s q p j) q p

/-- A result that lands in the task of CORE; one that has ended receives nothing. -/
def landAt (s : State) (j : Job) (d : Delivery) : State × Bool :=
  match j.targets with | t :: _ => deliverTo s t d | [] => (s, false)

/-- NMQ (R361, R362, R383). -/
def execPacketNmq (q k : Nat) (s : State) : Host.Outcome State Fault Refusal :=
  packetRun s q k fun x p =>
    if p.job.recs.isEmpty then
      fetchDesc s q x p fun s j =>
        let d := leVal (jobRec j 0)
        let r := takeQuery s (hubKey q) (packetAgent s q k (.candle (qStack d)) j) j true
        taken r.1 q p r.2 (qBar d) (if nmqBad d true then 0 else 8 + 4 * qDim d)
    else
      let d := leVal (jobRec p.job 0)
      let settle (s : State) : State := (landAt s p.job { off := 0, data := [], bar := qBar d, rest := 8 + 4 * qDim d, pois := false }).1
      match queryReady s (hubKey q) p.job with
      | (s, none) => again s q p
      | (s, some j) =>
        match j.res with
        | some r => finishPacket (settle s) q k r
        | none =>
          let s := setJob s q p j
          let ag := packetAgent s q k (.candle (qStack d)) j
          settleRun s k q (packetEvent q k p.kind) (queryJob (Run.start s) (hubKey q) ag (dProf d) j) fun s y =>
            if y.1.status = 1 then
              let r := landAt s j { off := qRoff d, data := y.2.1, bar := qBar d, rest := 0, pois := false }
              finishPacket r.1 q k (if r.2 then y.1 else faultRes causeState)
            else finishPacket (settle s) q k y.1

/-- NMR (R363, R364). -/
def execPacketNmr (q k : Nat) (s : State) : Host.Outcome State Fault Refusal :=
  packetRun s q k fun x p =>
    if p.job.recs.isEmpty then
      fetchDesc s q x p fun s j =>
        let d := leVal (jobRec j 0)
        let r := takeBags s (packetAgent s q k .hub j) j true
        taken r.1 q p r.2 (rBar d) 0
    else
      let d := leVal (jobRec p.job 0)
      let n := p.job.units
      if rNbag d ≤ n then
        finishPacket s q k { status := 1, cause := 0, bytes := p.job.bytes, elems := n, pois := p.job.pois, crc := none }
      else
        settleRun s k q (packetEvent q k p.kind) (bagJob (Run.start s) (packetAgent s q k .hub p.job) (dProf d) p.job n)
          fun s y =>
            match y with
            | .error c =>
              let s := (landAt s p.job { off := 0, data := [], bar := rBar d, rest := bagsWant d - p.job.bytes, pois := false }).1
              finishPacket s q k (nearStop c p.job.bytes n p.job.pois)
            | .ok (bs, _) =>
              let r := landAt s p.job { off := bagOff d n, data := bs, bar := rBar d, rest := 0, pois := false }
              if !r.2 then finishPacket r.1 q k { faultRes causeState with bytes := p.job.bytes, elems := n, pois := p.job.pois }
              else
                again (setJob r.1 q p { p.job with units := n + 1, bytes := p.job.bytes + bs.length
                                                   pois := p.job.pois || anyPois bs }) q p

/-- Pin what a COLL packet's records touch. -/
def pinColl (s : State) (ag : Agent) (j : Job) (part : Bool) : State :=
  let s := if part then s else
    match collTensor s ag (jobRec j 1) 0 with | .ok t => pinSide s ag t false none | .error _ => s
  match collTensor s ag (jobRec j 2) 0 with | .ok t => pinSide s ag t true none | .error _ => s

/-- COLL (R365 to R369). -/
def execPacketColl (q k : Nat) (s : State) : Host.Outcome State Fault Refusal :=
  packetRun s q k fun x p =>
    let acc : Accessor := .command 65535
    if p.job.recs.isEmpty then
      fetchDesc s q x p fun s j =>
        let d := leVal (jobRec j 0)
        if collBad d true then finishPacket s q k (faultRes causeLayout)
        else
          let ag := packetAgent s q k acc j
          let a := readSpad (Run.start s) ag (cSrec d) 64
          let b := readSpad a.1 ag (cDrec d) 64
          let j := { j with recs := j.recs ++ [a.2, b.2] }
          again (pinColl (setJob b.1.s q p j) ag j (cPart d)) q p
    else
      let d := leVal (jobRec p.job 0)
      if p.job.units = 1 then due s [.collectiveResult (cGid d)]
      else
        match p.job.targets with
        | [] => finishPacket s q k (faultRes causeState)
        | t :: _ =>
          if (targetCore s t).isNone then
            if targetSaved s t then again s q p else finishPacket s q k (faultRes causeState)
          else
            settleRun s k q (packetEvent q k p.kind) (arrivalJob (Run.start s) (packetAgent s q k acc p.job) (dProf d) p.job)
              fun s y => due (setJob s q p { p.job with units := 1 }) [.prismCollectiveArrival y.1]

/-! ### SIGNAL and WAIT (R147) -/

/-- Where a signal word lies: its handle, or the status that refuses it (R147). -/
def signalPlace (s : State) (ctx va : Nat) (write : Bool) : Except PRes (BitVec 128) :=
  let refused : PRes := bare 4 causeOwnership
  match hubTranslate s ctx va with
  | .no _ => .error (faultRes causeNotPresent)
  | .ok leaf size addr =>
    let h := mkHandle (.ok leaf size addr) ctx va
    if (write && !hWr h) || (permit s .hub ctx va 8 write true).1 ≠ .yes then .error refused
    else if hRes h = 2 then
      match windowTarget s (hFrame h) va 8 with
      | none => .error (faultRes causeNotPresent)
      | some (w, _) => if bit w.w0.toNat 62 then .error refused else .ok h
    else
      match regionAt s ctx va with
      | some (_, r) => if rMode r = 3 then .ok h else .error refused
      | none => .error refused

/-- How a signal access at a peer ends (R124, R147): its word, or what stops the packet. -/
def gotWord (g : Got) : Except PRes Nat :=
  if g.late then .error (faultRes causeTimeout)
  else match g.st with
    | .ownership => .error (bare 4 causeOwnership)
    | .notPresent _ => .error (faultRes causeNotPresent)
    | .ok => if anyPois g.data then .error (faultRes causePoison) else .ok (leVal g.data)

/-- A signal access of a packet goes to a peer once (R124); it waits for the writes before it (R120). -/
def signalRemote (s : State) (q : Nat) (p : Packet) (h : BitVec 128) (va op : Nat) (data : Option (List PByte)) : State :=
  if s.fab.lines.any fun l => l.use = .command p.k q va then s
  else if anyStoreOut s then again s q p
  else
    match windowTarget s (hFrame h) va 8 with
    | none => finishPacket s q p.k (faultRes causeNotPresent)
    | some (w, t) =>
      if unreachable s (bits w.w2.toNat 48 16) then finishPacket s q p.k (faultRes causeNotPresent)
      else sendLine s w t 8 data op (.command p.k q va) va (handlePage h)

/-- SIGNAL (R147): one strong atomic with .rel and its MASK, then ntall where NOTIFY asks for it. -/
def execPacketSignal (q k : Nat) (s : State) : Host.Outcome State Fault Refusal :=
  packetRun s q k fun x p =>
    let va := body p 128 64
    let v := body p 192 64
    let op := body p 256 2
    let notify := bit (leNat p.bytes) 258
    let mask : BitVec 6 := if body p 264 6 = 0 then 7 else BitVec.ofNat 6 (body p 264 6)
    bodyWaits s q x p <|
      match signalPlace s x.ctx va true with
      | .error r => finishPacket s q k r
      | .ok h =>
        if hRes h = 2 then
          match p.job.got with
          | g :: _ => finishPacket s q k (match gotWord g with | .error r => r | .ok _ => bare 1 0)
          | [] => signalRemote s q p h va (op + if notify then 20 else 16) (some (clean (leBytes 8 v)))
        else if releaseHeld s mask then again s q p
        else
          match strongLocal s byHub false 0 h va 8 true true (fun old => some (signalNew op old v)) mask with
          | (s, .done _) => finishPacket (if notify then wakeDevice s (wordKey h va) true else s) q k (bare 1 0)
          | (s, .poisoned _) => finishPacket s q k (faultRes causePoison)
          | (s, _) => again s q p

/-- COND of a WAIT (R146). -/
def waitCond (cond w v : Nat) : Bool :=
  match cond with | 0 => w == v | 1 => w ≠ v | 2 => v ≤ w | _ => w < v

/-- WAIT (R147): it completes once COND holds, and reads the word again until then. -/
def execPacketWait (q k : Nat) (s : State) : Host.Outcome State Fault Refusal :=
  packetRun s q k fun x p =>
    let va := body p 128 64
    let ends (s : State) (w : Nat) : State :=
      if waitCond (body p 256 2) w (body p 192 64) then finishPacket s q k (bare 1 0) else again s q p
    match signalPlace s x.ctx va false with
    | .error r => finishPacket s q k r
    | .ok h =>
      if hRes h = 2 then
        match p.job.got with
        | g :: _ =>
          match gotWord g with
          | .error r => finishPacket s q k r
          | .ok w => ends (setJob s q p { p.job with got := [] }) w
        | [] => signalRemote s q p h va 24 none
      else
        match handleRead s h va 8 with
        | (s, .data bs) => if anyPois bs then finishPacket s q k (faultRes causePoison) else ends s (leVal bs)
        | (s, .remote) => again s q p

/-! ### MARKER (R148) -/

/-- MARKER: a checksum of a tensor, or nothing. -/
def execPacketMarker (q k : Nat) (s : State) : Host.Outcome State Fault Refusal :=
  packetRun s q k fun _ p =>
    let acc : Accessor := .command 65535
    let va := body p 128 64
    if va = 0 then finishPacket s q k (bare 1 0)
    else if p.job.recs.isEmpty then
      fetchBlocks s q p acc [va] faultRes fun s recs =>
        let j := { p.job with recs }
        again (pinRecs (setJob s q p j) (packetAgent s q k acc j) j [false]) q p
    else
      settleRun s k q (packetEvent q k p.kind) (sumJob (Run.start s) (packetAgent s q k acc p.job) p.job) fun s o =>
        finishPacket s q k o.res

/-! ### LAUNCH (R161 to R165) -/

/-- A loop-nest record as captured, from its 1,024 bits (R162, R163). -/
def parseNest (x : Nat) : NestRec :=
  let rank := bits x 88 3
  let slot (j : Nat) : Nat := bits x (512 + 128 * j) 128
  { entry := BitVec.ofNat 64 (bits x 0 52), npdef := bits x 116 6, gang := bits x 96 16, pken := bit x 95
    pkey := bits x 92 3, rank, dir := bits x 82 6, order := (List.range rank).map fun i => bits x (64 + 3 * i) 3
    gmapoff := bits x 160 22, gmapen := bit x 159, liveoff := bits x 224 22, livelen := bits x 192 23
    ext := (List.range 6).map fun d => bits x (256 + 32 * d) 25
    binds := ((List.range 4).filter fun j => bit (slot j) 63).map fun j =>
      (bits (slot j) 48 12, [bits (slot j) 0 12, bits (slot j) 12 12, bits (slot j) 24 12, bits (slot j) 36 12
                             , bits (slot j) 64 12, bits (slot j) 76 12]) }

/-- A loop-nest record is malformed (R162 to R164), translation of ENTRY apart. -/
def nestBad (x : Nat) (strict : Bool) : Bool :=
  let r := parseNest x
  let z (lo n : Nat) : Bool := bits x lo n == 0
  let slotBad (j : Nat) : Bool :=
    let y := bits x (512 + 128 * j) 128
    if bit y 63 then bits y 60 3 ≠ 0 || bits y 88 40 ≠ 0 else y ≠ 0
  !(z 52 12 && z 122 6 && z 112 4 && z 91 1 && z 182 10 && z 160 6 && z 128 31 && z 246 10 && z 215 9 && z 448 64 && z 0 2)
  || (List.range 6).any (fun d => bits x (281 + 32 * d) 7 ≠ 0 || 16777216 < lget r.ext d 1)
  || (List.range 4).any slotBad || r.rank = 0 || r.rank = 7
  || (List.range r.rank).any (fun i => !r.order.contains i)
  || (List.range 6).any (fun i => r.rank ≤ i && (bits x (64 + 3 * i) 3 ≠ i || bit r.dir i || lget r.ext i 1 ≠ 1))
  || r.gang = 0 || 4 ≤ r.npdef || (r.pken && (r.rank ≤ r.pkey || (strict && r.pkey ≠ lget r.order (r.rank - 1) 0)))
  || 4194304 < r.liveoff + r.livelen

/-- A LAUNCH with its record read (R164, R165). -/
def startLaunch (s : State) (q k : Nat) (x : Queue) (p : Packet) (rec : List PByte) : State :=
  let w := leVal rec
  let r := parseNest w
  let t := r.ext.foldl (· * ·) 1
  let ends (st : Nat) : State := finishPacket s q k (bare st 0)
  let unmapped := match hubTranslate s x.ctx r.entry.toNat with | .ok _ _ _ => false | .no _ => true
  if anyPois rec || nestBad w (x.dmode = 0) || unmapped then ends 6
  else if 4294967297 ≤ t then ends 7
  else if 1280 < r.gang then ends 8
  else if t = 0 then ends 2
  else
    let l : Launch := { rec' := r, t, nextOrd := 0, committed := 0, stop := none, units := [], saved := [], bound := [], time := s.time }
    due (setPacket s q { p with launch := some l }) [.dispatch]

/-- How a LAUNCH ends whose record cannot be read (R124, R164): it is malformed where the record does not translate, and stopped where the region
table or the holder refuses it. -/
def recordFails (s : State) (ctx cause va : Nat) : PRes :=
  if cause = causeOwnership then bare 4 causeOwnership
  else match hubTranslate s ctx va with
    | .no _ => bare 6 0
    | .ok _ _ _ => faultRes cause

/-- LAUNCH (R123, R161): its loop-nest record is read once, on a remote page through its holder. -/
def execPacketLaunch (q k : Nat) (s : State) : Host.Outcome State Fault Refusal :=
  packetRun s q k fun x p =>
    if p.launch.isSome then s
    else
      match hubRead s .hub (hubKey q) x.ctx (body p 128 64) 128 true with
      | (s, .error e) => if e.1 = hubWaits then again s q p else finishPacket s q k (recordFails s x.ctx e.1 e.2)
      | (s, .ok rec) => startLaunch s q k x p rec

/-! ### BLOOP and BWAIT (R157, R158) -/

/-- The body of a BLOOP: the packets before it that BACK reaches. -/
def bloopBody (x : Queue) (k back : Nat) : List Packet := x.packets.filter fun p => p.k < k && k ≤ p.k + back

/-- BLOOP (R157): its body is that of R157, or the packet is malformed. -/
def execPacketBloop (q k : Nat) (s : State) : Host.Outcome State Fault Refusal :=
  packetRun s q k fun x p =>
    if p.bloop.isSome then s
    else
      let back := body p 160 8
      let ps := bloopBody x k back
      if k < x.ridx + back || k < x.first + back || ps.length ≠ back || ps.any fun b => !beaconKind b.kind then
        releaseBody (finishPacket s q k (bare 6 0)) q (ps.filter (·.held))
      else
        let s := setPacket s q { p with bloop := some (body p 128 32, back) }
        let s := ps.foldl (fun s b => setPacket s q { b with inLoop := some k, held := b.held || b.done, done := false }) s
        due s [.bloopIteration q k]

/-- BLOOP_ITERATION (R157): once every packet of the body is over, the next iteration starts, or all complete together. -/
def execBloopIteration (q k : Nat) (s : State) : Host.Outcome State Fault Refusal :=
  match getQueue s q, getPacket s q k with
  | some x, some p =>
    match p.bloop with
    | none => .next (if p.job.res.isSome then releaseBody s q (x.packets.filter fun b => b.held && decide (b.k < k)) else s)
    | some (count, back) =>
      let ps := (bloopBody x k back).filter fun b => b.inLoop = some k
      if p.job.res.isSome || ps.any fun b => !b.held && !b.stop then .next s
      else if ps.any (·.stop) then
        .next (if x.dying.isNone then s
          else (p :: ps.filter (·.held)).foldl (fun s b => setPacket s q { b with held := false, done := true }) s)
      else if p.iter + 1 < count then
        let s := setPacket s q { p with iter := p.iter + 1 }
        let s := ps.foldl (fun s b => setPacket s q { b with iter := p.iter + 1, held := false, job := .empty, base := 0 }) s
        .next (due s (ps.map fun b => packetEvent q b.k b.kind))
      else .next (finishPacket (releaseBody s q ps) q k (bare 1 0))
  | _, _ => .next s

/-- Whether a barrier of a core holds a phase: none where the core runs no task of the context, or its grain's poison. -/
def phaseAt (s : State) (ctx core off : Nat) : State × Option (Nat × Bool) :=
  match (getCore s core).task with
  | none => (s, none)
  | some t =>
    if t.ctx ≠ ctx then (s, none)
    else
      let r := spadSeen { s with core, word := none } off 16
      ({ r.1 with core := s.core, word := s.word }, some ((Barrier.ofNat (leVal r.2.1)).phase, anyPois r.2.1))

/-- BWAIT (R157, R158): STOP holds it until RESUME. One that reads a poisoned barrier ends with status FAULT and cause POISON, which the spec
says of a signal word only (R147, log 101). -/
def execPacketBwait (q k : Nat) (s : State) : Host.Outcome State Fault Refusal :=
  packetRun s q k fun x p =>
    bodyWaits s q x p <|
      if x.byStop then again s q p
      else
        let want := (body p 168 4 + (loopSteps s q p).2.2) % 16
        let r := p.cores.foldl
          (fun (r : State × Bool × Bool) c =>
            match phaseAt r.1 x.ctx c (body p 128 22) with
            | (s, none) => (s, false, r.2.2)
            | (s, some (ph, bad)) => (s, r.2.1 && ph == want, r.2.2 || bad))
          (s, true, false)
        if r.2.2 then finishPacket r.1 q k (faultRes causePoison)
        else if r.2.1 then finishPacket r.1 q k (bare 1 0)
        else again r.1 q p

end Sys2Proof.Machine
end

