-- ==== Sys2Proof/Machine/Dispatcher.lean ====
section
/-! DEFINITION. The dispatcher's events: placing units and ageing (R178 to R181), the commit of a task (R119, R176), pre-emption
and the context save (R402 to R408), and soft errors in control state (R410). -/

namespace Sys2Proof.Machine

/-- Launches that nothing runs for any more end (R174, R177). -/
def endLaunches (s : State) : State :=
  s.queues.foldl (fun s q => (launches q.2).foldl (fun s l => launchCheck s q.1 l.1) s) s

/-- The queues that wait with a ready unit below level 7 age (R179); a queue without a ready unit starts anew. -/
def ageQueues (s : State) : State :=
  s.queues.foldl
    (fun s q =>
      match readyNeed s q.1 q.2 with
      | none => if q.2.aged = 0 then s else setQueue s q.1 { q.2 with aged := 0 }
      | some _ => if level q.2 < 7 && !s.agenda.contains (.ageingStep q.1) then due s [.ageingStep q.1] else s)
    s

/-- DISPATCH (R180): units are placed, cores reserved or victims pre-empted; nothing before the device is ready (R428). -/
def execDispatch (s : State) : Host.Outcome State Fault Refusal :=
  if !s.mgmt.ready then .next s else .next (ageQueues (endLaunches (dispatchLoop s 1281)))

/-- AGEING_STEP (R179): an ageing period has passed for a queue that still holds a ready unit. -/
def execAgeingStep (q : Nat) (s : State) : Host.Outcome State Fault Refusal :=
  match getQueue s q with
  | none => .next s
  | some x =>
    match readyNeed s q x with
    | none => .next (setQueue s q { x with aged := 0 })
    | some _ => .next (due (setQueue s q { x with aged := x.aged + 1 }) [.dispatch])

/-- Once no member of a gang runs, a damaged save of it is discarded (R408). -/
def damagedGang (s : State) (t : Task) : State :=
  match getLaunch s t.qid t.packet with
  | none => s
  | some l =>
    if l.units.any fun u => u.gang = t.gang then s
    else if l.saved.any fun u => u.1.gang = t.gang && u.2.any fun v => v.dmg ≠ 0 then discardDamaged s t
    else s

/-- TASK_COMMIT (R119, R176): every word is done; what the plain-access buffer holds is written back, and once that has landed the
task commits. -/
def execTaskCommit (core : Nat) (s : State) : Host.Outcome State Fault Refusal :=
  let k := getCore s core
  match k.task with
  | none => .next s
  | some t =>
    if !k.ending || !allDone k then .next s
    else
      let s := writeBackAll s core
      .next (if storesOut s core then s else damagedGang (commitTask s core) t)

/-- Whether a pre-emption of a core's unit has been asked for (R181). -/
def unitSaving (s : State) (t : Task) : Bool :=
  match getLaunch s t.qid t.packet with
  | some l => l.units.any fun u => u.gang = t.gang && u.saving
  | none => false

/-- The halt of a pre-empted core (R402): its words wait, and its sleepers leave their lists with no effect; a waitv that a notify has woken
is no sleeper any more and completes (R117). -/
def holdCore (s : State) (core : Nat) : State :=
  let k := getCore s core
  let late := woken s core
  let wake (w : QWord) : QWord := { w with asleep := late && w.asleep }
  let k := { k with sleepers := [], iss := { k.iss with hold := true, queues := k.iss.queues.map fun q => q.map wake } }
  { setCore s core k with sleepers := s.sleepers.filter fun p => p.2 ≠ core }

/-- PREEMPT_REQUEST_ARRIVE (R402): the core halts; a trap that waits is taken first, and a task whose end has issued commits (R255). -/
def execPreemptRequestArrive (core : Nat) (s : State) : Host.Outcome State Fault Refusal :=
  let k := getCore s core
  match k.task with
  | none => .next s
  | some t =>
    if !unitSaving s t || k.halting || k.ending then .next s
    else if k.iss.trap.isSome then .next (due s [.preemptRequestArrive core])
    else .next (holdCore s core)

/-- Words that the save finds waiting give up what they hold (R402): they start again at restore. -/
def dropHeld (k : Core) : Core :=
  { k with fetched := [], iss := { k.iss with queues := k.iss.queues.map fun q => q.map fun w => { w with held := none } } }

/-- CONTEXT_SAVE (R175, R403 to R408): a halted core whose work has drained is saved once its plain stores have landed; `dmg` grains were
found damaged. The dispatcher looks again, for a core is free (R180). -/
def execContextSave (core : Nat) (dmg : Nat) (s : State) : Host.Outcome State Fault Refusal :=
  let k := getCore s core
  match k.task with
  | none => .next s
  | some t =>
    if !k.iss.hold || k.halting || !drained k || woken s core then .next s
    else
      let s := writeBackAll s core
      .next (if storesOut s core then s
        else due (damagedGang (flushNear (saveMember (setCore s core (dropHeld (getCore s core))) core dmg)) t) [.dispatch])

/-- LOGIC_SOFT_ERROR (R410): the task halts with an error record of kind LOGIC, without vectoring. -/
def execLogicSoftError (core : Nat) (s : State) : Host.Outcome State Fault Refusal := .next (haltTask s core 3)

end Sys2Proof.Machine
end

