-- ==== Sys2Proof/Machine/Fabric.lean ====
section
/-! DEFINITION. The links: unreachable devices (R376, R421), inbound RDMA and Fylvathen accesses (R33, R413, R419), and the ports
(R416 to R418, R420, R422). -/

namespace Sys2Proof.Machine

/-! ### Reachability (R420, R421) -/

/-- A port of the device. -/
def getPort (s : State) (p : Nat) : Port := Map.get .reset s.fab.ports p

def setPort (s : State) (p : Nat) (x : Port) : State := { s with fab := { s.fab with ports := Map.set s.fab.ports p x } }

/-- A port may carry flits. -/
def portLive (s : State) (p : Nat) : Bool := (getPort s p).up && !(getPort s p).lanes.isEmpty

/-- The ports of the routing-table entry of a device, lowest first. -/
def routePorts (s : State) (dev : Nat) : List Nat :=
  (List.range 36).filter fun p => (Map.get 0 s.fab.routes dev).getLsbD p

/-- Every port of the entry of a device is down. -/
def allDown (s : State) (dev : Nat) : Bool := (routePorts s dev).all fun p => !portLive s p

/-- A flit of a device has arrived (R421): its silence ends, and it is reachable again where a port of its entry is up. -/
def heard (s : State) (dev : Nat) : State :=
  let s := { s with fab := { s.fab with timeouts := Map.erase s.fab.timeouts dev } }
  if unreachable s dev && !allDown s dev then
    { s with fab := { s.fab with lost := s.fab.lost.filter (· ≠ dev) }, mgmt := { s.mgmt with log := s.mgmt.log ++ [.link dev] } }
  else s

/-- DEVICE_UNREACHABLE (R421): a device whose ports are all down, or which has been silent eight times, is lost. -/
def execDeviceUnreachable (dev : Nat) (s : State) : Host.Outcome State Fault Refusal :=
  if unreachable s dev || !(allDown s dev || 8 ≤ Map.get 0 s.fab.timeouts dev) then .next s
  else .next (due { s with fab := { s.fab with lost := s.fab.lost ++ [dev] } } [.holderLostUpdate dev])

/-- The channel of what the position-map engine reads of its entries (R123, R376). -/
def engineKey : Nat := hubKey 8192

/-- The registered entries: context and address (R375, R376). -/
def mapEntries (s : State) : List (Nat × Nat) :=
  s.ranges.flatMap fun r =>
    ((List.range (r.len / 32)).map fun i => (r.ctx, (r.va + 31) / 32 * 32 + 32 * i)).filter fun e => e.2 + 32 ≤ r.va + r.len

/-- Whether an entry's HOLDER names a device. -/
def heldBy (s : State) (dev : Nat) (e : Nat × Nat) : Bool :=
  match hubRead s .hub engineKey e.1 e.2 32 true with
  | (_, .ok bs) => !anyPois bs && bits (leVal bs) 160 16 == dev
  | (_, .error _) => false

/-- What lies on remote pages of the entries is asked for; whether some is still on its way. -/
def entriesComing (s : State) : State × Bool :=
  (mapEntries s).foldl (fun r e => let x := hubComing r.1 .hub engineKey e.1 e.2 32 true; (x.1, r.2 || x.2)) (s, false)

/-- An entry of a lost holder: LOST is set and GEN counts on, each by a strong atomic with .rel and the full mask (R376). -/
def loseEntry (s : State) (e : Nat × Nat) : State :=
  match hubRead s .hub engineKey e.1 e.2 32 true with
  | (s, .ok bs) =>
    let x := leVal bs
    let gen := bits x 96 32 * 2 ^ 32 + (entryGen x + 1) % 2 ^ 32
    let flags := bits x 128 63 + 2 ^ 63
    let s := (hubWrite s .hub e.1 (e.2 + 16) (clean (leBytes 8 flags)) true 4096).1
    let s := hubRelease s byHub e.1 (e.2 + 16) 8 63 true
    let s := (hubWrite s .hub e.1 (e.2 + 8) (clean (leBytes 8 gen)) true 4096).1
    hubRelease s byHub e.1 (e.2 + 8) 8 63 true
  | (s, .error _) => s

/-- HOLDER_LOST_UPDATE (R376): every registered entry of the holder is marked, then the event is logged. It waits for entries on remote pages
(R123), for the promotion of a shade page (R130) and for what its releases cover (R107). -/
def execHolderLostUpdate (dev : Nat) (s : State) : Host.Outcome State Fault Refusal :=
  let c := entriesComing s
  if c.2 || releaseHeld s 63 then .next (due c.1 [.holderLostUpdate dev])
  else
    let s := c.1
    let es := (mapEntries s).filter (heldBy s dev)
    let wait := es.filter fun e => hubWriteCheck s .hub e.1 e.2 32 true = .wait
    if !wait.isEmpty then .next (due (wait.foldl (fun s e => promote s e.1 e.2) s) [.holderLostUpdate dev])
    else
      let s := flushNear (es.foldl loseEntry s)
      let s := (mapEntries s).foldl (fun s e => dropLines s engineKey e.2 32) s
      .next { s with mgmt := { s.mgmt with log := s.mgmt.log ++ [.holderLost dev] } }

/-! ### Inbound accesses (R33, R123) -/

/-- What an inbound access comes to: refused without effect (with the CAUSE of R23), to be tried again, or done with its bytes. -/
inductive Inbound where
  | refused (st : LineStatus)
  | wait
  | done (data : List PByte)
  deriving DecidableEq, Repr

/-- The agent of an inbound access: what it needs of a remote page comes to its channel. -/
def inboundAgent (s : State) (key ctx : Nat) (acc : Accessor) : Agent :=
  { owner := (key, 4098), acc, ctx, core := 65535, word := none, qid := 4096, got := Map.get [] s.fab.inbound key }

/-- The checks of R33, through the TLBs of the dies (R20): the first page that does not translate or is refused. -/
def inboundCheck (s : State) (key : Nat) (acc : Accessor) (ctx va n : Nat) (write : Bool) : State × Option LineStatus :=
  (ranges 65536 (n / 65536 + 2) va n).foldl
    (fun e q =>
      match e.2 with
      | some _ => e
      | none =>
        let t := agentTranslate e.1 (inboundAgent e.1 key ctx acc) ctx q.1 write
        let h := t.2
        if hRes h = 3 then (t.1, some (.notPresent (hCause h)))
        else if (write && !hWr h) || (permit t.1 acc ctx q.1 q.2 write false).1 ≠ .yes then (t.1, some .ownership)
        else if hRes h = 2 && (windowTarget t.1 (hFrame h) q.1 q.2).isNone then (t.1, some (.notPresent 1))
        else (t.1, none))
    (s, none)

/-- The lines that an inbound access has got are used up. -/
def dropGot (s : State) (key : Nat) : State := { s with fab := { s.fab with inbound := Map.erase s.fab.inbound key } }

/-- The status of a cause of R151 as an answer (R33): a silent holder's data is not present. -/
def statusOf (cause : Nat) : LineStatus := if cause = causeOwnership then .ownership else .notPresent 1

/-- The status that a holder's line gave an access that goes on to it (R33, R124). -/
def passedOn (got : List Got) (cause : Nat) : LineStatus :=
  match got.find? fun g => g.st ≠ .ok && !g.late with
  | some g => g.st
  | none => statusOf cause

/-- An inbound read (R33, R123): pages of this device are read, remote ones through their holders. -/
def inboundRead (s : State) (key ctx va n : Nat) : State × Inbound :=
  match inboundCheck s key .inbound ctx va n false with
  | (s, some e) => (s, .refused e)
  | (s, none) =>
    let ag := inboundAgent s key ctx .inbound
    let r := readDevice (Run.start s) ag ctx va n
    if !r.1.miss.isEmpty then (askLines s key 4098 r.1.miss, .wait)
    else
      match r.2.2 with
      | some c => (dropGot r.1.s key, .refused (passedOn ag.got c))
      | none => (dropGot r.1.s key, .done r.2.1)

/-- Whether an address lies in a SYNC region. -/
def syncAt (s : State) (ctx va : Nat) : Bool :=
  match regionAt s ctx va with | some (_, r) => rMode r == 3 | none => false

/-- Whether a range touches a SYNC region, so that its write releases with the full mask (R121). -/
def inSync (s : State) (ctx va n : Nat) : Bool := (ranges 65536 (n / 65536 + 2) va n).any fun q => syncAt s ctx q.1

/-- Each aligned 8 bytes of an inbound write to a SYNC region are a strong access with .ar and the full mask (R121). -/
def syncRelease (s : State) (who ctx va n : Nat) : State :=
  (ranges 8 (n / 8 + 2) va n).foldl (fun s q => if syncAt s ctx q.1 then hubRelease s who ctx q.1 q.2 63 false else s) s

/-- An inbound write (R33, R121, R123): no byte is written unless all may be; a shade page is promoted first, and a write to a SYNC region is
performed once what it covers has been acknowledged (R107). -/
def inboundWrite (s : State) (who key ctx va : Nat) (bs : List PByte) : State × Inbound :=
  match inboundCheck s key .inbound ctx va bs.length true with
  | (s, some e) => (s, .refused e)
  | (s, none) =>
    let pages := (ranges 65536 (bs.length / 65536 + 2) va bs.length).map (·.1)
    if pages.any fun a => movingAt s ctx a || shadeAt s ctx a then (pages.foldl (fun s a => promote s ctx a) s, .wait)
    else if inSync s ctx va bs.length then
      if releaseHeld s 63 then (s, .wait)
      else
        let r := writeDevice (Run.start s) (inboundAgent s key ctx .inbound) ctx va bs
        (flushNear (syncRelease r.s who ctx va bs.length), .done [])
    else ((writeDevice (Run.start s) (inboundAgent s key ctx .inbound) ctx va bs).s, .done [])

/-- An inbound atomic at this holder, or passed on whole to the holder of a remote page (R121, R123, R334): `f` gives the new
value. -/
def inboundAtomic (s : State) (who key ctx va n op : Nat) (data : List Byte) (f : Nat → Option Nat) (signal : Bool) :
    State × Inbound :=
  let writes := op < 12 || 16 ≤ op
  match inboundCheck s key .inboundAtomic ctx va n writes with
  | (s, some e) => (s, .refused e)
  | (s, none) =>
    let t := agentTranslate s (inboundAgent s key ctx .inboundAtomic) ctx va writes
    let s := t.1
    let h := t.2
    if hRes h = 2 then
      match Map.get [] s.fab.inbound key with
      | g :: _ => (dropGot s key, if g.late then .refused (.notPresent 1) else if g.st = .ok then .done g.data else .refused g.st)
      | [] =>
        if s.fab.lines.any fun l => l.use = .command key 4098 va then (s, .wait)
        else
          match windowTarget s (hFrame h) va n with
          | none => (s, .refused (.notPresent 1))
          | some (w, t) => (sendLine s w t n (some (clean data)) op (.command key 4098 va) va (handlePage h), .wait)
    else if signal && !inSync s ctx va n then (s, .refused .ownership)
    else if releaseHeld s 63 then (s, .wait)
    else if op = 13 ∨ op = 14 then (flushNear (wakeDevice s (wordKey h va) (op = 14)), .done [])
    else
      match strongLocal s who false 0 h va n writes true f 63 with
      | (s, .done old) =>
        let asleep := op = 12 && old = leNat (data.take n) && Config.pickNew s.free va
        if asleep then ({ s with free := s.free + 1 }, .wait)
        else (if 20 ≤ op then wakeDevice s (wordKey h va) true else s, .done (clean (leBytes n old)))
      | (s, .poisoned _) => (s, .done (List.replicate n (255, true)))
      | (s, _) => (s, .wait)

/-! ### RDMA (R412, R413, R57) -/

/-- The entry of the inbound window table that admits an RDMA access (R413, R414): its context. -/
def rdmaEntry (s : State) (rkey : BitVec 32) (va n perm : Nat) : Option Nat :=
  if !s.mgmt.ready then none
  else
    (s.mmu.inwin.find? fun e =>
      let w0 := e.2.w0.toNat
      bit w0 63 && !bit w0 62 && bits e.2.w2.toNat 32 32 == rkey.toNat && bit w0 perm && bits w0 0 52 ≤ va
        && va + n ≤ bits w0 0 52 + 2 ^ bits w0 56 6).map fun e => bits e.2.w1.toNat 0 8

def toHost (s : State) (o : Out) : State := { s with fab := { s.fab with out := s.fab.out ++ [o] } }

/-- The channel of a queue pair, and of a peer. -/
def qpKey (qp : Nat) : Nat := 6 + 4 * qp
def peerKey (dev : Nat) : Nat := 5 + 4 * dev

/-- RDMA_WRITE (R413): what no entry admits is answered with NAK, what R33 refuses with its status. -/
def execRdmaWrite (r : RdmaReq) (s : State) : Host.Outcome State Fault Refusal :=
  if !s.mgmt.powered then .next s
  else
    match rdmaEntry s r.rkey r.va r.data.length 54 with
    | none => .next (toHost s (.rdmaNakAccess r.qp))
    | some ctx =>
      match inboundWrite s byHost (qpKey r.qp) ctx r.va (clean r.data) with
      | (s, .refused st) => .next (toHost s (.rdmaRefused r.qp st))
      | (s, .wait) => .next (dueAgain s (.rdmaWrite r))
      | (s, .done _) => .next (toHost s (.rdmaAck r.qp []))

/-- The error record of an RDMA read that met poison (R57, R60), in the log of the stack of the first poisoned byte. A byte that no stack of
this device holds has no such place: its record goes to stack 0 with offset 0 (log 102). -/
def rdmaPoison (s : State) (ctx va : Nat) (bs : List PByte) : State :=
  let a := va + (bs.findIdx? (·.2)).getD 0
  let place : Option Nat := match hubTranslate s ctx a with
    | .ok leaf size addr =>
      let h := mkHandle (.ok leaf size addr) ctx a
      if hRes h = 2 then none else cellOf (if hRes h = 1 then frameBase (hFrame h) else hPhys h a)
    | .no _ => none
  match place with
  | some c =>
    let f := attrAt s c
    logError s (c / 68719476736)
      { kind := 2, off := c % 68719476736 / unitOf f * unitOf f, gran := f.gran, tol := f.tol, tcls := f.tcls }
  | none => logError s 0 { kind := 2, off := 0, gran := 3, tol := false, tcls := 0 }

/-- RDMA_READ (R413, R57): poison never reaches the host. -/
def execRdmaRead (r : RdmaReq) (s : State) : Host.Outcome State Fault Refusal :=
  if !s.mgmt.powered then .next s
  else
    match rdmaEntry s r.rkey r.va r.len 55 with
    | none => .next (toHost s (.rdmaNakAccess r.qp))
    | some ctx =>
      match inboundRead s (qpKey r.qp) ctx r.va r.len with
      | (s, .refused st) => .next (toHost s (.rdmaRefused r.qp st))
      | (s, .wait) => .next (dueAgain s (.rdmaRead r))
      | (s, .done bs) =>
        if anyPois bs then .next (toHost (rdmaPoison s ctx r.va bs) (.rdmaNakAccess r.qp))
        else .next (toHost s (.rdmaAck r.qp (bs.map (·.1))))

/-- RDMA_FETCH_AND_ADD (R413): 8 bytes, aligned, modulo 2^64; the old value returns. -/
def execRdmaFetchAndAdd (r : RdmaReq) (s : State) : Host.Outcome State Fault Refusal :=
  if !s.mgmt.powered then .next s
  else if !aligned r.va 8 then .next (toHost s (.rdmaNakInvalid r.qp))
  else
    match rdmaEntry s r.rkey r.va 8 53 with
    | none => .next (toHost s (.rdmaNakAccess r.qp))
    | some ctx =>
      let v := leNat (r.data.take 8)
      match inboundAtomic s byHost (qpKey r.qp) ctx r.va 8 4 (leBytes 8 v) (fun old => some ((old + v) % 2 ^ 64)) false with
      | (s, .refused st) => .next (toHost s (.rdmaRefused r.qp st))
      | (s, .wait) => .next (dueAgain s (.rdmaFetchAndAdd r))
      | (s, .done bs) =>
        if anyPois bs then .next (toHost s (.rdmaNakAccess r.qp)) else .next (toHost s (.rdmaAck r.qp (bs.map (·.1))))

/-- RDMA_INVALID_REQUEST (R412). -/
def execRdmaInvalidRequest (qp : Nat) (s : State) : Host.Outcome State Fault Refusal :=
  .next (if s.mgmt.powered then toHost s (.rdmaNakInvalid qp) else s)

/-! ### Fylvathen accesses (R419) -/

/-- The entry that admits a peer's access (R419): its context. -/
def peerEntry (s : State) (dev va n perm : Nat) : Option Nat :=
  (s.mmu.inwin.find? fun e =>
    let w0 := e.2.w0.toNat
    bit w0 63 && bit w0 62 && bits e.2.w1.toNat 48 16 == dev && bit w0 perm && bits w0 0 52 ≤ va
      && va + n ≤ bits w0 0 52 + 2 ^ bits w0 56 6).map fun e => bits e.2.w1.toNat 0 8

def toPeer (s : State) (dev : Nat) (st : LineStatus) (data : List PByte) : State := toHost s (.peerAnswer dev st data)

/-- Nothing is served before the device is ready (R63); the CAUSE is a free value (log 15). -/
def notReady (s : State) (dev : Nat) : State :=
  toPeer { s with free := s.free + 1 } dev (.notPresent ((Config.openReg s.free).toNat % 4)) []

/-- The answer to an inbound access of a peer; one that waits happens again before the next of its channel. -/
def answerPeer (dev : Nat) (e : Event) (r : State × Inbound) : Host.Outcome State Fault Refusal :=
  match r.2 with
  | .refused st => .next (toPeer r.1 dev st [])
  | .wait => .next (dueAgain r.1 e)
  | .done bs => .next (toPeer r.1 dev .ok bs)

/-- FYLVATHEN_INBOUND_ACCESS (R33, R419): a peer's read or write; a signal access needs a SYNC region (R147). -/
def execFylvathenInboundAccess (r : PeerReq) (s : State) : Host.Outcome State Fault Refusal :=
  if !s.mgmt.powered then .next s
  else if !s.mgmt.ready then .next (notReady s r.src)
  else
    let s := heard s r.src
    let n := match r.data with | some d => d.length | none => r.len
    match peerEntry s r.src r.va n (if r.data.isSome then 54 else 55) with
    | none => .next (toPeer s r.src .ownership [])
    | some ctx =>
      if r.signal && !inSync s ctx r.va n then .next (toPeer s r.src .ownership [])
      else
        answerPeer r.src (.fylvathenInboundAccess r)
          (match r.data with
          | some d => inboundWrite s byPeer (peerKey r.src) ctx r.va d
          | none => inboundRead s (peerKey r.src) ctx r.va n)

/-- The new value of a peer's atomic (R147, R333). -/
def peerNew (r : PeerReq) (n old : Nat) : Option Nat :=
  if 16 ≤ r.op then some (signalNew (r.op % 4) old r.val.toNat) else strongNew r.op n old r.val.toNat r.cmp.toNat

/-- FYLVATHEN_REMOTE_ATOMIC (R121, R333, R419): performed at this holder; one that R333 does not know is refused. -/
def execFylvathenRemoteAtomic (r : PeerReq) (s : State) : Host.Outcome State Fault Refusal :=
  if !s.mgmt.powered then .next s
  else if !s.mgmt.ready then .next (notReady s r.src)
  else
    let s := heard s r.src
    let n := if r.wide || 12 ≤ r.op then 8 else 4
    let known := (4 ≤ r.op && r.op ≤ 14) || (16 ≤ r.op && r.op ≤ 23)
    match (if known && aligned r.va n then peerEntry s r.src r.va n 53 else none) with
    | none => .next (toPeer s r.src .ownership [])
    | some ctx =>
      let data := leBytes n r.val.toNat ++ if r.op = 11 then leBytes n r.cmp.toNat else []
      answerPeer r.src (.fylvathenRemoteAtomic r)
        (inboundAtomic s byPeer (peerKey r.src) ctx r.va n r.op data (peerNew r n) (r.signal || 16 ≤ r.op))

/-! ### Flits (R416 to R418, R420) -/

/-- CRC-32 of a flit (R416): the polynomial 0x1EDC_6F41, reflected. -/
def crc32Bit : Nat → Nat → Nat
  | 0, c => c
  | n + 1, c => crc32Bit n (if c % 2 = 1 then c / 2 ^^^ 2197175160 else c / 2)

def crc32 (bs : List Byte) : Nat :=
  (bs.foldl (fun c b => crc32Bit 8 ((c ^^^ b.toNat) % 256) ^^^ c / 256) 4294967295) ^^^ 4294967295

/-- Fields of a flit (R416). -/
def flitNat (f : List Byte) (at' n : Nat) : Nat := leNat ((f.drop at').take n)
def flitDst (f : List Byte) : Nat := flitNat f 0 2
def flitSrc (f : List Byte) : Nat := flitNat f 2 2
def flitVl (f : List Byte) : Nat := flitNat f 4 1 / 32
def flitSeq (f : List Byte) : Nat := flitNat f 232 3
def flitAck (f : List Byte) : Nat := flitNat f 236 3
def flitNak (f : List Byte) : Bool := bit (flitNat f 236 4) 31
def flitOk (f : List Byte) : Bool := f.length = 256 && flitNat f 252 4 == crc32 (f.take 252)

/-- Replace bytes of a flit. -/
def flitPut (f : List Byte) (at' : Nat) (bs : List Byte) : List Byte := f.take at' ++ bs ++ f.drop (at' + bs.length)

/-- How far one SEQ is ahead of another. -/
def seqAhead (a b : Nat) : Nat := (a + 16777216 - b) % 16777216

/-- The replay buffer after an ACK (R418): the flits that it covers leave. -/
def ackPort (p : Port) (ack : Nat) : Port :=
  let replay := p.replay.filter fun x => 0 < seqAhead x.1 ack && seqAhead x.1 ack ≤ 512
  { p with replay, replaying := p.replaying && !replay.isEmpty }

/-- Whether a port may send a new flit on a lane (R417, R418). -/
def maySend (p : Port) (vl : Nat) : Bool :=
  p.up && !p.lanes.isEmpty && !p.retrain && !p.replaying && 0 < vget p.credits vl 0 && p.replay.length < 512

/-- Send a new flit on a port (R416 to R418): SEQ, ACK, the credits owed and the CRC are its own. -/
def sendFlit (s : State) (port : Nat) (f : List Byte) : State :=
  let p := getPort s port
  let q := (p.txSeq + 1) % 16777216
  let vl := flitVl f
  let owed := p.buffer.toList.map fun n => BitVec.ofNat 8 (min n 255)
  let f := flitPut (flitPut (flitPut f 232 (leBytes 4 q)) 236 (leBytes 4 p.rxAck)) 240 owed
  let f := flitPut f 252 (leBytes 4 (crc32 (f.take 252)))
  let p := { p with txSeq := q, replay := p.replay ++ [(q, f)], credits := vset p.credits vl (vget p.credits vl 0 - 1)
                    buffer := p.buffer.map fun n => n - min n 255 }
  toHost (setPort s port p) (.flit port f)

/-- The unacknowledged flits go out again, in order (R418). -/
def resend (s : State) (port : Nat) : State :=
  (getPort s port).replay.foldl (fun s x => toHost s (.flit port x.2)) s

/-- Whether the port that a flit of another device leaves on can take it (R420). -/
def exitPort (s : State) (dst : Nat) : Option Nat := (routePorts s dst).find? (portLive s)

/-- A flit with the next SEQ leaves the receiver's buffer (R417, R420): consumed here, forwarded, or discarded. -/
def takeFlit (s : State) (port : Nat) (f : List Byte) : State :=
  let p := getPort s port
  let vl := flitVl f
  let credits := p.credits.mapIdx fun i n => n + flitNat f (240 + i) 1
  let p := { p with rxAck := flitSeq f, nakSent := false, credits, buffer := vset p.buffer vl (vget p.buffer vl 0 + 1) }
  let s := heard (setPort s port p) (flitSrc f)
  if flitDst f = s.fab.devid then s
  else
    match exitPort s (flitDst f) with
    | some o => sendFlit s o f
    | none => { s with mgmt := { s.mgmt with log := s.mgmt.log ++ [.discarded (flitDst f)] } }

/-- A NAK has come (R418, R422): the replay starts; a NAK in the replay of a port under repair makes it retrain. -/
def nakPort (s : State) (port ack : Nat) : State :=
  let p := ackPort (getPort s port) ack
  if p.replaying && p.repair.isSome then due (setPort s port p) [.portRetrain port]
  else resend (setPort s port { p with replaying := !p.replay.isEmpty }) port

/-- FLIT_RECEIVE (R418, R420): a flit with a good CRC and the next SEQ is accepted once; any other is discarded, with one NAK. -/
def execFlitReceive (port : Nat) (f : List Byte) (s : State) : Host.Outcome State Fault Refusal :=
  let p := getPort s port
  if !s.mgmt.powered || !portLive s port || p.retrain then .next s
  else if flitOk f && flitSeq f = (p.rxAck + 1) % 16777216 then
    let hold := flitDst f ≠ s.fab.devid && match exitPort s (flitDst f) with
      | some o => !maySend (getPort s o) (flitVl f)
      | none => false
    if hold then .next (dueAgain s (.flitReceive port f))
    else
      let s := takeFlit s port f
      .next (if flitNak f then nakPort s port (flitAck f) else setPort s port (ackPort (getPort s port) (flitAck f)))
  else
    let s := if flitOk f then
        if flitNak f then nakPort s port (flitAck f) else setPort s port (ackPort p (flitAck f))
      else s
    let p := getPort s port
    .next (if p.nakSent then s else toHost (setPort s port { p with nakSent := true }) (.nak port p.rxAck))

/-- FLIT_NAK_REPLAY (R418): the receiver at the other end asks for every unacknowledged flit again. -/
def execFlitNakReplay (port ack : Nat) (s : State) : Host.Outcome State Fault Refusal :=
  .next (if !portLive s port || (getPort s port).retrain then s else nakPort s port ack)

/-- LANE_FAILING (R422): a repair moves the port to its other lane; a port with no working lane is down. -/
def execLaneFailing (port lane : Nat) (s : State) : Host.Outcome State Fault Refusal :=
  let p := getPort s port
  if p.failing.contains lane || 2 ≤ lane then .next s
  else
    let p := { p with failing := p.failing ++ [lane] }
    if p.failing.contains (1 - lane) then .next (due (setPort s port p) [.portDown port])
    else .next (due (setPort s port { p with repair := some p.txSeq }) [.laneSwitch port])

/-- The lanes that work. -/
def working (p : Port) : List Nat := p.lanes.filter fun l => !p.failing.contains l

/-- LANE_SWITCH (R422): once no flit from before the repair was asked for waits for its ACK, the port changes lanes. -/
def execLaneSwitch (port : Nat) (s : State) : Host.Outcome State Fault Refusal :=
  let p := getPort s port
  match p.repair with
  | none => .next s
  | some q =>
    let old := p.replay.any fun x => seqAhead q x.1 < 8388608
    if old || p.replaying then .next (due s [.laneSwitch port])
    else .next (setPort s port { p with lanes := working p, repair := none })

/-- PORT_RETRAIN (R422): the port stops sending and receiving; its replay buffer stays. -/
def execPortRetrain (port : Nat) (s : State) : Host.Outcome State Fault Refusal :=
  .next (due (setPort s port { getPort s port with retrain := true, replaying := false }) [.retrainComplete port])

/-- RETRAIN_COMPLETE (R422): the port runs on its working lanes and sends again from the oldest unacknowledged flit. -/
def execRetrainComplete (port : Nat) (s : State) : Host.Outcome State Fault Refusal :=
  let p := getPort s port
  if !p.retrain then .next s
  else
    let p := { p with retrain := false, lanes := working p, repair := none, replaying := !p.replay.isEmpty }
    .next (resend (setPort s port p) port)

/-- PORT_DOWN (R420, R421): what is outstanding on the port times out; devices that no port reaches are lost 100 µs later. -/
def execPortDown (port : Nat) (s : State) : Host.Outcome State Fault Refusal :=
  let s := setPort s port { getPort s port with up := false }
  let gone := (s.fab.routes.map (·.1)).filter fun d => (routePorts s d).contains port && allDown s d && !unreachable s d
  .next (due s (gone.map .deviceUnreachable))

/-- PORT_UP (R421, R428): the port has trained on the lanes that work. -/
def execPortUp (port : Nat) (s : State) : Host.Outcome State Fault Refusal :=
  let p := getPort s port
  if !s.mgmt.powered || 36 ≤ port || (working p).isEmpty then .next s
  else
    let s := setPort s port { p with up := true }
    .next { s with agenda := s.agenda.filter fun e => match e with
      | .deviceUnreachable d => allDown s d || decide (8 ≤ Map.get 0 s.fab.timeouts d)
      | _ => true }

end Sys2Proof.Machine
end

