-- ==== Sys2Proof/Machine/Scalar.lean ====
section
/-! DEFINITION. The scalar and control instructions (spec/10_scalar_instructions.md R238 to R256, R24). -/

namespace Sys2Proof.Machine

/-- The end of a scalar word that writes sD (R238, R239). -/
def toSreg (s : State) (d : BitVec 5) (v : W64) : Host.Outcome State Fault Refusal :=
  .next (retire (onHere s fun k => setSreg k d v))

/-- A register-register word (R240). -/
def alu (s : State) (d a b : BitVec 5) (f : W64 → W64 → W64) : Host.Outcome State Fault Refusal :=
  toSreg s d (f (sreg (here s) a) (sreg (here s) b))

/-- A register-immediate word (R242). -/
def aluImm (s : State) (d a : BitVec 5) (f : W64 → W64) : Host.Outcome State Fault Refusal :=
  toSreg s d (f (sreg (here s) a))

/-- Quotient and remainder (R241). -/
def divide (signed : Bool) (a b : W64) : W64 × W64 :=
  if b = 0 then (BitVec.allOnes 64, a)
  else if signed then
    if a.toInt = -9223372036854775808 ∧ b.toInt = -1 then (a, 0)
    else (lowW (Int.tdiv a.toInt b.toInt), lowW (Int.tmod a.toInt b.toInt))
  else (BitVec.ofNat 64 (a.toNat / b.toNat), BitVec.ofNat 64 (a.toNat % b.toNat))

/-- A divide takes 36 slots (R239). -/
def divWord (s : State) (d a b : BitVec 5) (signed : Bool) (f : W64 × W64 → W64) : Host.Outcome State Fault Refusal :=
  .next (retireN (onHere s fun k => setSreg k d (f (divide signed (sreg k a) (sreg k b)))) 36)

/-- Leading zeros, trailing zeros and ones of a 64-bit value (R240). -/
def leadingZeros (a : W64) : W64 :=
  BitVec.ofNat 64 (((List.range 64).find? fun i => a.getMsbD i).getD 64)

def trailingZeros (a : W64) : W64 :=
  BitVec.ofNat 64 (((List.range 64).find? fun i => a.getLsbD i).getD 64)

def onesCount (a : W64) : W64 := BitVec.ofNat 64 ((List.range 64).filter fun i => a.getLsbD i).length

def execAdd (d a b : BitVec 5) (s : State) : Host.Outcome State Fault Refusal := alu s d a b (· + ·)

def execSub (d a b : BitVec 5) (s : State) : Host.Outcome State Fault Refusal := alu s d a b (· - ·)

def execMul (d a b : BitVec 5) (s : State) : Host.Outcome State Fault Refusal := alu s d a b (· * ·)

/-- mulh: the high half of the signed product (R240). -/
def execMulh (d a b : BitVec 5) (s : State) : Host.Outcome State Fault Refusal :=
  alu s d a b fun x y => lowW (x.toInt * y.toInt / 18446744073709551616)

def execMulhn (d a b : BitVec 5) (s : State) : Host.Outcome State Fault Refusal :=
  alu s d a b fun x y => BitVec.ofNat 64 (x.toNat * y.toNat / 18446744073709551616)

def execDiv (d a b : BitVec 5) (s : State) : Host.Outcome State Fault Refusal := divWord s d a b true (·.1)

def execDivn (d a b : BitVec 5) (s : State) : Host.Outcome State Fault Refusal := divWord s d a b false (·.1)

def execRem (d a b : BitVec 5) (s : State) : Host.Outcome State Fault Refusal := divWord s d a b true (·.2)

def execRemn (d a b : BitVec 5) (s : State) : Host.Outcome State Fault Refusal := divWord s d a b false (·.2)

def execAnd (d a b : BitVec 5) (s : State) : Host.Outcome State Fault Refusal := alu s d a b (· &&& ·)

def execOr (d a b : BitVec 5) (s : State) : Host.Outcome State Fault Refusal := alu s d a b (· ||| ·)

def execXor (d a b : BitVec 5) (s : State) : Host.Outcome State Fault Refusal := alu s d a b (· ^^^ ·)

def execAndn (d a b : BitVec 5) (s : State) : Host.Outcome State Fault Refusal := alu s d a b fun x y => x &&& ~~~y

/-- Shifts use bits [5:0] of b (R240). -/
def execSll (d a b : BitVec 5) (s : State) : Host.Outcome State Fault Refusal :=
  alu s d a b fun x y => x <<< (y.toNat % 64)

def execSrl (d a b : BitVec 5) (s : State) : Host.Outcome State Fault Refusal :=
  alu s d a b fun x y => x >>> (y.toNat % 64)

def execSra (d a b : BitVec 5) (s : State) : Host.Outcome State Fault Refusal :=
  alu s d a b fun x y => x.sshiftRight (y.toNat % 64)

def execClz (d a : BitVec 5) (s : State) : Host.Outcome State Fault Refusal := aluImm s d a leadingZeros

def execCtz (d a : BitVec 5) (s : State) : Host.Outcome State Fault Refusal := aluImm s d a trailingZeros

def execPopc (d a : BitVec 5) (s : State) : Host.Outcome State Fault Refusal := aluImm s d a onesCount

def execSlt (d a b : BitVec 5) (s : State) : Host.Outcome State Fault Refusal := alu s d a b fun x y => boolW (x.slt y)

def execSltn (d a b : BitVec 5) (s : State) : Host.Outcome State Fault Refusal := alu s d a b fun x y => boolW (x.ult y)

def execSeq (d a b : BitVec 5) (s : State) : Host.Outcome State Fault Refusal := alu s d a b fun x y => boolW (x == y)

def execSel (d a b c : BitVec 5) (s : State) : Host.Outcome State Fault Refusal :=
  alu s d a b fun x y => if sreg (here s) c = 0 then y else x

def execMin (d a b : BitVec 5) (s : State) : Host.Outcome State Fault Refusal :=
  alu s d a b fun x y => if x.toInt ≤ y.toInt then x else y

def execMax (d a b : BitVec 5) (s : State) : Host.Outcome State Fault Refusal :=
  alu s d a b fun x y => if y.toInt ≤ x.toInt then x else y

def execMinn (d a b : BitVec 5) (s : State) : Host.Outcome State Fault Refusal :=
  alu s d a b fun x y => if x.toNat ≤ y.toNat then x else y

def execMaxn (d a b : BitVec 5) (s : State) : Host.Outcome State Fault Refusal :=
  alu s d a b fun x y => if y.toNat ≤ x.toNat then x else y

/-! ### Immediates (R242, R243) -/

def execAddi (d a : BitVec 5) (i : BitVec 32) (s : State) : Host.Outcome State Fault Refusal :=
  aluImm s d a (· + immZ i)

def execAndi (d a : BitVec 5) (i : BitVec 32) (s : State) : Host.Outcome State Fault Refusal :=
  aluImm s d a (· &&& immZ i)

def execOri (d a : BitVec 5) (i : BitVec 32) (s : State) : Host.Outcome State Fault Refusal :=
  aluImm s d a (· ||| immZ i)

def execXori (d a : BitVec 5) (i : BitVec 32) (s : State) : Host.Outcome State Fault Refusal :=
  aluImm s d a (· ^^^ immZ i)

def execSlti (d a : BitVec 5) (i : BitVec 32) (s : State) : Host.Outcome State Fault Refusal :=
  aluImm s d a fun x => boolW (x.slt (immSx i))

def execSlli (d a : BitVec 5) (i : BitVec 6) (s : State) : Host.Outcome State Fault Refusal :=
  aluImm s d a (· <<< i.toNat)

def execSrli (d a : BitVec 5) (i : BitVec 6) (s : State) : Host.Outcome State Fault Refusal :=
  aluImm s d a (· >>> i.toNat)

def execSrai (d a : BitVec 5) (i : BitVec 6) (s : State) : Host.Outcome State Fault Refusal :=
  aluImm s d a (·.sshiftRight i.toNat)

def execMovi (d : BitVec 5) (i : BitVec 32) (s : State) : Host.Outcome State Fault Refusal := toSreg s d (immSx i)

def execMovh (d : BitVec 5) (i : BitVec 32) (s : State) : Host.Outcome State Fault Refusal :=
  toSreg s d (i ++ (sreg (here s) d).setWidth 32)

/-! ### Scratchpad and slot memory (R244, R245) -/

/-- The value a load puts into sD: a pending word traps (R71), then a poisoned byte (R56), and sD keeps its value. -/
def loaded (s : State) (d : BitVec 5) (off : Nat) (bs : List PByte) (pending : Option Nat) (space : Nat) : State :=
  match pending with
  | some p => raise s tPendingRead (BitVec.ofNat 64 p) 0
  | none =>
    match firstPois off bs with
    | some p => raise s tPoisonUse (BitVec.ofNat 64 p) space
    | none => retire (onHere s fun k => setSreg k d (BitVec.ofNat 64 (leVal bs)))

def execLdsp (d a : BitVec 5) (w : BitVec 2) (i : BitVec 32) (s : State) : Host.Outcome State Fault Refusal :=
  let o := formOff (here s) a i
  if !aligned o (wdBytes w) then .next (raise s tAlign (BitVec.ofNat 64 o) 0)
  else
    let r := spadSeen s o (wdBytes w)
    .next (loaded r.1 d o r.2.1 r.2.2 0)

def execStsp (d a : BitVec 5) (w : BitVec 2) (i : BitVec 32) (s : State) : Host.Outcome State Fault Refusal :=
  let o := formOff (here s) a i
  if !aligned o (wdBytes w) then .next (raise s tAlign (BitVec.ofNat 64 o) 0)
  else .next (retire (spadStore s o (clean (leBytes (wdBytes w) (sreg (here s) d).toNat))))

def execLdslot (d : BitVec 5) (w : BitVec 2) (i : BitVec 14) (s : State) : Host.Outcome State Fault Refusal :=
  if !aligned i.toNat (wdBytes w) then .next (raise s tAlign (i.setWidth 64) 0)
  else
    let r := slotSeen s i.toNat (wdBytes w)
    .next (loaded r.1 d i.toNat r.2 none 1)

def execStslot (d : BitVec 5) (w : BitVec 2) (i : BitVec 14) (s : State) : Host.Outcome State Fault Refusal :=
  if !aligned i.toNat (wdBytes w) then .next (raise s tAlign (i.setWidth 64) 0)
  else .next (retire (slotStore s i.toNat (clean (leBytes (wdBytes w) (sreg (here s) d).toNat))))

/-! ### Device memory and translation (R246, R24, R25) -/

def execLdh (d : BitVec 5) (h : BitVec 4) (b : BitVec 5) (w : BitVec 2) (s : State) :
    Host.Outcome State Fault Refusal :=
  .next (loadHandle s d h (sreg (here s) b).toNat (wdBytes w))

def execSth (d : BitVec 5) (h : BitVec 4) (b : BitVec 5) (w : BitVec 2) (s : State) :
    Host.Outcome State Fault Refusal :=
  .next (storeHandle s d h (sreg (here s) b).toNat (wdBytes w))

/-- xlat: the handle is written 8 scalar slots later (R25); PAGE_WALK_COMPLETE makes the translation and the token. -/
def execXlat (h : BitVec 4) (n : BitVec 2) (a : BitVec 5) (s : State) : Host.Outcome State Fault Refusal :=
  match s.word with
  | none => .next s
  | some w =>
    let s1 := onHere s fun k =>
      let p : HPend := { h, num := w.num, due := vget k.iss.slots 0 0 + 8, seen := [], va := sreg k a, intent := n
                         marked := k.sys.pend, val := none }
      { k with iss := { k.iss with hpend := k.iss.hpend ++ [p] } }
    .next (due (retireOpen s1) [.pageWalkComplete s.core w.num])

/-- Change the xlat of a head that waits for its walk. -/
def onWalk (s : State) (core head : Nat) (f : HPend → HPend) : State :=
  let k := getCore s core
  setCore s core { k with iss := { k.iss with hpend := k.iss.hpend.map fun q => if q.num = head then f q else q } }

/-- An xlat waits for the move of its page (R130), or for the entry or the frame that a promotion needs. -/
def awaitMove (s : State) (core head ctx va : Nat) : State :=
  due (if movingAt s ctx va then onWalk s core head fun q => { q with asked := true } else s) [.pageWalkComplete core head]

/-- A walk ends (R14 to R20, R24, R30): the handle's value is known and the token produced. A translation with write intent waits for a
move of its page; one of a shade page that no move holds starts its promotion and waits for it (R130, R138). -/
def execPageWalkComplete (core head : Nat) (s : State) : Host.Outcome State Fault Refusal :=
  let k := getCore s core
  match k.iss.hpend.find? fun p => p.num = head && p.val.isNone with
  | none => .next s
  | some p =>
    let ctx := taskCtx k
    let va := p.va.toNat
    if p.intent ≠ 0 && movingAt s ctx va then .next (awaitMove s core head ctx va)
    else if p.intent ≠ 0 && !p.asked && shadeAt s ctx va then .next (awaitMove (promote s ctx va) core head ctx va)
    else
      let t := translate s core ctx va p.intent
      let v := mkHandle t.2 ctx va
      let s4 := produce (onWalk t.1 core head fun q => { q with val := some v }) core .s head
      .next (setCore s4 core (expireHandles (getCore s4 core)))

/-! ### Control transfer (R247, R248) -/

/-- Where a control word leads: the program counter, kept for a word that is met again after a trap (R400). -/
def setPc (s : State) (a : W64) : State :=
  match s.word with
  | none => s
  | some w => onHere s fun k => { k with pc := a, paths := Map.set k.paths w.num a }

/-- A branch that is taken or not. -/
def branch (s : State) (taken : Bool) (i : BitVec 32) : Host.Outcome State Fault Refusal :=
  match s.word with
  | none => .next s
  | some w => .next (retire (setPc s (if taken then branchTarget w i else w.next)))

def execB (i : BitVec 32) (s : State) : Host.Outcome State Fault Refusal := branch s true i

def execBc (a b : BitVec 5) (c : BitVec 3) (i : BitVec 32) (s : State) : Host.Outcome State Fault Refusal :=
  branch s (branchCond c (sreg (here s) a) (sreg (here s) b)) i

def execBz (a : BitVec 5) (i : BitVec 32) (s : State) : Host.Outcome State Fault Refusal :=
  branch s (sreg (here s) a == 0) i

def execBnz (a : BitVec 5) (i : BitVec 32) (s : State) : Host.Outcome State Fault Refusal :=
  branch s (sreg (here s) a != 0) i

def execCall (i : BitVec 32) (s : State) : Host.Outcome State Fault Refusal :=
  match s.word with
  | none => .next s
  | some w => branch (onHere s fun k => setSreg k 31 (w.head + 4)) true i

def execJr (a : BitVec 5) (s : State) : Host.Outcome State Fault Refusal :=
  let t := sreg (here s) a
  if bits t.toNat 0 2 ≠ 0 then .next (raise s tAlign t 0) else .next (retire (setPc s t))

/-! ### System registers, traps, end (R249 to R254) -/

def execSysr (d : BitVec 5) (x : BitVec 12) (s : State) : Host.Outcome State Fault Refusal := .next (readSys s d x.toNat)

def execSysw (a : BitVec 5) (x : BitVec 12) (s : State) : Host.Outcome State Fault Refusal :=
  .next (writeSys s x.toNat (sreg (here s) a))

/-- trap: BREAK of kind 0 after the word has completed (R252). -/
def execTrap (i : BitVec 16) (s : State) : Host.Outcome State Fault Refusal :=
  match s.word with
  | none => .next s
  | some w => .next (raiseAfter (retire s) w tBreak i.toNat w.next)

/-- bkpt: BREAK of kind 1 at its own group (R252). -/
def execBkpt (i : BitVec 16) (s : State) : Host.Outcome State Fault Refusal :=
  match s.word with
  | none => .next s
  | some w => .next (raise s tBreak w.head (65536 + i.toNat))

/-- eret (R253, R400). -/
def execEret (s : State) : Host.Outcome State Fault Refusal :=
  if (here s).handler then
    let c := s.core
    let s := retire s
    .next (setCore s c (returnTrap (getCore s c)))
  else .next (raiseWord s tPrivileged)

def execNop (s : State) : Host.Outcome State Fault Refusal := .next (retire s)

/-- end: the commit follows (R253, R176); it is issued once every earlier word is done (`unblocked`). -/
def execEndTask (s : State) : Host.Outcome State Fault Refusal :=
  .next (retire (onHere s fun k => { k with ending := true }))

/-- A run of Wick starts (R254, R390). -/
def wickStart (w : QWord) (a b : W64) : Wick :=
  { Wick.reset with run := true, wpc := BitVec.ofNat 11 b.toNat, entry := BitVec.ofNat 11 b.toNat
                    pboff := BitVec.ofNat 22 a.toNat, word := some w }

/-- wstart (R254, R390, R394): its token comes with stopw; it waits while a control-store image is loaded (R388). -/
def execWstart (a b : BitVec 5) (s : State) : Host.Outcome State Fault Refusal :=
  let x := sreg (here s) a
  let y := sreg (here s) b
  match s.word with
  | none => .next s
  | some w =>
    if bits x.toNat 0 6 ≠ 0 then .next (raise s tAlign (BitVec.ofNat 64 (bits x.toNat 0 22)) 0)
    else if 2048 ≤ y.toNat then .next (raise s tWick y 3)
    else if (here s).handler then .next (raise s tWick y 8)
    else if s.wcsLoad.isSome then .next (stall s)
    else
      .next (retireOpen (onHere s fun k =>
        { k with wick := wickStart w x y, runs := (w.num, x, y) :: k.runs }))

end Sys2Proof.Machine
end

