-- ==== Sys2Proof/Machine/Steer.lean ====
section
/-! DEFINITION. Steering a group into its engine's queue (R183, R219), the loop buffer's procedure (R260, R261), and heads
that are met again after a trap (R400). -/

namespace Sys2Proof.Machine

/-- The next index vector of an odometer from a level on; lower levels go back to 0 (R260, R261). -/
def bump : List Nat → List Nat → Nat → Option (List Nat)
  | e :: es, i :: is, 0 => if i + 1 < e then some ((i + 1) :: is) else (bump es is 0).map (0 :: ·)
  | _ :: es, _ :: is, n + 1 => (bump es is n).map (0 :: ·)
  | _, _, _ => none

/-- The last emission is done: fetch resumes after the body and the lbody's token comes (R260). -/
def finishNest (s : State) (c : Nat) : State :=
  let k := getCore s c
  match k.nest with
  | none => s
  | some n => produce (setCore s c { k with nest := none, pc := n.next }) c .l n.num

/-- An lbrk of level `d` fires (R261). -/
def breakNest (s : State) (c d : Nat) : State :=
  let k := getCore s c
  match k.nest with
  | none => s
  | some n =>
    match bump n.ext n.idx (d + 1) with
    | none => finishNest s c
    | some idx => setCore s c { k with nest := some { n with idx, pos := 0 } }

/-- The number of emissions of a nest (R260). -/
def nestTotal (ext : List Nat) : Nat := ext.foldl (· * ·) 1

/-- The nest of an lbody starts, or its body is skipped whole (R260). -/
def startNest (s : State) (c : Nat) (n : Nest) : State :=
  let k := getCore s c
  if nestTotal n.ext = 0 then produce (setCore s c { k with pc := n.next }) c .l n.num
  else setCore s c { k with nest := some { n with idx := n.ext.map fun _ => 0, pos := 0 } }

/-- The latest heads of an engine with one more: those that unissued words stand before, and 31 others (R219). -/
def pushWin (i : Issue) (e : Nat) (h : Nat × Nat) : Issue :=
  let oldest := i.queues.toList.foldl (fun a q => match q with | w :: _ => min a w.seq | [] => a) h.1
  let l := h :: vget i.win e []
  { i with win := vset i.win e ((l.takeWhile fun x => oldest ≤ x.1) ++ (l.dropWhile fun x => oldest ≤ x.1).take 31) }

/-- The head that a reference names, if any (R219). -/
def refHead (i : Issue) (r : BitVec 3 × BitVec 5) : Option (Eng × Nat) :=
  ((vget i.win r.1.toNat [])[r.2.toNat - 1]?).map fun h => (engOf r.1.toNat, h.2)

/-- A steered word. -/
def makeWord (k : Core) (e : Eng) (num : Nat) (g : Group) (addr next : W64) (origin : Origin)
    (loop : Option (Nat × List Nat × Nat)) : QWord :=
  { seq := k.iss.seq, eng := e, num, addr, head := addr + BitVec.ofNat 64 (4 * g.head), next
    deps := g.deps.filterMap (refHead k.iss), instr := g.instr, np := k.sys.npdef.toNat, origin
    lref := ((vget k.iss.win 1 []).head?.map (·.2)).getD 0, loop, asleep := false, held := none }

/-- What a head that has executed before does to the path of the splitter when it is met again (R400). -/
def replayHead (s : State) (c : Nat) (e : Eng) (id : Nat) (w : QWord) : State :=
  let k := getCore s c
  match w.instr with
  | .endTask => setCore s c { k with ending := true }
  | .lbody _ _ => match k.nests.find? fun n => n.num = id with | some n => startNest s c n | none => s
  | .lbrk _ d _ => if k.fired.contains id then breakNest s c d.toNat else s
  | .wstart _ _ =>
    match k.runs.find? fun r => r.1 = id with
    | some r => setCore s c { k with wick := wickStart { w with num := id } r.2.1 r.2.2 }
    | none => s
  | _ => if e = .s then match Map.find k.paths id with | some a => setCore s c { k with pc := a } | none => s else s

/-- Steer a checked group: into its queue as a new head, or past it where it has executed already (R183, R219, R400). The
program counter stands at `next` already. -/
def steerGroup (s : State) (c : Nat) (e : Eng) (g : Group) (addr next : W64) (origin : Origin)
    (loop : Option (Nat × List Nat × Nat)) : State :=
  let k := getCore s c
  let x := engIx e
  match (if k.handler then [] else vget k.sys.skip x []) with
  | id :: rest =>
    let w := makeWord k e id g addr next origin loop
    let i := pushWin k.iss x (k.iss.seq, id)
    let k1 := { k with iss := { i with seq := i.seq + 1 }, sys := { k.sys with skip := vset k.sys.skip x rest } }
    replayHead (setCore s c k1) c e id w
  | [] =>
    let n := vget k.iss.heads x 0 + 1
    let w := makeWord k e n g addr next origin loop
    let i := { k.iss with queues := vset k.iss.queues x (vget k.iss.queues x [] ++ [w]) }
    let i := pushWin i x (k.iss.seq, n)
    setCore s c { k with iss := { i with heads := vset i.heads x n, seq := i.seq + 1 }
                         stepped := if k.handler then none else if origin = .emitted then k.stepped else some w }

/-- Nothing is steered or emitted: no task, a trap or a halt waits, or the task ends (R177, R253, R399, R402). -/
def stopped (k : Core) : Bool :=
  k.task.isNone || k.ending || k.iss.trap.isSome || k.iss.hold || k.halting

/-- The splitter waits: for an S word that may change the path, an lbody, a nest or Wick (R184, R185, R249, R260). -/
def splitterHeld (k : Core) : Bool :=
  stopped k || k.nest.isSome || k.wick.run
  || anyQueued k.iss fun w => holdsSplitter w.instr || (match w.instr with | .lbody _ _ => true | _ => false)

/-- Single step (R250): after a group that completed in task mode, a trap before the next one. `none`: go on. -/
def stepTrap (s : State) (c : Nat) (next : W64) (loop : Option (Nat × List Nat × Nat)) : Option State :=
  let k := getCore s c
  if !k.sys.step || k.handler then none
  else
    match k.stepped with
    | none => none
    | some w => if anyQueued k.iss fun _ => true then some s else some (raiseStep s c w next loop)

/-- SPLITTER_STEER_GROUP (R183, R216, R217): the group at the program counter is fetched, checked and steered. -/
def execSplitterSteerGroup (core : Nat) (s : State) : Host.Outcome State Fault Refusal :=
  let k := getCore s core
  if splitterHeld k then .next s
  else
    match stepTrap s core k.pc none with
    | some t => .next t
    | none =>
      match fetchGroup s core k.pc.toNat with
      | (s, .wait) => .next s
      | (s, .trap code addr detail) => .next (raiseSplitter s core code k.pc (BitVec.ofNat 64 addr) detail)
      | (s, .ok (g, ws)) =>
        let next := k.pc + BitVec.ofNat 64 (4 * g.len)
        let k1 := getCore s core
        .next (steerGroup (setCore s core { k1 with pc := next }) core (headEngine (lget ws g.head 0)) g k.pc next
          .fetched none)

end Sys2Proof.Machine
end

