-- ==== Sys2Proof/Machine/Loop.lean ====
section
/-! DEFINITION. The loop and address-generator instructions (spec/11_loop_and_address_generator_instructions.md R257 to
R268). -/

namespace Sys2Proof.Machine

/-- loop (R258). -/
def execLoop (k : BitVec 3) (a : BitVec 5) (i : BitVec 32) (s : State) : Host.Outcome State Fault Refusal :=
  let e := (sreg (here s) a).toNat + i.toNat
  if 16777216 < e then .next (raiseWord s tIllegal)
  else .next (retire (onHere s fun c => { c with loopx := vset c.loopx k.toNat (BitVec.ofNat 25 e) }))

/-- The groups of a body by their least lengths (R216): the index of a group that the end of the body would split. -/
def splitGroup (body : List Nat) : Nat → Nat → Option Nat
  | 0, _ => none
  | fuel + 1, pos =>
    if body.length ≤ pos then none
    else if body.length < pos + groupNeeds (body.drop pos) then some pos
    else splitGroup body fuel (pos + groupNeeds (body.drop pos))

/-- The groups of a body that starts at an address, each with its position; or the code and index of the first check of
R217 that fails. -/
def bodyGroups (start : Nat) (body : List Nat) : Nat → Nat → Except (Nat × Nat) (List (Nat × Group × Eng))
  | 0, _ => .ok []
  | fuel + 1, pos =>
    if body.length ≤ pos then .ok []
    else
      match decodeIn (wordsLeft (start + 4 * pos)) (body.drop pos) with
      | .error e => .error (e.code, pos + e.idx)
      | .ok g =>
        match bodyGroups start body fuel (pos + g.len) with
        | .error e => .error e
        | .ok gs => .ok ((pos, g, headEngine (lget body (pos + g.head) 0)) :: gs)

/-- A word that no body may hold (R259). -/
def notInBody (g : Nat × Group × Eng) : Bool :=
  g.2.2 = .s || (match g.2.1.instr with | .loop _ _ _ | .lbody _ _ => true | _ => false)

/-- An lbrk that names a level the nest does not have (R259). -/
def badLevel (depth : Nat) (g : Nat × Group × Eng) : Bool :=
  match g.2.1.instr with
  | .lbrk _ d _ => depth ≤ d.toNat
  | _ => false

/-- The checks of R259 on a fetched body: the trap code and the index of the offending word. -/
def bodyCheck (start depth : Nat) (body : List Nat) : Option (Nat × Nat) :=
  match splitGroup body 65 0 with
  | some p => some (tPrefix, p)
  | none =>
    match bodyGroups start body 65 0 with
    | .error e => some e
    | .ok gs =>
      match gs.find? notInBody, gs.find? (badLevel depth) with
      | some g, _ => some (tIllegal, g.1 + g.2.1.head)
      | none, some g => some (tIllegal, g.1 + g.2.1.head)
      | none, none => none

/-- Fetch the words of a body (R259). -/
def fetchBody (c va : Nat) : Nat → State → List Nat → State × Fetched (List Nat)
  | 0, s, ws => (s, .ok ws)
  | n + 1, s, ws =>
    match fetchWord s c ((va + 4 * ws.length) % 18446744073709551616) with
    | (s, .ok w) => fetchBody c va n s (ws ++ [w])
    | (s, .wait) => (s, .wait)
    | (s, .trap a b d) => (s, .trap a b d)

/-- lbody (R259, R260): the body is fetched and checked whole, the pending extents are captured and reset, and the nest
starts. -/
def execLbody (k : BitVec 3) (i : BitVec 32) (s : State) : Host.Outcome State Fault Refusal :=
  match s.word with
  | none => .next s
  | some w =>
    let n := i.toNat
    let depth := k.toNat + 1
    if n = 0 ∨ 64 < n then .next (raiseBody s tIllegal w.head.toNat 0)
    else
      match fetchBody s.core w.next.toNat n s [] with
      | (s, .wait) => .next (stall s)
      | (s, .trap code addr detail) => .next (raiseBody s code addr detail)
      | (s, .ok body) =>
        match bodyCheck w.next.toNat depth body with
        | some (code, p) => .next (raiseBody s code (w.next.toNat + 4 * p) 0)
        | none =>
          if (here s).handler && (here s).saved.isSome then .next (raiseBody s tIllegal w.head.toNat 0)
          else
            let ext := (List.range depth).map fun d => (vget (here s).loopx d 1).toNat
            let nest : Nest := { body := body.map (BitVec.ofNat 32), addr := w.next
                                 next := w.next + BitVec.ofNat 64 (4 * n), num := w.num, ext
                                 idx := ext.map fun _ => 0, pos := 0 }
            let c := s.core
            let s := retireOpen (onHere s fun c => { c with loopx := Vector.replicate 6 1, nests := nest :: c.nests })
            .next (startNest s c nest)

/-- LOOP_BODY_EMISSION (R260): the next group of the nest is steered, or the nest ends; an lbrk that waits is decided
first (R261). A group that a handler's EPC has put out of step is checked as the splitter does (R217, R400). -/
def execLoopBodyEmission (core : Nat) (s : State) : Host.Outcome State Fault Refusal :=
  let k := getCore s core
  match k.nest with
  | none => .next s
  | some n =>
    if stopped k || anyQueued k.iss fun w => match w.instr with | .lbrk _ _ _ => true | _ => false then .next s
    else
      let at' := if n.pos < n.body.length then some n
                 else (bump n.ext n.idx 0).map fun idx => { n with idx, pos := 0 }
      match at' with
      | none => .next (finishNest s core)
      | some n =>
        let addr := n.addr + BitVec.ofNat 64 (4 * n.pos)
        match stepTrap s core addr (some (n.num, n.idx, n.pos)) with
        | some t => .next t
        | none =>
          let body := n.body.map (·.toNat)
          match decodeGroup (body.drop n.pos) with
          | .error e => .next (raiseSplitter s core e.code addr (addr + BitVec.ofNat 64 (4 * e.idx)) 0 (some (n.num, n.idx, n.pos)))
          | .ok g =>
            let s := setCore s core { k with nest := some { n with pos := n.pos + g.len } }
            .next (steerGroup s core (headEngine (lget body (n.pos + g.head) 0)) g addr
              (addr + BitVec.ofNat 64 (4 * g.len)) .replayed (some (n.num, n.idx, n.pos)))

/-- lbrk (R261): outside a body it traps. -/
def execLbrk (x k m : BitVec 3) (s : State) : Host.Outcome State Fault Refusal :=
  match s.word with
  | none => .next s
  | some w =>
    if w.origin ≠ .replayed then .next (raiseWord s tIllegal)
    else
      let v := mreg (here s) m
      let fires := match x.toNat with
        | 0 => v != 0
        | 1 => v == 0
        | _ => v == BitVec.allOnes 128
      let c := s.core
      let s := retire s
      if fires then
        let k1 := getCore s c
        .next (breakNest (setCore s c { k1 with fired := w.num :: k1.fired }) c k.toNat)
      else .next s

/-! ### Address generators (R262 to R266) -/

/-- A generator of the core that executes. -/
def genOf (s : State) (g : BitVec 3) : Gen := vget (here s).g g.toNat .reset

def setGen (s : State) (g : BitVec 3) (x : Gen) : State := onHere s fun k => { k with g := vset k.g g.toNat x }

/-- The L slot in which the word that executes stands. -/
def slotL (s : State) : Nat := vget (here s).iss.slots 1 0

/-- Write a generator whose change makes an entry read where `due` says so (R264): the read takes effect six slots on; a
poisoned grain traps. -/
def withEntry (s : State) (g : BitVec 3) (x : Gen) (reads : Bool) : State :=
  if !reads then retire (setGen s g x)
  else
    let off := (x.tbase.toNat + 4 * (vget x.idx x.ind.toNat 0).toNat) % 4194304
    let r := spadSeen s off 4
    match firstPois off r.2.1 with
    | some p => raise r.1 tPoisonUse (BitVec.ofNat 64 (p / 4 * 4)) 0
    | none =>
      let t := slotL s
      let old := x.reads.filter fun y => t < y.1
      retire (setGen r.1 g { x with ent := genEnt x t, reads := old ++ [(t + 6, BitVec.ofNat 32 (leVal r.2.1))] })

/-- agset (R263). -/
def execAgset (g : BitVec 3) (a : BitVec 5) (i : BitVec 32) (s : State) : Host.Outcome State Fault Refusal :=
  .next (retire (setGen s g { Gen.reset with base := sreg (here s) a + immZ i }))

/-- agdim (R263). -/
def execAgdim (g k : BitVec 3) (a b : BitVec 5) (s : State) : Host.Outcome State Fault Refusal :=
  let e := (sreg (here s) a).toNat
  let st := sreg (here s) b
  if e = 0 ∨ 16777216 < e ∨ st ≠ (st.setWidth 32).signExtend 64 then .next (raiseWord s tIllegal)
  else
    let x := genOf s g
    let x1 := { x with ext := vset x.ext k.toNat (BitVec.ofNat 25 e), stride := vset x.stride k.toNat (st.setWidth 32)
                       idx := vset x.idx k.toNat 0 }
    .next (withEntry s g x1 (x.indv && x.ind == k))

/-- agind (R264). -/
def execAgind (g k : BitVec 3) (a : BitVec 5) (s : State) : Host.Outcome State Fault Refusal :=
  let t := (sreg (here s) a).toNat % 4194304
  if !aligned t 4 then .next (raise s tAlign (BitVec.ofNat 64 t) 0)
  else .next (withEntry s g { genOf s g with indv := true, ind := k, tbase := BitVec.ofNat 22 t } true)

/-- The odometer of a generator advanced `n` times from a dimension on (R263): an addition with carries; the carry out of
dimension 5 is lost. -/
def stepIdx (x : Gen) (d n : Nat) : Vector (BitVec 24) 6 :=
  ((List.range 6).foldl
    (fun (r : Vector (BitVec 24) 6 × Nat) j =>
      if j < d then r
      else
        let e := (vget x.ext j 1).toNat
        let v := (vget x.idx j 0).toNat + r.2
        (vset r.1 j (BitVec.ofNat 24 (v % e)), v / e))
    (x.idx, n)).1

/-- agstep (R263). -/
def execAgstep (g k : BitVec 3) (i : BitVec 32) (s : State) : Host.Outcome State Fault Refusal :=
  let x := genOf s g
  let idx := stepIdx x k.toNat i.toNat
  .next (withEntry s g { x with idx } (x.indv && vget idx x.ind.toNat 0 ≠ vget x.idx x.ind.toNat 0))

/-- agrd of the address (R265). -/
def execAgrd (g : BitVec 3) (a : BitVec 5) (s : State) : Host.Outcome State Fault Refusal :=
  .next (retire (onHere s fun k => setSreg k a (BitVec.ofNat 64 (genAddr (vget k.g g.toNat .reset) (vget k.iss.slots 1 0)))))

/-- agrd of an index (R265). -/
def execAgrdIdx (g k : BitVec 3) (a : BitVec 5) (s : State) : Host.Outcome State Fault Refusal :=
  .next (retire (onHere s fun c => setSreg c a ((vget (vget c.g g.toNat .reset).idx k.toNat 0).setWidth 64)))

end Sys2Proof.Machine
end

