-- ==== Sys2Proof/Machine/Manage.lean ====
section
/-! DEFINITION. The management controller: the channel's requests (R415), firmware (R423, R424), attestation (R425), the life cycle
(R426, R427), power (R428, R429). -/

namespace Sys2Proof.Machine

/-- A request of the channel: it is executed while the device has power. -/
def mgmtRun (s : State) (f : State → State) : Host.Outcome State Fault Refusal := .next (if s.mgmt.powered then f s else s)

/-! ### Logs (R60, R410, R376, R429) -/

/-- A record of an error log as words; the last holds the symbols in error plus 1, 0 where the decoder cannot tell. -/
def errWords (stack : Nat) (r : ErrRec) : List W64 :=
  [stack, r.kind, r.off, r.gran.toNat, b2n r.tol, r.tcls.toNat, (r.syms.map (· + 1)).getD 0].map (BitVec.ofNat 64)

/-- An entry of the management log as words. -/
def logWords (r : LogRec) : List W64 :=
  let n (l : List Nat) : List W64 := l.map (BitVec.ofNat 64)
  match r with
  | .error q ws => n [0, q] ++ ws
  | .holderLost d => n [1, d]
  | .link d => n [2, d]
  | .thermal => n [3]
  | .memoryError st => n [4, st]
  | .poolEmpty => n [5]
  | .discarded d => n [6, d]
  | .move va ctx c => n [7, va, ctx, c]

/-- MGMT_READLOG (R60, R410, R415): the logs, the counters by pseudo-channel and the corrected errors by core. -/
def execMgmtReadlog (tag : Nat) (s : State) : Host.Outcome State Fault Refusal :=
  mgmtRun s fun s =>
    let two (m : Map Nat) : List W64 := m.flatMap fun c => [BitVec.ofNat 64 c.1, BitVec.ofNat 64 c.2]
    let cores := s.cores.flatMap fun c => [BitVec.ofNat 64 c.1, BitVec.ofNat 64 c.2.corrected]
    answerHost s 4 tag mgOk
      (s.errlog.flatMap (fun e => e.2.flatMap (errWords e.1)) ++ two s.corr ++ two s.uncorr ++ cores
        ++ s.mgmt.log.flatMap logWords)

/-- MGMT_CLEARLOG (R60, R410, R415). -/
def execMgmtClearlog (tag : Nat) (s : State) : Host.Outcome State Fault Refusal :=
  mgmtRun s fun s =>
    let s := { s with errlog := [], corr := [], uncorr := [], mgmt := { s.mgmt with log := [] }
                      cores := s.cores.map fun c => (c.1, { c.2 with corrected := 0 }) }
    answerHost s 5 tag mgOk []

/-! ### Tables (R376, R388, R414, R415, R420) -/

/-- MGMT_MAPRANGE (R376): at most 64 ranges, each with its context. -/
def execMgmtMaprange (tag : Nat) (rs : List MapRange) (s : State) : Host.Outcome State Fault Refusal :=
  mgmtRun s fun s =>
    if 64 < rs.length || rs.any (fun r => 256 ≤ r.ctx) then answerHost s 6 tag mgField []
    else answerHost { s with ranges := rs } 6 tag mgOk []

/-- Whether the table takes an entry (R414). -/
def inwinOk (w0 w1 w2 w3 : W64) : Bool :=
  let x := w0.toNat
  16 ≤ bits x 56 6 && bits x 56 6 ≤ 40 && aligned (bits x 0 52) (2 ^ bits x 56 6) && bits w1.toNat 8 40 == 0
  && bits w2.toNat 2 30 == 0 && w3 == 0

/-- MGMT_INWIN (R414). -/
def execMgmtInwin (tag : Nat) (idx : Nat) (w : List W64) (s : State) : Host.Outcome State Fault Refusal :=
  mgmtRun s fun s =>
    let g (i : Nat) : W64 := lget w i 0
    if 1024 ≤ idx || !inwinOk (g 0) (g 1) (g 2) (g 3) then answerHost s 7 tag mgField []
    else
      let e : Window := { w0 := g 0, w1 := g 1, w2 := g 2, w3 := g 3 }
      answerHost { s with mmu := { s.mmu with inwin := Map.set s.mmu.inwin idx e } } 7 tag mgOk []

/-- MGMT_RDMAQP (R412, R415): of 4,096 queue pairs, one is created or destroyed. -/
def execMgmtRdmaqp (tag : Nat) (r : QpReq) (s : State) : Host.Outcome State Fault Refusal :=
  mgmtRun s fun s =>
    let has := (Map.find s.fab.qps r.qp).isSome
    if 4096 ≤ r.qp then answerHost s 8 tag mgField []
    else if r.create = has then answerHost s 8 tag mgState []
    else
      let qps := if r.create then Map.set s.fab.qps r.qp r else Map.erase s.fab.qps r.qp
      answerHost { s with fab := { s.fab with qps } } 8 tag mgOk []

/-- MGMT_ROUTE (R416, R420): identifiers 0x0000 and 0xFFFF are never assigned. -/
def execMgmtRoute (tag : Nat) (r : RouteReq) (s : State) : Host.Outcome State Fault Refusal :=
  mgmtRun s fun s =>
    let badId := match r.devid with | some d => d == 0 || 65535 ≤ d | none => false
    if badId || r.entries.any (fun e => 65536 ≤ e.1) then answerHost s 9 tag mgField []
    else
      let routes := r.entries.foldl (fun m e => Map.put 0 m e.1 e.2) s.fab.routes
      answerHost { s with fab := { s.fab with routes, devid := r.devid.getD s.fab.devid } } 9 tag mgOk []

/-- MGMT_WCSLOAD (R388): the load waits until no core runs Wick, and wstarts wait for it. -/
def execMgmtWcsload (tag : Nat) (img : List W32) (s : State) : Host.Outcome State Fault Refusal :=
  mgmtRun s fun s =>
    if 2048 < img.length then answerHost s 10 tag mgField []
    else if s.cores.any fun c => c.2.task.isSome && c.2.wick.run then
      dueAgain { s with wcsLoad := some (tag, img) } (.mgmtWcsload tag img)
    else
      let wcs := (img.zip (List.range img.length)).foldl (fun m w => Map.put 0 m w.2 w.1) ([] : Map W32)
      answerHost { s with wcs, wcsLoad := none } 10 tag mgOk []

/-! ### Firmware, identity and attestation (R423 to R425) -/

/-- The header of a request and its payload, as a signature covers them (R415). -/
def signed (op tag : Nat) (payload : List Byte) : List Byte :=
  leBytes 2 op ++ leBytes 2 tag ++ leBytes 4 (payload.length + 132) ++ List.replicate 56 0 ++ payload

/-- A signature of a request (R415). -/
def signedBy (key : List Byte) (op tag : Nat) (payload sig : List Byte) : Bool :=
  sig.length == 132 && Config.ecdsaVerifies key (Config.sha512 (signed op tag payload)) sig

/-- Fields of a firmware image (R423). -/
def fwNat (img : List Byte) (at' : Nat) : Nat := leNat ((img.drop at').take 4)
def fwBody (img : List Byte) : List Byte := img.drop 512

/-- What the boot ROM accepts (R423): the header, its signature, the digest of the body and the rollback counter. -/
def fwOk (img : List Byte) (counter : Nat) : Bool :=
  512 ≤ img.length && fwNat img 0 == 1263420744 && fwNat img 12 == (fwBody img).length && fwNat img 12 ≤ 67108864
  && (img.drop 212).take 300 == List.replicate 300 0
  && Config.ecdsaVerifies Config.firmwareKeyHash (Config.sha512 (img.take 80)) ((img.drop 80).take 132)
  && (img.drop 16).take 64 == Config.sha512 (fwBody img) && fwNat img 8 ≤ 64 && counter ≤ fwNat img 8

/-- MGMT_FWUPDATE (R423): an image that passes is written, then the counter is raised. -/
def execMgmtFwupdate (tag : Nat) (r : FwReq) (s : State) : Host.Outcome State Fault Refusal :=
  mgmtRun s fun s =>
    if !signedBy Config.firmwareKeyHash 12 tag r.image r.sig || !fwOk r.image s.mgmt.rollback then answerHost s 12 tag mgAuth []
    else answerHost { s with mgmt := { s.mgmt with flash := r.image, rollback := fwNat r.image 8 } } 12 tag mgOk []

/-- The life-cycle states in the order of R426. -/
def lifeCode (l : LifeState) : Nat := match l with | .manufacture => 0 | .provisioned => 1 | .deployed => 2 | .returned => 3

/-- The bytes of the control-store image. -/
def storeBytes (s : State) : List Byte := (List.range 2048).flatMap fun i => leBytes 4 (Map.get 0 s.wcs i).toNat

/-- The report of ATTEST, its fields in the order of R425. -/
def attestReport (s : State) (nonce : List Byte) : List Byte :=
  nonce ++ Config.serialNumber ++ leBytes 1 (lifeCode s.mgmt.life) ++ leBytes 1 (b2n s.mgmt.debug) ++ leBytes 1 s.mgmt.rollback
    ++ Config.sha512 s.mgmt.running ++ Config.sha512 (storeBytes s) ++ Config.certificate

/-- MGMT_ATTEST (R425). -/
def execMgmtAttest (tag : Nat) (nonce : List Byte) (s : State) : Host.Outcome State Fault Refusal :=
  mgmtRun s fun s =>
    if nonce.length ≠ 64 then answerHost s 11 tag mgField []
    else
      let r := attestReport s nonce
      answerHost (toHost s (.report r (Config.identitySign (Config.sha512 r)))) 11 tag mgOk []

/-! ### The life cycle (R426, R427) -/

/-- The keys, by their hashes, that may sign a transition (R426). -/
def lifeKeys (s : State) (dest : LifeState) : List (List Byte) :=
  match s.mgmt.life, dest with
  | .manufacture, .provisioned => [Config.iziviardKeyHash]
  | .provisioned, .deployed => [s.mgmt.owner]
  | .deployed, .provisioned => [s.mgmt.owner]
  | .returned, _ => []
  | _, .returned => [s.mgmt.owner, Config.iziviardKeyHash]
  | _, _ => []

/-- The device wipes all memory and reports ready again; the error logs survive (R60, R426). -/
def rewipe (s : State) : State := { restart s with errlog := s.errlog, corr := s.corr, uncorr := s.uncorr }

/-- The payload of LIFECYCLE: the new state and, from MANUFACTURE, the owner key's hash. -/
def lifePayload (r : LifeReq) : List Byte := leBytes 1 (lifeCode r.dest) ++ r.owner

/-- MGMT_LIFECYCLE (R426). -/
def execMgmtLifecycle (tag : Nat) (r : LifeReq) (s : State) : Host.Outcome State Fault Refusal :=
  mgmtRun s fun s =>
    match lifeKeys s r.dest with
    | [] => answerHost s 13 tag mgState []
    | keys =>
      if !keys.any fun k => signedBy k 13 tag (lifePayload r) r.sig then answerHost s 13 tag mgAuth []
      else
        let owner := if s.mgmt.life = .manufacture ∧ r.dest = .provisioned then r.owner else s.mgmt.owner
        answerHost (rewipe { s with mgmt := { s.mgmt with life := r.dest, owner } }) 13 tag mgOk []

/-- The payload of DEBUGUNLOCK: serial, state and nonce. -/
def unlockPayload (r : UnlockReq) : List Byte := r.serial ++ leBytes 1 (lifeCode r.state) ++ leBytes 64 r.nonce

/-- MGMT_DEBUGUNLOCK (R427): in PROVISIONED debug opens after a full wipe; where it is open already nothing changes. -/
def execMgmtDebugunlock (tag : Nat) (r : UnlockReq) (s : State) : Host.Outcome State Fault Refusal :=
  mgmtRun s fun s =>
    if s.mgmt.life = .deployed then answerHost s 14 tag mgState []
    else if !signedBy Config.iziviardKeyHash 14 tag (unlockPayload r) r.sig || r.serial ≠ Config.serialNumber
        || r.state ≠ s.mgmt.life || r.nonce ≠ Config.unlockNonce s.mgmt.nonce then answerHost s 14 tag mgAuth []
    else
      let s := { s with mgmt := { s.mgmt with nonce := s.mgmt.nonce + 1 } }
      if s.mgmt.life = .provisioned then
        let s := rewipe s
        answerHost { s with mgmt := { s.mgmt with unlocking := true } } 14 tag mgOk []
      else answerHost s 14 tag mgOk []

/-! ### Power (R428, R429) -/

/-- MGMT_POWER (R429): the clock state in MHz, or a new power cap. -/
def execMgmtPower (tag : Nat) (cap : Option Nat) (s : State) : Host.Outcome State Fault Refusal :=
  mgmtRun s fun s =>
    match cap with
    | none => answerHost s 15 tag mgOk [BitVec.ofNat 64 s.mgmt.clock]
    | some c => answerHost { s with mgmt := { s.mgmt with cap := some c } } 15 tag mgOk []

/-- MGMT_UNSUPPORTED (R415). -/
def execMgmtUnsupported (tag op : Nat) (s : State) : Host.Outcome State Fault Refusal :=
  mgmtRun s fun s => answerHost s op tag mgUnsupported []

/-- The firmware body that power-on runs (R423, R424): that of the flash, else one that network recovery brings. -/
def bootBody (s : State) (r : BootReq) : Option (List Byte) :=
  if fwOk s.mgmt.flash s.mgmt.rollback then some (fwBody s.mgmt.flash)
  else match r.recovered with
    | some img => if fwOk img s.mgmt.rollback then some (fwBody img) else none
    | none => none

/-- POWER_ON (R428): the ROM checks the image, the wipe runs, firmware sets the tables; without an image network recovery goes on. -/
def execPowerOn (r : BootReq) (s : State) : Host.Outcome State Fault Refusal :=
  if s.mgmt.ready || s.mgmt.wiping then .next s
  else
    match bootBody s r with
    | none => .next { s with mgmt := { s.mgmt with powered := true } }
    | some body =>
      let s := restart { s with mgmt := { s.mgmt with powered := true, running := body } }
      .next { s with mmu := { s.mmu with ctxBase := r.ctxBase, shzBase := BitVec.ofNat 64 r.shzBase
                                         shzLen := BitVec.ofNat 64 r.shzLen, frtBase := r.frtBase } }

/-- The device without power (R63): only what fuses, flash and the log hold stays. -/
def powerOff (s : State) : State :=
  let t := restart s
  { t with mgmt := { t.mgmt with powered := false, ready := false, wiping := false, running := [] }
           agenda := t.agenda.filter (· ≠ .wipeComplete) }

/-- POWER_LOSS (R63). -/
def execPowerLoss (s : State) : Host.Outcome State Fault Refusal := .next (powerOff s)

/-- CLOCK_THROTTLE (R429): the arithmetic clock changes by 100 MHz, between 1.0 and 2.5 GHz. -/
def execClockThrottle (down : Bool) (s : State) : Host.Outcome State Fault Refusal :=
  let clock := if down then max 1000 (s.mgmt.clock - 100) else min 2500 (s.mgmt.clock + 100)
  .next { s with mgmt := { s.mgmt with clock } }

/-- THERMAL_CRITICAL (R429): a thermal event, then no power. -/
def execThermalCritical (s : State) : Host.Outcome State Fault Refusal :=
  .next (powerOff { s with mgmt := { s.mgmt with log := s.mgmt.log ++ [.thermal] } })

end Sys2Proof.Machine
end

