-- ==== Sys2Proof/Machine/Wick.lean ====
section
/-! DEFINITION. The micro-operations of Wick (spec/17_long_context_attention.md R388 to R395). -/

namespace Sys2Proof.Machine

/-- The causes of a WICK trap that the micro-operations find (R394, R398). -/
def wickRange : Nat := 3
def wickLoop : Nat := 4
def wickPatch : Nat := 5
def wickGroup : Nat := 6
def wickAlign : Nat := 7

/-- A trap of the micro-operation at WPC (R394). -/
def wickTrap (s : State) (cause code : Nat) : State :=
  raiseWick s s.core tWick ((here s).wick.wpc.setWidth 64) (cause + 256 * code)

/-- A micro register: w0 reads zero (R390). -/
def wreg (k : Core) (r : BitVec 4) : W32 := if r = 0 then 0 else vget k.wick.w r.toNat 0

/-- Write a micro register: a write to w0 is discarded (R390). -/
def setWreg (k : Core) (r : BitVec 4) (v : W32) : Core :=
  if r = 0 then k else { k with wick := { k.wick with w := vset k.wick.w r.toNat v } }

/-- Change Wick of the core that executes. -/
def onWick (s : State) (f : Wick → Wick) : State := onHere s fun k => { k with wick := f k.wick }

/-- Go on at an address of the control store; one above 2,047 traps (R394). -/
def wickGo (s : State) (a : Nat) (f : State → State) : State :=
  if 2048 ≤ a then wickTrap s wickRange 0 else f (onWick s fun w => { w with wpc := BitVec.ofNat 11 a })

/-- The address of the micro-operation that executes. -/
def wickAt (s : State) : Nat := (here s).wick.wpc.toNat

/-- Go on behind the micro-operation. -/
def wickNext (s : State) (f : State → State) : State := wickGo s (wickAt s + 1) f

/-- A taken branch: one out of the innermost open loop traps (R393). -/
def wickJump (s : State) (t : Nat) : State :=
  match (here s).wick.stack with
  | (start, last, _) :: _ => if t < start ∨ last < t then wickTrap s wickLoop 0 else wickGo s t id
  | [] => wickGo s t id

/-! ### Registers and branches -/

/-- An operation on micro registers. -/
def wickAlu (s : State) (d : BitVec 4) (v : W32) : State := wickNext s fun s => onHere s fun k => setWreg k d v

/-- addw, subw and andw (R393). -/
def execAddw (d a b : BitVec 4) (s : State) : Host.Outcome State Fault Refusal :=
  .next (wickAlu s d (wreg (here s) a + wreg (here s) b))

def execAddwImm (d a : BitVec 4) (i : BitVec 18) (s : State) : Host.Outcome State Fault Refusal :=
  .next (wickAlu s d (wreg (here s) a + i.setWidth 32))

def execSubw (d a b : BitVec 4) (s : State) : Host.Outcome State Fault Refusal :=
  .next (wickAlu s d (wreg (here s) a - wreg (here s) b))

def execSubwImm (d a : BitVec 4) (i : BitVec 18) (s : State) : Host.Outcome State Fault Refusal :=
  .next (wickAlu s d (wreg (here s) a - i.setWidth 32))

def execAndw (d a b : BitVec 4) (s : State) : Host.Outcome State Fault Refusal :=
  .next (wickAlu s d (wreg (here s) a &&& wreg (here s) b))

def execAndwImm (d a : BitVec 4) (i : BitVec 18) (s : State) : Host.Outcome State Fault Refusal :=
  .next (wickAlu s d (wreg (here s) a &&& i.setWidth 32))

/-- cmpw (R393): EQ, and LT unsigned. -/
def wickCmp (s : State) (x y : W32) : State := wickNext s fun s => onWick s fun w => { w with eq := x == y, lt := x.ult y }

def execCmpw (a b : BitVec 4) (s : State) : Host.Outcome State Fault Refusal :=
  .next (wickCmp s (wreg (here s) a) (wreg (here s) b))

def execCmpwImm (a : BitVec 4) (i : BitVec 18) (s : State) : Host.Outcome State Fault Refusal :=
  .next (wickCmp s (wreg (here s) a) (i.setWidth 32))

/-- br (R393). -/
def execBr (t : BitVec 11) (s : State) : Host.Outcome State Fault Refusal := .next (wickJump s t.toNat)

/-- A condition of brc (R391, R393). -/
def wickCond (w : Wick) (c : BitVec 3) : Bool :=
  match c.toNat with
  | 0 => w.eq
  | 1 => !w.eq
  | 2 => w.lt
  | _ => !w.lt

/-- brc (R393). -/
def execBrc (c : BitVec 3) (t : BitVec 11) (s : State) : Host.Outcome State Fault Refusal :=
  .next (if wickCond (here s).wick c then wickJump s t.toNat else wickNext s id)

/-- loopw (R393, R394). -/
def execLoopw (a : BitVec 4) (t : BitVec 11) (s : State) : Host.Outcome State Fault Refusal :=
  let at' := wickAt s
  let c := wreg (here s) a
  if t.toNat ≤ at' then .next (wickTrap s wickRange 0)
  else if c = 0 then .next (wickGo s (t.toNat + 1) id)
  else if 4 ≤ (here s).wick.stack.length then .next (wickTrap s wickLoop 0)
  else .next (wickNext s fun s => onWick s fun w => { w with stack := (at' + 1, t.toNat, c) :: w.stack })

/-- endl (R393, R394). -/
def execEndl (s : State) : Host.Outcome State Fault Refusal :=
  match (here s).wick.stack with
  | (start, last, c) :: rest =>
    if last ≠ wickAt s then .next (wickTrap s wickLoop 0)
    else if c - 1 = 0 then .next (wickNext s fun s => onWick s fun w => { w with stack := rest })
    else .next (wickGo s start fun s => onWick s fun w => { w with stack := (start, last, c - 1) :: rest })
  | [] => .next (wickTrap s wickLoop 0)

/-! ### The scratchpad (R390, R393) -/

/-- Read a word of the scratchpad as Wick sees it: ordered as its wstart is and after the heads that wtok awaited. -/
def wickLoad (s : State) (d : BitVec 4) (off : Nat) : State :=
  let r := spadSeen { s with word := (here s).wick.word } off 4
  let s := { r.1 with word := s.word }
  match firstPois off r.2.1 with
  | some p => raiseWick s s.core tPoisonUse (BitVec.ofNat 64 p) 0
  | none => wickAlu s d (BitVec.ofNat 32 (leVal r.2.1))

/-- ldpm (R393). -/
def execLdpm (d : BitVec 4) (e : BitVec 6) (s : State) : Host.Outcome State Fault Refusal :=
  .next (wickLoad s d (spadOff ((here s).wick.pboff.toNat + 4 * e.toNat)))

/-- ldw (R393). -/
def execLdw (d a : BitVec 4) (e : BitVec 16) (s : State) : Host.Outcome State Fault Refusal :=
  let o := spadOff ((wreg (here s) a).toNat + 4 * e.toNat)
  if !aligned o 4 then .next (wickTrap s wickAlign 0) else .next (wickLoad s d o)

/-- wsig (R393): the bank unit applies it before the next micro-operation. -/
def execWsig (a : BitVec 4) (e : BitVec 6) (s : State) : Host.Outcome State Fault Refusal :=
  let v := wreg (here s) a
  .next (wickNext s fun s =>
    let w := s.word
    let s := spadStore { s with word := (here s).wick.word } (spadOff ((here s).wick.pboff.toNat + 4 * e.toNat))
      (clean (leBytes 4 v.toNat))
    { s with word := w })

/-! ### Emission (R392) -/

/-- The words behind the micro-operation at WPC. -/
def wickWords (s : State) (n : Nat) : List Nat :=
  (List.range n).map fun i => (Map.get 0 s.wcs (wickAt s + 1 + i)).toNat

/-- The immediate field of a head (R224, R392): its width and whether the instruction reads it signed; none where the format
has none, or the head is in the slot form of VM. -/
def patchField (w : Nat) : Option (Nat × Bool) :=
  let k := w / 8388608
  if k = 160 ∨ k = 161 ∨ k = 162 then if bit w 9 then none else some (9, true)
  else if immWidth w = 0 then none
  else some (immWidth w, k < 64 || k = 139)

/-- Put a value into the immediate field of a head, and what lies above it into PAYLOAD (R392): none where it cannot. -/
def patchHead (imm : Option Nat) (w : Nat) (v : W32) : Option (Option Nat × Nat) :=
  match patchField w, imm with
  | none, _ => none
  | some (n, _), some p =>
    some (some (p / 16777216 * 16777216 + v.toNat / 2 ^ n), w / 2 ^ n * 2 ^ n + v.toNat % 2 ^ n)
  | some (n, signed), none =>
    if (if signed then -(2 ^ (n - 1) : Int) ≤ v.toInt ∧ v.toInt < 2 ^ (n - 1) else v.toNat < 2 ^ n) then
      some (none, w / 2 ^ n * 2 ^ n + v.toNat % 2 ^ n)
    else none

/-- The words of a group with its head's immediate replaced (R392); words that hold no head stay for the checks of the group. -/
def patchWords (v : W32) : List Nat → Option (List Nat)
  | [] => some []
  | w :: ws =>
    match wordKind w, ws with
    | .dep, _ => (patchWords v ws).map (w :: ·)
    | .imm, h :: rest =>
      if wordKind h = .head then
        (patchHead (some w) h v).map fun p => (p.1.getD w) :: p.2 :: rest
      else some (w :: h :: rest)
    | .head, _ => (patchHead none w v).map fun p => p.2 :: ws
    | _, _ => some (w :: ws)

/-- The checks of an emitted group (R217, R216, R259, R392): the group, or the code of the step that failed. -/
def emitCheck (ws : List Nat) : Except Nat (Eng × Group) :=
  match decodeGroup ws with
  | .error e => .error e.code
  | .ok g =>
    let e := headEngine (lget ws g.head 0)
    if g.len ≠ ws.length ∨ e = .s then .error 0
    else match g.instr with | .lbody _ _ => .error tIllegal | _ => .ok (e, g)

/-- A group is checked and steered, and Wick goes on behind it (R392). A steered word holds the address of its emit and that of
the wstart's group. -/
def wickEmit (s : State) (ws : List Nat) : State :=
  let at' := (here s).wick.wpc.setWidth 64
  let back := match (here s).wick.word with | some w => w.addr | none => 0
  match emitCheck ws with
  | .error code => wickTrap s wickGroup code
  | .ok (e, g) => wickGo s (wickAt s + 1 + ws.length) fun s => steerGroup s s.core e g at' back .emitted none

/-- emit (R392). -/
def execEmit (n : BitVec 2) (s : State) : Host.Outcome State Fault Refusal :=
  if 2048 ≤ wickAt s + n.toNat + 1 then .next (wickTrap s wickRange 0)
  else .next (wickEmit s (wickWords s (n.toNat + 1)))

/-- emitx (R392). -/
def execEmitx (n : BitVec 2) (a : BitVec 4) (s : State) : Host.Outcome State Fault Refusal :=
  if 2048 ≤ wickAt s + n.toNat + 1 then .next (wickTrap s wickRange 0)
  else
    match patchWords (wreg (here s) a) (wickWords s (n.toNat + 1)) with
    | none => .next (wickTrap s wickPatch 0)
    | some ws => .next (wickEmit s ws)

/-- wtok (R393): Wick waits for the token of a head; it is tried again in a later turn. -/
def execWtok (e : BitVec 3) (k : BitVec 5) (s : State) : Host.Outcome State Fault Refusal :=
  match refHead (here s).iss (e, k) with
  | none => .next (wickNext s id)
  | some h =>
    if produced (here s).iss h.1 h.2 then
      .next (wickNext s fun s => onWick s fun w => { w with word := w.word.map fun x => { x with deps := x.deps ++ [h] } })
    else .next s

/-- stopw (R393): the run ends, and the wstart's token comes. -/
def execStopw (s : State) : Host.Outcome State Fault Refusal :=
  let s := onWick s fun w => { w with run := false }
  .next (match (here s).wick.word with | some w => produce s s.core .s w.num | none => s)

end Sys2Proof.Machine
end

