-- ==== Sys2Proof/Machine/Agenda.lean ====
section
/-! DEFINITION. The meaning of an event of the agenda: that of its row. -/

namespace Sys2Proof.Machine

/-- An event that is due happens. -/
def runEvent (e : Event) (s : State) : Host.Outcome State Fault Refusal :=
  match e with
  | .loopBodyEmission core => execLoopBodyEmission core s
  | .slabReturn core => execSlabReturn core s
  | .commandComplete core cmd => execCommandComplete core cmd s
  | .scratchpadDeliveryLanding core d => execScratchpadDeliveryLanding core d s
  | .remoteAtomicMessage core m => execRemoteAtomicMessage core m s
  | .scaleEntryLand core cmd => execScaleEntryLand core cmd s
  | .candlePartialLand core cmd => execCandlePartialLand core cmd s
  | .nmrBagLand core cmd => execNmrBagLand core cmd s
  | .prismCollectiveArrival a => execPrismCollectiveArrival a s
  | .collectiveResult gid => execCollectiveResult gid s
  | .carryDelivery c => execCarryDelivery c s
  | .waitvFreshRead core => execWaitvFreshRead core s
  | .qpushPublish core => execQpushPublish core s
  | .splitterSteerGroup core => execSplitterSteerGroup core s
  | .exposedResultExpire core => execExposedResultExpire core s
  | .pageWalkComplete core head => execPageWalkComplete core head s
  | .sweepPeriodBoundary ctx => execSweepPeriodBoundary ctx s
  | .sweeperVisit ctx va => execSweeperVisit ctx va s
  | .shootdownStart r => execShootdownStart r s
  | .shootdownComplete id => execShootdownComplete id s
  | .streamPinRelease pin => execStreamPinRelease pin s
  | .forwardedLineResponse line st data => execForwardedLineResponse line st data s
  | .forwardedLineTimeout line => execForwardedLineTimeout line s
  | .hubTableWrite r => execHubTableWrite r s
  | .hubTableRead r => execHubTableRead r s
  | .hubTableOpComplete core => execHubTableOpComplete core s
  | .memoryRequestAccept r => execMemoryRequestAccept r s
  | .memoryReadReturn id es => execMemoryReadReturn id es s
  | .cellWriteComplete addr => execCellWriteComplete addr s
  | .perBankRefresh stack pch bank => execPerBankRefresh stack pch bank s
  | .formatStart r => execFormatStart r s
  | .formatComplete id => execFormatComplete id s
  | .scrubUnit addr e => execScrubUnit addr e s
  | .reset => execReset s
  | .wipeComplete => execWipeComplete s
  | .regionDescriptorWrite core idx w0 w1 => execRegionDescriptorWrite core idx w0 w1 s
  | .regionDescriptorRead core idx => execRegionDescriptorRead core idx s
  | .regionUpdateComplete core => execRegionUpdateComplete core s
  | .plainBufferWriteback core line => execPlainBufferWriteback core line s
  | .ownershipTransferComplete core idx => execOwnershipTransferComplete core idx s
  | .pageopAlloc r => execPageopAlloc r s
  | .pageopIncref r => execPageopIncref r s
  | .pageopDecref r => execPageopDecref r s
  | .pageopMigrate r => execPageopMigrate r s
  | .pageopExpand r => execPageopExpand r s
  | .pageopCompress r => execPageopCompress r s
  | .pageopPoolput r => execPageopPoolput r s
  | .pageopPooltake r => execPageopPooltake r s
  | .moveCopyComplete mv => execMoveCopyComplete mv s
  | .queueCreate r => execQueueCreate r s
  | .queueStop r => execQueueStop r s
  | .queueResume r => execQueueResume r s
  | .queueDestroy r => execQueueDestroy r s
  | .queueQuery r => execQueueQuery r s
  | .queueDestroyComplete r => execQueueDestroyComplete r s
  | .packetNop q k => execPacketNop q k s
  | .packetLaunch q k => execPacketLaunch q k s
  | .packetCopy q k => execPacketCopy q k s
  | .packetBcopy q k => execPacketBcopy q k s
  | .packetNmq q k => execPacketNmq q k s
  | .packetNmr q k => execPacketNmr q k s
  | .packetColl q k => execPacketColl q k s
  | .packetSignal q k => execPacketSignal q k s
  | .packetWait q k => execPacketWait q k s
  | .packetMarker q k => execPacketMarker q k s
  | .packetBloop q k => execPacketBloop q k s
  | .bloopIteration q k => execBloopIteration q k s
  | .packetBwait q k => execPacketBwait q k s
  | .beaconMulticastLanding ctx core d => execBeaconMulticastLanding ctx core d s
  | .packetComplete q k => execPacketComplete q k s
  | .ticketPushSequenced q => execTicketPushSequenced q s
  | .dispatch => execDispatch s
  | .ageingStep q => execAgeingStep q s
  | .taskCommit core => execTaskCommit core s
  | .preemptRequestArrive core => execPreemptRequestArrive core s
  | .contextSave core dmg => execContextSave core dmg s
  | .logicSoftError core => execLogicSoftError core s
  | .deviceUnreachable dev => execDeviceUnreachable dev s
  | .holderLostUpdate dev => execHolderLostUpdate dev s
  | .rdmaWrite r => execRdmaWrite r s
  | .rdmaRead r => execRdmaRead r s
  | .rdmaFetchAndAdd r => execRdmaFetchAndAdd r s
  | .rdmaInvalidRequest qp => execRdmaInvalidRequest qp s
  | .fylvathenInboundAccess r => execFylvathenInboundAccess r s
  | .fylvathenRemoteAtomic r => execFylvathenRemoteAtomic r s
  | .flitReceive port f => execFlitReceive port f s
  | .flitNakReplay port ack => execFlitNakReplay port ack s
  | .laneFailing port lane => execLaneFailing port lane s
  | .laneSwitch port => execLaneSwitch port s
  | .portRetrain port => execPortRetrain port s
  | .portDown port => execPortDown port s
  | .portUp port => execPortUp port s
  | .mgmtReadlog tag => execMgmtReadlog tag s
  | .mgmtClearlog tag => execMgmtClearlog tag s
  | .mgmtMaprange tag rs => execMgmtMaprange tag rs s
  | .mgmtInwin tag idx w => execMgmtInwin tag idx w s
  | .mgmtRdmaqp tag r => execMgmtRdmaqp tag r s
  | .mgmtRoute tag r => execMgmtRoute tag r s
  | .mgmtWcsload tag img => execMgmtWcsload tag img s
  | .mgmtAttest tag nonce => execMgmtAttest tag nonce s
  | .mgmtFwupdate tag r => execMgmtFwupdate tag r s
  | .mgmtLifecycle tag r => execMgmtLifecycle tag r s
  | .mgmtDebugunlock tag r => execMgmtDebugunlock tag r s
  | .mgmtPower tag cap => execMgmtPower tag cap s
  | .mgmtUnsupported tag op => execMgmtUnsupported tag op s
  | .powerOn r => execPowerOn r s
  | .clockThrottle down => execClockThrottle down s
  | .thermalCritical => execThermalCritical s
  | .powerLoss => execPowerLoss s
  | .frameShootdownComplete id => execFrameShootdownComplete id s
  | .retrainComplete port => execRetrainComplete port s

end Sys2Proof.Machine
end

