-- ==== Sys2Proof/Machine/Dispatch.lean ====
section
/-! DEFINITION. One arm per constructor of Instr: each calls the one meaning of its row of the opcode table. -/

namespace Sys2Proof.Machine

def exec (i : Instr) (s : State) : Host.Outcome State Fault Refusal :=
  match i with
  | .add d a b => Sys2Proof.Machine.execAdd d a b s
  | .sub d a b => Sys2Proof.Machine.execSub d a b s
  | .mul d a b => Sys2Proof.Machine.execMul d a b s
  | .mulh d a b => Sys2Proof.Machine.execMulh d a b s
  | .mulhn d a b => Sys2Proof.Machine.execMulhn d a b s
  | .div d a b => Sys2Proof.Machine.execDiv d a b s
  | .divn d a b => Sys2Proof.Machine.execDivn d a b s
  | .rem d a b => Sys2Proof.Machine.execRem d a b s
  | .remn d a b => Sys2Proof.Machine.execRemn d a b s
  | .and d a b => Sys2Proof.Machine.execAnd d a b s
  | .or d a b => Sys2Proof.Machine.execOr d a b s
  | .xor d a b => Sys2Proof.Machine.execXor d a b s
  | .andn d a b => Sys2Proof.Machine.execAndn d a b s
  | .sll d a b => Sys2Proof.Machine.execSll d a b s
  | .srl d a b => Sys2Proof.Machine.execSrl d a b s
  | .sra d a b => Sys2Proof.Machine.execSra d a b s
  | .clz d a => Sys2Proof.Machine.execClz d a s
  | .ctz d a => Sys2Proof.Machine.execCtz d a s
  | .popc d a => Sys2Proof.Machine.execPopc d a s
  | .slt d a b => Sys2Proof.Machine.execSlt d a b s
  | .sltn d a b => Sys2Proof.Machine.execSltn d a b s
  | .seq d a b => Sys2Proof.Machine.execSeq d a b s
  | .sel d a b c => Sys2Proof.Machine.execSel d a b c s
  | .sysr d x => Sys2Proof.Machine.execSysr d x s
  | .sysw a x => Sys2Proof.Machine.execSysw a x s
  | .trap imm => Sys2Proof.Machine.execTrap imm s
  | .eret => Sys2Proof.Machine.execEret s
  | .bkpt imm => Sys2Proof.Machine.execBkpt imm s
  | .nop => Sys2Proof.Machine.execNop s
  | .endTask => Sys2Proof.Machine.execEndTask s
  | .wstart a b => Sys2Proof.Machine.execWstart a b s
  | .addi d a imm => Sys2Proof.Machine.execAddi d a imm s
  | .andi d a imm => Sys2Proof.Machine.execAndi d a imm s
  | .ori d a imm => Sys2Proof.Machine.execOri d a imm s
  | .xori d a imm => Sys2Proof.Machine.execXori d a imm s
  | .slti d a imm => Sys2Proof.Machine.execSlti d a imm s
  | .slli d a imm => Sys2Proof.Machine.execSlli d a imm s
  | .srli d a imm => Sys2Proof.Machine.execSrli d a imm s
  | .srai d a imm => Sys2Proof.Machine.execSrai d a imm s
  | .movi d imm => Sys2Proof.Machine.execMovi d imm s
  | .movh d imm => Sys2Proof.Machine.execMovh d imm s
  | .ldsp d a w imm => Sys2Proof.Machine.execLdsp d a w imm s
  | .stsp d a w imm => Sys2Proof.Machine.execStsp d a w imm s
  | .ldslot d w imm => Sys2Proof.Machine.execLdslot d w imm s
  | .stslot d w imm => Sys2Proof.Machine.execStslot d w imm s
  | .min d a b => Sys2Proof.Machine.execMin d a b s
  | .max d a b => Sys2Proof.Machine.execMax d a b s
  | .ldh d h b w => Sys2Proof.Machine.execLdh d h b w s
  | .sth d h b w => Sys2Proof.Machine.execSth d h b w s
  | .minn d a b => Sys2Proof.Machine.execMinn d a b s
  | .maxn d a b => Sys2Proof.Machine.execMaxn d a b s
  | .xlat h n a => Sys2Proof.Machine.execXlat h n a s
  | .b imm => Sys2Proof.Machine.execB imm s
  | .bc a b c imm => Sys2Proof.Machine.execBc a b c imm s
  | .bz a imm => Sys2Proof.Machine.execBz a imm s
  | .bnz a imm => Sys2Proof.Machine.execBnz a imm s
  | .call imm => Sys2Proof.Machine.execCall imm s
  | .jr a => Sys2Proof.Machine.execJr a s
  | .loop k a imm => Sys2Proof.Machine.execLoop k a imm s
  | .lbody k imm => Sys2Proof.Machine.execLbody k imm s
  | .lbrk x k m => Sys2Proof.Machine.execLbrk x k m s
  | .agset g a imm => Sys2Proof.Machine.execAgset g a imm s
  | .agdim g k a b => Sys2Proof.Machine.execAgdim g k a b s
  | .agind g k a => Sys2Proof.Machine.execAgind g k a s
  | .agstep g k imm => Sys2Proof.Machine.execAgstep g k imm s
  | .agrd g a => Sys2Proof.Machine.execAgrd g a s
  | .agrdIdx g k a => Sys2Proof.Machine.execAgrdIdx g k a s
  | .vadd d a b m t r s_ => Sys2Proof.Machine.execVadd d a b m t r s_ s
  | .vsub d a b m t r s_ => Sys2Proof.Machine.execVsub d a b m t r s_ s
  | .vmul d a b m t r s_ => Sys2Proof.Machine.execVmul d a b m t r s_ s
  | .vfma d a b m t r s_ => Sys2Proof.Machine.execVfma d a b m t r s_ s
  | .vfms d a b m t r s_ => Sys2Proof.Machine.execVfms d a b m t r s_ s
  | .vfnma d a b m t r s_ => Sys2Proof.Machine.execVfnma d a b m t r s_ s
  | .vmin d a b m t s_ => Sys2Proof.Machine.execVmin d a b m t s_ s
  | .vmax d a b m t s_ => Sys2Proof.Machine.execVmax d a b m t s_ s
  | .vabs d a m t s_ => Sys2Proof.Machine.execVabs d a m t s_ s
  | .vneg d a m t s_ => Sys2Proof.Machine.execVneg d a m t s_ s
  | .vaddi d a m imm => Sys2Proof.Machine.execVaddi d a m imm s
  | .vand d a b m => Sys2Proof.Machine.execVand d a b m s
  | .vor d a b m => Sys2Proof.Machine.execVor d a b m s
  | .vxor d a b m => Sys2Proof.Machine.execVxor d a b m s
  | .vnot d a m => Sys2Proof.Machine.execVnot d a m s
  | .vshl d a b m => Sys2Proof.Machine.execVshl d a b m s
  | .vshr d a b m => Sys2Proof.Machine.execVshr d a b m s
  | .vsra d a b m => Sys2Proof.Machine.execVsra d a b m s
  | .vcmp n a b m t c => Sys2Proof.Machine.execVcmp n a b m t c s
  | .vsel d a b m => Sys2Proof.Machine.execVsel d a b m s
  | .vclass d a m f => Sys2Proof.Machine.execVclass d a m f s
  | .vcvt d a f g r s_ => Sys2Proof.Machine.execVcvt d a f g r s_ s
  | .vpack d a f g r s_ => Sys2Proof.Machine.execVpack d a f g r s_ s
  | .vunpack d a f g p => Sys2Proof.Machine.execVunpack d a f g p s
  | .vscale d a b m s_ r t => Sys2Proof.Machine.execVscale d a b m s_ r t s
  | .vred d a b m o prof flags => Sys2Proof.Machine.execVred d a b m o prof flags s
  | .vscan d a b m o prof flags => Sys2Proof.Machine.execVscan d a b m o prof flags s
  | .vmxq d a f p => Sys2Proof.Machine.execVmxq d a f p s
  | .vmxd d a f g r s_ => Sys2Proof.Machine.execVmxd d a f g r s_ s
  | .vld d a m imm => Sys2Proof.Machine.execVld d a m imm s
  | .vldSlot d m imm => Sys2Proof.Machine.execVldSlot d m imm s
  | .vst d a m imm => Sys2Proof.Machine.execVst d a m imm s
  | .vstSlot d m imm => Sys2Proof.Machine.execVstSlot d m imm s
  | .vldb d a m imm => Sys2Proof.Machine.execVldb d a m imm s
  | .vldg d a b m z => Sys2Proof.Machine.execVldg d a b m z s
  | .vstg d a b m z => Sys2Proof.Machine.execVstg d a b m z s
  | .vgat d a b m => Sys2Proof.Machine.execVgat d a b m s
  | .vperm d a b m => Sys2Proof.Machine.execVperm d a b m s
  | .vbcast d a m => Sys2Proof.Machine.execVbcast d a m s
  | .vmov d a m => Sys2Proof.Machine.execVmov d a m s
  | .vmovs d a b => Sys2Proof.Machine.execVmovs d a b s
  | .vins d a b => Sys2Proof.Machine.execVins d a b s
  | .mand d a b => Sys2Proof.Machine.execMand d a b s
  | .mor d a b => Sys2Proof.Machine.execMor d a b s
  | .mxor d a b => Sys2Proof.Machine.execMxor d a b s
  | .mnot d a => Sys2Proof.Machine.execMnot d a s
  | .mpop d a => Sys2Proof.Machine.execMpop d a s
  | .mfirst d a => Sys2Proof.Machine.execMfirst d a s
  | .xexp2 d a m => Sys2Proof.Machine.execXexp2 d a m s
  | .xlog2 d a m => Sys2Proof.Machine.execXlog2 d a m s
  | .xrcp d a m => Sys2Proof.Machine.execXrcp d a m s
  | .xrsq d a m => Sys2Proof.Machine.execXrsq d a m s
  | .xsqrt d a m => Sys2Proof.Machine.execXsqrt d a m s
  | .xsin d a m => Sys2Proof.Machine.execXsin d a m s
  | .xcos d a m => Sys2Proof.Machine.execXcos d a m s
  | .xtanh d a m => Sys2Proof.Machine.execXtanh d a m s
  | .xlogi d a m => Sys2Proof.Machine.execXlogi d a m s
  | .xerf d a m => Sys2Proof.Machine.execXerf d a m s
  | .xsmax d a b m => Sys2Proof.Machine.execXsmax d a b m s
  | .xexpm d a b m => Sys2Proof.Machine.execXexpm d a b m s
  | .bld s_ t g f => Sys2Proof.Machine.execBld s_ t g f s
  | .bldLut4 s_ t g b => Sys2Proof.Machine.execBldLut4 s_ t g b s
  | .mma n s_ t g f r prof flags => Sys2Proof.Machine.execMma n s_ t g f r prof flags s
  | .mmav n s_ t a f r prof flags => Sys2Proof.Machine.execMmav n s_ t a f r prof flags s
  | .acz n b w prof => Sys2Proof.Machine.execAcz n b w prof s
  | .acinit n b w prof => Sys2Proof.Machine.execAcinit n b w prof s
  | .aclose n => Sys2Proof.Machine.execAclose n s
  | .acrd n p b c => Sys2Proof.Machine.execAcrd n p b c s
  | .acst n b => Sys2Proof.Machine.execAcst n b s
  | .acstPart n b => Sys2Proof.Machine.execAcstPart n b s
  | .acmerge n a prof => Sys2Proof.Machine.execAcmerge n a prof s
  | .acdrop n => Sys2Proof.Machine.execAcdrop n s
  | .tld g t => Sys2Proof.Machine.execTld g t s
  | .tswap t => Sys2Proof.Machine.execTswap t s
  | .cpy a b c t => Sys2Proof.Machine.execCpy a b c t s
  | .cpyh a b c t => Sys2Proof.Machine.execCpyh a b c t s
  | .gath a b c t => Sys2Proof.Machine.execGath a b c t s
  | .scat a b c t => Sys2Proof.Machine.execScat a b c t s
  | .send a b c t => Sys2Proof.Machine.execSend a b c t s
  | .bcast a b c t => Sys2Proof.Machine.execBcast a b c t s
  | .ratm a b t => Sys2Proof.Machine.execRatm a b t s
  | .sqld b t => Sys2Proof.Machine.execSqld b t s
  | .csum b t => Sys2Proof.Machine.execCsum b t s
  | .nmq a t prof => Sys2Proof.Machine.execNmq a t prof s
  | .nmr a t prof => Sys2Proof.Machine.execNmr a t prof s
  | .coll a t prof => Sys2Proof.Machine.execColl a t prof s
  | .carry a b c t => Sys2Proof.Machine.execCarry a b c t s
  | .merge a b c t prof flags => Sys2Proof.Machine.execMerge a b c t prof flags s
  | .cmpct a b c t => Sys2Proof.Machine.execCmpct a b c t s
  | .fence s_ m => Sys2Proof.Machine.execFence s_ m s
  | .ldsDevice d h a w s_ m => Sys2Proof.Machine.execLdsDevice d h a w s_ m s
  | .stsDevice d h a w s_ m => Sys2Proof.Machine.execStsDevice d h a w s_ m s
  | .aaddDevice d h a w s_ m => Sys2Proof.Machine.execAaddDevice d h a w s_ m s
  | .aminDevice d h a w s_ m => Sys2Proof.Machine.execAminDevice d h a w s_ m s
  | .amaxDevice d h a w s_ m => Sys2Proof.Machine.execAmaxDevice d h a w s_ m s
  | .aandDevice d h a w s_ m => Sys2Proof.Machine.execAandDevice d h a w s_ m s
  | .aorDevice d h a w s_ m => Sys2Proof.Machine.execAorDevice d h a w s_ m s
  | .axorDevice d h a w s_ m => Sys2Proof.Machine.execAxorDevice d h a w s_ m s
  | .aswpDevice d h a w s_ m => Sys2Proof.Machine.execAswpDevice d h a w s_ m s
  | .acasDevice d h a w s_ m => Sys2Proof.Machine.execAcasDevice d h a w s_ m s
  | .waitvDevice d h a s_ m => Sys2Proof.Machine.execWaitvDevice d h a s_ m s
  | .ntoneDevice h a s_ m => Sys2Proof.Machine.execNtoneDevice h a s_ m s
  | .ntallDevice h a s_ m => Sys2Proof.Machine.execNtallDevice h a s_ m s
  | .ownx d h a => Sys2Proof.Machine.execOwnx d h a s
  | .ldsSp d a w s_ m => Sys2Proof.Machine.execLdsSp d a w s_ m s
  | .stsSp d a w s_ m => Sys2Proof.Machine.execStsSp d a w s_ m s
  | .aaddSp d a w s_ m => Sys2Proof.Machine.execAaddSp d a w s_ m s
  | .aminSp d a w s_ m => Sys2Proof.Machine.execAminSp d a w s_ m s
  | .amaxSp d a w s_ m => Sys2Proof.Machine.execAmaxSp d a w s_ m s
  | .aandSp d a w s_ m => Sys2Proof.Machine.execAandSp d a w s_ m s
  | .aorSp d a w s_ m => Sys2Proof.Machine.execAorSp d a w s_ m s
  | .axorSp d a w s_ m => Sys2Proof.Machine.execAxorSp d a w s_ m s
  | .aswpSp d a w s_ m => Sys2Proof.Machine.execAswpSp d a w s_ m s
  | .acasSp d a w s_ m => Sys2Proof.Machine.execAcasSp d a w s_ m s
  | .waitvSp d a s_ m => Sys2Proof.Machine.execWaitvSp d a s_ m s
  | .ntoneSp a s_ m => Sys2Proof.Machine.execNtoneSp a s_ m s
  | .ntallSp a s_ m => Sys2Proof.Machine.execNtallSp a s_ m s
  | .binit a b => Sys2Proof.Machine.execBinit a b s
  | .barv a b => Sys2Proof.Machine.execBarv a b s
  | .bexp a b => Sys2Proof.Machine.execBexp a b s
  | .bwait d a b s_ m => Sys2Proof.Machine.execBwait d a b s_ m s
  | .tkt d a => Sys2Proof.Machine.execTkt d a s
  | .qpush d a b m => Sys2Proof.Machine.execQpush d a b m s
  | .evpop d a => Sys2Proof.Machine.execEvpop d a s
  | .sigw h a b o m => Sys2Proof.Machine.execSigw h a b o m s
  | .emit n => Sys2Proof.Machine.execEmit n s
  | .emitx n a => Sys2Proof.Machine.execEmitx n a s
  | .ldpm d e => Sys2Proof.Machine.execLdpm d e s
  | .ldw d a e => Sys2Proof.Machine.execLdw d a e s
  | .addw d a b => Sys2Proof.Machine.execAddw d a b s
  | .addwImm d a imm => Sys2Proof.Machine.execAddwImm d a imm s
  | .subw d a b => Sys2Proof.Machine.execSubw d a b s
  | .subwImm d a imm => Sys2Proof.Machine.execSubwImm d a imm s
  | .andw d a b => Sys2Proof.Machine.execAndw d a b s
  | .andwImm d a imm => Sys2Proof.Machine.execAndwImm d a imm s
  | .cmpw a b => Sys2Proof.Machine.execCmpw a b s
  | .cmpwImm a imm => Sys2Proof.Machine.execCmpwImm a imm s
  | .br t => Sys2Proof.Machine.execBr t s
  | .brc c t => Sys2Proof.Machine.execBrc c t s
  | .loopw a t => Sys2Proof.Machine.execLoopw a t s
  | .endl => Sys2Proof.Machine.execEndl s
  | .wtok e k => Sys2Proof.Machine.execWtok e k s
  | .wsig a e => Sys2Proof.Machine.execWsig a e s
  | .stopw => Sys2Proof.Machine.execStopw s
  | .loopBodyEmission core => Sys2Proof.Machine.execLoopBodyEmission core s
  | .slabReturn core => Sys2Proof.Machine.execSlabReturn core s
  | .commandComplete core cmd => Sys2Proof.Machine.execCommandComplete core cmd s
  | .scratchpadDeliveryLanding core d => Sys2Proof.Machine.execScratchpadDeliveryLanding core d s
  | .remoteAtomicMessage core m => Sys2Proof.Machine.execRemoteAtomicMessage core m s
  | .scaleEntryLand core cmd => Sys2Proof.Machine.execScaleEntryLand core cmd s
  | .candlePartialLand core cmd => Sys2Proof.Machine.execCandlePartialLand core cmd s
  | .nmrBagLand core cmd => Sys2Proof.Machine.execNmrBagLand core cmd s
  | .prismCollectiveArrival a => Sys2Proof.Machine.execPrismCollectiveArrival a s
  | .collectiveResult gid => Sys2Proof.Machine.execCollectiveResult gid s
  | .carryDelivery c => Sys2Proof.Machine.execCarryDelivery c s
  | .waitvFreshRead core => Sys2Proof.Machine.execWaitvFreshRead core s
  | .qpushPublish core => Sys2Proof.Machine.execQpushPublish core s
  | .splitterSteerGroup core => Sys2Proof.Machine.execSplitterSteerGroup core s
  | .exposedResultExpire core => Sys2Proof.Machine.execExposedResultExpire core s
  | .pageWalkComplete core head => Sys2Proof.Machine.execPageWalkComplete core head s
  | .sweepPeriodBoundary ctx => Sys2Proof.Machine.execSweepPeriodBoundary ctx s
  | .sweeperVisit ctx va => Sys2Proof.Machine.execSweeperVisit ctx va s
  | .shootdownStart r => Sys2Proof.Machine.execShootdownStart r s
  | .shootdownComplete id => Sys2Proof.Machine.execShootdownComplete id s
  | .streamPinRelease pin => Sys2Proof.Machine.execStreamPinRelease pin s
  | .forwardedLineResponse line st data => Sys2Proof.Machine.execForwardedLineResponse line st data s
  | .forwardedLineTimeout line => Sys2Proof.Machine.execForwardedLineTimeout line s
  | .hubTableWrite r => Sys2Proof.Machine.execHubTableWrite r s
  | .hubTableRead r => Sys2Proof.Machine.execHubTableRead r s
  | .hubTableOpComplete core => Sys2Proof.Machine.execHubTableOpComplete core s
  | .memoryRequestAccept r => Sys2Proof.Machine.execMemoryRequestAccept r s
  | .memoryReadReturn id es => Sys2Proof.Machine.execMemoryReadReturn id es s
  | .cellWriteComplete addr => Sys2Proof.Machine.execCellWriteComplete addr s
  | .perBankRefresh stack pch bank => Sys2Proof.Machine.execPerBankRefresh stack pch bank s
  | .formatStart r => Sys2Proof.Machine.execFormatStart r s
  | .formatComplete id => Sys2Proof.Machine.execFormatComplete id s
  | .scrubUnit addr e => Sys2Proof.Machine.execScrubUnit addr e s
  | .reset => Sys2Proof.Machine.execReset s
  | .wipeComplete => Sys2Proof.Machine.execWipeComplete s
  | .regionDescriptorWrite core idx w0 w1 => Sys2Proof.Machine.execRegionDescriptorWrite core idx w0 w1 s
  | .regionDescriptorRead core idx => Sys2Proof.Machine.execRegionDescriptorRead core idx s
  | .regionUpdateComplete core => Sys2Proof.Machine.execRegionUpdateComplete core s
  | .plainBufferWriteback core line => Sys2Proof.Machine.execPlainBufferWriteback core line s
  | .ownershipTransferComplete core idx => Sys2Proof.Machine.execOwnershipTransferComplete core idx s
  | .pageopAlloc r => Sys2Proof.Machine.execPageopAlloc r s
  | .pageopIncref r => Sys2Proof.Machine.execPageopIncref r s
  | .pageopDecref r => Sys2Proof.Machine.execPageopDecref r s
  | .pageopMigrate r => Sys2Proof.Machine.execPageopMigrate r s
  | .pageopExpand r => Sys2Proof.Machine.execPageopExpand r s
  | .pageopCompress r => Sys2Proof.Machine.execPageopCompress r s
  | .pageopPoolput r => Sys2Proof.Machine.execPageopPoolput r s
  | .pageopPooltake r => Sys2Proof.Machine.execPageopPooltake r s
  | .moveCopyComplete mv => Sys2Proof.Machine.execMoveCopyComplete mv s
  | .queueCreate r => Sys2Proof.Machine.execQueueCreate r s
  | .queueStop r => Sys2Proof.Machine.execQueueStop r s
  | .queueResume r => Sys2Proof.Machine.execQueueResume r s
  | .queueDestroy r => Sys2Proof.Machine.execQueueDestroy r s
  | .queueQuery r => Sys2Proof.Machine.execQueueQuery r s
  | .queueDestroyComplete r => Sys2Proof.Machine.execQueueDestroyComplete r s
  | .packetNop q k => Sys2Proof.Machine.execPacketNop q k s
  | .packetLaunch q k => Sys2Proof.Machine.execPacketLaunch q k s
  | .packetCopy q k => Sys2Proof.Machine.execPacketCopy q k s
  | .packetBcopy q k => Sys2Proof.Machine.execPacketBcopy q k s
  | .packetNmq q k => Sys2Proof.Machine.execPacketNmq q k s
  | .packetNmr q k => Sys2Proof.Machine.execPacketNmr q k s
  | .packetColl q k => Sys2Proof.Machine.execPacketColl q k s
  | .packetSignal q k => Sys2Proof.Machine.execPacketSignal q k s
  | .packetWait q k => Sys2Proof.Machine.execPacketWait q k s
  | .packetMarker q k => Sys2Proof.Machine.execPacketMarker q k s
  | .packetBloop q k => Sys2Proof.Machine.execPacketBloop q k s
  | .bloopIteration q k => Sys2Proof.Machine.execBloopIteration q k s
  | .packetBwait q k => Sys2Proof.Machine.execPacketBwait q k s
  | .beaconMulticastLanding ctx core d => Sys2Proof.Machine.execBeaconMulticastLanding ctx core d s
  | .packetComplete q k => Sys2Proof.Machine.execPacketComplete q k s
  | .ticketPushSequenced q => Sys2Proof.Machine.execTicketPushSequenced q s
  | .dispatch => Sys2Proof.Machine.execDispatch s
  | .ageingStep q => Sys2Proof.Machine.execAgeingStep q s
  | .taskCommit core => Sys2Proof.Machine.execTaskCommit core s
  | .preemptRequestArrive core => Sys2Proof.Machine.execPreemptRequestArrive core s
  | .contextSave core dmg => Sys2Proof.Machine.execContextSave core dmg s
  | .logicSoftError core => Sys2Proof.Machine.execLogicSoftError core s
  | .deviceUnreachable dev => Sys2Proof.Machine.execDeviceUnreachable dev s
  | .holderLostUpdate dev => Sys2Proof.Machine.execHolderLostUpdate dev s
  | .rdmaWrite r => Sys2Proof.Machine.execRdmaWrite r s
  | .rdmaRead r => Sys2Proof.Machine.execRdmaRead r s
  | .rdmaFetchAndAdd r => Sys2Proof.Machine.execRdmaFetchAndAdd r s
  | .rdmaInvalidRequest qp => Sys2Proof.Machine.execRdmaInvalidRequest qp s
  | .fylvathenInboundAccess r => Sys2Proof.Machine.execFylvathenInboundAccess r s
  | .fylvathenRemoteAtomic r => Sys2Proof.Machine.execFylvathenRemoteAtomic r s
  | .flitReceive port f => Sys2Proof.Machine.execFlitReceive port f s
  | .flitNakReplay port ack => Sys2Proof.Machine.execFlitNakReplay port ack s
  | .laneFailing port lane => Sys2Proof.Machine.execLaneFailing port lane s
  | .laneSwitch port => Sys2Proof.Machine.execLaneSwitch port s
  | .portRetrain port => Sys2Proof.Machine.execPortRetrain port s
  | .portDown port => Sys2Proof.Machine.execPortDown port s
  | .portUp port => Sys2Proof.Machine.execPortUp port s
  | .mgmtReadlog tag => Sys2Proof.Machine.execMgmtReadlog tag s
  | .mgmtClearlog tag => Sys2Proof.Machine.execMgmtClearlog tag s
  | .mgmtMaprange tag rs => Sys2Proof.Machine.execMgmtMaprange tag rs s
  | .mgmtInwin tag idx w => Sys2Proof.Machine.execMgmtInwin tag idx w s
  | .mgmtRdmaqp tag r => Sys2Proof.Machine.execMgmtRdmaqp tag r s
  | .mgmtRoute tag r => Sys2Proof.Machine.execMgmtRoute tag r s
  | .mgmtWcsload tag img => Sys2Proof.Machine.execMgmtWcsload tag img s
  | .mgmtAttest tag nonce => Sys2Proof.Machine.execMgmtAttest tag nonce s
  | .mgmtFwupdate tag r => Sys2Proof.Machine.execMgmtFwupdate tag r s
  | .mgmtLifecycle tag r => Sys2Proof.Machine.execMgmtLifecycle tag r s
  | .mgmtDebugunlock tag r => Sys2Proof.Machine.execMgmtDebugunlock tag r s
  | .mgmtPower tag cap => Sys2Proof.Machine.execMgmtPower tag cap s
  | .mgmtUnsupported tag op => Sys2Proof.Machine.execMgmtUnsupported tag op s
  | .powerOn r => Sys2Proof.Machine.execPowerOn r s
  | .clockThrottle down => Sys2Proof.Machine.execClockThrottle down s
  | .thermalCritical => Sys2Proof.Machine.execThermalCritical s
  | .powerLoss => Sys2Proof.Machine.execPowerLoss s
  | .frameShootdownComplete id => Sys2Proof.Machine.execFrameShootdownComplete id s
  | .retrainComplete port => Sys2Proof.Machine.execRetrainComplete port s

end Sys2Proof.Machine
end

