-- ==== Sys2Proof/Machine/Turns.lean ====
section
/-! DEFINITION. What may happen next on the device (R94, R183: engines, splitters, cores and the agents of the hub proceed
in no fixed order), and how an instruction is placed where the machine fetches it. -/

namespace Sys2Proof.Machine

/-- One thing that may happen next: an engine issues the head of its queue, the splitter steers, a nest emits, Wick runs a
micro-operation, a core's task ends, halts or is saved, the dispatcher looks at a ring, an event happens that nothing brings
about but time, an error record that waits for its ring's page is tried again, or an event of the agenda happens. -/
inductive Turn where
  | issue (c : Nat) (e : Eng)
  | steer (c : Nat)
  | emit (c : Nat)
  | wick (c : Nat)
  | commit (c : Nat)
  | save (c : Nat)
  | halt (c : Nat)
  | look (q : Nat)
  | ring
  | spont (e : Event)
  | event (i : Nat)
  deriving DecidableEq, Repr

/-- The engines, in the order of their codes. -/
def engines : List Eng := [.s, .l, .v, .x, .m, .c, .q]

/-- Whether an engine may issue the head of its queue (R95, R117): a push that waits for room and an ownx hold the Q engine (R329, R339). -/
def mayIssue (k : Core) (e : Eng) : Bool :=
  match queueHead k.iss e with
  | none => false
  | some w => ready k w && unblocked k w && !(e == .q && (k.claim.isSome || k.transit.isSome))

/-- Whether a strong access of a core is on its way to a remote holder, and whether its answer has come (R403). -/
def strongOut (s : State) (c : Nat) : Bool :=
  s.fab.lines.any fun l => match l.use with | .strong x _ => x == c | _ => false
def strongBack (s : State) (c : Nat) : Bool := s.fab.answers.any fun a => a.core == c && a.strong

/-- What a core that a pre-emption has halted does (R117, R403): a waitv that a notify has woken completes, issued strong accesses are
performed, and once it has drained and its plain stores have landed it is saved. -/
def heldTurns (s : State) (c : Nat) (k : Core) : List Turn :=
  if woken s c then []
  else if strongBack s c && mayIssue k .q then [.issue c .q]
  else if strongOut s c && !strongBack s c then []
  else if drained k && !storesOut s c then [.save c]
  else []

/-- What a core that runs does. -/
def runTurns (s : State) (c : Nat) (k : Core) : List Turn :=
  ((engines.filter (mayIssue k)).map (.issue c))
    ++ (if !splitterHeld k then [.steer c] else [])
    ++ (if k.nest.isSome && !stopped k then [.emit c] else [])
    ++ (if k.wick.run && k.iss.trap.isNone then [.wick c] else [])
    ++ (if k.ending && allDone k && !storesOut s c then [.commit c] else [])
    ++ (if k.claim.isSome then [.spont (.qpushPublish c)] else [])
    ++ ((k.plain.filter fun l => l.2.dirty ≠ 0).map fun l => .spont (.plainBufferWriteback c l.1))

/-- What a core may do next. -/
def coreTurns (s : State) (c : Nat) (k : Core) : List Turn :=
  if k.task.isNone then []
  else if k.halting then if drained k && !storesOut s c then [.halt c] else []
  else if k.iss.hold then heldTurns s c k
  else runTurns s c k

/-- What the hub may do for a queue: look at its ring, which a stopped queue's completed packets still need (R144), and let its sequencer
go on. -/
def queueTurns (s : State) (q : Nat) (x : Queue) : List Turn :=
  if !s.mgmt.ready then []
  else
    (if x.st = .active || x.packets.any (fun p => p.k = x.ridx && p.done) then [.look q] else [])
      ++ (if !x.held.isEmpty && !x.jam && x.dying.isNone then [.spont (.ticketPushSequenced q)] else [])

/-- Whether an operation is the host's. -/
def fromHost : Requester → Bool
  | .host _ => true
  | .core _ => false

/-- Events that happen in the order in which they came, by their channel: the requests of the management channel (0, R415), the
cores' shootdowns (1, R28), queue operations (2) and table operations (3), the flits of a port, the accesses of one peer and of
one queue pair (R121, R418), the remote atomics of one sender to one core (R358), and the arrivals of a device (R367). -/
def channel : Event → Option Nat
  | .mgmtReadlog _ | .mgmtClearlog _ | .mgmtMaprange _ _ | .mgmtInwin _ _ _ | .mgmtRdmaqp _ _ | .mgmtRoute _ _
  | .mgmtWcsload _ _ | .mgmtAttest _ _ | .mgmtFwupdate _ _ | .mgmtLifecycle _ _ | .mgmtDebugunlock _ _
  | .mgmtPower _ _ | .mgmtUnsupported _ _ => some 0
  | .shootdownStart r => some (if fromHost r.src then 0 else 1)
  | .queueCreate r | .queueStop r | .queueResume r | .queueDestroy r | .queueQuery r => some (if fromHost r.src then 0 else 2)
  | .hubTableWrite r | .hubTableRead r => some (if fromHost r.src then 0 else 3)
  | .pageopAlloc r | .pageopIncref r | .pageopDecref r | .pageopMigrate r | .pageopExpand r | .pageopCompress r
  | .pageopPoolput r | .pageopPooltake r => if fromHost r.src then some 0 else none
  | .flitReceive p _ | .flitNakReplay p _ | .laneFailing p _ | .portDown p | .portUp p => some (4 + 4 * p)
  | .fylvathenInboundAccess r | .fylvathenRemoteAtomic r => some (5 + 4 * r.src)
  | .rdmaWrite r | .rdmaRead r | .rdmaFetchAndAdd r => some (6 + 4 * r.qp)
  | .remoteAtomicMessage core m => m.owner.map fun o => 7 + 4 * (2048 * o.1 + core)
  | .prismCollectiveArrival a => some (7 + 4 * (4194304 + if a.owner.isSome then 0 else 1 + a.dev))
  | _ => none

/-- Whether an operation of the host is in progress: its channel waits for its answer (R415). -/
def hostBusy (s : State) : Bool :=
  (s.mmu.shoots.any fun x => fromHost x.req.src)
  || (s.mmu.moves.any fun m => m.2.kind ≤ 2 && fromHost m.2.req.src)
  || s.queues.any fun q => match q.2.dying with | some r => fromHost r | none => false

/-- The agenda's events that may happen next: those with no earlier one in their channel. -/
def eventTurns : List Nat → Nat → List Event → List Turn
  | _, _, [] => []
  | busy, i, e :: es =>
    match channel e with
    | none => .event i :: eventTurns busy (i + 1) es
    | some x => if busy.contains x then eventTurns busy (i + 1) es else .event i :: eventTurns (x :: busy) (i + 1) es

/-- Everything that may happen next. -/
def turns (s : State) : List Turn :=
  s.cores.flatMap (fun c => coreTurns s c.1 c.2) ++ s.queues.flatMap (fun q => queueTurns s q.1 q.2)
    ++ (if s.ring.isEmpty then [] else [.ring]) ++ eventTurns (if hostBusy s then [0] else []) 0 s.agenda

/-- Which of them happens: what State says, or a free choice (log 14). -/
def choose (s : State) : Nat × State :=
  match s.turn with
  | some n => (n, { s with turn := none })
  | none => (Config.turn s.free, { s with free := s.free + 1 })

/-- Time passes (R251, log 7). -/
def tick (s : State) : State :=
  { s with tstamp := s.tstamp + BitVec.ofNat 64 (Config.stepCycles s.time), time := s.time + 1 }

/-- The engine of the word steered last, where that word is the only one of its queue and may issue at once. -/
def steeredAlone (k : Core) (before : Nat) : Option Eng :=
  if k.iss.seq = before then none
  else
    engines.find? fun e =>
      match vget k.iss.queues (engIx e) [] with
      | [w] => w.seq + 1 = k.iss.seq && mayIssue k e
      | _ => false

/-! ### Placing an instruction -/

/-- The task that `withFetchWord` gives core 0: queue 0, ordinal 0, context 0. -/
def fetchTask : Task :=
  { qid := 0, packet := 0, ord := 0, phase := 0, rank := 0, gsize := 1, gang := 0, ctx := 0, dmode := 0, binds := [] }

/-- Bytes of device memory that `withFetchWord` places, their frame formatted as after a wipe. -/
def place (s : State) (pa : Nat) (bs : List Byte) : State :=
  { s with attrs := Map.erase s.attrs (pa / 65536)
           dram := { s.dram.setBytes pa bs with pois := s.dram.pois.filter fun g => g / 8 ≠ pa / 256 } }

/-- The tables through which context 0 maps virtual address 0 to physical address 2^30 with a 1 GiB page (R14 to R17). -/
def placeTables (s : State) : State :=
  let s := place s s.mmu.ctxBase (leBytes 8 (65536 + 1) ++ leBytes 56 0)
  let s := place s 65536 (leBytes 8 (131072 / 256 * 256 + 1))
  place s 131072 (leBytes 8 (2 ^ 54 + 16384 * 65536 + 3 * 16384 + 8192 + 64 + 1))

/-- Core 0 at the first word of a task at virtual address 0, nothing steered. -/
def fetchCore (k : Core) : Core :=
  { k with task := some fetchTask, pc := 0, handler := false, stepped := none, ending := false, iss := .reset, nest := none
           wick := .reset, claim := none, halting := false, tlb := [], sys := { k.sys with skip := .replicate 7 [] } }

/-- A group of words at the program counter of core 0. -/
def placeGroup (s : State) (w : Nat) : State :=
  let s := placeTables s
  let s := place s 1073741824 (leBytes 16 w)
  setCore s 0 (fetchCore (getCore s 0))

/-- The wstart of a run of Wick that `withFetchWord` starts. -/
def fetchStart : QWord :=
  { seq := 0, eng := .s, num := 1, addr := 0, head := 0, next := 4, deps := [], instr := .wstart 0 0, np := 0
    origin := .fetched, lref := 0, loop := none, asleep := false, held := none }

/-- A micro-operation at the place that Wick of core 0 executes next (R390). -/
def placeMicro (s : State) (w : Nat) : State :=
  let k := fetchCore (getCore s 0)
  let k := { k with pc := 4, wick := { Wick.reset with run := true, word := some fetchStart }
                    iss := { Issue.reset with heads := vset Issue.reset.heads 0 1, slots := vset Issue.reset.slots 0 1
                                              win := vset Issue.reset.win 0 [(0, 1)], openTok := [(.s, 1)], seq := 1 } }
  setCore { s with wcs := Map.put 0 s.wcs 0 (BitVec.ofNat 32 w) } 0 k

end Sys2Proof.Machine
end

