-- ==== Sys2Proof/Machine/Step.lean ====
section
/-! DEFINITION. One step of the machine: one of the things that may happen next happens. -/

namespace Sys2Proof.Machine

/-- A word or event is over: a trap that waits is taken once every earlier word has issued (R399). -/
def settleAfter (c : Nat) (r : Host.Outcome State Fault Refusal) : Host.Outcome State Fault Refusal :=
  match r with
  | .next s => .next (settle s c)
  | .fault f => .fault f
  | .refused f => .refused f

/-- What a word has replaced is kept for the engines that are not ordered after it (R96). -/
def keepRegs (c : Nat) (w : QWord) (before : Core) (r : Host.Outcome State Fault Refusal) : Host.Outcome State Fault Refusal :=
  match r with
  | .next s => .next (rememberRegs s c w before)
  | .fault f => .fault f
  | .refused f => .refused f

/-- An engine issues the head of its queue: the races among the results in flight are settled (R68, R273), and a word that names the token
of a command sees what that has written (R95). -/
def issueHead (s : State) (c : Nat) (e : Eng) : Host.Outcome State Fault Refusal :=
  let t := heedTokens (takeHead (settleRaces s c) c e) c
  match t.word with
  | none => .next t
  | some w => settleAfter c (keepRegs c w (getCore t c) (exec w.instr t))

/-- The splitter or a nest has steered a group: where `now` holds and its queue was empty, it issues in the same step. -/
def issueSteered (c before : Nat) (now : Bool) (r : Host.Outcome State Fault Refusal) :
    Host.Outcome State Fault Refusal :=
  match r with
  | .next s =>
    match if now then steeredAlone (getCore s c) before else none with
    | some e => issueHead s c e
    | none => .next s
  | .fault f => .fault f
  | .refused f => .refused f

/-- The micro-operation at WPC (R390, R394). -/
def runWick (s : State) (c : Nat) : Host.Outcome State Fault Refusal :=
  let k := getCore s c
  let w := Map.get 0 s.wcs k.wick.wpc.toNat
  match decodeMicro w.toNat with
  | .ok i => settleAfter c (exec i { s with core := c, word := none })
  | .error cause => .next (raiseWick s c tWick (k.wick.wpc.setWidth 64) cause)

/-- One turn. -/
def runTurn (s : State) (t : Turn) (now : Bool) : Host.Outcome State Fault Refusal :=
  match t with
  | .issue c e => issueHead s c e
  | .steer c => issueSteered c (getCore s c).iss.seq now (execSplitterSteerGroup c s)
  | .emit c => issueSteered c (getCore s c).iss.seq now (execLoopBodyEmission c s)
  | .wick c => runWick s c
  | .commit c => runEvent (.taskCommit c) s
  | .save c => runEvent (.contextSave c 0) s
  | .halt c => .next (finishHalt s c)
  | .look q => .next (lookQueue s q)
  | .ring => .next (retryRing s)
  | .spont e => runEvent e s
  | .event i =>
    match s.agenda[i]? with
    | none => .next s
    | some e => runEvent e { s with agenda := s.agenda.eraseIdx i }

/-- One step: one of the things that may happen next, or nothing but the passing of time. -/
def step (s : State) : Host.Outcome State Fault Refusal :=
  let r := choose s
  let s := tick r.2
  let l := turns s
  match l[r.1 % l.length]? with
  | none => .next s
  | some t => runTurn s t (r.1 / l.length % 2 == 0)

/-- The instruction whose bits are `w` stored where the next step fetches, and that step's turn given to it: a group at the
program counter of core 0, or a micro-operation where only the control store has such a word (log 12). -/
def State.withFetchWord (s : State) (nbits w : Nat) : State :=
  let v := w % 2 ^ nbits
  let t := match decodeGroup (tableWords v), decodeMicro (v % 4294967296) with
    | .error _, .ok _ => placeMicro s v
    | _, _ => placeGroup s v
  { t with turn := some 0 }

end Sys2Proof.Machine
end

