-- ==== Sys2Proof/Safety.lean ====
section
/-! DEFINITION. What counts as a safe run, and the terms in which statements say what a step leaves as it was. -/

namespace Sys2Proof

/-- A state from which the machine goes on: its next step is neither a fault nor a refusal. -/
def Safe (s : Machine.State) : Prop := ∃ t, Machine.step s = .next t

/-- Every one of the next `n` steps goes on. -/
def SafeFor : Nat → Machine.State → Prop
  | 0, _ => True
  | n + 1, s => ∃ t, Machine.step s = .next t ∧ SafeFor n t

namespace Machine

/-- Whether a core keeps what stood in a handle register. -/
def Past.ofHandle (p : Past) : Bool :=
  match p.old with
  | .handle _ _ => true
  | _ => false

/-- A core with every result in flight landed (R67, R272) and with what R25, R67 and R272 let change as slots pass left out:
the engines' slot counts, the handle registers, the handles in flight, what stood in the handle registers before them, and what the word
taken last sees as it stood before (R96), which the next word that is taken replaces. Two cores that agree here agree in all else. -/
def landed (k : Core) : Core :=
  let k := mergeAll k
  { k with
    h := Vector.replicate 16 0
    iss := { k.iss with slots := Vector.replicate 7 0, hpend := [], view := [], past := k.iss.past.filter fun p => !p.ofHandle } }

/-- The end of a word: `k` is the core that executes, changed as the word's own rule says and in nothing else. Nothing else changes anywhere, but that
its engine counts `n` slots more, that results in flight whose latency has elapsed land (R67, R272), and that a completed
handle in flight whose slot has come is written (R25). -/
structure Ends (s t : State) (n : Nat) (k : Core) : Prop where
  device  : t = { s with cores := t.cores, word := none }
  others  : ∀ c, c ≠ s.core → getCore t c = getCore s c
  core    : landed (here t) = landed k
  slots   : ∀ w, s.word = some w → ∀ e,
    vget (here t).iss.slots e 0 = vget k.iss.slots e 0 + if e = engIx w.eng then n else 0
  handles : ∀ h : BitVec 4, (∀ p ∈ k.iss.hpend, p.h = h → p.val = none) →
    vget (here t).h h.toNat 0 = vget k.h h.toNat 0

/-- A word leaves its engine while its token is still to come (R95): its head is among the open ones. -/
def opensToken (w : QWord) (k : Core) : Core :=
  { k with iss := { k.iss with openTok := k.iss.openTok ++ [(w.eng, w.num)] } }

/-- The word that executes waits (R255): it stands at the front of its queue again, and nothing else changes. -/
def Waits (s t : State) : Prop :=
  ∃ w, s.word = some w ∧ (t = { onHere s (fun k => { k with iss := putBack k.iss w }) with word := none })

/-! ### Traps -/

/-- A core on which a trap found at place `seq` of the program is taken at once (R399, R444): no trap waits, Wick does not run,
every word that has not issued comes later, no waitv has been woken (R117), and it is in task mode with a handler. -/
structure TrapReady (k : Core) (seq : Nat) : Prop where
  noTrap  : k.iss.trap = none
  noWick  : k.wick.run = false
  later   : ∀ e, ∀ q ∈ vget k.iss.queues e [], seq < q.seq
  noWake  : ∀ q, queueHead k.iss .q = some q → q.asleep = true → k.sleepers ≠ []
  task    : k.handler = false
  handler : k.sys.trapvec ≠ 0

/-- The trap of R399, taken on core `c` for the group at place `seq`: the trap registers and the skip counts are written, the
core is in handler mode at TRAPVEC, no later word is left; every other register, the memories and the rest of the device are as
they were. `own` is the head that has no effect. -/
structure TrapTaken (s t : State) (c seq : Nat) (own : Option (Eng × Nat)) (code : Nat) (epc addr est : W64) : Prop where
  device : t = { s with cores := t.cores, sleepers := t.sleepers, word := none }
  others : ∀ d, d ≠ c → getCore t d = getCore s d
  core   : getCore t c = { getCore s c with
    sys := (getCore t c).sys, handler := true, pc := (getCore s c).sys.trapvec, iss := (getCore t c).iss, nest := none
    saved := (getCore t c).saved, ending := false, sleepers := (getCore t c).sleepers }
  regs   : (getCore t c).sys = { (getCore s c).sys with
    trapcode := BitVec.ofNat 64 code, trapaddr := addr, epc, estat := est, skip := (getCore t c).sys.skip, skipEpc := epc }
  flight : (getCore t c).iss.pend = (getCore s c).iss.pend ∧ (getCore t c).iss.hpend = (getCore s c).iss.hpend ∧
    (getCore t c).iss.slots = (getCore s c).iss.slots ∧ (getCore t c).iss.past = (getCore s c).iss.past ∧ (getCore t c).iss.seq = (getCore s c).iss.seq
  tokens : ∀ e h, (e, h) ∈ (getCore t c).iss.openTok ↔ (e, h) ∈ (getCore s c).iss.openTok ∧ own ≠ some (e, h)
  queues : ∀ e, vget (getCore t c).iss.queues e [] = []
  skips  : ∀ e, e < 7 → (∀ o, own = some o → engIx o.1 ≠ e) → vget (getCore t c).sys.skip e [] =
    (((vget (getCore s c).iss.win e []).filter fun h => decide (seq < h.1) &&
      (vget (getCore s c).iss.queues e []).all fun q => q.num != h.2).map (·.2)).reverse ++ vget (getCore s c).sys.skip e []

/-- ESTAT of a trap of a word that is not emitted (R397). -/
def estatOf (w : QWord) (detail : Nat) : W64 :=
  BitVec.ofNat 64 (engIx w.eng * 2 ^ 61 + (if w.origin = .replayed then 2 ^ 59 else 0) + detail)

/-- The word that executes traps with a code, TRAPADDR and DETAIL, EPC holding its own group (R399). -/
def Traps (s : State) (w : QWord) (r : Host.Outcome State Fault Refusal) (code : Nat) (addr : W64) (detail : Nat) : Prop :=
  ∃ t, r = .next t ∧ TrapTaken s t s.core w.seq (some (w.eng, w.num)) code w.addr addr (estatOf w detail)

/-! ### Vector words -/

/-- The lanes `on` of register r as the word that executes sees them (R272, R273): each with one value, no pending bit met (R71). -/
def Sees (s : State) (on : Nat → Prop) (r : BitVec 5) (x : Nat → Lane) : Prop :=
  ∀ i, i < 128 → on i → laneSeen s (here s) (128 * r.toNat + i) = (s, x i, false)

/-- A lane as an operand: a poisoned one reads as 0xFF in every byte (R55). -/
def operand (l : Lane) : W32 := if l.pois then 0xFFFFFFFF else l.val

/-- A lane moved whole (R55). -/
def moved (l : Lane) : Lane := ⟨operand l, l.pois⟩

/-- A lane is active in a mask. -/
def On (m : BitVec 128) (i : Nat) : Prop := m.getLsbD i = true

/-- The end of a word whose results are exposed for `latency` slots of its engine (R67, R271): they stand in flight from now on,
and nothing else changes but to the core `k`. -/
def Exposes (s t : State) (w : QWord) (latency : Nat) (dsts : List PDest) (k : Core) : Prop :=
  let ps := dsts.map fun dst =>
    ({ eng := w.eng, num := w.num, due := vget k.iss.slots (engIx w.eng) 0 + latency, seen := [], marked := k.sys.pend, dst } : Pend)
  (1 < latency → ∀ p ∈ ps, p ∈ (here t).iss.pend) ∧ Ends s t 1 { k with iss := { k.iss with pend := k.iss.pend ++ ps } }

/-- The lanes `on` of register d, and no other. -/
def LanesOf (ls : Map Lane) (d : BitVec 5) (on : Nat → Prop) (lane : Nat → Lane) : Prop :=
  (∀ i, i < 128 → on i → Map.find ls (128 * d.toNat + i) = some (lane i)) ∧
  ∀ key, (∀ i, i < 128 → on i → key ≠ 128 * d.toNat + i) → Map.find ls key = none

/-- Flags in flight, where there are any. -/
def flagDests (fl : FlagSet) : List PDest := if fl = 0 then [] else [.flags fl]

/-- The OR of the flags of the lanes `on` (R200, R274). -/
def OrOf (fl : FlagSet) (on : Nat → Prop) (g : Nat → FlagSet) : Prop :=
  ∀ b, b < 7 → (fl.getLsbD b = true ↔ ∃ i, i < 128 ∧ on i ∧ (g i).getLsbD b = true)

/-- A word that writes the lanes `on` of vD, and flags. -/
def WritesLanes (s t : State) (w : QWord) (d : BitVec 5) (latency : Nat) (on : Nat → Prop) (lane : Nat → Lane) (fl : FlagSet) : Prop :=
  ∃ ls, LanesOf ls d on lane ∧ Exposes s t w latency (.lanes ls :: flagDests fl) (here s)

end Machine

end Sys2Proof
end

