-- ==== Sys2Proof/Certificates/Slice0/Obligations.lean ====
section
/-! DEFINITION. The statements for the provers, with the terms that they share. -/

namespace Sys2Proof.Machine

/-! ### Terms of the statements -/

/-- A word that writes a scalar register (R238): `v` in sD, nothing where sD is s0; every other scalar register, and all that
`Ends` names, is as it was. -/
def WritesSreg (s t : State) (n : Nat) (d : BitVec 5) (v : W64) : Prop :=
  (∀ r, sreg (here t) r = if r = d ∧ d ≠ 0 then v else sreg (here s) r) ∧
  Ends s t n { here s with s := if d = 0 then (here s).s else vset (here s).s d.toNat v }

/-- The destination, the value and the slots of the words of R240 (but its counts), R241, R242 and R243, from the operands read
as integers. -/
def scalarValue (k : Core) : Instr → Option (BitVec 5 × W64 × Nat)
  | .add d a b => some (d, BitVec.ofNat 64 ((sreg k a).toNat + (sreg k b).toNat), 1)
  | .sub d a b => some (d, BitVec.ofInt 64 ((sreg k a).toNat - (sreg k b).toNat), 1)
  | .mul d a b => some (d, BitVec.ofNat 64 ((sreg k a).toNat * (sreg k b).toNat), 1)
  | .mulh d a b => some (d, BitVec.ofInt 64 ((sreg k a).toInt * (sreg k b).toInt / 2 ^ 64), 1)
  | .mulhn d a b => some (d, BitVec.ofNat 64 ((sreg k a).toNat * (sreg k b).toNat / 2 ^ 64), 1)
  | .and d a b => some (d, sreg k a &&& sreg k b, 1)
  | .or d a b => some (d, sreg k a ||| sreg k b, 1)
  | .xor d a b => some (d, sreg k a ^^^ sreg k b, 1)
  | .andn d a b => some (d, sreg k a &&& ~~~sreg k b, 1)
  | .sll d a b => some (d, BitVec.ofNat 64 ((sreg k a).toNat * 2 ^ ((sreg k b).toNat % 64)), 1)
  | .srl d a b => some (d, BitVec.ofNat 64 ((sreg k a).toNat / 2 ^ ((sreg k b).toNat % 64)), 1)
  | .sra d a b => some (d, BitVec.ofInt 64 ((sreg k a).toInt / 2 ^ ((sreg k b).toNat % 64)), 1)
  | .slt d a b => some (d, if (sreg k a).toInt < (sreg k b).toInt then 1 else 0, 1)
  | .sltn d a b => some (d, if (sreg k a).toNat < (sreg k b).toNat then 1 else 0, 1)
  | .seq d a b => some (d, if sreg k a = sreg k b then 1 else 0, 1)
  | .sel d a b c => some (d, if sreg k c ≠ 0 then sreg k a else sreg k b, 1)
  | .min d a b => some (d, if (sreg k a).toInt ≤ (sreg k b).toInt then sreg k a else sreg k b, 1)
  | .max d a b => some (d, if (sreg k a).toInt ≥ (sreg k b).toInt then sreg k a else sreg k b, 1)
  | .minn d a b => some (d, if (sreg k a).toNat ≤ (sreg k b).toNat then sreg k a else sreg k b, 1)
  | .maxn d a b => some (d, if (sreg k a).toNat ≥ (sreg k b).toNat then sreg k a else sreg k b, 1)
  | .addi d a imm => some (d, BitVec.ofNat 64 ((sreg k a).toNat + imm.toNat), 1)
  | .andi d a imm => some (d, sreg k a &&& BitVec.ofNat 64 imm.toNat, 1)
  | .ori d a imm => some (d, sreg k a ||| BitVec.ofNat 64 imm.toNat, 1)
  | .xori d a imm => some (d, sreg k a ^^^ BitVec.ofNat 64 imm.toNat, 1)
  | .slti d a imm => some (d, if (sreg k a).toInt < imm.toInt then 1 else 0, 1)
  | .slli d a imm => some (d, BitVec.ofNat 64 ((sreg k a).toNat * 2 ^ imm.toNat), 1)
  | .srli d a imm => some (d, BitVec.ofNat 64 ((sreg k a).toNat / 2 ^ imm.toNat), 1)
  | .srai d a imm => some (d, BitVec.ofInt 64 ((sreg k a).toInt / 2 ^ imm.toNat), 1)
  | .movi d imm => some (d, BitVec.ofInt 64 imm.toInt, 1)
  | .movh d imm => some (d, BitVec.ofNat 64 (imm.toNat * 2 ^ 32 + (sreg k d).toNat % 2 ^ 32), 1)
  | _ => none

/-- Quotient and remainder of R241: exact, then modulo 2^64. -/
def IsQuotient (signed : Bool) (a b q r : W64) : Prop :=
  if b = 0 then q.toNat = 2 ^ 64 - 1 ∧ r = a
  else if signed then
    if a.toInt = -2 ^ 63 ∧ b.toInt = -1 then q = a ∧ r = 0
    else a.toInt = q.toInt * b.toInt + r.toInt ∧ r.toInt.natAbs < b.toInt.natAbs ∧ (0 < r.toInt → 0 < a.toInt) ∧
      (r.toInt < 0 → a.toInt < 0)
  else a.toNat = q.toNat * b.toNat + r.toNat ∧ r.toNat < b.toNat

end Sys2Proof.Machine

open Sys2Proof Sys2Proof.Machine

/-- R240, R242, R243. -/
def Obligations.ScalarResult : Prop :=
  ∀ (s : State) (w : QWord) (i : Instr) (d : BitVec 5) (v : W64) (n : Nat), s.word = some w →
    scalarValue (here s) i = some (d, v, n) → ∃ t, exec i s = .next t ∧ WritesSreg s t n d v

/-- R240, R241: the counts, quotients and remainders. -/
def Obligations.CountsAndDivision : Prop :=
  (∀ (s : State) (w : QWord) (d a : BitVec 5), s.word = some w →
     let x := (sreg (here s) a).toNat
     (∃ t v, exec (.clz d a) s = .next t ∧ WritesSreg s t 1 d v ∧ v.toNat ≤ 64 ∧ x < 2 ^ (64 - v.toNat) ∧
       (v.toNat < 64 → 2 ^ (63 - v.toNat) ≤ x)) ∧
     (∃ t v, exec (.ctz d a) s = .next t ∧ WritesSreg s t 1 d v ∧ v.toNat ≤ 64 ∧ x % 2 ^ v.toNat = 0 ∧
       (v.toNat < 64 → x / 2 ^ v.toNat % 2 = 1)) ∧
     (∃ t v, exec (.popc d a) s = .next t ∧ WritesSreg s t 1 d v ∧
       v.toNat = ((List.range 64).map fun i => x / 2 ^ i % 2).sum)) ∧
  (∀ (s : State) (w : QWord) (d a b : BitVec 5), s.word = some w →
     ∃ q r q' r', IsQuotient true (sreg (here s) a) (sreg (here s) b) q r ∧
       IsQuotient false (sreg (here s) a) (sreg (here s) b) q' r' ∧
       (∃ t, exec (.div d a b) s = .next t ∧ WritesSreg s t 36 d q) ∧
       (∃ t, exec (.rem d a b) s = .next t ∧ WritesSreg s t 36 d r) ∧
       (∃ t, exec (.divn d a b) s = .next t ∧ WritesSreg s t 36 d q') ∧
       (∃ t, exec (.remn d a b) s = .next t ∧ WritesSreg s t 36 d r'))

namespace Sys2Proof.Machine

/-! ### Control words -/

/-- A control word that sets the program counter (R247). -/
def GoesTo (s t : State) (k : Core) (pc : W64) : Prop :=
  (here t).pc = pc ∧ Ends s t 1 { k with pc, paths := (here t).paths }

/-- The conditions of bc (R247). -/
def Condition (c : Nat) (a b : W64) : Prop :=
  match c with
  | 0 => a = b
  | 1 => a ≠ b
  | 2 => a.toInt < b.toInt
  | 3 => b.toInt ≤ a.toInt
  | 4 => a.toNat < b.toNat
  | _ => b.toNat ≤ a.toNat

end Sys2Proof.Machine

/-- R247, R248. -/
def Obligations.ControlTransfer : Prop :=
  ∀ (s : State) (w : QWord) (a b : BitVec 5) (c : BitVec 3) (imm : BitVec 32), s.word = some w → c.toNat ≤ 5 →
    let k := here s
    let target := BitVec.ofInt 64 (w.head.toNat + 4 * imm.toInt)
    (∃ t, exec (.b imm) s = .next t ∧ GoesTo s t k target) ∧
    (∃ t, exec (.bc a b c imm) s = .next t ∧ (Condition c.toNat (sreg k a) (sreg k b) → GoesTo s t k target) ∧
      (¬Condition c.toNat (sreg k a) (sreg k b) → GoesTo s t k w.next)) ∧
    (∃ t, exec (.bz a imm) s = .next t ∧ GoesTo s t k (if sreg k a = 0 then target else w.next)) ∧
    (∃ t, exec (.bnz a imm) s = .next t ∧ GoesTo s t k (if sreg k a ≠ 0 then target else w.next)) ∧
    (∃ t, exec (.call imm) s = .next t ∧ sreg (here t) 31 = w.head + 4 ∧
      GoesTo s t { k with s := vset k.s 31 (w.head + 4) } target) ∧
    ((sreg k a).toNat % 4 = 0 → ∃ t, exec (.jr a) s = .next t ∧ GoesTo s t k (sreg k a)) ∧
    ((sreg k a).toNat % 4 ≠ 0 → w.origin ≠ .emitted → TrapReady k w.seq → Traps s w (exec (.jr a) s) 8 (sreg k a) 0)

/-- R252, R253, R254. -/
def Obligations.ControlWords : Prop :=
  ∀ (s : State) (w : QWord) (a b : BitVec 5) (imm : BitVec 16), s.word = some w →
    let k := here s
    (∃ t, exec .nop s = .next t ∧ Ends s t 1 k) ∧
    (∃ t, exec .endTask s = .next t ∧ Ends s t 1 { k with ending := true }) ∧
    (k.handler = true → ∃ t, exec .eret s = .next t ∧ (here t).handler = false ∧ (here t).pc = k.sys.epc ∧
      (k.sys.epc = k.sys.skipEpc → (here t).sys.skip = k.sys.skip ∧ (here t).nest = k.saved) ∧
      (k.sys.epc ≠ k.sys.skipEpc → (here t).sys.skip = Vector.replicate 7 [] ∧ (k.saved = none → (here t).nest = none) ∧
        ∀ n, k.saved = some n →
          (∀ j, j < n.body.length → k.sys.epc.toNat = n.addr.toNat + 4 * j → (here t).nest = some { n with pos := j }) ∧
          ((∀ j, j < n.body.length → k.sys.epc.toNat ≠ n.addr.toNat + 4 * j) → (here t).nest = none)) ∧
      Ends s t 1 { k with handler := false, pc := k.sys.epc, stepped := none, nest := (here t).nest, saved := none
                          sys := { k.sys with skip := (here t).sys.skip } }) ∧
    (k.handler = false → w.origin ≠ .emitted → TrapReady k w.seq → Traps s w (exec .eret s) 3 w.head 0) ∧
    (w.origin ≠ .emitted → TrapReady k w.seq → Traps s w (exec (.bkpt imm) s) 17 w.head (65536 + imm.toNat)) ∧
    (w.origin ≠ .emitted → TrapReady k w.seq → ∃ u t, exec (.trap imm) s = .next t ∧ Ends s u 1 k ∧
      TrapTaken u t s.core w.seq none 17 w.next w.head (estatOf w imm.toNat)) ∧
    ((sreg k a).toNat % 64 = 0 → (sreg k b).toNat < 2048 → k.handler = false → s.wcsLoad = none →
      ∃ t, exec (.wstart a b) s = .next t ∧ (here t).wick.run = true ∧ (here t).wick.wpc.toNat = (sreg k b).toNat ∧
        (here t).wick.pboff.toNat = (sreg k a).toNat % 2 ^ 22 ∧
        Ends s t 1 (opensToken w { k with wick := (here t).wick, runs := (here t).runs })) ∧
    (w.origin ≠ .emitted → TrapReady k w.seq →
      ((sreg k a).toNat % 64 ≠ 0 → Traps s w (exec (.wstart a b) s) 8 (BitVec.ofNat 64 ((sreg k a).toNat % 2 ^ 22)) 0) ∧
      ((sreg k a).toNat % 64 = 0 → 2048 ≤ (sreg k b).toNat → Traps s w (exec (.wstart a b) s) 19 (sreg k b) 3))

namespace Sys2Proof.Machine

/-! ### Memory -/

/-- The number of `n` little-endian bytes that stand from address `a` on. -/
def numberAt (m : Memory) (a n : Nat) : Nat := ((List.range n).map fun i => (m.byte (a + i)).toNat * 256 ^ i).sum

/-- `m'` is `m` with the low `n` bytes of `v` stored from address `a` on: every other byte and every grain's poison stand. -/
def Stores (m m' : Memory) (a n : Nat) (v : W64) : Prop :=
  m'.wf = true ∧ (∀ x, m'.byte x = if a ≤ x ∧ x < a + n then BitVec.ofNat 8 (v.toNat / 256 ^ (x - a)) else m.byte x) ∧
  m'.pois = m.pois

/-- No result is on its way to the scratchpad. -/
def NoSpadPend (k : Core) : Prop := ∀ p ∈ k.iss.pend, ∀ cells grains, p.dst ≠ .spad cells grains

/-- No result is on its way to the scratchpad, and the word sees every one that has come (R66, R68). -/
def NoSpadFlight (k : Core) (w : QWord) : Prop :=
  NoSpadPend k ∧ ∀ p ∈ k.iss.past, ∀ cells grains, p.old = .spad cells grains → pastSeen w p = true

/-- No result is on its way to the scratchpad, and the three steps of R84 order the word's captures after every one that has come. -/
def NoCaptureFlight (k : Core) (w : QWord) : Prop :=
  NoSpadPend k ∧ ∀ p ∈ k.iss.past, ∀ cells grains, p.old = .spad cells grains →
    captureSeen w p.fences = true ∨ (p.landed = true ∧ ordered w p.eng p.num p.seen = true)

/-- The word sees every write that has come to slot memory (R73). -/
def NoSlotFlight (k : Core) (w : QWord) : Prop := ∀ p ∈ k.iss.past, ∀ cells grains, p.old = .slot cells grains → pastSeen w p = true

/-- The offset of R244. -/
def spadAddress (k : Core) (a : BitVec 5) (imm : BitVec 32) : Nat :=
  ((((sreg k a).toNat : Int) + imm.toInt) % 2 ^ 22).toNat

end Sys2Proof.Machine

/-- R244, R245. -/
def Obligations.ScratchpadAndSlot : Prop :=
  ∀ (s : State) (w : QWord) (d a : BitVec 5) (wd : BitVec 2) (imm : BitVec 32) (e : BitVec 14), s.word = some w →
    let k := here s
    let o := spadAddress k a imm
    let n := 2 ^ wd.toNat
    (o % n = 0 → k.mem.spad.wf = true → NoSpadFlight k w →
      (k.mem.spad.pois.contains (o / 32) = false → ∃ t v, exec (.ldsp d a wd imm) s = .next t ∧ WritesSreg s t 1 d v ∧
        v.toNat = numberAt k.mem.spad o n) ∧
      (k.mem.spad.pois.contains (o / 32) = true → w.origin ≠ .emitted → TrapReady k w.seq →
        Traps s w (exec (.ldsp d a wd imm) s) 18 (BitVec.ofNat 64 o) 0) ∧
      (∃ t m, exec (.stsp d a wd imm) s = .next t ∧ Stores k.mem.spad m o n (sreg k d) ∧
        Ends s t 1 { keepStanding k (some w) false o n with mem := { k.mem with spad := m } })) ∧
    (o % n ≠ 0 → w.origin ≠ .emitted → TrapReady k w.seq →
      Traps s w (exec (.ldsp d a wd imm) s) 8 (BitVec.ofNat 64 o) 0 ∧
      Traps s w (exec (.stsp d a wd imm) s) 8 (BitVec.ofNat 64 o) 0) ∧
    (e.toNat % n = 0 → k.mem.slot.wf = true → NoSlotFlight k w →
      (k.mem.slot.pois.contains (e.toNat / 32) = false → ∃ t v, exec (.ldslot d wd e) s = .next t ∧ WritesSreg s t 1 d v ∧
        v.toNat = numberAt k.mem.slot e.toNat n) ∧
      (∃ t m, exec (.stslot d wd e) s = .next t ∧ Stores k.mem.slot m e.toNat n (sreg k d) ∧
        Ends s t 1 { keepStanding k (some w) true e.toNat n with mem := { k.mem with slot := m } })) ∧
    (e.toNat % n ≠ 0 → w.origin ≠ .emitted → TrapReady k w.seq →
      Traps s w (exec (.ldslot d wd e) s) 8 (BitVec.ofNat 64 e.toNat) 0 ∧
      Traps s w (exec (.stslot d wd e) s) 8 (BitVec.ofNat 64 e.toNat) 0)

namespace Sys2Proof.Machine

/-! ### Handles -/

/-- A handle register that no xlat in flight is to write, read by a word that sees every xlat before and does not already wait (R25). -/
def HandleIs (s : State) (w : QWord) (hn : BitVec 4) (x : BitVec 128) : Prop :=
  s.word = some w ∧ w.held = none ∧ vget (here s).h hn.toNat 0 = x ∧ (∀ p ∈ (here s).iss.hpend, p.h ≠ hn) ∧
  ∀ p ∈ (here s).iss.past, ∀ v, p.old = .handle hn.toNat v → pastSeen w p = true

/-- The handle leads to a local page (R26): the virtual address `va` of `n` bytes passes the checks, and they lie in cell `c` of
a frame whose attribute is the handle's (R37). -/
structure LocalAccess (s : State) (x : BitVec 128) (write : Bool) (va n c : Nat) : Prop where
  valid   : hV x = true
  res     : hRes x = 0
  range   : hOrigin x ≤ va ∧ va + n ≤ hBase x + pageSize (hSize x)
  allowed : hEo x = false ∧ (write = true → hWr x = true)
  aligned : va % n = 0
  region  : (permit s (.plain s.core) (hCtx x) va n write true).1 = .yes
  cell    : cellOf (hPhys x va) = some c
  format  : attrAt s c = hFormat x

end Sys2Proof.Machine

/-- R26. -/
def Obligations.HandleChecks : Prop :=
  ∀ (s : State) (w : QWord) (d b : BitVec 5) (hn : BitVec 4) (wd : BitVec 2) (x : BitVec 128), HandleIs s w hn x →
    w.origin ≠ .emitted → TrapReady (here s) w.seq →
    let va := hOrigin x + (sreg (here s) b).toNat
    let n := 2 ^ wd.toNat
    let both := fun code detail => Traps s w (exec (.ldh d hn b wd) s) code (BitVec.ofNat 64 va) detail ∧
      Traps s w (exec (.sth d hn b wd) s) code (BitVec.ofNat 64 va) detail
    (hV x = false → both 5 hn.toNat) ∧
    (hV x = true → hRes x = 3 → both 7 (hCause x)) ∧
    (hV x = true → hRes x ≠ 3 → hBase x + pageSize (hSize x) < va + n → both 6 hn.toNat) ∧
    (hV x = true → hRes x ≠ 3 → va + n ≤ hBase x + pageSize (hSize x) →
      (hEo x = true → both 4 0) ∧
      (hEo x = false → hWr x = false → Traps s w (exec (.sth d hn b wd) s) 4 (BitVec.ofNat 64 va) 0) ∧
      (hEo x = false → hWr x = true → va % n ≠ 0 → both 8 0) ∧
      (hEo x = false → hWr x = true → va % n = 0 → ∀ a,
        (permit s (.plain s.core) (hCtx x) va n false true = (.no, a) →
          Traps s w (exec (.ldh d hn b wd) s) 4 (BitVec.ofNat 64 a) 0) ∧
        (permit s (.plain s.core) (hCtx x) va n true true = (.no, a) →
          Traps s w (exec (.sth d hn b wd) s) 4 (BitVec.ofNat 64 a) 0)))

/-- R246, R103. -/
def Obligations.PlainAccess : Prop :=
  ∀ (s : State) (w : QWord) (d b : BitVec 5) (hn : BitVec 4) (wd : BitVec 2) (x : BitVec 128) (c : Nat), HandleIs s w hn x →
    s.dram.wf = true → Map.rising (here s).plain = true →
    let va := hOrigin x + (sreg (here s) b).toNat
    let n := 2 ^ wd.toNat
    let since := plainAfter (here s) va
    let settled := ∀ e ∈ s.hist, c ≤ e.cell → e.cell < c + n → e.stamp ≤ since
    (LocalAccess s x false va n c → Map.find (here s).plain (va / 64) = none → s.dram.pois.contains (c / 32) = false →
      (settled → ∃ t v, exec (.ldh d hn b wd) s = .next t ∧ v.toNat = numberAt s.dram c n ∧ WritesSreg s t 1 d v) ∧
      ((∀ e ∈ s.hist, c ≤ e.cell → e.cell < c + n → since < e.stamp → e.old.2 = false) →
        ∃ t v, exec (.ldh d hn b wd) s = .next t ∧ (∀ r, sreg (here t) r = if r = d ∧ d ≠ 0 then v else sreg (here s) r) ∧
          t.dram = s.dram ∧ v.toNat < 256 ^ n ∧ ∀ i, i < n → BitVec.ofNat 8 (v.toNat / 256 ^ i) = s.dram.byte (c + i) ∨
            ∃ e ∈ s.hist, e.cell = c + i ∧ since < e.stamp ∧ e.old.1 = BitVec.ofNat 8 (v.toNat / 256 ^ i))) ∧
    (LocalAccess s x false va n c → Map.find (here s).plain (va / 64) = none → s.dram.pois.contains (c / 32) = true → settled →
      w.origin ≠ .emitted → TrapReady (here s) w.seq →
      ∃ t, exec (.ldh d hn b wd) s = .next t ∧ (getCore t s.core).sys.trapcode = 18 ∧
        (getCore t s.core).sys.trapaddr = BitVec.ofNat 64 va ∧ (getCore t s.core).s = (here s).s) ∧
    (LocalAccess s x true va n c → (∀ l, Map.find (here s).plain (va / 64) = some l → l.data.length = 64) →
      ∃ t l, exec (.sth d hn b wd) s = .next t ∧ Map.find (here t).plain (va / 64) = some l ∧
        (∀ i, i < n → l.dirty.getLsbD (va % 64 + i) = true ∧
          lget l.data (va % 64 + i) (0, true) = (BitVec.ofNat 8 ((sreg (here s) d).toNat / 256 ^ i), false)) ∧
        Ends s t 1 { here s with plain := (here t).plain } ∧
        (∀ j, j ≠ va / 64 → Map.find (here t).plain j = Map.find (here s).plain j))

/-- R24, R25. -/
def Obligations.Translation : Prop :=
  ∀ (s : State) (w : QWord) (h : BitVec 4) (n : BitVec 2) (a : BitVec 5),
    (s.word = some w → ∃ u, exec (.xlat h n a) s = .next (due u [.pageWalkComplete s.core w.num]) ∧
      Ends s u 1 (opensToken w { here s with iss := { (here s).iss with hpend := (here s).iss.hpend ++
        [{ h, num := w.num, due := vget (here s).iss.slots 0 0 + 8, seen := [], va := sreg (here s) a, intent := n
           marked := (here s).sys.pend, val := none }] } })) ∧
    (∀ c p, (getCore s c).iss.hpend = [p] → p.val = none → s.cores.find c = some (getCore s c) →
      tlbFind (getCore s c).tlb (taskCtx (getCore s c)) p.va.toNat = none →
      tlbFind (Map.get [] s.mmu.tlbs (c / 160)) (taskCtx (getCore s c)) p.va.toNat = none →
      (p.intent ≠ 0 → movingAt s (taskCtx (getCore s c)) p.va.toNat = false ∧
        (shadeAt s (taskCtx (getCore s c)) p.va.toNat = true → p.asked = true)) →
      let x := mkHandle (walk s (taskCtx (getCore s c)) p.va.toNat) (taskCtx (getCore s c)) p.va.toNat
      ∃ t, exec (.pageWalkComplete c p.num) s = .next t ∧ (.s, p.num) ∉ (getCore t c).iss.openTok ∧
        (p.due ≤ vget (getCore s c).iss.slots 0 0 → vget (getCore t c).h p.h.toNat 0 = x ∧ (getCore t c).iss.hpend = []) ∧
        (vget (getCore s c).iss.slots 0 0 < p.due → (getCore t c).h = (getCore s c).h ∧
          (getCore t c).iss.hpend = [{ p with val := some x }]) ∧
        (getCore t c).s = (getCore s c).s ∧ (getCore t c).mem = (getCore s c).mem ∧ (getCore t c).pc = (getCore s c).pc ∧
        ∀ d, d ≠ c → getCore t d = getCore s d)

/-- R23. -/
def Obligations.HandleFields : Prop :=
  ∀ (leaf : W64) (size : BitVec 2) (addr ctx va cause : Nat), ctx < 256 → va < 2 ^ 52 → cause < 4 →
    let x := mkHandle (.ok leaf size addr) ctx va
    let y := mkHandle (.no cause) ctx va
    (hV x = true ∧ hRes x = bits leaf.toNat 7 2 ∧ hSize x = size ∧
      hFormat x = { gran := BitVec.ofNat 2 (bits leaf.toNat 14 2), tol := leaf.getLsbD 48
                    tcls := BitVec.ofNat 3 (bits leaf.toNat 49 3) } ∧
      hCodec x = bits leaf.toNat 52 2 ∧ hWr x = leaf.getLsbD 54 ∧ hEo x = leaf.getLsbD 55 ∧ hPmode x = leaf.getLsbD 13 ∧ hStack x = bits leaf.toNat 9 4 ∧
      hCause x = 0 ∧ hCtx x = ctx ∧ hOrigin x = va ∧ hFrame x = bits leaf.toNat 16 32) ∧
    (hV y = true ∧ hRes y = 3 ∧ hCause y = cause ∧ hCtx y = ctx ∧ hOrigin y = va ∧ hFrame y = 0 ∧ hSize y = 0 ∧
      hWr y = false ∧ hEo y = false)

namespace Sys2Proof.Machine

/-! ### System registers -/

/-- What sysr returns in either mode (R223, R249 to R251, R200, R206, R389, R397) where no flags are in flight. -/
def sysRegister (s : State) (τ : Task) : Nat → Option W64
  | 0x000 => some (BitVec.ofNat 64 τ.ord)
  | 0x001 => some (BitVec.ofNat 64 τ.phase)
  | 0x002 => some (BitVec.ofNat 64 τ.rank)
  | 0x003 => some (BitVec.ofNat 64 τ.gsize)
  | 0x004 => some (BitVec.ofNat 64 s.core)
  | 0x005 => some s.tstamp
  | 0x008 => some ((here s).sys.npdef.setWidth 64)
  | 0x009 => some ((here s).sys.fpflags.setWidth 64)
  | 0x00A => some (BitVec.ofNat 64 ((if (here s).sys.step then 2 else 0) + if (here s).sys.pend then 1 else 0))
  | 0x010 => some (here s).sys.trapvec
  | 0x011 => some (here s).sys.trapcode
  | 0x012 => some (here s).sys.trapaddr
  | 0x013 => some (here s).sys.epc
  | 0x014 => some (here s).sys.estat
  | _ => none

/-- What sysr returns in handler mode of the registers that no agent but this core changes. -/
def mgmtRegister (s : State) : Nat → Option W64
  | 0x110 => some (here s).mreg.rglo
  | 0x111 => some (here s).mreg.rghi
  | 0x118 => some s.mmu.shzBase
  | 0x119 => some s.mmu.shzLen
  | 0x121 => some (here s).mreg.pgopdst
  | 0x128 => some s.mmu.frtBase
  | 0x130 => some (here s).mreg.qarg
  | 0x132 => some (here s).mreg.qstat
  | 0x138 => some (vget (here s).mreg.htd 0 0)
  | 0x13F => some (vget (here s).mreg.htd 7 0)
  | _ => none

/-- No flags of a word whose token is still to come, and the word sees those that have come (R200). -/
def NoFlagFlight (k : Core) (w : QWord) : Prop :=
  (∀ p ∈ k.iss.pend, ∀ f, p.dst ≠ .flags f) ∧ ∀ p ∈ k.iss.past, ∀ f, p.old = .flags f → pastSeen w p = true

/-- A word that writes system registers of the task. -/
def WritesSys (s : State) (r : Host.Outcome State Fault Refusal) (y : SysReg) : Prop :=
  ∃ t, r = .next t ∧ Ends s t 1 { here s with sys := y }

/-- A word that writes management registers of the core. -/
def WritesMgmt (s : State) (r : Host.Outcome State Fault Refusal) (m : MReg) : Prop :=
  ∃ t, r = .next t ∧ Ends s t 1 { here s with mreg := m }

/-- A word that writes management registers of the core and starts an operation. -/
def StartsOp (s : State) (r : Host.Outcome State Fault Refusal) (m : MReg) (e : Event) : Prop :=
  ∃ u, r = .next (due u [e]) ∧ Ends s u 1 { here s with mreg := m }

end Sys2Proof.Machine

/-- R223, R249. -/
def Obligations.SystemRead : Prop :=
  ∀ (s : State) (w : QWord) (d : BitVec 5) (x : BitVec 12) (τ : Task), s.word = some w → (here s).task = some τ →
    (∀ v, sysRegister s τ x.toNat = some v → NoFlagFlight (here s) w →
      ∃ t, exec (.sysr d x) s = .next t ∧ WritesSreg s t 1 d v) ∧
    (∀ v, mgmtRegister s x.toNat = some v → (here s).handler = true →
      ∃ t, exec (.sysr d x) s = .next t ∧ WritesSreg s t 1 d v) ∧
    (0x100 ≤ x.toNat → w.origin ≠ .emitted → TrapReady (here s) w.seq → Traps s w (exec (.sysr d x) s) 3 w.head 0)

/-- R249, R250, R200, R206, R397. -/
def Obligations.SystemWrite : Prop :=
  ∀ (s : State) (w : QWord) (a : BitVec 5), s.word = some w →
    let k := here s
    let v := sreg k a
    let write := fun x => exec (.sysw a x) s
    (v.toNat < 4 → WritesSys s (write 8) { k.sys with npdef := v.setWidth 6 }) ∧
    (v.toNat < 128 → NoFlagFlight k w → ∃ t past, write 9 = .next t ∧ (∀ p ∈ past, p ∈ k.iss.past) ∧
      (∀ p ∈ k.iss.past, (∀ f, p.old ≠ .flags f) → p ∈ past) ∧
      Ends s t 1 { k with sys := { k.sys with fpflags := v.setWidth 7 }, iss := { k.iss with past } }) ∧
    (v.toNat < 4 → (k.handler = true ∨ v.getLsbD 1 = k.sys.step) →
      WritesSys s (write 10) { k.sys with step := v.getLsbD 1, pend := v.getLsbD 0 }) ∧
    (k.handler = true →
      (v.toNat < 2 ^ 52 → v.toNat % 4 = 0 → WritesSys s (write 16) { k.sys with trapvec := v } ∧
        WritesSys s (write 19) { k.sys with epc := v }) ∧
      (v.toNat < 256 → WritesSys s (write 17) { k.sys with trapcode := v }) ∧
      WritesSys s (write 18) { k.sys with trapaddr := v } ∧
      (v.toNat / 2 ^ 32 % 2 ^ 27 = 0 → WritesSys s (write 20) { k.sys with estat := v })) ∧
    (w.origin ≠ .emitted → TrapReady k w.seq →
      (64 ≤ v.toNat → Traps s w (write 8) 1 w.head 0) ∧ (4 ≤ v.toNat → v.toNat < 64 → Traps s w (write 8) 9 w.head 0) ∧
      (128 ≤ v.toNat → Traps s w (write 9) 1 w.head 0) ∧ (4 ≤ v.toNat → Traps s w (write 10) 1 w.head 0) ∧
      (v.toNat < 4 → v.getLsbD 1 ≠ k.sys.step → Traps s w (write 10) 3 w.head 0) ∧
      (∀ x : BitVec 12, x.toNat ≤ 5 ∨ (16 ≤ x.toNat ∧ x.toNat ≤ 20) ∨ x.toNat = 24 ∨ 256 ≤ x.toNat →
        Traps s w (write x) 3 w.head 0))

/-- R27, R38, R101, R127, R133, R139, R32: the management registers in handler mode. -/
def Obligations.ManagementWrite : Prop :=
  ∀ (s : State) (w : QWord) (a : BitVec 5), s.word = some w → (here s).handler = true →
    let m := (here s).mreg
    let v := sreg (here s) a
    let write := fun x => exec (.sysw a x) s
    (v.toNat < 2 ^ 52 → v.toNat % 65536 = 0 → WritesMgmt s (write 0x100) { m with sdva := v }) ∧
    (v.toNat < 2 ^ 25 → WritesMgmt s (write 0x101) { m with sdlen := v }) ∧
    (∀ c : BitVec 8, v = c.setWidth 64 + 256 → m.sdBusy = false → shootCount s < 16 →
      StartsOp s (write 0x102) { m with sdctl := c.setWidth 64, sdBusy := true }
        (.shootdownStart { src := .core s.core, ctx := c.toNat, vpn := m.sdva.toNat / 65536 % 2 ^ 36
                           units := m.sdlen.toNat % 2 ^ 25 })) ∧
    (v.toNat < 2 ^ 48 → v.toNat % 65536 = 0 → WritesMgmt s (write 0x108) { m with fmtbase := v }) ∧
    (v.toNat < 2 ^ 25 → WritesMgmt s (write 0x109) { m with fmtlen := v }) ∧
    WritesMgmt s (write 0x110) { m with rglo := v } ∧ WritesMgmt s (write 0x111) { m with rghi := v } ∧
    (∀ i : BitVec 12, m.rgBusy = false →
      (v = i.setWidth 64 + 4096 → StartsOp s (write 0x112) { m with rgctl := i.setWidth 64, rgBusy := true }
        (.regionDescriptorRead s.core i.toNat)) ∧
      (v = i.setWidth 64 + 8192 → regionLegal s i.toNat { w0 := m.rglo, w1 := m.rghi } = true → bindersOf s i.toNat = [] →
        StartsOp s (write 0x112) { m with rgctl := i.setWidth 64, rgBusy := true }
          (.regionDescriptorWrite s.core i.toNat m.rglo m.rghi))) ∧
    WritesMgmt s (write 0x120) { m with pgopva := v } ∧ WritesMgmt s (write 0x121) { m with pgopdst := v } ∧
    WritesMgmt s (write 0x122) { m with pgopca := v } ∧ WritesMgmt s (write 0x130) { m with qarg := v } ∧
    (∀ q : BitVec 12, v = q.setWidth 64 + 2 ^ 30 → m.qBusy = false →
      StartsOp s (write 0x131) { m with qctl := q.setWidth 64, qBusy := true }
        (.queueCreate { src := .core s.core, ctx := taskCtx (here s), qid := q.toNat, arg := m.qarg })) ∧
    (∀ i : BitVec 8, v = i.setWidth 64 + 8192 → m.htBusy = false →
      StartsOp s (write 0x140) { m with htctl := i.setWidth 64, htBusy := true }
        (.hubTableRead { src := .core s.core, window := false, idx := i.toNat, words := m.htd.toList }))

namespace Sys2Proof.Machine

/-! ### Loops and generators -/

/-- The number of iterations of a nest (R260). -/
def iterations (ext : List Nat) : Nat := ext.foldl (· * ·) 1

/-- The place of an index vector in odometer order, level 0 fastest (R260). -/
def ordinal : List Nat → List Nat → Nat
  | e :: es, i :: is => i + e * ordinal es is
  | _, _ => 0

/-- Whether every index is below its extent. -/
def validIndex : List Nat → List Nat → Prop
  | e :: es, i :: is => i < e ∧ validIndex es is
  | [], [] => True
  | _, _ => False

/-- Whether an lbrk with condition `x` fires on a mask (R261). -/
def Fires (x : Nat) (m : BitVec 128) : Prop :=
  match x with
  | 0 => ∃ i, i < 128 ∧ m.getLsbD i = true
  | 1 => ∀ i, i < 128 → m.getLsbD i = false
  | _ => ∀ i, i < 128 → m.getLsbD i = true

/-- One step of a generator's odometer from dimension `j` on (R263); `fuel` dimensions remain. -/
def specStep (ext : Nat → Nat) : Nat → Nat → (Nat → Nat) → Nat → Nat
  | 0, _, idx => idx
  | fuel + 1, j, idx =>
    if idx j + 1 < ext j then fun i => if i = j then idx j + 1 else idx i
    else specStep ext fuel (j + 1) fun i => if i = j then 0 else idx i

/-- `n` steps. -/
def specSteps (ext : Nat → Nat) (d : Nat) : Nat → (Nat → Nat) → Nat → Nat
  | 0, idx => idx
  | n + 1, idx => specSteps ext d n (specStep ext (6 - d) d idx)

/-- A word that writes a generator (R263, R264). -/
def WritesGen (s t : State) (g : BitVec 3) (x : Gen) : Prop := Ends s t 1 { here s with g := vset (here s).g g.toNat x }

/-- The address of a generator (R262) whose table entry in effect is `ent`. -/
def specAddress (x : Gen) (ent : W32) : Int :=
  (x.base.toNat : Int) + ((List.range 6).map fun d =>
    (if x.indv = true ∧ d = x.ind.toNat then ent.toInt else ((vget x.idx d 0).toNat : Int)) * (vget x.stride d 0).toInt).sum

/-- A steered group at the end of its engine's queue, as a new head (R219). -/
structure Steered (k : Core) (e : Eng) (w : QWord) (g : Group) (va after : W64) (src : Origin) : Prop where
  seq    : w.seq = k.iss.seq
  eng    : w.eng = e
  num    : w.num = vget k.iss.heads (engIx e) 0 + 1
  addr   : w.addr = va
  head   : w.head = va + BitVec.ofNat 64 (4 * g.head)
  next   : w.next = after
  instr  : w.instr = g.instr
  np     : w.np = k.sys.npdef.toNat
  origin : w.origin = src
  deps   : w.deps = g.deps.filterMap (refHead k.iss)
  awake  : w.asleep = false ∧ w.held = none

end Sys2Proof.Machine

/-- R258, R259, R260, R261: the words of loops, and the order of the odometer. -/
def Obligations.Loops : Prop :=
  (∀ (s : State) (w : QWord) (a : BitVec 5) (d k x m : BitVec 3) (imm : BitVec 32), s.word = some w →
     let c := here s
     let e := (sreg c a).toNat + imm.toNat
     (e ≤ 2 ^ 24 → ∃ t, exec (.loop d a imm) s = .next t ∧
       Ends s t 1 { c with loopx := vset c.loopx d.toNat (BitVec.ofNat 25 e) }) ∧
     (2 ^ 24 < e → w.origin ≠ .emitted → TrapReady c w.seq → Traps s w (exec (.loop d a imm) s) 1 w.head 0) ∧
     (w.origin = .fetched → TrapReady c w.seq → Traps s w (exec (.lbrk x d m) s) 1 w.head 0) ∧
     (w.origin = .replayed → x.toNat < 3 → ¬Fires x.toNat (mreg c m) →
       ∃ t, exec (.lbrk x d m) s = .next t ∧ Ends s t 1 c) ∧
     (∀ n, w.origin = .replayed → x.toNat < 3 → Fires x.toNat (mreg c m) → c.nest = some n →
       ∃ t, exec (.lbrk x d m) s = .next t ∧
         (∀ j, bump n.ext n.idx (d.toNat + 1) = some j →
           Ends s t 1 { c with nest := some { n with idx := j, pos := 0 }, fired := w.num :: c.fired }) ∧
         (bump n.ext n.idx (d.toNat + 1) = none →
           (here t).nest = none ∧ (here t).pc = n.next ∧ (.l, n.num) ∉ (here t).iss.openTok ∧
           Ends s t 1 { c with nest := none, pc := n.next, fired := w.num :: c.fired
                               iss := { c.iss with openTok := c.iss.openTok.filter (· ≠ (.l, n.num)) } })) ∧
     (∀ u body, 1 ≤ imm.toNat → imm.toNat ≤ 64 → fetchBody s.core w.next.toNat imm.toNat s [] = (u, .ok body) →
       bodyCheck w.next.toNat (k.toNat + 1) body = none → u.word = some w → u.core = s.core →
       ((here u).handler = true → (here u).saved = none) →
       let ext := (List.range (k.toNat + 1)).map fun d => (vget (here u).loopx d 1).toNat
       let nest : Nest := { body := body.map (BitVec.ofNat 32), addr := w.next, next := w.next + BitVec.ofNat 64 (4 * imm.toNat)
                            num := w.num, ext, idx := ext.map fun _ => 0, pos := 0 }
       ∃ t, exec (.lbody k imm) s = .next t ∧ (here t).loopx = Vector.replicate 6 1 ∧
         (iterations ext ≠ 0 → Ends u t 1 (opensToken w { here u with
           loopx := Vector.replicate 6 1, nest := some nest, nests := (here t).nests })) ∧
         (iterations ext = 0 → (here t).nest = (here u).nest ∧ (here t).pc = nest.next ∧ (here t).s = (here u).s ∧
           (.l, w.num) ∉ (here t).iss.openTok)) ∧
     ((imm.toNat = 0 ∨ 64 < imm.toNat) → w.origin ≠ .emitted → TrapReady c w.seq →
       ∃ t, exec (.lbody k imm) s = .next t ∧ TrapTaken s t s.core w.seq (some (w.eng, w.num)) 1 w.addr w.head 0)) ∧
  (∀ (ext idx : List Nat) (d : Nat), validIndex ext idx → d ≤ ext.length →
     let p := iterations (ext.take d)
     let next := (ordinal ext idx / p + 1) * p
     (next < iterations ext → ∃ j, bump ext idx d = some j ∧ validIndex ext j ∧ ordinal ext j = next) ∧
     (iterations ext ≤ next → bump ext idx d = none))

/-- R260, R183, R216, R219: steering and emission. -/
def Obligations.Steering : Prop :=
  ∀ (s : State) (c : Nat),
    let k := getCore s c
    (∀ n g, k.nest = some n → stopped k = false → (∀ e, ∀ w ∈ vget k.iss.queues e [], ∀ x d m, w.instr ≠ .lbrk x d m) →
      k.sys.step = false → n.pos < n.body.length → decodeGroup ((n.body.map (·.toNat)).drop n.pos) = .ok g →
      let e := headEngine (lget (n.body.map (·.toNat)) (n.pos + g.head) 0)
      (k.handler = true ∨ vget k.sys.skip (engIx e) [] = []) →
      ∃ t w, exec (.loopBodyEmission c) s = .next t ∧
        Steered k e w g (n.addr + BitVec.ofNat 64 (4 * n.pos)) (n.addr + BitVec.ofNat 64 (4 * n.pos) + BitVec.ofNat 64 (4 * g.len))
          .replayed ∧
        vget (getCore t c).iss.queues (engIx e) [] = vget k.iss.queues (engIx e) [] ++ [w] ∧
        (∀ f, f ≠ engIx e → vget (getCore t c).iss.queues f [] = vget k.iss.queues f []) ∧
        (getCore t c).nest = some { n with pos := n.pos + g.len } ∧ t = { s with cores := t.cores } ∧
        ∀ b, b ≠ c → getCore t b = getCore s b) ∧
    (∀ n, k.nest = some n → stopped k = false → (∀ e, ∀ w ∈ vget k.iss.queues e [], ∀ x d m, w.instr ≠ .lbrk x d m) →
      n.body.length ≤ n.pos → bump n.ext n.idx 0 = none →
      ∃ t, exec (.loopBodyEmission c) s = .next t ∧ t = { s with cores := t.cores } ∧
        getCore t c = { k with nest := none, pc := n.next
                               iss := { k.iss with openTok := k.iss.openTok.filter (· ≠ (.l, n.num)) } }) ∧
    (∀ u g ws, splitterHeld k = false → k.sys.step = false → fetchGroup s c k.pc.toNat = (u, .ok (g, ws)) →
      let e := headEngine (lget ws g.head 0)
      let j := getCore u c
      (j.handler = true ∨ vget j.sys.skip (engIx e) [] = []) →
      ∃ t w, exec (.splitterSteerGroup c) s = .next t ∧
        Steered j e w g k.pc (k.pc + BitVec.ofNat 64 (4 * g.len)) .fetched ∧
        (getCore t c).pc = k.pc + BitVec.ofNat 64 (4 * g.len) ∧
        vget (getCore t c).iss.queues (engIx e) [] = vget j.iss.queues (engIx e) [] ++ [w] ∧
        (∀ f, f ≠ engIx e → vget (getCore t c).iss.queues f [] = vget j.iss.queues f []) ∧
        t = { u with cores := t.cores } ∧ ∀ b, b ≠ c → getCore t b = getCore u b)

/-- R262 to R265. -/
def Obligations.Generators : Prop :=
  ∀ (s : State) (w : QWord) (g d : BitVec 3) (a b : BitVec 5) (imm : BitVec 32), s.word = some w → d.toNat < 6 →
    let c := here s
    let x := vget c.g g.toNat .reset
    let e := (sreg c a).toNat
    let z := sreg c b
    (∃ t, exec (.agset g a imm) s = .next t ∧
      WritesGen s t g { Gen.reset with base := BitVec.ofNat 64 ((sreg c a).toNat + imm.toNat) }) ∧
    (0 < e → e ≤ 2 ^ 24 → (z.setWidth 32).signExtend 64 = z → (x.indv = true → x.ind ≠ d) →
      ∃ t, exec (.agdim g d a b) s = .next t ∧ WritesGen s t g { x with
        ext := vset x.ext d.toNat (BitVec.ofNat 25 e), stride := vset x.stride d.toNat (z.setWidth 32)
        idx := vset x.idx d.toNat 0 }) ∧
    ((e = 0 ∨ 2 ^ 24 < e ∨ (z.setWidth 32).signExtend 64 ≠ z) → w.origin ≠ .emitted → TrapReady c w.seq →
      Traps s w (exec (.agdim g d a b) s) 1 w.head 0) ∧
    (e % 4 ≠ 0 → w.origin ≠ .emitted → TrapReady c w.seq →
      Traps s w (exec (.agind g d a) s) 8 (BitVec.ofNat 64 (e % 2 ^ 22)) 0) ∧
    (∀ o, o = (e % 2 ^ 22 + 4 * (vget x.idx d.toNat 0).toNat) % 2 ^ 22 → e % 4 = 0 → NoSpadFlight c w → c.mem.spad.wf = true → c.mem.spad.pois.contains (o / 32) = false →
      ∃ t, exec (.agind g d a) s = .next t ∧ WritesGen s t g { x with
        indv := true, ind := d, tbase := BitVec.ofNat 22 e, ent := genEnt x (vget c.iss.slots 1 0)
        reads := x.reads.filter (fun y => decide (vget c.iss.slots 1 0 < y.1)) ++
          [(vget c.iss.slots 1 0 + 6, BitVec.ofNat 32 (numberAt c.mem.spad o 4))] }) ∧
    (x.indv = false → (∀ j, j < 6 → (vget x.idx j 0).toNat < (vget x.ext j 1).toNat ∧ (vget x.ext j 1).toNat ≤ 2 ^ 24) →
      ∃ t idx, exec (.agstep g d imm) s = .next t ∧ WritesGen s t g { x with idx } ∧
        ∀ j, j < 6 → (vget idx j 0).toNat =
          specSteps (fun j => (vget x.ext j 1).toNat) d.toNat imm.toNat (fun j => (vget x.idx j 0).toNat) j) ∧
    (x.reads = [] → ∃ t, exec (.agrd g a) s = .next t ∧ WritesSreg s t 1 a (BitVec.ofInt 64 (specAddress x x.ent))) ∧
    (∃ t, exec (.agrdIdx g d a) s = .next t ∧ WritesSreg s t 1 a (BitVec.ofNat 64 (vget x.idx d.toNat 0).toNat))

namespace Sys2Proof.Machine

/-! ### Vector words -/

/-- An exact integer result (R276): modulo 2^32, or clamped with SAT. -/
def specInt (t : BitVec 2) (q : BitVec 1) (x : Int) : W32 × FlagSet :=
  let lo : Int := if t = 1 then -2 ^ 31 else 0
  let hi : Int := if t = 1 then 2 ^ 31 - 1 else 2 ^ 32 - 1
  if q = 1 then (BitVec.ofInt 32 (max lo (min hi x)), if lo ≤ x ∧ x ≤ hi then 0 else fSAT) else (BitVec.ofInt 32 x, 0)

/-- A lane-wise word: destination, mask, latency, sources, and the lane's result with its flags from the operands. -/
structure LaneWord where
  d       : BitVec 5
  m       : BitVec 3
  latency : Nat
  srcs    : List (BitVec 5)
  result  : List W32 → W32 × FlagSet

/-- The lane-wise words (R275 to R279, R282, R283, R286, R297). The f32 results are the exact ones delivered by sat_cvt, which
`fpLane` is. -/
def laneWord : Instr → Option LaneWord
  | .vadd d a b m t r q => some ⟨d, m, if t = 0 then 3 else 2, [a, b], fun l =>
      if t = 0 then fpLane (addExact (fpOf (opd l 0)) (fpOf (opd l 1)) (r == 3)) r
      else specInt t q (intVal t (opd l 0) + intVal t (opd l 1))⟩
  | .vsub d a b m t r q => some ⟨d, m, if t = 0 then 3 else 2, [a, b], fun l =>
      if t = 0 then fpLane (addExact (fpOf (opd l 0)) (negate (fpOf (opd l 1))) (r == 3)) r
      else specInt t q (intVal t (opd l 0) - intVal t (opd l 1))⟩
  | .vmul d a b m t r q => some ⟨d, m, if t = 0 then 3 else 2, [a, b], fun l =>
      if t = 0 then fpLane (mulExact (fpOf (opd l 0)) (fpOf (opd l 1))) r
      else specInt t q (intVal t (opd l 0) * intVal t (opd l 1))⟩
  | .vfma d a b m t r q => some ⟨d, m, if t = 0 then 4 else 2, [a, b, d], fun l =>
      let x := fpOf (opd l 0)
      let y := fpOf (opd l 1)
      let z := fpOf (opd l 2)
      if t = 0 then fpLane (fmaExact x y z false (r == 3) [x, y, z]) r
      else specInt t q (intVal t (opd l 0) * intVal t (opd l 1) + intVal t (opd l 2))⟩
  | .vfms d a b m t r q => some ⟨d, m, if t = 0 then 4 else 2, [a, b, d], fun l =>
      let x := fpOf (opd l 0)
      let y := fpOf (opd l 1)
      let z := fpOf (opd l 2)
      if t = 0 then fpLane (fmaExact x y (negate z) false (r == 3) [x, y, z]) r
      else specInt t q (intVal t (opd l 0) * intVal t (opd l 1) - intVal t (opd l 2))⟩
  | .vfnma d a b m t r q => some ⟨d, m, if t = 0 then 4 else 2, [a, b, d], fun l =>
      let x := fpOf (opd l 0)
      let y := fpOf (opd l 1)
      let z := fpOf (opd l 2)
      if t = 0 then fpLane (fmaExact x y z true (r == 3) [x, y, z]) r
      else specInt t q (intVal t (opd l 2) - intVal t (opd l 0) * intVal t (opd l 1))⟩
  | .vmin d a b m t _ => some ⟨d, m, 2, [a, b], fun l =>
      if t = 0 then let r := min2 (opd l 0).toNat (opd l 1).toNat; (BitVec.ofNat 32 r.1, r.2)
      else (if intVal t (opd l 0) < intVal t (opd l 1) then opd l 0 else opd l 1, 0)⟩
  | .vmax d a b m t _ => some ⟨d, m, 2, [a, b], fun l =>
      if t = 0 then let r := max2 (opd l 0).toNat (opd l 1).toNat; (BitVec.ofNat 32 r.1, r.2)
      else (if intVal t (opd l 0) < intVal t (opd l 1) then opd l 1 else opd l 0, 0)⟩
  | .vabs d a m t q => some ⟨d, m, 2, [a], fun l =>
      if t = 0 then (BitVec.ofNat 32 ((opd l 0).toNat % 2 ^ 31), 0) else specInt t q (opd l 0).toInt.natAbs⟩
  | .vneg d a m t q => some ⟨d, m, 2, [a], fun l =>
      if t = 0 then (BitVec.ofNat 32 ((opd l 0).toNat + 2 ^ 31), 0) else specInt t q (-(opd l 0).toInt)⟩
  | .vaddi d a m i => some ⟨d, m, 2, [a], fun l => (BitVec.ofInt 32 ((opd l 0).toInt + i.toInt), 0)⟩
  | .vand d a b m => some ⟨d, m, 2, [a, b], fun l => (opd l 0 &&& opd l 1, 0)⟩
  | .vor d a b m => some ⟨d, m, 2, [a, b], fun l => (opd l 0 ||| opd l 1, 0)⟩
  | .vxor d a b m => some ⟨d, m, 2, [a, b], fun l => (opd l 0 ^^^ opd l 1, 0)⟩
  | .vnot d a m => some ⟨d, m, 2, [a], fun l => (~~~(opd l 0), 0)⟩
  | .vshl d a b m => some ⟨d, m, 2, [a, b], fun l => (BitVec.ofNat 32 ((opd l 0).toNat * 2 ^ ((opd l 1).toNat % 32)), 0)⟩
  | .vshr d a b m => some ⟨d, m, 2, [a, b], fun l => (BitVec.ofNat 32 ((opd l 0).toNat / 2 ^ ((opd l 1).toNat % 32)), 0)⟩
  | .vsra d a b m => some ⟨d, m, 2, [a, b], fun l => (BitVec.ofInt 32 ((opd l 0).toInt / 2 ^ ((opd l 1).toNat % 32)), 0)⟩
  | .vclass d a m f => some ⟨d, m, 2, [a], fun l => (BitVec.ofNat 32 (2 ^ classBit f.toNat (opd l 0).toNat), 0)⟩
  | .vcvt d a f g r q => some ⟨d, 0, 3, [a], fun l =>
      let c := convert f.toNat g.toNat (opd l 0).toNat r (q == 1)
      (BitVec.ofNat 32 c.1, c.2)⟩
  | .vscale d a b m t r q => some ⟨d, m, 3, [a, b], fun l => scaleLane t r q (opd l 0) (opd l 1)⟩
  | .vmov d a m => some ⟨d, m, 2, [a], fun l => (opd l 0, 0)⟩
  | _ => none

/-- The type field is one that decodes (R275). -/
def typeLegal : Instr → Prop
  | .vadd _ _ _ _ t _ _ | .vsub _ _ _ _ t _ _ | .vmul _ _ _ _ t _ _ | .vfma _ _ _ _ t _ _ | .vfms _ _ _ _ t _ _
  | .vfnma _ _ _ _ t _ _ | .vmin _ _ _ _ t _ | .vmax _ _ _ _ t _ => t ≠ 3
  | .vabs _ _ _ t _ | .vneg _ _ _ t _ => t = 0 ∨ t = 1
  | _ => True

end Sys2Proof.Machine

/-- R269, R271, R274 to R279, R282, R283, R286, R297: the lane-wise words. -/
def Obligations.VectorLanes : Prop :=
  ∀ (s : State) (w : QWord) (i : Instr) (l : LaneWord) (x : BitVec 5 → Nat → Lane), s.word = some w → laneWord i = some l →
    typeLegal i → Map.rising (here s).v = true → (∀ r ∈ l.srcs, Sees s (On (mreg (here s) l.m)) r (x r)) →
    let out := fun j => l.result (l.srcs.map fun r => operand (x r j))
    let pois := fun j => l.srcs.any fun r => (x r j).pois
    ∃ t fl, exec i s = .next t ∧ OrOf fl (fun j => On (mreg (here s) l.m) j ∧ pois j = false) (fun j => (out j).2) ∧
      WritesLanes s t w l.d l.latency (On (mreg (here s) l.m)) (fun j => ⟨(out j).1, pois j⟩) fl

namespace Sys2Proof.Machine

/-- The lane of packed elements (R284): `per` codes of `w` bits, the first in the lowest bits. -/
def packed (w per : Nat) (code : Nat → Nat) : W32 := BitVec.ofNat 32 ((List.range per).map fun c => code c * 2 ^ (w * c)).sum

end Sys2Proof.Machine

namespace Sys2Proof.Machine

/-- The conditions of vcmp (R280). -/
def Compares (t : BitVec 2) (c : BitVec 3) (a b : W32) : Prop :=
  if t = 0 then
    let x := fpOf a
    let y := fpOf b
    let un := x.isNaN = true ∨ y.isNaN = true
    match c.toNat with
    | 0 => ¬un ∧ compareVals x y = .eq
    | 1 => un ∨ compareVals x y ≠ .eq
    | 2 => ¬un ∧ compareVals x y = .lt
    | 3 => ¬un ∧ compareVals x y ≠ .gt
    | 4 => ¬un ∧ compareVals x y = .gt
    | 5 => ¬un ∧ compareVals x y ≠ .lt
    | _ => un
  else
    let x := intVal t a
    let y := intVal t b
    match c.toNat with
    | 0 => x = y
    | 1 => x ≠ y
    | 2 => x < y
    | 3 => x ≤ y
    | 4 => y < x
    | _ => y ≤ x

/-- A word that writes a mask register (R222): a write to m0 is discarded. -/
def WritesMask (s t : State) (w : QWord) (d : BitVec 3) (v : BitVec 128) (fl : FlagSet) : Prop :=
  (∀ r, mreg (here t) r = if r = d ∧ d ≠ 0 then v else mreg (here s) r) ∧
  Exposes s t w 1 (flagDests fl) { here s with m := if d = 0 then (here s).m else vset (here s).m d.toNat v }

end Sys2Proof.Machine

/-- R274, R280, R281, R284, R285, R296 to R298: V words that move, permute and count, and the words of masks. -/
def Obligations.MovesAndMasks : Prop :=
  (∀ (s : State) (w : QWord) (d a b : BitVec 5) (m p : BitVec 3) (f g : BitVec 5) (r : BitVec 2) (q : BitVec 1)
     (xa xb xd : Nat → Lane), s.word = some w → Map.rising (here s).v = true →
     let k := here s
     let M := mreg k m
     let all := fun _ : Nat => True
     let ix := fun n j => (xb j).val.toNat % n
     (Sees s (On M) a xa → Sees s (fun i => ¬On M i) b xb → ∃ t, exec (.vsel d a b m) s = .next t ∧
       WritesLanes s t w d 2 all (fun i => if M.getLsbD i then moved (xa i) else moved (xb i)) 0) ∧
     (codeWidth f.toNat ∈ [4, 8, 16] → Sees s all a xa → Sees s all d xd →
       let n := codeWidth f.toNat
       let code := fun e => convert f.toNat g.toNat (operand (xa e)).toNat r (q == 1)
       ∃ t fl, exec (.vpack d a f g r q) s = .next t ∧ OrOf fl (fun e => (xa e).pois = false) (fun e => (code e).2) ∧
         WritesLanes s t w d 3 all (fun i => if i < 128 - 4 * n then moved (xd (i + 4 * n)) else
           let j := (i - (128 - 4 * n)) * (32 / n)
           ⟨packed n (32 / n) fun c => (code (j + c)).1, (List.range (32 / n)).any fun c => (xa (j + c)).pois⟩) fl) ∧
     (codeWidth g.toNat ∈ [4, 8, 16] → p.toNat < 32 / codeWidth g.toNat →
       let n := codeWidth g.toNat
       let src := fun i => (128 * p.toNat + i) * n / 32
       let code := fun i => convert f.toNat g.toNat (bits (operand (xa (src i))).toNat ((128 * p.toNat + i) * n % 32) n) 0 false
       Sees s (fun j => ∃ i, i < 128 ∧ src i = j) a xa →
       ∃ t fl, exec (.vunpack d a f g p) s = .next t ∧ OrOf fl (fun i => (xa (src i)).pois = false) (fun i => (code i).2) ∧
         WritesLanes s t w d 3 all (fun i => ⟨BitVec.ofNat 32 (code i).1, (xa (src i)).pois⟩) fl) ∧
     (Sees s (On M) b xb → (∀ i, i < 128 → On M i → (xb i).pois = false) →
       (Sees s (fun j => ∃ i, i < 128 ∧ On M i ∧ ix 128 i = j) a xa → ∃ t, exec (.vgat d a b m) s = .next t ∧
         WritesLanes s t w d 3 (On M) (fun i => moved (xa (ix 128 i))) 0) ∧
       (Sees s (fun j => ∃ i, i < 128 ∧ On M i ∧ ix 256 i = j) a xa → Sees s (fun j => ∃ i, i < 128 ∧ On M i ∧ ix 256 i = j + 128) d xd →
         ∃ t, exec (.vperm d a b m) s = .next t ∧
           WritesLanes s t w d 3 (On M) (fun i => if ix 256 i < 128 then moved (xa (ix 256 i)) else moved (xd (ix 256 i - 128))) 0)) ∧
     (∀ i, i < 128 → On M i → (xb i).pois = true → (∀ j, j < i → On M j → (xb j).pois = false) → Sees s (On M) b xb →
       w.origin ≠ .emitted → TrapReady k w.seq →
       Traps s w (exec (.vgat d a b m) s) 18 (BitVec.ofNat 64 i) 3 ∧ Traps s w (exec (.vperm d a b m) s) 18 (BitVec.ofNat 64 i) 3) ∧
     (∃ t, exec (.vbcast d a m) s = .next t ∧
       WritesLanes s t w d 2 (On M) (fun _ => ⟨BitVec.ofNat 32 (sreg k a).toNat, false⟩) 0) ∧
     (∃ t, exec (.vins d a b) s = .next t ∧
       WritesLanes s t w d 2 (fun i => i = (sreg k b).toNat % 128) (fun _ => ⟨BitVec.ofNat 32 (sreg k a).toNat, false⟩) 0) ∧
     (let i := (sreg k b).toNat % 128
      Sees s (fun j => j = i) a xa →
       ((xa i).pois = false → ∃ t, exec (.vmovs d a b) s = .next t ∧ WritesSreg s t 1 d (BitVec.ofNat 64 (xa i).val.toNat)) ∧
       ((xa i).pois = true → w.origin ≠ .emitted → TrapReady k w.seq → Traps s w (exec (.vmovs d a b) s) 18 (BitVec.ofNat 64 i) 3))) ∧
  (∀ (s : State) (w : QWord) (n m ma mb : BitVec 3) (a b d : BitVec 5) (t : BitVec 2) (c : BitVec 3) (xa xb : Nat → Lane),
     s.word = some w → Map.rising (here s).v = true → t ≠ 3 → (c.toNat < 6 ∨ (c.toNat = 6 ∧ t = 0)) →
     let k := here s
     let M := mreg k m
     (Sees s (On M) a xa → Sees s (On M) b xb →
       ((∀ i, i < 128 → On M i → (xa i).pois = false ∧ (xb i).pois = false) →
         ∃ u v fl, exec (.vcmp n a b m t c) s = .next u ∧ WritesMask s u w n v fl ∧
           (∀ i, i < 128 → (v.getLsbD i = true ↔ On M i ∧ Compares t c (xa i).val (xb i).val)) ∧
           OrOf fl (On M) (fun i => if t = 0 ∧ (signalling (fpOf (xa i).val) = true ∨ signalling (fpOf (xb i).val) = true) then fNV else 0)) ∧
       (∀ i, i < 128 → On M i → ((xa i).pois = true ∨ (xb i).pois = true) →
         (∀ j, j < i → On M j → (xa j).pois = false ∧ (xb j).pois = false) → w.origin ≠ .emitted → TrapReady k w.seq →
         Traps s w (exec (.vcmp n a b m t c) s) 18 (BitVec.ofNat 64 i) 3)) ∧
     (∃ u, exec (.mand n ma mb) s = .next u ∧ WritesMask s u w n (mreg k ma &&& mreg k mb) 0) ∧
     (∃ u, exec (.mor n ma mb) s = .next u ∧ WritesMask s u w n (mreg k ma ||| mreg k mb) 0) ∧
     (∃ u, exec (.mxor n ma mb) s = .next u ∧ WritesMask s u w n (mreg k ma ^^^ mreg k mb) 0) ∧
     (∃ u, exec (.mnot n ma) s = .next u ∧ WritesMask s u w n (~~~(mreg k ma)) 0) ∧
     (∃ u, exec (.mpop d ma) s = .next u ∧
       WritesSreg s u 1 d (BitVec.ofNat 64 ((List.range 128).map fun i => (mreg k ma).toNat / 2 ^ i % 2).sum)) ∧
     (∃ u v, exec (.mfirst d ma) s = .next u ∧ WritesSreg s u 1 d v ∧ v.toNat ≤ 128 ∧
       (∀ j, j < v.toNat → (mreg k ma).getLsbD j = false) ∧ (v.toNat < 128 → (mreg k ma).getLsbD v.toNat = true)))

namespace Sys2Proof.Machine

/-- The blocks of vmxq (R195, R287): scale, codes and flags of block j of the FP32 lanes x under a presence mask. -/
def vmxBlock (f : BitVec 5) (M : BitVec 128) (x : Nat → Lane) (j : Nat) : Nat × List Nat × FlagSet :=
  mxQuantise (mxElement f.toNat) ((List.range 32).map fun i =>
    if M.getLsbD (32 * j + i) then some (fpOf (operand (x (32 * j + i)))) else none)

/-- Whether a present lane of block j is poisoned. -/
def mxPoisoned (M : BitVec 128) (x : Nat → Lane) (j : Nat) : Bool :=
  (List.range 32).any fun i => M.getLsbD (32 * j + i) && (x (32 * j + i)).pois

end Sys2Proof.Machine

/-- R287, R288: elements in the low bytes, the four scales in lane 127. -/
def Obligations.VectorBlocks : Prop :=
  ∀ (s : State) (w : QWord) (d a : BitVec 5) (f g : BitVec 5) (p : BitVec 3) (r : BitVec 2) (q : BitVec 1) (x : Nat → Lane),
    s.word = some w → Map.rising (here s).v = true →
    let M := mreg (here s) p
    (f.toNat ∈ [18, 19, 20] → Sees s (On M) a x →
      let n := codeWidth (mxElement f.toNat)
      let code := fun i => lget (vmxBlock f M x (i / 32)).2.1 (i % 32) 0
      ∃ t fl, exec (.vmxq d a f p) s = .next t ∧
        OrOf fl (fun j => j < 4 ∧ mxPoisoned M x j = false) (fun j => (vmxBlock f M x j).2.2) ∧
        WritesLanes s t w d 6 (fun _ => True) (fun i =>
          if i < 4 * n then ⟨packed n (32 / n) fun c => code (i * (32 / n) + c), mxPoisoned M x (i * (32 / n) / 32)⟩
          else if i = 127 then ⟨packed 8 4 fun j => (vmxBlock f M x j).1, (List.range 4).any (mxPoisoned M x)⟩
          else ⟨0, false⟩) fl) ∧
    (∀ fmt, g.toNat ∈ [18, 19, 20] → floatFmt f.toNat = some fmt →
      let e := mxElement g.toNat
      let n := codeWidth e
      Sees s (fun j => j = 127 ∨ ∃ i, i < 128 ∧ i * n / 32 = j) a x →
      let scale := fun i => bits (operand (x 127)).toNat (8 * (i / 32)) 8
      let value := fun i => fmt.cvt (mxValue e (bits (operand (x (i * n / 32))).toNat (i * n % 32) n) (scale i)) r (q == 1)
      let pois := fun i => (x (i * n / 32)).pois || (x 127).pois
      ∃ t fl, exec (.vmxd d a f g r q) s = .next t ∧ OrOf fl (fun i => pois i = false) (fun i => (value i).2) ∧
        WritesLanes s t w d 6 (fun _ => True) (fun i => ⟨BitVec.ofNat 32 (value i).1, pois i⟩) fl)

namespace Sys2Proof.Machine

/-- `n` bytes of a memory as a lane: poisoned with their grain (R54, R294). -/
def laneFrom (m : Memory) (a n : Nat) : Lane := ⟨BitVec.ofNat 32 (numberAt m a n), m.pois.contains (a / 32)⟩

/-- The offset of the VM format (R294). -/
def vmAddress (k : Core) (a : BitVec 5) (imm : BitVec 32) : Nat :=
  ((((sreg k a).toNat : Int) + 64 * imm.toInt) % 2 ^ 22).toNat

/-- The bytes of lanes at their addresses, the last lane at a byte standing. -/
def CellsOf (cells : Map Byte) (on : Nat → Prop) (addr : Nat → Nat) (n : Nat) (lane : Nat → Lane) : Prop :=
  (∀ x, (∀ i, i < 128 → on i → ¬(addr i ≤ x ∧ x < addr i + n)) → Map.find cells x = none) ∧
  ∀ x i, i < 128 → on i → addr i ≤ x → x < addr i + n →
    (∀ j, i < j → j < 128 → on j → ¬(addr j ≤ x ∧ x < addr j + n)) →
    Map.find cells x = some (BitVec.ofNat 8 ((operand (lane i)).toNat / 256 ^ (x - addr i)))

/-- Grains that a store of lanes marks; where `whole` is set, a grain written whole without poison is cleared (R54, R294). -/
def GrainsOf (grains : Map Bool) (on : Nat → Prop) (addr : Nat → Nat) (whole : Bool) (lane : Nat → Lane) : Prop :=
  ∀ g,
    ((∃ i, i < 128 ∧ on i ∧ addr i / 32 = g ∧ (lane i).pois = true) → Map.find grains g = some true) ∧
    ((∀ i, i < 128 → on i → addr i / 32 = g → (lane i).pois = false) →
      (whole = true ∧ (∀ z, z < 32 → z % 4 = 0 → ∃ i, i < 128 ∧ on i ∧ addr i = 32 * g + z) → Map.find grains g = some false) ∧
      (¬(whole = true ∧ ∀ z, z < 32 → z % 4 = 0 → ∃ i, i < 128 ∧ on i ∧ addr i = 32 * g + z) → Map.find grains g = none))

end Sys2Proof.Machine

/-- R294, R295, R54. -/
def Obligations.VectorMemory : Prop :=
  ∀ (s : State) (w : QWord) (d a b : BitVec 5) (m : BitVec 3) (imm : BitVec 32) (e : BitVec 5) (z : BitVec 2) (xd xb : Nat → Lane),
    s.word = some w → Map.rising (here s).v = true → NoSpadFlight (here s) w → NoSlotFlight (here s) w →
    (here s).mem.spad.wf = true → (here s).mem.slot.wf = true → z.toNat < 3 →
    let k := here s
    let M := mreg k m
    let o := vmAddress k a imm
    let row := fun i => (o + 4 * i) % 2 ^ 22
    let n := 2 ^ z.toNat
    let at' := fun i => ((sreg k a).toNat + n * (xb i).val.toNat) % 2 ^ 22
    (o % 64 = 0 →
      (∃ t, exec (.vld d a m imm) s = .next t ∧ WritesLanes s t w d 4 (On M) (fun i => laneFrom k.mem.spad (row i) 4) 0) ∧
      (Sees s (On M) d xd → ∃ t cells grains, exec (.vst d a m imm) s = .next t ∧
        Exposes s t w 4 [.spad cells grains] k ∧ CellsOf cells (On M) row 4 xd ∧ GrainsOf grains (On M) row true xd)) ∧
    (o % 64 ≠ 0 → w.origin ≠ .emitted → TrapReady k w.seq →
      Traps s w (exec (.vld d a m imm) s) 8 (BitVec.ofNat 64 o) 0 ∧ Traps s w (exec (.vst d a m imm) s) 8 (BitVec.ofNat 64 o) 0) ∧
    (o % 4 = 0 → ∃ t, exec (.vldb d a m imm) s = .next t ∧ WritesLanes s t w d 4 (On M) (fun _ => laneFrom k.mem.spad o 4) 0) ∧
    (o % 4 ≠ 0 → w.origin ≠ .emitted → TrapReady k w.seq → Traps s w (exec (.vldb d a m imm) s) 8 (BitVec.ofNat 64 o) 0) ∧
    (∃ t, exec (.vldSlot d m e) s = .next t ∧
      WritesLanes s t w d 1 (On M) (fun i => laneFrom k.mem.slot (512 * e.toNat + 4 * i) 4) 0) ∧
    (Sees s (On M) d xd → ∃ t c, exec (.vstSlot d m e) s = .next t ∧
      Ends s t 1 { keepStanding k (some w) true (512 * e.toNat) 512 with mem := { k.mem with slot := c } } ∧
      c.wf = true ∧
      (∀ i j, i < 128 → j < 4 → c.byte (512 * e.toNat + 4 * i + j) = if M.getLsbD i then
        BitVec.ofNat 8 ((operand (xd i)).toNat / 256 ^ j) else k.mem.slot.byte (512 * e.toNat + 4 * i + j)) ∧
      (∀ x, x < 512 * e.toNat ∨ 512 * e.toNat + 512 ≤ x → c.byte x = k.mem.slot.byte x) ∧
      (∀ g, g < 16 → c.pois.contains (16 * e.toNat + g) =
        ((List.range 8).any (fun i => M.getLsbD (8 * g + i) && (xd (8 * g + i)).pois) ||
          (!((List.range 8).all fun i => M.getLsbD (8 * g + i)) && k.mem.slot.pois.contains (16 * e.toNat + g)))) ∧
      (∀ g, g < 16 * e.toNat ∨ 16 * e.toNat + 16 ≤ g → c.pois.contains g = k.mem.slot.pois.contains g)) ∧
    (Sees s (On M) b xb → (∀ i, i < 128 → On M i → (xb i).pois = false ∧ at' i % n = 0) →
      (∃ t, exec (.vldg d a b m z) s = .next t ∧ WritesLanes s t w d 8 (On M) (fun i => laneFrom k.mem.spad (at' i) n) 0) ∧
      (Sees s (On M) d xd → ∃ t cells grains, exec (.vstg d a b m z) s = .next t ∧
        Exposes s t w 4 [.spad cells grains] k ∧ CellsOf cells (On M) at' n xd ∧ GrainsOf grains (On M) at' false xd)) ∧
    (∀ i, i < 128 → On M i → at' i % n ≠ 0 → (∀ j, j < i → On M j → at' j % n = 0) →
      (∀ j, j < 128 → On M j → (xb j).pois = false) → Sees s (On M) b xb → w.origin ≠ .emitted → TrapReady k w.seq →
      Traps s w (exec (.vldg d a b m z) s) 8 (BitVec.ofNat 64 (at' i)) 0 ∧
      (Sees s (On M) d xd → Traps s w (exec (.vstg d a b m z) s) 8 (BitVec.ofNat 64 (at' i)) 0))

namespace Sys2Proof.Machine

/-- The 128 lanes of a register as operands. -/
def lanesRead (x : Nat → Lane) : List Lane := (List.range 128).map fun i => moved (x i)

/-- The carry that a reduction starts from (R290, R291): empty with START, else what vB holds. -/
def CarryIn (s : State) (op np : Nat) (start : Bool) (b : BitVec 5) (xb : Nat → Lane) (c : Carry) : Prop :=
  (start = true ∧ c = Carry.empty) ∨
  (start = false ∧ Sees s (fun _ => True) b xb ∧ readCarry op np (lanesRead xb) = .ok c)

/-- What a reduction word leaves in vB (R290, R291): the carry, nothing with START and CLOSE, zeros with CLOSE alone. -/
def CarryOut (op np : Nat) (start close : Bool) (b : BitVec 5) (c : Carry) (ds : List PDest) : Prop :=
  if close then
    if start then ds = [] else ∃ ls, ds = [.lanes ls] ∧ LanesOf ls b (fun _ => True) fun _ => ⟨0, false⟩
  else ∃ ls, ds = [.lanes ls] ∧ LanesOf ls b (fun _ => True) fun i => lget ((carryLanes op np c).map (·.2)) i ⟨0, false⟩

end Sys2Proof.Machine

/-- R289 to R293: the reduction and scan words, from the carry of R290 through `carryAfter` (R291) to the root of R292. -/
def Obligations.VectorReduction : Prop :=
  ∀ (s : State) (w : QWord) (d a b : BitVec 5) (m o : BitVec 3) (prof : BitVec 6) (flags : BitVec 18) (np : Nat) (c : Carry)
    (xa xb : Nat → Lane), s.word = some w → Map.rising (here s).v = true → o.toNat < 7 →
    let op := o.toNat
    let start := flags.getLsbD 0
    let close := flags.getLsbD 1
    let M := redMask op (mreg (here s) m)
    let leaves := regLeaves op np M (lanesRead xa)
    let r := carryAfter op np c leaves
    (profileOf w.np prof = some np → Sees s (On M) a xa → CarryIn s op np start b xb c →
      (∃ t fl out, exec (.vred d a b m o prof flags) s = .next t ∧ CarryOut op np start close b r.1 out ∧
        (close = true → ∃ ls, Exposes s t w 12 (.lanes ls :: (out ++ flagDests fl)) (here s) ∧
          let root := (redRoot op np (closeFold (redCombine op np) r.1.stack).1 r.1.sum r.1.pois).1
          LanesOf ls d (· < root.length) fun i => laneAt root i) ∧
        (close = false → Exposes s t w 12 (out ++ flagDests fl) (here s) ∧ fl = r.2)) ∧
      ∃ t fl out ls, exec (.vscan d a b m o prof flags) s = .next t ∧ CarryOut op np start close b r.1 out ∧
        Exposes s t w 12 (.lanes ls :: (out ++ flagDests fl)) (here s) ∧
        (∀ key, ¬(128 * d.toNat ≤ key ∧ key < 128 * d.toNat + 128) → Map.find ls key = none) ∧
        ∀ i, i < 128 → (On (mreg (here s) m) (if op = 6 then i / 2 * 2 else i) ↔ (Map.find ls (128 * d.toNat + i)).isSome = true)) ∧
    (∀ code lane, profileOf w.np prof = some np → Sees s (On M) a xa → start = false → Sees s (fun _ => True) b xb →
      readCarry op np (lanesRead xb) = .error (code, lane) → w.origin ≠ .emitted → TrapReady (here s) w.seq →
      let addr := if code = 18 then BitVec.ofNat 64 lane else w.head
      let detail := if code = 18 then 3 else 0
      Traps s w (exec (.vred d a b m o prof flags) s) code addr detail ∧
      Traps s w (exec (.vscan d a b m o prof flags) s) code addr detail) ∧
    ((prof.toNat = 63 ∨ prof.toNat < 4) → (here s).iss.pend = [] → (here s).iss.past = [] →
      (start = true ∨ laneBase (here s) (128 * b.toNat) = ⟨0, false⟩) →
      (∃ t out, exec (.vred d a b m o prof flags) s = .next t ∧ Exposes s t w 12 out (here s)) ∧
      ∃ t out, exec (.vscan d a b m o prof flags) s = .next t ∧ Exposes s t w 12 out (here s)) ∧
    (profileOf w.np prof = none → w.origin ≠ .emitted → TrapReady (here s) w.seq →
      Traps s w (exec (.vred d a b m o prof flags) s) 9 w.head 0 ∧ Traps s w (exec (.vscan d a b m o prof flags) s) 9 w.head 0)

/-- R208, R291: a reduction carried through any number of registers gives the root of the tree over all of them. -/
def Obligations.CarriedReductionIsTree : Prop :=
  ∀ (op np : Nat) (regs : List (List Node)), op < 7 → np < 4 → regs.length < 2 ^ 20 →
    (∀ l ∈ regs, l.length = 2 ^ redLevel op) →
    let f := redCombine op np
    let c := regs.foldl (fun c l => (carryAfter op np c l).1) Carry.empty
    (closeFold f c.stack).1 = (treeFold f 40 (regs.flatMap fun l => (regBlocks op np l).1)).1 ∧ c.n = 2 ^ redLevel op * regs.length

namespace Sys2Proof.Machine

/-- A result in flight that writes a lane. -/
def WritesKey (p : Pend) (key : Nat) (l : Lane) : Prop := ∃ ls, p.dst = .lanes ls ∧ Map.find ls key = some l

/-- A V result that a V word sees (R272): its slot has come, or its token is ordered before the word. -/
def Visible (k : Core) (w : QWord) (p : Pend) : Prop :=
  p.due ≤ vget k.iss.slots 2 0 ∨ ordered w p.eng p.num p.seen = true

end Sys2Proof.Machine

/-- R272, R273, R71: what a V word reads of a lane while V results are in flight. -/
def Obligations.VectorVisibility : Prop :=
  ∀ (s : State) (w : QWord) (key : Nat), s.word = some w →
    let k := here s
    let x := laneSeen s k key
    (x.2.1 = laneBase k key ∨ (∃ p, p ∈ k.iss.pend ∧ WritesKey p key x.2.1) ∨
      ∃ p, p ∈ k.iss.past ∧ ∃ ls, p.old = .lanes ls ∧ Map.find ls key = some x.2.1) ∧
    (w.eng = .v → (∀ p ∈ k.iss.pend, p.eng = .v) → (∀ p ∈ k.iss.past, ∀ ls, p.old = .lanes ls → p.eng = .v ∧ p.landed = false) →
      x.1 = s ∧
      (∀ pre p post l, k.iss.pend = pre ++ p :: post → WritesKey p key l → Visible k w p →
        (∀ q ∈ post, ∀ l', WritesKey q key l' → ¬Visible k w q) → x.2.1 = l) ∧
      ((∀ p ∈ k.iss.pend, ∀ l, WritesKey p key l → ¬Visible k w p) → x.2.1 = laneBase k key) ∧
      (x.2.2 = true ↔ k.sys.pend = true ∧ ∃ p, p ∈ k.iss.pend ∧ p.marked = true ∧ (∃ l, WritesKey p key l) ∧ ¬Visible k w p) ∧
      (∀ d a m i, key = 128 * a.toNat + i → i < 128 → On (mreg k m) i → x.2.2 = true →
        (∀ j, j < i → On (mreg k m) j → (laneSeen s k (128 * a.toNat + j)).2.2 = false) → w.origin ≠ .emitted → TrapReady k w.seq →
        Traps s w (exec (.vmov d a m) s) 16 (BitVec.ofNat 64 i) 0))

namespace Sys2Proof.Machine

/-- The exponent words (R301): destination, mask, sources, and a lane's result by R304 to R306 and R308. -/
def expLane (np : Nat) : Instr → Option LaneWord
  | .xexp2 d a m => unary 1 d a m
  | .xlog2 d a m => unary 2 d a m
  | .xrcp d a m => unary 3 d a m
  | .xrsq d a m => unary 4 d a m
  | .xsqrt d a m => unary 5 d a m
  | .xsin d a m => unary 6 d a m
  | .xcos d a m => unary 7 d a m
  | .xtanh d a m => unary 8 d a m
  | .xlogi d a m => unary 9 d a m
  | .xerf d a m => unary 10 d a m
  | .xsmax d a b m => some ⟨d, m, 8, [a, b], fun l =>
      let r := expPair true np (opd l 0).toNat (opd l 1).toNat
      (BitVec.ofNat 32 r.1, r.2)⟩
  | .xexpm d a b m => some ⟨d, m, 8, [a, b], fun l =>
      let r := expPair false np (opd l 0).toNat (opd l 1).toNat
      (BitVec.ofNat 32 r.1, r.2)⟩
  | _ => none
where
  unary (op : Nat) (d a : BitVec 5) (m : BitVec 3) : Option LaneWord :=
    some ⟨d, m, 8, [a], fun l => let r := expFn op np (opd l 0).toNat; (BitVec.ofNat 32 r.1, r.2)⟩

end Sys2Proof.Machine

/-- R301 to R303, R306, R308: the words of the X engine, and their special cases as FP32 encodings with their flags; the function set follows the profile that the word was steered with. -/
def Obligations.Exponents : Prop :=
  (∀ (s : State) (w : QWord) (i : Instr) (l : LaneWord) (x : BitVec 5 → Nat → Lane), s.word = some w → expLane w.np i = some l →
     Map.rising (here s).v = true → (∀ r ∈ l.srcs, Sees s (On (mreg (here s) l.m)) r (x r)) →
     let out := fun j => l.result (l.srcs.map fun r => operand (x r j))
     let pois := fun j => l.srcs.any fun r => (x r j).pois
     ∃ t fl, exec i s = .next t ∧ OrOf fl (fun j => On (mreg (here s) l.m) j ∧ pois j = false) (fun j => (out j).2) ∧
       WritesLanes s t w l.d 8 (On (mreg (here s) l.m)) (fun j => ⟨(out j).1, pois j⟩) fl) ∧
  (∀ (np x : Nat), x < 2 ^ 32 →
     let pInf := 0x7F800000
     let nInf := 0xFF800000
     let one := 0x3F800000
     let nan := (0x7FC00000, fNV)
     let neg0 := 0x80000000
     (expFn 1 np pInf = (pInf, 0) ∧ expFn 1 np nInf = (0, 0) ∧ expFn 1 np 0 = (one, 0) ∧ expFn 1 np neg0 = (one, 0)) ∧
     (∀ k : Int, -149 ≤ k → k ≤ 127 → expFn 1 np (fFP32.rne (ofInt k)).1 = ((fFP32.rne (pow2 k)).1, 0) ∧
       expFn 2 np (fFP32.rne (pow2 k)).1 = ((fFP32.rne (ofInt k)).1, 0)) ∧
     (expFn 2 np pInf = (pInf, 0) ∧ expFn 2 np 0 = (nInf, fDZ) ∧ expFn 2 np neg0 = (nInf, fDZ) ∧ expFn 2 np nInf = nan) ∧
     (expFn 3 np 0 = (pInf, fDZ) ∧ expFn 3 np neg0 = (nInf, fDZ) ∧ expFn 3 np pInf = (0, 0) ∧ expFn 3 np nInf = (neg0, 0)) ∧
     (expFn 4 np 0 = (pInf, fDZ) ∧ expFn 4 np neg0 = (nInf, fDZ) ∧ expFn 4 np pInf = (0, 0) ∧ expFn 4 np nInf = nan) ∧
     (expFn 5 np 0 = (0, 0) ∧ expFn 5 np neg0 = (neg0, 0) ∧ expFn 5 np pInf = (pInf, 0) ∧ expFn 5 np nInf = nan) ∧
     (∀ op, op = 6 ∨ op = 7 → expFn op np pInf = nan ∧ expFn op np nInf = nan) ∧
     (expFn 6 np 0 = (0, 0) ∧ expFn 6 np neg0 = (neg0, 0) ∧ expFn 7 np 0 = (one, 0) ∧ expFn 7 np neg0 = (one, 0)) ∧
     (∀ op, op = 8 ∨ op = 10 → expFn op np 0 = (0, 0) ∧ expFn op np neg0 = (neg0, 0) ∧ expFn op np pInf = (one, 0) ∧
       expFn op np nInf = (0xBF800000, 0)) ∧
     (expFn 9 np 0 = (0x3F000000, 0) ∧ expFn 9 np neg0 = (0x3F000000, 0) ∧ expFn 9 np pInf = (one, 0) ∧ expFn 9 np nInf = (0, 0)) ∧
     (∀ m e, m ≠ 0 → c32 x = .fin true m e → ∀ op, op = 2 ∨ op = 4 ∨ op = 5 → expFn op np x = nan) ∧
     (∀ op, 1 ≤ op → op ≤ 10 → (c32 x).isNaN = true →
       expFn op np x = (x ||| 0x400000, if signalling (c32 x) then fNV else 0)) ∧
     (∀ y, y < 2 ^ 32 → (c32 x).isNaN = false → (c32 y).isNaN = false → compareVals (c32 x) (c32 y) = .eq →
       expPair true np x y = (one, 0)) ∧
     (∀ y, y < 2 ^ 32 → (c32 y).isNaN = false → expPair false np nInf y = (0, 0)))

namespace Sys2Proof.Machine

/-! ### Matrix words -/

/-- The scratchpad offset that a matrix word takes from a generator with no table entry on its way (R262, R266). -/
def genOffset (k : Core) (g : BitVec 3) : Nat :=
  let x := vget k.g g.toNat .reset
  (specAddress x x.ent % 2 ^ 22).toNat

/-- A generator whose table entries have all come. -/
def GenStill (k : Core) (g : BitVec 3) : Prop := (vget k.g g.toNat .reset).reads = []

/-- `m'` is `m` with `n` bytes from address `a` on, and their grains of 32 bytes, as `src` and `pois` give them. -/
def Copied (m m' : Memory) (a n : Nat) (src : Nat → Byte) (pois : Nat → Bool) : Prop :=
  m'.wf = true ∧ (∀ x, m'.byte x = if a ≤ x ∧ x < a + n then src (x - a) else m.byte x) ∧
  ∀ g, m'.pois.contains g = if a ≤ 32 * g ∧ 32 * g < a + n then pois (32 * g - a) else m.pois.contains g

/-- The byte of the scratchpad that an offset names, wrapping (R64), and the poison of its grain. -/
def spadByte (k : Core) (o : Nat) : Byte := k.mem.spad.byte (o % 2 ^ 22)
def spadPois (k : Core) (o : Nat) : Bool := k.mem.spad.pois.contains (o % 2 ^ 22 / 32)

/-- A tile load (R315, R78 to R80): the elements and the block scales are copied grain for grain, the tag of the sub-tile is
written as the latest, and the tag of every sub-tile that shares its bytes is gone. -/
def LoadsTile (s t : State) (sl sub : Nat) (a : Nat) (fmt : Nat) (tbl : BitVec 3) (bank : Bool) : Prop :=
  let k := here s
  let m := k.mem
  let b := codeWidth fmt
  let n := 16384 * b
  let mx := 18 ≤ fmt
  ∃ cim bscale tags, Copied m.cim cim (262144 * sl + n * sub) n (fun i => spadByte k (a + i)) (fun i => spadPois k (a + i)) ∧
    Copied m.bscale bscale (16384 * sl + 4096 * sub) 4096 (fun i => if mx then spadByte k (a + n + i) else 127)
      (fun i => if mx then spadPois k (a + n + i) else false) ∧
    Map.find tags (tagKey b sl sub) = some { fmt := BitVec.ofNat 5 fmt, tbl, bank, time := m.clock + 1 } ∧
    (∀ w u, w ∈ [16, 8, 4] → u < 4 → ¬(w = b ∧ u = sub) → Map.find tags (tagKey w sl u) =
      if u * w < sub * b + b ∧ sub * b < u * w + w then none else Map.find m.tags (tagKey w sl u)) ∧
    (∀ sl' w u, sl' < 4 → sl' ≠ sl → w ∈ [16, 8, 4] → u < 4 → Map.find tags (tagKey w sl' u) = Map.find m.tags (tagKey w sl' u)) ∧
    Ends s t 1 { k with mem := { m with cim, bscale, tags, clock := m.clock + 1 } }

end Sys2Proof.Machine

/-- R315, R316. -/
def Obligations.TilesAndTables : Prop :=
  ∀ (s : State) (w : QWord) (sl sub : BitVec 2) (g tb : BitVec 3) (f : BitVec 5), s.word = some w →
    GenStill (here s) g → NoSpadFlight (here s) w → (here s).mem.spad.wf = true → (here s).mem.cim.wf = true →
    (here s).mem.bscale.wf = true → Map.rising (here s).mem.tags = true → Map.rising (here s).mem.tables = true →
    let k := here s
    let a := genOffset k g
    (a % 64 = 0 → f.toNat ∈ [1, 2, 3, 4, 8, 12, 16, 17, 18, 19, 20] → (sub.toNat + 1) * codeWidth f.toNat ≤ 16 →
      ∃ t, exec (.bld sl sub g f) s = .next t ∧ LoadsTile s t sl.toNat sub.toNat a f.toNat 0 false) ∧
    (a % 64 = 0 → ∃ t, exec (.bldLut4 sl sub g tb) s = .next t ∧
      LoadsTile s t sl.toNat sub.toNat a 7 tb (vget k.mem.active tb.toNat false)) ∧
    (a % 64 ≠ 0 → w.origin ≠ .emitted → TrapReady k w.seq →
      Traps s w (exec (.bld sl sub g f) s) 8 (BitVec.ofNat 64 a) 0 ∧ Traps s w (exec (.bldLut4 sl sub g tb) s) 8 (BitVec.ofNat 64 a) 0) ∧
    (a % 32 = 0 → k.mem.spad.pois.contains (a / 32) = false → ∃ t tables, exec (.tld g tb) s = .next t ∧
      Ends s t 1 { k with mem := { k.mem with tables } } ∧
      ∀ u bank c, u < 8 → c < 16 → (Map.get 0 tables (tableKey u bank c)).toNat =
        if u = tb.toNat ∧ bank = !vget k.mem.active tb.toNat false then numberAt k.mem.spad (a + 2 * c) 2
        else (Map.get 0 k.mem.tables (tableKey u bank c)).toNat) ∧
    (w.origin ≠ .emitted → TrapReady k w.seq →
      (a % 32 ≠ 0 → Traps s w (exec (.tld g tb) s) 8 (BitVec.ofNat 64 a) 0) ∧
      (a % 32 = 0 → k.mem.spad.pois.contains (a / 32) = true → Traps s w (exec (.tld g tb) s) 18 (BitVec.ofNat 64 a) 0)) ∧
    (∃ t, exec (.tswap tb) s = .next t ∧ Ends s t 1 { k with mem := { k.mem with
      active := vset k.mem.active tb.toNat (!vget k.mem.active tb.toNat false) } })

namespace Sys2Proof.Machine

/-- The profile of a long matrix word (R206): published, and not NP0. -/
def MatrixProfile (w : QWord) (prof : BitVec 6) (p : Nat) : Prop := profileOf w.np prof = some p ∧ 1 ≤ p ∧ p ≤ 3

/-- Check 5 of R321. -/
def TakesDelivery (c : Chain) (ct kl : Nat) : Prop :=
  c.st = .opened ∧ ct = c.ct ∧ (0 < c.ct → kl = c.kls) ∧
  (c.k ≠ 0 → 256 * (c.s0 + c.n) + kl + 1 ≤ c.k ∧ (kl < 255 → 256 * (c.s0 + c.n) + kl + 1 = c.k)) ∧
  (ct + 1 = c.w → c.n < 2 ^ 24)

/-- The chain after a delivery (R319) of `nodes`, `nr` rows of `ct`. -/
structure Delivered (c c' : Chain) (ct kl nr : Nat) (nodes : Nat → Node) : Prop where
  same : c'.prof = c.prof ∧ c'.w = c.w ∧ c'.init = c.init ∧ c'.k = c.k ∧ c'.s0 = c.s0 ∧ c'.c = c.c ∧ c'.res = c.res
  pres : ∀ t i, t < 4 → i < 16 → c'.pres.getLsbD (16 * t + i) = (c.pres.getLsbD (16 * t + i) || (decide (t = ct) && decide (i < nr)))
  part : ct + 1 < c.w → c'.ct = ct + 1 ∧ c'.kls = kl ∧ c'.n = c.n ∧ c'.st = c.st ∧ c'.stack = c.stack ∧
    ∀ key, Map.get .absent c'.part key = if nodes key = .absent then Map.get .absent c.part key else nodes key
  last : ct + 1 = c.w → c'.ct = 0 ∧ c'.n = c.n + 1 ∧ c'.part = [] ∧
    (c'.st = .ended ↔ kl < 255 ∨ (c.k ≠ 0 ∧ 256 * (c.s0 + c.n) + kl + 1 = c.k)) ∧
    ∀ key, key < 8192 * c.w →
      let v := if nodes key = .absent then Map.get .absent c.part key else nodes key
      closeFold (combineSum c.prof) (Map.get [] c'.stack key) =
        closeFold (combineSum c.prof) (if v = .absent ∧ Map.find c.stack key = none then []
          else (carryMerge (combineSum c.prof) c.n 25 0 (Map.get [] c.stack key) v).1)

/-- The nodes of the column tile that the A rows `rows` and the tile named by a tag give (R319), by element key. -/
def nodesOf (k : Core) (c : Chain) (width : Nat) (tag : Tag) (sl sub ct kl : Nat) (f : Nat) (rows : List (List PByte))
    (xs : List (Byte × Bool)) (key : Nat) : Node :=
  ((tileNodes k.mem c width tag sl sub ct (kl + 1) f rows xs).1.find? fun x => x.1 == key).elim .absent (·.2)

/-- The bytes of a row: poisoned ones read as 0xFF (R55). -/
def filled (b : PByte) : PByte := if b.2 then (255, true) else b

end Sys2Proof.Machine

/-- R319, R321: mma and mmav where no check fails, and their traps. -/
def Obligations.MatrixDelivery : Prop :=
  ∀ (s : State) (w : QWord) (n : BitVec 3) (sl sub : BitVec 2) (g : BitVec 3) (a f : BitVec 5) (r : BitVec 4) (prof : BitVec 6)
    (flags : BitVec 18) (width : Nat) (tag : Tag) (xs : List (Byte × Bool)) (left : List Promise) (xv : Nat → Nat → Lane),
    s.word = some w → GenStill (here s) g → NoSpadFlight (here s) w → (here s).mem.spad.wf = true → Map.rising (here s).v = true →
    f.toNat ∈ [1, 2, 3, 4, 8, 12, 16, 17, 18, 19, 20] →
    let k := here s
    let c := vget k.chains n.toNat .reset
    let nr := r.toNat + 1
    let b := codeWidth f.toNat
    let ct := flags.toNat % 4
    let kl := flags.toNat / 4 % 256
    let o := genOffset k g
    let regs := (nr * b + 15) / 16
    let delivers := fun (res : Host.Outcome State Fault Refusal) (bytes : Nat → PByte) =>
      ∃ t c' fl, res = .next t ∧
        Delivered c c' ct kl nr (nodesOf k c width tag sl.toNat sub.toNat ct kl f.toNat
          ((List.range nr).map fun i => (List.range (32 * b)).map fun j => filled (bytes (32 * b * i + j))) (xs.map filled)) ∧
        Exposes s t w 0 (flagDests fl) { k with chains := vset k.chains n.toNat c', mem := { k.mem with scaleq := left } }
    (∀ p, MatrixProfile w prof p → TakesDelivery c ct kl → 1 ≤ c.w → c.w ≤ 4 → c.n < 2 ^ 25 →
      tileNamed k.mem sl.toNat sub.toNat = some (width, tag) → codeInt f.toNat = codeInt tag.fmt.toNat →
      let need := if 18 ≤ f.toNat then 8 * nr else 0
      need ≤ promisedTo k w → popScales need k.mem.scaleq = some (xs, left) →
      let grown := if ct + 1 < c.w then slabs c else demand c.prof c.w (c.n + 1) c.init
      (grown ≤ slabs c ∨ (slabsHeld k - slabs c) + k.drain + grown ≤ 64) →
      (o % 64 = 0 → delivers (exec (.mma n sl sub g f r prof flags) s) fun i => (spadByte k (o + i), spadPois k (o + i))) ∧
      (a.toNat + regs ≤ 32 → (∀ i, i < regs → Sees s (fun l => 512 * i + 4 * l < 32 * b * nr) (a + BitVec.ofNat 5 i) (xv i)) →
        delivers (exec (.mmav n sl sub a f r prof flags) s) fun i =>
          lget (laneBytes (moved (xv (i / 512) (i % 512 / 4)))) (i % 4) (0, false))) ∧
    (w.origin ≠ .emitted → TrapReady k w.seq →
      let both := fun code => Traps s w (exec (.mma n sl sub g f r prof flags) s) code w.head 0 ∧
        Traps s w (exec (.mmav n sl sub a f r prof flags) s) code w.head 0
      (profileOf w.np prof = none → both 9) ∧ (profileOf w.np prof = some 0 → both 10) ∧
      (∀ p, MatrixProfile w prof p →
        (c.st = .none ∨ c.st = .closed → both 1) ∧
        (c.st = .opened ∨ c.st = .ended → tileNamed k.mem sl.toNat sub.toNat = none → both 1) ∧
        (c.st = .opened ∨ c.st = .ended → tileNamed k.mem sl.toNat sub.toNat = some (width, tag) →
          (codeInt f.toNat ≠ codeInt tag.fmt.toNat → both 1) ∧
          (codeInt f.toNat = codeInt tag.fmt.toNat → o % 64 = 0 → ¬TakesDelivery c ct kl → ct < c.w → both 11))))

namespace Sys2Proof.Machine

/-- Element `e` of `b` bits among packed bytes: a nibble with an even number is the low one (R82). -/
def elementCode (b : Nat) (byte : Nat → Byte) (e : Nat) : Nat :=
  if b = 16 then (byte (2 * e)).toNat + 256 * (byte (2 * e + 1)).toNat
  else if b = 8 then (byte e).toNat
  else (byte (e / 2)).toNat / 16 ^ (e % 2) % 16

/-- Whether element `e` is poisoned. -/
def elementPois (b : Nat) (pois : Nat → Bool) (e : Nat) : Bool :=
  if b = 16 then pois (2 * e) || pois (2 * e + 1) else if b = 8 then pois e else pois (e / 2)

/-- A byte of a tile as an operand: a poisoned one reads as 0xFF (R55). -/
def tileByte (m : Memory) (a : Nat) : Byte := if m.pois.contains (a / 32) then 255 else m.byte a

/-- Block `j` of 32 elements along K as one operand of R204: the first `kp` elements of the row are present. -/
def specSide (value : Nat → FVal) (width : Option Nat) (kp j : Nat) (code : Nat → Nat) (pois : Nat → Bool) (scale : Byte × Bool)
    (mx : Bool) : BlockSide :=
  { elems := (List.range 32).map fun i => if 32 * j + i < kp then some (value (code (32 * j + i))) else none
    pois := (List.range 32).map fun i => pois (32 * j + i) || scale.2
    width
    scale := if mx then e8m0 scale.1.toNat else .fin false 1 0 }

end Sys2Proof.Machine

/-- R319, R203, R204, R313, R315, R55: the node of row i and column c is the fold of the eight block values of row i of A and column
c of the tile. -/
def Obligations.MatrixElement : Prop :=
  ∀ (k : Core) (ch : Chain) (tag : Tag) (sl sub ct kl f i c : Nat) (rows : List (List PByte)) (xs : List (Byte × Bool)),
    let bw := codeWidth tag.fmt.toNat
    let aw := codeWidth f
    f ∈ [1, 2, 3, 4, 8, 12, 16, 17, 18, 19, 20] → tag.fmt.toNat ∈ [1, 2, 3, 4, 7, 8, 12, 16, 17, 18, 19, 20] →
    (∀ r ∈ rows, r.length = 32 * aw) → xs.length = (if 18 ≤ f then 8 * rows.length else 0) → k.mem.cim.wf = true → k.mem.bscale.wf = true →
    i < rows.length → rows.length ≤ 16 → c < 512 → ct < ch.w → ch.w ≤ 4 → kl < 256 →
    let row := lget rows i []
    let a := fun j => specSide (elemValue (mxElement f)) (matrixWidth f) (kl + 1) j
      (elementCode aw fun x => (lget row x (0, false)).1) (elementPois aw fun x => (lget row x (0, false)).2)
      (lget xs (8 * i + j) (127, false)) (18 ≤ f)
    let base := 262144 * sl + 16384 * bw * sub
    let b := fun j => specSide (tileValue k.mem tag) (matrixWidth tag.fmt.toNat) (kl + 1) j
      (fun e => elementCode bw (fun x => tileByte k.mem.cim (base + x)) (512 * e + c))
      (fun e => elementPois bw (fun x => k.mem.cim.pois.contains ((base + x) / 32)) (512 * e + c))
      (tileByte k.mem.bscale (16384 * sl + 4096 * sub + 512 * j + c), k.mem.bscale.pois.contains ((16384 * sl + 4096 * sub + 512 * j + c) / 32))
      (18 ≤ tag.fmt.toNat)
    nodesOf k ch bw tag sl sub ct kl f rows xs (512 * ch.w * i + 512 * ct + c) =
      (treeFold (combineSum ch.prof) 4 ((List.range 8).map fun j => (blockNode ch.prof (a j) (b j)).1)).1

namespace Sys2Proof.Machine

/-- A word that ends and may make drained slabs due to return (R75). -/
def EndsDraining (s : State) (r : Host.Outcome State Fault Refusal) (k : Core) : Prop :=
  ∃ u es, r = .next (due u es) ∧ (es = [] ∨ es = [.slabReturn s.core]) ∧ Ends s u 1 k

/-- The result of an element at aclose (R322). -/
def closedNode (c : Chain) (key : Nat) : Lane :=
  let f := combineSum c.prof
  let r := (closeFold f (Map.get [] c.stack key)).1
  let l := Map.get ⟨0, false⟩ c.c key
  if c.init then if r = .absent then l else (rootValue c.prof (f (nodeOf c.prof l) r).1).1 else (rootValue c.prof r).1

/-- The conditions of R326 for level j. -/
def Mergeable (d r : Chain) (j : Nat) : Prop :=
  d.st = .opened ∧ (r.st = .opened ∨ r.st = .ended) ∧ d.ct = 0 ∧ r.ct = 0 ∧ d.init = false ∧ r.init = false ∧ d.k ≠ 0 ∧
  r.k = d.k ∧ r.prof = d.prof ∧ r.w = d.w ∧ d.n = 2 ^ j ∧ j ≤ 23 ∧ d.s0 % 2 ^ (j + 1) = 0 ∧ r.s0 = d.s0 + 2 ^ j ∧ 1 ≤ r.n ∧
  r.n ≤ 2 ^ j ∧ (r.n = 2 ^ j ∨ r.st = .ended)

end Sys2Proof.Machine

/-- R318, R322, R325, R326, R75 to R77. -/
def Obligations.Chains : Prop :=
  ∀ (s : State) (w : QWord) (n m : BitVec 3) (b : BitVec 5) (wd : BitVec 2) (prof : BitVec 6) (p : Nat), s.word = some w →
    let k := here s
    let c := vget k.chains n.toNat .reset
    let v := (sreg k b).toNat
    let K := v / 2 ^ 32
    let s0 := v % 2 ^ 24
    let cw := wd.toNat + 1
    let others := slabsHeld k - slabs c
    let need := fun init => (if p ≤ 1 then cw else 2 * cw) + if init then cw else 0
    let starts := fun init (c' : Chain) => c'.st = .opened ∧ c'.prof = p ∧ c'.w = cw ∧ c'.init = init ∧ c'.n = 0 ∧ c'.ct = 0 ∧
      c'.pres = 0 ∧ c'.stack = [] ∧ c'.part = []
    (MatrixProfile w prof p →
      (v / 2 ^ 24 % 256 = 0 → (K = 0 → s0 = 0) → (K ≠ 0 → 256 * s0 < K) → others + k.drain + need false ≤ 64 →
        ∃ c' dr, starts false c' ∧ c'.k = K ∧ c'.s0 = s0 ∧
          EndsDraining s (exec (.acz n b wd prof) s) { k with chains := vset k.chains n.toNat c', drain := dr }) ∧
      (v / 2 ^ 24 % 256 = 0 → (K = 0 → s0 = 0) → (K ≠ 0 → 256 * s0 < K) → others + need false ≤ 64 →
        64 < others + k.drain + need false → ∃ t, exec (.acz n b wd prof) s = .next t ∧ Waits s t) ∧
      (v % 2 ^ 22 % 64 = 0 → others + k.drain + need true ≤ 64 → NoSpadFlight k w → k.mem.spad.wf = true →
        ∃ c' dr, starts true c' ∧ c'.k = 0 ∧ c'.s0 = 0 ∧
          (∀ key, key < 8192 * cw → operand (Map.get ⟨0, false⟩ c'.c key) = operand (laneFrom k.mem.spad ((v + 4 * key) % 2 ^ 22) 4) ∧
            (Map.get ⟨0, false⟩ c'.c key).pois = k.mem.spad.pois.contains ((v + 4 * key) % 2 ^ 22 / 32)) ∧
          EndsDraining s (exec (.acinit n b wd prof) s) { k with chains := vset k.chains n.toNat c', drain := dr }) ∧
      (∀ j, Mergeable c (vget k.chains m.toNat .reset) j → m ≠ n →
        let r := vget k.chains m.toNat .reset
        ∃ u c' fl es, exec (.acmerge n m prof) s = .next (due u es) ∧ (es = [] ∨ es = [.slabReturn s.core]) ∧
          Exposes s u w 0 (flagDests fl) { k with
            chains := vset (vset k.chains n.toNat c') m.toNat .reset, drain := k.drain + slabs r } ∧
          (c'.n = 2 ^ (j + 1) ∧ c'.pres = c.pres ||| r.pres ∧ c'.st = r.st ∧ c'.prof = c.prof ∧ c'.w = c.w ∧ c'.k = c.k ∧
            c'.s0 = c.s0 ∧ c'.ct = 0 ∧ c'.init = false) ∧
          ∀ key, (closeFold (combineSum c.prof) (Map.get [] c'.stack key)).1 =
            (combineSum c.prof (Map.get .absent (Map.get [] c.stack key) j)
              (closeFold (combineSum c.prof) (Map.get [] r.stack key)).1).1)) ∧
    (c.st = .closed → ∃ t, exec (.aclose n) s = .next t ∧ Ends s t 1 k) ∧
    ((c.st = .opened ∨ c.st = .ended) → c.ct = 0 → ∃ t c' fl, exec (.aclose n) s = .next t ∧
      Exposes s t w 0 (flagDests fl) { k with chains := vset k.chains n.toNat c' } ∧ c'.st = .closed ∧ c'.w = c.w ∧
      slabs c' = c.w ∧ ∀ key, Map.get ⟨0, false⟩ c'.res key = closedNode c key) ∧
    EndsDraining s (exec (.acdrop n) s) { k with chains := vset k.chains n.toNat .reset, drain := k.drain + slabs c } ∧
    (w.origin ≠ .emitted → TrapReady k w.seq →
      (c.st = .none → Traps s w (exec (.aclose n) s) 1 w.head 0) ∧
      ((c.st = .opened ∨ c.st = .ended) → c.ct ≠ 0 → Traps s w (exec (.aclose n) s) 11 w.head 0) ∧
      (profileOf w.np prof = none → Traps s w (exec (.acz n b wd prof) s) 9 w.head 0 ∧
        Traps s w (exec (.acinit n b wd prof) s) 9 w.head 0 ∧ Traps s w (exec (.acmerge n m prof) s) 9 w.head 0) ∧
      (MatrixProfile w prof p →
        (v / 2 ^ 24 % 256 ≠ 0 ∨ (K = 0 ∧ s0 ≠ 0) ∨ (K ≠ 0 ∧ K ≤ 256 * s0) → Traps s w (exec (.acz n b wd prof) s) 1 w.head 0) ∧
        (v % 2 ^ 22 % 64 ≠ 0 → Traps s w (exec (.acinit n b wd prof) s) 8 (BitVec.ofNat 64 (v % 2 ^ 22)) 0) ∧
        (64 < others + need false → v / 2 ^ 24 % 256 = 0 → (K = 0 → s0 = 0) → (K ≠ 0 → 256 * s0 < K) →
          Traps s w (exec (.acz n b wd prof) s) 13 w.head 0))) ∧
    (∀ core, exec (.slabReturn core) s = .next (setCore s core { getCore s core with drain := 0 }))

namespace Sys2Proof.Machine

/-- A result of the word that executes, in flight for `latency` slots of its engine (R67, R271). -/
def flight (k : Core) (w : QWord) (latency : Nat) (dst : PDest) : Pend :=
  { eng := w.eng, num := w.num, due := vget k.iss.slots (engIx w.eng) 0 + latency, seen := [], marked := k.sys.pend, dst }

end Sys2Proof.Machine

/-- R323, R324. -/
def Obligations.ChainReadback : Prop :=
  ∀ (s : State) (w : QWord) (n p : BitVec 3) (b : BitVec 5) (ct : BitVec 2), s.word = some w →
    let k := here s
    let c := vget k.chains n.toNat .reset
    let o := (sreg k b).toNat % 2 ^ 22
    let elem := fun key => Map.get ⟨0, false⟩ c.res key
    let e := if c.prof ≤ 1 then 4 else 8
    let root := fun key => (closeFold (combineSum c.prof) (Map.get [] c.stack key)).1
    (c.st = .closed → ct.toNat < c.w → b.toNat ≤ 24 → ∃ t ls, exec (.acrd n p b ct) s = .next t ∧ Exposes s t w 8 [.lanes ls] k ∧
      (∀ r q l, r < 2 → q < 4 → l < 128 → Map.find ls (128 * (b.toNat + 4 * r + q) + l) =
        some (elem (512 * c.w * (2 * p.toNat + r) + 512 * ct.toNat + 128 * q + l))) ∧
      ∀ key, key < 128 * b.toNat ∨ 128 * (b.toNat + 8) ≤ key → Map.find ls key = none) ∧
    (c.st = .closed → o % 64 = 0 → 1 ≤ c.w → c.w ≤ 4 → ∃ t cells grains, exec (.acst n b) s = .next t ∧
      Exposes s t w 8 [.spad cells grains] k ∧
      (∀ key j, key < 8192 * c.w → j < 4 → Map.find cells ((o + 4 * key + j) % 2 ^ 22) =
        some (BitVec.ofNat 8 ((elem key).val.toNat / 256 ^ j))) ∧
      (∀ x, (∀ i, i < 32768 * c.w → x ≠ (o + i) % 2 ^ 22) → Map.find cells x = none) ∧
      ∀ g, g < 1024 * c.w → Map.find grains ((o / 32 + g) % 2 ^ 17) = some ((List.range 8).any fun i => (elem (8 * g + i)).pois)) ∧
    ((c.st = .opened ∨ c.st = .ended) → c.k ≠ 0 → c.init = false → c.ct = 0 → o % 64 = 0 → 1 ≤ c.w → c.w ≤ 4 →
      ∃ t fl cells grains, exec (.acstPart n b) s = .next t ∧
        flight k w 8 (.spad cells grains) ∈ (here t).iss.pend ∧
        (∀ ps, ps = k.iss.pend ++ flight k w 8 (.spad cells grains) :: (flagDests fl).map (flight k w 0) →
          Ends s t 1 { k with iss := { k.iss with pend := ps } }) ∧
        (∀ i, i < 64 → Map.find cells ((o + i) % 2 ^ 22) = some (BitVec.ofNat 8
          (if i < 4 then c.k / 256 ^ i else if i < 8 then c.s0 / 256 ^ (i - 4) else if i < 12 then c.n / 256 ^ (i - 8)
            else if i = 12 then c.prof else if i = 13 then c.w else if i = 14 then (if c.st = .ended then 1 else 0)
            else if 16 ≤ i ∧ i < 24 then c.pres.toNat / 256 ^ (i - 16) else 0))) ∧
        ∀ key j, key < 8192 * c.w → j < e → Map.find cells ((o + 64 + e * key + j) % 2 ^ 22) =
          some (match root key with | .absent => 0 | .val x _ => BitVec.ofNat 8 (x / 256 ^ j))) ∧
    (w.origin ≠ .emitted → TrapReady k w.seq →
      (c.st ≠ .closed ∨ c.w ≤ ct.toNat → Traps s w (exec (.acrd n p b ct) s) 1 w.head 0) ∧
      (c.st ≠ .closed → Traps s w (exec (.acst n b) s) 1 w.head 0) ∧
      (c.st = .closed → o % 64 ≠ 0 → Traps s w (exec (.acst n b) s) 8 (BitVec.ofNat 64 o) 0) ∧
      (c.st = .none ∨ c.st = .closed ∨ c.k = 0 ∨ c.init = true → Traps s w (exec (.acstPart n b) s) 1 w.head 0))

namespace Sys2Proof.Machine

/-! ### Strong accesses -/

/-- The handle leads to a local page and a strong access of `n` bytes at `va` passes the checks of R26, at cell `c`; no move of
its page is in progress where it writes (R130). -/
structure StrongAccess (s : State) (x : BitVec 128) (write : Bool) (va n c : Nat) : Prop where
  valid   : hV x = true
  res     : hRes x = 0
  range   : hOrigin x ≤ va ∧ va + n ≤ hBase x + pageSize (hSize x)
  allowed : hEo x = false ∧ (write = true → hWr x = true)
  aligned : va % n = 0
  region  : (permit s (.strong s.core) (hCtx x) va n write true).1 = .yes
  cell    : cellOf (hPhys x va) = some c
  format  : attrAt s c = hFormat x
  still   : write = true → movingAt s (hCtx x) va = false

/-- A strong access (R331): sD, the address register, the width, the release fields, whether it reads and writes, and the new
value from the old one, from sD and from the register after it (R333). -/
structure StrongWord where
  d      : BitVec 5
  h      : BitVec 4
  a      : BitVec 5
  n      : Nat
  sem    : BitVec 2
  mask   : BitVec 6
  reads  : Bool
  result : Nat → Nat → Nat → Option Nat

/-- Bytes of the width field. -/
def widthOf (w : BitVec 1) : Nat := if w = 0 then 4 else 8

/-- The signed value of an operand of `n` bytes. -/
def signedOf (n x : Nat) : Int := (x : Int).bmod (2 ^ (8 * n))

/-- The strong accesses that read and write memory, in their device form. -/
def strongDevice : Instr → Option StrongWord
  | .ldsDevice d h a w sem m => some ⟨d, h, a, widthOf w, sem, m, true, fun _ _ _ => none⟩
  | .stsDevice d h a w sem m => some ⟨d, h, a, widthOf w, sem, m, false, fun _ v _ => some v⟩
  | .aaddDevice d h a w sem m => some ⟨d, h, a, widthOf w, sem, m, true, fun o v _ => some ((o + v) % 2 ^ (8 * widthOf w))⟩
  | .aminDevice d h a w sem m => some ⟨d, h, a, widthOf w, sem, m, true, fun o v _ =>
      some (if signedOf (widthOf w) o ≤ signedOf (widthOf w) v then o else v)⟩
  | .amaxDevice d h a w sem m => some ⟨d, h, a, widthOf w, sem, m, true, fun o v _ =>
      some (if signedOf (widthOf w) v ≤ signedOf (widthOf w) o then o else v)⟩
  | .aandDevice d h a w sem m => some ⟨d, h, a, widthOf w, sem, m, true, fun o v _ => some (o &&& v)⟩
  | .aorDevice d h a w sem m => some ⟨d, h, a, widthOf w, sem, m, true, fun o v _ => some (o ||| v)⟩
  | .axorDevice d h a w sem m => some ⟨d, h, a, widthOf w, sem, m, true, fun o v _ => some (o ^^^ v)⟩
  | .aswpDevice d h a w sem m => some ⟨d, h, a, widthOf w, sem, m, true, fun _ v _ => some v⟩
  | .acasDevice d h a w sem m => some ⟨d, h, a, widthOf w, sem, m, true, fun o v x => if o = v then some x else none⟩
  | _ => none

/-- The same in their scratchpad form. -/
def strongSpad : Instr → Option StrongWord
  | .ldsSp d a w sem m => strongDevice (.ldsDevice d 0 a w sem m)
  | .stsSp d a w sem m => strongDevice (.stsDevice d 0 a w sem m)
  | .aaddSp d a w sem m => strongDevice (.aaddDevice d 0 a w sem m)
  | .aminSp d a w sem m => strongDevice (.aminDevice d 0 a w sem m)
  | .amaxSp d a w sem m => strongDevice (.amaxDevice d 0 a w sem m)
  | .aandSp d a w sem m => strongDevice (.aandDevice d 0 a w sem m)
  | .aorSp d a w sem m => strongDevice (.aorDevice d 0 a w sem m)
  | .axorSp d a w sem m => strongDevice (.axorDevice d 0 a w sem m)
  | .aswpSp d a w sem m => strongDevice (.aswpDevice d 0 a w sem m)
  | .acasSp d a w sem m => strongDevice (.acasDevice d 0 a w sem m)
  | _ => none

/-- Whether an access counts as a write for the checks: all but lds and waitv (R333). -/
def isWrite : Instr → Bool
  | .ldsDevice .. | .ldsSp .. => false
  | _ => true

/-- The release mask of a strong access that writes or not (R107, R111). -/
def releaseOf (k : Core) (sem : BitVec 2) (mask : BitVec 6) (writes : Bool) : BitVec 6 :=
  (if sem.getLsbD 1 then mask else 0) ||| (if writes then k.fenceRel else 0)

/-- The value read, in sD (R333); sts writes no register. -/
def ReadsInto (s t : State) (W : StrongWord) (old : Nat) : Prop :=
  ∀ r, sreg (here t) r = if W.reads = true ∧ r = W.d ∧ W.d ≠ 0 then BitVec.ofNat 64 old else sreg (here s) r

/-- The scalar registers after a write of sD (R238). -/
def withReg (k : Core) (d : BitVec 5) (v : W64) : Core := { k with s := if d = 0 then k.s else vset k.s d.toNat v }

/-- The scalar registers after a strong access. -/
def readInto (k : Core) (W : StrongWord) (old : Nat) : Core := if W.reads = true then withReg k W.d (BitVec.ofNat 64 old) else k

/-- A core but for what a strong access tells it of the writes before (R93, R108, R111). -/
def knows (k : Core) (t : State) : Core :=
  { k with floor := (here t).floor, floorX := (here t).floorX, heard := (here t).heard, lastRead := (here t).lastRead }

/-- What stood before results that have become visible is kept, but for who is ordered after them; a word adds what its own write
replaced (R66, R96). -/
def Heeds (k : Core) (past : List Past) : Prop :=
  ∃ new : List Past, new.length ≤ 1 ∧ past.map (·.old) = new.map (·.old) ++ k.iss.past.map (·.old)

/-- Nothing that a write changed in these cells after a moment is hidden (R93). -/
def Settled (s : State) (c n after : Nat) : Prop := ∀ e ∈ s.hist, c ≤ e.cell → e.cell < c + n → e.stamp ≤ after

/-- The number that cells held at a moment (R93). -/
def numberHeld (s : State) (c n m : Nat) : Nat :=
  ((List.range n).map fun i => (heldAt s.hist (s.dram.byte (c + i), false) (c + i) m).1.toNat * 256 ^ i).sum

/-- The memory after a strong access. -/
def Updated (m m' : Memory) (c n : Nat) (new : Option Nat) : Prop :=
  match new with
  | none => m' = m
  | some v => Stores m m' c n (BitVec.ofNat 64 v)

/-- A state with the device memory of another, and what goes with its writes (R42, R93, R108, R114). -/
def withDram (s t : State) : State :=
  { s with dram := t.dram, old := t.old, reads := t.reads, agenda := t.agenda, hist := t.hist, rels := t.rels, stamp := t.stamp }

/-- The word that executes sleeps on a word (R117). -/
def Sleeps (s t : State) (w : QWord) (f : Core → Core) : Prop :=
  t = { onHere s (fun k => { f k with iss := putBack k.iss { w with asleep := true } }) with
    word := none, old := t.old, sleepers := t.sleepers }

end Sys2Proof.Machine

/-- R331, R333, R334, R117, R118, R335, R336: strong accesses of local device memory. -/
def Obligations.StrongDeviceAccess : Prop :=
  ∀ (s : State) (w : QWord) (x : BitVec 128) (c : Nat), s.dram.wf = true →
    (∀ i W, strongDevice i = some W → HandleIs s w W.h x →
      let va := hOrigin x + (sreg (here s) W.a).toNat
      let m := 2 ^ (8 * W.n)
      let old := numberAt s.dram c W.n
      let new := W.result old ((sreg (here s) W.d).toNat % m) ((sreg (here s) (W.d + 1)).toNat % m)
      let poisoned := s.dram.pois.contains (c / 32)
      StrongAccess s x (isWrite i) va W.n c → releaseHeld s (releaseOf (here s) W.sem W.mask (isWrite i)) = false →
      (W.reads = true → poisoned = false) →
        ((isWrite i = false → Settled s c W.n (here s).floor) → ∃ t, exec i s = .next t ∧ ReadsInto s t W old ∧
          Updated s.dram t.dram c W.n new ∧ Ends (withDram s t) t 1 (readInto (knows (here s) t) W old) ∧
          (W.reads = true → (∃ r ∈ releasesAt s c W.n s.stamp, reaches s.core r = true ∧ accepts s.core (acquireMask W.sem W.mask) r = true) →
            s.stamp ≤ (here t).floor)) ∧
        (isWrite i = false → (∀ e ∈ s.hist, c ≤ e.cell → e.cell < c + W.n → (here s).floor < e.stamp → e.old.2 = false) →
          ∃ t moment, exec i s = .next t ∧ (here s).floor ≤ moment ∧ ReadsInto s t W (numberHeld s c W.n moment) ∧ t.dram = s.dram)) ∧
    (∀ i W, strongDevice i = some W → HandleIs s w W.h x → w.origin ≠ .emitted → TrapReady (here s) w.seq →
      let va := hOrigin x + (sreg (here s) W.a).toNat
      let addr := BitVec.ofNat 64 va
      (hV x = false → Traps s w (exec i s) 5 addr W.h.toNat) ∧
      (hV x = true → hRes x = 3 → Traps s w (exec i s) 7 addr (hCause x)) ∧
      (hV x = true → hRes x ≠ 3 → hBase x + pageSize (hSize x) < va + W.n → Traps s w (exec i s) 6 addr W.h.toNat) ∧
      (hV x = true → hRes x ≠ 3 → va + W.n ≤ hBase x + pageSize (hSize x) →
        (hEo x = true ∨ (isWrite i = true ∧ hWr x = false) → Traps s w (exec i s) 4 addr 0) ∧
        (hEo x = false → (isWrite i = true → hWr x = true) → va % W.n ≠ 0 → Traps s w (exec i s) 8 addr 0)) ∧
      (StrongAccess s x (isWrite i) va W.n c → releaseHeld s (releaseOf (here s) W.sem W.mask (isWrite i)) = false →
        (isWrite i = false → Settled s c W.n (here s).floor) → W.reads = true → s.dram.pois.contains (c / 32) = true → Traps s w (exec i s) 18 addr 2)) ∧
    (∀ d h a sem m, HandleIs s w h x →
      let va := hOrigin x + (sreg (here s) a).toNat
      let old := numberAt s.dram c 8
      StrongAccess s x false va 8 c → releaseHeld s (releaseOf (here s) sem m false) = false →
      (s.dram.pois.contains (c / 32) = false →
        (old ≠ (sreg (here s) d).toNat → ∃ t, exec (.waitvDevice d h a sem m) s = .next t ∧
          (∀ r, sreg (here t) r = if r = d ∧ d ≠ 0 then BitVec.ofNat 64 old else sreg (here s) r) ∧
          Ends { s with old := t.old } t 1 (withReg (knows (here s) t) d (BitVec.ofNat 64 old))) ∧
        (old = (sreg (here s) d).toNat → ∃ t, exec (.waitvDevice d h a sem m) s = .next t ∧ Sleeps s t w (fun k => knows k t) ∧
          t.sleepers = s.sleepers ++ [(c, s.core)])) ∧
      (let hit := s.sleepers.filter fun p => p.1 = c
       (∃ t, exec (.ntoneDevice h a sem m) s = .next t ∧ ∀ u, u = { s with
          old := t.old, sleepers := s.sleepers.filter (fun p => !(hit.take 1).contains p)
          agenda := s.agenda ++ (hit.take 1).map fun p => .waitvFreshRead p.2 } → Ends u t 1 (here s)) ∧
       (∃ t, exec (.ntallDevice h a sem m) s = .next t ∧ ∀ u, u = { s with
          old := t.old, sleepers := s.sleepers.filter (fun p => !hit.contains p)
          agenda := s.agenda ++ hit.map fun p => .waitvFreshRead p.2 } → Ends u t 1 (here s))))

/-- R331, R333, R69, R117, R118: strong accesses of the core's own scratchpad. -/
def Obligations.StrongScratchpadAccess : Prop :=
  ∀ (s : State) (w : QWord), s.word = some w → NoSpadFlight (here s) w → (here s).mem.spad.wf = true →
    let k := here s
    (∀ i W, strongSpad i = some W →
      let o := (sreg k W.a).toNat % 2 ^ 22
      let m := 2 ^ (8 * W.n)
      let old := numberAt k.mem.spad o W.n
      let new := W.result old ((sreg k W.d).toNat % m) ((sreg k (W.d + 1)).toNat % m)
      (o % W.n = 0 → releaseHeld s (releaseOf k W.sem W.mask (isWrite i)) = false →
        ((W.reads = true → k.mem.spad.pois.contains (o / 32) = false) → ∃ t spad past, exec i s = .next t ∧ ReadsInto s t W old ∧
          Updated k.mem.spad spad o W.n new ∧ Heeds k past ∧
          Ends { s with old := t.old, rels := t.rels } t 1
            { readInto (knows k t) W old with mem := { k.mem with spad }, iss := { k.iss with past } }) ∧
        (W.reads = true → k.mem.spad.pois.contains (o / 32) = true → w.origin ≠ .emitted → TrapReady k w.seq →
          ∃ t, exec i s = .next t ∧ TrapTaken { s with old := t.old } t s.core w.seq (some (w.eng, w.num)) 18 w.addr (BitVec.ofNat 64 o) (estatOf w 0))) ∧
      (o % W.n ≠ 0 → w.origin ≠ .emitted → TrapReady k w.seq → Traps s w (exec i s) 8 (BitVec.ofNat 64 o) 0)) ∧
    (∀ d a sem m,
      let o := (sreg k a).toNat % 2 ^ 22
      let old := numberAt k.mem.spad o 8
      o % 8 = 0 → releaseHeld s (releaseOf k sem m false) = false →
      (k.mem.spad.pois.contains (o / 32) = false →
        (old ≠ (sreg k d).toNat → ∃ t past, exec (.waitvSp d a sem m) s = .next t ∧ Heeds k past ∧
          (∀ r, sreg (here t) r = if r = d ∧ d ≠ 0 then BitVec.ofNat 64 old else sreg k r) ∧
          Ends { s with old := t.old } t 1 { withReg (knows k t) d (BitVec.ofNat 64 old) with iss := { k.iss with past } }) ∧
        (old = (sreg k d).toNat → ∃ t, exec (.waitvSp d a sem m) s = .next t ∧ t.sleepers = s.sleepers ∧
          Sleeps s t w fun k => { k with sleepers := k.sleepers ++ [o] })) ∧
      (o ∈ k.sleepers →
        (∃ u, exec (.ntoneSp a sem m) s = .next u ∧ Ends { s with old := u.old, agenda := s.agenda ++ [.waitvFreshRead s.core] } u 1
          { k with sleepers := k.sleepers.filter (· ≠ o) }) ∧
        (∃ u, exec (.ntallSp a sem m) s = .next u ∧ Ends { s with old := u.old, agenda := s.agenda ++ [.waitvFreshRead s.core] } u 1
          { k with sleepers := k.sleepers.filter (· ≠ o) })) ∧
      (o ∉ k.sleepers → (∃ u, exec (.ntoneSp a sem m) s = .next u ∧ Ends { s with old := u.old } u 1 k) ∧
        (∃ u, exec (.ntallSp a sem m) s = .next u ∧ Ends { s with old := u.old } u 1 k)))

/-- R104, R105, R107, R111, R332, R337. -/
def Obligations.FenceAndOwnership : Prop :=
  ∀ (s : State) (w : QWord) (sem : BitVec 2) (m : BitVec 6) (d a : BitVec 5) (hn : BitVec 4) (x : BitVec 128), s.word = some w →
    let k := here s
    let rel := if sem.getLsbD 1 then m else 0
    (releaseHeld s rel = false → ∃ t past, exec (.fence sem m) s = .next t ∧ Heeds k past ∧
      Ends { s with old := t.old } t 1 { k with
        fenceRel := k.fenceRel ||| rel, floor := (here t).floor, floorX := (here t).floorX, iss := { k.iss with past } } ∧
      (t.old = if rel.getLsbD 3 then [] else s.old) ∧ k.floor ≤ (here t).floor ∧ k.floorX ≤ (here t).floorX ∧
      ∀ i, i < 6 → sem.getLsbD 0 = true → m.getLsbD i = true →
        Map.get 0 k.heard i ≤ (here t).floor ∧ Map.get 0 k.heard (6 + i) ≤ (here t).floorX) ∧
    (releaseHeld s rel = true → ∃ t, exec (.fence sem m) s = .next t ∧ Waits s t) ∧
    (HandleIs s w hn x → hV x = true → hRes x ≠ 3 → hInRange x (sreg k a).toNat 1 = true →
      let va := hOrigin x + (sreg k a).toNat
      let v := (sreg k d).toNat
      let owner := v < 1280 ∨ v = 16384 ∨ (32768 ≤ v ∧ v < 32784)
      (k.plain = [] → (∀ l ∈ s.fab.lines, ∀ q p o, l.use ≠ .store q s.core p o) →
        (regionAt s (hCtx x) va = none ∨ (∃ i r, regionAt s (hCtx x) va = some (i, r) ∧ (rMode r ≠ 4 ∧ (rMode r ≠ 1 ∨
          (rOwner r = s.core ∧ rTransit r = false ∧ v = s.core ∧ v < 1280)))) →
          ∃ t b n, exec (.ownx d hn a) s = .next t ∧ b ≤ va ∧ va < b + n ∧
            Ends s t 1 { k with ownxs := (b, n, s.stamp) :: k.ownxs.filter fun x => x.1 ≠ b ∨ x.2.1 ≠ n })) ∧
      (∀ i r, regionAt s (hCtx x) va = some (i, r) → Map.find s.mmu.regions i = some r →
        (rMode r = 1 → rOwner r = s.core → rTransit r = false → owner → v ≠ s.core →
          ∃ u mmu, exec (.ownx d hn a) s = .next (due u [.ownershipTransferComplete s.core i]) ∧
            Ends { s with mmu } u 1 (opensToken w { k with transit := some (i, w.num) }) ∧
            mmu = { s.mmu with regions := mmu.regions } ∧
            (∃ r', Map.find mmu.regions i = some r' ∧ rOwner r' = v ∧ rTransit r' = true ∧ r'.w0 = r.w0) ∧
            ∀ j, j ≠ i → Map.find mmu.regions j = Map.find s.mmu.regions j) ∧
        (w.origin ≠ .emitted → TrapReady k w.seq →
          (rMode r = 4 ∨ (rMode r = 1 ∧ (rOwner r ≠ s.core ∨ rTransit r = true)) →
            Traps s w (exec (.ownx d hn a) s) 4 (BitVec.ofNat 64 va) 0) ∧
          (rMode r = 1 → rOwner r = s.core → rTransit r = false → ¬owner → Traps s w (exec (.ownx d hn a) s) 1 w.head 0))))

namespace Sys2Proof.Machine

/-- The fields of a barrier among its 128 bits (R85). -/
def specBarrier (x : Nat) : Barrier :=
  { phase := x % 16, arr := x / 2 ^ 4 % 2 ^ 20, expect := x / 2 ^ 24 % 2 ^ 20, ovf := x.testBit 72, pois := x.testBit 73
    rsv := x / 2 ^ 74 % 64, owner := x / 2 ^ 80 % 2 ^ 16, pbytes := (x / 2 ^ 96 % 2 ^ 32 : Int).bmod (2 ^ 32) }

/-- The number whose fields are those of a barrier, the spare bits zero. -/
def barrierNumber (b : Barrier) : Nat :=
  b.phase + 2 ^ 4 * b.arr + 2 ^ 24 * b.expect + 2 ^ 72 * (if b.ovf then 1 else 0) + 2 ^ 73 * (if b.pois then 1 else 0)
    + 2 ^ 74 * b.rsv + 2 ^ 80 * b.owner + 2 ^ 96 * (b.pbytes % 2 ^ 32).toNat

/-- An update by arrivals and bytes, without the advance (R86, R87). -/
def counted (b : Barrier) (arrivals : Nat) (bytes : Int) (pois : Bool) : Barrier :=
  { b with arr := (b.arr + arrivals) % 2 ^ 20, pbytes := (b.pbytes + bytes).bmod (2 ^ 32), pois := b.pois || pois
           ovf := b.ovf || decide ((arrivals ≠ 0 ∧ b.expect < b.arr + arrivals) ∨ b.pbytes + bytes < -2 ^ 31 ∨ 2 ^ 31 ≤ b.pbytes + bytes) }

/-- The advance (R86). -/
def advanced (b : Barrier) : Barrier :=
  if b.ovf = false ∧ b.arr = b.expect ∧ b.pbytes = 0 then { b with phase := (b.phase + 1) % 16, arr := 0 } else b

/-- `m'` is `m` with the 16 bytes at `o` as a barrier stands. -/
def PutsBarrier (m m' : Memory) (o : Nat) (b : Barrier) : Prop :=
  m'.wf = true ∧ numberAt m' o 16 = barrierNumber b ∧ (∀ x, ¬(o ≤ x ∧ x < o + 16) → m'.byte x = m.byte x) ∧ m'.pois = m.pois

end Sys2Proof.Machine

/-- R85 to R88, R115, R142, R147, R153, R338 to R340: barriers, tickets, queue pushes, events and signals. -/
def Obligations.QueueEngineWords : Prop :=
  (∀ (s : State) (w : QWord) (d a b : BitVec 5) (sem : BitVec 2) (m : BitVec 6), s.word = some w → NoSpadFlight (here s) w →
     (here s).mem.spad.wf = true →
     let k := here s
     let o := (sreg k a).toNat % 2 ^ 22
     let n := (sreg k b).toNat
     let x := specBarrier (numberAt k.mem.spad o 16)
     let poisoned := k.mem.spad.pois.contains (o / 32)
     let puts := fun (r : Host.Outcome State Fault Refusal) (x' : Barrier) => ∃ t spad, r = .next t ∧ PutsBarrier k.mem.spad spad o x' ∧
       Ends s t 1 { keepStanding k (some w) false o 16 with mem := { k.mem with spad } }
     (o % 16 = 0 →
       (1 ≤ n → n < 2 ^ 20 → s.core < 2 ^ 16 → puts (exec (.binit a b) s)
         { phase := 0, arr := 0, expect := n, ovf := false, pois := false, rsv := 0, owner := s.core, pbytes := 0 }) ∧
       (poisoned = false →
         (1 ≤ n → n < 2 ^ 20 → x.ovf = false → puts (exec (.barv a b) s) (advanced (counted x n 0 false))) ∧
         (n < 2 ^ 31 → puts (exec (.bexp a b) s) (advanced (counted x 0 n false))) ∧
         (n < 16 → x.ovf = false →
           (x.phase ≠ n → ∃ t past, exec (.bwait d a b sem m) s = .next t ∧ Heeds k past ∧
             (∀ r, sreg (here t) r = if r = d ∧ d ≠ 0 then BitVec.ofNat 64 x.phase else sreg k r) ∧
             (sem.getLsbD 0 = true → m.getLsbD 0 = true → (here t).floor = s.stamp ∧ (here t).floorX = s.stamp) ∧
             Ends s t 1 { withReg (knows k t) d (BitVec.ofNat 64 x.phase) with iss := { k.iss with past } }) ∧
           (x.phase = n → ∃ t, exec (.bwait d a b sem m) s = .next t ∧ Waits s t))) ∧
       (w.origin ≠ .emitted → TrapReady k w.seq →
         (n = 0 ∨ 2 ^ 20 ≤ n → Traps s w (exec (.binit a b) s) 1 w.head 0 ∧ Traps s w (exec (.barv a b) s) 1 w.head 0) ∧
         (2 ^ 31 ≤ n → Traps s w (exec (.bexp a b) s) 1 w.head 0) ∧ (16 ≤ n → Traps s w (exec (.bwait d a b sem m) s) 1 w.head 0) ∧
         (poisoned = false → x.ovf = true →
           (1 ≤ n → n < 2 ^ 20 → Traps s w (exec (.barv a b) s) 15 (BitVec.ofNat 64 o) 0) ∧
           (n < 16 → Traps s w (exec (.bwait d a b sem m) s) 15 (BitVec.ofNat 64 o) 0)))) ∧
     (o % 16 ≠ 0 → w.origin ≠ .emitted → TrapReady k w.seq →
       Traps s w (exec (.binit a b) s) 8 (BitVec.ofNat 64 o) 0 ∧ Traps s w (exec (.barv a b) s) 8 (BitVec.ofNat 64 o) 0 ∧
       Traps s w (exec (.bexp a b) s) 8 (BitVec.ofNat 64 o) 0 ∧ Traps s w (exec (.bwait d a b sem m) s) 8 (BitVec.ofNat 64 o) 0)) ∧
  (∀ (s : State) (w : QWord) (d a b : BitVec 5) (hn : BitVec 4) (op : BitVec 2) (m : BitVec 6) (x : BitVec 128) (c : Nat),
     s.word = some w → NoSpadFlight (here s) w → (here s).mem.spad.wf = true →
     let k := here s
     let v := (sreg k a).toNat
     let o := v % 2 ^ 22
     (v ≤ 2 ^ 16 → ∃ t, exec (.tkt d a) s = .next t ∧ (here t).push = max k.push v ∧
       (∀ r, sreg (here t) r = if r = d ∧ d ≠ 0 then BitVec.ofNat 64 (max k.push v) else sreg k r) ∧
       Ends s t 1 { withReg k d (BitVec.ofNat 64 (max k.push v)) with push := max k.push v }) ∧
     (2 ^ 16 < v → w.origin ≠ .emitted → TrapReady k w.seq → Traps s w (exec (.tkt d a) s) 1 w.head 0) ∧
     (o % 32 = 0 → k.evq = [] → ∃ t, exec (.evpop d a) s = .next t ∧ WritesSreg s t 1 d 0) ∧
     (∀ r rs, o % 32 = 0 → k.evq = r :: rs → ∃ t spad past, exec (.evpop d a) s = .next t ∧ spad.wf = true ∧ Heeds k past ∧
       numberAt spad o 8 = r.w0.toNat ∧ numberAt spad (o + 8) 8 = r.w1.toNat ∧ numberAt spad (o + 16) 8 = r.w2.toNat ∧
       numberAt spad (o + 24) 8 = r.w3.toNat ∧ (∀ y, ¬(o ≤ y ∧ y < o + 32) → spad.byte y = k.mem.spad.byte y) ∧
       (∀ g, spad.pois.contains g = (decide (g ≠ o / 32) && k.mem.spad.pois.contains g)) ∧
       (∀ q, sreg (here t) q = if q = d ∧ d ≠ 0 then r.w0 else sreg k q) ∧
       Ends s t 1 { withReg k d r.w0 with
         evq := rs, mem := { k.mem with spad }, floor := s.stamp, floorX := s.stamp, iss := { k.iss with past } }) ∧
     (o % 32 ≠ 0 → w.origin ≠ .emitted → TrapReady k w.seq → Traps s w (exec (.evpop d a) s) 8 (BitVec.ofNat 64 o) 0) ∧
     (HandleIs s w hn x → s.dram.wf = true → s.dram.pois.contains (c / 32) = false →
       let va := hOrigin x + v
       let old := numberAt s.dram c 8
       let y := (sreg k b).toNat
       let new := if op = 0 then y else if op = 1 then (old + y) % 2 ^ 64 else if op = 2 then max old y else old ||| y
       let hit := s.sleepers.filter fun p => p.1 = c
       let mask : BitVec 6 := if m = 0 then 7 else m
       StrongAccess s x true va 8 c → (∃ i r, regionAt s (hCtx x) va = some (i, r) ∧ rMode r = 3) →
       releaseHeld s (mask ||| k.fenceRel) = false →
       ∃ t u, exec (.sigw hn a b op m) s = .next t ∧ Stores s.dram t.dram c 8 (BitVec.ofNat 64 new) ∧
         t.sleepers = s.sleepers.filter (fun p => !hit.contains p) ∧
         (∀ p ∈ hit, .waitvFreshRead p.2 ∈ t.agenda) ∧ u = { withDram s t with sleepers := t.sleepers } ∧ Ends u t 1 (knows k t)) ∧
     (∀ q t0, o % 64 = 0 → (sreg k b).toNat < 4096 → k.mem.spad.pois.contains (o / 32) = false →
       k.mem.spad.pois.contains (o / 32 + 1) = false → getQueue s (sreg k b).toNat = some q → k.task = some t0 →
       q.st ≠ .free → q.dying = none → q.ctx = t0.ctx → numberAt k.mem.spad o 1 % 16 ≠ 0 →
       let qid := (sreg k b).toNat
       (t0.dmode ≠ 2 → q.logstg ≠ 0 → k.push < 2 ^ 16 → (q.feeder = none ∨ q.feeder = some (t0.qid, t0.packet)) → q.feeders = [] →
         lowestPush s q t0 = true → ∃ u, exec (.qpush d a b m) s = .next (due u [.ticketPushSequenced qid]) ∧
           (here u).push = k.push + 1 ∧ (∀ r, sreg (here u) r = if r = d ∧ d ≠ 0 then BitVec.ofNat 64 (2 ^ 63 + k.push) else sreg k r) ∧
           ∃ q' p, getQueue u qid = some q' ∧ p ∈ q'.held ∧ q'.held.length = q.held.length + 1 ∧ q'.feeder = some (t0.qid, t0.packet) ∧
             p.tk = { phase := if t0.dmode = 0 then t0.phase else 0, ord := t0.ord, push := k.push } ∧ p.stage = none ∧
             (w.instr = .qpush d a b m → p.mask = 7 ||| m) ∧ p.image = (List.range 64).map fun i => k.mem.spad.byte (o + i)) ∧
       (t0.dmode ≠ 2 → q.logstg ≠ 0 → k.push < 2 ^ 16 → (q.feeder = none ∨ q.feeder = some (t0.qid, t0.packet)) → q.feeders = [] →
         lowestPush s q t0 = false →
         let q1 := { q with feeder := some (t0.qid, t0.packet), feeders := [] }
         ((∀ i, i < 2 ^ q.logstg → some i ∈ q.held.map (·.stage)) → ∃ t, exec (.qpush d a b m) s = .next t ∧ Waits (setQueue s qid q1) t) ∧
         ∀ i v, i < 2 ^ q.logstg → some i ∉ q.held.map (·.stage) → (∀ j, j < i → some j ∈ q.held.map (·.stage)) →
           hubWrite (setQueue s qid q1) .hub q.ctx (q.stgva + 64 * i) ((List.range 64).map fun i => (k.mem.spad.byte (o + i), false)) true qid = (v, .done) →
           here v = k → v.word = some w → v.core = s.core → getQueue v qid = some q1 →
           ∃ u, exec (.qpush d a b m) s = .next (due u [.ticketPushSequenced qid]) ∧ (here u).push = k.push + 1 ∧
             ∃ q' p, getQueue u qid = some q' ∧ p ∈ q'.held ∧ q'.held.length = q.held.length + 1 ∧ p.stage = some i ∧
               p.image = (List.range 64).map fun i => k.mem.spad.byte (o + i)) ∧
       (∀ u j, t0.dmode = 2 → claimIndex s q qid = (u, .ok (some j)) → u.word = some w → u.core = s.core →
         ∃ t cl, exec (.qpush d a b m) s = .next t ∧
           cl = { w, q := qid, k := j, image := (List.range 64).map fun i => k.mem.spad.byte (o + i), d } ∧
           Ends u t 1 (opensToken w { here u with claim := some cl }))))

namespace Sys2Proof.Machine

/-! ### Commands -/

/-- A C word (R343, R344): its operands, its tag, the offsets with the alignments asked of them, the operands that must fit 22 bits,
whether its values are legal, its profile field, what it captures of the scratchpad, where the first capture names a barrier, and the event
that carries it out. -/
structure CWord where
  a      : W64
  b      : W64
  c      : W64
  tag    : BitVec 8
  aligns : List (Nat × Nat)
  offs   : List W64
  legal  : Bool
  prof   : Option (BitVec 6)
  recs   : List (Nat × Nat)
  bar    : Option Nat := none
  event  : Nat → Nat → Event

/-- Bits of a number: `n` from bit `lo` on. -/
def fieldOf (x lo n : Nat) : Nat := x / 2 ^ lo % 2 ^ n

/-- Whether the core that a remote atomic names runs a task of the issuing task's context (R358). -/
def SameContext (s : State) (c : Nat) : Prop := ∃ t u, (here s).task = some t ∧ (getCore s c).task = some u ∧ u.ctx = t.ctx

/-- The C words from the registers they name. -/
def commandWord (s : State) (hit : Bool) (i : Instr) : Option CWord :=
  let k := here s
  let o (r : BitVec 5) : Nat := (sreg k r).toNat % 2 ^ 22
  let bar (r : BitVec 5) : List (Nat × Nat) := if r = 0 then [] else [(o r, 16)]
  let barV (r : BitVec 5) : List W64 := if r = 0 then [] else [sreg k r]
  let two (a b c : BitVec 5) (t : BitVec 8) (more : List (Nat × Nat)) : CWord :=
    { a := sreg k a, b := sreg k b, c := sreg k c, tag := t, aligns := [(o a, 64), (o b, 64)] ++ bar c
      offs := [sreg k a, sreg k b] ++ barV c, legal := true, prof := none, recs := [(o a, 64), (o b, 64)] ++ more, event := .commandComplete }
  let message (a b c : BitVec 5) (t : BitVec 8) (legal : Bool) : CWord :=
    { a := sreg k a, b := sreg k b, c := sreg k c, tag := t, aligns := [(fieldOf (sreg k a).toNat 42 22, 16), (o b, 64)] ++ bar c
      offs := [sreg k b] ++ barV c, legal, prof := none, recs := [(o b, 64)], event := .commandComplete }
  let one (a : BitVec 5) (t : BitVec 8) (prof : BitVec 6) (bar : Nat) (event : Nat → Nat → Event) : CWord :=
    { a := sreg k a, b := 0, c := 0, tag := t, aligns := [(o a, 64)], offs := [sreg k a], legal := true, prof := some prof
      recs := [(o a, 64)], bar := some bar, event }
  match i with
  | .cpy a b c t => some (two a b c t [])
  | .gath a b c t => some (two a b c t [((o b + 64) % 2 ^ 22, 64)])
  | .scat a b c t => some (two a b c t [((o b + 64) % 2 ^ 22, 64)])
  | .cmpct a b c t => some (two a b c t [((o b + 64) % 2 ^ 22, 64)])
  | .carry a b c t =>
    some { two a b c t [] with aligns := [(o a, 32), (o b, 64)] ++ bar c, recs := [(o a, 32), (o b, 64)] }
  | .cpyh a b c t =>
    let x := (sreg k c).toNat
    some { a := sreg k a, b := sreg k b, c := sreg k c, tag := t, aligns := [(fieldOf x 42 22, 16)], offs := [sreg k a]
           legal := decide (fieldOf x 28 12 = 0 ∧ 1 ≤ fieldOf x 0 24 ∧ fieldOf x 0 24 ≤ 2 ^ 22), prof := none, recs := [], event := .commandComplete }
  | .csum b t =>
    some { a := 0, b := sreg k b, c := 0, tag := t, aligns := [(o b, 64)], offs := [sreg k b], legal := true, prof := none
           recs := [(o b, 64)], event := .commandComplete }
  | .sqld b t =>
    some { a := 0, b := sreg k b, c := 0, tag := t, aligns := [(o b, 64)], offs := [sreg k b], legal := true, prof := none
           recs := [(o b, 64)], event := .scaleEntryLand }
  | .send a b c t =>
    let x := (sreg k a).toNat
    some (message a b c t (decide (fieldOf x 38 3 = 0 ∧ fieldOf x 11 5 = 0 ∧ fieldOf x 0 11 < 1280)))
  | .bcast a b c t =>
    let x := (sreg k a).toNat
    some (message a b c t (decide (fieldOf x 38 3 = 0 ∧ fieldOf x 6 10 = 0)))
  | .ratm a b t =>
    let x := (sreg k a).toNat
    let y := (sreg k b).toNat
    let op := fieldOf x 60 4
    some { a := sreg k a, b := sreg k b, c := 0, tag := t
           aligns := [(fieldOf x 16 22, if op = 7 ∨ op = 8 then 16 else if x.testBit 59 then 8 else 4)], offs := []
           legal := decide (op ≤ 8 ∧ fieldOf x 38 21 = 0 ∧ fieldOf x 11 5 = 0 ∧ fieldOf x 0 11 < 1280 ∧ (op = 7 → 1 ≤ y ∧ y < 2 ^ 20) ∧ (op = 8 → y < 2 ^ 31))
           prof := none, recs := []
           event := fun c u => if hit then
               .remoteAtomicMessage (fieldOf x 0 11)
                 { op := BitVec.ofNat 4 op, wide := x.testBit 59, off := fieldOf x 16 22, val := sreg k b, owner := some (c, u) }
             else .commandComplete c u }
  | .nmq a t p => some (one a t p 320 .candlePartialLand)
  | .nmr a t p => some (one a t p 288 .nmrBagLand)
  | .coll a t p => some (one a t p 256 .commandComplete)
  | .merge a b c t p _ =>
    some { a := sreg k a, b := sreg k b, c := sreg k c, tag := t, aligns := bar c, offs := [sreg k a, sreg k b] ++ barV c, legal := true
           prof := some p, recs := [], event := .commandComplete }
  | _ => none

/-- The bytes of the scratchpad at an offset with their poison (R84). -/
def recordAt (k : Core) (o n : Nat) : List PByte := (List.range n).map fun i => (spadByte k (o + i), spadPois k (o + i))

/-- An accepted command (R345): it is in flight under the next identity with its operands, its profile and what it captured, its
token is still to come, its event is due and `scaleq` is the scale queue. Only its pins, translations and heat change with it. -/
structure Accepted (s t : State) (w : QWord) (C : CWord) (np : Nat) (scaleq : List Promise) : Prop where
  command : ∃ m, Map.find (here t).cmds s.mmu.nextId = some m ∧ m.uid = s.mmu.nextId ∧ m.instr = w.instr ∧ m.num = w.num ∧ m.np = np ∧
    m.tag = C.tag ∧ m.a = C.a ∧ m.b = C.b ∧ m.c = C.c ∧ ∀ j p, C.recs[j]? = some p → lget m.job.recs j [] = recordAt (here s) p.1 p.2
  others  : ∀ u, u ≠ s.mmu.nextId → Map.find (here t).cmds u = Map.find (here s).cmds u
  event   : t.agenda = s.agenda ++ [C.event s.core s.mmu.nextId]
  pins    : ∃ ps, t.mmu = { s.mmu with pins := s.mmu.pins ++ ps, nextId := t.mmu.nextId, tlbs := t.mmu.tlbs } ∧
    (∀ p ∈ ps, p.owner = (s.mmu.nextId, 4096)) ∧ s.mmu.nextId < t.mmu.nextId
  heat    : (∀ c, heatOn s c = false) → t.dram = s.dram
  lines   : (∀ a g p, w.instr ≠ .nmq a g p) → (∀ a b c g, w.instr ≠ .bcast a b c g) → t.fab = s.fab
  rest    : ∃ u, u = { s with mmu := t.mmu, dram := t.dram, errlog := t.errlog, mgmt := { s.mgmt with log := t.mgmt.log }
                              free := t.free, agenda := t.agenda, fab := t.fab } ∧
    Ends u t 1 (opensToken w { here s with cmds := (here t).cmds, tlb := (here t).tlb, mem := { (here s).mem with scaleq } })

end Sys2Proof.Machine

/-- R343 to R345, R359. -/
def Obligations.CommandAcceptance : Prop :=
  ∀ (s : State) (w : QWord) (hit : Bool) (C : CWord), s.word = some w → NoCaptureFlight (here s) w → (here s).mem.spad.wf = true →
    (here s).iss.hpend = [] → (hit = true ↔ SameContext s (fieldOf C.a.toNat 0 11)) → commandWord s hit w.instr = some C →
    let k := here s
    let aligned := ∀ p ∈ C.aligns, p.1 % p.2 = 0
    let fits := C.legal = true ∧ ∀ v ∈ C.offs, v.toNat < 2 ^ 22
    let room := k.cmds.length + k.evq.length < 64 ∧ k.transit = none
    let ready := w.origin ≠ .emitted ∧ TrapReady k w.seq
    let query := ∃ a t p, w.instr = .nmq a t p
    let held := (k.mem.scaleq.map (·.left)).sum
    let first := (C.recs.map fun p => recordAt k p.1 p.2).headD []
    let barrier := C.bar.map fun at' => fieldOf (leVal first) at' 22
    let barred := (∃ y ∈ first, y.2 = true) ∨ ∀ y, barrier = some y → y % 16 = 0
    (∀ np, (match C.prof with | none => np = 0 | some f => profileOf w.np f = some np) → (query → np ≠ 0) →
      (aligned → fits → room → barred →
        ((∀ b t, w.instr ≠ .sqld b t) → (∀ a b c g, w.instr ≠ .bcast a b c g) → ∃ t, exec w.instr s = .next t ∧ Accepted s t w C np k.mem.scaleq) ∧
        (∀ a b c tag, w.instr = .bcast a b c tag →
          (∀ τ q, k.task = some τ → getQueue s τ.qid = some q → q.msetva = 0) → ∃ t, exec w.instr s = .next t ∧
            Accepted s t w C np k.mem.scaleq) ∧
        (∀ a b c tag v, w.instr = .bcast a b c tag → (∀ τ q, k.task = some τ → getQueue s τ.qid = some q →
            hubComing s .hub (hubKey (4096 + s.core)) q.ctx (q.msetva + 160 * fieldOf C.a.toNat 0 6) 160 true = (v, false)) →
          ∃ t, exec w.instr s = .next t ∧ Accepted s t w C np k.mem.scaleq) ∧
        (∀ b tag, w.instr = .sqld b tag →
          let n := sqldCount (recordAt k ((sreg k b).toNat % 2 ^ 22) 64)
          (held + n ≤ 1024 → ∃ t, exec w.instr s = .next t ∧
            Accepted s t w C np (if n = 0 then k.mem.scaleq else k.mem.scaleq ++ [{ head := w.num, left := n, got := [] }])) ∧
          (1024 < held + n → (∃ q ∈ vget k.iss.queues 2 [], q.seq < w.seq) → ∃ t, exec w.instr s = .next t ∧ Waits s t) ∧
          (1024 < held + n → (∀ q ∈ vget k.iss.queues 2 [], w.seq ≤ q.seq) → ready → Traps s w (exec w.instr s) 12 w.head 0))) ∧
      (aligned → fits → ¬room → ∃ t, exec w.instr s = .next t ∧ Waits s t) ∧
      (aligned → fits → room → ready → ¬barred → ∀ y, barrier = some y → Traps s w (exec w.instr s) 8 (BitVec.ofNat 64 y) 0) ∧
      (ready → (∀ p, C.aligns.find? (fun p => p.1 % p.2 ≠ 0) = some p → Traps s w (exec w.instr s) 8 (BitVec.ofNat 64 p.1) 0) ∧
        (aligned → ¬fits → Traps s w (exec w.instr s) 1 w.head 0))) ∧
    (ready → ∀ f, C.prof = some f →
      (profileOf w.np f = none → Traps s w (exec w.instr s) 9 w.head 0) ∧
      (query → profileOf w.np f = some 0 → Traps s w (exec w.instr s) 10 w.head 0))

namespace Sys2Proof.Machine

/-- The record of a completion (R151): status, cause, POISON, CRC present, kind, tag; bytes; elements; CRC. -/
def specRecord (r : PRes) (kind tag : Nat) : Record :=
  { w0 := BitVec.ofNat 64 (r.status + r.cause * 2 ^ 8 + (if r.pois then 2 ^ 16 else 0) + (if r.crc.isSome then 2 ^ 17 else 0) + kind * 2 ^ 20 + tag * 2 ^ 24)
    w1 := BitVec.ofNat 64 (min r.bytes (2 ^ 40 - 1)), w2 := BitVec.ofNat 64 (min r.elems (2 ^ 40 - 1)), w3 := BitVec.ofNat 64 (r.crc.getD 0) }

/-- What stood before earlier results is still kept (R66, R96). -/
def KeepsPast (k : Core) (past : List Past) : Prop :=
  ∀ p ∈ k.iss.past, ∃ q ∈ past, q.eng = p.eng ∧ q.num = p.num ∧ q.seen = p.seen ∧ q.fences = p.fences ∧ q.old = p.old

/-- A command completes (R113, R350, R351): its record is the youngest, its flags are set, its token comes and its pins go; its
barrier has become what `spad` holds. -/
def Completes (s t : State) (core : Nat) (m : Cmd) (spad : Memory) (res : PRes) (fl : BitVec 7) : Prop :=
  let k := getCore s core
  t = { s with cores := t.cores, mmu := { s.mmu with pins := s.mmu.pins.filter fun p => p.owner ≠ (m.uid, 4096) } } ∧
  (∀ c, c ≠ core → getCore t c = getCore s c) ∧
  (∃ past, KeepsPast k past ∧ getCore t core = { k with
    mem := { k.mem with spad }, sys := { k.sys with fpflags := k.sys.fpflags ||| fl }
    evq := k.evq ++ [specRecord res 0 m.tag.toNat], cmds := Map.erase k.cmds m.uid
    iss := { k.iss with openTok := k.iss.openTok.filter fun x => x ≠ (.c, m.num), past } })

/-- The work of the commands that run in one step once their lines have come. -/
def workOf (s : State) (core : Nat) (m : Cmd) : Option (Run × JobOut) :=
  let r := Run.start s
  let ag := agentOf s core m
  match m.instr with
  | .cpy .. => some (copyJob r ag m.job 0)
  | .gath .. => some (rowsJob r ag m.job 0)
  | .scat .. => some (rowsJob r ag m.job 1)
  | .cmpct .. => some (rowsJob r ag m.job 2)
  | .cpyh .. => some (flatJob r ag m.job m.a.toNat m.b.toNat m.c.toNat)
  | .csum .. => some (sumJob r ag m.job)
  | .merge _ _ c _ _ fl => some (mergeJob r ag m.np m.a.toNat m.b.toNat (fieldOf fl.toNat 0 8 + 1) (fieldOf fl.toNat 8 10 + 1)
      (if c = 0 then none else some (m.c.toNat % 2 ^ 22)))
  | _ => none

/-- The barrier that a command names (R343, R354). -/
def barrierOf (m : Cmd) : Option Nat :=
  match m.instr with
  | .cpy _ _ c _ | .gath _ _ c _ | .scat _ _ c _ | .cmpct _ _ c _ => if c = 0 then none else some (m.c.toNat % 2 ^ 22)
  | .cpyh .. => if m.c.toNat.testBit 41 then some (fieldOf m.c.toNat 42 22) else none
  | _ => none

/-- A dense tensor of bytes in the scratchpad. -/
def byteLay (base n : Nat) : Lay :=
  { base, hidx := 0, fmt := 12, spad := true, rank := 1, ext := [n, 1, 1, 1, 1, 1], str := [1, 0, 0, 0, 0, 0] }

end Sys2Proof.Machine

/-- R113, R350, R351, R353. The second clause takes what a command's work comes to from the model's own functions. -/
def Obligations.CommandCompletion : Prop :=
  ∀ (s : State) (core uid : Nat) (m : Cmd), Map.find (getCore s core).cmds uid = some m → m.uid = uid →
    let k := getCore s core
    ∃ t, exec (.commandComplete core uid) s = .next t ∧
    (∀ res, m.job.res = some res → s.mmu.defer = [] →
      ((∃ a t p, m.instr = .nmq a t p) ∨ (∃ a t p, m.instr = .nmr a t p) ∨ (∃ a t p, m.instr = .coll a t p) ∨
        (∃ b t, m.instr = .sqld b t) ∨ (∃ a b t, m.instr = .ratm a b t)) →
        Completes s t core m k.mem.spad res m.job.flags) ∧
    (∀ r o, workOf s core m = some (r, o) → r.miss = [] → r.prom = [] → r.s.mmu.defer = [] →
      (barrierOf m = none ∨ NoSpadPend (getCore r.s core)) → Completes r.s t core m
        (countAt (getCore r.s core).mem.spad (barrierOf m) o.landed (if o.res.status = 1 then 0 else o.want - o.landed) o.res.pois false)
        o.res o.flags) ∧
    (∀ a b c tag dst src n, m.instr = .cpy a b c tag → s.mmu.defer = [] → NoSpadFlight k (cmdWord m) → k.mem.spad.wf = true → k.mem.spad.pois = [] →
      parseLay (lget m.job.recs 0 []) false = .ok (byteLay dst n) → parseLay (lget m.job.recs 1 []) false = .ok (byteLay src n) →
      0 < n → dst + n ≤ 2 ^ 22 → src + n ≤ 2 ^ 22 → (dst + n ≤ src ∨ src + n ≤ dst) → m.c.toNat % 16 = 0 →
        ∃ spad₁ spad₂,
          Copied k.mem.spad spad₁ dst n (fun i => k.mem.spad.byte (src + i)) (fun _ => false) ∧
          (if c = 0 then spad₂ = spad₁ else
            let o := m.c.toNat % 2 ^ 22
            PutsBarrier spad₁ spad₂ o (advanced (counted (specBarrier (numberAt spad₁ o 16)) 0 (-n) false))) ∧
          Completes s t core m spad₂ { status := 1, cause := 0, bytes := n, elems := n, pois := false, crc := none } 0)

/-- The scale queue once an entry of a head's sqld has landed (R359). -/
def Sys2Proof.Machine.landing (q : List Promise) (head : Nat) (b : Byte × Bool) : List Promise :=
  (q.map fun p => if p.head = head then { p with got := p.got ++ [b] } else p).filter fun p => p.left ≠ 0

/-- R359, R362, R364, R380, R384: an entry lands in the scale queue, a partial and a result row in the scratchpad. What a query and a
bag come to is taken from the model's own functions. -/
def Obligations.NearMemoryLandings : Prop :=
  ∀ (s : State) (core uid : Nat) (m : Cmd), Map.find (getCore s core).cmds uid = some m → m.uid = uid →
    let k := getCore s core
    let rec0 := lget m.job.recs 0 []
    let x := leVal rec0
    let ag := agentOf s core m
    let i := m.job.units
    let known := fun (s t : State) (j : Job) (r : PRes) =>
      let k := getCore s core
      t = { s with cores := t.cores, agenda := s.agenda ++ [.commandComplete core uid] } ∧ (∀ c, c ≠ core → getCore t c = getCore s c) ∧
      getCore t core = { k with cmds := Map.set k.cmds uid { m with job := { j with res := some r } } }
    (∀ l, parseLay rec0 false = .ok l → l.spad = true → l.fmt = 6 → l.count ≤ 1024 → NoSpadFlight k (cmdWord m) →
      (i < l.count → ∃ t, exec (.scaleEntryLand core uid) s = .next t ∧
        let a := (((l.base : Int) + lget l.offs i 0) % 2 ^ 22).toNat
        let b : Byte × Bool := if k.mem.spad.pois.contains (a / 32) then (255, true) else (k.mem.spad.byte a, false)
        t = { s with cores := t.cores, agenda := s.agenda ++ [.scaleEntryLand core uid] } ∧ (∀ c, c ≠ core → getCore t c = getCore s c) ∧
        getCore t core = { k with
          mem := { k.mem with scaleq := landing k.mem.scaleq m.num b }
          cmds := Map.set k.cmds uid { m with job := { m.job with units := i + 1, pois := m.job.pois || b.2 } } }) ∧
      (l.count ≤ i → ∃ t, exec (.scaleEntryLand core uid) s = .next t ∧
        known s t m.job { status := 1, cause := 0, bytes := i, elems := i, pois := m.job.pois, crc := none })) ∧
    (∃ t, exec (.candlePartialLand core uid) s = .next t ∧ ∀ v j r res out fl, m.job.res = none → queryReady s (cmdKey uid) m.job = (v, some j) → j.res = none →
      let m1 := { m with job := j }
      queryJob (Run.start (setCmd v core m1)) (cmdKey uid) (agentOf (setCmd v core m1) core m1) m.np j = (r, res, out, fl) →
      r.miss = [] → r.prom = [] → NoSpadPend (getCore r.s core) → res.status = 1 →
        ∃ spad u past, KeepsPast (getCore r.s core) past ∧
          spad = countAt (spadWrite (getCore r.s core).mem.spad (qRoff x) out) (qBar x) out.length 0 (out.any (·.2)) false ∧
          u = setCore r.s core { getCore r.s core with
            mem := { (getCore r.s core).mem with spad }, iss := { (getCore r.s core).iss with past } } ∧
          known u t { j with flags := fl } res) ∧
    (∃ t, exec (.nmrBagLand core uid) s = .next t ∧ ∀ r out fl, m.job.res = none → i < rNbag x →
      bagJob (Run.start s) ag m.np m.job i = (r, .ok (out, fl)) → r.miss = [] → r.prom = [] →
      NoSpadPend (getCore r.s core) → ∃ spad past, KeepsPast (getCore r.s core) past ∧
        spad = countAt (spadWrite (getCore r.s core).mem.spad (bagOff x i) out) (rBar x) out.length 0 (out.any (·.2)) false ∧
        t = { r.s with cores := t.cores, agenda := r.s.agenda ++ [.nmrBagLand core uid] } ∧ (∀ c, c ≠ core → getCore t c = getCore r.s c) ∧
        getCore t core = { getCore r.s core with
          mem := { (getCore r.s core).mem with spad }, iss := { (getCore r.s core).iss with past }
          cmds := Map.set (getCore r.s core).cmds uid { m with job := { m.job with
            units := i + 1, bytes := m.job.bytes + out.length, pois := m.job.pois || out.any (·.2), flags := m.job.flags ||| fl } } }) ∧
    (m.job.res = none → rNbag x ≤ i → ∃ t, exec (.nmrBagLand core uid) s = .next t ∧
      known s t m.job { status := 1, cause := 0, bytes := m.job.bytes, elems := i, pois := m.job.pois, crc := none })

namespace Sys2Proof.Machine

/-! ### Deliveries and collectives -/

/-- `m'` is `m` once `bs` has landed from offset `o` on, wrapping (R64, R65): each byte is what came to it; a grain is poisoned
where a poisoned byte came, and keeps its mark unless all of it was written. -/
def LandsIn (m m' : Memory) (o : Nat) (bs : List PByte) : Prop :=
  let hit (x : Nat) : Option PByte := bs[(x + 2 ^ 22 - o % 2 ^ 22) % 2 ^ 22]?
  m'.wf = true ∧ (∀ x, x < 2 ^ 22 → m'.byte x = match hit x with | some b => b.1 | none => m.byte x) ∧
  ∀ g, g < 2 ^ 17 → (m'.pois.contains g = true ↔
    (∃ i b, i < 32 ∧ hit (32 * g + i) = some (b, true)) ∨ (m.pois.contains g = true ∧ ∃ i, i < 32 ∧ hit (32 * g + i) = none))

/-- A barrier's byte balance falls by `n` (R86); nothing where `n` is 0. -/
def FallsBy (m m' : Memory) (o n : Nat) (pois : Bool) : Prop :=
  if n = 0 then m' = m else PutsBarrier m m' o (advanced (counted (specBarrier (numberAt m o 16)) 0 (-n) pois))

/-- A delivery lands in a scratchpad, then its barrier counts it, and what will not come (R86, R350). -/
def Delivers (m m' : Memory) (d : Delivery) : Prop :=
  ∃ m₁, LandsIn m m₁ d.off d.data ∧
    match d.bar with
    | none => m' = m₁
    | some b => ∃ m₂, FallsBy m₁ m₂ b d.data.length (d.data.any (·.2)) ∧ FallsBy m₂ m' b d.rest d.pois

/-- A core's scratchpad has changed and nothing else, but that what stood there before is kept (R66). -/
def OnlySpad (s t : State) (c : Nat) (spad : Memory) : Prop :=
  t = { s with cores := t.cores } ∧ (∀ d, d ≠ c → getCore t d = getCore s d) ∧
  ∃ past, KeepsPast (getCore s c) past ∧
    getCore t c = { getCore s c with mem := { (getCore s c).mem with spad }, iss := { (getCore s c).iss with past } }

/-- What lands in a core's scratchpad, whatever is in flight there, changes that scratchpad and the results that meet it, and nothing else. -/
def LandsOn (s t : State) (c : Nat) : Prop :=
  t = { s with cores := t.cores, free := t.free } ∧ (∀ d, d ≠ c → getCore t d = getCore s d) ∧
  getCore t c = { getCore s c with mem := { (getCore s c).mem with spad := (getCore t c).mem.spad }, iss := (getCore t c).iss }

/-- The result of a command of a core is known, and it completes next (R351). -/
def Knows (s t : State) (c uid : Nat) (r : PRes) (fl : BitVec 7) : Prop :=
  ∃ m, Map.find (getCore s c).cmds uid = some m ∧
    t = { s with cores := t.cores, agenda := s.agenda ++ [.commandComplete c m.uid] } ∧ (∀ d, d ≠ c → getCore t d = getCore s d) ∧
    getCore t c = { getCore s c with
      cmds := Map.set (getCore s c).cmds m.uid { m with job := { m.job with res := some r, flags := m.job.flags ||| fl } } }

/-- A delivery that a barrier can follow. -/
def Sound (d : Delivery) : Prop := d.data.length < 2 ^ 21 ∧ ∀ b, d.bar = some b → b % 16 = 0 ∧ b < 2 ^ 22

/-- The core `c` runs the task of a target, and no other does. -/
def RunsTarget (s : State) (g : Target) (c : Nat) : Prop :=
  ∀ d, (∃ t, (getCore s d).task = some t ∧ t.qid = g.qid ∧ t.packet = g.packet ∧ t.ord = g.ord) ↔ d = c

/-- The new value of a remote atomic (R358), from the old value and the operand. -/
def atomicResult (op n old v : Nat) : Nat :=
  let m := 2 ^ (8 * n)
  match op with
  | 0 => (old + v) % m
  | 1 => if signedOf n old ≤ signedOf n (v % m) then old else v % m
  | 2 => if signedOf n (v % m) ≤ signedOf n old then old else v % m
  | 3 => old &&& v % m
  | 4 => old ||| v % m
  | 5 => old ^^^ v % m
  | 6 => v % m
  | 7 => barrierNumber (advanced (counted (specBarrier old) v 0 false))
  | _ => barrierNumber (advanced (counted (specBarrier old) 0 v false))

end Sys2Proof.Machine

/-- R65, R69, R86, R97, R156, R356, R357, R358. -/
def Obligations.Deliveries : Prop :=
  (∀ (s : State) (c : Nat) (d : Delivery) (m : AtomicMsg) (y : CarryMsg), (getCore s c).task ≠ none →
     (∃ t, exec (.scratchpadDeliveryLanding c d) s = .next t ∧ LandsOn s t c) ∧
     (m.owner = none → ∃ t, exec (.remoteAtomicMessage c m) s = .next t ∧ LandsOn { s with rels := t.rels } t c) ∧
     (∀ a uid j g gs, m.owner = some (a, uid) → Map.find (getCore s a).cmds uid = some j → j.job.targets = g :: gs → targetCore s g = some c →
       ∃ t u r, exec (.remoteAtomicMessage c m) s = .next t ∧ LandsOn { s with rels := t.rels } u c ∧ Knows u t a uid r 0) ∧
     (∀ x, y.core = c → y.owner = none → (getCore s c).task = some x → senderCtx s y.src = some x.ctx →
       ∃ t u, exec (.carryDelivery y) s = .next t ∧ LandsOn s u c ∧
         t = { u with fab := { u.fab with out := u.fab.out ++ [.peerAnswer y.src .ok []] } }) ∧
     (∀ a uid j g gs, y.owner = some (a, uid) → Map.find (getCore s a).cmds uid = some j → j.job.targets = g :: gs → targetCore s g = some c →
       ∃ t u r, exec (.carryDelivery y) s = .next t ∧ LandsOn s u c ∧ Knows u t a uid r 0)) ∧
  ∀ (s : State) (c : Nat) (d : Delivery) (m : AtomicMsg), Map.rising s.cores = true → NoSpadPend (getCore s c) → (getCore s c).mem.spad.wf = true →
    let k := getCore s c
    let op := m.op.toNat
    let n := if op = 7 ∨ op = 8 then 16 else if m.wide then 8 else 4
    let old := numberAt k.mem.spad m.off n
    let applies := fun (t : State) => ∃ spad, LandsIn k.mem.spad spad m.off (clean (leBytes n (atomicResult op n old m.val.toNat))) ∧
      OnlySpad { s with rels := t.rels } t c spad
    (Sound d → k.task ≠ none → ∃ t spad, exec (.scratchpadDeliveryLanding c d) s = .next t ∧ Delivers k.mem.spad spad d ∧ OnlySpad s t c spad) ∧
    (k.task = none → exec (.scratchpadDeliveryLanding c d) s = .next s) ∧
    (∀ x, Sound d → k.task = some x → ∃ t spad, exec (.beaconMulticastLanding x.ctx c d) s = .next t ∧ Delivers k.mem.spad spad d ∧ OnlySpad s t c spad) ∧
    (∀ ctx, (∀ x, k.task = some x → x.ctx ≠ ctx) → exec (.beaconMulticastLanding ctx c d) s = .next s) ∧
    (op ≤ 8 → m.off % n = 0 → m.off + n ≤ 2 ^ 22 → k.mem.spad.pois.contains (m.off / 32) = false →
      (m.owner = none → k.task ≠ none → ∃ t, exec (.remoteAtomicMessage c m) s = .next t ∧ applies t) ∧
      (∀ a uid j g gs, m.owner = some (a, uid) → Map.find (getCore s a).cmds uid = some j → j.uid = uid → j.job.targets = g :: gs →
        RunsTarget s g c → ∃ t u, exec (.remoteAtomicMessage c m) s = .next t ∧ applies u ∧
          Knows u t a uid { status := 1, cause := 0, bytes := 0, elems := 1, pois := false, crc := none } 0)) ∧
    (∀ (y : CarryMsg) (x : Task), y.d = d → y.core = c → Sound d → y.owner = none → k.task = some x → senderCtx s y.src = some x.ctx →
      ∃ t u spad, exec (.carryDelivery y) s = .next t ∧ Delivers k.mem.spad spad d ∧ OnlySpad s u c spad ∧
        t = { u with fab := { u.fab with out := u.fab.out ++ [.peerAnswer y.src .ok []] } }) ∧
    (∀ (y : CarryMsg), y.core = c → y.owner = none → (∀ x, k.task = some x → senderCtx s y.src ≠ some x.ctx) →
      ∃ t, exec (.carryDelivery y) s = .next t ∧ t = { s with fab := { s.fab with out := s.fab.out ++ [.peerAnswer y.src (.notPresent 7) []] } }) ∧
    (∀ (y : CarryMsg) a uid j g gs r, y.d = d → Sound d → y.owner = some (a, uid) → Map.find (getCore s a).cmds uid = some j → j.uid = uid →
      j.job.targets = g :: gs → j.job.sent = some r → RunsTarget s g c →
        ∃ t u spad, exec (.carryDelivery y) s = .next t ∧ Delivers k.mem.spad spad d ∧ OnlySpad s u c spad ∧ Knows u t a uid r 0)

/-- R366 to R368: an arrival joins its instance; an instance that all have joined ends. The second clause is a gather by its one
participant, of bytes, into its own scratchpad. -/
def Obligations.Collectives : Prop :=
  ∀ (s : State) (a : Arrival),
    let j := Map.get { arr := [], late := [] } s.joined a.gid
    (a.owner.isSome = true → ∃ t es arr late, exec (.prismCollectiveArrival a) s = .next t ∧
      ((∃ b ∈ j.arr, b.me = a.me) → arr = j.arr ∧ late = j.late ++ [a]) ∧ ((∀ b ∈ j.arr, b.me ≠ a.me) → arr = j.arr ++ [a] ∧ late = j.late) ∧
      (∀ e, e ∈ es ↔ ∃ d c, (d, c) ∈ a.tab ∧ d ≠ s.fab.devid ∧ e = .arrival d a) ∧
      t = { s with fab := { s.fab with out := s.fab.out ++ es }, joined := Map.set s.joined a.gid { arr, late }, agenda := t.agenda } ∧
      ((∃ z ∈ arr, z.me = 0) → (∀ z ∈ arr, z.me = 0 → ∀ p, p < z.np → ∃ b ∈ arr, b.me = p) → t.agenda = s.agenda ++ [.collectiveResult a.gid]) ∧
      ((∀ z ∈ arr, z.me = 0 → ∃ p, p < z.np ∧ ∀ b ∈ arr, b.me ≠ p) → t.agenda = s.agenda)) ∧
    (∀ (core uid dst n : Nat) (m : Cmd) (x : Task), Map.rising s.cores = true → Map.find s.joined a.gid = some { arr := [a], late := [] } →
      a.np = 1 → a.me = 0 → a.op = 0 → a.fmt = 12 → a.fail = none → a.tab = [(a.dev, a.core)] → a.owner = some (uid, 4096) →
      (∀ e ∈ a.src, e.bits < 256 ∧ e.pois = false) → a.src.length = n → 0 < n →
      (∀ c, c ≠ core → Map.find (getCore s c).cmds uid = none) → Map.find (getCore s core).cmds uid = some m → m.uid = uid →
      (∃ y z pr, m.instr = .coll y z pr) → parseLay (lget m.job.recs 2 []) false = .ok (byteLay dst n) → dst + n ≤ 2 ^ 22 → n < 2 ^ 21 →
      (leVal (lget m.job.recs 0 [])).testBit 287 = false → (getCore s core).task = some x →
      RunsTarget s { core, qid := x.qid, packet := x.packet, ord := x.ord } core → NoSpadPend (getCore s core) →
      (getCore s core).mem.spad.wf = true → ∃ t u spad, exec (.collectiveResult a.gid) s = .next t ∧
        LandsIn (getCore s core).mem.spad spad dst (a.src.map fun e => (BitVec.ofNat 8 e.bits, false)) ∧
        OnlySpad { s with joined := Map.erase s.joined a.gid } u core spad ∧
        Knows u t core uid { status := 1, cause := 0, bytes := n, elems := n, pois := false, crc := none } 0)

/-- R67, R103, R114, R117, R142, R44: what lands in the background. -/
def Obligations.BackgroundLandings : Prop :=
  ∀ (s : State) (c : Nat),
    let k := getCore s c
    (∃ t, exec (.exposedResultExpire c) s = .next t ∧
      let u := settleRaces s c
      t = { u with cores := t.cores } ∧ u = { s with cores := u.cores, free := u.free } ∧ (∀ d, d ≠ c → getCore t d = getCore s d) ∧
      getCore u c = { k with iss := { k.iss with pend := (getCore u c).iss.pend } } ∧
      ((getCore u c).iss.pend.map fun p => (p.eng, p.num, p.due, p.seen)) = (k.iss.pend.map fun p => (p.eng, p.num, p.due, p.seen)) ∧
      ((∀ p ∈ k.iss.pend, p.settled = true) → u = s) ∧
      landed (getCore t c) = landed (getCore u c) ∧ (getCore t c).iss.slots = k.iss.slots ∧
      (∀ p ps, (getCore t c).iss.pend = p :: ps → vget k.iss.slots (engIx p.eng) 0 < p.due) ∧
      ∀ p, p ∈ (getCore t c).iss.hpend ↔ p ∈ k.iss.hpend ∧ (p.val = none ∨ vget k.iss.slots 0 0 < p.due)) ∧
    (∀ line l cell, Map.find k.plain line = some l → hRes l.handle = 0 → cellOf (hPhys l.handle (line * 64)) = some cell → cell % 64 = 0 →
      attrAt s cell = hFormat l.handle → l.data.length = 64 → (∀ b ∈ l.data, b.2 = false) → s.dram.wf = true →
      hBase l.handle ≤ line * 64 →
        ∃ t, exec (.plainBufferWriteback c line) s = .next t ∧ t.dram.wf = true ∧
          (∀ x, t.dram.byte x = if cell ≤ x ∧ x < cell + 64 ∧ l.dirty.getLsbD (x - cell) = true then (lget l.data (x - cell) (0, false)).1 else s.dram.byte x) ∧
          t = { withDram s t with cores := t.cores } ∧ (∀ d, d ≠ c → getCore t d = getCore s d) ∧
          getCore t c = { k with plain := Map.set k.plain line { l with dirty := 0 }, lastRead := (getCore t c).lastRead }) ∧
    (∀ a, ∃ t, exec (.cellWriteComplete a) s = .next t ∧
      let u := 2 ^ (5 + (attrAt s a).gran.toNat)
      t = { s with old := s.old.filter fun p => decide (p.1 / u ≠ a / u) }) ∧
    (∀ st pch bank, exec (.perBankRefresh st pch bank) s = .next s) ∧
    (∀ w q d a sem m, vget k.iss.queues 6 [] = w :: q → w.eng = .q → w.asleep = true → w.instr = .waitvSp d a sem m →
      let u : State := { takeHead s c .q with word := some { w with asleep := false } }
      let o := (sreg (here u) a).toNat % 2 ^ 22
      let v := BitVec.ofNat 64 (numberAt k.mem.spad o 8)
      NoSpadFlight (here u) w → k.mem.spad.wf = true → o % 8 = 0 → k.mem.spad.pois.contains (o / 32) = false →
      releaseHeld u (releaseOf k sem m false) = false → (∀ x xs, q = x :: xs → x.num ≠ w.num) →
        ∃ t z past, exec (.waitvFreshRead c) s = .next t ∧ t = rememberRegs z c w (here u) ∧ Heeds (here u) past ∧
          (∀ r, sreg (here z) r = if r = d ∧ d ≠ 0 then v else sreg (here u) r) ∧
          Ends { u with old := z.old } z 1 { withReg (knows (here u) z) d v with iss := { (here u).iss with past } }) ∧
    (k.claim = none → exec (.qpushPublish c) s = .next s) ∧
    (∀ cl q, k.claim = some cl → getQueue s cl.q = some q → ∃ t, exec (.qpushPublish c) s = .next t ∧
      ∀ s₁ s₂, roomFor s q cl.q cl.k = (s₁, .ok true) → releaseHeld s₁ (pushMask (some cl.w)) = false →
      publish (releaseNear s₁ (pushMask (some cl.w))) c q cl.q cl.k (clean cl.image) (pushMask (some cl.w)) = (s₂, .done) →
      ∃ view past, t = { s₂ with cores := t.cores } ∧ KeepsPast (getCore s₂ c) past ∧
        (∀ d, d ≠ c → getCore t d = getCore s₂ d) ∧ (∀ r, sreg (getCore t c) r = if r = cl.d ∧ cl.d ≠ 0 then BitVec.ofNat 64 cl.k else sreg (getCore s₂ c) r) ∧
        getCore t c = { withReg (getCore s₂ c) cl.d (BitVec.ofNat 64 cl.k) with
          claim := none
          iss := { (getCore s₂ c).iss with openTok := (getCore s₂ c).iss.openTok.filter (fun x => x ≠ (.q, cl.w.num)), view, past } })

namespace Sys2Proof.Machine

/-! ### Wick -/

/-- A micro register: w0 reads zero (R390). -/
def microReg (W : Wick) (r : BitVec 4) : W32 := if r = 0 then 0 else vget W.w r.toNat 0

/-- A micro-operation that changes Wick alone: the micro registers read `reg`, and the rest of Wick is `W`. -/
def WickBecomes (s t : State) (W : Wick) (reg : BitVec 4 → W32) : Prop :=
  t = { s with cores := t.cores } ∧ (∀ c, c ≠ s.core → getCore t c = getCore s c) ∧
  here t = { here s with wick := { W with w := (here t).wick.w } } ∧ ∀ r, microReg (here t).wick r = reg r

/-- A Wick trap that is taken at once (R394, R399): no word waits in a queue. -/
def WickTraps (s : State) (r : Host.Outcome State Fault Refusal) (code : Nat) (addr est : W64) : Prop :=
  let k := here s
  ∀ w, k.wick.word = some w → k.iss.trap = none → (∀ e, vget k.iss.queues e [] = []) → k.handler = false → k.sys.trapvec ≠ 0 →
    ∃ t, r = .next t ∧ t = { s with cores := t.cores, word := none } ∧ (∀ c, c ≠ s.core → getCore t c = getCore s c) ∧
      here t = { k with
        sys := { k.sys with trapcode := BitVec.ofNat 64 code, trapaddr := addr, epc := w.addr, estat := est, skip := Vector.replicate 7 []
                            skipEpc := w.addr }
        handler := true, pc := k.sys.trapvec, nest := none, saved := none, ending := false
        wick := { k.wick with run := false, trapped := true }, iss := (here t).iss }

/-- The value of the register operations of R393: the register and what it takes. -/
def microValue (W : Wick) : Instr → Option (BitVec 4 × W32)
  | .addw d a b => some (d, BitVec.ofNat 32 ((microReg W a).toNat + (microReg W b).toNat))
  | .addwImm d a i => some (d, BitVec.ofNat 32 ((microReg W a).toNat + i.toNat))
  | .subw d a b => some (d, BitVec.ofInt 32 ((microReg W a).toNat - (microReg W b).toNat))
  | .subwImm d a i => some (d, BitVec.ofInt 32 ((microReg W a).toNat - i.toNat))
  | .andw d a b => some (d, microReg W a &&& microReg W b)
  | .andwImm d a i => some (d, microReg W a &&& BitVec.ofNat 32 i.toNat)
  | _ => none

/-- The conditions of brc (R391, R393). -/
def MicroCond (W : Wick) (c : BitVec 3) : Prop :=
  match c.toNat with
  | 0 => W.eq = true
  | 1 => W.eq = false
  | 2 => W.lt = true
  | _ => W.lt = false

/-- A group that Wick steers (R392): the words as a whole are a group of an engine other than S, and no lbody. -/
def Emittable (ws : List Nat) (e : Eng) (g : Group) : Prop :=
  decodeGroup ws = .ok g ∧ g.len = ws.length ∧ e = headEngine (lget ws g.head 0) ∧ e ≠ .s ∧ ∀ a b, g.instr ≠ .lbody a b

/-- Its word stands last in its engine's queue as the engine's next head, at the address of its emit, waiting for the heads that it
names (R95, R183, R219); Wick stands behind the group. -/
def EmitsWord (s t : State) (e : Eng) (g : Group) (n : Nat) : Prop :=
  let k := here s
  let x := engIx e
  let i := (here t).iss
  t = { s with cores := t.cores } ∧ (∀ c, c ≠ s.core → getCore t c = getCore s c) ∧
  here t = { k with wick := { k.wick with wpc := BitVec.ofNat 11 (k.wick.wpc.toNat + 1 + n) }, iss := i, stepped := (here t).stepped } ∧
  i = { k.iss with queues := i.queues, heads := i.heads, win := i.win, seq := k.iss.seq + 1 } ∧
  (∀ y, y < 7 → vget i.heads y 0 = vget k.iss.heads y 0 + if y = x then 1 else 0) ∧
  (∀ y, y < 7 → y ≠ x → vget i.queues y [] = vget k.iss.queues y []) ∧
  (∀ y, y < 7 → y ≠ x → vget i.win y [] = vget k.iss.win y []) ∧
  ∃ q, vget i.queues x [] = vget k.iss.queues x [] ++ [q] ∧ q.eng = e ∧ q.num = vget k.iss.heads x 0 + 1 ∧ q.instr = g.instr ∧
    q.origin = .emitted ∧ q.addr = k.wick.wpc.setWidth 64 ∧ q.deps = g.deps.filterMap (refHead k.iss) ∧ q.np = k.sys.npdef.toNat

end Sys2Proof.Machine

/-- R389 to R394. -/
def Obligations.WickOperations : Prop :=
  ∀ (s : State) (a b : BitVec 4) (imm : BitVec 18) (tg : BitVec 11) (cc : BitVec 3),
    let k := here s
    let W := k.wick
    let at' := W.wpc.toNat
    let reg := microReg W
    let moves := fun (r : Host.Outcome State Fault Refusal) (n : Nat) (W' : Wick) => ∃ t, r = .next t ∧ WickBecomes s t { W' with wpc := BitVec.ofNat 11 n } reg
    let traps := fun (r : Host.Outcome State Fault Refusal) (cause : Nat) => WickTraps s r 19 (BitVec.ofNat 64 at') (BitVec.ofNat 64 cause)
    let inLoop := ∀ st en c more, W.stack = (st, en, c) :: more → st ≤ tg.toNat ∧ tg.toNat ≤ en
    (at' < 2047 →
      (∀ i d v, microValue W i = some (d, v) → ∃ t, exec i s = .next t ∧
        WickBecomes s t { W with wpc := BitVec.ofNat 11 (at' + 1) } fun r => if r = d ∧ d ≠ 0 then v else reg r) ∧
      moves (exec (.cmpw a b) s) (at' + 1) { W with eq := decide (reg a = reg b), lt := decide ((reg a).toNat < (reg b).toNat) } ∧
      moves (exec (.cmpwImm a imm) s) (at' + 1) { W with eq := decide ((reg a).toNat = imm.toNat), lt := decide ((reg a).toNat < imm.toNat) } ∧
      (¬MicroCond W cc → moves (exec (.brc cc tg) s) (at' + 1) W) ∧
      (at' < tg.toNat → reg a ≠ 0 → W.stack.length < 4 → moves (exec (.loopw a tg) s) (at' + 1) { W with stack := (at' + 1, tg.toNat, reg a) :: W.stack }) ∧
      (∀ st c more, W.stack = (st, at', c) :: more → c = 1 → moves (exec .endl s) (at' + 1) { W with stack := more })) ∧
    (inLoop → moves (exec (.br tg) s) tg.toNat W ∧ (MicroCond W cc → moves (exec (.brc cc tg) s) tg.toNat W)) ∧
    (at' < tg.toNat → reg a = 0 → tg.toNat < 2047 → moves (exec (.loopw a tg) s) (tg.toNat + 1) W) ∧
    (∀ st c more, W.stack = (st, at', c) :: more → c ≠ 1 → st < 2048 → moves (exec .endl s) st { W with stack := (st, at', c - 1) :: more }) ∧
    (¬inLoop → traps (exec (.br tg) s) 4 ∧ (MicroCond W cc → traps (exec (.brc cc tg) s) 4)) ∧
    (tg.toNat ≤ at' → traps (exec (.loopw a tg) s) 3) ∧
    (at' < tg.toNat → reg a ≠ 0 → 4 ≤ W.stack.length → traps (exec (.loopw a tg) s) 4) ∧
    ((∀ st c more, W.stack ≠ (st, at', c) :: more) → traps (exec .endl s) 4) ∧
    (at' = 2047 → ∀ i d v, microValue W i = some (d, v) → traps (exec i s) 3)

/-- R390, R392, R393: what Wick does to the scratchpad, to the queues and to tokens. What emitx puts into a group is taken from the model's
own function. -/
def Obligations.WickEffects : Prop :=
  ∀ (s : State) (d a : BitVec 4) (e6 : BitVec 6) (e16 : BitVec 16) (n : BitVec 2) (en : BitVec 3) (kk : BitVec 5),
    NoSpadPend (here s) → (∀ w, (here s).wick.word = some w → NoSpadFlight (here s) w) → (here s).mem.spad.wf = true →
    let k := here s
    let W := k.wick
    let at' := W.wpc.toNat
    let reg := microReg W
    let p := (W.pboff.toNat + 4 * e6.toNat) % 2 ^ 22
    let o := ((reg a).toNat + 4 * e16.toNat) % 2 ^ 22
    let loads := fun (r : Host.Outcome State Fault Refusal) (x : Nat) =>
      (k.mem.spad.pois.contains (x / 32) = false → at' < 2047 → ∃ t, r = .next t ∧
        WickBecomes s t { W with wpc := BitVec.ofNat 11 (at' + 1) } fun r => if r = d ∧ d ≠ 0 then BitVec.ofNat 32 (numberAt k.mem.spad x 4) else reg r) ∧
      (k.mem.spad.pois.contains (x / 32) = true → WickTraps s r 18 (BitVec.ofNat 64 x) 0)
    let words := (List.range (n.toNat + 1)).map fun j => (Map.get 0 s.wcs (at' + 1 + j)).toNat
    (p % 4 = 0 → loads (exec (.ldpm d e6) s) p) ∧
    (o % 4 = 0 → loads (exec (.ldw d a e16) s) o) ∧
    (o % 4 ≠ 0 → WickTraps s (exec (.ldw d a e16) s) 19 (BitVec.ofNat 64 at') 7) ∧
    (p % 4 = 0 → at' < 2047 → ∃ t spad, exec (.wsig a e6) s = .next t ∧ Stores k.mem.spad spad p 4 (BitVec.ofNat 64 (reg a).toNat) ∧
      t = { s with cores := t.cores } ∧ (∀ c, c ≠ s.core → getCore t c = getCore s c) ∧
      here t = { keepStanding k W.word false p 4 with wick := { W with wpc := BitVec.ofNat 11 (at' + 1) }, mem := { k.mem with spad } }) ∧
    (∀ e g, at' + n.toNat + 2 < 2048 → Emittable words e g → vget k.sys.skip (engIx e) [] = [] →
      ∃ t, exec (.emit n) s = .next t ∧ EmitsWord s t e g (n.toNat + 1)) ∧
    (∀ ws e g, at' + n.toNat + 2 < 2048 → patchWords (reg a) words = some ws → Emittable ws e g → vget k.sys.skip (engIx e) [] = [] →
      ∃ t, exec (.emitx n a) s = .next t ∧ EmitsWord s t e g (n.toNat + 1)) ∧
    (at' + n.toNat + 1 < 2048 → patchWords (reg a) words = none → WickTraps s (exec (.emitx n a) s) 19 (BitVec.ofNat 64 at') 5) ∧
    (2048 ≤ at' + n.toNat + 1 → WickTraps s (exec (.emit n) s) 19 (BitVec.ofNat 64 at') 3 ∧ WickTraps s (exec (.emitx n a) s) 19 (BitVec.ofNat 64 at') 3) ∧
    (refHead k.iss (en, kk) = none → at' < 2047 → ∃ t, exec (.wtok en kk) s = .next t ∧ WickBecomes s t { W with wpc := BitVec.ofNat 11 (at' + 1) } reg) ∧
    (∀ h, refHead k.iss (en, kk) = some h →
      (produced k.iss h.1 h.2 = false → exec (.wtok en kk) s = .next s) ∧
      (produced k.iss h.1 h.2 = true → at' < 2047 → ∃ t, exec (.wtok en kk) s = .next t ∧
        WickBecomes s t { W with wpc := BitVec.ofNat 11 (at' + 1), word := W.word.map fun x => { x with deps := x.deps ++ [h] } } reg)) ∧
    (∀ w, W.word = some w → ∃ t, exec .stopw s = .next t ∧ t = { s with cores := t.cores } ∧ (∀ c, c ≠ s.core → getCore t c = getCore s c) ∧
      here t = { k with wick := { W with run := false }, iss := { k.iss with openTok := k.iss.openTok.filter fun x => x ≠ (.s, w.num) } })

namespace Sys2Proof.Machine

/-! ### Translation events -/

/-- Two ranges share an address. -/
def Meet (a n b m : Nat) : Prop := a < b + m ∧ b < a + n

/-- The bytes of a memory outside a range are as they were, and so are the marks of the grains outside it. -/
def Outside (m m' : Memory) (a n : Nat) : Prop :=
  m'.wf = true ∧ (∀ x, ¬(a ≤ x ∧ x < a + n) → m'.byte x = m.byte x) ∧
  ∀ g, 32 * g + 32 ≤ a ∨ a + n ≤ 32 * g → m'.pois.contains g = m.pois.contains g

/-- A range meets what a pin holds: its unit of 64 KiB, and the page of its translation whatever its size (R28, R29). -/
def Covers (p : Pin) (ctx lo len : Nat) : Prop :=
  p.ctx = ctx ∧ (Meet p.base (pageSize p.size) lo len ∨ (p.cause = none ∧ Meet (hBase p.handle) (pageSize (hSize p.handle)) lo len))

/-- One core has changed, to `k`, and nothing else. -/
def OnlyCore (s t : State) (c : Nat) (k : Core) : Prop :=
  t = { s with cores := t.cores } ∧ (∀ d, d ≠ c → getCore t d = getCore s d) ∧ getCore t c = k

end Sys2Proof.Machine

/-- R27 to R30. -/
def Obligations.Shootdowns : Prop :=
  ∀ (s : State) (r : ShootReq), Map.rising s.cores = true →
    let lo := if r.units = 0 then 0 else r.vpn * 65536
    let len := if r.units = 0 then 2 ^ 52 else r.units * 65536
    ((∀ tag, r.src = .host tag → r.ctx < 256 ∧ r.vpn < 2 ^ 36 ∧ r.units < 2 ^ 25) → s.mmu.shoots.length < 16 →
      ∃ t, exec (.shootdownStart r) s = .next t ∧
        t.mmu.shoots = s.mmu.shoots ++ [{ id := s.mmu.nextId, req := r }] ∧ t.agenda.getLast? = some (.shootdownComplete s.mmu.nextId) ∧
        (∀ c, getCore t c = { getCore s c with
          tlb := (getCore t c).tlb, h := (getCore t c).h, cmds := (getCore t c).cmds, plain := (getCore t c).plain
          lastRead := (getCore t c).lastRead
          iss := { (getCore s c).iss with hpend := (getCore t c).iss.hpend } }) ∧
        (∀ c e, e ∈ (getCore t c).tlb ↔ e ∈ (getCore s c).tlb ∧ ¬(e.ctx = r.ctx ∧ Meet e.base (pageSize e.size) lo len)) ∧
        (∀ c i, i < 16 → let x := vget (getCore s c).h i 0
          vget (getCore t c).h i 0 =
            if hV x = true ∧ hCtx x = r.ctx ∧ hBase x < lo + len ∧ lo < hBase x + pageSize (hSize x) then BitVec.ofNat 128 (x.toNat % 2 ^ 127) else x) ∧
        (∀ c, (∀ x, (getCore s c).task = some x → x.ctx ≠ r.ctx) →
          (getCore t c).plain = (getCore s c).plain ∧ (getCore t c).lastRead = (getCore s c).lastRead) ∧
        (∀ c p, p ∈ (getCore t c).iss.hpend → ∀ v, p.val = some v → hV v = true → hCtx v = r.ctx →
          ¬Meet (hBase v) (pageSize (hSize v)) lo len) ∧
        (∀ p ∈ t.mmu.pins, p.cause = none → Covers p r.ctx lo len → p.revoked = true) ∧
        t = { withDram s t with cores := t.cores, mmu := t.mmu, queues := t.queues, fab := t.fab, errlog := t.errlog, mgmt := t.mgmt }) ∧
    (s.mmu.shoots.length = 16 → (∀ tag, r.src ≠ .host tag) →
      ∃ t, exec (.shootdownStart r) s = .next t ∧ t = { s with agenda := .shootdownStart r :: s.agenda }) ∧
    (∀ id rest, s.mmu.shoots = { id, req := r } :: rest → (∀ x ∈ rest, x.id ≠ id) →
      let pinned := ∃ p ∈ s.mmu.pins, p.revoked = true ∧ Covers p r.ctx lo len
      let writing := ∃ l ∈ s.fab.lines, l.data.isSome = true ∧ (Meet l.src l.len lo len ∨ Meet l.page.1 l.page.2 lo len)
      (pinned ∨ writing → ∃ t, exec (.shootdownComplete id) s = .next t ∧ t = { s with agenda := s.agenda ++ [.shootdownComplete id] }) ∧
      (¬pinned → ¬writing → ∃ t es u, exec (.shootdownComplete id) s = .next t ∧ (∀ e ∈ es, ∃ c n, e = .pageWalkComplete c n) ∧
        u = { s with mmu := { s.mmu with shoots := rest }, old := [], agenda := s.agenda ++ es } ∧
        (∀ tag, r.src = .host tag → t = { u with fab := { u.fab with out := u.fab.out ++ [.mgmt 3 tag 0 []] } }) ∧
        (∀ c, r.src = .core c → OnlyCore u t c { getCore s c with mreg := { (getCore s c).mreg with sdBusy := false } }))) ∧
    (∀ p, p ∈ s.mmu.pins → (∀ q ∈ s.mmu.pins, q.id = p.id → q = p) → s.mmu.defer = [] →
      let pins := s.mmu.pins.filter fun q => q.id ≠ p.id
      (p.revoked = false ∨ localOf s p.owner = none → ∃ t, exec (.streamPinRelease p.id) s = .next t ∧ t = { s with mmu := { s.mmu with pins } }) ∧
      (∀ l, p.revoked = true → localOf s p.owner = some l → (p.write = true → movingAt s p.ctx p.base = false) → p.base % 65536 = 0 →
        (∀ q ∈ pins, ¬(q.owner = l.ag.owner ∧ q.ctx = p.ctx ∧ q.base = p.base ∧ q.write = p.write)) →
        ∃ t p', exec (.streamPinRelease p.id) s = .next t ∧ t.mmu.pins = pins ++ [p'] ∧ p'.ctx = p.ctx ∧ p'.base = p.base ∧ p'.write = p.write ∧
          p'.owner = l.ag.owner ∧ p'.revoked = false))

/-- R124, R421. -/
def Obligations.ForwardedLines : Prop :=
  ∀ (s : State) (f : FLine) (st : LineStatus) (data : List PByte), f ∈ s.fab.lines → (∀ g ∈ s.fab.lines, g.id = f.id → g = f) →
    let lines := s.fab.lines.filter fun g => g.id ≠ f.id
    let got := (data ++ List.replicate f.len ((255, true) : PByte)).take f.len
    let heard := if f.host then s.fab.timeouts else Map.erase s.fab.timeouts f.dev
    let n := Map.get 0 s.fab.timeouts f.dev + 1
    let silent := if f.host then s.fab.timeouts else Map.set s.fab.timeouts f.dev n
    let lost := if f.host = false ∧ n = 8 ∧ s.fab.lost.contains f.dev = false then [Event.deviceUnreachable f.dev] else []
    (∀ c k, f.use = .load c k → c < 1280 → f.data = none →
      (∃ t, exec (.forwardedLineResponse f.id st data) s = .next t ∧ t = { s with fab := { s.fab with
        lines, timeouts := heard, answers := s.fab.answers ++ [{ core := c, num := k, strong := false, st, late := false, data := got }] } }) ∧
      (∃ t, exec (.forwardedLineTimeout f.id) s = .next t ∧ t = { s with
        fab := { s.fab with lines, timeouts := silent, answers := s.fab.answers ++
          [{ core := c, num := k, strong := false, st := .notPresent 1, late := true, data := List.replicate f.len (255, true) }] }
        agenda := s.agenda ++ lost })) ∧
    (∀ c k, f.use = .strong c k → f.op = 2 → ∃ t, exec (.forwardedLineResponse f.id st data) s = .next t ∧ t = { s with fab := { s.fab with
        lines, timeouts := heard, answers := s.fab.answers ++ [{ core := c, num := k, strong := true, st, late := false, data := got }] } }) ∧
    (∀ q c packet ord, f.use = .store q c packet ord → st = .ok → ∃ t, exec (.forwardedLineResponse f.id st data) s = .next t ∧
        t = { s with fab := { s.fab with lines, timeouts := heard } }) ∧
    (∀ c va, f.use = .fetch c va → f.data = none → ∃ t, exec (.forwardedLineResponse f.id st data) s = .next t ∧
        OnlyCore { s with fab := { s.fab with lines, timeouts := heard } } t c
          { getCore s c with fetched := Map.set (getCore s c).fetched va (st, got) }) ∧
    (∀ uid va c k, f.use = .command uid 4096 va → f.data = none → runningCmd s uid = some (c, k) → k.uid = uid →
      ∃ t u, exec (.forwardedLineResponse f.id st data) s = .next t ∧
        u = { s with fab := { s.fab with lines, timeouts := heard }, agenda := s.agenda ++ [cmdEvent c k] } ∧
        OnlyCore u t c { getCore s c with
          cmds := Map.set (getCore s c).cmds uid { k with job := { k.job with got := k.job.got ++ [{ va, st, late := false, data := got }] } } })

/-- R20, R21, R32: a period begins, a visit lets heat fade; the tables of the hub. -/
def Obligations.SweepAndTables : Prop :=
  (∀ (s : State) (ctx va : Nat),
     (∃ t, exec (.sweepPeriodBoundary ctx) s = .next t ∧
       t = { s with mmu := { s.mmu with tlbs := t.mmu.tlbs }, agenda := t.agenda } ∧
       (∀ die, Map.get [] t.mmu.tlbs die = (Map.get [] s.mmu.tlbs die).map fun e => if e.ctx = ctx then { e with rseen := false, wseen := false } else e) ∧
       (ctxValid s ctx = true → sweepOn s ctx = true → t.agenda = s.agenda ++ ((leavesOf s ctx).map (.sweeperVisit ctx) ++ [.sweepPeriodBoundary ctx])) ∧
       (ctxValid s ctx = true → sweepOn s ctx = false → heatOn s ctx = true → t.agenda = s.agenda ++ [.sweepPeriodBoundary ctx]) ∧
       (ctxValid s ctx = true → sweepOn s ctx = false → heatOn s ctx = false → t.agenda = s.agenda) ∧
       (ctxValid s ctx = false → t.agenda = s.agenda)) ∧
     (∀ leaf size addr, leafSpot s ctx va = some (addr, leaf, size) → addr < 2 ^ 40 → addr % 8 = 0 → s.dram.pois.contains (addr / 32) = false →
       sweepOn s ctx = true → s.mmu.cen = false → s.mmu.xen = false → s.dram.wf = true → ∃ t, exec (.sweeperVisit ctx va) s = .next t ∧ t = { s with dram := t.dram } ∧ Outside s.dram t.dram addr 8 ∧
         let e := numberAt s.dram addr 8
         numberAt t.dram addr 8 + (if e / 2 ^ 56 % 4 = 0 then 0 else 2 ^ 56) + (if e / 2 ^ 58 % 4 = 0 then 0 else 2 ^ 58) = e) ∧
     (leafSpot s ctx va = none → exec (.sweeperVisit ctx va) s = .next s)) ∧
  (∀ (s : State) (r : TableReq),
     let w (i : Nat) : W64 := lget r.words i 0
     let e : Window := { w0 := w 0, w1 := w 1, w2 := w 2, w3 := w 3 }
     let zero : Window := { w0 := 0, w1 := 0, w2 := 0, w3 := 0 }
     let legal := ∀ tag, r.src = .host tag → r.idx < (if r.window then 1024 else 256) ∧ tableLegal s r.window r.idx r.words = true
     let ends := fun (u t : State) (ws : List W64) => (∀ c, r.src = .core c → t = { u with agenda := u.agenda ++ [.hubTableOpComplete c] }) ∧
       (∀ tag, r.src = .host tag → t = { u with old := [], fab := { u.fab with out := u.fab.out ++ [.mgmt 16 tag 0 ws] } })
     (r.window = true → legal → Map.rising s.mmu.rwin = true → ∃ t rwin, exec (.hubTableWrite r) s = .next t ∧
       (∀ i, Map.find rwin i = if i = r.idx then (if e = zero then none else some e) else Map.find s.mmu.rwin i) ∧
       ends { s with mmu := { s.mmu with rwin } } t []) ∧
     (r.window = false → legal → s.dram.wf = true → s.mmu.ctxBase % 64 = 0 → s.mmu.ctxBase + 64 * r.idx + 64 ≤ 2 ^ 40 →
       ∃ t u more, exec (.hubTableWrite r) s = .next t ∧ u = { s with dram := u.dram, agenda := s.agenda ++ more } ∧
         more ⊆ [.sweepPeriodBoundary r.idx] ∧ Outside s.dram u.dram (s.mmu.ctxBase + 64 * r.idx) 64 ∧
         (∀ i, i < 8 → numberAt u.dram (s.mmu.ctxBase + 64 * r.idx + 8 * i) 8 = (w i).toNat) ∧ ends u t []) ∧
     (¬legal → ∀ tag, r.src = .host tag → ∃ t, exec (.hubTableWrite r) s = .next t ∧
       t = { s with old := [], fab := { s.fab with out := s.fab.out ++ [.mgmt 16 tag 2 []] } }) ∧
     (let ws : List W64 := if r.window then (let x := Map.get zero s.mmu.rwin r.idx; [x.w0, x.w1, x.w2, x.w3, 0, 0, 0, 0])
        else (List.range 8).map fun i => BitVec.ofNat 64 (leVal (physRead s (s.mmu.ctxBase + 64 * r.idx + 8 * i) 8))
      (∀ c, r.src = .core c → ∃ t, exec (.hubTableRead r) s = .next t ∧
        OnlyCore { s with agenda := s.agenda ++ [.hubTableOpComplete c] } t c
          { getCore s c with mreg := { (getCore s c).mreg with htd := Vector.ofFn fun i => lget ws i.val 0 } }) ∧
      (∀ tag, r.src = .host tag → r.idx < (if r.window then 1024 else 256) → ∃ t, exec (.hubTableRead r) s = .next t ∧
        t = { s with old := [], fab := { s.fab with out := s.fab.out ++ [.mgmt 16 tag 0 ws] } })) ∧
     (∀ c, ∃ t, exec (.hubTableOpComplete c) s = .next t ∧
       OnlyCore { s with old := [] } t c { getCore s c with mreg := { (getCore s c).mreg with htBusy := false } }))

namespace Sys2Proof.Machine

/-! ### Memory controllers, reset, regions and the management channel -/

/-- The unit of a cell's frame (R40). -/
def unitBytes (s : State) (cell : Nat) : Nat := 2 ^ (5 + (attrAt s cell).gran.toNat)

/-- The unit of `a` is poisoned, and its record, with the number `n` of symbols in error where the decoder tells it, stands last in the
stack's log of the last 64 (R47, R52, R53, R60). -/
def PoisonsUnit (s t : State) (a n : Nat) : Prop :=
  let u := unitBytes s a
  t = { s with dram := t.dram, errlog := t.errlog, uncorr := countCell s.uncorr (a / u * u), free := t.free
               mgmt := { s.mgmt with log := s.mgmt.log ++ [.memoryError (a / 2 ^ 36)] } } ∧
  t.dram.wf = true ∧ (∀ x, t.dram.byte x = s.dram.byte x) ∧
  (∀ g, t.dram.pois.contains g = (decide (32 * g / u = a / u) || s.dram.pois.contains g)) ∧
  (∃ syms, (syms = none ∨ syms = some n) ∧ (Map.get [] t.errlog (a / 2 ^ 36)).getLast? =
    some { kind := 0, off := a / u * u % 2 ^ 36, gran := (attrAt s a).gran, tol := (attrAt s a).tol, tcls := (attrAt s a).tcls, syms }) ∧
  (Map.get [] t.errlog (a / 2 ^ 36)).length = min 64 ((Map.get [] s.errlog (a / 2 ^ 36)).length + 1)

/-- The unit `u` of a frame with TOL clear, its grains not poisoned (R45, R52). -/
def FullUnit (s : State) (u : Nat) : Prop :=
  u % unitBytes s u = 0 ∧ (attrAt s u).tol = false ∧ s.dram.pois.contains (u / 32) = false

/-- Errors of a unit that the full code detects and does not correct, with the symbols in error (R45, R46): two bits at G32; an address tag
that differs in no more bits than the code detects. -/
def Detected (s : State) (e : UnitErr) (n : Nat) : Prop :=
  (n = 2 ∧ (attrAt s e.unit).gran = 0 ∧ e.other = none ∧ ∃ b c, e.flips = [b, c] ∧ b ≠ c ∧ b < 272 ∧ c < 272) ∨
  (e.flips = [] ∧ ∃ o, e.other = some o ∧ n = ((List.range 40).filter fun i => decide (addressTag s e.unit / 2 ^ i % 2 ≠ addressTag s o / 2 ^ i % 2)).length ∧
    0 < n ∧ n ≤ (match (attrAt s e.unit).gran.toNat with | 0 => 2 | 1 => 3 | 2 => 3 | _ => 6))

/-- A read of bytes of the one unit `u` that a stack controller has accepted (R41). -/
def ReadsUnit (s : State) (q : ReadReq) (u c : Nat) : Prop :=
  q.units = [u] ∧ cellOf q.req.addr = some c ∧ u ≤ c ∧ c + q.req.len ≤ u + unitBytes s u ∧ q.data.length = q.req.len

/-- An answer of the management channel (R415). -/
def Answers (u t : State) (op tag status : Nat) (payload : List W64) : Prop :=
  t = { u with fab := { u.fab with out := u.fab.out ++ [.mgmt op tag status payload] } }

/-- All that a wipe leaves (R62): no task, no region, no queue, every byte zero without poison, every frame of the wiped attribute. -/
def Wiped (t : State) : Prop :=
  t.cores = [] ∧ t.dram = .empty ∧ t.attrs = [] ∧ t.old = [] ∧ t.mmu.regions = [] ∧ t.mmu.moves = [] ∧ t.queues = [] ∧ t.wcs = [] ∧
  t.mgmt.ready = false

/-- What neither a reset nor a loss of power takes away (R63, R423, R426). -/
def Fused (m n : Mgmt) : Prop :=
  n.life = m.life ∧ n.rollback = m.rollback ∧ n.flash = m.flash ∧ n.owner = m.owner

end Sys2Proof.Machine

/-- R37, R39, R41, R42, R43, R45, R46, R47, R51, R53, R59: explicit requests, decoding, formats and scrubbing. That a request beyond the address
map stops the model, and that the errors of the cells come with the request, is the model's choice. -/
def Obligations.MemoryController : Prop :=
  ∀ (s : State) (r : MemReq) (f : FormatReq) (a : Nat), s.dram.wf = true → Map.rising s.attrs = true →
    let fmt : Attr := { gran := r.gran, tol := r.tol, tcls := r.tcls }
    (∀ c bs, cellOf r.addr = some c → r.addr % 4096 + r.len ≤ 4096 → r.write = some bs → bs.length = r.len →
      (attrAt s c = fmt → ∃ t, exec (.memoryRequestAccept r) s = .next t ∧ t = withDram s t ∧ Outside s.dram t.dram (c / unitBytes s c * unitBytes s c) ((c + r.len + unitBytes s c - 1) / unitBytes s c * unitBytes s c - c / unitBytes s c * unitBytes s c) ∧
        ∀ x, t.dram.byte x = if c ≤ x ∧ x < c + r.len then (lget bs (x - c) (0, false)).1 else s.dram.byte x) ∧
      (attrAt s c ≠ fmt → 0 < r.len → ∃ t, exec (.memoryRequestAccept r) s = .next t ∧
        t = { s with errlog := t.errlog, mgmt := { s.mgmt with log := s.mgmt.log ++ [.memoryError (c / 2 ^ 36)] } } ∧
        (Map.get [] t.errlog (c / 2 ^ 36)).getLast? =
          some { kind := 1, off := c % 2 ^ 36, gran := (attrAt s c).gran, tol := (attrAt s c).tol, tcls := (attrAt s c).tcls })) ∧
    (∀ c, cellOf r.addr = some c → 0 < r.len → r.addr % 4096 + r.len ≤ 4096 → r.write = none → attrAt s c = fmt →
      ∃ t q, exec (.memoryRequestAccept r) s = .next t ∧ t = { s with reads := s.reads ++ [q] } ∧ q.req = r ∧
        q.data = (List.range r.len).map fun i => if s.dram.pois.contains ((c + i) / 32) then (255, true) else (s.dram.byte (c + i), false)) ∧
    (2 ^ 41 ≤ r.addr → 0 < r.len → exec (.memoryRequestAccept r) s = .fault (.noSuchAddress r.addr)) ∧
    (∀ q more, s.reads = q :: more → let out := fun (l : List PByte) => s.fab.out ++ [.memory q.req.id l]
      (q.data.length = q.req.len → ∃ t, exec (.memoryReadReturn q.req.id []) s = .next t ∧
        t = { s with reads := more, fab := { s.fab with out := out q.data } }) ∧
      (∀ u c, ReadsUnit s q u c →
        (∀ b, FullUnit s u → b < 8 * unitBytes s u + unitBytes s u / 2 →
          ∃ t, exec (.memoryReadReturn q.req.id [{ unit := u, flips := [b], other := none }]) s = .next t ∧
            t = { s with reads := more, corr := countCell s.corr u, fab := { s.fab with out := out q.data } }) ∧
        (∀ e n, FullUnit s u → e.unit = u → Detected s e n →
          ∃ t v, exec (.memoryReadReturn q.req.id [e]) s = .next t ∧ PoisonsUnit { s with reads := more } v u n ∧
            t = { v with fab := { v.fab with out := out (q.data.map fun _ => (255, true)) } }) ∧
        (∀ b, u % unitBytes s u = 0 → s.dram.pois.contains (u / 32) = false → (attrAt s u).tol = true → (attrAt s u).tcls = 0 →
          b < 8 * unitBytes s u → b % 16 < 7 → ∃ t, exec (.memoryReadReturn q.req.id [{ unit := u, flips := [b], other := none }]) s = .next t ∧
            (∀ x, t.dram.byte x = if x = u + b / 8 then s.dram.byte x ^^^ BitVec.ofNat 8 (2 ^ (b % 8)) else s.dram.byte x) ∧
            t = { s with reads := more, dram := t.dram, fab := { s.fab with out := out (q.data.mapIdx fun i x =>
              if x.2 = false ∧ c + i = u + b / 8 then (x.1 ^^^ BitVec.ofNat 8 (2 ^ (b % 8)), false) else x) } } ∧
            t.dram.pois = s.dram.pois))) ∧
    (a < 2 ^ 40 → let u := a / unitBytes s a * unitBytes s a
      (∀ x, exec (.scrubUnit a { unit := x, flips := [], other := none }) s = .next s) ∧
      (∀ b x, FullUnit s u → b < 8 * unitBytes s u + unitBytes s u / 2 →
        ∃ t, exec (.scrubUnit a { unit := x, flips := [b], other := none }) s = .next t ∧ t = { s with corr := countCell s.corr u }) ∧
      (∀ e n, FullUnit s u → Detected s { e with unit := u } n → ∃ t, exec (.scrubUnit a e) s = .next t ∧ PoisonsUnit s t u n)) ∧
    (2 ^ 40 ≤ a → ∀ e, exec (.scrubUnit a e) s = .fault (.noSuchAddress a)) ∧
    (s.mmu.frtBase.toNat % 2 = 0 →
      let frames := (formatPieces f.pa f.units).flatMap pieceFrames
      let at' : Attr := { gran := f.gran, tol := f.tol, tcls := f.tcls }
      ∃ t, exec (.formatStart f) s = .next t ∧ t.mmu = { s.mmu with nextId := s.mmu.nextId + 1, formats := s.mmu.formats ++ [(s.mmu.nextId, f, [])] } ∧
        t.agenda = s.agenda ++ [.formatComplete s.mmu.nextId] ∧ t.dram.wf = true ∧
        (∀ x, t.dram.byte x = if x / 65536 * 65536 ∈ frames then 0 else s.dram.byte x) ∧
        (∀ g, t.dram.pois.contains g = (decide (g / 2048 * 65536 ∉ frames) && s.dram.pois.contains g)) ∧
        (∀ x, attrAt t x = if x / 65536 * 65536 ∈ frames then at' else attrAt s x) ∧
        t = { s with mmu := t.mmu, agenda := t.agenda, dram := t.dram, attrs := t.attrs, old := t.old, reads := t.reads, hist := t.hist }) ∧
    (∀ id more, s.mmu.formats = (id, f, []) :: more → (∀ x ∈ more, x.1 ≠ id) → ∃ t, exec (.formatComplete id) s = .next t ∧
      OnlyCore { s with old := [], mmu := { s.mmu with formats := more } } t f.core
        { getCore s f.core with mreg := { (getCore s f.core).mreg with fmtBusy := false } })

/-- R62, R63, R423, R426, R428, R429. What the management log and the pending outside requests keep over a reset is the model's choice. -/
def Obligations.ResetAndPower : Prop :=
  ∀ (s : State) (r : BootReq) (down : Bool),
    (∃ t, exec .reset s = .next t ∧
      (s.mgmt.powered = true → Wiped t ∧ t.mgmt.wiping = true ∧ t.agenda.head? = some .wipeComplete ∧ Fused s.mgmt t.mgmt) ∧
      (s.mgmt.powered = false → t = s)) ∧
    (s.mgmt.wiping = true → ∃ t, exec .wipeComplete s = .next t ∧ t = { s with
      old := [], mgmt := { s.mgmt with ready := true, wiping := false, debug := s.mgmt.debug || s.mgmt.unlocking, unlocking := false }
      fab := { s.fab with out := s.fab.out ++ [.ready] } }) ∧
    (s.mgmt.wiping = false → exec .wipeComplete s = .next s) ∧
    (∃ t, exec (.powerOn r) s = .next t ∧ (s.mgmt.ready = true ∨ s.mgmt.wiping = true → t = s) ∧
      (s.mgmt.ready = false → s.mgmt.wiping = false →
        t.mgmt.powered = true ∧ Fused s.mgmt t.mgmt ∧
        (fwOk s.mgmt.flash s.mgmt.rollback = true → Wiped t ∧ t.mgmt.wiping = true ∧ t.mgmt.running = s.mgmt.flash.drop 512 ∧
          t.agenda.head? = some .wipeComplete ∧ t.mmu.ctxBase = r.ctxBase) ∧
        (fwOk s.mgmt.flash s.mgmt.rollback = false → ∀ img, r.recovered = some img → fwOk img s.mgmt.rollback = true →
          Wiped t ∧ t.mgmt.wiping = true ∧ t.mgmt.running = img.drop 512 ∧ t.agenda.head? = some .wipeComplete ∧ t.mmu.ctxBase = r.ctxBase) ∧
        (fwOk s.mgmt.flash s.mgmt.rollback = false → (∀ img, r.recovered = some img → fwOk img s.mgmt.rollback = false) →
          t = { s with mgmt := { s.mgmt with powered := true } }))) ∧
    (∃ t, exec .powerLoss s = .next t ∧ Wiped t ∧ t.mgmt.powered = false ∧ t.mgmt.wiping = false ∧ Fused s.mgmt t.mgmt) ∧
    (∃ t, exec .thermalCritical s = .next t ∧ Wiped t ∧ t.mgmt.powered = false ∧ Fused s.mgmt t.mgmt ∧ t.mgmt.log.getLast? = some .thermal) ∧
    (∃ t, exec (.clockThrottle down) s = .next t ∧
      t = { s with mgmt := { s.mgmt with clock := if down then max 1000 (s.mgmt.clock - 100) else min 2500 (s.mgmt.clock + 100) } })

/-- R101, R104. -/
def Obligations.Regions : Prop :=
  ∀ (s : State) (core idx : Nat) (w0 w1 : W64),
    let new : Region := { w0, w1 }
    let k := getCore s core
    (bindersOf s idx = [] → Map.rising s.mmu.regions = true → Map.rising s.cores = true →
      ∃ t, exec (.regionDescriptorWrite core idx w0 w1) s = .next t ∧
        (∀ i, Map.find t.mmu.regions i = if i = idx then (if w0 = 0 ∧ w1 = 0 then none else some new) else Map.find s.mmu.regions i) ∧
        t.agenda.getLast? = some (.regionUpdateComplete core) ∧
        (∀ c, getCore t c = { getCore s c with plain := (getCore t c).plain, lastRead := (getCore t c).lastRead }) ∧
        (∀ r, (r = new ∨ Map.find s.mmu.regions idx = some r) → rV r = true → ∀ c x, (getCore s c).task = some x → x.ctx = rCtx r →
          ∀ l ∈ (getCore t c).plain, ¬Meet (l.1 * 64) 64 (rBase r) (2 ^ rLog r)) ∧
        t = { withDram s t with cores := t.cores, mmu := { s.mmu with regions := t.mmu.regions }, fab := t.fab, errlog := t.errlog, mgmt := t.mgmt }) ∧
    (bindersOf s idx ≠ [] → ∃ t, exec (.regionDescriptorWrite core idx w0 w1) s = .next t ∧ t = { s with agenda := s.agenda ++ [.regionDescriptorWrite core idx w0 w1] }) ∧
    (let r := (Map.find s.mmu.regions idx).getD { w0 := 0, w1 := 0 }
     ∃ t, exec (.regionDescriptorRead core idx) s = .next t ∧
      OnlyCore { s with agenda := s.agenda ++ [.regionUpdateComplete core] } t core { k with mreg := { k.mreg with rglo := r.w0, rghi := r.w1 } }) ∧
    ((∀ l ∈ s.fab.lines, l.data = none) → ∃ t, exec (.regionUpdateComplete core) s = .next t ∧
      OnlyCore { s with old := [] } t core { k with mreg := { k.mreg with rgBusy := false } }) ∧
    ((∃ l ∈ s.fab.lines, l.data ≠ none) → ∃ t, exec (.regionUpdateComplete core) s = .next t ∧ t = { s with agenda := s.agenda ++ [.regionUpdateComplete core] }) ∧
    (∀ r, Map.find s.mmu.regions idx = some r → (getCore s (rOwner r)).plain = [] →
      let done := fun (t : State) => (∃ r', Map.find t.mmu.regions idx = some r' ∧ r'.w0 = r.w0 ∧ rOwner r' = rOwner r ∧ rTransit r' = false) ∧
        (∀ i, i ≠ idx → Map.find t.mmu.regions i = Map.find s.mmu.regions i) ∧
        t = { s with cores := t.cores, mmu := { s.mmu with regions := t.mmu.regions } } ∧
        (∀ c, c ≠ core → getCore t c = if c = rOwner r ∧ c < 1280 then
          { getCore s c with ownxs := (getCore t c).ownxs, floor := s.stamp, floorX := s.stamp } else getCore s c) ∧
        (rOwner r < 1280 → (rBase r, 2 ^ rLog r, s.stamp) ∈ (getCore t (rOwner r)).ownxs)
      (∀ n, core < 1280 → k.transit = some (idx, n) → k.plain = [] → (∀ l ∈ s.fab.lines, ∀ q p o, l.use ≠ .store q core p o) →
        ∃ t, exec (.ownershipTransferComplete core idx) s = .next t ∧ done t ∧ (rBase r, 2 ^ rLog r, s.stamp) ∈ (getCore t core).ownxs ∧
          getCore t core = { k with
            transit := none, iss := { k.iss with openTok := k.iss.openTok.filter fun x => x ≠ (.q, n) }
            ownxs := (getCore t core).ownxs, floor := (getCore t core).floor, floorX := (getCore t core).floorX }) ∧
      (1280 ≤ core → regionOut s r = false → ∃ t, exec (.ownershipTransferComplete core idx) s = .next t ∧ done t) ∧
      (1280 ≤ core → regionOut s r = true → ∃ t, exec (.ownershipTransferComplete core idx) s = .next t ∧
        t = { s with agenda := s.agenda ++ [.ownershipTransferComplete core idx] }))

/-- R60, R376, R388, R410, R412, R414, R415, R420, R423, R425 to R427, R429: the requests of the management channel. The encodings of
the logs and of the report are the model's. -/
def Obligations.Management : Prop :=
  ∀ (s : State) (tag idx op : Nat) (rs : List MapRange) (w : List W64) (q : QpReq) (img : List W32) (nonce : List Byte) (fw : FwReq) (lf : LifeReq)
    (un : UnlockReq) (cap : Option Nat) (ro : RouteReq), s.mgmt.powered = true →
    let g (i : Nat) : W64 := lget w i 0
    let e : Window := { w0 := g 0, w1 := g 1, w2 := g 2, w3 := g 3 }
    let has := (Map.find s.fab.qps q.qp).isSome
    let fits := signedBy Config.firmwareKeyHash 12 tag fw.image fw.sig = true ∧ fwOk fw.image s.mgmt.rollback = true
    let keys := lifeKeys s lf.dest
    let may := ∃ k ∈ keys, signedBy k 13 tag (lifePayload lf) lf.sig = true
    let opens := signedBy Config.iziviardKeyHash 14 tag (unlockPayload un) un.sig = true ∧ un.serial = Config.serialNumber ∧
      un.state = s.mgmt.life ∧ un.nonce = Config.unlockNonce s.mgmt.nonce
    (∃ t ws, exec (.mgmtReadlog tag) s = .next t ∧ Answers s t 4 tag 0 ws) ∧
    (∃ t u, exec (.mgmtClearlog tag) s = .next t ∧ u = { s with errlog := [], corr := [], uncorr := [], mgmt := { s.mgmt with log := [] }, cores := u.cores } ∧
      (∀ c, getCore u c = { getCore s c with corrected := 0 }) ∧ Answers u t 5 tag 0 []) ∧
    (rs.length ≤ 64 → (∀ r ∈ rs, r.ctx < 256) → ∃ t, exec (.mgmtMaprange tag rs) s = .next t ∧ Answers { s with ranges := rs } t 6 tag 0 []) ∧
    (64 < rs.length ∨ (∃ r ∈ rs, 256 ≤ r.ctx) → ∃ t, exec (.mgmtMaprange tag rs) s = .next t ∧ Answers s t 6 tag 2 []) ∧
    (idx < 1024 → inwinOk (g 0) (g 1) (g 2) (g 3) = true → ∃ t inwin, exec (.mgmtInwin tag idx w) s = .next t ∧
      (∀ i, Map.find inwin i = if i = idx then some e else Map.find s.mmu.inwin i) ∧ Answers { s with mmu := { s.mmu with inwin } } t 7 tag 0 []) ∧
    (1024 ≤ idx ∨ inwinOk (g 0) (g 1) (g 2) (g 3) = false → ∃ t, exec (.mgmtInwin tag idx w) s = .next t ∧ Answers s t 7 tag 2 []) ∧
    (q.qp < 4096 → q.create = !has → Map.rising s.fab.qps = true → ∃ t qps, exec (.mgmtRdmaqp tag q) s = .next t ∧
      (∀ i, Map.find qps i = if i = q.qp then (if q.create then some q else none) else Map.find s.fab.qps i) ∧
      Answers { s with fab := { s.fab with qps } } t 8 tag 0 []) ∧
    (4096 ≤ q.qp → ∃ t, exec (.mgmtRdmaqp tag q) s = .next t ∧ Answers s t 8 tag 2 []) ∧
    (q.qp < 4096 → q.create = has → ∃ t, exec (.mgmtRdmaqp tag q) s = .next t ∧ Answers s t 8 tag 4 []) ∧
    (let good := (∀ d, ro.devid = some d → d ≠ 0 ∧ d < 65535) ∧ ∀ x ∈ ro.entries, x.1 < 65536
     (good → Map.rising s.fab.routes = true → ∃ t routes, exec (.mgmtRoute tag ro) s = .next t ∧
       (∀ d, Map.get 0 routes d = match ro.entries.reverse.find? fun x => x.1 = d with | some x => x.2 | none => Map.get 0 s.fab.routes d) ∧
       Answers { s with fab := { s.fab with routes, devid := ro.devid.getD s.fab.devid } } t 9 tag 0 []) ∧
     (¬good → ∃ t, exec (.mgmtRoute tag ro) s = .next t ∧ Answers s t 9 tag 2 [])) ∧
    (img.length ≤ 2048 → ((∀ c ∈ s.cores, c.2.task = none ∨ c.2.wick.run = false) → ∃ t wcs, exec (.mgmtWcsload tag img) s = .next t ∧
        (∀ i, Map.get 0 wcs i = lget img i 0) ∧ Answers { s with wcs, wcsLoad := none } t 10 tag 0 []) ∧
      ((∃ c ∈ s.cores, c.2.task ≠ none ∧ c.2.wick.run = true) → ∃ t, exec (.mgmtWcsload tag img) s = .next t ∧
        t = { s with wcsLoad := some (tag, img), agenda := .mgmtWcsload tag img :: s.agenda })) ∧
    (2048 < img.length → ∃ t, exec (.mgmtWcsload tag img) s = .next t ∧ Answers s t 10 tag 2 []) ∧
    (nonce.length = 64 → ∃ t r, exec (.mgmtAttest tag nonce) s = .next t ∧ r.take 64 = nonce ∧
      Answers { s with fab := { s.fab with out := s.fab.out ++ [.report r (Config.identitySign (Config.sha512 r))] } } t 11 tag 0 []) ∧
    (nonce.length ≠ 64 → ∃ t, exec (.mgmtAttest tag nonce) s = .next t ∧ Answers s t 11 tag 2 []) ∧
    (∃ t, exec (.mgmtFwupdate tag fw) s = .next t ∧
      (fits → Answers { s with mgmt := { s.mgmt with flash := fw.image, rollback := leNat ((fw.image.drop 8).take 4) } } t 12 tag 0 []) ∧
      (¬fits → Answers s t 12 tag 3 [])) ∧
    (∃ t, exec (.mgmtLifecycle tag lf) s = .next t ∧
      (may → ∃ u, Wiped u ∧ u.mgmt.wiping = true ∧ u.mgmt.life = lf.dest ∧ u.errlog = s.errlog ∧ u.agenda.head? = some .wipeComplete ∧
        Answers u t 13 tag 0 []) ∧
      (keys ≠ [] → ¬may → Answers s t 13 tag 3 []) ∧ (keys = [] → Answers s t 13 tag 4 [])) ∧
    (∃ t, exec (.mgmtDebugunlock tag un) s = .next t ∧ (s.mgmt.life = .deployed → Answers s t 14 tag 4 []) ∧
      (s.mgmt.life ≠ .deployed → ¬opens → Answers s t 14 tag 3 []) ∧
      (s.mgmt.life = .provisioned → opens → ∃ u, Wiped u ∧ u.mgmt.unlocking = true ∧ u.mgmt.wiping = true ∧ Answers u t 14 tag 0 []) ∧
      (s.mgmt.life = .manufacture ∨ s.mgmt.life = .returned → opens →
        Answers { s with mgmt := { s.mgmt with nonce := s.mgmt.nonce + 1 } } t 14 tag 0 [])) ∧
    (cap = none → ∃ t, exec (.mgmtPower tag cap) s = .next t ∧ Answers s t 15 tag 0 [BitVec.ofNat 64 s.mgmt.clock]) ∧
    (∀ c, cap = some c → ∃ t, exec (.mgmtPower tag cap) s = .next t ∧ Answers { s with mgmt := { s.mgmt with cap := some c } } t 15 tag 0 []) ∧
    (∃ t, exec (.mgmtUnsupported tag op) s = .next t ∧ Answers s t op tag 1 [])

namespace Sys2Proof.Machine

/-! ### Page operations -/

/-- The end of a page operation (R133, R151): its record of 32 bytes is written and, where `entry` gives one, the frame-table entry at
`fa`; BUSY of the core that asked is clear, or the host is answered; all landed writes have reached the cells. -/
def PageOpEnds (s t : State) (r : PageReq) (fa : Nat) (entry : Option Nat) (status cause : Nat) (dst : W64) : Prop :=
  let rec' := status + cause * 2 ^ 8 + 13 * 2 ^ 20
  t.dram.wf = true ∧
  (∀ x, t.dram.byte x =
    if r.ca ≤ x ∧ x < r.ca + 32 then BitVec.ofNat 8 (rec' / 256 ^ (x - r.ca))
    else match entry with
      | some e => if fa ≤ x ∧ x < fa + 8 then BitVec.ofNat 8 (e / 256 ^ (x - fa)) else s.dram.byte x
      | none => s.dram.byte x) ∧
  t = { s with dram := t.dram, old := [], cores := t.cores
               fab := { s.fab with out := s.fab.out ++ (match r.src with | .host tag => [.mgmt 2 tag 0 [dst]] | .core _ => []) } } ∧
  ∀ c, getCore t c = if r.src = .core c then { getCore s c with mreg := { (getCore s c).mreg with pgBusy := false } } else getCore s c

/-- The host's fields are legal (R133). -/
def PageLegal (r : PageReq) : Prop := ∀ tag, r.src = .host tag → pageFields r = true

/-- The address of the frame-table entry of a page (R134). -/
def frameWordAt (s : State) (pa : Nat) : Nat := s.mmu.frtBase.toNat / 2 ^ 28 % 2 ^ 20 * 2 ^ 28 + 8 * (pa / 65536 % 2 ^ 25)

/-- A frame-table entry (R134): STATE, SIZE, REF. -/
def entryOf (state : Nat) (size : BitVec 2) (ref : Nat) : Nat := state * 2 ^ 62 + size.toNat * 2 ^ 32 + ref

/-- The leaf bits that a move replaces (R130): RES, STACK, PMODE and FRAME. -/
def placeBit (b : Nat) : Bool := decide ((7 ≤ b ∧ b ≤ 13) ∨ (16 ≤ b ∧ b ≤ 47))

/-- A core's clean state for a move: nothing in a plain-access buffer. -/
def NoPlain (s : State) : Prop := ∀ c ∈ s.cores, c.2.plain = []

/-- No unit of any queue is saved, so that no context slot holds handles. -/
def NoSaved (s : State) : Prop := ∀ q ∈ s.queues, ∀ p ∈ q.2.packets, ∀ l, p.launch = some l → l.saved = []

end Sys2Proof.Machine

/-- R132 to R136, R151: the operations on the frame table and on the pool. -/
def Obligations.FrameOperations : Prop :=
  ∀ (s : State) (r : PageReq), PageLegal r → s.dram.wf = true → r.ca % 64 = 0 → r.ca + 64 ≤ 2 ^ 40 →
    let pa := r.dst.toNat / 2 ^ 16 % 2 ^ 32 * 65536
    let fa := frameWordAt s pa
    let e := numberAt s.dram fa 8
    let state := e / 2 ^ 62
    let ref := e % 2 ^ 32
    let size := BitVec.ofNat 2 (e / 2 ^ 32 % 4)
    let on := s.mmu.frtBase.toNat % 2 = 1
    let sized := state = 1 ∨ state = 2 → size = r.size
    let ends := fun (i : Instr) (entry : Option Nat) (status cause : Nat) => ∃ t, exec i s = .next t ∧ PageOpEnds s t r fa entry status cause r.dst
    let pa2 := pa % 2 ^ 21 = 0 ∧ pa < 2 ^ 41
    let full := 256 ≤ s.mmu.pool.length + (s.mmu.moves.filter fun m => m.2.kind = 5 ∨ m.2.pool ≠ none).length
    (¬on → ends (.pageopAlloc r) none 9 15 ∧ ends (.pageopIncref r) none 9 15 ∧ ends (.pageopDecref r) none 9 15) ∧
    (on → fa + 8 ≤ 2 ^ 40 → ¬Meet fa 8 r.ca 32 → s.dram.pois.contains (fa / 32) = false →
      (¬sized → ends (.pageopAlloc r) none 9 9 ∧ ends (.pageopIncref r) none 9 9 ∧ ends (.pageopDecref r) none 9 9) ∧
      (sized →
        (state = 0 ∨ state = 3 → ends (.pageopAlloc r) (some (entryOf 1 r.size 1)) 1 0) ∧
        (state = 1 ∨ state = 2 → ends (.pageopAlloc r) none 9 7) ∧
        (state ≠ 1 → ends (.pageopIncref r) none 9 7 ∧ ends (.pageopDecref r) none 9 7) ∧
        (state = 1 → ref = 2 ^ 32 - 1 → ends (.pageopIncref r) none 9 14) ∧
        (state = 1 → ref < 2 ^ 32 - 1 → ends (.pageopIncref r) (some (entryOf 1 size (ref + 1))) 1 0) ∧
        (state = 1 → ref = 0 → ends (.pageopDecref r) none 9 7) ∧
        (state = 1 → 1 < ref → ends (.pageopDecref r) (some (entryOf 1 size (ref - 1))) 1 0) ∧
        (state = 1 → ref = 1 → NoPlain s → NoSaved s →
          let busy := (∃ p ∈ s.mmu.pins, p.cause = none ∧ p.owner ≠ nobody ∧ hRes p.handle = 0 ∧ Meet (frameBase (hFrame p.handle)) (pageSize (hSize p.handle)) pa (pageSize size)) ∨
            (∃ m ∈ s.mmu.moves, m.1 ≠ noMove ∧ ∃ l, (l = m.2.leaf ∨ l = m.2.dst) ∧ l.toNat / 2 ^ 7 % 4 = 0 ∧
              Meet (l.toNat / 2 ^ 16 % 2 ^ 32 * 65536) (pageSize m.2.req.size) pa (pageSize size))
          ∃ t d, exec (.pageopDecref r) s = .next t ∧ t.mmu.defer = s.mmu.defer ++ [d] ∧ d.id = s.mmu.nextId ∧ d.frame = pa ∧ d.area = some r.ca ∧
            (busy → d.stat = 11 ∧ d.second = true ∧ numberAt t.dram fa 8 = entryOf 2 size 0) ∧
            (¬busy → d.stat = 12 ∧ d.second = false ∧ numberAt t.dram fa 8 = entryOf 3 size 0) ∧
            .frameShootdownComplete s.mmu.nextId ∈ t.agenda ∧ Outside s.dram t.dram fa 8 ∧
            ∀ c i, i < 16 → let h := vget (getCore t c).h i 0
              hV h = true → hRes h = 0 → ¬Meet (frameBase (hFrame h)) (pageSize (hSize h)) pa (pageSize size)))) ∧
    (∀ d, s.mmu.defer = [d] →
      (∀ a, d.area = some a → a % 64 = 0 → a + 64 ≤ 2 ^ 40 → d.second = false → ∃ t, exec (.frameShootdownComplete d.id) s = .next t ∧
        Outside s.dram t.dram a 32 ∧ numberAt t.dram a 32 = (d.stat + 13 * 2 ^ 20) % 2 ^ 64 ∧
        t = { s with dram := t.dram, old := [], mmu := { s.mmu with defer := [] } }) ∧
      (d.area = none → d.second = false → ∃ t, exec (.frameShootdownComplete d.id) s = .next t ∧ t = { s with mmu := { s.mmu with defer := [] } }) ∧
      (d.area = none → d.second = true → pinsOnFrame s d.frame d.len nobody ≠ 0 → ∃ t, exec (.frameShootdownComplete d.id) s = .next t ∧
        t = { s with mmu := { s.mmu with defer := [{ d with shot := true }] } })) ∧
    (¬pa2 → ends (.pageopPoolput r) none 9 10) ∧
    (pa2 → full → pa / 65536 ∉ s.mmu.pool → ends (.pageopPoolput r) none 9 11) ∧
    (pa2 → pa / 65536 ∈ s.mmu.pool → ends (.pageopPoolput r) none 1 0) ∧
    (pa2 → ¬full → pa / 65536 ∉ s.mmu.pool → ∃ t, exec (.pageopPoolput r) s = .next t ∧
      PageOpEnds { s with mmu := { s.mmu with pool := s.mmu.pool ++ [pa / 65536] } } t r fa none 1 0 r.dst) ∧
    (s.mmu.pool = [] → ends (.pageopPooltake r) none 9 11) ∧
    (∀ f fs, s.mmu.pool = f :: fs → ∃ t u, exec (.pageopPooltake r) s = .next t ∧ PageOpEnds u t r fa none 1 0 (poolLeaf f) ∧
      u = { s with mmu := { s.mmu with pool := fs }, cores := u.cores } ∧
      ∀ c, getCore u c = if r.src = .core c then { getCore s c with mreg := { (getCore s c).mreg with pgopdst := poolLeaf f } } else getCore s c)

/-- R130, R131, R133: a move that is asked for starts or is refused; a page copied within local memory; the end of a move. -/
def Obligations.PageMoves : Prop :=
  ∀ (s : State) (r : PageReq), PageLegal r → s.dram.wf = true → r.ca % 64 = 0 → r.ca + 64 ≤ 2 ^ 40 →
    let each := fun (i : Instr) (kind : Nat) =>
      (∀ cause, walk s r.ctx r.va = .no cause → ∃ t, exec i s = .next t ∧ PageOpEnds s t r 0 none 9 7 r.dst) ∧
      (∀ leaf size addr, walk s r.ctx r.va = .ok leaf size addr →
        let res := leaf.toNat / 2 ^ 7 % 4
        let held := frameEntry s (leaf.toNat / 2 ^ 16 % 2 ^ 32 * 65536)
        let kindOk := if kind = 0 then res = 0 ∨ res = 2 else if kind = 1 then res = 1 else res = 0 ∧ leaf.toNat / 2 ^ 52 % 4 ≠ 0
        let shared := res = 0 ∧ held / 2 ^ 62 = 1 ∧ 1 < held % 2 ^ 32
        (r.size ≠ size → ∃ t, exec i s = .next t ∧ PageOpEnds s t r 0 none 9 9 r.dst) ∧
        (r.size = size → ¬kindOk ∨ movingAt s r.ctx r.va = true → ∃ t, exec i s = .next t ∧ PageOpEnds s t r 0 none 9 7 r.dst) ∧
        (r.size = size → kindOk → movingAt s r.ctx r.va = false → shared → ∃ t, exec i s = .next t ∧ PageOpEnds s t r 0 none 9 8 r.dst) ∧
        (∀ dst, r.size = size → kindOk → movingAt s r.ctx r.va = false → ¬shared → (kind ≠ 0 → size = 1) →
          (if kind = 2 then dst = 384 ∧ zoneRoom s 1 = true else destOf s r size (kind = 1) = .ok dst) → s.mmu.moves.length < 64 →
          ∃ t m, exec i s = .next t ∧ Map.find t.mmu.moves s.mmu.nextId = some m ∧ t.agenda.getLast? = some (.moveCopyComplete s.mmu.nextId) ∧
            m.req.src = r.src ∧ m.req.ctx = r.ctx ∧ m.req.ca = r.ca ∧ m.req.va = r.va / pageSize size * pageSize size ∧ m.kind = kind ∧
            m.leaf = leaf ∧ m.addr = addr ∧ m.dst = dst ∧ m.phase = 0 ∧ (∀ x, x ≠ s.mmu.nextId → Map.find t.mmu.moves x = Map.find s.mmu.moves x) ∧
            (∀ c e, e ∈ (getCore t c).tlb → ¬(e.ctx = r.ctx ∧ Meet e.base (pageSize e.size) m.req.va (pageSize size))) ∧
            ∀ c, (getCore t c).mreg = if r.src = .core c then { (getCore s c).mreg with pgBusy := false } else (getCore s c).mreg))
    each (.pageopMigrate r) 0 ∧ each (.pageopExpand r) 1 ∧ each (.pageopCompress r) 2 ∧
    (∀ mv m pa da, Map.find s.mmu.moves mv = some m → m.phase = 0 → m.kind ≤ 1 → m.req.size = 0 → m.req.va % 65536 = 0 → m.req.va < 2 ^ 52 →
      m.leaf.toNat / 2 ^ 7 % 4 = 0 → m.dst.toNat / 2 ^ 7 % 4 = 0 → (∀ b, m.dst.toNat.testBit b = true → placeBit b = true) →
      pa = m.leaf.toNat / 2 ^ 16 % 2 ^ 32 * 65536 → da = m.dst.toNat / 2 ^ 16 % 2 ^ 32 * 65536 → pa + 65536 ≤ 2 ^ 40 → da + 65536 ≤ 2 ^ 40 → pa ≠ da →
      attrAt s pa = leafAttr m.leaf.toNat → (∀ g, pa / 32 ≤ g → g < pa / 32 + 2048 → s.dram.pois.contains g = false) →
      s.mmu.frtBase.toNat % 2 = 0 → m.addr % 8 = 0 → m.addr + 8 ≤ 2 ^ 40 → ¬Meet m.addr 8 da 65536 → s.dram.pois.contains (m.addr / 32) = false →
      numberAt s.dram m.addr 8 = m.leaf.toNat → NoPlain s → NoSaved s → s.fab.lines = [] → (∀ p ∈ s.mmu.pins, p.ctx ≠ m.req.ctx) →
      ∃ t, exec (.moveCopyComplete mv) s = .next t ∧ Map.find t.mmu.moves mv = some { m with phase := 1 } ∧
        t.agenda.getLast? = some (.moveCopyComplete mv) ∧
        (∀ x, da ≤ x → x < da + 65536 → t.dram.byte x = s.dram.byte (pa + (x - da))) ∧
        (∀ x, ¬(da ≤ x ∧ x < da + 65536) → ¬(m.addr ≤ x ∧ x < m.addr + 8) → t.dram.byte x = s.dram.byte x) ∧
        (∀ b, b < 64 → (numberAt t.dram m.addr 8).testBit b =
          if placeBit b then m.dst.toNat.testBit b else !decide (56 ≤ b ∧ b < 60) && m.leaf.toNat.testBit b)) ∧
    (∀ mv m, Map.find s.mmu.moves mv = some m → m.phase = 1 → m.kind ≤ 1 → m.leaf.toNat / 2 ^ 7 % 4 ≠ 1 → m.req.ca % 64 = 0 → m.req.ca + 64 ≤ 2 ^ 40 →
      Map.rising s.mmu.moves = true → s.mmu.defer = [] → s.fab.lines = [] → s.mmu.pins = [] →
      ∃ t moves dram, exec (.moveCopyComplete mv) s = .next t ∧ (∀ x, Map.find moves x = if x = mv then none else Map.find s.mmu.moves x) ∧
        Outside s.dram dram m.req.ca 32 ∧ numberAt dram m.req.ca 32 = 1 + 13 * 2 ^ 20 ∧
        t = { s with dram, old := [], mmu := { s.mmu with moves }
                     fab := { s.fab with out := s.fab.out ++ (match m.req.src with | .host tag => [.mgmt 2 tag 0 [m.req.dst]] | .core _ => []) } })

namespace Sys2Proof.Machine

/-! ### Queues and packets -/

/-- The end of a queue operation (R139): BUSY of the core that asked is clear and QSTAT filled, or the host is answered. -/
def QueueEnds (u t : State) (src : Requester) (qstat : Nat) : Prop :=
  match src with
  | .core c => OnlyCore u t c { getCore u c with mreg := { (getCore u c).mreg with qstat := BitVec.ofNat 64 qstat, qBusy := false } }
  | .host tag => Answers u t 1 tag 0 [BitVec.ofNat 64 qstat]

/-- One queue has changed, and no other. -/
def QueueIs (s t : State) (qid : Nat) (q : Option Queue) : Prop := getQueue t qid = q ∧ ∀ i, i ≠ qid → getQueue t i = getQueue s i

/-- One packet of a queue has changed, and nothing else of any queue. -/
def PacketBecomes (s t : State) (qid : Nat) (p : Packet) : Prop :=
  (∀ i, i ≠ qid → getQueue t i = getQueue s i) ∧
  (∃ q packets, getQueue s qid = some q ∧ getQueue t qid = some { q with packets }) ∧
  getPacket t qid p.k = some p ∧ ∀ j, j ≠ p.k → getPacket t qid j = getPacket s qid j

/-- The work of a packet has ended with a result (R150): PACKET_COMPLETE is due. -/
def Finished (s t : State) (qid : Nat) (p : Packet) (r : PRes) : Prop :=
  PacketBecomes s t qid { p with job := { p.job with res := some r } } ∧
  t = { s with queues := t.queues, agenda := s.agenda ++ [.packetComplete qid p.k] }

/-- A packet happens again later (R147, R158). -/
def Retries (s t : State) (e : Event) : Prop := t = { s with agenda := s.agenda ++ [e] }

/-- A result without bytes, elements, poison and checksum. -/
def plainRes (status cause : Nat) : PRes := { status, cause, bytes := 0, elems := 0, pois := false, crc := none }

/-- The reserved bits and the values of a queue descriptor are legal (R140). -/
def DescLegal (x : Nat) : Prop :=
  fieldOf x 52 4 = 0 ∧ fieldOf x 61 3 = 0 ∧ fieldOf x 116 12 = 0 ∧ fieldOf x 180 8 = 0 ∧ fieldOf x 244 12 = 0 ∧ fieldOf x 308 12 = 0 ∧
  fieldOf x 372 12 = 0 ∧ fieldOf x 384 6 = 0 ∧ fieldOf x 432 16 = 0 ∧ fieldOf x 456 8 = 0 ∧ fieldOf x 467 5 = 0 ∧ fieldOf x 474 6 = 0 ∧
  fieldOf x 488 8 = 0 ∧ fieldOf x 472 2 < 3 ∧ 1 ≤ fieldOf x 480 8 ∧ (fieldOf x 188 4 = 0 ∨ 6 ≤ fieldOf x 188 4)

/-- The hub may read, or write, `n` bytes at a virtual address at once (R22, R123, R445): they lie in local memory from cell `c` on, as the page
table and the hub's walk caches both have it, under a frame attribute that is the leaf's, and no line is on its way to the channel `key`. -/
structure HubLocal (s : State) (key ctx va n c : Nat) (write : Bool) : Prop where
  leaf  : ∃ leaf size addr e, walk s ctx va = .ok leaf size addr ∧ tlbFind (Map.get [] s.mmu.tlbs hubCache) ctx va = some e ∧
    e.leaf = leaf ∧ e.size = size ∧ e.addr = addr ∧ leaf.toNat / 2 ^ 7 % 4 = 0 ∧ (write = true → leaf.toNat.testBit 54 = true) ∧
    cellOf (hPhys (mkHandle (.ok leaf size addr) ctx va) va) = some c ∧ attrAt s c = hFormat (mkHandle (.ok leaf size addr) ctx va)
  allow : (permit s .hub ctx va n write true).1 = .yes
  still : write = true → movingAt s ctx va = false
  place : 0 < n ∧ va % 4096 + n ≤ 4096 ∧ va + n ≤ 2 ^ 52 ∧ ctx < 256
  idle  : Map.find s.fab.inbound key = none

/-- No byte of a range of cells is poisoned. -/
def Clean (s : State) (c n : Nat) : Prop := ∀ i, i < n → s.dram.pois.contains ((c + i) / 32) = false

/-- The queue that a descriptor gives (R140): its fields, RIDX at WIDX, nothing started. -/
def QueueOf (q : Queue) (x slots widx : Nat) : Prop :=
  q.st = .active ∧ q.ringva = fieldOf x 0 52 ∧ q.logn = fieldOf x 56 5 ∧ q.hdrva = fieldOf x 64 52 ∧ q.stgva = fieldOf x 128 52 ∧
  q.logstg = fieldOf x 188 4 ∧ q.msetva = fieldOf x 192 52 ∧ q.trapvec.toNat = fieldOf x 256 52 ∧ q.errva = fieldOf x 320 52 ∧
  q.savepa = fieldOf x 384 48 ∧ q.ctx = fieldOf x 448 8 ∧ q.prio = fieldOf x 464 3 ∧ q.dmode = fieldOf x 472 2 ∧ q.weight = fieldOf x 480 8 ∧
  q.ageus = fieldOf x 496 16 ∧ q.nslot = slots ∧ q.ridx = widx ∧ q.packets = [] ∧ q.held = [] ∧ q.slots = [] ∧ q.dying = none

end Sys2Proof.Machine

/-- R139, R140, R141, R445: the operations on queues. The checks of the ring and of the save area are the model's own functions; that a CREATE
before the device is ready, and a RESUME or a second DESTROY during a DESTROY, answer STATE is the model's choice (logs 98, 99). -/
def Obligations.QueueOperations : Prop :=
  ∀ (s : State) (r : QueueReq),
    let was := getQueue s r.qid
    let ends := fun (i : Instr) (code : Nat) => ∃ t, exec i s = .next t ∧ QueueEnds s t r.src code
    let becomes := fun (i : Instr) (q : Option Queue) (code : Nat) => ∃ u t, exec i s = .next t ∧
      QueueIs s u r.qid q ∧ u = { s with queues := u.queues } ∧ QueueEnds u t r.src code
    let free := ∀ q, was = some q → q.st = .free
    let stopped := fun q => was = some q ∧ q.st = .stopped ∧ q.dying = none
    (¬free ∨ s.mgmt.ready = false → ends (.queueCreate r) 1) ∧
    (free → s.mgmt.ready = true → r.qid < 4096 →
      (r.arg.toNat % 64 ≠ 0 → ends (.queueCreate r) 6) ∧
      (∀ c, r.arg.toNat % 64 = 0 → HubLocal s (hubKey r.qid) r.ctx r.arg.toNat 64 c false → s.dram.wf = true →
        (¬Clean s c 64 → ends (.queueCreate r) 6) ∧
        (Clean s c 64 →
          let x := numberAt s.dram c 64
          let ctx := fieldOf x 448 8
          let hdr := fieldOf x 64 52
          (ctxValid s ctx = false → ends (.queueCreate r) 2) ∧
          (ctxValid s ctx = true → ¬DescLegal x → ends (.queueCreate r) 5) ∧
          (ctxValid s ctx = true → DescLegal x → ringOk s x = false → ends (.queueCreate r) 3) ∧
          (ctxValid s ctx = true → DescLegal x → ringOk s x = true → saveSlots s (fieldOf x 384 48) = none → ends (.queueCreate r) 4) ∧
          (∀ n h, ctxValid s ctx = true → DescLegal x → ringOk s x = true → saveSlots s (fieldOf x 384 48) = some n →
            HubLocal s (hubKey r.qid) ctx hdr 8 h false → Clean s h 8 → HubLocal s (hubKey r.qid) ctx (hdr + 8) 8 (h + 8) true →
              let w := numberAt s.dram h 8
              ∃ t u v q, exec (.queueCreate r) s = .next t ∧ Stores s.dram u.dram (h + 8) 8 (BitVec.ofNat 64 w) ∧ u = withDram s u ∧
                QueueOf q x n w ∧ QueueIs u v r.qid (some q) ∧ v = { u with queues := v.queues } ∧ QueueEnds v t r.src 0)))) ∧
    (∀ q, was = some q → q.st = .active → becomes (.queueStop r) (some { q with st := .stopped, byStop := true }) 0) ∧
    ((∀ q, was = some q → q.st ≠ .active) → ends (.queueStop r) 1) ∧
    ((∀ q, was = some q → q.st ≠ .stopped ∨ q.dying ≠ none) → ends (.queueResume r) 1 ∧ ends (.queueDestroy r) 1) ∧
    (∀ q, stopped q → (∀ p ∈ q.packets, p.stop = false) → ∃ u t es, exec (.queueResume r) s = .next t ∧ QueueEnds u t r.src 0 ∧
      QueueIs s u r.qid (some { q with st := .active, jam := false, byStop := false }) ∧ u = { s with queues := u.queues, agenda := s.agenda ++ es } ∧
      .dispatch ∈ es ∧ (q.held ≠ [] → .ticketPushSequenced r.qid ∈ es) ∧
      ∀ p ∈ q.packets, p.job.res ≠ none → p.done = false → p.held = false → .packetComplete r.qid p.k ∈ es) ∧
    (∀ q p c, stopped q → q.packets = [p] → p.k = q.ridx → p.stop = true → p.held = false →
      HubLocal s (hubKey r.qid) q.ctx (q.ringva + 64 * (p.k % 2 ^ q.logn)) 64 c false → Clean s c 64 → let x := numberAt s.dram c 64
      packetBad q x = false → fieldOf x 0 4 ≠ 4 → fieldOf x 0 4 ≠ 12 →
        ∃ u t n, exec (.queueResume r) s = .next t ∧ QueueEnds u t r.src 0 ∧ getPacket u r.qid p.k = some n ∧
          n.bytes.length = 64 ∧ leNat n.bytes = x ∧ n.kind = fieldOf x 0 4 ∧ n.done = false ∧ n.stop = false ∧ n.job = .empty ∧
          n.inLoop = p.inLoop ∧ n.iter = p.iter ∧ n.base = (if n.kind = 3 then r.arg.toNat else 0) ∧ packetEvent r.qid p.k n.kind ∈ u.agenda) ∧
    (∀ q, stopped q → s.mmu.defer = [] → (∀ p ∈ q.packets, p.launch = none ∧ p.bloop = none ∧ p.held = false ∧
        (p.job.res = none ∨ p.done = true ∨ p.stop = true)) →
      ∃ t, exec (.queueDestroy r) s = .next t ∧
        QueueIs s t r.qid (some { q with
          dying := some r.src, packets := q.packets.filter fun p => !(decide ((p.kind = 9 ∨ p.kind = 12) ∧ p.job.res = none)) }) ∧
        t = { s with queues := t.queues, mmu := { s.mmu with pins := t.mmu.pins }, agenda := s.agenda ++ [.queueDestroyComplete r] }) ∧
    (was = none → ends (.queueQuery r) 0 ∧ ends (.queueDestroyComplete r) 0) ∧
    (∀ q, was = some q →
      let st := match q.st with | .free => 0 | .active => 1 | .stopped => 2
      ((∀ p ∈ q.packets, p.stop = false) → ends (.queueQuery r) (st * 2 ^ 14)) ∧
      (∀ p res, q.packets = [p] → p.k = q.ridx → p.stop = true → p.held = false → p.job.res = some res →
        ends (.queueQuery r) (st * 2 ^ 14 + (if p.kind = 2 then 0 else res.elems % 2 ^ 40 * 2 ^ 24)))) ∧
    (∀ q, was = some q → Map.rising s.queues = true → (∀ p ∈ q.packets, p.done = true ∨ p.stop = true) →
      (∀ c ∈ s.cores, ∀ x, c.2.task = some x → x.qid ≠ r.qid) → becomes (.queueDestroyComplete r) none 0) ∧
    (∀ q, was = some q → ((∃ p ∈ q.packets, p.done = false ∧ p.stop = false) ∨ (∃ c ∈ s.cores, ∃ x, c.2.task = some x ∧ x.qid = r.qid)) →
      ∃ t, exec (.queueDestroyComplete r) s = .next t ∧ Retries s t (.queueDestroyComplete r))

namespace Sys2Proof.Machine

/-- A packet that runs (R149). -/
structure PacketRuns (s : State) (qid : Nat) (q : Queue) (p : Packet) (kind : Nat) : Prop where
  queue  : getQueue s qid = some q
  packet : getPacket s qid p.k = some p
  kind   : p.kind = kind
  runs   : p.done = false ∧ p.stop = false ∧ p.held = false ∧ p.job.res = none

/-- A field of a packet's 64 bytes (R145, R146). -/
def packetField (p : Packet) (lo n : Nat) : Nat := fieldOf (leNat p.bytes) lo n

/-- A run that has neither lines nor promotions to wait for, and leaves the packet as it was. -/
def Ran (r : Run) (qid : Nat) (p : Packet) : Prop := r.miss = [] ∧ r.prom = [] ∧ getPacket r.s qid p.k = some p

/-- The hub's doubleword at a virtual address lies in local memory at cell `c`, and the hub may read or write it there (R123, R445). -/
structure HubWord (s : State) (ctx va c : Nat) (write : Bool) : Prop where
  leaf  : ∃ leaf size addr, hubTranslate s ctx va = .ok leaf size addr ∧ leaf.toNat / 2 ^ 7 % 4 = 0 ∧ (write = true → leaf.toNat.testBit 54 = true) ∧
    cellOf (hPhys (mkHandle (.ok leaf size addr) ctx va) va) = some c ∧ attrAt s c = hFormat (mkHandle (.ok leaf size addr) ctx va)
  allow : (permit s .hub ctx va 8 write true).1 = .yes
  still : write = true → movingAt s ctx va = false
  place : va % 8 = 0 ∧ va < 2 ^ 52 ∧ ctx < 256

/-- Whether a WAIT's COND holds (R146). -/
def WaitHolds (cond w v : Nat) : Prop :=
  match cond with
  | 0 => w = v
  | 1 => w ≠ v
  | 2 => v ≤ w
  | _ => w < v

/-- The word of a SIGNAL after it (R147). -/
def signalled (op old v : Nat) : Nat :=
  match op with
  | 0 => v
  | 1 => (old + v) % 2 ^ 64
  | 2 => if old ≤ v then v else old
  | _ => old ||| v

/-- The accessor and the blocks of 64 bytes that a packet reads first (R146). -/
def firstBlocks (p : Packet) : Option (Accessor × List Nat) :=
  match p.kind with
  | 3 => some (.command 65535, [packetField p 192 64, packetField p 128 64])
  | 4 => some (.beacon, [packetField p 128 64])
  | 10 => if packetField p 128 64 = 0 then none else some (.command 65535, [packetField p 128 64])
  | _ => none

/-- Blocks read one after another. -/
def ReadsBlocks (ag : Agent) : Run → List Nat → List (List PByte) → Run → Prop
  | r, [], [], e => e = r
  | r, va :: vas, b :: bs, e => ∃ m, readDevice r ag ag.ctx va 64 = (m, b, none) ∧ ReadsBlocks ag m vas bs e
  | _, _, _, _ => False

end Sys2Proof.Machine

/-- R145 to R148, R156, R158, R353, R361, R363, R365: the packets that move, compute and signal. What a checksum, a copy, a query, a bag and a
collective come to is taken from the model's own functions; that a BWAIT which reads a poisoned barrier stops is the model's choice (log 101). -/
def Obligations.PacketWork : Prop :=
  ∀ (s : State) (qid : Nat) (q : Queue) (p : Packet),
    let ev := packetEvent qid p.k p.kind
    let fin := fun (i : Instr) (res : PRes) => ∃ t, exec i s = .next t ∧ Finished s t qid p res
    let agent := fun (a : Accessor) => packetAgent s qid p.k a p.job
    (PacketRuns s qid q p 1 → fin (.packetNop qid p.k) (plainRes 1 0)) ∧
    (∀ i acc vas, PacketRuns s qid q p p.kind → p.job.recs = [] → p.job.sent = none → p.inLoop = none → firstBlocks p = some (acc, vas) →
      (p.kind = 3 → i = .packetCopy qid p.k) → (p.kind = 4 → i = .packetBcopy qid p.k) → (p.kind = 10 → i = .packetMarker qid p.k) →
        ∃ t, exec i s = .next t ∧ ∀ bs r, ReadsBlocks (agent acc) (Run.start s) vas bs r → Ran r qid p →
          ((p.kind = 10 ∨ ∀ b ∈ bs, tooBig b = false) → ∃ recs,
            getPacket t qid p.k = some { p with job := { p.job with recs } } ∧ (p.kind ≠ 4 → recs = bs) ∧
            (p.kind = 4 → recs = bs.map fun b => moveBase b 0) ∧ ev ∈ t.agenda) ∧
          (p.kind ≠ 10 → (∃ b ∈ bs, tooBig b = true) → Finished r.s t qid p (plainRes 6 0))) ∧
    (PacketRuns s qid q p 3 → p.job.recs ≠ [] → remotePin s (p.k, qid) = false →
      let x := copyJob (Run.start s) (agent (.command 65535)) p.job p.base
      ∃ t, exec (.packetCopy qid p.k) s = .next t ∧ (Ran x.1 qid p → Finished x.1.s t qid p x.2.res)) ∧
    (PacketRuns s qid q p 10 → packetField p 128 64 = 0 → fin (.packetMarker qid p.k) (plainRes 1 0)) ∧
    (PacketRuns s qid q p 10 → packetField p 128 64 ≠ 0 → p.job.recs ≠ [] →
      let x := sumJob (Run.start s) (agent (.command 65535)) p.job
      ∃ t, exec (.packetMarker qid p.k) s = .next t ∧ (Ran x.1 qid p → Finished x.1.s t qid p x.2.res)) ∧
    (PacketRuns s qid q p 4 → p.job.recs ≠ [] → p.job.sent = none → p.inLoop = none → p.base = 0 →
      ∃ t, exec (.packetBcopy qid p.k) s = .next t ∧ ∀ x r bs n,
        tensorOf s (agent .beacon) (jobRec p.job 0) 0 = .ok x → wrongClass s (agent .beacon) x = false →
        imageFrom (Run.start s) (agent .beacon) x 0 = (r, bs, n, none) → Ran r qid p → bs ≠ [] → packedBytes x.lay.fmt 0 = 0 →
          ev ∈ t.agenda ∧
          ∀ c ∈ p.cores, .beaconMulticastLanding q.ctx c { off := packetField p 192 22, data := bs, rest := 0, pois := false
                                                           bar := if (leNat p.bytes).testBit 255 then some (packetField p 224 22) else none } ∈ t.agenda) ∧
    (∀ res, PacketRuns s qid q p 4 → p.inLoop = none → p.job.sent = some res →
      (∀ e ∈ s.agenda, ∀ c core d, e ≠ .beaconMulticastLanding c core d) → fin (.packetBcopy qid p.k) res) ∧
    (PacketRuns s qid q p 5 → p.job.recs ≠ [] → let d := leVal (jobRec p.job 0)
      ∃ t, exec (.packetNmq qid p.k) s = .next t ∧ ∀ v j, queryReady s (hubKey qid) p.job = (v, some j) → j.res = none →
        let w := setPacket v qid { p with job := j }
        let x := queryJob (Run.start w) (hubKey qid) (packetAgent w qid p.k (.candle (fieldOf d 80 4)) j) (dProf d) j
        let r := x.1
        ∀ c, Ran r qid { p with job := j } → x.2.1.status = 1 → (∃ g gs, j.targets = g :: gs ∧ RunsTarget r.s g c) →
          NoSpadPend (getCore r.s c) → (getCore r.s c).mem.spad.wf = true → Map.rising r.s.cores = true →
          let y : Delivery := { off := qRoff d, data := x.2.2.1, bar := qBar d, rest := 0, pois := false }
          Sound y → ∃ u spad, Delivers (getCore r.s c).mem.spad spad y ∧ OnlySpad r.s u c spad ∧ Finished u t qid { p with job := j } x.2.1) ∧
    (PacketRuns s qid q p 6 → p.job.recs ≠ [] → let d := leVal (jobRec p.job 0)
      p.job.units < rNbag d → ∃ t, exec (.packetNmr qid p.k) s = .next t ∧
        ∀ r bs fl c, bagJob (Run.start s) (agent .hub) (dProf d) p.job p.job.units = (r, .ok (bs, fl)) → Ran r qid p →
          (∃ g gs, p.job.targets = g :: gs ∧ RunsTarget r.s g c) → NoSpadPend (getCore r.s c) → (getCore r.s c).mem.spad.wf = true →
          Map.rising r.s.cores = true →
          let y : Delivery := { off := bagOff d p.job.units, data := bs, bar := rBar d, rest := 0, pois := false }
          Sound y → ∃ u spad, Delivers (getCore r.s c).mem.spad spad y ∧ OnlySpad r.s u c spad ∧
            PacketBecomes u t qid { p with job := { p.job with
              units := p.job.units + 1, bytes := p.job.bytes + bs.length, pois := p.job.pois || bs.any (·.2) } } ∧
            t = { u with queues := t.queues, agenda := u.agenda ++ [ev] }) ∧
    (PacketRuns s qid q p 6 → p.job.recs ≠ [] → rNbag (leVal (jobRec p.job 0)) ≤ p.job.units →
      fin (.packetNmr qid p.k) { status := 1, cause := 0, bytes := p.job.bytes, elems := p.job.units, pois := p.job.pois, crc := none }) ∧
    (∀ g gs, PacketRuns s qid q p 7 → p.job.recs ≠ [] → p.job.units = 0 → p.job.targets = g :: gs → targetCore s g ≠ none →
      let x := arrivalJob (Run.start s) (agent (.command 65535)) (dProf (leVal (jobRec p.job 0))) p.job
      ∃ t, exec (.packetColl qid p.k) s = .next t ∧ (Ran x.1 qid p →
        PacketBecomes x.1.s t qid { p with job := { p.job with units := 1 } } ∧
        t = { x.1.s with queues := t.queues, agenda := x.1.s.agenda ++ [.prismCollectiveArrival x.2.1] })) ∧
    (∀ c i d, PacketRuns s qid q p 8 → p.inLoop = none → s.dram.wf = true →
      let va := packetField p 128 64
      let mask : BitVec 6 := if packetField p 264 6 = 0 then 7 else BitVec.ofNat 6 (packetField p 264 6)
      let notify := (leNat p.bytes).testBit 258
      HubWord s q.ctx va c true → regionAt s q.ctx va = some (i, d) →
      (rMode d ≠ 3 → fin (.packetSignal qid p.k) (plainRes 4 2)) ∧
      (rMode d = 3 → releaseHeld s mask = false →
        (s.dram.pois.contains (c / 32) = false → ∃ u t, exec (.packetSignal qid p.k) s = .next t ∧
          Stores s.dram u.dram c 8 (BitVec.ofNat 64 (signalled (packetField p 256 2) (numberAt s.dram c 8) (packetField p 192 64))) ∧
          u = { withDram s u with sleepers := u.sleepers } ∧
          u.sleepers = (if notify then s.sleepers.filter fun x => x.1 ≠ c else s.sleepers) ∧
          (notify = true → ∀ x ∈ s.sleepers, x.1 = c → .waitvFreshRead x.2 ∈ u.agenda) ∧ Finished u t qid p (plainRes 1 0)) ∧
        (s.dram.pois.contains (c / 32) = true → ∃ u t, exec (.packetSignal qid p.k) s = .next t ∧ u = withDram s u ∧ u.dram = s.dram ∧
          Finished u t qid p (plainRes 3 3)))) ∧
    (∀ c i d, PacketRuns s qid q p 9 → s.dram.wf = true →
      let va := packetField p 128 64
      HubWord s q.ctx va c false → regionAt s q.ctx va = some (i, d) → rMode d = 3 →
      (s.dram.pois.contains (c / 32) = false → ∃ u t, exec (.packetWait qid p.k) s = .next t ∧ u = withDram s u ∧ u.dram = s.dram ∧ u.agenda = s.agenda ∧
        (WaitHolds (packetField p 256 2) (numberAt s.dram c 8) (packetField p 192 64) → Finished u t qid p (plainRes 1 0)) ∧
        (¬WaitHolds (packetField p 256 2) (numberAt s.dram c 8) (packetField p 192 64) → Retries u t ev))) ∧
    (PacketRuns s qid q p 12 → p.inLoop = none → q.byStop = true → ∃ t, exec (.packetBwait qid p.k) s = .next t ∧ Retries s t ev) ∧
    (PacketRuns s qid q p 12 → p.inLoop = none → q.byStop = false → (∀ c ∈ p.cores, NoSpadPend (getCore s c) ∧ (getCore s c).mem.spad.wf = true) →
      let phase := fun c => numberAt (getCore s c).mem.spad (packetField p 128 22) 16 % 16
      let there := fun c => ∃ x, (getCore s c).task = some x ∧ x.ctx = q.ctx ∧ (getCore s c).mem.spad.pois.contains (packetField p 128 22 / 32) = false
      packetField p 128 22 % 16 = 0 →
      ((∀ c ∈ p.cores, there c ∧ phase c = packetField p 168 4) → fin (.packetBwait qid p.k) (plainRes 1 0)) ∧
      ((∀ c ∈ p.cores, there c) → (∃ c ∈ p.cores, phase c ≠ packetField p 168 4) →
        ∃ t, exec (.packetBwait qid p.k) s = .next t ∧ Retries s t ev))

namespace Sys2Proof.Machine

/-! ### The course of packets and tasks -/

/-- The extents of a loop-nest record (R163), from its 1,024 bits, and the number of its tasks. -/
def nestExtents (x : Nat) : List Nat := (List.range 6).map fun d => fieldOf x (256 + 32 * d) 25
def nestTasks (x : Nat) : Nat := (nestExtents x).foldl (· * ·) 1

/-- A loop-nest record as captured (R162, R163), its bindings apart. -/
def NestOf (r : NestRec) (x : Nat) : Prop :=
  r.entry.toNat = fieldOf x 0 52 ∧ r.npdef = fieldOf x 116 6 ∧ r.gang = fieldOf x 96 16 ∧ r.pken = x.testBit 95 ∧ r.pkey = fieldOf x 92 3 ∧
  r.rank = fieldOf x 88 3 ∧ r.dir = fieldOf x 82 6 ∧ (∀ i, i < r.rank → lget r.order i 0 = fieldOf x (64 + 3 * i) 3) ∧ r.order.length = r.rank ∧
  r.gmapoff = fieldOf x 160 22 ∧ r.gmapen = x.testBit 159 ∧ r.liveoff = fieldOf x 224 22 ∧ r.livelen = fieldOf x 192 23 ∧ r.ext = nestExtents x

/-- The packets that a BLOOP reaches back to (R157). -/
def reached (q : Queue) (k back : Nat) : List Packet := q.packets.filter fun b => decide (b.k < k ∧ k ≤ b.k + back)

/-- A status that stops its queue (R150). -/
def Stopping (status : Nat) : Prop := status = 3 ∨ status = 4 ∨ status = 6 ∨ status = 7 ∨ status = 8

/-- A task of the launch that a push belongs to, with a lower ordinal, runs (R154). -/
def LowerRuns (s : State) (p : Push) : Prop := ∃ c ∈ s.cores, ∃ x, c.2.task = some x ∧ x.qid = p.qid ∧ x.packet = p.packet ∧ x.ord < p.tk.ord

/-- A core has lost at most cached translations and buffered lines, as a shootdown takes them (R28). -/
def Undisturbed (k k' : Core) : Prop :=
  k' = { k with tlb := k'.tlb, h := k'.h, cmds := k'.cmds, plain := k'.plain, lastRead := k'.lastRead
                iss := { k.iss with hpend := k'.iss.hpend } }

/-- The ordinal of a task from the digits of its walk positions, the first position the fastest (R166). -/
def walkOrdinal (ext digit : Nat → Nat) : List Nat → Nat
  | [] => 0
  | d :: ds => digit d + ext d * walkOrdinal ext digit ds

end Sys2Proof.Machine

/-- R145, R149 to R151, R154, R155, R157, R161 to R165: the start of a LAUNCH, the iterations of a BLOOP, the end of a packet, the ticket sequencer.
What the hub's writes of a ring slot come to is taken from the model's own functions. -/
def Obligations.PacketCourse : Prop :=
  ∀ (s : State) (qid : Nat) (q : Queue) (p : Packet), getQueue s qid = some q → getPacket s qid p.k = some p →
    let runs := p.done = false ∧ p.stop = false ∧ p.held = false ∧ p.job.res = none
    let fin := fun (i : Instr) (status cause : Nat) => ∃ t, exec i s = .next t ∧ Finished s t qid p (plainRes status cause)
    (runs → p.kind = 2 → p.launch = none →
      let va := packetField p 128 64
      let cached := tlbFind (Map.get [] s.mmu.tlbs hubCache) q.ctx va
      (Map.find s.fab.inbound (hubKey qid) = none → cached = none → ∀ cause, walk s q.ctx va = .no cause → fin (.packetLaunch qid p.k) 6 0) ∧
      (∀ e, Map.find s.fab.inbound (hubKey qid) = none → cached = some e → walk s q.ctx va = .ok e.leaf e.size e.addr → va % 65536 + 128 ≤ 65536 →
        (permit s .hub q.ctx va 128 false true).1 ≠ .yes → fin (.packetLaunch qid p.k) 4 2) ∧
      (∀ c, HubLocal s (hubKey qid) q.ctx va 128 c false → s.dram.wf = true →
        let x := numberAt s.dram c 128
        let mapped := ∃ leaf size addr, hubTranslate s q.ctx (fieldOf x 0 52) = .ok leaf size addr
        let good := Clean s c 128 ∧ nestBad x (decide (q.dmode = 0)) = false ∧ mapped
        (¬good → fin (.packetLaunch qid p.k) 6 0) ∧
        (good → 2 ^ 32 < nestTasks x → fin (.packetLaunch qid p.k) 7 0) ∧
        (good → nestTasks x ≤ 2 ^ 32 → 1280 < fieldOf x 96 16 → fin (.packetLaunch qid p.k) 8 0) ∧
        (good → nestTasks x = 0 → fieldOf x 96 16 ≤ 1280 → fin (.packetLaunch qid p.k) 2 0) ∧
        (good → 0 < nestTasks x → nestTasks x ≤ 2 ^ 32 → fieldOf x 96 16 ≤ 1280 → ∃ t l, exec (.packetLaunch qid p.k) s = .next t ∧
          NestOf l.rec' x ∧ l.t = nestTasks x ∧ l.nextOrd = 0 ∧ l.committed = 0 ∧ l.stop = none ∧ l.units = [] ∧ l.saved = [] ∧ l.bound = [] ∧
          PacketBecomes s t qid { p with launch := some l } ∧ t = { s with queues := t.queues, agenda := s.agenda ++ [.dispatch] }))) ∧
    (runs → p.kind = 11 → p.bloop = none → (q.packets.map (·.k)).Nodup →
      let back := packetField p 160 8
      let body := reached q p.k back
      let bad := p.k < q.ridx + back ∨ p.k < q.first + back ∨ body.length ≠ back ∨ ∃ b ∈ body, b.kind ≠ 4 ∧ b.kind ≠ 8 ∧ b.kind ≠ 12
      (bad → (∀ b ∈ body, b.held = false) → fin (.packetBloop qid p.k) 6 0) ∧
      (¬bad → ∃ t, exec (.packetBloop qid p.k) s = .next t ∧ t = { s with queues := t.queues, agenda := s.agenda ++ [.bloopIteration qid p.k] } ∧
        getPacket t qid p.k = some { p with bloop := some (packetField p 128 32, back) } ∧
        ∀ b ∈ body, getPacket t qid b.k = some { b with inLoop := some p.k, held := b.held || b.done, done := false })) ∧
    (∀ count back, p.bloop = some (count, back) → p.job.res = none → (q.packets.map (·.k)).Nodup →
      let body := (reached q p.k back).filter fun b => decide (b.inLoop = some p.k)
      ((∃ b ∈ body, b.held = false ∧ b.stop = false) → exec (.bloopIteration qid p.k) s = .next s) ∧
      ((∀ b ∈ body, b.held = true ∧ b.stop = false) →
        (p.iter + 1 < count → ∃ t, exec (.bloopIteration qid p.k) s = .next t ∧
          t = { s with queues := t.queues, agenda := s.agenda ++ body.map fun b => packetEvent qid b.k b.kind } ∧
          getPacket t qid p.k = some { p with iter := p.iter + 1 } ∧
          ∀ b ∈ body, getPacket t qid b.k = some { b with iter := p.iter + 1, held := false, job := .empty, base := 0 }) ∧
        (count ≤ p.iter + 1 → ∃ t, exec (.bloopIteration qid p.k) s = .next t ∧ t = { s with queues := t.queues, agenda := t.agenda } ∧
          getPacket t qid p.k = some { p with job := { p.job with res := some (plainRes 1 0) } } ∧ .packetComplete qid p.k ∈ t.agenda ∧
          ∀ b ∈ body, getPacket t qid b.k = some { b with held := false, fin := true } ∧
            (b.job.res ≠ none → .packetComplete qid b.k ∈ t.agenda)))) ∧
    (∀ res u, p.job.res = some res → p.done = false → p.stop = false → s.mmu.defer = [] → s.dram.wf = true →
      (∀ l ∈ s.fab.lines, l.data = none) →
      (p.kind ≠ 4 ∧ p.kind ≠ 8 ∧ p.kind ≠ 12 ∨ p.fin = true) →
      (p.kind = 2 → ∀ y ∈ s.queues, y.2.feeder ≠ some (qid, p.k) ∧ (qid, p.k) ∉ y.2.feeders) →
      u = { s with mmu := { s.mmu with pins := s.mmu.pins.filter fun x => x.owner ≠ (p.k, qid) } } →
      let compl := packetField p 64 64
      (compl = 0 ∨ (compl % 32 = 0 ∧ q.dying = none ∧ Map.find q.tickets p.k = none ∧ ∃ c, HubLocal s (hubKey qid) q.ctx compl 32 c true)) →
      let recorded := fun (v : State) => (compl = 0 ∧ v = u) ∨ ∃ c, HubLocal s (hubKey qid) q.ctx compl 32 c true ∧ v = withDram u v ∧
        Outside s.dram v.dram c 32 ∧ ∀ i, i < 32 → v.dram.byte (c + i) = lget (recordBytes (specRecord res p.kind 0)) i 0
      (¬Stopping res.status → (∀ y ∈ q.packets, y.k = q.ridx → y.done = false ∧ y.stop = false) → p.k ≠ q.ridx →
        ∃ t v, exec (.packetComplete qid p.k) s = .next t ∧ recorded v ∧ PacketBecomes v t qid { p with done := true } ∧
          t = { v with queues := t.queues, old := [] }) ∧
      (¬Stopping res.status → p.k = q.ridx → (∀ y ∈ q.packets, y.k ≠ q.ridx + 1) →
        ∃ t v, exec (.packetComplete qid p.k) s = .next t ∧ recorded v ∧ ∀ w w₁ w₂,
          w = setPacket { v with old := [] } qid { p with done := true } →
          hubWrite w .hub q.ctx (q.ringva + 64 * (q.ridx % 2 ^ q.logn)) (clean (leBytes 8 0)) true qid = (w₁, .done) →
          hubWrite w₁ .hub q.ctx (q.hdrva + 8) (clean (leBytes 8 (q.ridx + 1))) true qid = (w₂, .done) →
            t.dram = w₂.dram ∧ QueueIs w₂ t qid (some { q with
              ridx := q.ridx + 1, tickets := Map.erase q.tickets q.ridx, packets := q.packets.filter fun y => decide (y.k ≠ q.ridx) })) ∧
      (Stopping res.status → q.st = .active → ∃ t v y, exec (.packetComplete qid p.k) s = .next t ∧ recorded v ∧ getQueue t qid = some y ∧
        y.st = .stopped ∧ y.ridx = q.ridx ∧ getPacket t qid p.k = some { p with stop := true } ∧
        (res.status ≠ 6 → t = { v with queues := t.queues, old := [] }))) ∧
    ((q.held = [] ∨ q.jam = true ∨ q.dying ≠ none) → exec (.ticketPushSequenced qid) s = .next s) ∧
    (∀ y ys, q.held = y :: ys → q.jam = false → q.dying = none →
      (y.claimed = none → LowerRuns s y → exec (.ticketPushSequenced qid) s = .next s) ∧
      (y.claimed = none → ¬LowerRuns s y → getLaunch s y.qid y.packet = none ∨ (∃ l, getLaunch s y.qid y.packet = some l ∧ l.saved = []) →
        ∀ c, HubLocal s (hubKey qid) q.ctx q.hdrva 8 c false → HubLocal s (hubKey qid) q.ctx q.hdrva 8 c true → Clean s c 8 → s.dram.wf = true →
          let k := numberAt s.dram c 8
          ∃ t u, exec (.ticketPushSequenced qid) s = .next t ∧ Stores s.dram u.dram c 8 (BitVec.ofNat 64 (k + 1)) ∧ u = withDram s u ∧
            QueueIs u t qid (some { q with held := { y with claimed := some k } :: ys }) ∧
            t = { u with queues := t.queues, agenda := u.agenda ++ [.ticketPushSequenced qid] }) ∧
      (∀ k c, y.claimed = some k → HubLocal s (hubKey qid) q.ctx (q.hdrva + 8) 8 c false → Clean s c 8 → s.dram.wf = true →
        let r := numberAt s.dram c 8
        (r + 2 ^ q.logn ≤ k → exec (.ticketPushSequenced qid) s = .next s) ∧
        (k < r + 2 ^ q.logn → releaseHeld s y.mask = true → ∃ t, exec (.ticketPushSequenced qid) s = .next t ∧
          Retries s t (.ticketPushSequenced qid)) ∧
        (k < r + 2 ^ q.logn → releaseHeld s y.mask = false → y.stage = none → ∃ t, exec (.ticketPushSequenced qid) s = .next t ∧
          ∀ u, publish (releaseNear s y.mask) byHub q qid k (clean y.image) y.mask = (u, .done) → ∃ f,
            QueueIs u t qid (some { q with held := ys, tickets := Map.set q.tickets k y.tk, feeder := f }) ∧ (ys ≠ [] → f = q.feeder) ∧
            t = { u with queues := t.queues, agenda := u.agenda ++ if ys = [] then [] else [.ticketPushSequenced qid] })))

/-- R119, R166 to R168, R170, R176 to R181, R402, R403, R408, R410: a unit is placed, a queue ages, a task commits, halts, and is saved. The
placement clause is about the one LAUNCH of a device whose cores are all free. -/
def Obligations.TaskCourse : Prop :=
  ∀ (s : State) (qid c : Nat) (q : Queue),
    let k := getCore s c
    (s.mgmt.ready = false → exec .dispatch s = .next s) ∧
    (∀ p l, s.mgmt.ready = true → s.queues = [(qid, q)] → q.packets = [p] → q.dying = none → q.st = .active → p.done = false → p.launch = some l → s.reserved = none →
      (∀ d, (getCore s d).task = none) → l.stop = none → l.nextOrd = 0 → l.committed = 0 → l.units = [] → l.saved = [] →
      l.rec'.pken = false → l.rec'.binds = [] → l.rec'.gmapen = false → l.rec'.order.Nodup → (∀ d ∈ l.rec'.order, d < 6) →
      l.t = (l.rec'.order.map fun d => lget l.rec'.ext d 1).prod → 0 < l.t → l.t ≤ l.rec'.gang → l.t ≤ 1280 →
        ∃ t cs u, exec .dispatch s = .next t ∧ cs.length = l.t ∧ cs.Nodup ∧ (∀ d ∈ cs, d < 1280) ∧ (∀ d, d ∉ cs → getCore t d = getCore s d) ∧
          getLaunch t qid p.k = some { l with nextOrd := l.t, units := [u], bound := (getLaunch t qid p.k).elim [] (·.bound) } ∧
          u.gang = 0 ∧ u.cores = cs ∧ u.saving = false ∧
          ∀ r, r < l.t → let x := getCore t (lget cs r 0)
            x.task = some { qid, packet := p.k, ord := r, phase := 0, rank := r, gsize := l.t, gang := 0, ctx := q.ctx, dmode := q.dmode, binds := [] } ∧
            x.pc = l.rec'.entry ∧ x.handler = false ∧ x.sys.trapvec = q.trapvec ∧ x.sys.npdef.toNat = l.rec'.npdef % 64 ∧
            sreg x 30 = BitVec.ofNat 64 r ∧ (∀ i : BitVec 5, i.toNat < 24 ∨ i = 31 → sreg x i = 0) ∧
            ∃ ix : Nat → Nat, (∀ d, d < 6 → sreg x (BitVec.ofNat 5 (24 + d)) = BitVec.ofNat 64 (ix d)) ∧
              (∀ d ∈ l.rec'.order, ix d < lget l.rec'.ext d 1) ∧ (∀ d, d ∉ l.rec'.order → ix d = 0) ∧
              r = walkOrdinal (fun d => lget l.rec'.ext d 1) (fun d => if l.rec'.dir.testBit d then lget l.rec'.ext d 1 - 1 - ix d else ix d) l.rec'.order) ∧
    (getQueue s qid = none → exec (.ageingStep qid) s = .next s) ∧
    (getQueue s qid = some q →
      (readyNeed s qid q = none → ∃ t, exec (.ageingStep qid) s = .next t ∧ QueueIs s t qid (some { q with aged := 0 }) ∧ t = { s with queues := t.queues }) ∧
      (readyNeed s qid q ≠ none → ∃ t, exec (.ageingStep qid) s = .next t ∧ QueueIs s t qid (some { q with aged := q.aged + 1 }) ∧
        t = { s with queues := t.queues, agenda := s.agenda ++ [.dispatch] })) ∧
    ((k.task = none ∨ k.ending = false ∨ allDone k = false) → exec (.taskCommit c) s = .next s) ∧
    (∀ x p l, k.task = some x → k.ending = true → allDone k = true → k.plain = [] → x.binds = [] → (∀ f ∈ s.fab.lines, ∀ i n o, f.use ≠ .store i c n o) →
      getPacket s x.qid x.packet = some p → p.k = x.packet → p.launch = some l → p.job.res = none → (∀ u ∈ l.saved, ∀ v ∈ u.2, v.dmg = 0) →
        ∃ t p' l', exec (.taskCommit c) s = .next t ∧ (getCore t c).task = none ∧ (∀ d, d ≠ c → getCore t d = getCore s d) ∧
          (NoSpadPend k → (getCore t c).mem.spad = k.mem.spad) ∧ .dispatch ∈ t.agenda ∧
          getPacket t x.qid x.packet = some p' ∧ p'.launch = some l' ∧ l'.committed = l.committed + 1 ∧ l'.t = l.t ∧ l'.nextOrd = l.nextOrd ∧
          (l.stop = none → l.committed + 1 = l.t → l.saved = [] →
            (∀ d ∈ s.cores, d.1 ≠ c → ∀ y, d.2.task = some y → y.qid ≠ x.qid ∨ y.packet ≠ x.packet) → Map.rising s.cores = true →
            p'.job.res = some { status := 1, cause := 0, bytes := 0, elems := l.t, pois := false, crc := none })) ∧
    (k.task = none → exec (.preemptRequestArrive c) s = .next s ∧ exec (.contextSave c 0) s = .next s ∧ exec (.logicSoftError c) s = .next s) ∧
    (k.ending = true → exec (.preemptRequestArrive c) s = .next s) ∧
    (∀ x l u, k.task = some x → getLaunch s x.qid x.packet = some l → u ∈ l.units → u.gang = x.gang → u.saving = true → k.halting = false →
      k.ending = false → (k.iss.trap ≠ none → ∃ t, exec (.preemptRequestArrive c) s = .next t ∧ Retries s t (.preemptRequestArrive c)) ∧
      (k.iss.trap = none → ∃ t iss, exec (.preemptRequestArrive c) s = .next t ∧
        OnlyCore { s with sleepers := s.sleepers.filter fun y => y.2 ≠ c } t c { k with sleepers := [], iss } ∧ iss.hold = true ∧
        iss = { k.iss with hold := true, queues := iss.queues } ∧
        ∀ e, e < 7 → vget iss.queues e [] = (vget k.iss.queues e []).map fun w => { w with asleep := woken s c && w.asleep })) ∧
    ((k.iss.hold = false ∨ k.halting = true ∨ drained k = false ∨ woken s c = true) → exec (.contextSave c 0) s = .next s) ∧
    (∀ x l u y, k.task = some x → k.iss.hold = true → k.halting = false → drained k = true → woken s c = false → k.plain = [] → x.binds = [] →
      (∀ f ∈ s.fab.lines, ∀ i n o, f.use ≠ .store i c n o) → getQueue s x.qid = some y →
      y.slots.length < y.nslot → y.slots.Nodup →
      getPacket s x.qid x.packet ≠ none → (∀ p, getPacket s x.qid x.packet = some p → p.k = x.packet) → getLaunch s x.qid x.packet = some l →
      l.units = [u] → u.gang = x.gang → u.cores = [c] → l.saved = [] →
        ∃ t l' u' v y', exec (.contextSave c 0) s = .next t ∧ (getCore t c).task = none ∧ (∀ d, d ≠ c → getCore t d = getCore s d) ∧
          getLaunch t x.qid x.packet = some l' ∧ l'.units = [] ∧ l'.saved = [(u', [v])] ∧ u'.gang = u.gang ∧ v.task = x ∧ v.dmg = 0 ∧
          v.core.pc = k.pc ∧ v.core.s = k.s ∧ v.core.v = k.v ∧ v.core.m = k.m ∧ v.core.h = k.h ∧ v.core.g = k.g ∧
          v.core.sys = { k.sys with fpflags := v.core.sys.fpflags } ∧
          (∀ b, b < 64 → (v.core.sys.fpflags.getLsbD b = true ↔ k.sys.fpflags.getLsbD b = true ∨ ∃ p ∈ k.iss.pend, ∃ f, p.dst = .flags f ∧ f.getLsbD b = true)) ∧
          v.core.handler = k.handler ∧ v.core.mem = k.mem ∧ v.core.chains = k.chains ∧ v.core.evq = k.evq ∧ v.core.cmds = k.cmds ∧
          (∀ p, p ∈ v.core.iss.pend ↔ p ∈ k.iss.pend ∧ ∀ f, p.dst ≠ .flags f) ∧ v.core.iss.hpend = k.iss.hpend ∧ v.core.iss.hold = false ∧ v.slot < y.nslot ∧ v.slot ∉ y.slots ∧
          getQueue t x.qid = some y' ∧ (∀ i, i ∈ y'.slots ↔ i ∈ y.slots ∨ i = v.slot) ∧ .dispatch ∈ t.agenda) ∧
    (∀ x l, k.task = some x → Map.rising s.cores = true → getLaunch s x.qid x.packet = some l → (∀ p, getPacket s x.qid x.packet = some p → p.k = x.packet) →
      ∃ t l', exec (.logicSoftError c) s = .next t ∧ getLaunch t x.qid x.packet = some l' ∧ l'.stop = some (l.stop.getD 3) ∧
        ∀ d y, (getCore s d).task = some y →
          (y.qid = x.qid ∧ y.packet = x.packet ∧ y.gang = x.gang → (getCore t d).halting = true ∧ (getCore t d).pc = (getCore s d).pc ∧
            (getCore t d).sys = (getCore s d).sys ∧ ∀ e, e < 7 → vget (getCore t d).iss.queues e [] = []) ∧
          (y.qid ≠ x.qid ∨ y.packet ≠ x.packet ∨ y.gang ≠ x.gang → Undisturbed (getCore s d) (getCore t d)))

namespace Sys2Proof.Machine

/-! ### Inbound accesses and links -/

/-- The device sends something out, and nothing else changes. -/
def SendsOut (u t : State) (o : Out) : Prop := t = { u with fab := { u.fab with out := u.fab.out ++ [o] } }

/-- An entry of the inbound window table holds a range with a permission bit (R414). -/
def HoldsRange (e : Window) (va n perm : Nat) : Prop :=
  e.w0.toNat.testBit 63 = true ∧ e.w0.toNat.testBit perm = true ∧ fieldOf e.w0.toNat 0 52 ≤ va ∧
  va + n ≤ fieldOf e.w0.toNat 0 52 + 2 ^ fieldOf e.w0.toNat 56 6

/-- An entry admits an RDMA access (R413), or one of a peer (R419). -/
def AdmitsRdma (e : Window) (rkey : BitVec 32) (va n perm : Nat) : Prop :=
  HoldsRange e va n perm ∧ e.w0.toNat.testBit 62 = false ∧ fieldOf e.w2.toNat 32 32 = rkey.toNat
def AdmitsPeer (e : Window) (src va n perm : Nat) : Prop :=
  HoldsRange e va n perm ∧ e.w0.toNat.testBit 62 = true ∧ fieldOf e.w1.toNat 48 16 = src

/-- Every entry that admits an access has a context, and there is one. -/
def AdmittedIn (s : State) (admits : Window → Prop) (ctx : Nat) : Prop :=
  (∃ e ∈ s.mmu.inwin, admits e.2) ∧ ∀ e ∈ s.mmu.inwin, admits e.2 → fieldOf e.2.w1.toNat 0 8 = ctx

/-- The bytes of an inbound access lie in a local page, in one block of 4 KiB at cell `c`, and the access may go there (R33): what a TLB holds of
the page is what the page table gives (R22), and no heat is counted for the context (R20). -/
structure InboundPlace (s : State) (a : Accessor) (ctx va n c : Nat) (write : Bool) : Prop where
  leaf  : ∃ leaf size addr, walk s ctx va = .ok leaf size addr ∧ leaf.toNat / 2 ^ 7 % 4 = 0 ∧ (write = true → leaf.toNat.testBit 54 = true) ∧
    cellOf (hPhys (mkHandle (.ok leaf size addr) ctx va) va) = some c ∧ attrAt s c = hFormat (mkHandle (.ok leaf size addr) ctx va)
  fresh : ∀ i e die, i < n → (die = hubCache ∨ die = va / 65536 % 8) → tlbFind (Map.get [] s.mmu.tlbs die) ctx (va + i) = some e →
    walk s ctx (va + i) = .ok e.leaf e.size e.addr
  cold  : heatOn s ctx = false
  allow : permitAt s a ctx va write false = .yes ∧ (permit s a ctx va n write false).1 = .yes
  still : write = true → movingAt s ctx va = false
  pins  : ∀ p ∈ s.mmu.pins, p.owner.2 ≠ 4098
  place : 0 < n ∧ va % 4096 + n ≤ 4096 ∧ va < 2 ^ 52 ∧ ctx < 256

/-- The bytes of a memory range, clean. -/
def bytesAt (m : Memory) (c n : Nat) : List Byte := (List.range n).map fun i => m.byte (c + i)
def CleanAt (m : Memory) (c n : Nat) : Prop := ∀ i, i < n → m.pois.contains ((c + i) / 32) = false

/-- Bytes stand in memory from a cell on, and every other byte is as it was. -/
def Holds (m m' : Memory) (c : Nat) (bs : List PByte) : Prop :=
  m'.wf = true ∧ ∀ x, m'.byte x = if c ≤ x ∧ x < c + bs.length then (lget bs (x - c) (0, false)).1 else m.byte x

/-- An inbound access has been answered: the memory, what goes with its writes, and the answer. -/
def AnsweredWith (s t : State) (o : Out) : Prop :=
  t = { withDram s t with
    sleepers := t.sleepers, mmu := { s.mmu with tlbs := t.mmu.tlbs }
    fab := { s.fab with inbound := t.fab.inbound, out := s.fab.out ++ [o] } }

/-- A silent or lost device is none (R421): what arrives from it changes nothing of that. -/
def NotSilent (s : State) (dev : Nat) : Prop := Map.find s.fab.timeouts dev = none ∧ dev ∉ s.fab.lost

/-- One port has changed, and nothing else. -/
def OnlyPort (s t : State) (port : Nat) (p : Port) : Prop :=
  t = { s with fab := { s.fab with ports := t.fab.ports } } ∧ getPort t port = p ∧ ∀ i, i ≠ port → getPort t i = getPort s i

/-- The flits that an ACK leaves unacknowledged (R418). -/
def unacked (p : Port) (ack : Nat) : List (Nat × List Byte) :=
  p.replay.filter fun x => decide (0 < (x.1 + 2 ^ 24 - ack) % 2 ^ 24 ∧ (x.1 + 2 ^ 24 - ack) % 2 ^ 24 ≤ 512)

/-- A number among the bytes of a flit (R416). -/
def flitField (f : List Byte) (first n : Nat) : Nat := leNat ((f.drop first).take n)

end Sys2Proof.Machine

/-- R33, R57, R60, R121, R147, R333, R376, R412 to R414, R419, R421. The operation codes of a peer's atomic are the model's. -/
def Obligations.InboundAccesses : Prop :=
  ∀ (s : State) (r : RdmaReq) (y : PeerReq) (ctx c dev : Nat), s.dram.wf = true →
    let nak := fun (i : Instr) => ∃ t, exec i s = .next t ∧ SendsOut s t (.rdmaNakAccess r.qp)
    let refuse := fun (i : Instr) => ∃ t, exec i s = .next t ∧ SendsOut s t (.peerAnswer y.src .ownership [])
    let syncAt := fun va => ∃ i d, regionAt s ctx va = some (i, d) ∧ rMode d = 3
    let landed := releaseHeld s 63 = false
    (s.mgmt.powered = false → exec (.rdmaWrite r) s = .next s ∧ exec (.rdmaRead r) s = .next s ∧ exec (.rdmaFetchAndAdd r) s = .next s ∧
      exec (.rdmaInvalidRequest r.qp) s = .next s ∧ exec (.fylvathenInboundAccess y) s = .next s ∧ exec (.fylvathenRemoteAtomic y) s = .next s) ∧
    (s.mgmt.powered = true → ∃ t, exec (.rdmaInvalidRequest r.qp) s = .next t ∧ SendsOut s t (.rdmaNakInvalid r.qp)) ∧
    (s.mgmt.powered = true → r.va % 8 ≠ 0 → ∃ t, exec (.rdmaFetchAndAdd r) s = .next t ∧ SendsOut s t (.rdmaNakInvalid r.qp)) ∧
    (s.mgmt.powered = true → s.mgmt.ready = false → nak (.rdmaWrite r) ∧ nak (.rdmaRead r) ∧ (r.va % 8 = 0 → nak (.rdmaFetchAndAdd r)) ∧
      (∃ t cause, cause < 4 ∧ exec (.fylvathenInboundAccess y) s = .next t ∧ SendsOut { s with free := s.free + 1 } t (.peerAnswer y.src (.notPresent cause) [])) ∧
      (∃ t cause, cause < 4 ∧ exec (.fylvathenRemoteAtomic y) s = .next t ∧ SendsOut { s with free := s.free + 1 } t (.peerAnswer y.src (.notPresent cause) []))) ∧
    (s.mgmt.powered = true → s.mgmt.ready = true →
      ((∀ e ∈ s.mmu.inwin, ¬AdmitsRdma e.2 r.rkey r.va r.data.length 54) → nak (.rdmaWrite r)) ∧
      ((∀ e ∈ s.mmu.inwin, ¬AdmitsRdma e.2 r.rkey r.va r.len 55) → nak (.rdmaRead r)) ∧
      ((∀ e ∈ s.mmu.inwin, ¬AdmitsRdma e.2 r.rkey r.va 8 53) → r.va % 8 = 0 → nak (.rdmaFetchAndAdd r)) ∧
      (AdmittedIn s (fun e => AdmitsRdma e r.rkey r.va r.data.length 54) ctx → InboundPlace s .inbound ctx r.va r.data.length c true →
        ¬syncAt r.va ∨ landed → ∃ t, exec (.rdmaWrite r) s = .next t ∧ Holds s.dram t.dram c (clean r.data) ∧ AnsweredWith s t (.rdmaAck r.qp [])) ∧
      (AdmittedIn s (fun e => AdmitsRdma e r.rkey r.va r.len 55) ctx → InboundPlace s .inbound ctx r.va r.len c false →
        (CleanAt s.dram c r.len → ∃ t, exec (.rdmaRead r) s = .next t ∧ t.dram = s.dram ∧ AnsweredWith s t (.rdmaAck r.qp (bytesAt s.dram c r.len))) ∧
        (∀ i, i < r.len → CleanAt s.dram c i → s.dram.pois.contains ((c + i) / 32) = true → ∃ t, exec (.rdmaRead r) s = .next t ∧ t.dram = s.dram ∧
          t.fab.out = s.fab.out ++ [.rdmaNakAccess r.qp] ∧ (Map.get [] t.errlog ((c + i) / 2 ^ 36)).getLast? =
            some { kind := 2, off := (c + i) % 2 ^ 36 / unitBytes s (c + i) * unitBytes s (c + i)
                   gran := (attrAt s (c + i)).gran, tol := (attrAt s (c + i)).tol, tcls := (attrAt s (c + i)).tcls })) ∧
      (r.va % 8 = 0 → AdmittedIn s (fun e => AdmitsRdma e r.rkey r.va 8 53) ctx → InboundPlace s .inboundAtomic ctx r.va 8 c true →
        Map.find s.fab.inbound (6 + 4 * r.qp) = none → landed → CleanAt s.dram c 8 →
          ∃ t, exec (.rdmaFetchAndAdd r) s = .next t ∧ AnsweredWith s t (.rdmaAck r.qp (bytesAt s.dram c 8)) ∧
            Stores s.dram t.dram c 8 (BitVec.ofNat 64 (numberAt s.dram c 8 + leNat (r.data.take 8)))) ∧
      (NotSilent s y.src →
        let n := match y.data with | some d => d.length | none => y.len
        let perm := if y.data.isSome then 54 else 55
        let sync := syncAt y.va
        ((∀ e ∈ s.mmu.inwin, ¬AdmitsPeer e.2 y.src y.va n perm) → refuse (.fylvathenInboundAccess y)) ∧
        (AdmittedIn s (fun e => AdmitsPeer e y.src y.va n perm) ctx → InboundPlace s .inbound ctx y.va n c y.data.isSome →
          (y.signal = true → ¬sync → refuse (.fylvathenInboundAccess y)) ∧
          (y.signal = false ∨ sync → ¬sync ∨ landed → ∀ bs, y.data = some bs →
            ∃ t, exec (.fylvathenInboundAccess y) s = .next t ∧ Holds s.dram t.dram c bs ∧ AnsweredWith s t (.peerAnswer y.src .ok [])) ∧
          (y.signal = false ∨ sync → y.data = none → CleanAt s.dram c n →
            ∃ t, exec (.fylvathenInboundAccess y) s = .next t ∧ t.dram = s.dram ∧ AnsweredWith s t (.peerAnswer y.src .ok (clean (bytesAt s.dram c n))))) ∧
        (let w := if y.wide = true ∨ 12 ≤ y.op then 8 else 4
         let known := (4 ≤ y.op ∧ y.op ≤ 14) ∨ (16 ≤ y.op ∧ y.op ≤ 23)
         let old := numberAt s.dram c w
         let v := y.val.toNat % 2 ^ (8 * w)
         let does := fun (m : Memory) => AdmittedIn s (fun e => AdmitsPeer e y.src y.va w 53) ctx → InboundPlace s .inboundAtomic ctx y.va w c true →
           Map.find s.fab.inbound (5 + 4 * y.src) = none → landed → CleanAt s.dram c w → (y.signal = false ∧ y.op < 16 ∨ sync) →
           ∃ t, exec (.fylvathenRemoteAtomic y) s = .next t ∧ t.dram.wf = true ∧ t.dram.pois = m.pois ∧ (∀ x, t.dram.byte x = m.byte x) ∧
             AnsweredWith s t (.peerAnswer y.src .ok (clean (bytesAt s.dram c w))) ∧
             t.sleepers = if 20 ≤ y.op then s.sleepers.filter fun x => x.1 ≠ c else s.sleepers
         (¬known ∨ y.va % w ≠ 0 ∨ (∀ e ∈ s.mmu.inwin, ¬AdmitsPeer e.2 y.src y.va w 53) → refuse (.fylvathenRemoteAtomic y)) ∧
         (y.va % w = 0 →
           (4 ≤ y.op → y.op ≤ 10 → ∀ m, Stores s.dram m c w (BitVec.ofNat 64 (atomicResult (y.op - 4) w old v)) → does m) ∧
           (y.op = 11 → ∀ m, (if old = v then Stores s.dram m c w (BitVec.ofNat 64 (y.cmp.toNat % 2 ^ (8 * w))) else m = s.dram) → does m) ∧
           (16 ≤ y.op → y.op ≤ 23 → ∀ m, Stores s.dram m c w (BitVec.ofNat 64 (signalled (y.op % 4) old v)) → does m))))) ∧
    ((dev ∈ s.fab.lost ∨ (allDown s dev = false ∧ Map.get 0 s.fab.timeouts dev < 8)) → exec (.deviceUnreachable dev) s = .next s) ∧
    (dev ∉ s.fab.lost → (allDown s dev = true ∨ 8 ≤ Map.get 0 s.fab.timeouts dev) → ∃ t, exec (.deviceUnreachable dev) s = .next t ∧
      t = { s with fab := { s.fab with lost := s.fab.lost ++ [dev] }, agenda := s.agenda ++ [.holderLostUpdate dev] }) ∧
    (∃ t, exec (.holderLostUpdate dev) s = .next t ∧
      (s.ranges = [] → landed → t = { s with old := [], mgmt := { s.mgmt with log := s.mgmt.log ++ [.holderLost dev] } }) ∧
      (s.ranges = [] → ¬landed → Retries s t (.holderLostUpdate dev)) ∧
      (∀ k va, s.ranges = [{ va, len := 32, ctx := k }] → va % 32 = 0 → HubLocal s engineKey k va 32 c false → Clean s c 32 →
        let x := numberAt s.dram c 32
        landed →
        (fieldOf x 160 16 ≠ dev → t = { s with old := [], mgmt := { s.mgmt with log := s.mgmt.log ++ [.holderLost dev] } }) ∧
        (fieldOf x 160 16 = dev → HubLocal s engineKey k va 32 c true → ∃ u v,
          hubWrite s .hub k (va + 16) (clean (leBytes 8 (fieldOf x 128 63 + 2 ^ 63))) true 4096 = (u, .done) ∧
          Stores s.dram u.dram (c + 16) 8 (BitVec.ofNat 64 (fieldOf x 128 63 + 2 ^ 63)) ∧
          v = (hubWrite (hubRelease u byHub k (va + 16) 8 63 true) .hub k (va + 8)
            (clean (leBytes 8 (fieldOf x 96 32 * 2 ^ 32 + (fieldOf x 64 32 + 1) % 2 ^ 32))) true 4096).1 ∧
          t = { v with old := [], rels := t.rels, mgmt := { v.mgmt with log := v.mgmt.log ++ [.holderLost dev] } })))

/-- R416 to R418, R420 to R422, R428: the ports and their flits. -/
def Obligations.Links : Prop :=
  ∀ (s : State) (port lane ack : Nat) (f : List Byte),
    let p := getPort s port
    let only := fun (i : Instr) (q : Port) => ∃ t, exec i s = .next t ∧ OnlyPort s t port q
    let then' := fun (i : Instr) (q : Port) (e : Event) => ∃ u t, exec i s = .next t ∧ OnlyPort s u port q ∧ Retries u t e
    let live := s.mgmt.powered = true ∧ p.up = true ∧ p.lanes ≠ [] ∧ p.retrain = false
    let seq := flitField f 232 3
    let src := flitField f 2 2
    let dst := flitField f 0 2
    let vl := flitField f 4 1 / 32
    let taken := { p with
      rxAck := seq, nakSent := false, credits := p.credits.mapIdx fun i n => n + flitField f (240 + i) 1
      buffer := vset p.buffer vl (vget p.buffer vl 0 + 1), replay := unacked p (flitField f 236 3)
      replaying := p.replaying && !(unacked p (flitField f 236 3)).isEmpty }
    (¬live → exec (.flitReceive port f) s = .next s) ∧
    (live → flitOk f = true → seq = (p.rxAck + 1) % 2 ^ 24 → (flitField f 236 4).testBit 31 = false → NotSilent s src →
      (dst = s.fab.devid → only (.flitReceive port f) taken) ∧
      (dst ≠ s.fab.devid → exitPort s dst = none → ∃ u t, exec (.flitReceive port f) s = .next t ∧ OnlyPort s u port taken ∧
        t = { u with mgmt := { s.mgmt with log := s.mgmt.log ++ [.discarded dst] } }) ∧
      (∀ o, dst ≠ s.fab.devid → exitPort s dst = some o → o ≠ port →
        (maySend (getPort s o) vl = false → ∃ t, exec (.flitReceive port f) s = .next t ∧ t = { s with agenda := .flitReceive port f :: s.agenda }) ∧
        (maySend (getPort s o) vl = true → f.length = 256 → ∃ t g, exec (.flitReceive port f) s = .next t ∧ t.fab.out = s.fab.out ++ [.flit o g] ∧
          g.take 232 = f.take 232 ∧ flitField g 232 3 = ((getPort s o).txSeq + 1) % 2 ^ 24 ∧ getPort t port = taken ∧
          (getPort t o).replay = (getPort s o).replay ++ [(((getPort s o).txSeq + 1) % 2 ^ 24, g)] ∧
          vget (getPort t o).credits vl 0 = vget (getPort s o).credits vl 0 - 1 ∧ ∀ i, i ≠ port → i ≠ o → getPort t i = getPort s i))) ∧
    (live → flitOk f = false →
      (p.nakSent = true → exec (.flitReceive port f) s = .next s) ∧
      (p.nakSent = false → ∃ u t, exec (.flitReceive port f) s = .next t ∧ OnlyPort s u port { p with nakSent := true } ∧ SendsOut u t (.nak port p.rxAck))) ∧
    (p.up = false ∨ p.lanes = [] ∨ p.retrain = true → exec (.flitNakReplay port ack) s = .next s) ∧
    (p.up = true → p.lanes ≠ [] → p.retrain = false → let left := unacked p ack
      ((p.replaying = false ∨ left = [] ∨ p.repair = none) → ∃ u t, exec (.flitNakReplay port ack) s = .next t ∧
        OnlyPort s u port { p with replay := left, replaying := !left.isEmpty } ∧
        t = { u with fab := { u.fab with out := u.fab.out ++ left.map fun x => .flit port x.2 } }) ∧
      (p.replaying = true → left ≠ [] → p.repair ≠ none → then' (.flitNakReplay port ack) { p with replay := left } (.portRetrain port))) ∧
    ((2 ≤ lane ∨ lane ∈ p.failing) → exec (.laneFailing port lane) s = .next s) ∧
    (lane < 2 → lane ∉ p.failing → let q := { p with failing := p.failing ++ [lane] }
      (1 - lane ∈ p.failing → then' (.laneFailing port lane) q (.portDown port)) ∧
      (1 - lane ∉ p.failing → then' (.laneFailing port lane) { q with repair := some p.txSeq } (.laneSwitch port))) ∧
    (p.repair = none → exec (.laneSwitch port) s = .next s) ∧
    (∀ q, p.repair = some q → let before := ∃ x ∈ p.replay, (q + 2 ^ 24 - x.1) % 2 ^ 24 < 2 ^ 23
      (before ∨ p.replaying = true → ∃ t, exec (.laneSwitch port) s = .next t ∧ Retries s t (.laneSwitch port)) ∧
      (¬before → p.replaying = false →
        only (.laneSwitch port) { p with lanes := p.lanes.filter fun l => decide (l ∉ p.failing), repair := none })) ∧
    then' (.portRetrain port) { p with retrain := true, replaying := false } (.retrainComplete port) ∧
    (p.retrain = false → exec (.retrainComplete port) s = .next s) ∧
    (p.retrain = true → ∃ u t, exec (.retrainComplete port) s = .next t ∧
      OnlyPort s u port { p with
        retrain := false, lanes := p.lanes.filter fun l => decide (l ∉ p.failing), repair := none, replaying := !p.replay.isEmpty } ∧
      t = { u with fab := { u.fab with out := u.fab.out ++ p.replay.map fun x => .flit port x.2 } }) ∧
    (∃ u t es, exec (.portDown port) s = .next t ∧ OnlyPort s u port { p with up := false } ∧ t = { u with agenda := s.agenda ++ es } ∧
      ∀ e ∈ es, ∃ d, e = .deviceUnreachable d ∧ d ∉ s.fab.lost ∧ allDown u d = true ∧ (Map.get 0 s.fab.routes d).getLsbD port = true) ∧
    (s.mgmt.powered = false ∨ 36 ≤ port ∨ (∀ l ∈ p.lanes, l ∈ p.failing) → exec (.portUp port) s = .next s) ∧
    (s.mgmt.powered = true → port < 36 → (∃ l ∈ p.lanes, l ∉ p.failing) → ∃ u t, exec (.portUp port) s = .next t ∧ OnlyPort s u port { p with up := true } ∧
      t = { u with agenda := t.agenda } ∧ (∀ e, e ∈ t.agenda → e ∈ s.agenda) ∧ ∀ e ∈ s.agenda, (∀ d, e ≠ .deviceUnreachable d) → e ∈ t.agenda)

namespace Sys2Proof.Machine

/-! ### Decoding and the step -/

/-- The references of a DEP word that R219 allows: at most three, none of distance 0 and none of engine 7. -/
def RefsLegal (deps : List (BitVec 3 × BitVec 5)) : Prop := deps.length ≤ 3 ∧ ∀ r ∈ deps, r.1 ≠ 7 ∧ r.2 ≠ 0

/-- The memory of the device and its frames' formats stand in their one canonical form. -/
structure Canonical (s : State) : Prop where
  dram  : s.dram.wf = true
  attrs : Map.rising s.attrs = true

/-- A core that steers, emits and runs nothing else: every queue is empty, no result of an xlat and no push is on its way. -/
structure Idle (k : Core) : Prop where
  queues : ∀ e, vget k.iss.queues e [] = []
  xlats  : k.iss.hpend = []
  push   : k.claim = none ∧ k.transit = none
  loads  : ∀ h ∈ vget k.iss.win 1 [], h.2 ≤ vget k.iss.heads 1 0

end Sys2Proof.Machine

/-- R183, R216, R219, R251, R390: a step runs what it decodes. The turn that State gives names the thing that happens; that it does is the model's
choice (log 14). -/
def Obligations.StepRuns : Prop :=
  ∀ (s v : State) (n c : Nat), s.turn = some n →
    v = { s with turn := none, time := s.time + 1, tstamp := s.tstamp + BitVec.ofNat 64 (Config.stepCycles s.time) } →
    let chosen := (turns v)[n % (turns v).length]?
    (∀ e w q, chosen = some (.issue c e) → vget (getCore v c).iss.queues (engIx e) [] = w :: q →
      let t := heedTokens (takeHead (settleRaces v c) c e) c
      step s = settleAfter c (keepRegs c w (getCore t c) (exec w.instr t)) ∧ t.word = some w ∧ t.core = c ∧
        t = { v with cores := t.cores, core := c, word := some w, free := t.free } ∧ ∀ d, d ≠ c → getCore t d = getCore v d) ∧
    (∀ u g ws, chosen = some (.steer c) → n / (turns v).length % 2 = 0 → (getCore v c).sys.step = false →
      fetchGroup v c (getCore v c).pc.toNat = (u, .ok (g, ws)) → g.deps = [] →
      let k := getCore u c
      let e := headEngine (lget ws g.head 0)
      let next := (getCore v c).pc + BitVec.ofNat 64 (4 * g.len)
      Idle k → (g.instr = .endTask → othersRetired k = true) → k.iss.trap = none → k.wick.run = false → k.iss.seq = (getCore v c).iss.seq → (k.handler = true ∨ vget k.sys.skip (engIx e) [] = []) →
        ∃ t w, step s = settleAfter c (keepRegs c w (getCore t c) (exec g.instr t)) ∧ Steered k e w g (getCore v c).pc next .fetched ∧ t.word = some w ∧ t.core = c ∧
          (here t).pc = next ∧ t = { u with cores := t.cores, core := c, word := some w, free := t.free } ∧ ∀ d, d ≠ c → getCore t d = getCore u d) ∧
    (∀ i, chosen = some (.wick c) → decodeMicro (Map.get 0 v.wcs (getCore v c).wick.wpc.toNat).toNat = .ok i →
      step s = settleAfter c (exec i { v with core := c, word := none })) ∧
    (∀ j e, chosen = some (.event j) → v.agenda[j]? = some e →
      ∃ i, (∀ x, runEvent e x = exec i x) ∧ step s = exec i { v with agenda := v.agenda.eraseIdx j }) ∧
    (∀ e, (chosen = some (.spont e) ∨ (chosen = some (.commit c) ∧ e = .taskCommit c) ∨ (chosen = some (.save c) ∧ e = .contextSave c 0)) →
      ∃ i, (∀ x, runEvent e x = exec i x) ∧ step s = exec i v)

/-- R216 to R221, R225 to R229, R391: groups that the spec writes out word by word, one or more of each engine, the groups that it says are refused,
and two micro-operations. -/
def Obligations.DecodeWords : Prop :=
  let reads := fun (ws : List Nat) (deps : List (BitVec 3 × BitVec 5)) (head : Nat) (i : Instr) =>
    decodeGroup ws = .ok { deps, instr := i, head, len := ws.length }
  let refused := fun (ws : List Nat) (code idx : Nat) => decodeGroup ws = .error { code, idx }
  reads [0x508CC000] [] 0 (.vst 3 6 0 0) ∧
  reads [0xE0000041, 0x151CD808] [(2, 1)] 1 (.ldsp 7 6 3 8) ∧
  reads [0xE1000091, 0x10141456] [] 1 (.addi 5 0 0x123456) ∧
  reads [0x82100400, 0xE2080000] [] 0 (.acz 1 0 1 2) ∧
  reads [0xE0030201, 0x22100040] [(0, 1), (0, 2), (0, 3)] 1 (.agset 1 0 64) ∧
  reads [0x55042000] [] 0 (.vins 1 1 0) ∧
  reads [0x658C2200] [] 0 (.xsmax 3 1 2 0) ∧
  reads [0x81001080, 0xE20403FC] [] 0 (.mma 0 0 0 2 2 0 1 0x3FC) ∧
  reads [0x80CB3800] [] 0 (.bldLut4 2 1 3 0) ∧
  reads [0xE0C30405, 0xA0844307] [(0, 5), (0, 4), (6, 3)] 1 (.cpy 1 2 3 7) ∧
  reads [0xC58C4BC2] [] 0 (.acasDevice 3 1 5 1 3 2) ∧
  reads [0xD1986041] [] 0 (.bwait 6 3 0 1 1) ∧
  refused [0x82100401, 0xE2080000] 1 0 ∧ refused [0xE00000E1, 0x151CD808] 14 0 ∧ refused [0xE0000040, 0x151CD808] 1 0 ∧
  refused [0xE1080091, 0x10141456] 1 0 ∧ refused [0x1A800000] 1 0 ∧ refused [0xE2080000] 2 0 ∧
  decodeMicro 0x18800000 = .ok (.ldpm 1 0) ∧ decodeMicro 0x5808020A = .ok (.loopw 1 0x20A)

/-- R216 to R222, R391: no bit of an encoding is dropped. Decoding the words of a well-formed instruction, with any legal references before it and any
words after it, gives the instruction and its references back. -/
def Obligations.DecodeEncode : Prop :=
  ∀ (i : Instr) (deps : List (BitVec 3 × BitVec 5)) (more : List Nat), wellFormed i = true →
    (encodeHead i ≠ none → RefsLegal deps →
      ∃ g, decodeGroup (encode deps i ++ more) = .ok g ∧ g.instr = i ∧ g.deps = deps ∧ g.len = (encode deps i).length) ∧
    (∀ w, encodeHead i = none → encodeMicro i = some w → decodeMicro w = .ok i ∧ encode deps i = [w])

/-- R37, R40, R42, R62: the model keeps the device memory, and the formats of its frames, in their one canonical form, so that equal memories are
equal data. The form is the model's own. -/
def Obligations.StepKeepsMemory : Prop := ∀ (s t : State), Canonical s → step s = .next t → Canonical t

/-- R62, R63, R80, R168: what reset leaves. -/
def Obligations.ResetState : Prop :=
  let s := State.reset
  Canonical s ∧ (∀ a, s.dram.byte a = 0) ∧ s.dram.pois = [] ∧ (∀ a, attrAt s a = { gran := 3, tol := false, tcls := 0 }) ∧
  (∀ c, (getCore s c).task = none ∧ (∀ r, sreg (getCore s c) r = 0) ∧ (getCore s c).mem.spad = .empty ∧ (getCore s c).mem.slot = .empty ∧
    (∀ m, mreg (getCore s c) m = if m = 0 then BitVec.allOnes 128 else 0) ∧ (∀ h : BitVec 4, hV (vget (getCore s c).h h.toNat 0) = false)) ∧
  s.queues = [] ∧ s.mmu.regions = [] ∧ s.mmu.inwin = [] ∧ s.wcs = [] ∧ s.mgmt.ready = false ∧ s.agenda = [.wipeComplete] ∧
  (∀ p, (getPort s p).up = false ∧ ∀ v, v < 8 → vget (getPort s p).credits v 0 = 64)
end

