-- ==== Sys2Proof/Laws/Map.lean ====
section
/-! SUPPORT. Maps, sets of numbers and byte memory: what a read gives after a write, and that every operation keeps the
canonical form. -/

namespace Sys2Proof.Machine

/-! ### Maps -/

theorem Map.find_set {α : Type} (m : Map α) (i j : Nat) (a : α) :
    Map.find (Map.set m i a) j = if i = j then some a else Map.find m j := by
  induction m with
  | nil => simp only [Map.set, Map.find, eq_comm (a := j)]
  | cons p m ih =>
    obtain ⟨k, v⟩ := p
    simp only [Map.set]
    split
    · simp only [Map.find, eq_comm (a := j) (b := i)]
    · split
      · next h => subst h; simp only [Map.find, eq_comm (a := j)]; split <;> rfl
      · next h =>
        simp only [Map.find, ih]
        split
        · next hjk => subst hjk; rw [if_neg h]
        · rfl

@[simp] theorem Map.find_set_self {α : Type} (m : Map α) (i : Nat) (a : α) : Map.find (Map.set m i a) i = some a := by
  simp [Map.find_set]

theorem Map.find_set_ne {α : Type} (m : Map α) {i j : Nat} (a : α) (h : i ≠ j) :
    Map.find (Map.set m i a) j = Map.find m j := by
  simp [Map.find_set, h]

theorem Map.get_set {α : Type} (d : α) (m : Map α) (i j : Nat) (a : α) :
    Map.get d (Map.set m i a) j = if i = j then a else Map.get d m j := by
  unfold Map.get; rw [Map.find_set]; split <;> rfl

@[simp] theorem Map.get_set_self {α : Type} (d : α) (m : Map α) (i : Nat) (a : α) : Map.get d (Map.set m i a) i = a := by
  simp [Map.get_set]

theorem Map.get_set_ne {α : Type} (d : α) (m : Map α) {i j : Nat} (a : α) (h : i ≠ j) :
    Map.get d (Map.set m i a) j = Map.get d m j := by
  simp [Map.get_set, h]

/-- Every key of a map is at least a bound. -/
def Map.above {α : Type} (b : Nat) (m : Map α) : Prop := ∀ p ∈ m, b ≤ p.1

theorem Map.rising_cons {α : Type} (k : Nat) (v : α) (m : Map α) :
    Map.rising ((k, v) :: m) = true ↔ Map.above (k + 1) m ∧ Map.rising m = true := by
  induction m generalizing k v with
  | nil => simp [Map.rising, Map.above]
  | cons p m ih =>
    obtain ⟨k', v'⟩ := p
    simp only [Map.rising, Bool.and_eq_true, decide_eq_true_eq]
    constructor
    · rintro ⟨h1, h2⟩
      refine ⟨?_, h2⟩
      intro q hq
      rcases List.mem_cons.mp hq with rfl | hq
      · exact h1
      · have := ((ih k' v').mp h2).1 q hq; omega
    · rintro ⟨h1, h2⟩
      exact ⟨h1 (k', v') (List.mem_cons_self ..), h2⟩

theorem Map.find_above {α : Type} {b i : Nat} {m : Map α} (h : Map.above b m) (hi : i < b) : Map.find m i = none := by
  induction m with
  | nil => rfl
  | cons p m ih =>
    obtain ⟨k, v⟩ := p
    have hk := h (k, v) (List.mem_cons_self ..)
    simp only [Map.find]
    rw [if_neg (by simp at hk; omega)]
    exact ih fun q hq => h q (List.mem_cons_of_mem _ hq)

theorem Map.mem_set {α : Type} {m : Map α} {i : Nat} {a : α} {p : Nat × α} (h : p ∈ Map.set m i a) : p = (i, a) ∨ p ∈ m := by
  induction m with
  | nil => simp [Map.set] at h; exact .inl h
  | cons q m ih =>
    obtain ⟨k, v⟩ := q
    simp only [Map.set] at h
    split at h
    · simpa using h
    · split at h
      · rcases List.mem_cons.mp h with h | h
        · exact .inl h
        · exact .inr (List.mem_cons_of_mem _ h)
      · rcases List.mem_cons.mp h with h | h
        · exact .inr (h ▸ List.mem_cons_self ..)
        · exact (ih h).imp_right (List.mem_cons_of_mem _)

theorem Map.mem_erase {α : Type} {m : Map α} {i : Nat} {p : Nat × α} (h : p ∈ Map.erase m i) : p ∈ m := by
  induction m with
  | nil => simp [Map.erase] at h
  | cons q m ih =>
    obtain ⟨k, v⟩ := q
    simp only [Map.erase] at h
    split at h
    · exact List.mem_cons_of_mem _ h
    · rcases List.mem_cons.mp h with h | h
      · exact h ▸ List.mem_cons_self ..
      · exact List.mem_cons_of_mem _ (ih h)

theorem Map.rising_set {α : Type} {m : Map α} (h : Map.rising m = true) (i : Nat) (a : α) :
    Map.rising (Map.set m i a) = true := by
  induction m with
  | nil => rfl
  | cons p m ih =>
    obtain ⟨k, v⟩ := p
    obtain ⟨ha, hr⟩ := (Map.rising_cons k v m).mp h
    simp only [Map.set]
    split
    · next hik =>
      refine (Map.rising_cons i a _).mpr ⟨fun q hq => ?_, h⟩
      rcases List.mem_cons.mp hq with rfl | hq
      · exact hik
      · have := ha q hq; omega
    · split
      · next hik => subst hik; exact (Map.rising_cons i a m).mpr ⟨ha, hr⟩
      · refine (Map.rising_cons k v _).mpr ⟨fun q hq => ?_, ih hr⟩
        rcases Map.mem_set hq with rfl | hq
        · simp; omega
        · exact ha q hq

theorem Map.rising_erase {α : Type} {m : Map α} (h : Map.rising m = true) (i : Nat) : Map.rising (Map.erase m i) = true := by
  induction m with
  | nil => rfl
  | cons p m ih =>
    obtain ⟨k, v⟩ := p
    obtain ⟨ha, hr⟩ := (Map.rising_cons k v m).mp h
    simp only [Map.erase]
    split
    · exact hr
    · exact (Map.rising_cons k v _).mpr ⟨fun q hq => ha q (Map.mem_erase hq), ih hr⟩

theorem Map.find_erase {α : Type} {m : Map α} (h : Map.rising m = true) (i j : Nat) :
    Map.find (Map.erase m i) j = if i = j then none else Map.find m j := by
  induction m with
  | nil => simp [Map.erase, Map.find]
  | cons p m ih =>
    obtain ⟨k, v⟩ := p
    obtain ⟨ha, hr⟩ := (Map.rising_cons k v m).mp h
    simp only [Map.erase]
    split
    · next hik =>
      subst hik
      simp only [Map.find]
      split
      · next hij => subst hij; exact Map.find_above ha (by omega)
      · rw [if_neg (by omega)]
    · simp only [Map.find, ih hr]
      split
      · next hik hjk => subst hjk; rw [if_neg hik]
      · rfl

/-- What stands at a key once every entry of a key is gone. -/
theorem Map.find_without {α : Type} (m : Map α) (i j : Nat) :
    Map.find (Map.without m i) j = if i = j then none else Map.find m j := by
  unfold Map.without
  induction m with
  | nil => simp [Map.find]
  | cons p m ih =>
    obtain ⟨k, v⟩ := p
    rw [List.filter_cons]
    by_cases hk : k = i
    · subst hk
      simp only [ne_eq, not_true_eq_false, decide_false, Bool.false_eq_true, if_false, ih, Map.find]
      by_cases h : k = j
      · rw [if_pos h, if_pos h]
      · rw [if_neg h, if_neg h, if_neg fun e => h e.symm]
    · simp only [ne_eq, hk, not_false_eq_true, decide_true, if_true, Map.find, ih]
      by_cases h : j = k
      · subst h; rw [if_pos rfl, if_pos rfl, if_neg fun e => hk e.symm]
      · rw [if_neg h, if_neg h]

theorem Map.rising_put {α : Type} [DecidableEq α] (d : α) {m : Map α} (h : Map.rising m = true) (i : Nat) (a : α) :
    Map.rising (Map.put d m i a) = true := by
  unfold Map.put; split
  · exact Map.rising_erase h i
  · exact Map.rising_set h i a

theorem Map.get_put {α : Type} [DecidableEq α] (d : α) {m : Map α} (h : Map.rising m = true) (i j : Nat) (a : α) :
    Map.get d (Map.put d m i a) j = if i = j then a else Map.get d m j := by
  unfold Map.put; split
  · next had => unfold Map.get; rw [Map.find_erase h]; split <;> simp [had]
  · exact Map.get_set d m i j a

/-! ### Sets of numbers -/

theorem NatSet.rising_cons (k : Nat) (m : List Nat) :
    NatSet.rising (k :: m) = true ↔ (∀ x ∈ m, k < x) ∧ NatSet.rising m = true := by
  induction m generalizing k with
  | nil => simp [NatSet.rising]
  | cons k' m ih =>
    simp only [NatSet.rising, Bool.and_eq_true, decide_eq_true_eq]
    constructor
    · rintro ⟨h1, h2⟩
      refine ⟨?_, h2⟩
      intro q hq
      rcases List.mem_cons.mp hq with rfl | hq
      · exact h1
      · have := ((ih k').mp h2).1 q hq; omega
    · rintro ⟨h1, h2⟩
      exact ⟨h1 k' (List.mem_cons_self ..), h2⟩

theorem NatSet.mem_insert {m : List Nat} {i x : Nat} : x ∈ NatSet.insert m i ↔ x = i ∨ x ∈ m := by
  induction m with
  | nil => simp [NatSet.insert]
  | cons k m ih =>
    simp only [NatSet.insert]
    split
    · simp
    · split
      · next h => subst h; simp
      · simp only [List.mem_cons, ih]; constructor
        · rintro (h | h | h) <;> simp [h]
        · rintro (h | h | h) <;> simp [h]

theorem NatSet.rising_insert {m : List Nat} (h : NatSet.rising m = true) (i : Nat) :
    NatSet.rising (NatSet.insert m i) = true := by
  induction m with
  | nil => rfl
  | cons k m ih =>
    obtain ⟨ha, hr⟩ := (NatSet.rising_cons k m).mp h
    simp only [NatSet.insert]
    split
    · next hik =>
      refine (NatSet.rising_cons i _).mpr ⟨fun q hq => ?_, h⟩
      rcases List.mem_cons.mp hq with rfl | hq
      · exact hik
      · have := ha q hq; omega
    · split
      · next hik => subst hik; exact h
      · refine (NatSet.rising_cons k _).mpr ⟨fun q hq => ?_, ih hr⟩
        rcases NatSet.mem_insert.mp hq with rfl | hq
        · omega
        · exact ha q hq

theorem NatSet.mem_of_erase {m : List Nat} {i x : Nat} (h : x ∈ NatSet.erase m i) : x ∈ m := by
  induction m with
  | nil => simp [NatSet.erase] at h
  | cons k m ih =>
    simp only [NatSet.erase] at h
    split at h
    · exact List.mem_cons_of_mem _ h
    · rcases List.mem_cons.mp h with h | h
      · exact h ▸ List.mem_cons_self ..
      · exact List.mem_cons_of_mem _ (ih h)

theorem NatSet.mem_erase {m : List Nat} (h : NatSet.rising m = true) {i x : Nat} :
    x ∈ NatSet.erase m i ↔ x ≠ i ∧ x ∈ m := by
  induction m with
  | nil => simp [NatSet.erase]
  | cons k m ih =>
    obtain ⟨ha, hr⟩ := (NatSet.rising_cons k m).mp h
    simp only [NatSet.erase]
    split
    · next hik =>
      subst hik
      constructor
      · intro hx; have := ha x hx; exact ⟨by omega, List.mem_cons_of_mem _ hx⟩
      · rintro ⟨h1, h2⟩; exact (List.mem_cons.mp h2).resolve_left h1
    · next hik =>
      simp only [List.mem_cons, ih hr]
      constructor
      · rintro (rfl | ⟨h1, h2⟩)
        · exact ⟨fun e => hik e.symm, .inl rfl⟩
        · exact ⟨h1, .inr h2⟩
      · rintro ⟨h1, h2 | h2⟩
        · exact .inl h2
        · exact .inr ⟨h1, h2⟩

theorem NatSet.rising_erase {m : List Nat} (h : NatSet.rising m = true) (i : Nat) :
    NatSet.rising (NatSet.erase m i) = true := by
  induction m with
  | nil => rfl
  | cons k m ih =>
    obtain ⟨ha, hr⟩ := (NatSet.rising_cons k m).mp h
    simp only [NatSet.erase]
    split
    · exact hr
    · exact (NatSet.rising_cons k _).mpr ⟨fun q hq => ha q (NatSet.mem_of_erase hq), ih hr⟩

theorem NatSet.rising_put {m : List Nat} (h : NatSet.rising m = true) (i : Nat) (b : Bool) :
    NatSet.rising (NatSet.put m i b) = true := by
  cases b
  · exact NatSet.rising_erase h i
  · exact NatSet.rising_insert h i

theorem NatSet.rising_filter {m : List Nat} (h : NatSet.rising m = true) (f : Nat → Bool) :
    NatSet.rising (m.filter f) = true := by
  induction m with
  | nil => rfl
  | cons k m ih =>
    obtain ⟨ha, hr⟩ := (NatSet.rising_cons k m).mp h
    rw [List.filter_cons]
    split
    · exact (NatSet.rising_cons k _).mpr ⟨fun q hq => ha q (List.mem_filter.mp hq).1, ih hr⟩
    · exact ih hr

end Sys2Proof.Machine
end

