-- ==== Sys2Proof/Laws/Memory.lean ====
section
/-! SUPPORT. Byte memory: what a read gives after a write, and that every memory operation keeps the canonical form. -/

namespace Sys2Proof.Machine

/-! ### Entries in a row -/

theorem Map.find_append {α : Type} (l m : Map α) (x : Nat) : Map.find (l ++ m) x = (Map.find l x).or (Map.find m x) := by
  induction l with
  | nil => rfl
  | cons p l ih =>
    obtain ⟨k, v⟩ := p
    simp only [List.cons_append, Map.find, ih]
    split <;> rfl

theorem Map.rising_append {α : Type} {l m : Map α} (hl : Map.rising l = true) (hm : Map.rising m = true)
    (h : ∀ p ∈ l, ∀ q ∈ m, p.1 < q.1) : Map.rising (l ++ m) = true := by
  induction l with
  | nil => exact hm
  | cons p l ih =>
    obtain ⟨k, v⟩ := p
    obtain ⟨ha, hr⟩ := (Map.rising_cons k v l).mp hl
    refine (Map.rising_cons k v _).mpr ⟨fun q hq => ?_, ih hr fun p hp => h p (List.mem_cons_of_mem _ hp)⟩
    rcases List.mem_append.mp hq with hq | hq
    · exact ha q hq
    · exact h (k, v) (List.mem_cons_self ..) q hq

theorem Map.rising_takeWhile {α : Type} {m : Map α} (h : Map.rising m = true) (f : Nat × α → Bool) :
    Map.rising (m.takeWhile f) = true := by
  induction m with
  | nil => rfl
  | cons p m ih =>
    obtain ⟨k, v⟩ := p
    obtain ⟨ha, hr⟩ := (Map.rising_cons k v m).mp h
    rw [List.takeWhile_cons]
    split
    · exact (Map.rising_cons k v _).mpr ⟨fun q hq => ha q ((List.takeWhile_sublist _).mem hq), ih hr⟩
    · rfl

theorem Map.rising_dropWhile {α : Type} {m : Map α} (h : Map.rising m = true) (f : Nat × α → Bool) :
    Map.rising (m.dropWhile f) = true := by
  induction m with
  | nil => rfl
  | cons p m ih =>
    obtain ⟨k, v⟩ := p
    rw [List.dropWhile_cons]
    split
    · exact ih ((Map.rising_cons k v m).mp h).2
    · exact h

theorem Map.lt_of_mem_takeWhile {α : Type} {m : Map α} {a : Nat} {p : Nat × α}
    (h : p ∈ m.takeWhile fun c => decide (c.1 < a)) : p.1 < a := by
  induction m with
  | nil => simp at h
  | cons q m ih =>
    rw [List.takeWhile_cons] at h
    split at h
    · next hq =>
      rcases List.mem_cons.mp h with rfl | h
      · exact of_decide_eq_true hq
      · exact ih h
    · simp at h

theorem Map.le_of_mem_dropWhile {α : Type} {m : Map α} (hm : Map.rising m = true) {b : Nat} {p : Nat × α}
    (h : p ∈ m.dropWhile fun c => decide (c.1 < b)) : b ≤ p.1 := by
  induction m with
  | nil => simp at h
  | cons q m ih =>
    obtain ⟨k, v⟩ := q
    obtain ⟨ha, hr⟩ := (Map.rising_cons k v m).mp hm
    rw [List.dropWhile_cons] at h
    split at h
    · exact ih hr h
    · next hq =>
      simp at hq
      rcases List.mem_cons.mp h with rfl | h
      · exact hq
      · have := ha p h; omega

theorem Map.find_takeWhile {α : Type} {m : Map α} (hm : Map.rising m = true) (a x : Nat) :
    Map.find (m.takeWhile fun c => decide (c.1 < a)) x = if x < a then Map.find m x else none := by
  induction m with
  | nil => simp [Map.find]
  | cons q m ih =>
    obtain ⟨k, v⟩ := q
    obtain ⟨ha, hr⟩ := (Map.rising_cons k v m).mp hm
    rw [List.takeWhile_cons]
    by_cases hk : k < a
    · rw [if_pos (by simpa using hk)]
      simp only [Map.find, ih hr]
      split
      · next h => subst h; rw [if_pos hk]
      · rfl
    · rw [if_neg (by simpa using hk)]
      split
      · simp only [Map.find]
        rw [if_neg (by omega), Map.find_above ha (by omega)]
      · rfl

theorem Map.find_dropWhile {α : Type} {m : Map α} (hm : Map.rising m = true) (b x : Nat) :
    Map.find (m.dropWhile fun c => decide (c.1 < b)) x = if x < b then none else Map.find m x := by
  induction m with
  | nil => simp [Map.find]
  | cons q m ih =>
    obtain ⟨k, v⟩ := q
    obtain ⟨ha, hr⟩ := (Map.rising_cons k v m).mp hm
    rw [List.dropWhile_cons]
    by_cases hk : k < b
    · rw [if_pos (by simpa using hk), ih hr]
      split
      · rfl
      · simp only [Map.find]
        rw [if_neg (by omega)]
    · rw [if_neg (by simpa using hk)]
      split
      · simp only [Map.find]
        rw [if_neg (by omega), Map.find_above ha (by omega)]
      · rfl

theorem Map.find_below {α : Type} {b i : Nat} {m : Map α} (h : ∀ p ∈ m, p.1 < b) (hi : b ≤ i) : Map.find m i = none := by
  induction m with
  | nil => rfl
  | cons p m ih =>
    obtain ⟨k, v⟩ := p
    have hk := h (k, v) (List.mem_cons_self ..)
    simp only [Map.find]
    rw [if_neg (by simp at hk; omega)]
    exact ih fun q hq => h q (List.mem_cons_of_mem _ hq)

/-! ### Entries of bytes -/

theorem Memory.entries_mem {a : Nat} {bs : List Byte} {p : Host.Cell} (h : p ∈ Memory.entries a bs) :
    a ≤ p.1 ∧ p.1 < a + bs.length ∧ p.2 ≠ 0 := by
  induction bs generalizing a with
  | nil => simp [Memory.entries] at h
  | cons b bs ih =>
    simp only [Memory.entries] at h
    simp only [List.length_cons]
    split at h
    · have := ih h; exact ⟨by omega, by omega, this.2.2⟩
    · rcases List.mem_cons.mp h with rfl | h
      · exact ⟨Nat.le_refl _, by simp, by assumption⟩
      · have := ih h; exact ⟨by omega, by omega, this.2.2⟩

theorem Memory.entries_rising (a : Nat) (bs : List Byte) : Map.rising (Memory.entries a bs) = true := by
  induction bs generalizing a with
  | nil => rfl
  | cons b bs ih =>
    simp only [Memory.entries]
    split
    · exact ih (a + 1)
    · exact (Map.rising_cons a b _).mpr ⟨fun q hq => (Memory.entries_mem hq).1, ih (a + 1)⟩

theorem Memory.get_entries (a : Nat) (bs : List Byte) (x : Nat) :
    (Map.find (Memory.entries a bs) x).getD 0 = if a ≤ x then lget bs (x - a) 0 else 0 := by
  induction bs generalizing a with
  | nil => simp [Memory.entries, Map.find, lget]
  | cons b bs ih =>
    by_cases hx : x = a
    · subst hx
      simp only [Memory.entries]
      split
      · next hb => rw [Map.find_above (b := x + 1) (fun q hq => (Memory.entries_mem hq).1) (by omega)]; simp [lget, hb]
      · simp [Map.find, lget]
    · have step : (Map.find (Memory.entries a (b :: bs)) x).getD 0 = (Map.find (Memory.entries (a + 1) bs) x).getD 0 := by
        simp only [Memory.entries]; split
        · rfl
        · simp [Map.find, hx]
      rw [step, ih]
      by_cases hle : a ≤ x
      · rw [if_pos (by omega), if_pos hle, show x - a = (x - (a + 1)) + 1 by omega]; simp [lget]
      · rw [if_neg (by omega), if_neg hle]

/-! ### No zero byte is listed -/

theorem Memory.noZero_iff (m : List Host.Cell) : Memory.noZero m = true ↔ ∀ p ∈ m, p.2 ≠ 0 := by
  induction m with
  | nil => simp [Memory.noZero]
  | cons p m ih => obtain ⟨k, v⟩ := p; simp [Memory.noZero, ih]

theorem Memory.wf_iff (m : Memory) :
    m.wf = true ↔ Map.rising m.cells = true ∧ (∀ p ∈ m.cells, p.2 ≠ 0) ∧ NatSet.rising m.pois = true := by
  simp [Memory.wf, Memory.noZero_iff, and_assoc]

/-! ### Writing bytes -/

/-- The canonical form is kept by a write of bytes. -/
theorem Memory.setBytes_wf {m : Memory} (h : m.wf = true) (a : Nat) (bs : List Byte) : (m.setBytes a bs).wf = true := by
  obtain ⟨hr, hz, hp⟩ := (Memory.wf_iff m).mp h
  refine (Memory.wf_iff _).mpr ⟨?_, ?_, hp⟩
  · refine Map.rising_append (Map.rising_append (Map.rising_takeWhile hr _) (Memory.entries_rising a bs) ?_)
      (Map.rising_dropWhile hr _) ?_
    · intro p hp q hq
      have h1 := Map.lt_of_mem_takeWhile hp
      have h2 := (Memory.entries_mem hq).1
      omega
    · intro p hp q hq
      have h2 := Map.le_of_mem_dropWhile hr hq
      rcases List.mem_append.mp hp with hp | hp
      · have h1 := Map.lt_of_mem_takeWhile hp; omega
      · have h1 := (Memory.entries_mem hp).2.1; omega
  · intro p hp
    rcases List.mem_append.mp hp with hp | hp
    · rcases List.mem_append.mp hp with hp | hp
      · exact hz p ((List.takeWhile_sublist _).mem hp)
      · exact (Memory.entries_mem hp).2.2
    · exact hz p ((List.dropWhile_sublist _).mem hp)

/-- A byte after a write: the byte written inside the range, the old byte outside it. -/
theorem Memory.byte_setBytes {m : Memory} (h : m.wf = true) (a : Nat) (bs : List Byte) (x : Nat) :
    (m.setBytes a bs).byte x = if a ≤ x ∧ x < a + bs.length then lget bs (x - a) 0 else m.byte x := by
  obtain ⟨hr, -, -⟩ := (Memory.wf_iff m).mp h
  unfold Memory.byte Map.get Memory.setBytes
  simp only [Map.find_append]
  rw [Map.find_takeWhile hr, Map.find_dropWhile hr]
  by_cases h1 : x < a
  · rw [if_pos h1, if_pos (by omega : x < a + bs.length), if_neg (by omega)]
    have : Map.find (Memory.entries a bs) x = none :=
      Map.find_above (b := a) (fun q hq => (Memory.entries_mem hq).1) h1
    simp [this]
  · rw [if_neg h1]
    by_cases h2 : x < a + bs.length
    · rw [if_pos h2, if_pos ⟨by omega, h2⟩]
      have := Memory.get_entries a bs x
      rw [if_pos (by omega)] at this
      simpa using this
    · rw [if_neg h2, if_neg (by omega)]
      have : Map.find (Memory.entries a bs) x = none := by
        refine Map.find_below (b := a + bs.length) (fun q hq => (Memory.entries_mem hq).2.1) (by omega)
      simp [this]

/-! ### Poison, clearing, writes by grain -/

theorem Memory.empty_wf : Memory.empty.wf = true := rfl

theorem Memory.setGrain_wf {m : Memory} (h : m.wf = true) (g : Nat) (b : Bool) : (m.setGrain g b).wf = true := by
  obtain ⟨hr, hz, hp⟩ := (Memory.wf_iff m).mp h
  exact (Memory.wf_iff _).mpr ⟨hr, hz, NatSet.rising_put hp g b⟩

theorem Memory.filter_wf {m : Memory} (h : m.wf = true) (f : Nat → Bool) :
    ({ m with pois := m.pois.filter f } : Memory).wf = true := by
  obtain ⟨hr, hz, hp⟩ := (Memory.wf_iff m).mp h
  exact (Memory.wf_iff _).mpr ⟨hr, hz, NatSet.rising_filter hp f⟩

theorem Memory.clear_wf {m : Memory} (h : m.wf = true) (g a n : Nat) : (m.clear g a n).wf = true := by
  obtain ⟨hr, hz, hp⟩ := (Memory.wf_iff m).mp h
  refine (Memory.wf_iff _).mpr ⟨?_, ?_, NatSet.rising_filter hp _⟩
  · refine Map.rising_append (Map.rising_takeWhile hr _) (Map.rising_dropWhile hr _) fun p hp q hq => ?_
    have h1 := Map.lt_of_mem_takeWhile hp
    have h2 := Map.le_of_mem_dropWhile hr hq
    omega
  · intro p hp
    rcases List.mem_append.mp hp with hp | hp
    · exact hz p ((List.takeWhile_sublist _).mem hp)
    · exact hz p ((List.dropWhile_sublist _).mem hp)

/-- A byte after a range is cleared. -/
theorem Memory.byte_clear {m : Memory} (h : m.wf = true) (g a n x : Nat) :
    (m.clear g a n).byte x = if a ≤ x ∧ x < a + n then 0 else m.byte x := by
  obtain ⟨hr, -, -⟩ := (Memory.wf_iff m).mp h
  unfold Memory.byte Map.get Memory.clear
  simp only [Map.find_append]
  rw [Map.find_takeWhile hr, Map.find_dropWhile hr]
  by_cases h1 : x < a
  · rw [if_pos h1, if_pos (by omega : x < a + n), if_neg (by omega)]; simp
  · by_cases h2 : x < a + n
    · rw [if_neg h1, if_pos h2, if_pos ⟨by omega, h2⟩]; rfl
    · rw [if_neg h1, if_neg h2, if_neg (by omega)]; rfl

theorem Memory.foldl_wf {α : Type} (f : Memory → α → Memory) (hf : ∀ m x, m.wf = true → (f m x).wf = true) (l : List α)
    {m : Memory} (h : m.wf = true) : (l.foldl f m).wf = true := by
  induction l generalizing m with
  | nil => exact h
  | cons x l ih => exact ih (hf m x h)

theorem Memory.foldl_cells {α : Type} (f : Memory → α → Memory) (hf : ∀ m x, (f m x).cells = m.cells) (l : List α)
    (m : Memory) : (l.foldl f m).cells = m.cells := by
  induction l generalizing m with
  | nil => rfl
  | cons x l ih => rw [List.foldl_cons, ih, hf]

/-- The canonical form is kept by a write of bytes with their poison. -/
theorem Memory.write_wf {m : Memory} (h : m.wf = true) (g u a : Nat) (bs : List PByte) : (m.write g u a bs).wf = true := by
  unfold Memory.write
  refine Memory.foldl_wf _ (fun m c hm => ?_) _ (Memory.setBytes_wf h a _)
  dsimp only
  split
  · exact Memory.foldl_wf _ (fun m k hm => Memory.setGrain_wf hm k true) _ hm
  · split
    · exact Memory.filter_wf hm _
    · exact hm

theorem Memory.write_cells (m : Memory) (g u a : Nat) (bs : List PByte) :
    (m.write g u a bs).cells = (m.setBytes a (bs.map (·.1))).cells := by
  unfold Memory.write
  refine Memory.foldl_cells _ (fun m c => ?_) _ _
  dsimp only
  split
  · exact Memory.foldl_cells (fun (m : Memory) (k : Nat) => m.setGrain k true) (fun m k => rfl) _ _
  · split <;> rfl

/-- A byte after a write of bytes with their poison. -/
theorem Memory.byte_write {m : Memory} (h : m.wf = true) (g u a : Nat) (bs : List PByte) (x : Nat) :
    (m.write g u a bs).byte x = if a ≤ x ∧ x < a + bs.length then lget (bs.map (·.1)) (x - a) 0 else m.byte x := by
  have := Memory.byte_setBytes h a (bs.map (·.1)) x
  unfold Memory.byte at this ⊢
  rw [Memory.write_cells, this, List.length_map]

/-! ### Reading bytes -/

theorem Memory.pull_length (n a : Nat) (m : List Host.Cell) : (Memory.pull n a m).length = n := by
  induction n generalizing a m with
  | zero => rfl
  | succ n ih =>
    cases m with
    | nil => simp [Memory.pull, ih]
    | cons p m => obtain ⟨k, v⟩ := p; simp only [Memory.pull]; split <;> simp [ih]

theorem Memory.pull_get (n a : Nat) (m : List Host.Cell) (hr : Map.rising m = true) (ha : Map.above a m) (i : Nat)
    (hi : i < n) : (Memory.pull n a m)[i]? = some (Map.get 0 m (a + i)) := by
  induction n generalizing a m i with
  | zero => omega
  | succ n ih =>
    cases m with
    | nil =>
      simp only [Memory.pull]
      cases i with
      | zero => rfl
      | succ i =>
        rw [List.getElem?_cons_succ, ih (a + 1) [] rfl (fun q hq => by simp at hq) i (by omega)]
        rfl
    | cons p m =>
      obtain ⟨k, v⟩ := p
      obtain ⟨hab, hr'⟩ := (Map.rising_cons k v m).mp hr
      have hk : a ≤ k := ha (k, v) (List.mem_cons_self ..)
      simp only [Memory.pull]
      split
      · next hka =>
        subst hka
        cases i with
        | zero => simp [Map.get, Map.find]
        | succ i =>
          rw [List.getElem?_cons_succ, ih (k + 1) m hr' hab i (by omega)]
          simp only [Map.get, Map.find]
          rw [if_neg (by omega), show k + 1 + i = k + (i + 1) by omega]
      · next hka =>
        have hab' : Map.above (a + 1) ((k, v) :: m) := by
          intro q hq
          rcases List.mem_cons.mp hq with rfl | hq
          · simp; omega
          · have := hab q hq; omega
        cases i with
        | zero => rw [Map.get, Map.find_above hab' (by omega)]; rfl
        | succ i =>
          rw [List.getElem?_cons_succ, ih (a + 1) _ hr hab' i (by omega), show a + 1 + i = a + (i + 1) by omega]

/-- The bytes that a read gives are those of the addresses it names. -/
theorem Memory.bytes_get {m : Memory} (h : m.wf = true) (a n i : Nat) (hi : i < n) :
    (m.bytes a n)[i]? = some (m.byte (a + i)) := by
  obtain ⟨hr, -, -⟩ := (Memory.wf_iff m).mp h
  unfold Memory.bytes Memory.byte
  rw [Memory.pull_get n a _ (Map.rising_dropWhile hr _) (fun q hq => Map.le_of_mem_dropWhile hr hq) i hi]
  unfold Map.get
  rw [Map.find_dropWhile hr, if_neg (by omega)]

@[simp] theorem Memory.bytes_length (m : Memory) (a n : Nat) : (m.bytes a n).length = n := Memory.pull_length n a _

@[simp] theorem Memory.read_length (m : Memory) (g a n : Nat) : (m.read g a n).length = n := by
  simp [Memory.read]

/-- Bytes read where they were written are the bytes written. -/
theorem Memory.bytes_setBytes {m : Memory} (h : m.wf = true) (a : Nat) (bs : List Byte) :
    (m.setBytes a bs).bytes a bs.length = bs := by
  apply List.ext_getElem?
  intro i
  by_cases hi : i < bs.length
  · rw [Memory.bytes_get (Memory.setBytes_wf h a bs) a _ i hi, Memory.byte_setBytes h, if_pos ⟨by omega, by omega⟩]
    simp [lget, hi]
  · rw [List.getElem?_eq_none (by simp; omega), List.getElem?_eq_none (by omega)]

end Sys2Proof.Machine
end

