-- ==== Sys2Proof/Laws/Dram.lean ====
section
/-! SUPPORT. The named memory operations of the model keep the canonical form of the memory that they write. -/

namespace Sys2Proof.Machine

/-- A fold over states keeps what each of its steps keeps. -/
theorem foldl_keeps {σ α : Type} (P : σ → Prop) (f : σ → α → σ) (hf : ∀ s x, P s → P (f s x)) (l : List α) {s : σ}
    (h : P s) : P (l.foldl f s) := by
  induction l generalizing s with
  | nil => exact h
  | cons x l ih => exact ih (hf s x h)

/-! ### Scratchpad -/

theorem spadWrite_wf {m : Memory} (h : m.wf = true) (off : Nat) (bs : List PByte) : (spadWrite m off bs).wf = true :=
  Memory.foldl_wf _ (fun _ _ hm => Memory.write_wf hm _ _ _ _) _ h

theorem barrierUpdate_wf {m : Memory} (h : m.wf = true) (off n : Nat) (b : Int) (p : Bool) :
    (barrierUpdate m off n b p).wf = true := spadWrite_wf h _ _

theorem countAt_wf {m : Memory} (h : m.wf = true) (bar : Option Nat) (n r : Nat) (p late : Bool) :
    (countAt m bar n r p late).wf = true := by
  unfold countAt
  split
  · exact h
  · dsimp only
    split
    · split
      · exact h
      · exact barrierUpdate_wf h _ _ _ _
    · split
      · exact barrierUpdate_wf h _ _ _ _
      · exact barrierUpdate_wf (barrierUpdate_wf h _ _ _ _) _ _ _ _

theorem lanesImage_wf (v : Map Lane) : (lanesImage v).wf = true :=
  Memory.foldl_wf _ (fun _ _ hm => Memory.setBytes_wf hm _ _) _ Memory.empty_wf

/-- Results in flight that land in the scratchpad keep its form. -/
theorem mergePend_wf {k : Core} (h : k.mem.spad.wf = true) (p : Pend) : (mergePend k p).mem.spad.wf = true := by
  unfold mergePend
  split
  · exact h
  · exact Memory.foldl_wf _ (fun _ _ hm => Memory.setGrain_wf hm _ _) _
      (Memory.foldl_wf _ (fun _ _ hm => Memory.setBytes_wf hm _ _) _ h)
  · exact h

/-! ### Device memory -/

@[simp] theorem logError_dram (s : State) (n : Nat) (r : ErrRec) : (logError s n r).dram = s.dram := rfl

@[simp] theorem logFormat_dram (s : State) (cell : Nat) : (logFormat s cell).dram = s.dram := rfl

@[simp] theorem keepOld_dram (s : State) (cell n : Nat) : (keepOld s cell n).dram = s.dram := by
  refine foldl_keeps (fun t : State => t.dram = s.dram) _ (fun t x h => ?_) _ rfl
  split <;> exact h

@[simp] theorem keepHist_dram (s : State) (cell : Nat) (bs : List PByte) : (keepHist s cell bs).dram = s.dram := rfl

theorem cellStore_wf {s : State} (h : s.dram.wf = true) (cell : Nat) (bs : List PByte) : (cellStore s cell bs).dram.wf = true := by
  unfold cellStore
  exact Memory.write_wf (by rw [keepHist_dram, keepOld_dram]; exact h) _ _ _ _

theorem cellStoreDirect_wf {s : State} (h : s.dram.wf = true) (cell : Nat) (bs : List PByte) :
    (cellStoreDirect s cell bs).dram.wf = true := Memory.write_wf h _ _ _ _

theorem dramWrite_wf {s : State} (h : s.dram.wf = true) (pa : Nat) (bs : List PByte) (f : Attr) :
    (dramWrite s pa bs f).dram.wf = true := by
  unfold dramWrite
  refine foldl_keeps (fun r : State × List PByte => r.1.dram.wf = true) _ (fun r q hr => ?_) _ h
  dsimp only
  split
  · exact hr
  · split
    · exact cellStore_wf hr _ _
    · exact hr

theorem physWrite_wf {s : State} (h : s.dram.wf = true) (pa : Nat) (bs : List PByte) : (physWrite s pa bs).dram.wf = true := by
  unfold physWrite
  refine foldl_keeps (fun r : State × List PByte => r.1.dram.wf = true) _ (fun r q hr => ?_) _ h
  split
  · exact hr
  · exact cellStoreDirect_wf hr _ _

theorem dramRead_dram (s : State) (pa n : Nat) (f : Attr) : (dramRead s pa n f).1.dram = s.dram := by
  unfold dramRead
  refine foldl_keeps (fun r : State × List PByte => r.1.dram = s.dram) _ (fun r q hr => ?_) _ rfl
  split
  · exact hr
  · split <;> exact hr

theorem Map.rising_filter {α : Type} {m : Map α} (h : Map.rising m = true) (f : Nat × α → Bool) :
    Map.rising (m.filter f) = true := by
  induction m with
  | nil => rfl
  | cons p m ih =>
    obtain ⟨k, v⟩ := p
    obtain ⟨ha, hr⟩ := (Map.rising_cons k v m).mp h
    rw [List.filter_cons]
    split
    · exact (Map.rising_cons k v _).mpr ⟨fun q hq => ha q (List.mem_filter.mp hq).1, ih hr⟩
    · exact ih hr

theorem Memory.put_wf {m : Memory} (h : m.wf = true) (x : Nat) (b : Byte) :
    ({ m with cells := Map.put 0 m.cells x b } : Memory).wf = true := by
  obtain ⟨hr, hz, hp⟩ := (Memory.wf_iff m).mp h
  refine (Memory.wf_iff _).mpr ⟨Map.rising_put 0 hr x b, fun p hm => ?_, hp⟩
  simp only [Map.put] at hm
  split at hm
  · exact hz p (Map.mem_erase hm)
  · next hb =>
    rcases Map.mem_set hm with rfl | hm
    · exact hb
    · exact hz p hm

theorem storeImage_wf {s : State} (h : s.dram.wf = true) (pa n : Nat) (m : Memory) : (storeImage s pa n m).dram.wf = true := by
  unfold storeImage
  refine foldl_keeps (fun t : State => t.dram.wf = true) _ (fun t x ht => ?_) _ ?_
  · dsimp only
    split
    · split
      · exact Memory.put_wf ht _ _
      · exact ht
    · exact ht
  · obtain ⟨hr, hz, hp⟩ := (Memory.wf_iff s.dram).mp h
    exact (Memory.wf_iff _).mpr ⟨Map.rising_filter hr _, fun p hm => hz p (List.mem_filter.mp hm).1, NatSet.rising_filter hp _⟩

theorem formatFrame_wf {s : State} (h : s.dram.wf = true) (cell : Nat) (a : Attr) :
    (formatFrame s cell a).dram.wf = true := Memory.clear_wf h _ _ _

theorem poisonUnit_wf {s : State} (h : s.dram.wf = true) (unit : Nat) (n : Option Nat) : (poisonUnit s unit n).dram.wf = true :=
  Memory.foldl_wf (fun (m : Memory) (i : Nat) => m.setGrain (unit / 32 + i) true)
    (fun _ _ hm => Memory.setGrain_wf hm _ _) _ h

theorem driftUnit_wf {s : State} (h : s.dram.wf = true) (unit : Nat) (bs : List Nat) : (driftUnit s unit bs).dram.wf = true := by
  unfold driftUnit
  dsimp only
  split
  · exact h
  · exact Memory.setBytes_wf h _ _

theorem place_wf {s : State} (h : s.dram.wf = true) (pa : Nat) (bs : List Byte) : (place s pa bs).dram.wf = true := by
  have := Memory.setBytes_wf h pa bs
  obtain ⟨hr, hz, hp⟩ := (Memory.wf_iff _).mp this
  exact (Memory.wf_iff _).mpr ⟨hr, hz, NatSet.rising_filter hp _⟩

/-- Memory right after reset is in the form, with nothing listed. -/
theorem reset_dram_wf : State.reset.dram.wf = true := rfl

end Sys2Proof.Machine
end

