-- ==== Sys2Proof/Laws/State.lean ====
section
/-! SUPPORT. One lemma per field for each update of State and of a core: what an update leaves as it was. -/

namespace Sys2Proof.Machine

/-! ### The core of the device that is replaced -/

@[simp] theorem getCore_setCore (s : State) (c d : Nat) (k : Core) :
    getCore (setCore s c k) d = if c = d then k else getCore s d := Map.get_set _ _ _ _ _

theorem getCore_setCore_self (s : State) (c : Nat) (k : Core) : getCore (setCore s c k) c = k := by simp

theorem getCore_setCore_ne (s : State) {c d : Nat} (k : Core) (h : c ≠ d) : getCore (setCore s c k) d = getCore s d := by
  simp [h]

@[simp] theorem here_onHere (s : State) (f : Core → Core) : here (onHere s f) = f (here s) := by
  unfold here onHere; exact getCore_setCore_self ..

theorem getCore_onHere_ne (s : State) (f : Core → Core) {c : Nat} (h : c ≠ s.core) :
    getCore (onHere s f) c = getCore s c := getCore_setCore_ne s _ (fun e => h e.symm)

/-! ### setCore -/

@[simp] theorem setCore_dram (s : State) (c : Nat) (k : Core) : (setCore s c k).dram = s.dram := rfl
@[simp] theorem setCore_attrs (s : State) (c : Nat) (k : Core) : (setCore s c k).attrs = s.attrs := rfl
@[simp] theorem setCore_old (s : State) (c : Nat) (k : Core) : (setCore s c k).old = s.old := rfl
@[simp] theorem setCore_hist (s : State) (c : Nat) (k : Core) : (setCore s c k).hist = s.hist := rfl
@[simp] theorem setCore_rels (s : State) (c : Nat) (k : Core) : (setCore s c k).rels = s.rels := rfl
@[simp] theorem setCore_stamp (s : State) (c : Nat) (k : Core) : (setCore s c k).stamp = s.stamp := rfl
@[simp] theorem setCore_ring (s : State) (c : Nat) (k : Core) : (setCore s c k).ring = s.ring := rfl
@[simp] theorem setCore_reads (s : State) (c : Nat) (k : Core) : (setCore s c k).reads = s.reads := rfl
@[simp] theorem setCore_errlog (s : State) (c : Nat) (k : Core) : (setCore s c k).errlog = s.errlog := rfl
@[simp] theorem setCore_corr (s : State) (c : Nat) (k : Core) : (setCore s c k).corr = s.corr := rfl
@[simp] theorem setCore_uncorr (s : State) (c : Nat) (k : Core) : (setCore s c k).uncorr = s.uncorr := rfl
@[simp] theorem setCore_sleepers (s : State) (c : Nat) (k : Core) : (setCore s c k).sleepers = s.sleepers := rfl
@[simp] theorem setCore_mmu (s : State) (c : Nat) (k : Core) : (setCore s c k).mmu = s.mmu := rfl
@[simp] theorem setCore_queues (s : State) (c : Nat) (k : Core) : (setCore s c k).queues = s.queues := rfl
@[simp] theorem setCore_ptr (s : State) (c : Nat) (k : Core) : (setCore s c k).ptr = s.ptr := rfl
@[simp] theorem setCore_reserved (s : State) (c : Nat) (k : Core) : (setCore s c k).reserved = s.reserved := rfl
@[simp] theorem setCore_joined (s : State) (c : Nat) (k : Core) : (setCore s c k).joined = s.joined := rfl
@[simp] theorem setCore_wcs (s : State) (c : Nat) (k : Core) : (setCore s c k).wcs = s.wcs := rfl
@[simp] theorem setCore_wcsLoad (s : State) (c : Nat) (k : Core) : (setCore s c k).wcsLoad = s.wcsLoad := rfl
@[simp] theorem setCore_ranges (s : State) (c : Nat) (k : Core) : (setCore s c k).ranges = s.ranges := rfl
@[simp] theorem setCore_fab (s : State) (c : Nat) (k : Core) : (setCore s c k).fab = s.fab := rfl
@[simp] theorem setCore_mgmt (s : State) (c : Nat) (k : Core) : (setCore s c k).mgmt = s.mgmt := rfl
@[simp] theorem setCore_agenda (s : State) (c : Nat) (k : Core) : (setCore s c k).agenda = s.agenda := rfl
@[simp] theorem setCore_core (s : State) (c : Nat) (k : Core) : (setCore s c k).core = s.core := rfl
@[simp] theorem setCore_word (s : State) (c : Nat) (k : Core) : (setCore s c k).word = s.word := rfl
@[simp] theorem setCore_turn (s : State) (c : Nat) (k : Core) : (setCore s c k).turn = s.turn := rfl
@[simp] theorem setCore_time (s : State) (c : Nat) (k : Core) : (setCore s c k).time = s.time := rfl
@[simp] theorem setCore_free (s : State) (c : Nat) (k : Core) : (setCore s c k).free = s.free := rfl
@[simp] theorem setCore_tstamp (s : State) (c : Nat) (k : Core) : (setCore s c k).tstamp = s.tstamp := rfl

/-! ### onHere -/

@[simp] theorem onHere_dram (s : State) (f : Core → Core) : (onHere s f).dram = s.dram := rfl
@[simp] theorem onHere_attrs (s : State) (f : Core → Core) : (onHere s f).attrs = s.attrs := rfl
@[simp] theorem onHere_old (s : State) (f : Core → Core) : (onHere s f).old = s.old := rfl
@[simp] theorem onHere_hist (s : State) (f : Core → Core) : (onHere s f).hist = s.hist := rfl
@[simp] theorem onHere_rels (s : State) (f : Core → Core) : (onHere s f).rels = s.rels := rfl
@[simp] theorem onHere_stamp (s : State) (f : Core → Core) : (onHere s f).stamp = s.stamp := rfl
@[simp] theorem onHere_ring (s : State) (f : Core → Core) : (onHere s f).ring = s.ring := rfl
@[simp] theorem onHere_reads (s : State) (f : Core → Core) : (onHere s f).reads = s.reads := rfl
@[simp] theorem onHere_errlog (s : State) (f : Core → Core) : (onHere s f).errlog = s.errlog := rfl
@[simp] theorem onHere_corr (s : State) (f : Core → Core) : (onHere s f).corr = s.corr := rfl
@[simp] theorem onHere_uncorr (s : State) (f : Core → Core) : (onHere s f).uncorr = s.uncorr := rfl
@[simp] theorem onHere_sleepers (s : State) (f : Core → Core) : (onHere s f).sleepers = s.sleepers := rfl
@[simp] theorem onHere_mmu (s : State) (f : Core → Core) : (onHere s f).mmu = s.mmu := rfl
@[simp] theorem onHere_queues (s : State) (f : Core → Core) : (onHere s f).queues = s.queues := rfl
@[simp] theorem onHere_ptr (s : State) (f : Core → Core) : (onHere s f).ptr = s.ptr := rfl
@[simp] theorem onHere_reserved (s : State) (f : Core → Core) : (onHere s f).reserved = s.reserved := rfl
@[simp] theorem onHere_joined (s : State) (f : Core → Core) : (onHere s f).joined = s.joined := rfl
@[simp] theorem onHere_wcs (s : State) (f : Core → Core) : (onHere s f).wcs = s.wcs := rfl
@[simp] theorem onHere_wcsLoad (s : State) (f : Core → Core) : (onHere s f).wcsLoad = s.wcsLoad := rfl
@[simp] theorem onHere_ranges (s : State) (f : Core → Core) : (onHere s f).ranges = s.ranges := rfl
@[simp] theorem onHere_fab (s : State) (f : Core → Core) : (onHere s f).fab = s.fab := rfl
@[simp] theorem onHere_mgmt (s : State) (f : Core → Core) : (onHere s f).mgmt = s.mgmt := rfl
@[simp] theorem onHere_agenda (s : State) (f : Core → Core) : (onHere s f).agenda = s.agenda := rfl
@[simp] theorem onHere_core (s : State) (f : Core → Core) : (onHere s f).core = s.core := rfl
@[simp] theorem onHere_word (s : State) (f : Core → Core) : (onHere s f).word = s.word := rfl
@[simp] theorem onHere_turn (s : State) (f : Core → Core) : (onHere s f).turn = s.turn := rfl
@[simp] theorem onHere_time (s : State) (f : Core → Core) : (onHere s f).time = s.time := rfl
@[simp] theorem onHere_free (s : State) (f : Core → Core) : (onHere s f).free = s.free := rfl
@[simp] theorem onHere_tstamp (s : State) (f : Core → Core) : (onHere s f).tstamp = s.tstamp := rfl

/-! ### due -/

@[simp] theorem due_cores (s : State) (es : List Event) : (due s es).cores = s.cores := rfl
@[simp] theorem due_dram (s : State) (es : List Event) : (due s es).dram = s.dram := rfl
@[simp] theorem due_attrs (s : State) (es : List Event) : (due s es).attrs = s.attrs := rfl
@[simp] theorem due_old (s : State) (es : List Event) : (due s es).old = s.old := rfl
@[simp] theorem due_hist (s : State) (es : List Event) : (due s es).hist = s.hist := rfl
@[simp] theorem due_rels (s : State) (es : List Event) : (due s es).rels = s.rels := rfl
@[simp] theorem due_stamp (s : State) (es : List Event) : (due s es).stamp = s.stamp := rfl
@[simp] theorem due_ring (s : State) (es : List Event) : (due s es).ring = s.ring := rfl
@[simp] theorem due_reads (s : State) (es : List Event) : (due s es).reads = s.reads := rfl
@[simp] theorem due_errlog (s : State) (es : List Event) : (due s es).errlog = s.errlog := rfl
@[simp] theorem due_corr (s : State) (es : List Event) : (due s es).corr = s.corr := rfl
@[simp] theorem due_uncorr (s : State) (es : List Event) : (due s es).uncorr = s.uncorr := rfl
@[simp] theorem due_sleepers (s : State) (es : List Event) : (due s es).sleepers = s.sleepers := rfl
@[simp] theorem due_mmu (s : State) (es : List Event) : (due s es).mmu = s.mmu := rfl
@[simp] theorem due_queues (s : State) (es : List Event) : (due s es).queues = s.queues := rfl
@[simp] theorem due_ptr (s : State) (es : List Event) : (due s es).ptr = s.ptr := rfl
@[simp] theorem due_reserved (s : State) (es : List Event) : (due s es).reserved = s.reserved := rfl
@[simp] theorem due_joined (s : State) (es : List Event) : (due s es).joined = s.joined := rfl
@[simp] theorem due_wcs (s : State) (es : List Event) : (due s es).wcs = s.wcs := rfl
@[simp] theorem due_wcsLoad (s : State) (es : List Event) : (due s es).wcsLoad = s.wcsLoad := rfl
@[simp] theorem due_ranges (s : State) (es : List Event) : (due s es).ranges = s.ranges := rfl
@[simp] theorem due_fab (s : State) (es : List Event) : (due s es).fab = s.fab := rfl
@[simp] theorem due_mgmt (s : State) (es : List Event) : (due s es).mgmt = s.mgmt := rfl
@[simp] theorem due_core (s : State) (es : List Event) : (due s es).core = s.core := rfl
@[simp] theorem due_word (s : State) (es : List Event) : (due s es).word = s.word := rfl
@[simp] theorem due_turn (s : State) (es : List Event) : (due s es).turn = s.turn := rfl
@[simp] theorem due_time (s : State) (es : List Event) : (due s es).time = s.time := rfl
@[simp] theorem due_free (s : State) (es : List Event) : (due s es).free = s.free := rfl
@[simp] theorem due_tstamp (s : State) (es : List Event) : (due s es).tstamp = s.tstamp := rfl

/-! ### dueAgain -/

@[simp] theorem dueAgain_cores (s : State) (e : Event) : (dueAgain s e).cores = s.cores := rfl
@[simp] theorem dueAgain_dram (s : State) (e : Event) : (dueAgain s e).dram = s.dram := rfl
@[simp] theorem dueAgain_attrs (s : State) (e : Event) : (dueAgain s e).attrs = s.attrs := rfl
@[simp] theorem dueAgain_old (s : State) (e : Event) : (dueAgain s e).old = s.old := rfl
@[simp] theorem dueAgain_hist (s : State) (e : Event) : (dueAgain s e).hist = s.hist := rfl
@[simp] theorem dueAgain_rels (s : State) (e : Event) : (dueAgain s e).rels = s.rels := rfl
@[simp] theorem dueAgain_stamp (s : State) (e : Event) : (dueAgain s e).stamp = s.stamp := rfl
@[simp] theorem dueAgain_ring (s : State) (e : Event) : (dueAgain s e).ring = s.ring := rfl
@[simp] theorem dueAgain_reads (s : State) (e : Event) : (dueAgain s e).reads = s.reads := rfl
@[simp] theorem dueAgain_errlog (s : State) (e : Event) : (dueAgain s e).errlog = s.errlog := rfl
@[simp] theorem dueAgain_corr (s : State) (e : Event) : (dueAgain s e).corr = s.corr := rfl
@[simp] theorem dueAgain_uncorr (s : State) (e : Event) : (dueAgain s e).uncorr = s.uncorr := rfl
@[simp] theorem dueAgain_sleepers (s : State) (e : Event) : (dueAgain s e).sleepers = s.sleepers := rfl
@[simp] theorem dueAgain_mmu (s : State) (e : Event) : (dueAgain s e).mmu = s.mmu := rfl
@[simp] theorem dueAgain_queues (s : State) (e : Event) : (dueAgain s e).queues = s.queues := rfl
@[simp] theorem dueAgain_ptr (s : State) (e : Event) : (dueAgain s e).ptr = s.ptr := rfl
@[simp] theorem dueAgain_reserved (s : State) (e : Event) : (dueAgain s e).reserved = s.reserved := rfl
@[simp] theorem dueAgain_joined (s : State) (e : Event) : (dueAgain s e).joined = s.joined := rfl
@[simp] theorem dueAgain_wcs (s : State) (e : Event) : (dueAgain s e).wcs = s.wcs := rfl
@[simp] theorem dueAgain_wcsLoad (s : State) (e : Event) : (dueAgain s e).wcsLoad = s.wcsLoad := rfl
@[simp] theorem dueAgain_ranges (s : State) (e : Event) : (dueAgain s e).ranges = s.ranges := rfl
@[simp] theorem dueAgain_fab (s : State) (e : Event) : (dueAgain s e).fab = s.fab := rfl
@[simp] theorem dueAgain_mgmt (s : State) (e : Event) : (dueAgain s e).mgmt = s.mgmt := rfl
@[simp] theorem dueAgain_core (s : State) (e : Event) : (dueAgain s e).core = s.core := rfl
@[simp] theorem dueAgain_word (s : State) (e : Event) : (dueAgain s e).word = s.word := rfl
@[simp] theorem dueAgain_turn (s : State) (e : Event) : (dueAgain s e).turn = s.turn := rfl
@[simp] theorem dueAgain_time (s : State) (e : Event) : (dueAgain s e).time = s.time := rfl
@[simp] theorem dueAgain_free (s : State) (e : Event) : (dueAgain s e).free = s.free := rfl
@[simp] theorem dueAgain_tstamp (s : State) (e : Event) : (dueAgain s e).tstamp = s.tstamp := rfl

/-! ### setQueue -/

@[simp] theorem setQueue_cores (s : State) (q : Nat) (x : Queue) : (setQueue s q x).cores = s.cores := rfl
@[simp] theorem setQueue_dram (s : State) (q : Nat) (x : Queue) : (setQueue s q x).dram = s.dram := rfl
@[simp] theorem setQueue_attrs (s : State) (q : Nat) (x : Queue) : (setQueue s q x).attrs = s.attrs := rfl
@[simp] theorem setQueue_old (s : State) (q : Nat) (x : Queue) : (setQueue s q x).old = s.old := rfl
@[simp] theorem setQueue_hist (s : State) (q : Nat) (x : Queue) : (setQueue s q x).hist = s.hist := rfl
@[simp] theorem setQueue_rels (s : State) (q : Nat) (x : Queue) : (setQueue s q x).rels = s.rels := rfl
@[simp] theorem setQueue_stamp (s : State) (q : Nat) (x : Queue) : (setQueue s q x).stamp = s.stamp := rfl
@[simp] theorem setQueue_ring (s : State) (q : Nat) (x : Queue) : (setQueue s q x).ring = s.ring := rfl
@[simp] theorem setQueue_reads (s : State) (q : Nat) (x : Queue) : (setQueue s q x).reads = s.reads := rfl
@[simp] theorem setQueue_errlog (s : State) (q : Nat) (x : Queue) : (setQueue s q x).errlog = s.errlog := rfl
@[simp] theorem setQueue_corr (s : State) (q : Nat) (x : Queue) : (setQueue s q x).corr = s.corr := rfl
@[simp] theorem setQueue_uncorr (s : State) (q : Nat) (x : Queue) : (setQueue s q x).uncorr = s.uncorr := rfl
@[simp] theorem setQueue_sleepers (s : State) (q : Nat) (x : Queue) : (setQueue s q x).sleepers = s.sleepers := rfl
@[simp] theorem setQueue_mmu (s : State) (q : Nat) (x : Queue) : (setQueue s q x).mmu = s.mmu := rfl
@[simp] theorem setQueue_ptr (s : State) (q : Nat) (x : Queue) : (setQueue s q x).ptr = s.ptr := rfl
@[simp] theorem setQueue_reserved (s : State) (q : Nat) (x : Queue) : (setQueue s q x).reserved = s.reserved := rfl
@[simp] theorem setQueue_joined (s : State) (q : Nat) (x : Queue) : (setQueue s q x).joined = s.joined := rfl
@[simp] theorem setQueue_wcs (s : State) (q : Nat) (x : Queue) : (setQueue s q x).wcs = s.wcs := rfl
@[simp] theorem setQueue_wcsLoad (s : State) (q : Nat) (x : Queue) : (setQueue s q x).wcsLoad = s.wcsLoad := rfl
@[simp] theorem setQueue_ranges (s : State) (q : Nat) (x : Queue) : (setQueue s q x).ranges = s.ranges := rfl
@[simp] theorem setQueue_fab (s : State) (q : Nat) (x : Queue) : (setQueue s q x).fab = s.fab := rfl
@[simp] theorem setQueue_mgmt (s : State) (q : Nat) (x : Queue) : (setQueue s q x).mgmt = s.mgmt := rfl
@[simp] theorem setQueue_agenda (s : State) (q : Nat) (x : Queue) : (setQueue s q x).agenda = s.agenda := rfl
@[simp] theorem setQueue_core (s : State) (q : Nat) (x : Queue) : (setQueue s q x).core = s.core := rfl
@[simp] theorem setQueue_word (s : State) (q : Nat) (x : Queue) : (setQueue s q x).word = s.word := rfl
@[simp] theorem setQueue_turn (s : State) (q : Nat) (x : Queue) : (setQueue s q x).turn = s.turn := rfl
@[simp] theorem setQueue_time (s : State) (q : Nat) (x : Queue) : (setQueue s q x).time = s.time := rfl
@[simp] theorem setQueue_free (s : State) (q : Nat) (x : Queue) : (setQueue s q x).free = s.free := rfl
@[simp] theorem setQueue_tstamp (s : State) (q : Nat) (x : Queue) : (setQueue s q x).tstamp = s.tstamp := rfl

/-! ### exposeNow -/

@[simp] theorem exposeNow_dram (s : State) (w : QWord) (n : Nat) (d : PDest) : (exposeNow s w n d).dram = s.dram := rfl
@[simp] theorem exposeNow_attrs (s : State) (w : QWord) (n : Nat) (d : PDest) : (exposeNow s w n d).attrs = s.attrs := rfl
@[simp] theorem exposeNow_old (s : State) (w : QWord) (n : Nat) (d : PDest) : (exposeNow s w n d).old = s.old := rfl
@[simp] theorem exposeNow_hist (s : State) (w : QWord) (n : Nat) (d : PDest) : (exposeNow s w n d).hist = s.hist := rfl
@[simp] theorem exposeNow_rels (s : State) (w : QWord) (n : Nat) (d : PDest) : (exposeNow s w n d).rels = s.rels := rfl
@[simp] theorem exposeNow_stamp (s : State) (w : QWord) (n : Nat) (d : PDest) : (exposeNow s w n d).stamp = s.stamp := rfl
@[simp] theorem exposeNow_ring (s : State) (w : QWord) (n : Nat) (d : PDest) : (exposeNow s w n d).ring = s.ring := rfl
@[simp] theorem exposeNow_reads (s : State) (w : QWord) (n : Nat) (d : PDest) : (exposeNow s w n d).reads = s.reads := rfl
@[simp] theorem exposeNow_errlog (s : State) (w : QWord) (n : Nat) (d : PDest) : (exposeNow s w n d).errlog = s.errlog := rfl
@[simp] theorem exposeNow_corr (s : State) (w : QWord) (n : Nat) (d : PDest) : (exposeNow s w n d).corr = s.corr := rfl
@[simp] theorem exposeNow_uncorr (s : State) (w : QWord) (n : Nat) (d : PDest) : (exposeNow s w n d).uncorr = s.uncorr := rfl
@[simp] theorem exposeNow_sleepers (s : State) (w : QWord) (n : Nat) (d : PDest) : (exposeNow s w n d).sleepers = s.sleepers := rfl
@[simp] theorem exposeNow_mmu (s : State) (w : QWord) (n : Nat) (d : PDest) : (exposeNow s w n d).mmu = s.mmu := rfl
@[simp] theorem exposeNow_queues (s : State) (w : QWord) (n : Nat) (d : PDest) : (exposeNow s w n d).queues = s.queues := rfl
@[simp] theorem exposeNow_ptr (s : State) (w : QWord) (n : Nat) (d : PDest) : (exposeNow s w n d).ptr = s.ptr := rfl
@[simp] theorem exposeNow_reserved (s : State) (w : QWord) (n : Nat) (d : PDest) : (exposeNow s w n d).reserved = s.reserved := rfl
@[simp] theorem exposeNow_joined (s : State) (w : QWord) (n : Nat) (d : PDest) : (exposeNow s w n d).joined = s.joined := rfl
@[simp] theorem exposeNow_wcs (s : State) (w : QWord) (n : Nat) (d : PDest) : (exposeNow s w n d).wcs = s.wcs := rfl
@[simp] theorem exposeNow_wcsLoad (s : State) (w : QWord) (n : Nat) (d : PDest) : (exposeNow s w n d).wcsLoad = s.wcsLoad := rfl
@[simp] theorem exposeNow_ranges (s : State) (w : QWord) (n : Nat) (d : PDest) : (exposeNow s w n d).ranges = s.ranges := rfl
@[simp] theorem exposeNow_fab (s : State) (w : QWord) (n : Nat) (d : PDest) : (exposeNow s w n d).fab = s.fab := rfl
@[simp] theorem exposeNow_mgmt (s : State) (w : QWord) (n : Nat) (d : PDest) : (exposeNow s w n d).mgmt = s.mgmt := rfl
@[simp] theorem exposeNow_agenda (s : State) (w : QWord) (n : Nat) (d : PDest) : (exposeNow s w n d).agenda = s.agenda := rfl
@[simp] theorem exposeNow_core (s : State) (w : QWord) (n : Nat) (d : PDest) : (exposeNow s w n d).core = s.core := rfl
@[simp] theorem exposeNow_word (s : State) (w : QWord) (n : Nat) (d : PDest) : (exposeNow s w n d).word = s.word := rfl
@[simp] theorem exposeNow_turn (s : State) (w : QWord) (n : Nat) (d : PDest) : (exposeNow s w n d).turn = s.turn := rfl
@[simp] theorem exposeNow_time (s : State) (w : QWord) (n : Nat) (d : PDest) : (exposeNow s w n d).time = s.time := rfl
@[simp] theorem exposeNow_free (s : State) (w : QWord) (n : Nat) (d : PDest) : (exposeNow s w n d).free = s.free := rfl
@[simp] theorem exposeNow_tstamp (s : State) (w : QWord) (n : Nat) (d : PDest) : (exposeNow s w n d).tstamp = s.tstamp := rfl

/-! ### setSreg -/

@[simp] theorem setSreg_task (k : Core) (r : BitVec 5) (v : W64) : (setSreg k r v).task = k.task := by unfold setSreg; split <;> rfl
@[simp] theorem setSreg_handler (k : Core) (r : BitVec 5) (v : W64) : (setSreg k r v).handler = k.handler := by unfold setSreg; split <;> rfl
@[simp] theorem setSreg_stepped (k : Core) (r : BitVec 5) (v : W64) : (setSreg k r v).stepped = k.stepped := by unfold setSreg; split <;> rfl
@[simp] theorem setSreg_ending (k : Core) (r : BitVec 5) (v : W64) : (setSreg k r v).ending = k.ending := by unfold setSreg; split <;> rfl
@[simp] theorem setSreg_pc (k : Core) (r : BitVec 5) (v : W64) : (setSreg k r v).pc = k.pc := by unfold setSreg; split <;> rfl
@[simp] theorem setSreg_v (k : Core) (r : BitVec 5) (v : W64) : (setSreg k r v).v = k.v := by unfold setSreg; split <;> rfl
@[simp] theorem setSreg_m (k : Core) (r : BitVec 5) (v : W64) : (setSreg k r v).m = k.m := by unfold setSreg; split <;> rfl
@[simp] theorem setSreg_h (k : Core) (r : BitVec 5) (v : W64) : (setSreg k r v).h = k.h := by unfold setSreg; split <;> rfl
@[simp] theorem setSreg_g (k : Core) (r : BitVec 5) (v : W64) : (setSreg k r v).g = k.g := by unfold setSreg; split <;> rfl
@[simp] theorem setSreg_sys (k : Core) (r : BitVec 5) (v : W64) : (setSreg k r v).sys = k.sys := by unfold setSreg; split <;> rfl
@[simp] theorem setSreg_mreg (k : Core) (r : BitVec 5) (v : W64) : (setSreg k r v).mreg = k.mreg := by unfold setSreg; split <;> rfl
@[simp] theorem setSreg_wick (k : Core) (r : BitVec 5) (v : W64) : (setSreg k r v).wick = k.wick := by unfold setSreg; split <;> rfl
@[simp] theorem setSreg_mem (k : Core) (r : BitVec 5) (v : W64) : (setSreg k r v).mem = k.mem := by unfold setSreg; split <;> rfl
@[simp] theorem setSreg_chains (k : Core) (r : BitVec 5) (v : W64) : (setSreg k r v).chains = k.chains := by unfold setSreg; split <;> rfl
@[simp] theorem setSreg_drain (k : Core) (r : BitVec 5) (v : W64) : (setSreg k r v).drain = k.drain := by unfold setSreg; split <;> rfl
@[simp] theorem setSreg_iss_slots (k : Core) (r : BitVec 5) (v : W64) : (setSreg k r v).iss.slots = k.iss.slots := by unfold setSreg; split <;> rfl
@[simp] theorem setSreg_iss_heads (k : Core) (r : BitVec 5) (v : W64) : (setSreg k r v).iss.heads = k.iss.heads := by unfold setSreg; split <;> rfl
@[simp] theorem setSreg_iss_queues (k : Core) (r : BitVec 5) (v : W64) : (setSreg k r v).iss.queues = k.iss.queues := by unfold setSreg; split <;> rfl
@[simp] theorem setSreg_iss_win (k : Core) (r : BitVec 5) (v : W64) : (setSreg k r v).iss.win = k.iss.win := by unfold setSreg; split <;> rfl
@[simp] theorem setSreg_iss_openTok (k : Core) (r : BitVec 5) (v : W64) : (setSreg k r v).iss.openTok = k.iss.openTok := by unfold setSreg; split <;> rfl
@[simp] theorem setSreg_iss_pend (k : Core) (r : BitVec 5) (v : W64) : (setSreg k r v).iss.pend = k.iss.pend := by unfold setSreg; split <;> rfl
@[simp] theorem setSreg_iss_hpend (k : Core) (r : BitVec 5) (v : W64) : (setSreg k r v).iss.hpend = k.iss.hpend := by unfold setSreg; split <;> rfl
@[simp] theorem setSreg_iss_past (k : Core) (r : BitVec 5) (v : W64) : (setSreg k r v).iss.past = k.iss.past := by unfold setSreg; split <;> rfl
@[simp] theorem setSreg_iss_seq (k : Core) (r : BitVec 5) (v : W64) : (setSreg k r v).iss.seq = k.iss.seq := by unfold setSreg; split <;> rfl
@[simp] theorem setSreg_iss_hold (k : Core) (r : BitVec 5) (v : W64) : (setSreg k r v).iss.hold = k.iss.hold := by unfold setSreg; split <;> rfl
@[simp] theorem setSreg_iss_trap (k : Core) (r : BitVec 5) (v : W64) : (setSreg k r v).iss.trap = k.iss.trap := by unfold setSreg; split <;> rfl
@[simp] theorem setSreg_loopx (k : Core) (r : BitVec 5) (v : W64) : (setSreg k r v).loopx = k.loopx := by unfold setSreg; split <;> rfl
@[simp] theorem setSreg_nest (k : Core) (r : BitVec 5) (v : W64) : (setSreg k r v).nest = k.nest := by unfold setSreg; split <;> rfl
@[simp] theorem setSreg_saved (k : Core) (r : BitVec 5) (v : W64) : (setSreg k r v).saved = k.saved := by unfold setSreg; split <;> rfl
@[simp] theorem setSreg_nests (k : Core) (r : BitVec 5) (v : W64) : (setSreg k r v).nests = k.nests := by unfold setSreg; split <;> rfl
@[simp] theorem setSreg_runs (k : Core) (r : BitVec 5) (v : W64) : (setSreg k r v).runs = k.runs := by unfold setSreg; split <;> rfl
@[simp] theorem setSreg_fired (k : Core) (r : BitVec 5) (v : W64) : (setSreg k r v).fired = k.fired := by unfold setSreg; split <;> rfl
@[simp] theorem setSreg_paths (k : Core) (r : BitVec 5) (v : W64) : (setSreg k r v).paths = k.paths := by unfold setSreg; split <;> rfl
@[simp] theorem setSreg_fetched (k : Core) (r : BitVec 5) (v : W64) : (setSreg k r v).fetched = k.fetched := by unfold setSreg; split <;> rfl
@[simp] theorem setSreg_fenceRel (k : Core) (r : BitVec 5) (v : W64) : (setSreg k r v).fenceRel = k.fenceRel := by unfold setSreg; split <;> rfl
@[simp] theorem setSreg_evq (k : Core) (r : BitVec 5) (v : W64) : (setSreg k r v).evq = k.evq := by unfold setSreg; split <;> rfl
@[simp] theorem setSreg_cmds (k : Core) (r : BitVec 5) (v : W64) : (setSreg k r v).cmds = k.cmds := by unfold setSreg; split <;> rfl
@[simp] theorem setSreg_push (k : Core) (r : BitVec 5) (v : W64) : (setSreg k r v).push = k.push := by unfold setSreg; split <;> rfl
@[simp] theorem setSreg_claim (k : Core) (r : BitVec 5) (v : W64) : (setSreg k r v).claim = k.claim := by unfold setSreg; split <;> rfl
@[simp] theorem setSreg_plain (k : Core) (r : BitVec 5) (v : W64) : (setSreg k r v).plain = k.plain := by unfold setSreg; split <;> rfl
@[simp] theorem setSreg_since (k : Core) (r : BitVec 5) (v : W64) : (setSreg k r v).since = k.since := by unfold setSreg; split <;> rfl
@[simp] theorem setSreg_ownxs (k : Core) (r : BitVec 5) (v : W64) : (setSreg k r v).ownxs = k.ownxs := by unfold setSreg; split <;> rfl
@[simp] theorem setSreg_floor (k : Core) (r : BitVec 5) (v : W64) : (setSreg k r v).floor = k.floor := by unfold setSreg; split <;> rfl
@[simp] theorem setSreg_floorX (k : Core) (r : BitVec 5) (v : W64) : (setSreg k r v).floorX = k.floorX := by unfold setSreg; split <;> rfl
@[simp] theorem setSreg_heard (k : Core) (r : BitVec 5) (v : W64) : (setSreg k r v).heard = k.heard := by unfold setSreg; split <;> rfl
@[simp] theorem setSreg_lastRead (k : Core) (r : BitVec 5) (v : W64) : (setSreg k r v).lastRead = k.lastRead := by unfold setSreg; split <;> rfl
@[simp] theorem setSreg_sleepers (k : Core) (r : BitVec 5) (v : W64) : (setSreg k r v).sleepers = k.sleepers := by unfold setSreg; split <;> rfl
@[simp] theorem setSreg_tlb (k : Core) (r : BitVec 5) (v : W64) : (setSreg k r v).tlb = k.tlb := by unfold setSreg; split <;> rfl
@[simp] theorem setSreg_lastCtx (k : Core) (r : BitVec 5) (v : W64) : (setSreg k r v).lastCtx = k.lastCtx := by unfold setSreg; split <;> rfl
@[simp] theorem setSreg_transit (k : Core) (r : BitVec 5) (v : W64) : (setSreg k r v).transit = k.transit := by unfold setSreg; split <;> rfl
@[simp] theorem setSreg_halting (k : Core) (r : BitVec 5) (v : W64) : (setSreg k r v).halting = k.halting := by unfold setSreg; split <;> rfl
@[simp] theorem setSreg_corrected (k : Core) (r : BitVec 5) (v : W64) : (setSreg k r v).corrected = k.corrected := by unfold setSreg; split <;> rfl

/-! ### setMreg -/

@[simp] theorem setMreg_task (k : Core) (r : BitVec 3) (v : BitVec 128) : (setMreg k r v).task = k.task := by unfold setMreg; split <;> rfl
@[simp] theorem setMreg_handler (k : Core) (r : BitVec 3) (v : BitVec 128) : (setMreg k r v).handler = k.handler := by unfold setMreg; split <;> rfl
@[simp] theorem setMreg_stepped (k : Core) (r : BitVec 3) (v : BitVec 128) : (setMreg k r v).stepped = k.stepped := by unfold setMreg; split <;> rfl
@[simp] theorem setMreg_ending (k : Core) (r : BitVec 3) (v : BitVec 128) : (setMreg k r v).ending = k.ending := by unfold setMreg; split <;> rfl
@[simp] theorem setMreg_pc (k : Core) (r : BitVec 3) (v : BitVec 128) : (setMreg k r v).pc = k.pc := by unfold setMreg; split <;> rfl
@[simp] theorem setMreg_s (k : Core) (r : BitVec 3) (v : BitVec 128) : (setMreg k r v).s = k.s := by unfold setMreg; split <;> rfl
@[simp] theorem setMreg_v (k : Core) (r : BitVec 3) (v : BitVec 128) : (setMreg k r v).v = k.v := by unfold setMreg; split <;> rfl
@[simp] theorem setMreg_h (k : Core) (r : BitVec 3) (v : BitVec 128) : (setMreg k r v).h = k.h := by unfold setMreg; split <;> rfl
@[simp] theorem setMreg_g (k : Core) (r : BitVec 3) (v : BitVec 128) : (setMreg k r v).g = k.g := by unfold setMreg; split <;> rfl
@[simp] theorem setMreg_sys (k : Core) (r : BitVec 3) (v : BitVec 128) : (setMreg k r v).sys = k.sys := by unfold setMreg; split <;> rfl
@[simp] theorem setMreg_mreg (k : Core) (r : BitVec 3) (v : BitVec 128) : (setMreg k r v).mreg = k.mreg := by unfold setMreg; split <;> rfl
@[simp] theorem setMreg_wick (k : Core) (r : BitVec 3) (v : BitVec 128) : (setMreg k r v).wick = k.wick := by unfold setMreg; split <;> rfl
@[simp] theorem setMreg_mem (k : Core) (r : BitVec 3) (v : BitVec 128) : (setMreg k r v).mem = k.mem := by unfold setMreg; split <;> rfl
@[simp] theorem setMreg_chains (k : Core) (r : BitVec 3) (v : BitVec 128) : (setMreg k r v).chains = k.chains := by unfold setMreg; split <;> rfl
@[simp] theorem setMreg_drain (k : Core) (r : BitVec 3) (v : BitVec 128) : (setMreg k r v).drain = k.drain := by unfold setMreg; split <;> rfl
@[simp] theorem setMreg_iss_slots (k : Core) (r : BitVec 3) (v : BitVec 128) : (setMreg k r v).iss.slots = k.iss.slots := by unfold setMreg; split <;> rfl
@[simp] theorem setMreg_iss_heads (k : Core) (r : BitVec 3) (v : BitVec 128) : (setMreg k r v).iss.heads = k.iss.heads := by unfold setMreg; split <;> rfl
@[simp] theorem setMreg_iss_queues (k : Core) (r : BitVec 3) (v : BitVec 128) : (setMreg k r v).iss.queues = k.iss.queues := by unfold setMreg; split <;> rfl
@[simp] theorem setMreg_iss_win (k : Core) (r : BitVec 3) (v : BitVec 128) : (setMreg k r v).iss.win = k.iss.win := by unfold setMreg; split <;> rfl
@[simp] theorem setMreg_iss_openTok (k : Core) (r : BitVec 3) (v : BitVec 128) : (setMreg k r v).iss.openTok = k.iss.openTok := by unfold setMreg; split <;> rfl
@[simp] theorem setMreg_iss_pend (k : Core) (r : BitVec 3) (v : BitVec 128) : (setMreg k r v).iss.pend = k.iss.pend := by unfold setMreg; split <;> rfl
@[simp] theorem setMreg_iss_hpend (k : Core) (r : BitVec 3) (v : BitVec 128) : (setMreg k r v).iss.hpend = k.iss.hpend := by unfold setMreg; split <;> rfl
@[simp] theorem setMreg_iss_past (k : Core) (r : BitVec 3) (v : BitVec 128) : (setMreg k r v).iss.past = k.iss.past := by unfold setMreg; split <;> rfl
@[simp] theorem setMreg_iss_seq (k : Core) (r : BitVec 3) (v : BitVec 128) : (setMreg k r v).iss.seq = k.iss.seq := by unfold setMreg; split <;> rfl
@[simp] theorem setMreg_iss_hold (k : Core) (r : BitVec 3) (v : BitVec 128) : (setMreg k r v).iss.hold = k.iss.hold := by unfold setMreg; split <;> rfl
@[simp] theorem setMreg_iss_trap (k : Core) (r : BitVec 3) (v : BitVec 128) : (setMreg k r v).iss.trap = k.iss.trap := by unfold setMreg; split <;> rfl
@[simp] theorem setMreg_loopx (k : Core) (r : BitVec 3) (v : BitVec 128) : (setMreg k r v).loopx = k.loopx := by unfold setMreg; split <;> rfl
@[simp] theorem setMreg_nest (k : Core) (r : BitVec 3) (v : BitVec 128) : (setMreg k r v).nest = k.nest := by unfold setMreg; split <;> rfl
@[simp] theorem setMreg_saved (k : Core) (r : BitVec 3) (v : BitVec 128) : (setMreg k r v).saved = k.saved := by unfold setMreg; split <;> rfl
@[simp] theorem setMreg_nests (k : Core) (r : BitVec 3) (v : BitVec 128) : (setMreg k r v).nests = k.nests := by unfold setMreg; split <;> rfl
@[simp] theorem setMreg_runs (k : Core) (r : BitVec 3) (v : BitVec 128) : (setMreg k r v).runs = k.runs := by unfold setMreg; split <;> rfl
@[simp] theorem setMreg_fired (k : Core) (r : BitVec 3) (v : BitVec 128) : (setMreg k r v).fired = k.fired := by unfold setMreg; split <;> rfl
@[simp] theorem setMreg_paths (k : Core) (r : BitVec 3) (v : BitVec 128) : (setMreg k r v).paths = k.paths := by unfold setMreg; split <;> rfl
@[simp] theorem setMreg_fetched (k : Core) (r : BitVec 3) (v : BitVec 128) : (setMreg k r v).fetched = k.fetched := by unfold setMreg; split <;> rfl
@[simp] theorem setMreg_fenceRel (k : Core) (r : BitVec 3) (v : BitVec 128) : (setMreg k r v).fenceRel = k.fenceRel := by unfold setMreg; split <;> rfl
@[simp] theorem setMreg_evq (k : Core) (r : BitVec 3) (v : BitVec 128) : (setMreg k r v).evq = k.evq := by unfold setMreg; split <;> rfl
@[simp] theorem setMreg_cmds (k : Core) (r : BitVec 3) (v : BitVec 128) : (setMreg k r v).cmds = k.cmds := by unfold setMreg; split <;> rfl
@[simp] theorem setMreg_push (k : Core) (r : BitVec 3) (v : BitVec 128) : (setMreg k r v).push = k.push := by unfold setMreg; split <;> rfl
@[simp] theorem setMreg_claim (k : Core) (r : BitVec 3) (v : BitVec 128) : (setMreg k r v).claim = k.claim := by unfold setMreg; split <;> rfl
@[simp] theorem setMreg_plain (k : Core) (r : BitVec 3) (v : BitVec 128) : (setMreg k r v).plain = k.plain := by unfold setMreg; split <;> rfl
@[simp] theorem setMreg_since (k : Core) (r : BitVec 3) (v : BitVec 128) : (setMreg k r v).since = k.since := by unfold setMreg; split <;> rfl
@[simp] theorem setMreg_ownxs (k : Core) (r : BitVec 3) (v : BitVec 128) : (setMreg k r v).ownxs = k.ownxs := by unfold setMreg; split <;> rfl
@[simp] theorem setMreg_floor (k : Core) (r : BitVec 3) (v : BitVec 128) : (setMreg k r v).floor = k.floor := by unfold setMreg; split <;> rfl
@[simp] theorem setMreg_floorX (k : Core) (r : BitVec 3) (v : BitVec 128) : (setMreg k r v).floorX = k.floorX := by unfold setMreg; split <;> rfl
@[simp] theorem setMreg_heard (k : Core) (r : BitVec 3) (v : BitVec 128) : (setMreg k r v).heard = k.heard := by unfold setMreg; split <;> rfl
@[simp] theorem setMreg_lastRead (k : Core) (r : BitVec 3) (v : BitVec 128) : (setMreg k r v).lastRead = k.lastRead := by unfold setMreg; split <;> rfl
@[simp] theorem setMreg_sleepers (k : Core) (r : BitVec 3) (v : BitVec 128) : (setMreg k r v).sleepers = k.sleepers := by unfold setMreg; split <;> rfl
@[simp] theorem setMreg_tlb (k : Core) (r : BitVec 3) (v : BitVec 128) : (setMreg k r v).tlb = k.tlb := by unfold setMreg; split <;> rfl
@[simp] theorem setMreg_lastCtx (k : Core) (r : BitVec 3) (v : BitVec 128) : (setMreg k r v).lastCtx = k.lastCtx := by unfold setMreg; split <;> rfl
@[simp] theorem setMreg_transit (k : Core) (r : BitVec 3) (v : BitVec 128) : (setMreg k r v).transit = k.transit := by unfold setMreg; split <;> rfl
@[simp] theorem setMreg_halting (k : Core) (r : BitVec 3) (v : BitVec 128) : (setMreg k r v).halting = k.halting := by unfold setMreg; split <;> rfl
@[simp] theorem setMreg_corrected (k : Core) (r : BitVec 3) (v : BitVec 128) : (setMreg k r v).corrected = k.corrected := by unfold setMreg; split <;> rfl

/-! ### setLanes -/

@[simp] theorem setLanes_task (k : Core) (ls : Map Lane) : (setLanes k ls).task = k.task := rfl
@[simp] theorem setLanes_handler (k : Core) (ls : Map Lane) : (setLanes k ls).handler = k.handler := rfl
@[simp] theorem setLanes_stepped (k : Core) (ls : Map Lane) : (setLanes k ls).stepped = k.stepped := rfl
@[simp] theorem setLanes_ending (k : Core) (ls : Map Lane) : (setLanes k ls).ending = k.ending := rfl
@[simp] theorem setLanes_pc (k : Core) (ls : Map Lane) : (setLanes k ls).pc = k.pc := rfl
@[simp] theorem setLanes_s (k : Core) (ls : Map Lane) : (setLanes k ls).s = k.s := rfl
@[simp] theorem setLanes_m (k : Core) (ls : Map Lane) : (setLanes k ls).m = k.m := rfl
@[simp] theorem setLanes_h (k : Core) (ls : Map Lane) : (setLanes k ls).h = k.h := rfl
@[simp] theorem setLanes_g (k : Core) (ls : Map Lane) : (setLanes k ls).g = k.g := rfl
@[simp] theorem setLanes_sys (k : Core) (ls : Map Lane) : (setLanes k ls).sys = k.sys := rfl
@[simp] theorem setLanes_mreg (k : Core) (ls : Map Lane) : (setLanes k ls).mreg = k.mreg := rfl
@[simp] theorem setLanes_wick (k : Core) (ls : Map Lane) : (setLanes k ls).wick = k.wick := rfl
@[simp] theorem setLanes_mem (k : Core) (ls : Map Lane) : (setLanes k ls).mem = k.mem := rfl
@[simp] theorem setLanes_chains (k : Core) (ls : Map Lane) : (setLanes k ls).chains = k.chains := rfl
@[simp] theorem setLanes_drain (k : Core) (ls : Map Lane) : (setLanes k ls).drain = k.drain := rfl
@[simp] theorem setLanes_iss (k : Core) (ls : Map Lane) : (setLanes k ls).iss = k.iss := rfl
@[simp] theorem setLanes_loopx (k : Core) (ls : Map Lane) : (setLanes k ls).loopx = k.loopx := rfl
@[simp] theorem setLanes_nest (k : Core) (ls : Map Lane) : (setLanes k ls).nest = k.nest := rfl
@[simp] theorem setLanes_saved (k : Core) (ls : Map Lane) : (setLanes k ls).saved = k.saved := rfl
@[simp] theorem setLanes_nests (k : Core) (ls : Map Lane) : (setLanes k ls).nests = k.nests := rfl
@[simp] theorem setLanes_runs (k : Core) (ls : Map Lane) : (setLanes k ls).runs = k.runs := rfl
@[simp] theorem setLanes_fired (k : Core) (ls : Map Lane) : (setLanes k ls).fired = k.fired := rfl
@[simp] theorem setLanes_paths (k : Core) (ls : Map Lane) : (setLanes k ls).paths = k.paths := rfl
@[simp] theorem setLanes_fetched (k : Core) (ls : Map Lane) : (setLanes k ls).fetched = k.fetched := rfl
@[simp] theorem setLanes_fenceRel (k : Core) (ls : Map Lane) : (setLanes k ls).fenceRel = k.fenceRel := rfl
@[simp] theorem setLanes_evq (k : Core) (ls : Map Lane) : (setLanes k ls).evq = k.evq := rfl
@[simp] theorem setLanes_cmds (k : Core) (ls : Map Lane) : (setLanes k ls).cmds = k.cmds := rfl
@[simp] theorem setLanes_push (k : Core) (ls : Map Lane) : (setLanes k ls).push = k.push := rfl
@[simp] theorem setLanes_claim (k : Core) (ls : Map Lane) : (setLanes k ls).claim = k.claim := rfl
@[simp] theorem setLanes_plain (k : Core) (ls : Map Lane) : (setLanes k ls).plain = k.plain := rfl
@[simp] theorem setLanes_since (k : Core) (ls : Map Lane) : (setLanes k ls).since = k.since := rfl
@[simp] theorem setLanes_ownxs (k : Core) (ls : Map Lane) : (setLanes k ls).ownxs = k.ownxs := rfl
@[simp] theorem setLanes_floor (k : Core) (ls : Map Lane) : (setLanes k ls).floor = k.floor := rfl
@[simp] theorem setLanes_floorX (k : Core) (ls : Map Lane) : (setLanes k ls).floorX = k.floorX := rfl
@[simp] theorem setLanes_heard (k : Core) (ls : Map Lane) : (setLanes k ls).heard = k.heard := rfl
@[simp] theorem setLanes_lastRead (k : Core) (ls : Map Lane) : (setLanes k ls).lastRead = k.lastRead := rfl
@[simp] theorem setLanes_sleepers (k : Core) (ls : Map Lane) : (setLanes k ls).sleepers = k.sleepers := rfl
@[simp] theorem setLanes_tlb (k : Core) (ls : Map Lane) : (setLanes k ls).tlb = k.tlb := rfl
@[simp] theorem setLanes_lastCtx (k : Core) (ls : Map Lane) : (setLanes k ls).lastCtx = k.lastCtx := rfl
@[simp] theorem setLanes_transit (k : Core) (ls : Map Lane) : (setLanes k ls).transit = k.transit := rfl
@[simp] theorem setLanes_halting (k : Core) (ls : Map Lane) : (setLanes k ls).halting = k.halting := rfl
@[simp] theorem setLanes_corrected (k : Core) (ls : Map Lane) : (setLanes k ls).corrected = k.corrected := rfl

/-! ### retireN -/

@[simp] theorem retireN_dram (s : State) (n : Nat) : (retireN s n).dram = s.dram := by
  unfold retireN takeSlots; split <;> rfl
@[simp] theorem retireN_attrs (s : State) (n : Nat) : (retireN s n).attrs = s.attrs := by
  unfold retireN takeSlots; split <;> rfl
@[simp] theorem retireN_old (s : State) (n : Nat) : (retireN s n).old = s.old := by
  unfold retireN takeSlots; split <;> rfl
@[simp] theorem retireN_hist (s : State) (n : Nat) : (retireN s n).hist = s.hist := by
  unfold retireN takeSlots; split <;> rfl
@[simp] theorem retireN_rels (s : State) (n : Nat) : (retireN s n).rels = s.rels := by
  unfold retireN takeSlots; split <;> rfl
@[simp] theorem retireN_stamp (s : State) (n : Nat) : (retireN s n).stamp = s.stamp := by
  unfold retireN takeSlots; split <;> rfl
@[simp] theorem retireN_ring (s : State) (n : Nat) : (retireN s n).ring = s.ring := by
  unfold retireN takeSlots; split <;> rfl
@[simp] theorem retireN_reads (s : State) (n : Nat) : (retireN s n).reads = s.reads := by
  unfold retireN takeSlots; split <;> rfl
@[simp] theorem retireN_errlog (s : State) (n : Nat) : (retireN s n).errlog = s.errlog := by
  unfold retireN takeSlots; split <;> rfl
@[simp] theorem retireN_corr (s : State) (n : Nat) : (retireN s n).corr = s.corr := by
  unfold retireN takeSlots; split <;> rfl
@[simp] theorem retireN_uncorr (s : State) (n : Nat) : (retireN s n).uncorr = s.uncorr := by
  unfold retireN takeSlots; split <;> rfl
@[simp] theorem retireN_sleepers (s : State) (n : Nat) : (retireN s n).sleepers = s.sleepers := by
  unfold retireN takeSlots; split <;> rfl
@[simp] theorem retireN_mmu (s : State) (n : Nat) : (retireN s n).mmu = s.mmu := by
  unfold retireN takeSlots; split <;> rfl
@[simp] theorem retireN_queues (s : State) (n : Nat) : (retireN s n).queues = s.queues := by
  unfold retireN takeSlots; split <;> rfl
@[simp] theorem retireN_ptr (s : State) (n : Nat) : (retireN s n).ptr = s.ptr := by
  unfold retireN takeSlots; split <;> rfl
@[simp] theorem retireN_reserved (s : State) (n : Nat) : (retireN s n).reserved = s.reserved := by
  unfold retireN takeSlots; split <;> rfl
@[simp] theorem retireN_joined (s : State) (n : Nat) : (retireN s n).joined = s.joined := by
  unfold retireN takeSlots; split <;> rfl
@[simp] theorem retireN_wcs (s : State) (n : Nat) : (retireN s n).wcs = s.wcs := by
  unfold retireN takeSlots; split <;> rfl
@[simp] theorem retireN_wcsLoad (s : State) (n : Nat) : (retireN s n).wcsLoad = s.wcsLoad := by
  unfold retireN takeSlots; split <;> rfl
@[simp] theorem retireN_ranges (s : State) (n : Nat) : (retireN s n).ranges = s.ranges := by
  unfold retireN takeSlots; split <;> rfl
@[simp] theorem retireN_fab (s : State) (n : Nat) : (retireN s n).fab = s.fab := by
  unfold retireN takeSlots; split <;> rfl
@[simp] theorem retireN_mgmt (s : State) (n : Nat) : (retireN s n).mgmt = s.mgmt := by
  unfold retireN takeSlots; split <;> rfl
@[simp] theorem retireN_agenda (s : State) (n : Nat) : (retireN s n).agenda = s.agenda := by
  unfold retireN takeSlots; split <;> rfl
@[simp] theorem retireN_core (s : State) (n : Nat) : (retireN s n).core = s.core := by
  unfold retireN takeSlots; split <;> rfl
@[simp] theorem retireN_turn (s : State) (n : Nat) : (retireN s n).turn = s.turn := by
  unfold retireN takeSlots; split <;> rfl
@[simp] theorem retireN_time (s : State) (n : Nat) : (retireN s n).time = s.time := by
  unfold retireN takeSlots; split <;> rfl
@[simp] theorem retireN_free (s : State) (n : Nat) : (retireN s n).free = s.free := by
  unfold retireN takeSlots; split <;> rfl
@[simp] theorem retireN_tstamp (s : State) (n : Nat) : (retireN s n).tstamp = s.tstamp := by
  unfold retireN takeSlots; split <;> rfl

/-! ### retireOpen -/

@[simp] theorem retireOpen_dram (s : State) : (retireOpen s).dram = s.dram := by
  cases h : s.word <;> simp only [retireOpen, takeSlots, h] <;> rfl
@[simp] theorem retireOpen_attrs (s : State) : (retireOpen s).attrs = s.attrs := by
  cases h : s.word <;> simp only [retireOpen, takeSlots, h] <;> rfl
@[simp] theorem retireOpen_old (s : State) : (retireOpen s).old = s.old := by
  cases h : s.word <;> simp only [retireOpen, takeSlots, h] <;> rfl
@[simp] theorem retireOpen_hist (s : State) : (retireOpen s).hist = s.hist := by
  cases h : s.word <;> simp only [retireOpen, takeSlots, h] <;> rfl
@[simp] theorem retireOpen_rels (s : State) : (retireOpen s).rels = s.rels := by
  cases h : s.word <;> simp only [retireOpen, takeSlots, h] <;> rfl
@[simp] theorem retireOpen_stamp (s : State) : (retireOpen s).stamp = s.stamp := by
  cases h : s.word <;> simp only [retireOpen, takeSlots, h] <;> rfl
@[simp] theorem retireOpen_ring (s : State) : (retireOpen s).ring = s.ring := by
  cases h : s.word <;> simp only [retireOpen, takeSlots, h] <;> rfl
@[simp] theorem retireOpen_reads (s : State) : (retireOpen s).reads = s.reads := by
  cases h : s.word <;> simp only [retireOpen, takeSlots, h] <;> rfl
@[simp] theorem retireOpen_errlog (s : State) : (retireOpen s).errlog = s.errlog := by
  cases h : s.word <;> simp only [retireOpen, takeSlots, h] <;> rfl
@[simp] theorem retireOpen_corr (s : State) : (retireOpen s).corr = s.corr := by
  cases h : s.word <;> simp only [retireOpen, takeSlots, h] <;> rfl
@[simp] theorem retireOpen_uncorr (s : State) : (retireOpen s).uncorr = s.uncorr := by
  cases h : s.word <;> simp only [retireOpen, takeSlots, h] <;> rfl
@[simp] theorem retireOpen_sleepers (s : State) : (retireOpen s).sleepers = s.sleepers := by
  cases h : s.word <;> simp only [retireOpen, takeSlots, h] <;> rfl
@[simp] theorem retireOpen_mmu (s : State) : (retireOpen s).mmu = s.mmu := by
  cases h : s.word <;> simp only [retireOpen, takeSlots, h] <;> rfl
@[simp] theorem retireOpen_queues (s : State) : (retireOpen s).queues = s.queues := by
  cases h : s.word <;> simp only [retireOpen, takeSlots, h] <;> rfl
@[simp] theorem retireOpen_ptr (s : State) : (retireOpen s).ptr = s.ptr := by
  cases h : s.word <;> simp only [retireOpen, takeSlots, h] <;> rfl
@[simp] theorem retireOpen_reserved (s : State) : (retireOpen s).reserved = s.reserved := by
  cases h : s.word <;> simp only [retireOpen, takeSlots, h] <;> rfl
@[simp] theorem retireOpen_joined (s : State) : (retireOpen s).joined = s.joined := by
  cases h : s.word <;> simp only [retireOpen, takeSlots, h] <;> rfl
@[simp] theorem retireOpen_wcs (s : State) : (retireOpen s).wcs = s.wcs := by
  cases h : s.word <;> simp only [retireOpen, takeSlots, h] <;> rfl
@[simp] theorem retireOpen_wcsLoad (s : State) : (retireOpen s).wcsLoad = s.wcsLoad := by
  cases h : s.word <;> simp only [retireOpen, takeSlots, h] <;> rfl
@[simp] theorem retireOpen_ranges (s : State) : (retireOpen s).ranges = s.ranges := by
  cases h : s.word <;> simp only [retireOpen, takeSlots, h] <;> rfl
@[simp] theorem retireOpen_fab (s : State) : (retireOpen s).fab = s.fab := by
  cases h : s.word <;> simp only [retireOpen, takeSlots, h] <;> rfl
@[simp] theorem retireOpen_mgmt (s : State) : (retireOpen s).mgmt = s.mgmt := by
  cases h : s.word <;> simp only [retireOpen, takeSlots, h] <;> rfl
@[simp] theorem retireOpen_agenda (s : State) : (retireOpen s).agenda = s.agenda := by
  cases h : s.word <;> simp only [retireOpen, takeSlots, h] <;> rfl
@[simp] theorem retireOpen_core (s : State) : (retireOpen s).core = s.core := by
  cases h : s.word <;> simp only [retireOpen, takeSlots, h] <;> rfl
@[simp] theorem retireOpen_turn (s : State) : (retireOpen s).turn = s.turn := by
  cases h : s.word <;> simp only [retireOpen, takeSlots, h] <;> rfl
@[simp] theorem retireOpen_time (s : State) : (retireOpen s).time = s.time := by
  cases h : s.word <;> simp only [retireOpen, takeSlots, h] <;> rfl
@[simp] theorem retireOpen_free (s : State) : (retireOpen s).free = s.free := by
  cases h : s.word <;> simp only [retireOpen, takeSlots, h] <;> rfl
@[simp] theorem retireOpen_tstamp (s : State) : (retireOpen s).tstamp = s.tstamp := by
  cases h : s.word <;> simp only [retireOpen, takeSlots, h] <;> rfl

/-! ### stall -/

@[simp] theorem stall_dram (s : State) : (stall s).dram = s.dram := by
  unfold stall; split <;> rfl
@[simp] theorem stall_attrs (s : State) : (stall s).attrs = s.attrs := by
  unfold stall; split <;> rfl
@[simp] theorem stall_old (s : State) : (stall s).old = s.old := by
  unfold stall; split <;> rfl
@[simp] theorem stall_hist (s : State) : (stall s).hist = s.hist := by
  unfold stall; split <;> rfl
@[simp] theorem stall_rels (s : State) : (stall s).rels = s.rels := by
  unfold stall; split <;> rfl
@[simp] theorem stall_stamp (s : State) : (stall s).stamp = s.stamp := by
  unfold stall; split <;> rfl
@[simp] theorem stall_ring (s : State) : (stall s).ring = s.ring := by
  unfold stall; split <;> rfl
@[simp] theorem stall_reads (s : State) : (stall s).reads = s.reads := by
  unfold stall; split <;> rfl
@[simp] theorem stall_errlog (s : State) : (stall s).errlog = s.errlog := by
  unfold stall; split <;> rfl
@[simp] theorem stall_corr (s : State) : (stall s).corr = s.corr := by
  unfold stall; split <;> rfl
@[simp] theorem stall_uncorr (s : State) : (stall s).uncorr = s.uncorr := by
  unfold stall; split <;> rfl
@[simp] theorem stall_sleepers (s : State) : (stall s).sleepers = s.sleepers := by
  unfold stall; split <;> rfl
@[simp] theorem stall_mmu (s : State) : (stall s).mmu = s.mmu := by
  unfold stall; split <;> rfl
@[simp] theorem stall_queues (s : State) : (stall s).queues = s.queues := by
  unfold stall; split <;> rfl
@[simp] theorem stall_ptr (s : State) : (stall s).ptr = s.ptr := by
  unfold stall; split <;> rfl
@[simp] theorem stall_reserved (s : State) : (stall s).reserved = s.reserved := by
  unfold stall; split <;> rfl
@[simp] theorem stall_joined (s : State) : (stall s).joined = s.joined := by
  unfold stall; split <;> rfl
@[simp] theorem stall_wcs (s : State) : (stall s).wcs = s.wcs := by
  unfold stall; split <;> rfl
@[simp] theorem stall_wcsLoad (s : State) : (stall s).wcsLoad = s.wcsLoad := by
  unfold stall; split <;> rfl
@[simp] theorem stall_ranges (s : State) : (stall s).ranges = s.ranges := by
  unfold stall; split <;> rfl
@[simp] theorem stall_fab (s : State) : (stall s).fab = s.fab := by
  unfold stall; split <;> rfl
@[simp] theorem stall_mgmt (s : State) : (stall s).mgmt = s.mgmt := by
  unfold stall; split <;> rfl
@[simp] theorem stall_agenda (s : State) : (stall s).agenda = s.agenda := by
  unfold stall; split <;> rfl
@[simp] theorem stall_core (s : State) : (stall s).core = s.core := by
  unfold stall; split <;> rfl
@[simp] theorem stall_turn (s : State) : (stall s).turn = s.turn := by
  unfold stall; split <;> rfl
@[simp] theorem stall_time (s : State) : (stall s).time = s.time := by
  unfold stall; split <;> rfl
@[simp] theorem stall_free (s : State) : (stall s).free = s.free := by
  unfold stall; split <;> rfl
@[simp] theorem stall_tstamp (s : State) : (stall s).tstamp = s.tstamp := by
  unfold stall; split <;> rfl

/-! ### stallAsleep -/

@[simp] theorem stallAsleep_dram (s : State) : (stallAsleep s).dram = s.dram := by
  unfold stallAsleep; split <;> rfl
@[simp] theorem stallAsleep_attrs (s : State) : (stallAsleep s).attrs = s.attrs := by
  unfold stallAsleep; split <;> rfl
@[simp] theorem stallAsleep_old (s : State) : (stallAsleep s).old = s.old := by
  unfold stallAsleep; split <;> rfl
@[simp] theorem stallAsleep_hist (s : State) : (stallAsleep s).hist = s.hist := by
  unfold stallAsleep; split <;> rfl
@[simp] theorem stallAsleep_rels (s : State) : (stallAsleep s).rels = s.rels := by
  unfold stallAsleep; split <;> rfl
@[simp] theorem stallAsleep_stamp (s : State) : (stallAsleep s).stamp = s.stamp := by
  unfold stallAsleep; split <;> rfl
@[simp] theorem stallAsleep_ring (s : State) : (stallAsleep s).ring = s.ring := by
  unfold stallAsleep; split <;> rfl
@[simp] theorem stallAsleep_reads (s : State) : (stallAsleep s).reads = s.reads := by
  unfold stallAsleep; split <;> rfl
@[simp] theorem stallAsleep_errlog (s : State) : (stallAsleep s).errlog = s.errlog := by
  unfold stallAsleep; split <;> rfl
@[simp] theorem stallAsleep_corr (s : State) : (stallAsleep s).corr = s.corr := by
  unfold stallAsleep; split <;> rfl
@[simp] theorem stallAsleep_uncorr (s : State) : (stallAsleep s).uncorr = s.uncorr := by
  unfold stallAsleep; split <;> rfl
@[simp] theorem stallAsleep_sleepers (s : State) : (stallAsleep s).sleepers = s.sleepers := by
  unfold stallAsleep; split <;> rfl
@[simp] theorem stallAsleep_mmu (s : State) : (stallAsleep s).mmu = s.mmu := by
  unfold stallAsleep; split <;> rfl
@[simp] theorem stallAsleep_queues (s : State) : (stallAsleep s).queues = s.queues := by
  unfold stallAsleep; split <;> rfl
@[simp] theorem stallAsleep_ptr (s : State) : (stallAsleep s).ptr = s.ptr := by
  unfold stallAsleep; split <;> rfl
@[simp] theorem stallAsleep_reserved (s : State) : (stallAsleep s).reserved = s.reserved := by
  unfold stallAsleep; split <;> rfl
@[simp] theorem stallAsleep_joined (s : State) : (stallAsleep s).joined = s.joined := by
  unfold stallAsleep; split <;> rfl
@[simp] theorem stallAsleep_wcs (s : State) : (stallAsleep s).wcs = s.wcs := by
  unfold stallAsleep; split <;> rfl
@[simp] theorem stallAsleep_wcsLoad (s : State) : (stallAsleep s).wcsLoad = s.wcsLoad := by
  unfold stallAsleep; split <;> rfl
@[simp] theorem stallAsleep_ranges (s : State) : (stallAsleep s).ranges = s.ranges := by
  unfold stallAsleep; split <;> rfl
@[simp] theorem stallAsleep_fab (s : State) : (stallAsleep s).fab = s.fab := by
  unfold stallAsleep; split <;> rfl
@[simp] theorem stallAsleep_mgmt (s : State) : (stallAsleep s).mgmt = s.mgmt := by
  unfold stallAsleep; split <;> rfl
@[simp] theorem stallAsleep_agenda (s : State) : (stallAsleep s).agenda = s.agenda := by
  unfold stallAsleep; split <;> rfl
@[simp] theorem stallAsleep_core (s : State) : (stallAsleep s).core = s.core := by
  unfold stallAsleep; split <;> rfl
@[simp] theorem stallAsleep_turn (s : State) : (stallAsleep s).turn = s.turn := by
  unfold stallAsleep; split <;> rfl
@[simp] theorem stallAsleep_time (s : State) : (stallAsleep s).time = s.time := by
  unfold stallAsleep; split <;> rfl
@[simp] theorem stallAsleep_free (s : State) : (stallAsleep s).free = s.free := by
  unfold stallAsleep; split <;> rfl
@[simp] theorem stallAsleep_tstamp (s : State) : (stallAsleep s).tstamp = s.tstamp := by
  unfold stallAsleep; split <;> rfl

@[simp] theorem retireN_word (s : State) (n : Nat) : (retireN s n).word = none := rfl

end Sys2Proof.Machine
end

