-- ==== Sys2Proof/Laws/Hub.lean ====
section
/-! SUPPORT. The queues of the hub: what an update of a queue or of a packet leaves as it was, and the end of a packet's work. -/

namespace Sys2Proof.Machine

@[simp] theorem getQueue_setQueue (s : State) (q i : Nat) (x : Queue) :
    getQueue (setQueue s q x) i = if q = i then some x else getQueue s i := Map.find_set _ _ _ _

@[simp] theorem getQueue_due (s : State) (es : List Event) (i : Nat) : getQueue (due s es) i = getQueue s i := rfl
@[simp] theorem getPacket_due (s : State) (es : List Event) (q k : Nat) : getPacket (due s es) q k = getPacket s q k := rfl
@[simp] theorem due_agenda (s : State) (es : List Event) : (due s es).agenda = s.agenda ++ es := rfl
@[simp] theorem due_nil (s : State) : due s [] = s := by simp [due]

/-- A packet is found by its index. -/
theorem getPacket_k {s : State} {q k : Nat} {p : Packet} (h : getPacket s q k = some p) : p.k = k := by
  unfold getPacket at h
  cases hq : getQueue s q with
  | none => simp [hq] at h
  | some x => rw [hq] at h; simpa using List.find?_some h

/-- Replacing a packet of a list by one with the same index. -/
theorem find_replace (l : List Packet) (p : Packet) (j : Nat) (h : ∃ x, l.find? (fun y => y.k = p.k) = some x) :
    (l.map fun y => if y.k = p.k then p else y).find? (fun y => y.k = j) = if p.k = j then some p else l.find? fun y => y.k = j := by
  induction l with
  | nil => obtain ⟨x, h⟩ := h; simp at h
  | cons y l ih =>
    by_cases hy : y.k = p.k
    · rw [List.map_cons, if_pos hy]
      by_cases hj : p.k = j
      · rw [if_pos hj, List.find?_cons_of_pos (by simpa using hj)]
      · rw [if_neg hj, List.find?_cons_of_neg (by simpa using hj), List.find?_cons_of_neg (by simpa [hy] using hj)]
        clear ih h
        induction l with
        | nil => rfl
        | cons z l ih =>
          rw [List.map_cons]
          by_cases hz : z.k = p.k
          · rw [if_pos hz, List.find?_cons_of_neg (by simpa using hj), List.find?_cons_of_neg (by simpa [hz] using hj), ih]
          · rw [if_neg hz]; simp only [List.find?_cons]; split
            · rfl
            · exact ih
    · rw [List.map_cons, if_neg hy]
      have h' : ∃ x, l.find? (fun y => y.k = p.k) = some x := by
        obtain ⟨x, h⟩ := h; exact ⟨x, by rwa [List.find?_cons_of_neg (by simpa using hy)] at h⟩
      simp only [List.find?_cons]
      by_cases hj : p.k = j
      · subst hj; simp [hy, ih h']
      · rw [if_neg hj]; split
        · rfl
        · rw [ih h', if_neg hj]

/-- What replacing a started packet does. -/
theorem getPacket_setPacket {s : State} {q : Nat} {p o : Packet} (h : getPacket s q p.k = some o) (j : Nat) :
    getPacket (setPacket s q p) q j = if p.k = j then some p else getPacket s q j := by
  unfold getPacket setPacket at *
  cases hq : getQueue s q with
  | none => simp [hq] at h
  | some x =>
    rw [hq] at h
    simp only [getQueue_setQueue, if_true, Option.bind_some]
    exact find_replace x.packets p j ⟨o, by simpa using h⟩

theorem getQueue_setPacket_ne {s : State} {q i : Nat} (p : Packet) (h : q ≠ i) : getQueue (setPacket s q p) i = getQueue s i := by
  unfold setPacket; split
  · rfl
  · simp [h]

/-- The end of a packet's work (R150): its result stands and PACKET_COMPLETE is due. -/
theorem finishPacket_eq {s : State} {q k : Nat} {p : Packet} (h : getPacket s q k = some p) (hr : p.job.res = none) (r : PRes) :
    finishPacket s q k r = due (setPacket s q { p with job := { p.job with res := some r } }) [.packetComplete q k] := by
  unfold finishPacket; rw [h]; simp [hr]

/-- A packet that runs does what its kind says. -/
theorem packetRun_eq {s : State} {q k : Nat} {x : Queue} {p : Packet} (hq : getQueue s q = some x) (hp : getPacket s q k = some p)
    (hr : p.done = false ∧ p.stop = false ∧ p.held = false ∧ p.job.res = none) (f : Queue → Packet → State) :
    packetRun s q k f = .next (f x p) := by
  obtain ⟨a, b, c, d⟩ := hr
  simp [packetRun, hq, hp, a, b, c, d]

end Sys2Proof.Machine
end

