-- ==== Sys2Proof/Laws/Issue.lean ====
section
/-! SUPPORT. The end of a word: what `retireN`, `retireOpen` and `stall` do to the state, said once. -/

namespace Sys2Proof.Machine

/-! ### Results in flight -/

/-- What a core keeps of what stood where a result lands (R68, R96). -/
def pastOf (k : Core) (p : Pend) : Past :=
  { eng := p.eng, num := p.num, seen := p.seen, fences := p.fences, landed := false, bar := none
    old := match p.dst with
      | .lanes ls => .lanes (ls.map fun l => (l.1, Map.get ⟨0, false⟩ k.v l.1))
      | .spad cells grains => let o := standing k.mem.spad cells grains; .spad o.1 o.2
      | .flags f => .flags (f &&& ~~~k.sys.fpflags) }

/-- What a core keeps when results land one after another, the latest first. -/
def pastsOf (k : Core) : List Pend → List Past
  | [] => []
  | p :: ps => pastsOf (mergePend k p) ps ++ [pastOf k p]

/-- Landing changes lanes, the scratchpad, flags and the look-back, whatever the handles and the rest of the issue side. -/
theorem mergePend_setH (k : Core) (p : Pend) (h : Vector (BitVec 128) 16) (i : Issue) :
    mergePend { k with h, iss := i } p = { mergePend k p with h, iss := { i with past := pastOf k p :: i.past } } := by
  unfold mergePend pastOf; cases p.dst <;> rfl

theorem mergePend_setIss (k : Core) (p : Pend) (i : Issue) :
    mergePend { k with iss := i } p = { mergePend k p with iss := { i with past := pastOf k p :: i.past } } := by
  unfold mergePend pastOf; cases p.dst <;> rfl

theorem mergePend_iss (k : Core) (p : Pend) : (mergePend k p).iss = { k.iss with past := pastOf k p :: k.iss.past } := by
  unfold mergePend pastOf; cases p.dst <;> rfl

theorem pastsOf_setH (ps : List Pend) (k : Core) (h : Vector (BitVec 128) 16) (i : Issue) :
    pastsOf { k with h, iss := i } ps = pastsOf k ps := by
  induction ps generalizing k h i with
  | nil => rfl
  | cons p ps ih => rw [pastsOf, pastsOf, mergePend_setH, ih]; rfl

theorem foldl_mergePend_setH (ps : List Pend) (k : Core) (h : Vector (BitVec 128) 16) (i : Issue) :
    ps.foldl mergePend { k with h, iss := i } = { ps.foldl mergePend k with h, iss := { i with past := pastsOf k ps ++ i.past } } := by
  induction ps generalizing k h i with
  | nil => rfl
  | cons p ps ih => rw [List.foldl_cons, mergePend_setH, ih, pastsOf, List.append_assoc]; rfl

theorem foldl_mergePend_setIss (ps : List Pend) (k : Core) (i : Issue) :
    ps.foldl mergePend { k with iss := i } = { ps.foldl mergePend k with iss := { i with past := pastsOf k ps ++ i.past } } := by
  induction ps generalizing k i with
  | nil => rfl
  | cons p ps ih =>
    rw [List.foldl_cons, mergePend_setIss, ih, show pastsOf { mergePend k p with iss := _ } ps = pastsOf (mergePend k p) ps from
      pastsOf_setH ps (mergePend k p) _ _, pastsOf, List.append_assoc]
    rfl

theorem foldl_mergePend_iss (ps : List Pend) (k : Core) :
    (ps.foldl mergePend k).iss = { k.iss with past := pastsOf k ps ++ k.iss.past } :=
  congrArg (·.iss) (foldl_mergePend_setIss ps k k.iss)

/-- Landing first the results that are due and then the rest is landing them all. -/
theorem mergeAll_expireFrom (k : Core) (ps : List Pend) :
    mergeAll (expireFrom k ps) = { ps.foldl mergePend k with iss := { k.iss with pend := [], past := pastsOf k ps ++ k.iss.past } } := by
  induction ps generalizing k with
  | nil => rfl
  | cons p ps ih =>
    simp only [expireFrom]
    split
    · rw [ih, mergePend_iss, pastsOf, List.append_assoc]; rfl
    · simp only [mergeAll, foldl_mergePend_setIss]

theorem mergeAll_eq (k : Core) : mergeAll k = { k.iss.pend.foldl mergePend k with
    iss := { k.iss with pend := [], past := pastsOf k k.iss.pend ++ k.iss.past } } := by
  simp only [mergeAll, foldl_mergePend_iss]

theorem mergeAll_expire (k : Core) : mergeAll (expire k) = mergeAll k := by
  rw [expire, mergeAll_expireFrom, mergeAll_eq]

theorem landed_expire (k : Core) : landed (expire k) = landed k := by
  unfold landed; rw [mergeAll_expire]

/-- Handles, handles in flight, what stood in handle registers and slot counts are what `landed` leaves out. -/
theorem landed_setH (k : Core) (h : Vector (BitVec 128) 16) (hp : List HPend) (sl : Vector Nat 7) (ks : List Past)
    (hk : ∀ p ∈ ks, p.ofHandle = true) :
    landed { k with h, iss := { k.iss with hpend := hp, slots := sl, past := ks ++ k.iss.past } } = landed k := by
  have hf : ks.filter (fun p => !p.ofHandle) = [] := List.filter_eq_nil_iff.mpr fun p hp => by simp [hk p hp]
  simp only [landed, mergeAll, foldl_mergePend_setH, foldl_mergePend_iss, List.filter_append, hf, List.nil_append]

/-- Completed handles are written one after another, and what stood before is kept. -/
theorem foldl_writeHandles (ps : List HPend) (k : Core) : ∃ ks : List Past, (∀ x ∈ ks, x.ofHandle = true) ∧
    ps.foldl (fun k p =>
      let k1 := remember k { eng := .s, num := p.num, seen := p.seen, fences := [], landed := false, bar := none
                             old := .handle p.h.toNat (vget k.h p.h.toNat 0) }
      { k1 with h := vset k.h p.h.toNat (p.val.getD 0) }) k =
    { k with h := ps.foldl (fun h p => vset h p.h.toNat (p.val.getD 0)) k.h, iss := { k.iss with past := ks ++ k.iss.past } } := by
  induction ps generalizing k with
  | nil => exact ⟨[], by simp, rfl⟩
  | cons p ps ih =>
    rw [List.foldl_cons, List.foldl_cons]
    obtain ⟨ks, hk, e⟩ := ih _
    refine ⟨ks ++ [{ eng := .s, num := p.num, seen := p.seen, fences := [], landed := false, bar := none
                     old := .handle p.h.toNat (vget k.h p.h.toNat 0) }], fun x hx => ?_, ?_⟩
    · rcases List.mem_append.mp hx with hx | hx
      · exact hk x hx
      · rw [List.mem_singleton.mp hx]; rfl
    · rw [e, List.append_assoc]; rfl

/-- Completed handles whose slot has come: the handle registers, the handles in flight and the look-back are all that they change. -/
theorem expireHandles_eq (k : Core) : ∃ ks : List Past, (∀ x ∈ ks, x.ofHandle = true) ∧ expireHandles k =
    { k with
      h := (k.iss.hpend.filter fun p => p.val.isSome && p.due ≤ vget k.iss.slots 0 0).foldl
        (fun h p => vset h p.h.toNat (p.val.getD 0)) k.h
      iss := { k.iss with past := ks ++ k.iss.past
                          hpend := k.iss.hpend.filter fun p => !(p.val.isSome && p.due ≤ vget k.iss.slots 0 0) } } := by
  obtain ⟨ks, hk, e⟩ := foldl_writeHandles (k.iss.hpend.filter fun p => p.val.isSome && p.due ≤ vget k.iss.slots 0 0) k
  exact ⟨ks, hk, by unfold expireHandles; dsimp only; rw [e]⟩

theorem landed_expireHandles (k : Core) : landed (expireHandles k) = landed k := by
  obtain ⟨ks, hk, e⟩ := expireHandles_eq k
  rw [e]; exact landed_setH k _ _ k.iss.slots ks hk

theorem landed_slots (k : Core) (sl : Vector Nat 7) : landed { k with iss := { k.iss with slots := sl } } = landed k :=
  landed_setH k k.h k.iss.hpend sl [] (by simp)

/-! ### What landing leaves alone -/

theorem mergePend_h (k : Core) (p : Pend) : (mergePend k p).h = k.h := by unfold mergePend; split <;> rfl

theorem expireFrom_h (k : Core) (ps : List Pend) : (expireFrom k ps).h = k.h := by
  induction ps generalizing k with
  | nil => rfl
  | cons p ps ih => simp only [expireFrom]; split; · rw [ih, mergePend_h]
                    · rfl

theorem expireFrom_iss (k : Core) (ps : List Pend) : ∃ qs ks, (expireFrom k ps).iss = { k.iss with pend := qs, past := ks } := by
  induction ps generalizing k with
  | nil => exact ⟨[], k.iss.past, rfl⟩
  | cons p ps ih =>
    simp only [expireFrom]; split
    · obtain ⟨qs, ks, h⟩ := ih (mergePend k p); exact ⟨qs, ks, by rw [h, mergePend_iss]⟩
    · exact ⟨_, k.iss.past, rfl⟩

theorem expire_iss (k : Core) : ∃ qs ks, (expire k).iss = { k.iss with pend := qs, past := ks } := expireFrom_iss k _

theorem foldl_handles (ps : List HPend) (hv : Vector (BitVec 128) 16) (h : BitVec 4) (hn : ∀ p ∈ ps, p.h ≠ h) :
    vget (ps.foldl (fun h p => vset h p.h.toNat (p.val.getD 0)) hv) h.toNat 0 = vget hv h.toNat 0 := by
  induction ps generalizing hv with
  | nil => rfl
  | cons p ps ih =>
    rw [List.foldl_cons, ih _ fun q hq => hn q (List.mem_cons_of_mem _ hq)]
    have : p.h.toNat ≠ h.toNat := fun e => hn p (List.mem_cons_self ..) (BitVec.eq_of_toNat_eq e)
    simp [vget, vset, this]

/-- A handle register with no completed handle in flight stands. -/
theorem expireHandles_get (k : Core) (h : BitVec 4) (hn : ∀ p ∈ k.iss.hpend, p.h = h → p.val = none) :
    vget (expireHandles k).h h.toNat 0 = vget k.h h.toNat 0 := by
  obtain ⟨ks, -, e⟩ := expireHandles_eq k
  rw [e]
  refine foldl_handles _ _ _ fun p hp e => ?_
  obtain ⟨hm, hb⟩ := List.mem_filter.mp hp
  simp [hn p hm e] at hb

theorem expireHandles_slots (k : Core) : (expireHandles k).iss.slots = k.iss.slots := by
  obtain ⟨ks, -, e⟩ := expireHandles_eq k
  rw [e]

theorem vget_vset {α : Type} {n : Nat} (v : Vector α n) (i j : Nat) (a d : α) :
    vget (vset v i a) j d = if i = j ∧ i < n then a else vget v j d := by
  unfold vget vset
  rw [Vector.getElem?_setIfInBounds]
  split
  · next h =>
    subst h
    by_cases hi : i < n
    · simp [hi]
    · simp [hi]
  · next h => simp [h]

theorem engIx_lt (e : Eng) : engIx e < 7 := by cases e <;> decide

/-! ### The end of a word -/

/-- An engine's count goes on by `n` slots: what R25, R67 and R272 let happen as slots pass. -/
def passSlots (w : QWord) (n : Nat) (k : Core) : Core :=
  expireHandles (expire
    { k with iss := { k.iss with slots := vset k.iss.slots (engIx w.eng) (vget k.iss.slots (engIx w.eng) 0 + n) } })

theorem retireN_eq (s : State) (n : Nat) {w : QWord} (hw : s.word = some w) :
    retireN s n = { onHere s (passSlots w n) with word := none } := by
  simp only [retireN, takeSlots, hw]; rfl

theorem here_retireN (s : State) (n : Nat) {w : QWord} (hw : s.word = some w) :
    here (retireN s n) = passSlots w n (here s) := by
  rw [retireN_eq s n hw]; exact here_onHere s _

theorem landed_passSlots (w : QWord) (n : Nat) (k : Core) : landed (passSlots w n k) = landed k := by
  rw [passSlots, landed_expireHandles, landed_expire, landed_slots]

theorem passSlots_iss (w : QWord) (n : Nat) (k : Core) : ∃ ps hs ks, (passSlots w n k).iss = { k.iss with
    slots := vset k.iss.slots (engIx w.eng) (vget k.iss.slots (engIx w.eng) 0 + n), pend := ps, hpend := hs, past := ks } := by
  obtain ⟨qs, ks, hq⟩ := expire_iss
    { k with iss := { k.iss with slots := vset k.iss.slots (engIx w.eng) (vget k.iss.slots (engIx w.eng) 0 + n) } }
  obtain ⟨js, -, e⟩ := expireHandles_eq (expire
    { k with iss := { k.iss with slots := vset k.iss.slots (engIx w.eng) (vget k.iss.slots (engIx w.eng) 0 + n) } })
  exact ⟨qs, _, _, by rw [passSlots, e, hq]⟩

theorem passSlots_slots (w : QWord) (n : Nat) (k : Core) (e : Nat) :
    vget (passSlots w n k).iss.slots e 0 = vget k.iss.slots e 0 + if e = engIx w.eng then n else 0 := by
  obtain ⟨ps, hs, ks, h⟩ := passSlots_iss w n k
  rw [h]
  simp only [vget_vset, engIx_lt, and_true]
  split
  · next h => subst h; rw [if_pos rfl]
  · next h => rw [if_neg fun e => h e.symm]; rfl

theorem passSlots_handle (w : QWord) (n : Nat) (k : Core) (h : BitVec 4) (hn : ∀ p ∈ k.iss.hpend, p.h = h → p.val = none) :
    vget (passSlots w n k).h h.toNat 0 = vget k.h h.toNat 0 := by
  obtain ⟨qs, ks, hq⟩ := expire_iss
    { k with iss := { k.iss with slots := vset k.iss.slots (engIx w.eng) (vget k.iss.slots (engIx w.eng) 0 + n) } }
  rw [passSlots, expireHandles_get, expire, expireFrom_h]
  rw [hq]; exact hn

/-- The end of a word in a state `u` that differs from `s` in the core that executes alone, by what the word's own rule does. -/
theorem retireN_ends_of {s u : State} (n : Nat) {w : QWord} {k : Core} (hw : s.word = some w)
    (hu : u = { s with cores := u.cores }) (ho : ∀ c, c ≠ s.core → getCore u c = getCore s c) (hh : here u = k) :
    Ends s (retireN u n) n k := by
  have hw' : u.word = some w := by rw [hu]; exact hw
  have hc : u.core = s.core := by rw [hu]
  have e := here_retireN u n hw'
  rw [hh] at e
  refine ⟨?_, ?_, ?_, ?_, ?_⟩
  · rw [retireN_eq u n hw', hu]; rfl
  · intro c hc'
    rw [retireN_eq u n hw']
    exact (getCore_onHere_ne u _ (by rw [hc]; exact hc')).trans (ho c hc')
  · rw [e, landed_passSlots]
  · intro w' hw'' i
    obtain rfl : w = w' := by rw [hw] at hw''; exact Option.some.inj hw''
    rw [e, passSlots_slots]
  · intro h hp
    rw [e, passSlots_handle _ _ _ _ hp]

/-- The end of a word whose own rule changes the core by `f`. -/
theorem retireN_ends (s : State) (n : Nat) {w : QWord} (hw : s.word = some w) (f : Core → Core) :
    Ends s (retireN (onHere s f) n) n (f (here s)) :=
  retireN_ends_of n hw rfl (fun _ hc => getCore_onHere_ne s f hc) (here_onHere s f)

theorem retire_ends (s : State) {w : QWord} (hw : s.word = some w) (f : Core → Core) : Ends s (retire (onHere s f)) 1 (f (here s)) :=
  retireN_ends s 1 hw f

/-- The end of a word with no effect of its own. -/
theorem retire_ends_id (s : State) {w : QWord} (hw : s.word = some w) : Ends s (retire s) 1 (here s) :=
  retireN_ends_of 1 hw rfl (fun _ _ => rfl) rfl

theorem landed_opensToken (w : QWord) (k : Core) : landed (opensToken w k) = opensToken w (landed k) := by
  simp only [landed, mergeAll, opensToken, foldl_mergePend_setIss, foldl_mergePend_iss]

/-- The end of a word whose token comes later (R95): its head is among those whose token is still to come. -/
theorem retireOpen_ends_of {s u : State} {w : QWord} {k : Core} (hw : s.word = some w)
    (hu : u = { s with cores := u.cores }) (ho : ∀ c, c ≠ s.core → getCore u c = getCore s c) (hh : here u = k) :
    Ends s (retireOpen u) 1 (opensToken w k) := by
  have hw' : u.word = some w := by rw [hu]; exact hw
  have hc : u.core = s.core := by rw [hu]
  have e : retireOpen u = { onHere (onHere u (passSlots w 1)) (opensToken w) with word := none } := by
    simp only [retireOpen, takeSlots, hw']; rfl
  have eh : here (retireOpen u) = opensToken w (passSlots w 1 k) := by
    rw [e, ← hh]
    exact (here_onHere (onHere u (passSlots w 1)) _).trans (congrArg _ (here_onHere u _))
  refine ⟨?_, ?_, ?_, ?_, ?_⟩
  · rw [e, hu]; rfl
  · intro c hc'
    rw [e]
    refine (getCore_onHere_ne (onHere u (passSlots w 1)) _ (by simpa [hc] using hc')).trans ?_
    exact (getCore_onHere_ne u _ (by rw [hc]; exact hc')).trans (ho c hc')
  · rw [eh, landed_opensToken, landed_passSlots, landed_opensToken]
  · intro w' hw'' i
    obtain rfl : w = w' := by rw [hw] at hw''; exact Option.some.inj hw''
    rw [eh]; exact passSlots_slots w 1 _ i
  · intro h hp
    rw [eh]; exact passSlots_handle w 1 _ h hp

theorem stall_waits (s : State) {w : QWord} (hw : s.word = some w) : Waits s (stall s) := ⟨w, hw, by simp only [stall, hw]⟩

/-! ### What a core holds after the end of a word -/

/-- What no landing changes, no `landed` changes. -/
theorem landed_field {α : Type} (g : Core → α) (hm : ∀ k p, g (mergePend k p) = g k)
    (hi : ∀ k (i : Issue), g { k with iss := i } = g k)
    (hh : ∀ k (h : Vector (BitVec 128) 16) (i : Issue), g { k with h, iss := i } = g k) (k : Core) : g (landed k) = g k := by
  have hf : ∀ (ps : List Pend) (k : Core), g (ps.foldl mergePend k) = g k := by
    intro ps
    induction ps with
    | nil => intro k; rfl
    | cons p ps ih => intro k; rw [List.foldl_cons, ih, hm]
  simp only [landed]
  rw [hh, mergeAll_eq, hi, hf]

@[simp] theorem mergePend_task (k : Core) (p : Pend) : (mergePend k p).task = k.task := by unfold mergePend; split <;> rfl
@[simp] theorem mergePend_handler (k : Core) (p : Pend) : (mergePend k p).handler = k.handler := by unfold mergePend; split <;> rfl
@[simp] theorem mergePend_stepped (k : Core) (p : Pend) : (mergePend k p).stepped = k.stepped := by unfold mergePend; split <;> rfl
@[simp] theorem mergePend_ending (k : Core) (p : Pend) : (mergePend k p).ending = k.ending := by unfold mergePend; split <;> rfl
@[simp] theorem mergePend_pc (k : Core) (p : Pend) : (mergePend k p).pc = k.pc := by unfold mergePend; split <;> rfl
@[simp] theorem mergePend_s (k : Core) (p : Pend) : (mergePend k p).s = k.s := by unfold mergePend; split <;> rfl
@[simp] theorem mergePend_m (k : Core) (p : Pend) : (mergePend k p).m = k.m := by unfold mergePend; split <;> rfl
@[simp] theorem mergePend_g (k : Core) (p : Pend) : (mergePend k p).g = k.g := by unfold mergePend; split <;> rfl
@[simp] theorem mergePend_mreg (k : Core) (p : Pend) : (mergePend k p).mreg = k.mreg := by unfold mergePend; split <;> rfl
@[simp] theorem mergePend_wick (k : Core) (p : Pend) : (mergePend k p).wick = k.wick := by unfold mergePend; split <;> rfl
@[simp] theorem mergePend_chains (k : Core) (p : Pend) : (mergePend k p).chains = k.chains := by unfold mergePend; split <;> rfl
@[simp] theorem mergePend_drain (k : Core) (p : Pend) : (mergePend k p).drain = k.drain := by unfold mergePend; split <;> rfl
@[simp] theorem mergePend_loopx (k : Core) (p : Pend) : (mergePend k p).loopx = k.loopx := by unfold mergePend; split <;> rfl
@[simp] theorem mergePend_nest (k : Core) (p : Pend) : (mergePend k p).nest = k.nest := by unfold mergePend; split <;> rfl
@[simp] theorem mergePend_saved (k : Core) (p : Pend) : (mergePend k p).saved = k.saved := by unfold mergePend; split <;> rfl
@[simp] theorem mergePend_nests (k : Core) (p : Pend) : (mergePend k p).nests = k.nests := by unfold mergePend; split <;> rfl
@[simp] theorem mergePend_runs (k : Core) (p : Pend) : (mergePend k p).runs = k.runs := by unfold mergePend; split <;> rfl
@[simp] theorem mergePend_fired (k : Core) (p : Pend) : (mergePend k p).fired = k.fired := by unfold mergePend; split <;> rfl
@[simp] theorem mergePend_paths (k : Core) (p : Pend) : (mergePend k p).paths = k.paths := by unfold mergePend; split <;> rfl
@[simp] theorem mergePend_fetched (k : Core) (p : Pend) : (mergePend k p).fetched = k.fetched := by unfold mergePend; split <;> rfl
@[simp] theorem mergePend_fenceRel (k : Core) (p : Pend) : (mergePend k p).fenceRel = k.fenceRel := by unfold mergePend; split <;> rfl
@[simp] theorem mergePend_evq (k : Core) (p : Pend) : (mergePend k p).evq = k.evq := by unfold mergePend; split <;> rfl
@[simp] theorem mergePend_cmds (k : Core) (p : Pend) : (mergePend k p).cmds = k.cmds := by unfold mergePend; split <;> rfl
@[simp] theorem mergePend_push (k : Core) (p : Pend) : (mergePend k p).push = k.push := by unfold mergePend; split <;> rfl
@[simp] theorem mergePend_claim (k : Core) (p : Pend) : (mergePend k p).claim = k.claim := by unfold mergePend; split <;> rfl
@[simp] theorem mergePend_plain (k : Core) (p : Pend) : (mergePend k p).plain = k.plain := by unfold mergePend; split <;> rfl
@[simp] theorem mergePend_since (k : Core) (p : Pend) : (mergePend k p).since = k.since := by unfold mergePend; split <;> rfl
@[simp] theorem mergePend_ownxs (k : Core) (p : Pend) : (mergePend k p).ownxs = k.ownxs := by unfold mergePend; split <;> rfl
@[simp] theorem mergePend_floor (k : Core) (p : Pend) : (mergePend k p).floor = k.floor := by unfold mergePend; split <;> rfl
@[simp] theorem mergePend_floorX (k : Core) (p : Pend) : (mergePend k p).floorX = k.floorX := by unfold mergePend; split <;> rfl
@[simp] theorem mergePend_heard (k : Core) (p : Pend) : (mergePend k p).heard = k.heard := by unfold mergePend; split <;> rfl
@[simp] theorem mergePend_lastRead (k : Core) (p : Pend) : (mergePend k p).lastRead = k.lastRead := by unfold mergePend; split <;> rfl
@[simp] theorem mergePend_sleepers (k : Core) (p : Pend) : (mergePend k p).sleepers = k.sleepers := by unfold mergePend; split <;> rfl
@[simp] theorem mergePend_tlb (k : Core) (p : Pend) : (mergePend k p).tlb = k.tlb := by unfold mergePend; split <;> rfl
@[simp] theorem mergePend_lastCtx (k : Core) (p : Pend) : (mergePend k p).lastCtx = k.lastCtx := by unfold mergePend; split <;> rfl
@[simp] theorem mergePend_transit (k : Core) (p : Pend) : (mergePend k p).transit = k.transit := by unfold mergePend; split <;> rfl
@[simp] theorem mergePend_halting (k : Core) (p : Pend) : (mergePend k p).halting = k.halting := by unfold mergePend; split <;> rfl
@[simp] theorem mergePend_corrected (k : Core) (p : Pend) : (mergePend k p).corrected = k.corrected := by unfold mergePend; split <;> rfl

@[simp] theorem landed_task (k : Core) : (landed k).task = k.task :=
  landed_field (·.task) mergePend_task (fun _ _ => rfl) (fun _ _ _ => rfl) k
@[simp] theorem landed_handler (k : Core) : (landed k).handler = k.handler :=
  landed_field (·.handler) mergePend_handler (fun _ _ => rfl) (fun _ _ _ => rfl) k
@[simp] theorem landed_stepped (k : Core) : (landed k).stepped = k.stepped :=
  landed_field (·.stepped) mergePend_stepped (fun _ _ => rfl) (fun _ _ _ => rfl) k
@[simp] theorem landed_ending (k : Core) : (landed k).ending = k.ending :=
  landed_field (·.ending) mergePend_ending (fun _ _ => rfl) (fun _ _ _ => rfl) k
@[simp] theorem landed_pc (k : Core) : (landed k).pc = k.pc :=
  landed_field (·.pc) mergePend_pc (fun _ _ => rfl) (fun _ _ _ => rfl) k
@[simp] theorem landed_s (k : Core) : (landed k).s = k.s :=
  landed_field (·.s) mergePend_s (fun _ _ => rfl) (fun _ _ _ => rfl) k
@[simp] theorem landed_m (k : Core) : (landed k).m = k.m :=
  landed_field (·.m) mergePend_m (fun _ _ => rfl) (fun _ _ _ => rfl) k
@[simp] theorem landed_g (k : Core) : (landed k).g = k.g :=
  landed_field (·.g) mergePend_g (fun _ _ => rfl) (fun _ _ _ => rfl) k
@[simp] theorem landed_mreg (k : Core) : (landed k).mreg = k.mreg :=
  landed_field (·.mreg) mergePend_mreg (fun _ _ => rfl) (fun _ _ _ => rfl) k
@[simp] theorem landed_wick (k : Core) : (landed k).wick = k.wick :=
  landed_field (·.wick) mergePend_wick (fun _ _ => rfl) (fun _ _ _ => rfl) k
@[simp] theorem landed_chains (k : Core) : (landed k).chains = k.chains :=
  landed_field (·.chains) mergePend_chains (fun _ _ => rfl) (fun _ _ _ => rfl) k
@[simp] theorem landed_drain (k : Core) : (landed k).drain = k.drain :=
  landed_field (·.drain) mergePend_drain (fun _ _ => rfl) (fun _ _ _ => rfl) k
@[simp] theorem landed_loopx (k : Core) : (landed k).loopx = k.loopx :=
  landed_field (·.loopx) mergePend_loopx (fun _ _ => rfl) (fun _ _ _ => rfl) k
@[simp] theorem landed_nest (k : Core) : (landed k).nest = k.nest :=
  landed_field (·.nest) mergePend_nest (fun _ _ => rfl) (fun _ _ _ => rfl) k
@[simp] theorem landed_saved (k : Core) : (landed k).saved = k.saved :=
  landed_field (·.saved) mergePend_saved (fun _ _ => rfl) (fun _ _ _ => rfl) k
@[simp] theorem landed_nests (k : Core) : (landed k).nests = k.nests :=
  landed_field (·.nests) mergePend_nests (fun _ _ => rfl) (fun _ _ _ => rfl) k
@[simp] theorem landed_runs (k : Core) : (landed k).runs = k.runs :=
  landed_field (·.runs) mergePend_runs (fun _ _ => rfl) (fun _ _ _ => rfl) k
@[simp] theorem landed_fired (k : Core) : (landed k).fired = k.fired :=
  landed_field (·.fired) mergePend_fired (fun _ _ => rfl) (fun _ _ _ => rfl) k
@[simp] theorem landed_paths (k : Core) : (landed k).paths = k.paths :=
  landed_field (·.paths) mergePend_paths (fun _ _ => rfl) (fun _ _ _ => rfl) k
@[simp] theorem landed_fetched (k : Core) : (landed k).fetched = k.fetched :=
  landed_field (·.fetched) mergePend_fetched (fun _ _ => rfl) (fun _ _ _ => rfl) k
@[simp] theorem landed_fenceRel (k : Core) : (landed k).fenceRel = k.fenceRel :=
  landed_field (·.fenceRel) mergePend_fenceRel (fun _ _ => rfl) (fun _ _ _ => rfl) k
@[simp] theorem landed_evq (k : Core) : (landed k).evq = k.evq :=
  landed_field (·.evq) mergePend_evq (fun _ _ => rfl) (fun _ _ _ => rfl) k
@[simp] theorem landed_cmds (k : Core) : (landed k).cmds = k.cmds :=
  landed_field (·.cmds) mergePend_cmds (fun _ _ => rfl) (fun _ _ _ => rfl) k
@[simp] theorem landed_push (k : Core) : (landed k).push = k.push :=
  landed_field (·.push) mergePend_push (fun _ _ => rfl) (fun _ _ _ => rfl) k
@[simp] theorem landed_claim (k : Core) : (landed k).claim = k.claim :=
  landed_field (·.claim) mergePend_claim (fun _ _ => rfl) (fun _ _ _ => rfl) k
@[simp] theorem landed_plain (k : Core) : (landed k).plain = k.plain :=
  landed_field (·.plain) mergePend_plain (fun _ _ => rfl) (fun _ _ _ => rfl) k
@[simp] theorem landed_since (k : Core) : (landed k).since = k.since :=
  landed_field (·.since) mergePend_since (fun _ _ => rfl) (fun _ _ _ => rfl) k
@[simp] theorem landed_ownxs (k : Core) : (landed k).ownxs = k.ownxs :=
  landed_field (·.ownxs) mergePend_ownxs (fun _ _ => rfl) (fun _ _ _ => rfl) k
@[simp] theorem landed_floor (k : Core) : (landed k).floor = k.floor :=
  landed_field (·.floor) mergePend_floor (fun _ _ => rfl) (fun _ _ _ => rfl) k
@[simp] theorem landed_floorX (k : Core) : (landed k).floorX = k.floorX :=
  landed_field (·.floorX) mergePend_floorX (fun _ _ => rfl) (fun _ _ _ => rfl) k
@[simp] theorem landed_heard (k : Core) : (landed k).heard = k.heard :=
  landed_field (·.heard) mergePend_heard (fun _ _ => rfl) (fun _ _ _ => rfl) k
@[simp] theorem landed_lastRead (k : Core) : (landed k).lastRead = k.lastRead :=
  landed_field (·.lastRead) mergePend_lastRead (fun _ _ => rfl) (fun _ _ _ => rfl) k
@[simp] theorem landed_sleepers (k : Core) : (landed k).sleepers = k.sleepers :=
  landed_field (·.sleepers) mergePend_sleepers (fun _ _ => rfl) (fun _ _ _ => rfl) k
@[simp] theorem landed_tlb (k : Core) : (landed k).tlb = k.tlb :=
  landed_field (·.tlb) mergePend_tlb (fun _ _ => rfl) (fun _ _ _ => rfl) k
@[simp] theorem landed_lastCtx (k : Core) : (landed k).lastCtx = k.lastCtx :=
  landed_field (·.lastCtx) mergePend_lastCtx (fun _ _ => rfl) (fun _ _ _ => rfl) k
@[simp] theorem landed_transit (k : Core) : (landed k).transit = k.transit :=
  landed_field (·.transit) mergePend_transit (fun _ _ => rfl) (fun _ _ _ => rfl) k
@[simp] theorem landed_halting (k : Core) : (landed k).halting = k.halting :=
  landed_field (·.halting) mergePend_halting (fun _ _ => rfl) (fun _ _ _ => rfl) k
@[simp] theorem landed_corrected (k : Core) : (landed k).corrected = k.corrected :=
  landed_field (·.corrected) mergePend_corrected (fun _ _ => rfl) (fun _ _ _ => rfl) k

theorem Ends.task_eq {s t : State} {n : Nat} {k : Core} (h : Ends s t n k) : (here t).task = k.task := by
  have := congrArg (·.task) h.core; simpa using this
theorem Ends.handler_eq {s t : State} {n : Nat} {k : Core} (h : Ends s t n k) : (here t).handler = k.handler := by
  have := congrArg (·.handler) h.core; simpa using this
theorem Ends.stepped_eq {s t : State} {n : Nat} {k : Core} (h : Ends s t n k) : (here t).stepped = k.stepped := by
  have := congrArg (·.stepped) h.core; simpa using this
theorem Ends.ending_eq {s t : State} {n : Nat} {k : Core} (h : Ends s t n k) : (here t).ending = k.ending := by
  have := congrArg (·.ending) h.core; simpa using this
theorem Ends.pc_eq {s t : State} {n : Nat} {k : Core} (h : Ends s t n k) : (here t).pc = k.pc := by
  have := congrArg (·.pc) h.core; simpa using this
theorem Ends.s_eq {s t : State} {n : Nat} {k : Core} (h : Ends s t n k) : (here t).s = k.s := by
  have := congrArg (·.s) h.core; simpa using this
theorem Ends.m_eq {s t : State} {n : Nat} {k : Core} (h : Ends s t n k) : (here t).m = k.m := by
  have := congrArg (·.m) h.core; simpa using this
theorem Ends.g_eq {s t : State} {n : Nat} {k : Core} (h : Ends s t n k) : (here t).g = k.g := by
  have := congrArg (·.g) h.core; simpa using this
theorem Ends.mreg_eq {s t : State} {n : Nat} {k : Core} (h : Ends s t n k) : (here t).mreg = k.mreg := by
  have := congrArg (·.mreg) h.core; simpa using this
theorem Ends.wick_eq {s t : State} {n : Nat} {k : Core} (h : Ends s t n k) : (here t).wick = k.wick := by
  have := congrArg (·.wick) h.core; simpa using this
theorem Ends.chains_eq {s t : State} {n : Nat} {k : Core} (h : Ends s t n k) : (here t).chains = k.chains := by
  have := congrArg (·.chains) h.core; simpa using this
theorem Ends.drain_eq {s t : State} {n : Nat} {k : Core} (h : Ends s t n k) : (here t).drain = k.drain := by
  have := congrArg (·.drain) h.core; simpa using this
theorem Ends.loopx_eq {s t : State} {n : Nat} {k : Core} (h : Ends s t n k) : (here t).loopx = k.loopx := by
  have := congrArg (·.loopx) h.core; simpa using this
theorem Ends.nest_eq {s t : State} {n : Nat} {k : Core} (h : Ends s t n k) : (here t).nest = k.nest := by
  have := congrArg (·.nest) h.core; simpa using this
theorem Ends.saved_eq {s t : State} {n : Nat} {k : Core} (h : Ends s t n k) : (here t).saved = k.saved := by
  have := congrArg (·.saved) h.core; simpa using this
theorem Ends.nests_eq {s t : State} {n : Nat} {k : Core} (h : Ends s t n k) : (here t).nests = k.nests := by
  have := congrArg (·.nests) h.core; simpa using this
theorem Ends.runs_eq {s t : State} {n : Nat} {k : Core} (h : Ends s t n k) : (here t).runs = k.runs := by
  have := congrArg (·.runs) h.core; simpa using this
theorem Ends.fired_eq {s t : State} {n : Nat} {k : Core} (h : Ends s t n k) : (here t).fired = k.fired := by
  have := congrArg (·.fired) h.core; simpa using this
theorem Ends.paths_eq {s t : State} {n : Nat} {k : Core} (h : Ends s t n k) : (here t).paths = k.paths := by
  have := congrArg (·.paths) h.core; simpa using this
theorem Ends.fetched_eq {s t : State} {n : Nat} {k : Core} (h : Ends s t n k) : (here t).fetched = k.fetched := by
  have := congrArg (·.fetched) h.core; simpa using this
theorem Ends.fenceRel_eq {s t : State} {n : Nat} {k : Core} (h : Ends s t n k) : (here t).fenceRel = k.fenceRel := by
  have := congrArg (·.fenceRel) h.core; simpa using this
theorem Ends.evq_eq {s t : State} {n : Nat} {k : Core} (h : Ends s t n k) : (here t).evq = k.evq := by
  have := congrArg (·.evq) h.core; simpa using this
theorem Ends.cmds_eq {s t : State} {n : Nat} {k : Core} (h : Ends s t n k) : (here t).cmds = k.cmds := by
  have := congrArg (·.cmds) h.core; simpa using this
theorem Ends.push_eq {s t : State} {n : Nat} {k : Core} (h : Ends s t n k) : (here t).push = k.push := by
  have := congrArg (·.push) h.core; simpa using this
theorem Ends.claim_eq {s t : State} {n : Nat} {k : Core} (h : Ends s t n k) : (here t).claim = k.claim := by
  have := congrArg (·.claim) h.core; simpa using this
theorem Ends.plain_eq {s t : State} {n : Nat} {k : Core} (h : Ends s t n k) : (here t).plain = k.plain := by
  have := congrArg (·.plain) h.core; simpa using this
theorem Ends.since_eq {s t : State} {n : Nat} {k : Core} (h : Ends s t n k) : (here t).since = k.since := by
  have := congrArg (·.since) h.core; simpa using this
theorem Ends.ownxs_eq {s t : State} {n : Nat} {k : Core} (h : Ends s t n k) : (here t).ownxs = k.ownxs := by
  have := congrArg (·.ownxs) h.core; simpa using this
theorem Ends.floor_eq {s t : State} {n : Nat} {k : Core} (h : Ends s t n k) : (here t).floor = k.floor := by
  have := congrArg (·.floor) h.core; simpa using this
theorem Ends.floorX_eq {s t : State} {n : Nat} {k : Core} (h : Ends s t n k) : (here t).floorX = k.floorX := by
  have := congrArg (·.floorX) h.core; simpa using this
theorem Ends.heard_eq {s t : State} {n : Nat} {k : Core} (h : Ends s t n k) : (here t).heard = k.heard := by
  have := congrArg (·.heard) h.core; simpa using this
theorem Ends.lastRead_eq {s t : State} {n : Nat} {k : Core} (h : Ends s t n k) : (here t).lastRead = k.lastRead := by
  have := congrArg (·.lastRead) h.core; simpa using this
theorem Ends.sleepers_eq {s t : State} {n : Nat} {k : Core} (h : Ends s t n k) : (here t).sleepers = k.sleepers := by
  have := congrArg (·.sleepers) h.core; simpa using this
theorem Ends.tlb_eq {s t : State} {n : Nat} {k : Core} (h : Ends s t n k) : (here t).tlb = k.tlb := by
  have := congrArg (·.tlb) h.core; simpa using this
theorem Ends.lastCtx_eq {s t : State} {n : Nat} {k : Core} (h : Ends s t n k) : (here t).lastCtx = k.lastCtx := by
  have := congrArg (·.lastCtx) h.core; simpa using this
theorem Ends.transit_eq {s t : State} {n : Nat} {k : Core} (h : Ends s t n k) : (here t).transit = k.transit := by
  have := congrArg (·.transit) h.core; simpa using this
theorem Ends.halting_eq {s t : State} {n : Nat} {k : Core} (h : Ends s t n k) : (here t).halting = k.halting := by
  have := congrArg (·.halting) h.core; simpa using this
theorem Ends.corrected_eq {s t : State} {n : Nat} {k : Core} (h : Ends s t n k) : (here t).corrected = k.corrected := by
  have := congrArg (·.corrected) h.core; simpa using this

end Sys2Proof.Machine
end

