-- ==== Sys2Proof/Laws/Ops.lean ====
section
/-! SUPPORT. The named operations on registers, said once: what a register reads as after a write. -/

namespace Sys2Proof.Machine

theorem sreg_congr {k j : Core} (h : k.s = j.s) (hv : k.iss.view = j.iss.view) (r : BitVec 5) : sreg k r = sreg j r := by
  unfold sreg; rw [h, hv]

theorem mreg_congr {k j : Core} (h : k.m = j.m) (hv : k.iss.view = j.iss.view) (r : BitVec 3) : mreg k r = mreg j r := by
  unfold mreg; rw [h, hv]

/-- A word that sees every scalar register as it stands (R96). -/
theorem sreg_plain {k : Core} (h : k.iss.view = []) {r : BitVec 5} (hr : r ≠ 0) : sreg k r = vget k.s r.toNat 0 := by
  unfold sreg; rw [if_neg hr, h]; rfl

theorem mreg_plain {k : Core} (h : k.iss.view = []) {r : BitVec 3} (hr : r ≠ 0) : mreg k r = vget k.m r.toNat 0 := by
  unfold mreg; rw [if_neg hr, h]; rfl

@[simp] theorem sreg_zero (k : Core) : sreg k 0 = 0 := by simp [sreg]

@[simp] theorem mreg_zero (k : Core) : mreg k 0 = BitVec.allOnes 128 := by simp [mreg]

/-- A scalar register after a write (R238). -/
theorem sreg_setSreg (k : Core) (d r : BitVec 5) (v : W64) :
    sreg (setSreg k d v) r = if r = d ∧ d ≠ 0 then v else sreg k r := by
  unfold sreg setSreg
  by_cases hr : r = 0
  · subst hr; simp; intro h1 h2; exact absurd h1.symm h2
  · by_cases hd : d = 0
    · rw [if_neg hr, if_pos hd, if_neg hr, if_neg fun h => h.2 hd]
    · simp only [hr, hd, if_false, vget_vset]
      have : d.toNat < 32 := d.isLt
      by_cases e : r = d
      · subst e; rw [if_pos ⟨rfl, this⟩, if_pos ⟨rfl, hd⟩, Map.find_without, if_pos rfl]
      · have : d.toNat ≠ r.toNat := fun h => e (BitVec.eq_of_toNat_eq h.symm)
        simp [e, this, Map.find_without]

/-- A mask register after a write (R222). -/
theorem mreg_setMreg (k : Core) (d r : BitVec 3) (v : BitVec 128) :
    mreg (setMreg k d v) r = if r = d ∧ d ≠ 0 then v else mreg k r := by
  unfold mreg setMreg
  by_cases hr : r = 0
  · subst hr; simp; intro h1 h2; exact absurd h1.symm h2
  · by_cases hd : d = 0
    · rw [if_neg hr, if_pos hd, if_neg hr, if_neg fun h => h.2 hd]
    · simp only [hr, hd, if_false, vget_vset]
      have : d.toNat < 8 := d.isLt
      by_cases e : r = d
      · subst e; rw [if_pos ⟨rfl, this⟩, if_pos ⟨rfl, hd⟩, Map.find_without, if_pos rfl]
      · have : d.toNat ≠ r.toNat := fun h => e (BitVec.eq_of_toNat_eq h.symm)
        simp [e, this, Map.find_without]

/-- Writing a scalar register changes the scalar registers alone, and what the word that writes sees of them. -/
theorem setSreg_eq (k : Core) (d : BitVec 5) (v : W64) :
    setSreg k d v = { k with s := (setSreg k d v).s, iss := { k.iss with view := (setSreg k d v).iss.view } } := by
  unfold setSreg; split <;> rfl

theorem setMreg_eq (k : Core) (d : BitVec 3) (v : BitVec 128) :
    setMreg k d v = { k with m := (setMreg k d v).m, iss := { k.iss with view := (setMreg k d v).iss.view } } := by
  unfold setMreg; split <;> rfl

end Sys2Proof.Machine
end

