-- ==== Sys2Proof/Laws/PerInstr.lean ====
section
/-! SUPPORT. Statements made instruction by instruction. Family OneStream: a row is a word of the instruction stream or a
micro-operation of the control store, never both (R215, R391), so that each has one encoding. -/

namespace Sys2Proof.Laws.OneStream

/-- At most one of the two encoders knows the instruction. -/
def Statement (i : Instr) : Prop := encodeHead i = none ∨ encodeMicro i = none

theorem add : ∀ a0 a1 a2, Statement (.add a0 a1 a2) := by intros; exact .inr rfl
theorem sub : ∀ a0 a1 a2, Statement (.sub a0 a1 a2) := by intros; exact .inr rfl
theorem mul : ∀ a0 a1 a2, Statement (.mul a0 a1 a2) := by intros; exact .inr rfl
theorem mulh : ∀ a0 a1 a2, Statement (.mulh a0 a1 a2) := by intros; exact .inr rfl
theorem mulhn : ∀ a0 a1 a2, Statement (.mulhn a0 a1 a2) := by intros; exact .inr rfl
theorem div : ∀ a0 a1 a2, Statement (.div a0 a1 a2) := by intros; exact .inr rfl
theorem divn : ∀ a0 a1 a2, Statement (.divn a0 a1 a2) := by intros; exact .inr rfl
theorem rem : ∀ a0 a1 a2, Statement (.rem a0 a1 a2) := by intros; exact .inr rfl
theorem remn : ∀ a0 a1 a2, Statement (.remn a0 a1 a2) := by intros; exact .inr rfl
theorem and : ∀ a0 a1 a2, Statement (.and a0 a1 a2) := by intros; exact .inr rfl
theorem or : ∀ a0 a1 a2, Statement (.or a0 a1 a2) := by intros; exact .inr rfl
theorem xor : ∀ a0 a1 a2, Statement (.xor a0 a1 a2) := by intros; exact .inr rfl
theorem andn : ∀ a0 a1 a2, Statement (.andn a0 a1 a2) := by intros; exact .inr rfl
theorem sll : ∀ a0 a1 a2, Statement (.sll a0 a1 a2) := by intros; exact .inr rfl
theorem srl : ∀ a0 a1 a2, Statement (.srl a0 a1 a2) := by intros; exact .inr rfl
theorem sra : ∀ a0 a1 a2, Statement (.sra a0 a1 a2) := by intros; exact .inr rfl
theorem clz : ∀ a0 a1, Statement (.clz a0 a1) := by intros; exact .inr rfl
theorem ctz : ∀ a0 a1, Statement (.ctz a0 a1) := by intros; exact .inr rfl
theorem popc : ∀ a0 a1, Statement (.popc a0 a1) := by intros; exact .inr rfl
theorem slt : ∀ a0 a1 a2, Statement (.slt a0 a1 a2) := by intros; exact .inr rfl
theorem sltn : ∀ a0 a1 a2, Statement (.sltn a0 a1 a2) := by intros; exact .inr rfl
theorem seq : ∀ a0 a1 a2, Statement (.seq a0 a1 a2) := by intros; exact .inr rfl
theorem sel : ∀ a0 a1 a2 a3, Statement (.sel a0 a1 a2 a3) := by intros; exact .inr rfl
theorem sysr : ∀ a0 a1, Statement (.sysr a0 a1) := by intros; exact .inr rfl
theorem sysw : ∀ a0 a1, Statement (.sysw a0 a1) := by intros; exact .inr rfl
theorem trap : ∀ a0, Statement (.trap a0) := by intros; exact .inr rfl
theorem eret : Statement .eret := .inr rfl
theorem bkpt : ∀ a0, Statement (.bkpt a0) := by intros; exact .inr rfl
theorem nop : Statement .nop := .inr rfl
theorem endTask : Statement .endTask := .inr rfl
theorem wstart : ∀ a0 a1, Statement (.wstart a0 a1) := by intros; exact .inr rfl
theorem addi : ∀ a0 a1 a2, Statement (.addi a0 a1 a2) := by intros; exact .inr rfl
theorem andi : ∀ a0 a1 a2, Statement (.andi a0 a1 a2) := by intros; exact .inr rfl
theorem ori : ∀ a0 a1 a2, Statement (.ori a0 a1 a2) := by intros; exact .inr rfl
theorem xori : ∀ a0 a1 a2, Statement (.xori a0 a1 a2) := by intros; exact .inr rfl
theorem slti : ∀ a0 a1 a2, Statement (.slti a0 a1 a2) := by intros; exact .inr rfl
theorem slli : ∀ a0 a1 a2, Statement (.slli a0 a1 a2) := by intros; exact .inr rfl
theorem srli : ∀ a0 a1 a2, Statement (.srli a0 a1 a2) := by intros; exact .inr rfl
theorem srai : ∀ a0 a1 a2, Statement (.srai a0 a1 a2) := by intros; exact .inr rfl
theorem movi : ∀ a0 a1, Statement (.movi a0 a1) := by intros; exact .inr rfl
theorem movh : ∀ a0 a1, Statement (.movh a0 a1) := by intros; exact .inr rfl
theorem ldsp : ∀ a0 a1 a2 a3, Statement (.ldsp a0 a1 a2 a3) := by intros; exact .inr rfl
theorem stsp : ∀ a0 a1 a2 a3, Statement (.stsp a0 a1 a2 a3) := by intros; exact .inr rfl
theorem ldslot : ∀ a0 a1 a2, Statement (.ldslot a0 a1 a2) := by intros; exact .inr rfl
theorem stslot : ∀ a0 a1 a2, Statement (.stslot a0 a1 a2) := by intros; exact .inr rfl
theorem min : ∀ a0 a1 a2, Statement (.min a0 a1 a2) := by intros; exact .inr rfl
theorem max : ∀ a0 a1 a2, Statement (.max a0 a1 a2) := by intros; exact .inr rfl
theorem ldh : ∀ a0 a1 a2 a3, Statement (.ldh a0 a1 a2 a3) := by intros; exact .inr rfl
theorem sth : ∀ a0 a1 a2 a3, Statement (.sth a0 a1 a2 a3) := by intros; exact .inr rfl
theorem minn : ∀ a0 a1 a2, Statement (.minn a0 a1 a2) := by intros; exact .inr rfl
theorem maxn : ∀ a0 a1 a2, Statement (.maxn a0 a1 a2) := by intros; exact .inr rfl
theorem xlat : ∀ a0 a1 a2, Statement (.xlat a0 a1 a2) := by intros; exact .inr rfl
theorem b : ∀ a0, Statement (.b a0) := by intros; exact .inr rfl
theorem bc : ∀ a0 a1 a2 a3, Statement (.bc a0 a1 a2 a3) := by intros; exact .inr rfl
theorem bz : ∀ a0 a1, Statement (.bz a0 a1) := by intros; exact .inr rfl
theorem bnz : ∀ a0 a1, Statement (.bnz a0 a1) := by intros; exact .inr rfl
theorem call : ∀ a0, Statement (.call a0) := by intros; exact .inr rfl
theorem jr : ∀ a0, Statement (.jr a0) := by intros; exact .inr rfl
theorem loop : ∀ a0 a1 a2, Statement (.loop a0 a1 a2) := by intros; exact .inr rfl
theorem lbody : ∀ a0 a1, Statement (.lbody a0 a1) := by intros; exact .inr rfl
theorem lbrk : ∀ a0 a1 a2, Statement (.lbrk a0 a1 a2) := by intros; exact .inr rfl
theorem agset : ∀ a0 a1 a2, Statement (.agset a0 a1 a2) := by intros; exact .inr rfl
theorem agdim : ∀ a0 a1 a2 a3, Statement (.agdim a0 a1 a2 a3) := by intros; exact .inr rfl
theorem agind : ∀ a0 a1 a2, Statement (.agind a0 a1 a2) := by intros; exact .inr rfl
theorem agstep : ∀ a0 a1 a2, Statement (.agstep a0 a1 a2) := by intros; exact .inr rfl
theorem agrd : ∀ a0 a1, Statement (.agrd a0 a1) := by intros; exact .inr rfl
theorem agrdIdx : ∀ a0 a1 a2, Statement (.agrdIdx a0 a1 a2) := by intros; exact .inr rfl
theorem loopBodyEmission : ∀ a0, Statement (.loopBodyEmission a0) := by intros; exact .inr rfl
theorem vadd : ∀ a0 a1 a2 a3 a4 a5 a6, Statement (.vadd a0 a1 a2 a3 a4 a5 a6) := by intros; exact .inr rfl
theorem vsub : ∀ a0 a1 a2 a3 a4 a5 a6, Statement (.vsub a0 a1 a2 a3 a4 a5 a6) := by intros; exact .inr rfl
theorem vmul : ∀ a0 a1 a2 a3 a4 a5 a6, Statement (.vmul a0 a1 a2 a3 a4 a5 a6) := by intros; exact .inr rfl
theorem vfma : ∀ a0 a1 a2 a3 a4 a5 a6, Statement (.vfma a0 a1 a2 a3 a4 a5 a6) := by intros; exact .inr rfl
theorem vfms : ∀ a0 a1 a2 a3 a4 a5 a6, Statement (.vfms a0 a1 a2 a3 a4 a5 a6) := by intros; exact .inr rfl
theorem vfnma : ∀ a0 a1 a2 a3 a4 a5 a6, Statement (.vfnma a0 a1 a2 a3 a4 a5 a6) := by intros; exact .inr rfl
theorem vmin : ∀ a0 a1 a2 a3 a4 a5, Statement (.vmin a0 a1 a2 a3 a4 a5) := by intros; exact .inr rfl
theorem vmax : ∀ a0 a1 a2 a3 a4 a5, Statement (.vmax a0 a1 a2 a3 a4 a5) := by intros; exact .inr rfl
theorem vabs : ∀ a0 a1 a2 a3 a4, Statement (.vabs a0 a1 a2 a3 a4) := by intros; exact .inr rfl
theorem vneg : ∀ a0 a1 a2 a3 a4, Statement (.vneg a0 a1 a2 a3 a4) := by intros; exact .inr rfl
theorem vaddi : ∀ a0 a1 a2 a3, Statement (.vaddi a0 a1 a2 a3) := by intros; exact .inr rfl
theorem vand : ∀ a0 a1 a2 a3, Statement (.vand a0 a1 a2 a3) := by intros; exact .inr rfl
theorem vor : ∀ a0 a1 a2 a3, Statement (.vor a0 a1 a2 a3) := by intros; exact .inr rfl
theorem vxor : ∀ a0 a1 a2 a3, Statement (.vxor a0 a1 a2 a3) := by intros; exact .inr rfl
theorem vnot : ∀ a0 a1 a2, Statement (.vnot a0 a1 a2) := by intros; exact .inr rfl
theorem vshl : ∀ a0 a1 a2 a3, Statement (.vshl a0 a1 a2 a3) := by intros; exact .inr rfl
theorem vshr : ∀ a0 a1 a2 a3, Statement (.vshr a0 a1 a2 a3) := by intros; exact .inr rfl
theorem vsra : ∀ a0 a1 a2 a3, Statement (.vsra a0 a1 a2 a3) := by intros; exact .inr rfl
theorem vcmp : ∀ a0 a1 a2 a3 a4 a5, Statement (.vcmp a0 a1 a2 a3 a4 a5) := by intros; exact .inr rfl
theorem vsel : ∀ a0 a1 a2 a3, Statement (.vsel a0 a1 a2 a3) := by intros; exact .inr rfl
theorem vclass : ∀ a0 a1 a2 a3, Statement (.vclass a0 a1 a2 a3) := by intros; exact .inr rfl
theorem vcvt : ∀ a0 a1 a2 a3 a4 a5, Statement (.vcvt a0 a1 a2 a3 a4 a5) := by intros; exact .inr rfl
theorem vpack : ∀ a0 a1 a2 a3 a4 a5, Statement (.vpack a0 a1 a2 a3 a4 a5) := by intros; exact .inr rfl
theorem vunpack : ∀ a0 a1 a2 a3 a4, Statement (.vunpack a0 a1 a2 a3 a4) := by intros; exact .inr rfl
theorem vscale : ∀ a0 a1 a2 a3 a4 a5 a6, Statement (.vscale a0 a1 a2 a3 a4 a5 a6) := by intros; exact .inr rfl
theorem vred : ∀ a0 a1 a2 a3 a4 a5 a6, Statement (.vred a0 a1 a2 a3 a4 a5 a6) := by intros; exact .inr rfl
theorem vscan : ∀ a0 a1 a2 a3 a4 a5 a6, Statement (.vscan a0 a1 a2 a3 a4 a5 a6) := by intros; exact .inr rfl
theorem vmxq : ∀ a0 a1 a2 a3, Statement (.vmxq a0 a1 a2 a3) := by intros; exact .inr rfl
theorem vmxd : ∀ a0 a1 a2 a3 a4 a5, Statement (.vmxd a0 a1 a2 a3 a4 a5) := by intros; exact .inr rfl
theorem vld : ∀ a0 a1 a2 a3, Statement (.vld a0 a1 a2 a3) := by intros; exact .inr rfl
theorem vldSlot : ∀ a0 a1 a2, Statement (.vldSlot a0 a1 a2) := by intros; exact .inr rfl
theorem vst : ∀ a0 a1 a2 a3, Statement (.vst a0 a1 a2 a3) := by intros; exact .inr rfl
theorem vstSlot : ∀ a0 a1 a2, Statement (.vstSlot a0 a1 a2) := by intros; exact .inr rfl
theorem vldb : ∀ a0 a1 a2 a3, Statement (.vldb a0 a1 a2 a3) := by intros; exact .inr rfl
theorem vldg : ∀ a0 a1 a2 a3 a4, Statement (.vldg a0 a1 a2 a3 a4) := by intros; exact .inr rfl
theorem vstg : ∀ a0 a1 a2 a3 a4, Statement (.vstg a0 a1 a2 a3 a4) := by intros; exact .inr rfl
theorem vgat : ∀ a0 a1 a2 a3, Statement (.vgat a0 a1 a2 a3) := by intros; exact .inr rfl
theorem vperm : ∀ a0 a1 a2 a3, Statement (.vperm a0 a1 a2 a3) := by intros; exact .inr rfl
theorem vbcast : ∀ a0 a1 a2, Statement (.vbcast a0 a1 a2) := by intros; exact .inr rfl
theorem vmov : ∀ a0 a1 a2, Statement (.vmov a0 a1 a2) := by intros; exact .inr rfl
theorem vmovs : ∀ a0 a1 a2, Statement (.vmovs a0 a1 a2) := by intros; exact .inr rfl
theorem vins : ∀ a0 a1 a2, Statement (.vins a0 a1 a2) := by intros; exact .inr rfl
theorem mand : ∀ a0 a1 a2, Statement (.mand a0 a1 a2) := by intros; exact .inr rfl
theorem mor : ∀ a0 a1 a2, Statement (.mor a0 a1 a2) := by intros; exact .inr rfl
theorem mxor : ∀ a0 a1 a2, Statement (.mxor a0 a1 a2) := by intros; exact .inr rfl
theorem mnot : ∀ a0 a1, Statement (.mnot a0 a1) := by intros; exact .inr rfl
theorem mpop : ∀ a0 a1, Statement (.mpop a0 a1) := by intros; exact .inr rfl
theorem mfirst : ∀ a0 a1, Statement (.mfirst a0 a1) := by intros; exact .inr rfl
theorem xexp2 : ∀ a0 a1 a2, Statement (.xexp2 a0 a1 a2) := by intros; exact .inr rfl
theorem xlog2 : ∀ a0 a1 a2, Statement (.xlog2 a0 a1 a2) := by intros; exact .inr rfl
theorem xrcp : ∀ a0 a1 a2, Statement (.xrcp a0 a1 a2) := by intros; exact .inr rfl
theorem xrsq : ∀ a0 a1 a2, Statement (.xrsq a0 a1 a2) := by intros; exact .inr rfl
theorem xsqrt : ∀ a0 a1 a2, Statement (.xsqrt a0 a1 a2) := by intros; exact .inr rfl
theorem xsin : ∀ a0 a1 a2, Statement (.xsin a0 a1 a2) := by intros; exact .inr rfl
theorem xcos : ∀ a0 a1 a2, Statement (.xcos a0 a1 a2) := by intros; exact .inr rfl
theorem xtanh : ∀ a0 a1 a2, Statement (.xtanh a0 a1 a2) := by intros; exact .inr rfl
theorem xlogi : ∀ a0 a1 a2, Statement (.xlogi a0 a1 a2) := by intros; exact .inr rfl
theorem xerf : ∀ a0 a1 a2, Statement (.xerf a0 a1 a2) := by intros; exact .inr rfl
theorem xsmax : ∀ a0 a1 a2 a3, Statement (.xsmax a0 a1 a2 a3) := by intros; exact .inr rfl
theorem xexpm : ∀ a0 a1 a2 a3, Statement (.xexpm a0 a1 a2 a3) := by intros; exact .inr rfl
theorem bld : ∀ a0 a1 a2 a3, Statement (.bld a0 a1 a2 a3) := by intros; exact .inr rfl
theorem bldLut4 : ∀ a0 a1 a2 a3, Statement (.bldLut4 a0 a1 a2 a3) := by intros; exact .inr rfl
theorem mma : ∀ a0 a1 a2 a3 a4 a5 a6 a7, Statement (.mma a0 a1 a2 a3 a4 a5 a6 a7) := by intros; exact .inr rfl
theorem mmav : ∀ a0 a1 a2 a3 a4 a5 a6 a7, Statement (.mmav a0 a1 a2 a3 a4 a5 a6 a7) := by intros; exact .inr rfl
theorem acz : ∀ a0 a1 a2 a3, Statement (.acz a0 a1 a2 a3) := by intros; exact .inr rfl
theorem acinit : ∀ a0 a1 a2 a3, Statement (.acinit a0 a1 a2 a3) := by intros; exact .inr rfl
theorem aclose : ∀ a0, Statement (.aclose a0) := by intros; exact .inr rfl
theorem acrd : ∀ a0 a1 a2 a3, Statement (.acrd a0 a1 a2 a3) := by intros; exact .inr rfl
theorem acst : ∀ a0 a1, Statement (.acst a0 a1) := by intros; exact .inr rfl
theorem acstPart : ∀ a0 a1, Statement (.acstPart a0 a1) := by intros; exact .inr rfl
theorem acmerge : ∀ a0 a1 a2, Statement (.acmerge a0 a1 a2) := by intros; exact .inr rfl
theorem acdrop : ∀ a0, Statement (.acdrop a0) := by intros; exact .inr rfl
theorem tld : ∀ a0 a1, Statement (.tld a0 a1) := by intros; exact .inr rfl
theorem tswap : ∀ a0, Statement (.tswap a0) := by intros; exact .inr rfl
theorem slabReturn : ∀ a0, Statement (.slabReturn a0) := by intros; exact .inr rfl
theorem cpy : ∀ a0 a1 a2 a3, Statement (.cpy a0 a1 a2 a3) := by intros; exact .inr rfl
theorem cpyh : ∀ a0 a1 a2 a3, Statement (.cpyh a0 a1 a2 a3) := by intros; exact .inr rfl
theorem gath : ∀ a0 a1 a2 a3, Statement (.gath a0 a1 a2 a3) := by intros; exact .inr rfl
theorem scat : ∀ a0 a1 a2 a3, Statement (.scat a0 a1 a2 a3) := by intros; exact .inr rfl
theorem send : ∀ a0 a1 a2 a3, Statement (.send a0 a1 a2 a3) := by intros; exact .inr rfl
theorem bcast : ∀ a0 a1 a2 a3, Statement (.bcast a0 a1 a2 a3) := by intros; exact .inr rfl
theorem ratm : ∀ a0 a1 a2, Statement (.ratm a0 a1 a2) := by intros; exact .inr rfl
theorem sqld : ∀ a0 a1, Statement (.sqld a0 a1) := by intros; exact .inr rfl
theorem csum : ∀ a0 a1, Statement (.csum a0 a1) := by intros; exact .inr rfl
theorem nmq : ∀ a0 a1 a2, Statement (.nmq a0 a1 a2) := by intros; exact .inr rfl
theorem nmr : ∀ a0 a1 a2, Statement (.nmr a0 a1 a2) := by intros; exact .inr rfl
theorem coll : ∀ a0 a1 a2, Statement (.coll a0 a1 a2) := by intros; exact .inr rfl
theorem carry : ∀ a0 a1 a2 a3, Statement (.carry a0 a1 a2 a3) := by intros; exact .inr rfl
theorem merge : ∀ a0 a1 a2 a3 a4 a5, Statement (.merge a0 a1 a2 a3 a4 a5) := by intros; exact .inr rfl
theorem cmpct : ∀ a0 a1 a2 a3, Statement (.cmpct a0 a1 a2 a3) := by intros; exact .inr rfl
theorem commandComplete : ∀ a0 a1, Statement (.commandComplete a0 a1) := by intros; exact .inr rfl
theorem scratchpadDeliveryLanding : ∀ a0 a1, Statement (.scratchpadDeliveryLanding a0 a1) := by intros; exact .inr rfl
theorem remoteAtomicMessage : ∀ a0 a1, Statement (.remoteAtomicMessage a0 a1) := by intros; exact .inr rfl
theorem scaleEntryLand : ∀ a0 a1, Statement (.scaleEntryLand a0 a1) := by intros; exact .inr rfl
theorem candlePartialLand : ∀ a0 a1, Statement (.candlePartialLand a0 a1) := by intros; exact .inr rfl
theorem nmrBagLand : ∀ a0 a1, Statement (.nmrBagLand a0 a1) := by intros; exact .inr rfl
theorem prismCollectiveArrival : ∀ a0, Statement (.prismCollectiveArrival a0) := by intros; exact .inr rfl
theorem collectiveResult : ∀ a0, Statement (.collectiveResult a0) := by intros; exact .inr rfl
theorem carryDelivery : ∀ a0, Statement (.carryDelivery a0) := by intros; exact .inr rfl
theorem fence : ∀ a0 a1, Statement (.fence a0 a1) := by intros; exact .inr rfl
theorem ldsDevice : ∀ a0 a1 a2 a3 a4 a5, Statement (.ldsDevice a0 a1 a2 a3 a4 a5) := by intros; exact .inr rfl
theorem stsDevice : ∀ a0 a1 a2 a3 a4 a5, Statement (.stsDevice a0 a1 a2 a3 a4 a5) := by intros; exact .inr rfl
theorem aaddDevice : ∀ a0 a1 a2 a3 a4 a5, Statement (.aaddDevice a0 a1 a2 a3 a4 a5) := by intros; exact .inr rfl
theorem aminDevice : ∀ a0 a1 a2 a3 a4 a5, Statement (.aminDevice a0 a1 a2 a3 a4 a5) := by intros; exact .inr rfl
theorem amaxDevice : ∀ a0 a1 a2 a3 a4 a5, Statement (.amaxDevice a0 a1 a2 a3 a4 a5) := by intros; exact .inr rfl
theorem aandDevice : ∀ a0 a1 a2 a3 a4 a5, Statement (.aandDevice a0 a1 a2 a3 a4 a5) := by intros; exact .inr rfl
theorem aorDevice : ∀ a0 a1 a2 a3 a4 a5, Statement (.aorDevice a0 a1 a2 a3 a4 a5) := by intros; exact .inr rfl
theorem axorDevice : ∀ a0 a1 a2 a3 a4 a5, Statement (.axorDevice a0 a1 a2 a3 a4 a5) := by intros; exact .inr rfl
theorem aswpDevice : ∀ a0 a1 a2 a3 a4 a5, Statement (.aswpDevice a0 a1 a2 a3 a4 a5) := by intros; exact .inr rfl
theorem acasDevice : ∀ a0 a1 a2 a3 a4 a5, Statement (.acasDevice a0 a1 a2 a3 a4 a5) := by intros; exact .inr rfl
theorem waitvDevice : ∀ a0 a1 a2 a3 a4, Statement (.waitvDevice a0 a1 a2 a3 a4) := by intros; exact .inr rfl
theorem ntoneDevice : ∀ a0 a1 a2 a3, Statement (.ntoneDevice a0 a1 a2 a3) := by intros; exact .inr rfl
theorem ntallDevice : ∀ a0 a1 a2 a3, Statement (.ntallDevice a0 a1 a2 a3) := by intros; exact .inr rfl
theorem ownx : ∀ a0 a1 a2, Statement (.ownx a0 a1 a2) := by intros; exact .inr rfl
theorem ldsSp : ∀ a0 a1 a2 a3 a4, Statement (.ldsSp a0 a1 a2 a3 a4) := by intros; exact .inr rfl
theorem stsSp : ∀ a0 a1 a2 a3 a4, Statement (.stsSp a0 a1 a2 a3 a4) := by intros; exact .inr rfl
theorem aaddSp : ∀ a0 a1 a2 a3 a4, Statement (.aaddSp a0 a1 a2 a3 a4) := by intros; exact .inr rfl
theorem aminSp : ∀ a0 a1 a2 a3 a4, Statement (.aminSp a0 a1 a2 a3 a4) := by intros; exact .inr rfl
theorem amaxSp : ∀ a0 a1 a2 a3 a4, Statement (.amaxSp a0 a1 a2 a3 a4) := by intros; exact .inr rfl
theorem aandSp : ∀ a0 a1 a2 a3 a4, Statement (.aandSp a0 a1 a2 a3 a4) := by intros; exact .inr rfl
theorem aorSp : ∀ a0 a1 a2 a3 a4, Statement (.aorSp a0 a1 a2 a3 a4) := by intros; exact .inr rfl
theorem axorSp : ∀ a0 a1 a2 a3 a4, Statement (.axorSp a0 a1 a2 a3 a4) := by intros; exact .inr rfl
theorem aswpSp : ∀ a0 a1 a2 a3 a4, Statement (.aswpSp a0 a1 a2 a3 a4) := by intros; exact .inr rfl
theorem acasSp : ∀ a0 a1 a2 a3 a4, Statement (.acasSp a0 a1 a2 a3 a4) := by intros; exact .inr rfl
theorem waitvSp : ∀ a0 a1 a2 a3, Statement (.waitvSp a0 a1 a2 a3) := by intros; exact .inr rfl
theorem ntoneSp : ∀ a0 a1 a2, Statement (.ntoneSp a0 a1 a2) := by intros; exact .inr rfl
theorem ntallSp : ∀ a0 a1 a2, Statement (.ntallSp a0 a1 a2) := by intros; exact .inr rfl
theorem waitvFreshRead : ∀ a0, Statement (.waitvFreshRead a0) := by intros; exact .inr rfl
theorem binit : ∀ a0 a1, Statement (.binit a0 a1) := by intros; exact .inr rfl
theorem barv : ∀ a0 a1, Statement (.barv a0 a1) := by intros; exact .inr rfl
theorem bexp : ∀ a0 a1, Statement (.bexp a0 a1) := by intros; exact .inr rfl
theorem bwait : ∀ a0 a1 a2 a3 a4, Statement (.bwait a0 a1 a2 a3 a4) := by intros; exact .inr rfl
theorem tkt : ∀ a0 a1, Statement (.tkt a0 a1) := by intros; exact .inr rfl
theorem qpush : ∀ a0 a1 a2 a3, Statement (.qpush a0 a1 a2 a3) := by intros; exact .inr rfl
theorem qpushPublish : ∀ a0, Statement (.qpushPublish a0) := by intros; exact .inr rfl
theorem evpop : ∀ a0 a1, Statement (.evpop a0 a1) := by intros; exact .inr rfl
theorem sigw : ∀ a0 a1 a2 a3 a4, Statement (.sigw a0 a1 a2 a3 a4) := by intros; exact .inr rfl
theorem splitterSteerGroup : ∀ a0, Statement (.splitterSteerGroup a0) := by intros; exact .inr rfl
theorem exposedResultExpire : ∀ a0, Statement (.exposedResultExpire a0) := by intros; exact .inr rfl
theorem pageWalkComplete : ∀ a0 a1, Statement (.pageWalkComplete a0 a1) := by intros; exact .inr rfl
theorem sweepPeriodBoundary : ∀ a0, Statement (.sweepPeriodBoundary a0) := by intros; exact .inr rfl
theorem sweeperVisit : ∀ a0 a1, Statement (.sweeperVisit a0 a1) := by intros; exact .inr rfl
theorem shootdownStart : ∀ a0, Statement (.shootdownStart a0) := by intros; exact .inr rfl
theorem shootdownComplete : ∀ a0, Statement (.shootdownComplete a0) := by intros; exact .inr rfl
theorem streamPinRelease : ∀ a0, Statement (.streamPinRelease a0) := by intros; exact .inr rfl
theorem forwardedLineResponse : ∀ a0 a1 a2, Statement (.forwardedLineResponse a0 a1 a2) := by intros; exact .inr rfl
theorem forwardedLineTimeout : ∀ a0, Statement (.forwardedLineTimeout a0) := by intros; exact .inr rfl
theorem hubTableWrite : ∀ a0, Statement (.hubTableWrite a0) := by intros; exact .inr rfl
theorem hubTableRead : ∀ a0, Statement (.hubTableRead a0) := by intros; exact .inr rfl
theorem hubTableOpComplete : ∀ a0, Statement (.hubTableOpComplete a0) := by intros; exact .inr rfl
theorem memoryRequestAccept : ∀ a0, Statement (.memoryRequestAccept a0) := by intros; exact .inr rfl
theorem memoryReadReturn : ∀ a0 a1, Statement (.memoryReadReturn a0 a1) := by intros; exact .inr rfl
theorem cellWriteComplete : ∀ a0, Statement (.cellWriteComplete a0) := by intros; exact .inr rfl
theorem perBankRefresh : ∀ a0 a1 a2, Statement (.perBankRefresh a0 a1 a2) := by intros; exact .inr rfl
theorem formatStart : ∀ a0, Statement (.formatStart a0) := by intros; exact .inr rfl
theorem formatComplete : ∀ a0, Statement (.formatComplete a0) := by intros; exact .inr rfl
theorem scrubUnit : ∀ a0 a1, Statement (.scrubUnit a0 a1) := by intros; exact .inr rfl
theorem reset : Statement .reset := .inr rfl
theorem wipeComplete : Statement .wipeComplete := .inr rfl
theorem regionDescriptorWrite : ∀ a0 a1 a2 a3, Statement (.regionDescriptorWrite a0 a1 a2 a3) := by intros; exact .inr rfl
theorem regionDescriptorRead : ∀ a0 a1, Statement (.regionDescriptorRead a0 a1) := by intros; exact .inr rfl
theorem regionUpdateComplete : ∀ a0, Statement (.regionUpdateComplete a0) := by intros; exact .inr rfl
theorem plainBufferWriteback : ∀ a0 a1, Statement (.plainBufferWriteback a0 a1) := by intros; exact .inr rfl
theorem ownershipTransferComplete : ∀ a0 a1, Statement (.ownershipTransferComplete a0 a1) := by intros; exact .inr rfl
theorem pageopAlloc : ∀ a0, Statement (.pageopAlloc a0) := by intros; exact .inr rfl
theorem pageopIncref : ∀ a0, Statement (.pageopIncref a0) := by intros; exact .inr rfl
theorem pageopDecref : ∀ a0, Statement (.pageopDecref a0) := by intros; exact .inr rfl
theorem pageopMigrate : ∀ a0, Statement (.pageopMigrate a0) := by intros; exact .inr rfl
theorem pageopExpand : ∀ a0, Statement (.pageopExpand a0) := by intros; exact .inr rfl
theorem pageopCompress : ∀ a0, Statement (.pageopCompress a0) := by intros; exact .inr rfl
theorem pageopPoolput : ∀ a0, Statement (.pageopPoolput a0) := by intros; exact .inr rfl
theorem pageopPooltake : ∀ a0, Statement (.pageopPooltake a0) := by intros; exact .inr rfl
theorem moveCopyComplete : ∀ a0, Statement (.moveCopyComplete a0) := by intros; exact .inr rfl
theorem queueCreate : ∀ a0, Statement (.queueCreate a0) := by intros; exact .inr rfl
theorem queueStop : ∀ a0, Statement (.queueStop a0) := by intros; exact .inr rfl
theorem queueResume : ∀ a0, Statement (.queueResume a0) := by intros; exact .inr rfl
theorem queueDestroy : ∀ a0, Statement (.queueDestroy a0) := by intros; exact .inr rfl
theorem queueQuery : ∀ a0, Statement (.queueQuery a0) := by intros; exact .inr rfl
theorem queueDestroyComplete : ∀ a0, Statement (.queueDestroyComplete a0) := by intros; exact .inr rfl
theorem packetNop : ∀ a0 a1, Statement (.packetNop a0 a1) := by intros; exact .inr rfl
theorem packetLaunch : ∀ a0 a1, Statement (.packetLaunch a0 a1) := by intros; exact .inr rfl
theorem packetCopy : ∀ a0 a1, Statement (.packetCopy a0 a1) := by intros; exact .inr rfl
theorem packetBcopy : ∀ a0 a1, Statement (.packetBcopy a0 a1) := by intros; exact .inr rfl
theorem packetNmq : ∀ a0 a1, Statement (.packetNmq a0 a1) := by intros; exact .inr rfl
theorem packetNmr : ∀ a0 a1, Statement (.packetNmr a0 a1) := by intros; exact .inr rfl
theorem packetColl : ∀ a0 a1, Statement (.packetColl a0 a1) := by intros; exact .inr rfl
theorem packetSignal : ∀ a0 a1, Statement (.packetSignal a0 a1) := by intros; exact .inr rfl
theorem packetWait : ∀ a0 a1, Statement (.packetWait a0 a1) := by intros; exact .inr rfl
theorem packetMarker : ∀ a0 a1, Statement (.packetMarker a0 a1) := by intros; exact .inr rfl
theorem packetBloop : ∀ a0 a1, Statement (.packetBloop a0 a1) := by intros; exact .inr rfl
theorem bloopIteration : ∀ a0 a1, Statement (.bloopIteration a0 a1) := by intros; exact .inr rfl
theorem packetBwait : ∀ a0 a1, Statement (.packetBwait a0 a1) := by intros; exact .inr rfl
theorem beaconMulticastLanding : ∀ a0 a1 a2, Statement (.beaconMulticastLanding a0 a1 a2) := by intros; exact .inr rfl
theorem packetComplete : ∀ a0 a1, Statement (.packetComplete a0 a1) := by intros; exact .inr rfl
theorem ticketPushSequenced : ∀ a0, Statement (.ticketPushSequenced a0) := by intros; exact .inr rfl
theorem dispatch : Statement .dispatch := .inr rfl
theorem ageingStep : ∀ a0, Statement (.ageingStep a0) := by intros; exact .inr rfl
theorem taskCommit : ∀ a0, Statement (.taskCommit a0) := by intros; exact .inr rfl
theorem preemptRequestArrive : ∀ a0, Statement (.preemptRequestArrive a0) := by intros; exact .inr rfl
theorem contextSave : ∀ a0 a1, Statement (.contextSave a0 a1) := by intros; exact .inr rfl
theorem logicSoftError : ∀ a0, Statement (.logicSoftError a0) := by intros; exact .inr rfl
theorem emit : ∀ a0, Statement (.emit a0) := by intros; exact .inl rfl
theorem emitx : ∀ a0 a1, Statement (.emitx a0 a1) := by intros; exact .inl rfl
theorem ldpm : ∀ a0 a1, Statement (.ldpm a0 a1) := by intros; exact .inl rfl
theorem ldw : ∀ a0 a1 a2, Statement (.ldw a0 a1 a2) := by intros; exact .inl rfl
theorem addw : ∀ a0 a1 a2, Statement (.addw a0 a1 a2) := by intros; exact .inl rfl
theorem addwImm : ∀ a0 a1 a2, Statement (.addwImm a0 a1 a2) := by intros; exact .inl rfl
theorem subw : ∀ a0 a1 a2, Statement (.subw a0 a1 a2) := by intros; exact .inl rfl
theorem subwImm : ∀ a0 a1 a2, Statement (.subwImm a0 a1 a2) := by intros; exact .inl rfl
theorem andw : ∀ a0 a1 a2, Statement (.andw a0 a1 a2) := by intros; exact .inl rfl
theorem andwImm : ∀ a0 a1 a2, Statement (.andwImm a0 a1 a2) := by intros; exact .inl rfl
theorem cmpw : ∀ a0 a1, Statement (.cmpw a0 a1) := by intros; exact .inl rfl
theorem cmpwImm : ∀ a0 a1, Statement (.cmpwImm a0 a1) := by intros; exact .inl rfl
theorem br : ∀ a0, Statement (.br a0) := by intros; exact .inl rfl
theorem brc : ∀ a0 a1, Statement (.brc a0 a1) := by intros; exact .inl rfl
theorem loopw : ∀ a0 a1, Statement (.loopw a0 a1) := by intros; exact .inl rfl
theorem endl : Statement .endl := .inl rfl
theorem wtok : ∀ a0 a1, Statement (.wtok a0 a1) := by intros; exact .inl rfl
theorem wsig : ∀ a0 a1, Statement (.wsig a0 a1) := by intros; exact .inl rfl
theorem stopw : Statement .stopw := .inl rfl
theorem deviceUnreachable : ∀ a0, Statement (.deviceUnreachable a0) := by intros; exact .inr rfl
theorem holderLostUpdate : ∀ a0, Statement (.holderLostUpdate a0) := by intros; exact .inr rfl
theorem rdmaWrite : ∀ a0, Statement (.rdmaWrite a0) := by intros; exact .inr rfl
theorem rdmaRead : ∀ a0, Statement (.rdmaRead a0) := by intros; exact .inr rfl
theorem rdmaFetchAndAdd : ∀ a0, Statement (.rdmaFetchAndAdd a0) := by intros; exact .inr rfl
theorem rdmaInvalidRequest : ∀ a0, Statement (.rdmaInvalidRequest a0) := by intros; exact .inr rfl
theorem fylvathenInboundAccess : ∀ a0, Statement (.fylvathenInboundAccess a0) := by intros; exact .inr rfl
theorem fylvathenRemoteAtomic : ∀ a0, Statement (.fylvathenRemoteAtomic a0) := by intros; exact .inr rfl
theorem flitReceive : ∀ a0 a1, Statement (.flitReceive a0 a1) := by intros; exact .inr rfl
theorem flitNakReplay : ∀ a0 a1, Statement (.flitNakReplay a0 a1) := by intros; exact .inr rfl
theorem laneFailing : ∀ a0 a1, Statement (.laneFailing a0 a1) := by intros; exact .inr rfl
theorem laneSwitch : ∀ a0, Statement (.laneSwitch a0) := by intros; exact .inr rfl
theorem portRetrain : ∀ a0, Statement (.portRetrain a0) := by intros; exact .inr rfl
theorem portDown : ∀ a0, Statement (.portDown a0) := by intros; exact .inr rfl
theorem portUp : ∀ a0, Statement (.portUp a0) := by intros; exact .inr rfl
theorem mgmtReadlog : ∀ a0, Statement (.mgmtReadlog a0) := by intros; exact .inr rfl
theorem mgmtClearlog : ∀ a0, Statement (.mgmtClearlog a0) := by intros; exact .inr rfl
theorem mgmtMaprange : ∀ a0 a1, Statement (.mgmtMaprange a0 a1) := by intros; exact .inr rfl
theorem mgmtInwin : ∀ a0 a1 a2, Statement (.mgmtInwin a0 a1 a2) := by intros; exact .inr rfl
theorem mgmtRdmaqp : ∀ a0 a1, Statement (.mgmtRdmaqp a0 a1) := by intros; exact .inr rfl
theorem mgmtRoute : ∀ a0 a1, Statement (.mgmtRoute a0 a1) := by intros; exact .inr rfl
theorem mgmtWcsload : ∀ a0 a1, Statement (.mgmtWcsload a0 a1) := by intros; exact .inr rfl
theorem mgmtAttest : ∀ a0 a1, Statement (.mgmtAttest a0 a1) := by intros; exact .inr rfl
theorem mgmtFwupdate : ∀ a0 a1, Statement (.mgmtFwupdate a0 a1) := by intros; exact .inr rfl
theorem mgmtLifecycle : ∀ a0 a1, Statement (.mgmtLifecycle a0 a1) := by intros; exact .inr rfl
theorem mgmtDebugunlock : ∀ a0 a1, Statement (.mgmtDebugunlock a0 a1) := by intros; exact .inr rfl
theorem mgmtPower : ∀ a0 a1, Statement (.mgmtPower a0 a1) := by intros; exact .inr rfl
theorem mgmtUnsupported : ∀ a0 a1, Statement (.mgmtUnsupported a0 a1) := by intros; exact .inr rfl
theorem powerOn : ∀ a0, Statement (.powerOn a0) := by intros; exact .inr rfl
theorem clockThrottle : ∀ a0, Statement (.clockThrottle a0) := by intros; exact .inr rfl
theorem thermalCritical : Statement .thermalCritical := .inr rfl
theorem powerLoss : Statement .powerLoss := .inr rfl
theorem frameShootdownComplete : ∀ a0, Statement (.frameShootdownComplete a0) := by intros; exact .inr rfl
theorem retrainComplete : ∀ a0, Statement (.retrainComplete a0) := by intros; exact .inr rfl

end Sys2Proof.Laws.OneStream
end

