-- ==== Sys2Proof/Laws/Spad.lean ====
section
/-! SUPPORT. What a word reads of a scratchpad: bytes, the number they are, and their poison, where no result is on its way there. -/

namespace Sys2Proof.Machine

/-- The number that little-endian bytes are, as a sum. -/
theorem leNat_sum (l : List Byte) : leNat l = ((List.range l.length).map fun i => (lget l i 0).toNat * 256 ^ i).sum := by
  induction l with
  | nil => rfl
  | cons b l ih =>
    have step : ∀ r : List Nat, ((r.map Nat.succ).map fun i => (lget (b :: l) i 0).toNat * 256 ^ i).sum =
        256 * (r.map fun i => (lget l i 0).toNat * 256 ^ i).sum := by
      intro r
      induction r with
      | nil => rfl
      | cons x r ih =>
        have h : (lget (b :: l) x.succ 0).toNat * 256 ^ x.succ = 256 * ((lget l x 0).toNat * 256 ^ x) := by
          rw [show lget (b :: l) x.succ 0 = lget l x 0 from by simp [lget], Nat.pow_succ]; ac_rfl
        simp only [List.map_cons, List.sum_cons, Nat.mul_add]
        rw [ih, h]
    have hs : leNat (b :: l) = b.toNat + 256 * leNat l := rfl
    rw [hs, ih, ← step, List.length_cons, List.range_succ_eq_map]
    simp [lget]

theorem leNat_lt (l : List Byte) : leNat l < 256 ^ l.length := by
  induction l with
  | nil => simp [leNat]
  | cons b l ih => have := b.isLt; simp only [leNat, List.length_cons, Nat.pow_succ]; omega

/-- The number read from a memory in canonical form. -/
theorem leVal_read {m : Memory} (h : m.wf = true) (g a n : Nat) :
    leVal (m.read g a n) = ((List.range n).map fun i => (m.byte (a + i)).toNat * 256 ^ i).sum := by
  unfold leVal
  rw [leNat_sum]
  have hl : ((m.read g a n).map (·.1)).length = n := by simp
  rw [hl]
  refine congrArg List.sum (List.map_congr_left fun i hi => ?_)
  have hi := List.mem_range.1 hi
  have := Memory.bytes_get h a n i hi
  simp [lget, Memory.read, this]

/-- With no result on its way to the scratchpad and none that an engine is still to be ordered after, a word reads it as it stands. -/
theorem spadSeen_quiet {s : State} (h : ∀ p ∈ (here s).iss.pend, ∀ cells grains, p.dst ≠ .spad cells grains)
    (hp : ∀ p ∈ (here s).iss.past, ∀ cells grains, p.old ≠ .spad cells grains) (o n : Nat) :
    spadSeen s o n = (s, spadRead (here s).mem.spad (spadOff o) n, none) := by
  have : inFlight (here s) (spadOff o) n = false := by
    unfold inFlight
    rw [Bool.or_eq_false_iff, List.any_eq_false, List.any_eq_false]
    exact ⟨fun p hm => by split <;> simp_all, fun p hm => by split <;> simp_all⟩
  unfold spadSeen spadLook
  simp [this]

/-- A range that does not wrap is one read. -/
theorem spadRead_eq (m : Memory) (o n : Nat) (h : o + n ≤ 4194304) (hn : 0 < n) : spadRead m o n = m.read 32 o n := by
  unfold spadRead
  have ho : o % 4194304 = o := Nat.mod_eq_of_lt (by omega)
  rw [ho]
  simp only [ranges]
  rw [if_neg (by omega), ho, Nat.min_eq_left (by omega)]
  simp [Nat.mod_eq_of_lt (show o < 4194304 by omega)]

/-- An aligned access of a clean grain meets no poison. -/
theorem firstPois_clean {m : Memory} (a n : Nat) (hc : m.pois.contains (a / 32) = false) (hn : a % n = 0)
    (hw : n = 1 ∨ n = 2 ∨ n = 4 ∨ n = 8) : firstPois a (m.read 32 a n) = none := by
  unfold firstPois
  simp [Memory.read, List.findIdx?_eq_none_iff, List.mem_mapIdx]
  intro x i hi e
  have : (a + i) / 32 = a / 32 := by rcases hw with rfl | rfl | rfl | rfl <;> omega
  rw [this]; simpa using hc

end Sys2Proof.Machine
end

