-- ==== Sys2Proof/Laws/Trap.lean ====
section
/-! SUPPORT. Taking a trap (R399), said once: what a trap that is found and taken at once does to the state. -/

namespace Sys2Proof.Machine

theorem vget_ofFn {α : Type} {n : Nat} (f : Fin n → α) (i : Nat) (d : α) :
    vget (Vector.ofFn f) i d = if h : i < n then f ⟨i, h⟩ else d := by
  unfold vget
  by_cases h : i < n
  · simp [h]
  · simp [h]

theorem vget_map {α β : Type} {n : Nat} (v : Vector α n) (f : α → β) (i : Nat) (a : α) (b : β) (h : i < n) :
    vget (v.map f) i b = f (vget v i a) := by
  simp [vget, h]

theorem vget_out {α : Type} {n : Nat} (v : Vector α n) (i : Nat) (d : α) (h : ¬i < n) : vget v i d = d := by
  simp [vget, Vector.getElem?_eq_none (by omega : n ≤ i)]

/-- What a trapping head without an effect and the discarded words leave of the engines. -/
def cutIssue (i : Issue) (seq : Nat) (own : Option (Eng × Nat)) : Issue := discardAfter (withoutHead i own) seq

theorem cutIssue_queues {k : Core} {seq : Nat} (h : TrapReady k seq) (own : Option (Eng × Nat)) (e : Nat) :
    vget (cutIssue k.iss seq own).queues e [] = [] := by
  by_cases he : e < 7
  · have key : ∀ q ∈ vget (withoutHead k.iss own).queues e [], seq < q.seq := by
      intro q hq
      cases own with
      | none => exact h.later e q hq
      | some o =>
        obtain ⟨f, n⟩ := o
        simp only [withoutHead, vget_vset] at hq
        split at hq
        · simp at hq
        · exact h.later e q hq
    simp only [cutIssue, discardAfter]
    rw [vget_map _ _ _ [] _ he]
    rw [List.filter_eq_nil_iff]
    intro q hq
    simp [key q hq]
  · exact vget_out _ _ _ he

theorem cutIssue_settled {k : Core} {t : PTrap} (h : TrapReady k t.seq) (own : Option (Eng × Nat)) :
    settled (cutIssue k.iss t.seq own) t = true := by
  unfold settled
  rw [List.all_eq_true]
  intro q hq
  obtain ⟨i, hi, rfl⟩ := List.mem_iff_getElem.mp hq
  have := cutIssue_queues h own i
  simp at hi
  unfold vget at this
  rw [Vector.getElem?_eq_getElem hi] at this
  simp at this
  simp [this]

/-- No waitv has been woken. -/
theorem TrapReady.notWoken {s : State} {c seq : Nat} (h : TrapReady (getCore s c) seq) : woken s c = false := by
  unfold woken
  split
  · next w hw =>
    cases ha : w.asleep
    · rfl
    · simp [h.noWake w hw ha]
  · rfl

/-- The state in which a trap that is found waits to be taken. -/
theorem foundTrap_eq {s : State} {c : Nat} {t : PTrap} (h : (getCore s c).iss.trap = none) (hw : woken s c = false) (own : Option (Eng × Nat)) :
    ∃ u sl, foundTrap s c t own = settle u c ∧ u = { s with cores := u.cores, sleepers := u.sleepers, word := none } ∧
      (∀ d, d ≠ c → getCore u d = getCore s d) ∧
      getCore u c = { getCore s c with iss := { cutIssue (getCore s c).iss t.seq own with trap := some t }, sleepers := sl } := by
  unfold foundTrap
  simp only [h]
  simp only [Option.isSome_none, Bool.false_eq_true, if_false, hw]
  split
  · refine ⟨_, [], rfl, rfl, fun d hd => ?_, ?_⟩
    · exact getCore_setCore_ne s _ (fun e => hd e.symm)
    · exact (getCore_setCore_self s c _).trans rfl
  · refine ⟨_, (getCore s c).sleepers, rfl, rfl, fun d hd => ?_, ?_⟩
    · exact getCore_setCore_ne s _ (fun e => hd e.symm)
    · exact (getCore_setCore_self s c _).trans rfl

theorem cutIssue_win {k : Core} {seq e : Nat} (h : TrapReady k seq) (own : Option (Eng × Nat)) (he : e < 7)
    (ho : ∀ o, own = some o → engIx o.1 ≠ e) :
    vget (cutIssue k.iss seq own).win e [] =
      (vget k.iss.win e []).filter fun x => (vget k.iss.queues e []).all fun q => q.num != x.2 := by
  have hq : vget (withoutHead k.iss own).queues e [] = vget k.iss.queues e [] := by
    cases own with
    | none => rfl
    | some o =>
      obtain ⟨f, n⟩ := o
      have := ho _ rfl
      simp only [withoutHead, vget_vset]; rw [if_neg (fun h => this h.1)]
  have hw : vget (withoutHead k.iss own).win e [] = vget k.iss.win e [] := by
    cases own with
    | none => rfl
    | some o =>
      obtain ⟨f, n⟩ := o
      have := ho _ rfl
      simp only [withoutHead, unissue, vget_vset]; rw [if_neg (fun h => this h.1)]
  simp only [cutIssue, discardAfter, vget_ofFn, he, dite_true]
  rw [hq, hw]
  refine List.filter_congr fun x _ => ?_
  rw [List.filter_eq_self.mpr fun q hm => by simpa using h.later e q hm]
  rw [Bool.eq_iff_iff]
  simp only [Bool.not_eq_true', List.all_eq_true, bne_iff_ne, ne_eq]
  rw [← Bool.not_eq_true, List.contains_iff_mem, List.mem_map]
  exact ⟨fun g q hm e => g ⟨q, hm, e⟩, fun g ⟨q, hm, e⟩ => g q hm e⟩

theorem cutIssue_tokens (i : Issue) (seq : Nat) (own : Option (Eng × Nat)) (e : Eng) (h : Nat) :
    (e, h) ∈ (cutIssue i seq own).openTok ↔ (e, h) ∈ i.openTok ∧ own ≠ some (e, h) := by
  cases own with
  | none => simp [cutIssue, withoutHead, discardAfter]
  | some o =>
    obtain ⟨f, n⟩ := o
    simp only [cutIssue, withoutHead, discardAfter, unissue, List.mem_filter, ne_eq, decide_not, Bool.not_eq_true',
      decide_eq_false_iff_not, Option.some.injEq]
    constructor <;> rintro ⟨h1, h2⟩ <;> exact ⟨h1, fun e => h2 e.symm⟩

/-- A trap that waits and is taken. -/
theorem takeTrap_taken {s u : State} {c : Nat} {t : PTrap} {sl : List Nat} (h : TrapReady (getCore s c) t.seq)
    (own : Option (Eng × Nat)) (hw : t.wick = false) (hp : t.wpc = none)
    (hu : u = { s with cores := u.cores, sleepers := u.sleepers, word := none })
    (ho : ∀ d, d ≠ c → getCore u d = getCore s d)
    (hk : getCore u c = { getCore s c with
      iss := { cutIssue (getCore s c).iss t.seq own with trap := some t }, sleepers := sl }) :
    TrapTaken s (takeTrap u c t) c t.seq own t.code t.epc t.addr t.estat := by
  have hr : (getCore u c).wick.run = false := by rw [hk]; exact h.noWick
  have hm : (getCore u c).handler = false := by rw [hk]; exact h.task
  have hv : (getCore u c).sys.trapvec ≠ 0 := by rw [hk]; exact h.handler
  have hx : ∀ x : Wick, x.run = false → { x with run := false } = x := by
    intro x hr; cases x; cases hr; rfl
  obtain ⟨body, hb⟩ : ∃ body : Option Nest, takeTrap u c t = setCore u c { getCore u c with
      sys := { (getCore u c).sys with trapcode := BitVec.ofNat 64 t.code, trapaddr := t.addr, epc := t.epc, estat := t.estat
                                      skip := Vector.ofFn fun e : Fin 7 => headsAfter (getCore u c) (getCore u c).iss t.seq e.val
                                      skipEpc := t.epc }
      nest := none, ending := false, handler := true, pc := (getCore u c).sys.trapvec, saved := body
      iss := { (getCore u c).iss with
        trap := none, win := (getCore u c).iss.win.map fun l => l.filter fun h => !(t.seq < h.1) } } := by
    unfold takeTrap
    simp only [hw, hp, hr, hm, hv, Bool.or_false, Bool.or_self, decide_false, Bool.false_eq_true, if_false, hx _ hr]
    exact ⟨_, rfl⟩
  have g := (congrArg (getCore · c) hb).trans (getCore_setCore_self u c _)
  dsimp only at g
  refine ⟨?_, ?_, ?_, ?_, ?_, ?_, ?_, ?_⟩
  · rw [hb, hu]; rfl
  · intro d hd; rw [hb]; exact (getCore_setCore_ne u _ fun e => hd e.symm).trans (ho d hd)
  · rw [g, hk]
  · rw [g, hk]
  · rw [g, hk]
    cases own with
    | none => exact ⟨rfl, rfl, rfl, rfl, rfl⟩
    | some o => exact ⟨rfl, rfl, rfl, rfl, rfl⟩
  · intro f n; rw [g, hk]; exact cutIssue_tokens _ t.seq own f n
  · intro f; rw [g, hk]; exact cutIssue_queues h own f
  · intro f hf hn
    rw [g]
    simp only [vget_ofFn, hf, dite_true]
    simp only [headsAfter, hk]
    rw [cutIssue_win h own hf hn, List.filter_filter]

/-- A trap that is found and taken at once (R399, R444). -/
theorem foundTrap_taken {s : State} {c : Nat} {t : PTrap} (h : TrapReady (getCore s c) t.seq) (hw : t.wick = false)
    (hp : t.wpc = none) (own : Option (Eng × Nat)) :
    TrapTaken s (foundTrap s c t own) c t.seq own t.code t.epc t.addr t.estat := by
  obtain ⟨u, sl, hf, hu, ho, hk⟩ := foundTrap_eq (t := t) h.noTrap h.notWoken own
  have hs : settle u c = takeTrap u c t := by
    have ht : (getCore u c).iss.trap = some t := by rw [hk]
    have hd : settled (getCore u c).iss t = true := by rw [hk]; exact cutIssue_settled h own
    simp only [settle, ht, hd, if_true]
  rw [hf, hs]
  exact takeTrap_taken h own hw hp hu ho hk

/-- The word that executes traps (R399), and the trap is taken at once. -/
theorem raise_taken {s : State} {w : QWord} (hw : s.word = some w) (he : w.origin ≠ .emitted)
    (h : TrapReady (here s) w.seq) (code : Nat) (addr : W64) (detail : Nat) (hd : detail < 2 ^ 32) :
    TrapTaken s (raise s code addr detail) s.core w.seq (some (w.eng, w.num)) code w.addr addr (estatOf w detail) := by
  have e : estat (engIx w.eng) (decide (w.origin = .emitted)) (decide (w.origin = .replayed)) detail = estatOf w detail := by
    unfold estat estatOf
    rw [Nat.mod_eq_of_lt hd]
    refine congrArg (BitVec.ofNat 64) ?_
    by_cases hr : w.origin = .replayed <;> simp [he, hr, b2n]
  have := foundTrap_taken (s := s) (c := s.core)
    (t := { seq := w.seq, code, epc := w.addr, addr, estat := estat (engIx w.eng) (decide (w.origin = .emitted)) (decide (w.origin = .replayed)) detail
            wick := false, wpc := none, loop := w.loop, own := none }) h rfl rfl (some (w.eng, w.num))
  rw [e] at this
  unfold raise
  simp only [hw, he, decide_false, if_false]
  simp only [he, decide_false] at e
  rw [e]
  exact this

end Sys2Proof.Machine
end

