-- ==== Sys2Proof/Laws/Vector.lean ====
section
/-! SUPPORT. What a word reads of the vector registers, and the end of a word whose results are exposed. -/

namespace Sys2Proof.Machine

theorem Map.find_takeWhile_lt {α : Type} (m : Map α) (b i : Nat) (h : Map.rising m = true) (hi : i < b) :
    Map.find (m.takeWhile fun l => l.1 < b) i = Map.find m i := by
  induction m with
  | nil => rfl
  | cons p m ih =>
    obtain ⟨k, v⟩ := p
    have hr := (Map.rising_cons k v m).1 h
    rw [List.takeWhile_cons]
    by_cases hk : k < b
    · rw [if_pos (by simpa using hk)]
      simp only [Map.find]; split
      · rfl
      · exact ih hr.2
    · rw [if_neg (by simpa using hk)]
      refine (Map.find_above (b := k) ?_ (by omega)).symm
      intro p hp
      rcases List.mem_cons.1 hp with rfl | hp
      · exact Nat.le_refl k
      · have := hr.1 p hp; omega

theorem Map.rising_dropWhile_of {α : Type} (m : Map α) (p : Nat × α → Bool) (h : Map.rising m = true) :
    Map.rising (m.dropWhile p) = true := by
  induction m with
  | nil => rfl
  | cons q m ih =>
    obtain ⟨k, v⟩ := q
    rw [List.dropWhile_cons]; split
    · exact ih ((Map.rising_cons k v m).1 h).2
    · exact h

theorem Map.find_dropWhile_le {α : Type} (m : Map α) (b i : Nat) (h : Map.rising m = true) (hi : b ≤ i) :
    Map.find (m.dropWhile fun l => l.1 < b) i = Map.find m i := by
  induction m with
  | nil => rfl
  | cons p m ih =>
    obtain ⟨k, v⟩ := p
    have hr := (Map.rising_cons k v m).1 h
    rw [List.dropWhile_cons]
    by_cases hk : k < b
    · rw [if_pos (by simpa using hk), ih hr.2]
      simp only [Map.find]; rw [if_neg (by omega)]
    · rw [if_neg (by simpa using hk)]

/-- The lanes of one register. -/
theorem laneFile {k : Core} (h : Map.rising k.v = true) (r i : Nat) (hi : i < 128) :
    Map.get ⟨0, false⟩ ((k.v.dropWhile fun l => l.1 < 128 * r).takeWhile fun l => l.1 < 128 * r + 128) (128 * r + i) =
      laneBase k (128 * r + i) := by
  unfold laneBase Map.get
  rw [Map.find_takeWhile_lt _ _ _ (Map.rising_dropWhile_of _ _ h) (by omega), Map.find_dropWhile_le _ _ _ h (by omega)]

theorem laneAt_map (f : Nat → Lane) (i : Nat) (hi : i < 128) : laneAt ((List.range 128).map f) i = f i := by
  simp [laneAt, lget, List.getElem?_map, List.getElem?_range hi]

/-- What the fold of `vecSeen` gathers. -/
theorem vecFold {s : State} {mask : BitVec 128} {r : Nat} {x : Nat → Lane} (n : Nat) (hn : n ≤ 128)
    (h : ∀ i, i < 128 → mask.getLsbD i = true → laneSeen s (here s) (128 * r + i) = (s, x i, false)) :
    (List.range n).foldl
      (fun (a : State × List Lane × Option Nat) i =>
        if mask.getLsbD i then
          let l := laneSeen a.1 (here s) (128 * r + i)
          (l.1, a.2.1 ++ [l.2.1], if a.2.2.isNone && l.2.2 then some i else a.2.2)
        else (a.1, a.2.1 ++ [laneBase (here s) (128 * r + i)], a.2.2))
      (s, [], none) =
    (s, (List.range n).map fun i => if mask.getLsbD i then x i else laneBase (here s) (128 * r + i), none) := by
  induction n with
  | zero => rfl
  | succ n ih =>
    rw [List.range_succ, List.foldl_append, ih (by omega), List.map_append]
    simp only [List.foldl_cons, List.foldl_nil, List.map_cons, List.map_nil]
    split
    · next hm => rw [h n (by omega) hm]; rfl
    · rfl

/-- With nothing to look back to, a value is seen as it stands. -/
theorem olderHere_quiet {α : Type} (s : State) {k : Core} (h : k.iss.past.isEmpty = true) (tag : Nat) (f : Old → Option α) (a : α) :
    olderHere s k tag f a = (s, a) := by
  unfold olderHere; split
  · rw [if_pos h]
  · rfl

/-- What a word reads of a register under a mask. -/
theorem vecSeen_of {s : State} {mask : BitVec 128} {r : Nat} {x : Nat → Lane} (hv : Map.rising (here s).v = true)
    (h : ∀ i, i < 128 → mask.getLsbD i = true → laneSeen s (here s) (128 * r + i) = (s, x i, false)) :
    ∃ L, vecSeen s r mask = (s, L, none) ∧ ∀ i, i < 128 → mask.getLsbD i = true → laneAt L i = x i := by
  unfold vecSeen
  by_cases hp : ((here s).iss.pend.isEmpty && (here s).iss.past.isEmpty) = true
  · refine ⟨_, if_pos hp, fun i hi hm => ?_⟩
    rw [laneAt_map _ i hi, laneFile hv r i hi]
    have := h i hi hm
    rw [Bool.and_eq_true] at hp
    rw [laneSeen, List.isEmpty_iff.1 hp.1, olderHere_quiet s hp.2] at this
    exact (Prod.mk.inj (Prod.mk.inj this).2).1
  · refine ⟨_, (if_neg hp).trans (vecFold 128 (Nat.le_refl _) h), fun i hi hm => ?_⟩
    rw [laneAt_map _ i hi, if_pos hm]

theorem laneAt_mapLane {L : List Lane} {f : Lane → Lane} (hf : f ⟨0, false⟩ = ⟨0, false⟩) (i : Nat) :
    laneAt (L.map f) i = f (laneAt L i) := by
  simp only [laneAt, lget, List.getElem?_map]
  cases L[i]? with
  | none => exact hf.symm
  | some l => rfl

theorem readLane_moved (l : Lane) : readLane l = moved l := by
  unfold readLane moved operand; cases l with | mk v p => cases p <;> rfl

/-- What a word reads of registers under a mask. -/
theorem readRegs_of {s : State} {mask : BitVec 128} {x : BitVec 5 → Nat → Lane} (hv : Map.rising (here s).v = true)
    (rs : List (BitVec 5)) (h : ∀ r ∈ rs, Sees s (On mask) r (x r)) (acc : List (List Lane)) :
    ∃ Ls, readRegs mask (rs.map (·.toNat)) s acc = (s, some (acc ++ Ls)) ∧
      ∀ i, i < 128 → mask.getLsbD i = true → Ls.map (fun L => laneAt L i) = rs.map fun r => moved (x r i) := by
  induction rs generalizing acc with
  | nil => exact ⟨[], by simp [readRegs], fun _ _ _ => rfl⟩
  | cons r rs ih =>
    obtain ⟨L, hL, hx⟩ := vecSeen_of hv (h r (List.mem_cons_self ..))
    obtain ⟨Ls, hLs, hy⟩ := ih (fun q hq => h q (List.mem_cons_of_mem _ hq)) (acc ++ [L.map readLane])
    refine ⟨L.map readLane :: Ls, ?_, fun i hi hm => ?_⟩
    · simp only [List.map_cons, readRegs, hL, hLs, List.append_assoc, List.singleton_append]
    · simp only [List.map_cons, hy i hi hm]
      rw [laneAt_mapLane rfl, hx i hi hm, readLane_moved]

/-! ### Results in flight -/

theorem expose_eq {s : State} {w : QWord} (hw : s.word = some w) (n : Nat) (d : PDest) : expose s n d = exposeNow s w n d := by
  simp only [expose, hw]

/-- A core with a result more in flight. -/
def flying (k : Core) (w : QWord) (latency : Nat) (dst : PDest) : Core :=
  { k with iss := { k.iss with pend := k.iss.pend ++
      [{ eng := w.eng, num := w.num, due := vget k.iss.slots (engIx w.eng) 0 + latency, seen := [], marked := k.sys.pend, dst }] } }

theorem exposeNow_eq (s : State) (w : QWord) (n : Nat) (d : PDest) : exposeNow s w n d = onHere s fun k => flying k w n d := rfl

theorem mem_expireFrom (k : Core) (ps : List Pend) (p : Pend) (h : vget k.iss.slots (engIx p.eng) 0 < p.due) (hp : p ∈ ps) :
    p ∈ (expireFrom k ps).iss.pend := by
  induction ps generalizing k with
  | nil => cases hp
  | cons q ps ih =>
    unfold expireFrom; split
    · rcases List.mem_cons.1 hp with rfl | hp
      · omega
      · exact ih _ (by rw [mergePend_iss]; exact h) hp
    · exact hp

theorem mem_passSlots (w : QWord) (k : Core) (p : Pend) (he : p.eng = w.eng) (h : vget k.iss.slots (engIx w.eng) 0 + 1 < p.due)
    (hp : p ∈ k.iss.pend) : p ∈ (passSlots w 1 k).iss.pend := by
  obtain ⟨ks, -, e⟩ := expireHandles_eq (expire
    { k with iss := { k.iss with slots := vset k.iss.slots (engIx w.eng) (vget k.iss.slots (engIx w.eng) 0 + 1) } })
  rw [passSlots, e]
  refine mem_expireFrom _ _ p ?_ hp
  simp only [vget_vset, he, engIx_lt, and_true, if_pos]
  exact h

/-- The end of a word in a state that differs in the executing core alone. -/
theorem exposes_of {s u : State} {w : QWord} {n : Nat} {ds : List PDest} {k : Core} (hw : s.word = some w)
    (hu : u = { s with cores := u.cores }) (ho : ∀ c, c ≠ s.core → getCore u c = getCore s c)
    (hh : here u = { k with iss := { k.iss with pend := k.iss.pend ++ ds.map fun dst =>
      ({ eng := w.eng, num := w.num, due := vget k.iss.slots (engIx w.eng) 0 + n, seen := [], marked := k.sys.pend, dst } : Pend) } }) :
    Exposes s (retire u) w n ds k := by
  refine ⟨fun hn p hp => ?_, retireN_ends_of 1 hw hu ho hh⟩
  rw [retire, here_retireN u 1 (by rw [hu]; exact hw), hh]
  obtain ⟨d, -, rfl⟩ := List.mem_map.1 hp
  exact mem_passSlots w _ _ rfl (by simp only; omega) (List.mem_append_right _ hp)

theorem exposes_flags {s : State} {w : QWord} (hw : s.word = some w) (f : Core → Core) (n : Nat) (fl : FlagSet) :
    Exposes s (retire (orFlags (onHere s f) n fl)) w n (flagDests fl) (f (here s)) := by
  unfold orFlags flagDests
  split
  · exact exposes_of hw rfl (fun c hc => getCore_onHere_ne s f hc) (by rw [here_onHere]; simp)
  · rw [expose_eq (by exact hw), exposeNow_eq]
    exact exposes_of hw rfl (fun c hc => (getCore_onHere_ne (onHere s f) _ hc).trans (getCore_onHere_ne s f hc))
      ((here_onHere _ _).trans (by rw [here_onHere]; rfl))

theorem flying_two (k : Core) (w : QWord) (n : Nat) (d e : PDest) : flying (flying k w n d) w n e =
    { k with iss := { k.iss with pend := k.iss.pend ++ [d, e].map fun dst =>
      ({ eng := w.eng, num := w.num, due := vget k.iss.slots (engIx w.eng) 0 + n, seen := [], marked := k.sys.pend, dst } : Pend) } } := by
  simp [flying]

theorem exposes_lanes {s : State} {w : QWord} (hw : s.word = some w) (n : Nat) (d : PDest) (fl : FlagSet) :
    Exposes s (retire (orFlags (expose s n d) n fl)) w n (d :: flagDests fl) (here s) := by
  rw [expose_eq hw, exposeNow_eq]
  unfold orFlags flagDests
  split
  · exact exposes_of hw rfl (fun c hc => getCore_onHere_ne s _ hc) (by rw [here_onHere]; rfl)
  · rw [expose_eq (by exact hw), exposeNow_eq]
    exact exposes_of hw rfl (fun c hc => (getCore_onHere_ne (onHere s _) _ hc).trans (getCore_onHere_ne s _ hc))
      ((here_onHere _ _).trans (by rw [here_onHere, flying_two]))

theorem find_map_some {α β : Type} (l : List α) (f : α → Nat) (hf : ∀ a b, f a = f b → a = b) (g : α → β) (a : α) (h : a ∈ l) :
    Map.find (l.map fun x => (f x, g x)) (f a) = some (g a) := by
  induction l with
  | nil => cases h
  | cons b l ih =>
    simp only [List.map_cons, Map.find]
    split
    · next e => rw [hf _ _ e]
    · next e => 
      rcases List.mem_cons.1 h with rfl | h
      · exact absurd rfl e
      · exact ih h

theorem find_map_none {α β : Type} (l : List α) (f : α → Nat) (g : α → β) (i : Nat) (h : ∀ a ∈ l, i ≠ f a) :
    Map.find (l.map fun x => (f x, g x)) i = none := by
  induction l with
  | nil => rfl
  | cons b l ih =>
    simp only [List.map_cons, Map.find]
    rw [if_neg (h b (List.mem_cons_self ..)), ih fun a ha => h a (List.mem_cons_of_mem _ ha)]

theorem mem_active {m : BitVec 128} {i : Nat} : i ∈ active m ↔ i < 128 ∧ m.getLsbD i = true := by
  simp [active]

/-- Lanes listed by their numbers are the lanes of a register. -/
theorem lanesOf_map (d : BitVec 5) (l : List Nat) (on : Nat → Prop) (g : Nat → Lane) (lane : Nat → Lane)
    (hl : ∀ i, i ∈ l ↔ i < 128 ∧ on i) (hg : ∀ i, i < 128 → on i → g i = lane i) :
    LanesOf (l.map fun i => (128 * d.toNat + i, g i)) d on lane := by
  refine ⟨fun i hi h => ?_, fun key hk => ?_⟩
  · rw [find_map_some l (fun i => 128 * d.toNat + i) (fun a b e => by simpa using e) g i ((hl i).2 ⟨hi, h⟩), hg i hi h]
  · exact find_map_none _ _ _ _ fun a ha => hk a ((hl a).1 ha).1 ((hl a).1 ha).2

theorem foldl_or {α : Type} (l : List α) (f : α → FlagSet) (a : FlagSet) (b : Nat) :
    (l.foldl (fun a o => a ||| f o) a).getLsbD b = true ↔ a.getLsbD b = true ∨ ∃ x, x ∈ l ∧ (f x).getLsbD b = true := by
  induction l generalizing a with
  | nil => simp
  | cons x l ih => simp [ih, or_assoc]

/-- The flags of listed lanes, a poisoned one setting none. -/
theorem orOf_map {l : List Nat} {α : Type} (o : Nat → α) (c : Nat → Bool) (f : Nat → FlagSet) {on : Nat → Prop}
    {g : Nat → FlagSet} (hl : ∀ i, i ∈ l ↔ i < 128 ∧ on i) (hg : ∀ i, i < 128 → on i → f i = g i) :
    OrOf ((l.map fun i => (o i, if c i = true then (0 : FlagSet) else f i)).foldl (fun a o => a ||| o.2) 0)
      (fun i => on i ∧ c i = false) g := by
  intro b hb
  rw [foldl_or]
  constructor
  · rintro (h | ⟨x, hx, h⟩)
    · simp at h
    · obtain ⟨i, hi, rfl⟩ := List.mem_map.1 hx
      have hi := (hl i).1 hi
      by_cases hc : c i = true
      · simp [hc] at h
      · simp only [hc] at h
        exact ⟨i, hi.1, ⟨hi.2, by simpa using hc⟩, by rw [← hg i hi.1 hi.2]; simpa using h⟩
  · rintro ⟨i, hi, ⟨hm, hc⟩, h⟩
    refine .inr ⟨_, List.mem_map.2 ⟨i, (hl i).2 ⟨hi, hm⟩, rfl⟩, ?_⟩
    simp only [hc]
    rw [← hg i hi hm] at h
    simpa using h

/-- A word that writes listed lanes of a register. -/
theorem writeLanes_writes {s : State} {w : QWord} (hw : s.word = some w) (d : BitVec 5) (n : Nat) (l : List Nat) (g : Nat → Lane)
    (fl : FlagSet) {on : Nat → Prop} {lane : Nat → Lane} (hl : ∀ i, i ∈ l ↔ i < 128 ∧ on i)
    (hg : ∀ i, i < 128 → on i → g i = lane i) :
    WritesLanes s (writeLanes s d n (l.map fun i => (i, g i)) fl) w d n on lane fl := by
  refine ⟨_, ?_, exposes_lanes hw n _ _⟩
  rw [List.map_map]
  exact lanesOf_map d l _ _ _ hl hg

/-- A lane-wise word. -/
theorem laneWise_writes {s : State} {w : QWord} (hw : s.word = some w) (hv : Map.rising (here s).v = true) (d : BitVec 5)
    (m : BitVec 3) (n : Nat) (srcs : List (BitVec 5)) {x : BitVec 5 → Nat → Lane} (f g : List W32 → W32 × FlagSet)
    (hfg : ∀ l, f l = g l)
    (h : ∀ r ∈ srcs, Sees s (On (mreg (here s) m)) r (x r)) :
    ∃ t fl, laneWise s d m n srcs f = .next t ∧
      OrOf fl (fun j => On (mreg (here s) m) j ∧ (srcs.any fun r => (x r j).pois) = false)
        (fun j => (g (srcs.map fun r => operand (x r j))).2) ∧
      WritesLanes s t w d n (On (mreg (here s) m)) (fun j =>
        ⟨(g (srcs.map fun r => operand (x r j))).1, srcs.any fun r => (x r j).pois⟩) fl := by
  obtain rfl : f = g := funext hfg
  obtain ⟨Ls, hr, hl⟩ := readRegs_of hv srcs h []
  unfold laneWise
  simp only [hr, List.nil_append]
  have e : ∀ i, i < 128 → On (mreg (here s) m) i → (Ls.map fun r => laneAt r i).map (·.val) = srcs.map (fun r => operand (x r i)) ∧
      ((Ls.map fun r => laneAt r i).any (·.pois)) = srcs.any fun r => (x r i).pois := fun i hi hm => by
    rw [hl i hi hm]; simp [moved, List.any_map]; rfl
  rw [List.map_map]
  refine ⟨_, _, rfl, ?_, writeLanes_writes hw d n _ _ _ (fun i => mem_active) fun i hi hm => by
    rw [(e i hi hm).1, (e i hi hm).2]⟩
  have := orOf_map (l := active (mreg (here s) m)) (α := Nat × Lane)
    (fun i => (i, ⟨(f ((Ls.map fun r => laneAt r i).map (·.val))).1, (Ls.map fun r => laneAt r i).any (·.pois)⟩))
    (fun i => (Ls.map fun r => laneAt r i).any (·.pois)) (fun i => (f ((Ls.map fun r => laneAt r i).map (·.val))).2)
    (fun i => mem_active (i := i) (m := mreg (here s) m)) (g := fun j => (f (srcs.map fun r => operand (x r j))).2)
    fun i hi hm => by rw [(e i hi hm).1]
  intro b hb
  refine (this b hb).trans ⟨?_, ?_⟩
  · rintro ⟨i, hi, ⟨hm, hc⟩, h⟩; exact ⟨i, hi, ⟨hm, by rw [← (e i hi hm).2]; exact hc⟩, h⟩
  · rintro ⟨i, hi, ⟨hm, hc⟩, h⟩; exact ⟨i, hi, ⟨hm, by rw [(e i hi hm).2]; exact hc⟩, h⟩

end Sys2Proof.Machine
end

