-- ==== Sys2Proof/Tests/Slice0.lean ====
section
/-! SUPPORT. The model's own tests: words written out from the encodings of R216 to R229 and R391, ill-formed instructions,
single steps, and for every statement states and operands that meet its hypotheses, clause by clause. -/

namespace Sys2Proof.Tests

open Sys2Proof.Machine

-- The tests are checked one after another: as many of them at once would ask for more memory than a check has.
set_option Elab.async false

/-! ### Decoding: words put together from the fields of spec/opcode_table.json, and those that R216 to R219 write out -/

/-- The instruction of words that are one group without references. -/
def whole (ws : List Nat) : Option Instr :=
  match decodeGroup ws with
  | .ok g => if g.len = ws.length ∧ g.deps = [] then some g.instr else none
  | .error _ => none

theorem test_decode_scalar1 : [
    [0x00D13900], [0x0103CE00], [0x01B8B900], [0x027CE400], [0x02A01100], [0x031BA500], [0x038A8500], [0x046EB000],
    [0x04871A00], [0x054BA200], [0x05ADDF00], [0x062D4200], [0x06CE5800], [0x07444B00], [0x07A05300], [0x084A9B00],
    [0x08A7C000], [0x093C0000], [0x099DC000], [0x0A145400], [0x0AFE7300], [0x0B770E00], [0x0B9D0828], [0x0D00059F]].map whole = [
    .add 0x14 9 0x19, .sub 0 0x1E 0xE, .mul 0xE 5 0x19, .mulh 0x1F 7 4, .mulhn 8 0 0x11, .div 6 0x1D 5,
    .divn 2 0x14 5, .rem 0x1B 0x15 0x10, .remn 1 0x18 0x1A, .and 0x12 0x1D 2, .or 0xB 0xE 0x1F, .xor 0xB 0xA 2,
    .andn 0x13 0x12 0x18, .sll 0x11 2 0xB, .srl 8 2 0x13, .sra 0x12 0x14 0x1B, .clz 9 0x1E, .ctz 0xF 0, .popc 7 0xE,
    .slt 5 2 0x14, .sltn 0x1F 0x13 0x13, .seq 0x1D 0x18 0xE, .sel 7 8 8 5, .trap 0x59F].map some := rfl

theorem test_decode_scalar2 : [
    [0x0D800000], [0x0E00A0AD], [0x0E800000], [0x0F000000], [0x0F815400], [0x10168F05], [0x1089A168], [0x112634D7],
    [0x1190DB93], [0x122621A3], [0x128D602B], [0x13118020], [0x13D1603B], [0x1460E9F5], [0x14FDB444], [0x1578ECC0],
    [0x15F33178], [0x16672C2E], [0x16903A75], [0x1748FD00], [0x17D68C00], [0x18062680], [0x18F7B180], [0x19548D00]].map whole = [
    .eret, .bkpt 0xA0AD, .nop, .endTask, .wstart 0xA 0x14, .addi 5 0x14 0xF05, .andi 2 0xD 0x168, .ori 9 0x11 0x14D7,
    .xori 4 6 0x1B93, .slti 9 0x11 0x1A3, .slli 3 0xB 0x2B, .srli 4 0xC 0x20, .srai 0x14 0xB 0x3B, .movi 0x18 0xE9F5,
    .movh 0x1F 0x1B444, .ldsp 0x1E 7 1 0xFFFFFCC0, .stsp 0x1C 0x19 2 0x178, .ldslot 0x19 3 0x2C2E,
    .stslot 4 0 0x3A75, .min 0x12 7 0x1D, .max 0x15 0x14 0xC, .ldh 1 8 0x13 1, .sth 0x1D 0xE 0x18 3, .minn 0x15 4 0xD].map some := rfl

theorem test_decode_scalar3 : [
    [0x19BDD300], [0x1A05A000], [0x1C386D57], [0x1CC8081D], [0x1D7BC2EE], [0x1DA05303], [0x1E1D816C], [0x1E822000]].map whole = [
    .maxn 0xF 0xE 0x13, .xlat 0 2 0x1A, .b 0x386D57, .bc 0x12 0 2 0x1D, .bz 0x1E 0xFFFFC2EE, .bnz 8 0x5303,
    .call 0x1D816C, .jr 0x11].map some := rfl

theorem test_decode_loop : [
    [0x208B406B], [0x21000064], [0x21941000], [0x2261602A], [0x228B2500], [0x230AA000], [0x23B80074], [0x241CD000],
    [0x2473F000]].map whole = [
    .loop 5 0x14 0x6B, .lbody 0 0x64, .lbrk 1 2 1, .agset 6 0x16 0x2A, .agdim 0 5 0x12 0xA, .agind 0 5 0xA,
    .agstep 3 4 0x74, .agrd 1 0xD, .agrdIdx 7 1 0x1F].map some := rfl

theorem test_decode_vector1 : [
    [0x4087FFC4], [0x413B3922], [0x41814AE9], [0x4212E644], [0x42E79549], [0x43319484], [0x439349C9], [0x44710810],
    [0x44D72040], [0x457920A9], [0x45ABC49F], [0x462A4460], [0x4685B120], [0x4726D840], [0x47C5E0E0], [0x4838B840],
    [0x48E10E00], [0x4940BE60], [0x498F8A8C], [0x4A552320], [0x4AC840A1], [0x4B1B8841], [0x4BACA910], [0x4C5B4A41]].map whole = [
    .vadd 1 0x1F 0x1F 6 0 2 0, .vsub 0xE 0x19 0x19 1 0 1 0, .vmul 0 0xA 0xA 7 1 0 1, .vfma 4 0x17 6 2 0 2 0,
    .vfms 0x19 0x1C 0x15 2 1 0 1, .vfnma 0xC 0xC 0x14 4 0 2 0, .vmin 4 0x1A 9 6 1 1, .vmax 0x1C 8 8 0 2 0,
    .vabs 0x15 0x19 2 0 0, .vneg 0x1E 9 5 1 1, .vaddi 0xA 0x1E 1 0x9F, .vand 0xA 0x12 4 3, .vor 1 0xD 0x11 1,
    .vxor 9 0x16 0x18 2, .vnot 0x11 0xF 7, .vshl 0xE 5 0x18 2, .vshr 0x18 8 0xE 0, .vsra 0x10 5 0x1E 3,
    .vcmp 3 0x1C 0xA 4 1 4, .vsel 0x15 9 3 1, .vclass 0x12 2 5 1, .vcvt 6 0x1C 8 8 0 1, .vpack 0xB 5 9 2 0 0,
    .vunpack 0x16 0x1A 0xA 8 1].map some := rfl

theorem test_decode_vector2 : [
    [0x4CBBD6E0], [0x4D4FF064, 0xE2040001], [0x4D8220A2, 0xE20C0003], [0x4E177300], [0x503C801B], [0x50240217],
    [0x50ED7184], [0x50F40215], [0x51129575], [0x51CFB182], [0x52131360], [0x5298A8C0], [0x53088720], [0x53ABC000],
    [0x5420C040], [0x54885400], [0x55646500], [0x58118000], [0x58909000], [0x59094000], [0x59858000], [0x5A0D8000],
    [0x5AB18000]].map whole = [
    .vscale 0xE 0x1E 0x16 7 0 0 0, .vred 19 31 16 3 4 1 1, .vscan 0 17 0 5 2 3 3, .vmxq 5 0x1B 0x13 0,
    .vld 0xF 4 0 0x1B, .vldSlot 9 0 0x17, .vst 0x1B 0xB 4 0xFFFFFF84, .vstSlot 0x1D 0 0x15,
    .vldb 4 0x14 5 0xFFFFFF75, .vldg 0x13 0x1D 0x11 4 2, .vstg 4 0x18 0x13 3 0, .vgat 6 5 8 6, .vperm 2 4 7 1,
    .vbcast 0xA 0x1E 0, .vmov 8 6 2, .vmovs 2 2 0x14, .vins 0x19 3 5, .mand 4 3 0, .mor 4 1 1, .mxor 2 2 4,
    .mnot 1 3, .mpop 3 3, .mfirst 0xC 3].map some := rfl

theorem test_decode_exponent : [
    [0x60FB0040], [0x61654000], [0x61FF8060], [0x62160000], [0x62E50020], [0x635B60A0], [0x6389C0E0], [0x6479E060],
    [0x64802000], [0x650D40C0], [0x659B5FE0], [0x660CA5A0]].map whole = [
    .xexp2 0x1E 0x18 2, .xlog2 0x19 0xA 0, .xrcp 0x1F 0x1C 3, .xrsq 5 0x10 0, .xsqrt 0x19 8 1, .xsin 0x16 0x1B 5,
    .xcos 2 0xE 7, .xtanh 0x1E 0xF 3, .xlogi 0 1 0, .xerf 3 0xA 6, .xsmax 6 0x1A 0x1F 7, .xexpm 3 5 5 5].map some := rfl

theorem test_decode_matrix : [
    [0x80E29800], [0x80CB3E00], [0x81001B18, 0xE2FC035E], [0x81CD70B0, 0xE20C01CA], [0x8220D000, 0xE20C0000],
    [0x8281C000, 0xE20C0000], [0x83600000], [0x83E91C00], [0x84704000], [0x84007400], [0x84E00000, 0xE2040000],
    [0x85500000], [0x85840400], [0x86000100]].map whole = [
    .bld 3 0 2 0x13, .bldLut4 2 1 3 6, .mma 0 0 0 3 12 6 63 862, .mmav 4 3 1 14 2 12 3 458, .acz 2 13 0 3,
    .acinit 0 28 0 3, .aclose 6, .acrd 6 4 0x11 3, .acst 7 4, .acstPart 0 7, .acmerge 6 0 1, .acdrop 5, .tld 4 4,
    .tswap 1].map some := rfl

/-- R314: bld.lut4 of code table 0, slot 2, tile 1, g3. -/
theorem test_decode_lut : whole [0x80CB3800] = some (.bldLut4 2 1 3 0) := rfl

theorem test_decode_command : [
    [0xA0C81336], [0xA14247E3], [0xA1EBF7D7], [0xA26FC693], [0xA28C96A0], [0xA3770B58], [0xA3EEA0BB], [0xA40100FB],
    [0xA482A071], [0xA55C0091, 0xE20C0000], [0xA598004C, 0xE20C0000], [0xA600001F, 0xE2040000], [0xA690D444],
    [0xA71F2F6C, 0xE20A84C4], [0xA7829B57]].map whole = [
    .cpy 0x12 0 0x13 0x36, .cpyh 0x10 0x12 7 0xE3, .gath 0x1A 0x1F 0x17 0xD7, .scat 0x1B 0x1E 6 0x93,
    .send 3 4 0x16 0xA0, .bcast 0x1D 0x18 0xB 0x58, .ratm 0x1B 0x15 0xBB, .sqld 8 0xFB, .csum 0x15 0x71,
    .nmq 23 145 3, .nmr 6 76 3, .coll 0 31 1, .carry 4 6 0x14 0x44, .merge 7 25 15 108 2 165060,
    .cmpct 0 0x14 0x1B 0x57].map some := rfl

theorem test_decode_queue1 : [
    [0xC0800043], [0xC149067B], [0xC19C6202], [0xC253EAEE], [0xC2A5A53C], [0xC3378996], [0xC3964AAB], [0xC4779AF4],
    [0xC4DE15F9], [0xC5169C85], [0xC5B12D96], [0xC6507321], [0xC680CDB9], [0xC700BB8F], [0xC7D7B000], [0xC91C0550],
    [0xC9E00CA8], [0xCA101C5D], [0xCAA4280E], [0xCB201566], [0xCBD40033], [0xCC4C07E3], [0xCCA40ECE], [0xCD403176]].map whole = [
    .fence 1 3, .ldsDevice 0x12 4 3 0 1 0x3B, .stsDevice 7 1 0x11 0 0 2, .aaddDevice 0x14 0xF 0x15 0 3 0x2E,
    .aminDevice 9 6 0x12 1 0 0x3C, .amaxDevice 0xD 0xE 4 1 2 0x16, .aandDevice 5 9 5 0 2 0x2B,
    .aorDevice 0x1D 0xE 0xD 0 3 0x34, .axorDevice 0x17 8 0xA 1 3 0x39, .aswpDevice 5 0xA 0xE 0 2 5,
    .acasDevice 0xC 4 0x16 1 2 0x16, .waitvDevice 0x14 1 0x19 0 0x21, .ntoneDevice 3 6 2 0x39,
    .ntallDevice 2 0x1D 2 0xF, .ownx 0x15 0xE 0x18, .ldsSp 7 2 1 1 0x10, .stsSp 0x18 6 0 2 0x28,
    .aaddSp 4 0xE 0 1 0x1D, .aminSp 9 0x14 0 0 0xE, .amaxSp 8 0xA 1 1 0x26, .aandSp 0x15 0 0 0 0x33,
    .aorSp 0x13 3 1 3 0x23, .axorSp 9 7 0 3 0xE, .aswpSp 0x10 0x18 1 1 0x36].map some := rfl

theorem test_decode_queue2 : [
    [0xCDB80888], [0xCE5C3572], [0xCE800FAB], [0xCF0015B9], [0xD0024F00], [0xD0817700], [0xD1025F00], [0xD1DD1340],
    [0xD23FC000], [0xD2D3222D], [0xD3116000], [0xD3BF0068]].map whole = [
    .acasSp 0xE 4 0 2 8, .waitvSp 0x17 0x1A 1 0x32, .ntoneSp 7 2 0x2B, .ntallSp 0xA 2 0x39, .binit 0x12 0xF,
    .barv 0xB 0x17, .bexp 0x12 0x1F, .bwait 0x17 8 0x13 1 0, .tkt 0xF 0x1E, .qpush 0x14 0x19 2 0x2D, .evpop 4 0xB,
    .sigw 0xF 0x18 0 1 0x28].map some := rfl

theorem test_decode_micro : [
    0x08000000, 0x11600000, 0x19720000, 0x2170C5F7, 0x2EB90000, 0x2905A3C0, 0x30928000, 0x35CD40D5, 0x38E18000,
    0x3A8D0747, 0x401A4000, 0x4054B492, 0x4800013E, 0x520002EF, 0x5838054A, 0x60000000, 0x68E00000, 0x70246000,
    0x78000000].map decodeMicro = [
    .emit 0, .emitx 0 0xB, .ldpm 2 0x39, .ldw 2 0xE 0xC5F7, .addw 0xD 7 4, .addwImm 2 0 0x1A3C0, .subw 1 2 0xA,
    .subwImm 0xB 9 0x140D5, .andw 1 0xC 6, .andwImm 5 1 0x10747, .cmpw 3 9, .cmpwImm 0xA 0xB492, .br 0x13E,
    .brc 2 0x2EF, .loopw 7 0x54A, .endl, .wtok 0 0x1C, .wsig 4 0x23, .stopw].map .ok := rfl

theorem test_decode_rest : [[0x0C0C0140], [0x0C80E010], [0x4E84419D], [0x140FFFF9], [0x1E000004], [0x15941900], [0x03146400]].map whole =
    [.sysr 3 0x140, .sysw 7 0x10, .vmxd 1 2 1 0x13 2 1, .movi 3 0xFFFFFFF9, .call 4, .stsp 5 0 3 0x100, .div 5 3 4].map some := rfl

/-- DEP, IMM and TAIL words (R218 to R221). -/
theorem test_decode_groups :
    decodeGroup [0xE0000041, 0x151CD808] = .ok { deps := [(2, 1)], instr := .ldsp 7 6 3 8, head := 1, len := 2 } ∧
    decodeGroup [0xE1000091, 0x10141456] = .ok { deps := [], instr := .addi 5 0 0x123456, head := 1, len := 2 } ∧
    decodeGroup [0x81001080, 0xE20403FC, 0x0E800000] = .ok { deps := [], instr := .mma 0 0 0 2 2 0 1 0x3FC, head := 0, len := 2 } :=
  ⟨rfl, rfl, rfl⟩

/-- Every row of the opcode table that has bits is read by its own name: the first and the last of each engine. -/
theorem test_decode_table : [0x00800000, 0x1E800000, 0x20800000, 0x240C0000, 0x40800000, 0x5A800000, 0xD3800000].map (decodeTableWord 32) =
    [some (.add 0 0 0), some (.jr 0), some (.loop 0 0 0), some (.agrd 0 0), some (.vadd 0 0 0 0 0 0 0), some (.mfirst 0 0), some (.sigw 0 0 0 0 0)] := rfl

/-! ### Ill-formed instructions: one for each check of WellFormed -/

theorem test_illformed_scalar : [.sysr 1 6, .sysw 1 0x141, .xlat 0 3 1, .bc 1 2 6 0, .loop 6 0 1, .lbody 6 1, .lbrk 3 0 0, .lbrk 0 6 0,
    .agdim 0 6 1 2, .agind 0 6 1, .agstep 0 6 1, .agrdIdx 0 6 1].map wellFormed = List.replicate 12 false := rfl

theorem test_illformed_vector : [.vadd 1 2 3 0 3 0 0, .vsub 1 2 3 0 1 1 0, .vmul 1 2 3 0 0 0 1, .vfma 1 2 3 0 3 0 0, .vfms 1 2 3 0 2 3 0,
    .vfnma 1 2 3 0 0 0 1, .vmin 1 2 3 0 3 0, .vmax 1 2 3 0 0 1, .vabs 1 2 0 2 0, .vneg 1 2 0 2 0, .vcmp 1 2 3 0 3 0, .vcmp 1 2 3 0 0 7,
    .vcmp 1 2 3 0 1 6, .vclass 1 2 0 6, .vcvt 1 2 6 0 0 0, .vcvt 1 2 0 7 0 0, .vpack 1 2 0 0 0 0, .vpack 1 2 18 0 0 0, .vunpack 1 2 1 1 0,
    .vunpack 1 2 0 1 2, .vscale 1 2 3 0 2 0 0, .vmxq 1 2 17 0, .vmxd 1 2 3 18 0 0, .vmxd 1 2 0 17 0 0].map wellFormed = List.replicate 24 false := rfl

theorem test_illformed_memory : [.vred 1 2 3 0 7 0 0, .vred 1 2 3 0 0 0 4, .vred 3 2 3 0 0 0 0, .vred 1 2 3 0 0 0 3, .vscan 1 2 3 0 7 0 0,
    .vscan 1 2 3 0 0 0 8, .vld 1 2 0 256, .vst 1 2 0 0xFFFFFEFF, .vldb 1 2 0 256, .vldg 1 2 3 0 3, .vstg 1 2 3 0 3].map wellFormed =
    List.replicate 11 false := rfl

theorem test_illformed_matrix : [.bld 0 0 0 5, .bld 0 1 0 1, .mma 0 0 0 0 7 0 1 0, .mma 0 0 0 0 1 0 1 1024, .mmav 0 0 0 31 1 15 1 0,
    .acrd 0 0 25 0, .acmerge 2 2 1].map wellFormed = List.replicate 7 false := rfl

theorem test_illformed_queue : [.fence 0 0, .ldsDevice 1 0 2 0 2 0, .stsDevice 1 0 2 0 1 0, .acasDevice 31 0 1 0 0 0, .waitvDevice 1 0 2 3 0,
    .ntoneDevice 0 1 1 0, .ntallDevice 0 1 3 0, .ldsSp 1 2 0 3 0, .stsSp 1 2 0 3 0, .acasSp 31 1 0 0 0, .waitvSp 1 2 2 0, .ntoneSp 1 1 0,
    .ntallSp 1 1 0, .bwait 1 2 3 2 0, .brc 4 0, .wtok 7 1, .wtok 0 0].map wellFormed = List.replicate 17 false := rfl

/-- What is no word of R225 to R229 is refused with the cause that R217 gives it. -/
theorem test_refused : [[0x82100401, 0xE2080000], [0xE00000E1, 0x151CD808], [0xE0000040, 0x151CD808], [0x1A800000], [0xE2080000], [0x1A060000]].map
    (fun ws => match decodeGroup ws with | .ok _ => (0, 0) | .error x => (x.code, x.idx)) =
    [(1, 0), (14, 0), (1, 0), (1, 0), (2, 0), (1, 0)] := rfl

/-! ### Small states -/

def task1 : Task :=
  { qid := 1, packet := 0, ord := 0, phase := 0, rank := 0, gsize := 1, gang := 0, ctx := 1, dmode := 0, binds := [] }

/-- The word that executes: the first of its engine, fetched at 0x1000. -/
def wordOf (i : Instr) (e : Eng) : QWord :=
  { seq := 5, eng := e, num := 1, addr := 0x1000, head := 0x1000, next := 0x1004, deps := [], instr := i, np := 2
    origin := .fetched, lref := 0, loop := none, asleep := false, held := none }

/-- A core in task mode with a trap handler and scalar registers. -/
def core1 (r : List (Nat × W64)) : Core :=
  { Core.reset with task := some task1, sys := { SysReg.reset with trapvec := 0x2000 }, s := Vector.ofFn fun i => Map.get 0 r i.val }

/-- A device out of reset, whose core 0 executes a word. -/
def dev (k : Core) (w : QWord) : State :=
  { State.reset with cores := [(0, k)], word := some w, agenda := [], mgmt := { State.reset.mgmt with ready := true, wiping := false } }

theorem ready_of (k : Core) (n : Nat) (h : k.iss = .reset) (hw : k.wick.run = false) (hh : k.handler = false) (hv : k.sys.trapvec ≠ 0) :
    TrapReady k n :=
  ⟨by rw [h]; rfl, hw, fun e q hq => by
    rw [h] at hq; unfold vget Issue.reset at hq
    rw [Vector.getElem?_replicate] at hq
    split at hq <;> simp at hq, fun q hq => (by rw [h] at hq; cases hq), hh, hv⟩

theorem nopend_of {k : Core} (h : k.iss.pend = []) : NoSpadPend k := fun p hp => by rw [h] at hp; cases hp
theorem quiet_of {k : Core} {w : QWord} (h : k.iss.pend = []) (hp : k.iss.past = []) : NoSpadFlight k w :=
  ⟨nopend_of h, fun p hq => (by rw [hp] at hq; cases hq)⟩
theorem caught_of {k : Core} {w : QWord} (h : k.iss.pend = []) (hp : k.iss.past = []) : NoCaptureFlight k w :=
  ⟨nopend_of h, fun p hq => (by rw [hp] at hq; cases hq)⟩
theorem slots_of {k : Core} {w : QWord} (hp : k.iss.past = []) : NoSlotFlight k w := fun p hq => (by rw [hp] at hq; cases hq)
theorem noFlags_of {k : Core} {w : QWord} (h : k.iss.pend = []) (hp : k.iss.past = []) : NoFlagFlight k w :=
  ⟨fun p hq => (by rw [h] at hq; cases hq), fun p hq => (by rw [hp] at hq; cases hq)⟩

/-- With nothing in flight a word sees the lanes as they stand. -/
theorem sees_of {s : State} (h : (here s).iss.pend = []) (hp : (here s).iss.past = []) (on : Nat → Prop) (r : BitVec 5) :
    Sees s on r (fun i => laneBase (here s) (128 * r.toNat + i)) := by
  intro i _ _; unfold laneSeen olderHere; rw [h, hp]; cases s.word <;> rfl

theorem handle_of {s : State} {w : QWord} {hn : BitVec 4} (hw : s.word = some w) (hh : w.held = none) (hp : (here s).iss.hpend = [])
    (hq : (here s).iss.past = []) : HandleIs s w hn (vget (here s).h hn.toNat 0) :=
  ⟨hw, hh, rfl, fun p h => (by rw [hp] at h; cases h), fun p h => (by rw [hq] at h; cases h)⟩

/-! ### Single steps -/

/-- The scalar register `r` after a word. -/
def after (i : Instr) (regs : List (Nat × W64)) (r : BitVec 5) : Option W64 :=
  match exec i (dev (core1 regs) (wordOf i .s)) with
  | .next t => some (sreg (here t) r)
  | _ => none

/-- R240: sums wrap; s0 takes nothing; a shift amount is taken modulo 64; R241: division by zero; R242: the count of zero. -/
theorem test_scalar_results : after (.add 3 1 2) [(1, 0xFFFFFFFFFFFFFFFF), (2, 2)] 3 = some 1 ∧ after (.add 0 1 2) [(1, 1)] 0 = some 0 ∧
    after (.sra 3 1 2) [(1, 0x8000000000000000), (2, 127)] 3 = some 0xFFFFFFFFFFFFFFFF ∧
    after (.div 3 1 2) [(1, 7)] 3 = some 0xFFFFFFFFFFFFFFFF ∧ after (.rem 3 1 2) [(1, 7)] 3 = some 7 ∧
    after (.div 3 1 2) [(1, 0x8000000000000000), (2, 0xFFFFFFFFFFFFFFFF)] 3 = some 0x8000000000000000 ∧ after (.clz 3 1) [] 3 = some 64 ∧
    after (.movh 3 0x12345678) [(3, 0xAAAAAAAABBBBBBBB)] 3 = some 0x12345678BBBBBBBB := by decide +kernel

/-- R247: call leaves the address of the next word in s31 and goes 4 × IMM from its own. -/
theorem test_call : (match exec (.call 4) (dev (core1 []) (wordOf (.call 4) .s)) with | .next t => some ((here t).pc, sreg (here t) 31) | _ => none) =
    some (0x1010, 0x1004) := by decide +kernel

/-- R399: a misaligned jr traps with code 8, EPC at its group and TRAPADDR at the target, and the core is at TRAPVEC in handler mode. -/
theorem test_trap_entry : (match exec (.jr 1) (dev (core1 [(1, 6)]) (wordOf (.jr 1) .s)) with
    | .next t => some ((here t).pc, (here t).handler, (here t).sys.trapcode, (here t).sys.trapaddr, (here t).sys.epc) | _ => none) =
    some (0x2000, true, 8, 6, 0x1000) := by decide +kernel

/-- R35: the load of the worked translation lies in stack 3, pseudo-channel 1, bank 11, row 33, slot 4. -/
theorem test_dram_place : cellOf 0x003008_52A040 = some (3 * 68719476736 + 0x0_0852_A040) ∧
    dramPlaceOf 0x0_0852_A040 = { pch := 1, bank := 11, row := 33, slot := 4, byte := 0 } := by decide +kernel

/-- A stack whose frame of the worked decode of R51 has TOL as given, granule G256 and class E4M3. -/
def workedDecode (tol : Bool) : State := { State.reset with attrs := [((3 * 68719476736 + 0x0852A000) / 65536, { gran := 3, tol, tcls := 2 })] }
def workedErr (flips : List Nat) : UnitErr := { unit := 3 * 68719476736 + 0x0852A000, flips, other := none }

/-- R51: patterns A and B in the tolerant frame and in the full one. -/
theorem test_worked_decode :
    let a := workedErr [8 * 0x13 + 1, 8 * 0x40 + 5]; let b := workedErr [8 * 0x40 + 6, 8 * 0x80 + 6, 8 * 0xC0 + 6]
    packedBit { gran := 3, tol := true, tcls := 2 } (8 * 0x40 + 5) = 322 ∧ symbolsHit { gran := 3, tol := true, tcls := 2 } b.unit b.flips = [20, 40, 60] ∧
    verdict (workedDecode true) a = .corrected ∧ looseBits { gran := 3, tol := true, tcls := 2 } a = [8 * 0x13 + 1] ∧ flipByte a.flips 0x13 0x3A = 0x38 ∧
    verdict (workedDecode true) b = .corrected ∧ verdict (workedDecode false) a = .corrected ∧ verdict (workedDecode false) b = .detected 3 := by decide +kernel

/-- The word that withFetchWord places runs in the very next step: addi s1, s0, 5 and the micro-operation addw w1, w0, 5. -/
theorem test_first_step : (match step (State.reset.withFetchWord 32 0x10040005) with | .next t => sreg (getCore t 0) 1 | _ => 0) = 5 ∧
    (match step (State.reset.withFetchWord 32 0x28840005) with | .next t => vget (getCore t 0).wick.w 1 0 | _ => 0) = 5 := by decide +kernel


/-! ### Witnesses: states and operands that meet the hypotheses of each statement, clause by clause -/

theorem witness_ScalarResult :
    (dev (core1 [(1, 5)]) (wordOf (.add 3 1 2) .s)).word = some (wordOf (.add 3 1 2) .s) ∧
    (scalarValue (core1 [(1, 5)]) (.add 3 1 2)).isSome = true ∧ scalarValue (core1 []) (.movh 0 0xFFFFFFFF) = some (0, 0xFFFFFFFF00000000, 1) := by
  decide +kernel

theorem witness_CountsAndDivision : ∃ s w, s.word = some w ∧ sreg (here s) 1 = 0x8000000000000000 ∧ sreg (here s) 2 = 0xFFFFFFFFFFFFFFFF ∧
    sreg (here s) 0 = 0 := ⟨dev (core1 [(1, 0x8000000000000000), (2, 0xFFFFFFFFFFFFFFFF)]) (wordOf (.div 3 1 2) .s), _, rfl, rfl, rfl, rfl⟩

theorem witness_ControlTransfer :
    (∃ s w, ∃ c : BitVec 3, s.word = some w ∧ c.toNat ≤ 5 ∧ Condition c.toNat (sreg (here s) 1) (sreg (here s) 0) ∧ (sreg (here s) 1).toNat % 4 = 0) ∧
    (∃ s w, s.word = some w ∧ ¬Condition 4 (sreg (here s) 1) (sreg (here s) 0) ∧ (sreg (here s) 1).toNat % 4 ≠ 0 ∧ w.origin ≠ .emitted ∧
      TrapReady (here s) w.seq) :=
  ⟨⟨dev (core1 []) (wordOf (.bc 1 0 5 0) .s), _, 5, rfl, by decide, by show _ ≤ _; decide +kernel, by decide +kernel⟩,
   ⟨dev (core1 [(1, 3)]) (wordOf (.jr 1) .s), _, rfl, by show ¬_ < _; decide +kernel, by decide +kernel, by decide, ready_of _ _ rfl rfl rfl (by decide)⟩⟩

theorem witness_ControlWords :
    (∃ s w, s.word = some w ∧ (here s).handler = true ∧ (here s).sys.epc = (here s).sys.skipEpc) ∧
    (∃ s w, s.word = some w ∧ (here s).handler = true ∧ (here s).sys.epc ≠ (here s).sys.skipEpc) ∧
    (∃ s w, s.word = some w ∧ (here s).handler = false ∧ w.origin ≠ .emitted ∧ TrapReady (here s) w.seq ∧ (sreg (here s) 1).toNat % 64 = 0 ∧
      (sreg (here s) 2).toNat < 2048 ∧ s.wcsLoad = none) ∧
    (∃ s w, s.word = some w ∧ w.origin ≠ .emitted ∧ TrapReady (here s) w.seq ∧ (sreg (here s) 1).toNat % 64 ≠ 0 ∧
      (sreg (here s) 0).toNat % 64 = 0 ∧ 2048 ≤ (sreg (here s) 2).toNat) :=
  ⟨⟨dev { core1 [] with handler := true } (wordOf .eret .s), _, rfl, rfl, rfl⟩,
   ⟨dev { core1 [] with handler := true, sys := { SysReg.reset with epc := 4 } } (wordOf .eret .s), _, rfl, rfl, by decide⟩,
   ⟨dev (core1 [(1, 64), (2, 2047)]) (wordOf (.wstart 1 2) .s), _, rfl, rfl, by decide, ready_of _ _ rfl rfl rfl (by decide), by decide +kernel,
    by decide +kernel, rfl⟩,
   ⟨dev (core1 [(1, 63), (2, 2048)]) (wordOf (.wstart 1 2) .s), _, rfl, by decide, ready_of _ _ rfl rfl rfl (by decide), by decide +kernel,
    by decide +kernel, by decide +kernel⟩⟩

/-- A core whose scratchpad and slot memory have their first grain poisoned. -/
def poisoned1 (r : List (Nat × W64)) : Core := { core1 r with mem := { OnChip.empty with spad := ⟨[], [0]⟩, slot := ⟨[], [0]⟩ } }

theorem witness_ScratchpadAndSlot :
    (∃ s w, s.word = some w ∧ spadAddress (here s) 0 0xFFFFFFF8 % 8 = 0 ∧ (here s).mem.spad.wf = true ∧ NoSpadFlight (here s) w ∧
      (here s).mem.spad.pois.contains (spadAddress (here s) 0 0xFFFFFFF8 / 32) = false ∧ (here s).mem.slot.wf = true ∧
      NoSlotFlight (here s) w ∧ (here s).mem.slot.pois.contains (16376 / 32) = false) ∧
    (∃ s w, s.word = some w ∧ spadAddress (here s) 0 0 % 8 = 0 ∧ (here s).mem.spad.wf = true ∧ NoSpadFlight (here s) w ∧
      (here s).mem.spad.pois.contains (spadAddress (here s) 0 0 / 32) = true ∧ w.origin ≠ .emitted ∧ TrapReady (here s) w.seq ∧
      spadAddress (here s) 0 1 % 2 ≠ 0 ∧ (1 : BitVec 14).toNat % 2 ≠ 0) :=
  ⟨⟨dev (poisoned1 []) (wordOf .nop .s), _, rfl, by decide +kernel, rfl, quiet_of rfl rfl, by decide +kernel, rfl, slots_of rfl, by decide⟩,
   ⟨dev (poisoned1 []) (wordOf .nop .s), _, rfl, by decide +kernel, rfl, quiet_of rfl rfl, by decide +kernel, by decide,
    ready_of _ _ rfl rfl rfl (by decide), by decide +kernel, by decide⟩⟩

/-- A leaf of a local page of 64 KiB in frame 5, of the format that a wipe leaves, with what is added to it (R17). -/
def leaf1 (more : Nat) : W64 := BitVec.ofNat 64 (1 + 3 * 2 ^ 14 + 5 * 2 ^ 16 + more)
/-- A handle on it at 0x20000 of context 1: it may be written. -/
def handle1 : BitVec 128 := mkHandle (.ok (leaf1 (2 ^ 54)) 0 0) 1 0x20000
/-- A region descriptor of that page (R98) with a mode and an owner. -/
def region1 (mode : Nat) : Region := { w0 := BitVec.ofNat 64 (1 + 2 ^ 8 + mode * 2 ^ 16 + 16 * 2 ^ 22 + 2 * 2 ^ 28), w1 := 0 }
/-- A core whose h1 is a handle, whose s1 is an offset in its page. -/
def core2 (x : BitVec 128) (o : W64) : Core := { core1 [(1, o), (2, 7)] with h := vset (Vector.replicate 16 0) 1 x }

theorem witness_HandleChecks :
    let at' := fun (x : BitVec 128) (o : W64) (P : State → Nat → Prop) => ∃ w, HandleIs (dev (core2 x o) w) w 1 x ∧ w.origin ≠ .emitted ∧
      TrapReady (core2 x o) w.seq ∧ P (dev (core2 x o) w) (hOrigin x + o.toNat)
    at' 0 0 (fun _ _ => hV 0 = false) ∧
    at' (mkHandle (.no 3) 1 0x20000) 0 (fun _ _ => hV (mkHandle (.no 3) 1 0x20000) = true ∧ hRes (mkHandle (.no 3) 1 0x20000) = 3) ∧
    at' handle1 0xFFF9 (fun _ va => hV handle1 = true ∧ hRes handle1 ≠ 3 ∧ hBase handle1 + pageSize (hSize handle1) < va + 8) ∧
    at' (mkHandle (.ok (leaf1 (2 ^ 55)) 0 0) 1 0x20000) 0xFFF8 (fun _ va => let x := mkHandle (.ok (leaf1 (2 ^ 55)) 0 0) 1 0x20000
      hV x = true ∧ hRes x ≠ 3 ∧ va + 8 ≤ hBase x + pageSize (hSize x) ∧ hEo x = true) ∧
    at' (mkHandle (.ok (leaf1 0) 0 0) 1 0x20000) 0xFFF8 (fun _ va => let x := mkHandle (.ok (leaf1 0) 0 0) 1 0x20000
      hV x = true ∧ hRes x ≠ 3 ∧ va + 8 ≤ hBase x + pageSize (hSize x) ∧ hEo x = false ∧ hWr x = false) ∧
    at' handle1 1 (fun _ va => va + 8 ≤ hBase handle1 + pageSize (hSize handle1) ∧ hEo handle1 = false ∧ hWr handle1 = true ∧ va % 8 ≠ 0) ∧
    (∃ w, ∃ s : State, HandleIs s w 1 handle1 ∧ w.origin ≠ .emitted ∧ TrapReady (here s) w.seq ∧ hV handle1 = true ∧ hRes handle1 ≠ 3 ∧
      (0x20000 + 8 ≤ hBase handle1 + pageSize (hSize handle1)) ∧ hEo handle1 = false ∧ hWr handle1 = true ∧
      (permit s (.plain s.core) (hCtx handle1) 0x20000 8 false true).1 = .no ∧ (permit s (.plain s.core) (hCtx handle1) 0x20000 8 true true).1 = .no) := by
  refine ⟨⟨wordOf .nop .s, handle_of rfl rfl rfl rfl, ?_⟩, ⟨wordOf .nop .s, handle_of rfl rfl rfl rfl, ?_⟩, ⟨wordOf .nop .s, handle_of rfl rfl rfl rfl, ?_⟩,
    ⟨wordOf .nop .s, handle_of rfl rfl rfl rfl, ?_⟩, ⟨wordOf .nop .s, handle_of rfl rfl rfl rfl, ?_⟩, ⟨wordOf .nop .s, handle_of rfl rfl rfl rfl, ?_⟩,
    ⟨wordOf .nop .s, { dev (core2 handle1 0) (wordOf .nop .s) with mmu := { State.reset.mmu with regions := [(0, region1 3)] } },
      handle_of rfl rfl rfl rfl, ?_⟩⟩
  all_goals exact ⟨by decide, ready_of _ _ rfl rfl rfl (by decide), by decide +kernel⟩


/-- A device whose core 0 has handle1 in h1, with DRAM. -/
def dev2 (o : W64) (m : Memory) : State := { dev (core2 handle1 o) (wordOf .nop .s) with dram := m }
/-- The cell that handle1 and an offset lead to. -/
def cell1 : Nat := 5 * 65536

theorem witness_PlainAccess :
    (∀ write, HandleIs (dev2 0xFFF8 .empty) (wordOf .nop .s) 1 handle1 ∧ LocalAccess (dev2 0xFFF8 .empty) handle1 write (0x20000 + 0xFFF8) 8 (cell1 + 0xFFF8)) ∧
    Memory.empty.wf = true ∧ Map.rising (core2 handle1 0xFFF8).plain = true ∧ Map.find (core2 handle1 0xFFF8).plain 0x9FF = none ∧
    Memory.empty.pois.contains ((cell1 + 0xFFF8) / 32) = false ∧
    LocalAccess (dev2 0 ⟨[], [cell1 / 32]⟩) handle1 false 0x20000 8 cell1 ∧ [cell1 / 32].contains (cell1 / 32) = true ∧
    (Memory.mk [] [cell1 / 32]).wf = true ∧ TrapReady (core2 handle1 0) 5 ∧ hOrigin handle1 = 0x20000 :=
  ⟨fun write => ⟨handle_of rfl rfl rfl rfl, by decide +kernel, by decide +kernel, by decide +kernel, by revert write; decide +kernel, by decide +kernel,
    by revert write; decide +kernel, by decide +kernel, by decide +kernel⟩, rfl, rfl, rfl, rfl,
    (by refine ⟨?_, ?_, ?_, ?_, ?_, ?_, ?_, ?_⟩ <;> decide +kernel),
    by decide, by decide, ready_of _ _ rfl rfl rfl (by decide), by decide +kernel⟩

/-- A core with an xlat on its way. -/
def walking (due slot : Nat) (n : BitVec 2) : Core :=
  { core1 [] with iss := { Issue.reset with slots := vset (Vector.replicate 7 0) 0 slot, openTok := [(.s, 1)]
                                            hpend := [{ h := 1, num := 1, due, seen := [], va := 0x20000, intent := n, marked := false, val := none }] } }

theorem witness_Translation : ∀ slot : Fin 10,
    let s := dev (walking 8 slot 1) (wordOf .nop .s)
    ∃ p, (getCore s 0).iss.hpend = [p] ∧ p.val = none ∧ s.cores.find 0 = some (getCore s 0) ∧
      tlbFind (getCore s 0).tlb (taskCtx (getCore s 0)) p.va.toNat = none ∧ tlbFind (Map.get [] s.mmu.tlbs 0) (taskCtx (getCore s 0)) p.va.toNat = none ∧
      movingAt s (taskCtx (getCore s 0)) p.va.toNat = false ∧ (p.due ≤ slot ↔ 8 ≤ slot.val) :=
  fun _ => ⟨_, rfl, rfl, rfl, rfl, rfl, rfl, by decide +revert⟩

theorem witness_HandleFields : ∃ ctx va cause : Nat, ctx = 255 ∧ va = 2 ^ 52 - 1 ∧ cause = 3 ∧ ctx < 256 ∧ va < 2 ^ 52 ∧ cause < 4 :=
  ⟨_, _, _, rfl, rfl, rfl, by decide, by decide, by decide⟩

theorem witness_SystemRead :
    (∃ s w, s.word = some w ∧ (here s).task = some task1 ∧ NoFlagFlight (here s) w ∧ (∀ x ∈ [0, 1, 2, 3, 4, 5, 8, 9, 10, 16, 17, 18, 19, 20],
      (sysRegister s task1 x).isSome = true) ∧ w.origin ≠ .emitted ∧ TrapReady (here s) w.seq) ∧
    (∃ s w, s.word = some w ∧ (here s).task = some task1 ∧ (here s).handler = true ∧
      ∀ x ∈ [0x110, 0x111, 0x118, 0x119, 0x121, 0x128, 0x130, 0x132, 0x138, 0x13F], (mgmtRegister s x).isSome = true) :=
  ⟨⟨dev (core1 []) (wordOf (.sysr 1 0) .s), _, rfl, rfl, noFlags_of rfl rfl, by decide +kernel, by decide, ready_of _ _ rfl rfl rfl (by decide)⟩,
   ⟨dev { core1 [] with handler := true } (wordOf (.sysr 1 0) .s), _, rfl, rfl, rfl, by decide +kernel⟩⟩

theorem reg1 (k : Core) (v : W64) (h : k.s = (core1 [(1, v)]).s) (hv : k.iss.view = []) : sreg k 1 = v := by
  unfold sreg; rw [h, hv]; simp [core1, vget, Map.get, Map.find]

/-- Any value may stand in the register that sysw reads, in handler mode and in task mode, so that each clause's condition on it is met. -/
theorem witness_SystemWrite (v : W64) :
    (∃ s w, s.word = some w ∧ sreg (here s) 1 = v ∧ (here s).handler = true ∧ NoFlagFlight (here s) w) ∧
    (∃ s w, s.word = some w ∧ sreg (here s) 1 = v ∧ w.origin ≠ .emitted ∧ TrapReady (here s) w.seq ∧ (here s).sys.step = false) :=
  ⟨⟨dev { core1 [(1, v)] with handler := true } (wordOf (.sysw 1 8) .s), _, rfl, reg1 _ v rfl rfl, rfl, noFlags_of rfl rfl⟩,
   ⟨dev (core1 [(1, v)]) (wordOf (.sysw 1 8) .s), _, rfl, reg1 _ v rfl rfl, by decide, ready_of _ _ rfl rfl rfl (show (0x2000 : W64) ≠ 0 by decide), rfl⟩⟩

theorem legal0 (s : State) (i : Nat) : regionLegal s i { w0 := 0, w1 := 0 } = true := by
  unfold regionLegal; rw [show rV { w0 := 0, w1 := 0 } = false by decide]; simp only [Bool.not_false, Bool.true_or, Bool.and_true]; decide

/-- The same in handler mode with no operation running, where the clauses add conditions. -/
theorem witness_ManagementWrite (v : W64) : ∃ s w, s.word = some w ∧ (here s).handler = true ∧ sreg (here s) 1 = v ∧
    (here s).mreg.sdBusy = false ∧ shootCount s < 16 ∧ (here s).mreg.rgBusy = false ∧ (here s).mreg.qBusy = false ∧ (here s).mreg.htBusy = false ∧
    regionLegal s 4095 { w0 := (here s).mreg.rglo, w1 := (here s).mreg.rghi } = true ∧ bindersOf s 4095 = [] :=
  ⟨dev { core1 [(1, v)] with handler := true } (wordOf (.sysw 1 0x100) .s), _, rfl, rfl, reg1 _ v rfl rfl, rfl, by show 0 < 16; decide, rfl, rfl, rfl, legal0 _ _,
    rfl⟩


/-- A nest of two levels whose body is one vnot (R259). -/
def nest1 (ext idx : List Nat) (pos : Nat) : Nest := { body := [0x47840000], addr := 0x1004, next := 0x1008, num := 7, ext, idx, pos }

/-- A device whose context 1 maps the first GiB to 2^30 of the device memory, writable (R14 to R17), with bytes at an address of it. -/
def mapped (va : Nat) (bs : List Byte) (k : Core) (w : QWord) : State :=
  { dev k w with
    dram := (((Memory.empty.setBytes 64 (leBytes 8 65537)).setBytes 65536 (leBytes 8 131073)).setBytes 131072
      (leBytes 8 (2 ^ 54 + 16384 * 65536 + 3 * 16384 + 8192 + 65))).setBytes (1073741824 + va) bs }
/-- Code words from 0x1000 on. -/
def codeAt (words : List Nat) (k : Core) (w : QWord) : State := mapped 0x1000 (words.flatMap (leBytes 4)) k w

/-- An lbody of one word, and one of two words whose extents are 0. -/
def body1 : State := codeAt [0x0E800000, 0x47840000] (core1 []) (wordOf .nop .l)
def body2 : State := codeAt ([0x0E800000, 0x47840000, 0x47840000]) { core1 [] with loopx := Vector.replicate 6 0 } (wordOf .nop .l)

theorem witness_Loops :
    (∃ s w, s.word = some w ∧ (sreg (here s) 1).toNat + (0 : BitVec 32).toNat ≤ 2 ^ 24 ∧ w.origin = .fetched ∧ TrapReady (here s) w.seq ∧
      2 ^ 24 < (sreg (here s) 1).toNat + (1 : BitVec 32).toNat) ∧
    (∃ s w n, s.word = some w ∧ w.origin = .replayed ∧ Fires 2 (Machine.mreg (here s) 0) ∧ ¬Fires 1 (Machine.mreg (here s) 0) ∧ ¬Fires 0 (Machine.mreg (here s) 1) ∧
      (here s).nest = some n ∧ (∃ j, bump n.ext n.idx 1 = some j) ∧ bump n.ext n.idx 2 = none) ∧
    (∃ s w u, s.word = some w ∧ fetchBody s.core w.next.toNat 1 s [] = (u, .ok [0x47840000]) ∧ bodyCheck w.next.toNat 6 [0x47840000] = none ∧
      u.word = some w ∧ u.core = s.core ∧ (here u).handler = false ∧ iterations ((List.range 6).map fun d => (vget (here u).loopx d 1).toNat) ≠ 0) ∧
    (∃ s w u, s.word = some w ∧ fetchBody s.core w.next.toNat 2 s [] = (u, .ok [0x47840000, 0x47840000]) ∧
      bodyCheck w.next.toNat 1 [0x47840000, 0x47840000] = none ∧ u.word = some w ∧ u.core = s.core ∧ (here u).handler = false ∧
      iterations ((List.range 1).map fun d => (vget (here u).loopx d 1).toNat) = 0) ∧
    (∃ ext idx, validIndex ext idx ∧ 2 ≤ ext.length ∧ ext = [3, 2] ∧ idx = [2, 1] ∧ iterations ext = 6 ∧ ordinal ext idx = 5) := by
  refine ⟨⟨dev (core1 [(1, 2 ^ 24)]) (wordOf .nop .l), _, rfl, by decide +kernel, rfl, ready_of _ _ rfl rfl rfl (by decide), by decide +kernel⟩,
    ⟨dev { core1 [] with nest := some (nest1 [3, 2] [2, 0] 0) } { wordOf .nop .l with origin := .replayed }, _, _, rfl, rfl, ?_, ?_, ?_, rfl,
      ⟨[0, 1], by decide⟩, by decide⟩,
    ⟨body1, _, (fetchBody 0 0x1004 1 body1 []).1, rfl, Prod.ext rfl (by decide +kernel), by decide +kernel⟩,
    ⟨body2, _, (fetchBody 0 0x1004 2 body2 []).1, rfl, Prod.ext rfl (by decide +kernel), by decide +kernel⟩,
    ⟨[3, 2], [2, 1], ⟨by decide, by decide, trivial⟩, Nat.le_refl 2, rfl, rfl, rfl, rfl⟩⟩
  · intro i _; simp only [Machine.mreg, if_pos]; rw [BitVec.getLsbD_allOnes]; simpa using ‹i < 128›
  · intro h; exact absurd (h 0 (by decide)) (by decide +kernel)
  · rintro ⟨i, hi, h⟩; revert i; decide +kernel


theorem noWord (e : Nat) (w : QWord) (h : w ∈ vget Issue.reset.queues e []) : False := by
  unfold vget Issue.reset at h; rw [Vector.getElem?_replicate] at h; split at h <;> simp at h

def steer1 : State := codeAt [0x47840000] { core1 [] with pc := 0x1000 } (wordOf .nop .s)

theorem witness_Steering :
    (∃ s n, (getCore s 0).nest = some n ∧ stopped (getCore s 0) = false ∧ (∀ e, ∀ w ∈ vget (getCore s 0).iss.queues e [], ∀ x d m, w.instr ≠ .lbrk x d m) ∧
      (getCore s 0).sys.step = false ∧ n.pos < n.body.length ∧ (decodeGroup ((n.body.map (·.toNat)).drop n.pos)).toOption.isSome = true ∧
      vget (getCore s 0).sys.skip 2 [] = []) ∧
    (∃ s n, (getCore s 0).nest = some n ∧ stopped (getCore s 0) = false ∧ (∀ e, ∀ w ∈ vget (getCore s 0).iss.queues e [], ∀ x d m, w.instr ≠ .lbrk x d m) ∧
      n.body.length ≤ n.pos ∧ bump n.ext n.idx 0 = none) ∧
    (∃ s u g ws, splitterHeld (getCore s 0) = false ∧ (getCore s 0).sys.step = false ∧
      fetchGroup s 0 (getCore s 0).pc.toNat = (u, .ok (g, ws)) ∧ vget (getCore u 0).sys.skip 2 [] = []) :=
  ⟨⟨dev { core1 [] with nest := some (nest1 [2] [0] 0) } (wordOf .nop .s), _, rfl, rfl, fun e w h => (noWord e w h).elim, rfl, by decide, rfl, rfl⟩,
   ⟨dev { core1 [] with nest := some (nest1 [2] [1] 1) } (wordOf .nop .s), _, rfl, rfl, fun e w h => (noWord e w h).elim, by decide, by decide⟩,
   ⟨steer1, (fetchGroup steer1 0 0x1000).1, { deps := [], instr := .vnot 1 0 0, head := 0, len := 1 }, [0x47840000],
     by decide +kernel, rfl, Prod.ext rfl (by decide +kernel), by decide +kernel⟩⟩

/-- A generator with an index at the end of its extent (R262). -/
def gen1 : Gen := { Gen.reset with ext := vset Gen.reset.ext 0 (2 ^ 24 : Nat), idx := vset Gen.reset.idx 0 (2 ^ 24 - 1 : Nat), stride := vset Gen.reset.stride 0 4 }

theorem witness_Generators :
    (∃ s w, s.word = some w ∧ w.origin ≠ .emitted ∧ TrapReady (here s) w.seq ∧ NoSpadFlight (here s) w ∧ (here s).mem.spad.wf = true ∧
      (here s).mem.spad.pois.contains ((0 + 4 * (vget (vget (here s).g 0 .reset).idx 0 0).toNat) % 2 ^ 22 / 32) = false ∧
      (sreg (here s) 1).toNat = 2 ^ 24 ∧ ((sreg (here s) 2).setWidth 32).signExtend 64 = sreg (here s) 2 ∧ (vget (here s).g 0 .reset).indv = false ∧
      (sreg (here s) 3).toNat = 2 ^ 24 + 1 ∧ ((sreg (here s) 4).setWidth 32).signExtend 64 ≠ sreg (here s) 4 ∧ (sreg (here s) 3).toNat % 4 ≠ 0 ∧
      (sreg (here s) 1).toNat % 4 = 0 ∧ (vget (here s).g 0 .reset).reads = []) ∧
    (∃ s, ∀ j : Fin 6, let x := vget (here s).g 0 .reset
      (vget x.idx j.val 0).toNat < (vget x.ext j.val 1).toNat ∧ (vget x.ext j.val 1).toNat ≤ 2 ^ 24) := by
  let k : Core := { core1 [(1, 2 ^ 24), (2, 0xFFFFFFFF80000000), (3, 2 ^ 24 + 1), (4, 0x80000000)] with g := vset (Vector.replicate 8 .reset) 0 gen1 }
  exact ⟨(by refine ⟨dev k (wordOf .nop .l), _, rfl, ?_, ready_of _ _ rfl rfl rfl (by decide), quiet_of rfl rfl, rfl, ?_, ?_, ?_, rfl, ?_, ?_, ?_, ?_, rfl⟩ <;> decide +kernel), ⟨dev k (wordOf .nop .l), by decide +kernel⟩⟩

/-- A core whose v1 holds 1.0 in lane 0, a signalling NaN in lane 1 and poison in lane 2, and whose m1 names lanes 0 and 1, m2 lane 2. -/
def vcore : Core := { core1 [] with
  v := [(128, ⟨0x3F800000, false⟩), (129, ⟨0x7F800001, false⟩), (130, ⟨5, true⟩)]
  m := vset (vset Core.reset.m 1 3) 2 4 }
def vdev (i : Instr) : State := dev vcore (wordOf i .v)
def lanes (r : BitVec 5) (i : Nat) : Lane := laneBase vcore (128 * r.toNat + i)

theorem sees_v (i : Instr) (on : Nat → Prop) (r : BitVec 5) : Sees (vdev i) on r (lanes r) := sees_of rfl rfl on r

theorem witness_VectorLanes : ∀ i ∈ [Instr.vadd 3 1 2 0 0 3 0, .vfma 3 1 2 1 2 0 1, .vmin 3 1 2 0 1 0, .vclass 3 1 0 5, .vcvt 3 1 0 6 2 1, .vscale 3 1 2 0 1 2 1],
    (vdev i).word = some (wordOf i .v) ∧ typeLegal i ∧ Map.rising (here (vdev i)).v = true ∧ ∃ l, laneWord i = some l ∧
      ∀ r ∈ l.srcs, Sees (vdev i) (On (Machine.mreg (here (vdev i)) l.m)) r (lanes r) := by
  intro i hi
  simp only [List.mem_cons, List.not_mem_nil, or_false] at hi
  rcases hi with rfl | rfl | rfl | rfl | rfl | rfl <;>
    exact ⟨rfl, by simp [typeLegal], rfl, _, rfl, fun r _ => sees_v _ _ r⟩


theorem on_m1 (i : Nat) (h : On (Machine.mreg vcore 1) i) : i = 0 ∨ i = 1 := by
  unfold On at h
  by_cases hi : i < 128
  · have : ∀ j : Fin 128, (Machine.mreg vcore 1).getLsbD j.val = true → j.val = 0 ∨ j.val = 1 := by decide +kernel
    exact this ⟨i, hi⟩ h
  · rw [BitVec.getLsbD_of_ge _ _ (by omega)] at h; cases h
theorem on_m2 (i : Nat) (hi : i < 128) : On (Machine.mreg vcore 2) i ↔ i = 2 := by
  have : ∀ j : Fin 128, (Machine.mreg vcore 2).getLsbD j.val = true ↔ j.val = 2 := by decide +kernel
  exact this ⟨i, hi⟩
theorem clean_m1 (i : Nat) (hi : i < 128) (h : On (Machine.mreg vcore 1) i) : (lanes 1 i).pois = false := by
  obtain rfl | rfl := on_m1 i h <;> decide

/-- Sources that a mask m1 names are clean, lane 2 of m2 is not; formats at both ends of the widths. -/
theorem witness_MovesAndMasks :
    (vdev .nop).word = some (wordOf .nop .v) ∧ Map.rising (here (vdev .nop)).v = true ∧ (∀ on r, Sees (vdev .nop) on r (lanes r)) ∧
    codeWidth 16 = 4 ∧ codeWidth 1 = 16 ∧ (7 : BitVec 3).toNat < 32 / codeWidth 16 ∧ (1 : BitVec 3).toNat < 32 / codeWidth 1 ∧
    (∀ i, i < 128 → On (Machine.mreg (here (vdev .nop)) 1) i → (lanes 1 i).pois = false) ∧
    (On (Machine.mreg (here (vdev .nop)) 2) 2 ∧ (lanes 1 2).pois = true ∧ (∀ j, j < 2 → On (Machine.mreg (here (vdev .nop)) 2) j → (lanes 1 j).pois = false) ∧
      (wordOf .nop .v).origin ≠ .emitted ∧ TrapReady vcore 5) ∧ (lanes 1 0).pois = false := by
  refine ⟨rfl, rfl, sees_v _, by decide, by decide, by decide, by decide, clean_m1, ⟨(on_m2 2 (by decide)).2 rfl, by decide, fun j hj h => ?_, by decide,
    ready_of _ _ rfl rfl rfl (by decide)⟩, by decide⟩
  have := (on_m2 j (by omega)).1 h; omega

theorem witness_VectorBlocks : (vdev .nop).word = some (wordOf .nop .v) ∧ Map.rising (here (vdev .nop)).v = true ∧
    (∀ on r, Sees (vdev .nop) on r (lanes r)) ∧ (∀ f ∈ [18, 19, 20], f ∈ [18, 19, 20]) ∧ ∃ fmt, floatFmt 0 = some fmt :=
  ⟨rfl, rfl, sees_v _, fun _ h => h, ⟨_, rfl⟩⟩

/-- Rows at the top of the scratchpad, aligned and not; gathers through clean and through misaligned lanes. -/
theorem witness_VectorMemory :
    (vdev .nop).word = some (wordOf .nop .v) ∧ Map.rising (here (vdev .nop)).v = true ∧ NoSpadFlight (here (vdev .nop)) (wordOf .nop .v) ∧
    (here (vdev .nop)).mem.spad.wf = true ∧ (here (vdev .nop)).mem.slot.wf = true ∧ (∀ on r, Sees (vdev .nop) on r (lanes r)) ∧
    (wordOf .nop .v).origin ≠ .emitted ∧ TrapReady (here (vdev .nop)) 5 ∧
    vmAddress (core1 [(1, 2 ^ 22 - 64)]) 1 0 % 64 = 0 ∧ vmAddress (core1 [(1, 63)]) 1 0xFFFFFFFF % 64 ≠ 0 ∧ vmAddress (core1 [(1, 63)]) 1 0 % 4 ≠ 0 ∧
    (∀ i, i < 128 → On (Machine.mreg (here (vdev .nop)) 1) i → (lanes 2 i).pois = false ∧ ((sreg (here (vdev .nop)) 0).toNat + 4 * (lanes 2 i).val.toNat) % 2 ^ 22 % 4 = 0) ∧
    (∃ s w, s.word = some w ∧ (∀ on r, Sees s on r (fun i => laneBase (here s) (128 * r.toNat + i))) ∧ TrapReady (here s) w.seq ∧
      On (Machine.mreg (here s) 0) 0 ∧ ((sreg (here s) 1).toNat + 4 * (laneBase (here s) 256).val.toNat) % 2 ^ 22 % 4 ≠ 0 ∧
      ∀ j, j < 128 → (laneBase (here s) (256 + j)).pois = false) := by
  refine ⟨rfl, rfl, quiet_of rfl rfl, rfl, rfl, sees_v _, by decide, ready_of _ _ rfl rfl rfl (by decide), by decide +kernel, by decide +kernel, by decide +kernel, fun i hi h => ?_,
    ⟨dev (core1 [(1, 2 ^ 22 + 1)]) (wordOf .nop .v), _, rfl, fun on r => sees_of rfl rfl on r, ready_of _ _ rfl rfl rfl (by decide), by unfold On; decide,
      by decide +kernel, fun j _ => rfl⟩⟩
  obtain rfl | rfl := on_m1 i h <;> decide

/-- A carry of 128 leaves in v4, and registers that hold no carry (R290). -/
def carried : State := dev { core1 [] with v := [(512, ⟨128, false⟩), (513, ⟨2147483648 + 512, false⟩), (514, ⟨128, false⟩), (640, ⟨1, false⟩), (768, ⟨0, true⟩)] } (wordOf .nop .v)

theorem witness_VectorReduction :
    carried.word = some (wordOf .nop .v) ∧ Map.rising (here carried).v = true ∧ profileOf 2 63 = some 2 ∧ profileOf 2 3 = some 3 ∧ profileOf 2 4 = none ∧
    (∀ on r, Sees carried on r (fun i => laneBase (here carried) (128 * r.toNat + i))) ∧
    CarryIn carried 0 2 true 4 (fun _ => ⟨0, false⟩) Carry.empty ∧
    (∃ c, CarryIn carried 0 2 false 4 (fun i => laneBase (here carried) (512 + i)) c ∧ c.n = 128) ∧
    readCarry 0 2 (lanesRead fun i => laneBase (here carried) (640 + i)) = .error (11, 0) ∧
    readCarry 0 2 (lanesRead fun i => laneBase (here carried) (768 + i)) = .error (18, 0) ∧ (wordOf .nop .v).origin ≠ .emitted ∧
    TrapReady (here carried) 5 :=
  ⟨rfl, rfl, rfl, rfl, rfl, fun on r => sees_of rfl rfl on r, .inl ⟨rfl, rfl⟩,
    ⟨{ n := 128, stack := [(7, .absent)], sum := 0, pois := false }, .inr ⟨rfl, sees_of rfl rfl _ 4, rfl⟩, rfl⟩,
    rfl, rfl, by decide, ready_of _ _ rfl rfl rfl (by decide)⟩

/-- Three registers of absent leaves; and pairs, whose leaves make 64 a register (R289). -/
theorem witness_CarriedReductionIsTree : ∃ regs : List (List Node), 3 < 2 ^ 20 ∧ regs.length = 3 ∧ (∀ l ∈ regs, l.length = 2 ^ redLevel 0) ∧
    ∃ l : List Node, l.length = 2 ^ redLevel 6 :=
  ⟨List.replicate 3 (List.replicate 128 .absent), by decide, rfl, by decide, List.replicate 64 .absent, rfl⟩

/-- Two results of V in flight for lane 0 of v1, one whose slot has come and one whose slot has not, marked. -/
def flying2 : State := dev { core1 [] with sys := { (core1 []).sys with pend := true }, iss := { Issue.reset with slots := vset (Vector.replicate 7 0) 2 5, pend :=
  [{ eng := .v, num := 1, due := 5, seen := [], marked := false, dst := .lanes [(128, ⟨1, false⟩)] },
   { eng := .v, num := 2, due := 6, seen := [], marked := true, dst := .lanes [(128, ⟨2, false⟩)] }] } } { wordOf .nop .v with num := 3 }

theorem witness_VectorVisibility : ∃ w p q, flying2.word = some w ∧ w.eng = .v ∧ (here flying2).iss.pend = [p, q] ∧ p.eng = .v ∧ q.eng = .v ∧
    WritesKey p 128 ⟨1, false⟩ ∧ WritesKey q 128 ⟨2, false⟩ ∧ Visible (here flying2) w p ∧ ¬Visible (here flying2) w q ∧ q.marked = true ∧
    On (Machine.mreg (here flying2) 0) 0 ∧ (laneSeen flying2 (here flying2) 128).2.2 = true ∧ w.origin ≠ .emitted ∧ TrapReady (here flying2) w.seq := by
  refine ⟨_, _, _, rfl, rfl, rfl, rfl, rfl, ⟨_, rfl, rfl⟩, ⟨_, rfl, rfl⟩, .inl (by decide), ?_, rfl, by unfold On; decide, by decide +kernel, by decide, ?_⟩
  · rintro (h | h) <;> revert h <;> decide +kernel
  · exact ⟨rfl, rfl, fun e q h => (noWord e q h).elim, fun q h => (by cases h), rfl, by decide⟩

theorem witness_Exponents : (∀ i ∈ [Instr.xexp2 3 1 2, .xlogi 3 1 0], (vdev i).word = some (wordOf i .v) ∧ Map.rising (here (vdev i)).v = true ∧
      ∃ l, expLane 2 i = some l ∧ ∀ r ∈ l.srcs, Sees (vdev i) (On (Machine.mreg (here (vdev i)) l.m)) r (lanes r)) ∧
    (∃ x < 2 ^ 32, (∃ m e, m ≠ 0 ∧ c32 x = .fin true m e)) ∧ (∃ x < 2 ^ 32, (c32 x).isNaN = true) ∧
    (∃ x < 2 ^ 32, ∃ y < 2 ^ 32, (c32 x).isNaN = false ∧ (c32 y).isNaN = false ∧ compareVals (c32 x) (c32 y) = .eq) := by
  refine ⟨fun i hi => ?_, ⟨0x80000001, by decide, 1, -149, by decide, by decide⟩, ⟨0x7F800001, by decide, by decide⟩,
    ⟨0x80000000, by decide, 0, by decide, by decide, by decide, by decide⟩⟩
  simp only [List.mem_cons, List.not_mem_nil, or_false] at hi
  rcases hi with rfl | rfl <;> exact ⟨rfl, rfl, _, rfl, fun r _ => sees_v _ _ r⟩


/-- A core whose generators 0 to 4 stand at scratchpad offsets, the scratchpad's grain 1 poisoned, with tile, table and chains. -/
def mcore (c0 c1 : Chain) : Core := { core1 [(1, 64), (2, 63), (3, 2 ^ 32 * 257 + 1), (4, 2 ^ 32 * 256 + 1), (5, 2 ^ 24)] with
  g := Vector.ofFn fun i => { Gen.reset with base := BitVec.ofNat 64 (match i.val with | 0 => 2 ^ 22 - 64 | 1 => 32 | 2 => 63 | 3 => 31 | _ => 0) }
  mem := { OnChip.empty with spad := ⟨[], [1]⟩, tags := [(tagKey 8 0 1, { fmt := 3, tbl := 0, bank := false, time := 1 }),
                                                            (tagKey 4 0 2, { fmt := 16, tbl := 0, bank := false, time := 2 })] }
  chains := vset (vset (Vector.replicate 8 .reset) 0 c0) 1 c1 }
def mdev (c0 c1 : Chain) : State := dev (mcore c0 c1) (wordOf .nop .m)
/-- An opened chain of one column tile, in profile 1 (R317). -/
def open1 : Chain := { Chain.reset with st := .opened, prof := 1, w := 1 }

theorem mready (c0 c1 : Chain) : TrapReady (here (mdev c0 c1)) 5 := ready_of _ _ rfl rfl rfl (show (0x2000 : W64) ≠ 0 by decide)

theorem witness_TilesAndTables : let s := mdev open1 open1
    s.word = some (wordOf .nop .m) ∧ (∀ g, GenStill (here s) g) ∧ NoSpadFlight (here s) (wordOf .nop .m) ∧ (here s).mem.spad.wf = true ∧ (here s).mem.cim.wf = true ∧
    (here s).mem.bscale.wf = true ∧ Map.rising (here s).mem.tags = true ∧ Map.rising (here s).mem.tables = true ∧
    genOffset (here s) 0 = 2 ^ 22 - 64 ∧ genOffset (here s) 0 % 64 = 0 ∧ ((3 : BitVec 2).toNat + 1) * codeWidth 16 ≤ 16 ∧
    ((0 : BitVec 2).toNat + 1) * codeWidth 1 ≤ 16 ∧ genOffset (here s) 2 % 64 ≠ 0 ∧ genOffset (here s) 0 % 32 = 0 ∧
    (here s).mem.spad.pois.contains (genOffset (here s) 0 / 32) = false ∧ genOffset (here s) 3 % 32 ≠ 0 ∧ genOffset (here s) 1 % 32 = 0 ∧
    (here s).mem.spad.pois.contains (genOffset (here s) 1 / 32) = true ∧ TrapReady (here s) 5 :=
  (by refine ⟨rfl, by unfold GenStill; decide +kernel, quiet_of rfl rfl, rfl, rfl, rfl, rfl, rfl, ?_, ?_, ?_, ?_, ?_, ?_, ?_, ?_, ?_, ?_, mready _ _⟩ <;> decide +kernel)

/-- A delivery that completes chunk 255 of a chain of 2^16 + 1 elements, one of a last partial chunk, and each check that fails. -/
theorem witness_MatrixDelivery : let w := wordOf .nop .m
    let c := { open1 with k := 65537, n := 255 }
    let d := { open1 with k := 65537, n := 256 }
    (∀ x y, (mdev x y).word = some w ∧ (∀ g, GenStill (here (mdev x y)) g) ∧ NoSpadFlight (here (mdev x y)) w ∧ (here (mdev x y)).mem.spad.wf = true ∧
      Map.rising (here (mdev x y)).v = true ∧ w.origin ≠ .emitted ∧ TrapReady (here (mdev x y)) w.seq) ∧
    MatrixProfile w 1 1 ∧ MatrixProfile w 63 2 ∧ TakesDelivery c 0 255 ∧ TakesDelivery d 0 0 ∧ ¬TakesDelivery d 0 255 ∧
    (let k := here (mdev c d)
     (∃ tag, tileNamed k.mem 0 1 = some (8, tag) ∧ codeInt 3 = codeInt tag.fmt.toNat ∧ codeInt 12 ≠ codeInt tag.fmt.toNat) ∧ tileNamed k.mem 0 0 = none ∧
     0 ≤ promisedTo k w ∧ popScales 0 k.mem.scaleq = some ([], []) ∧ (slabsHeld k - slabs c) + k.drain + demand c.prof c.w (c.n + 1) c.init ≤ 64 ∧
     genOffset k 0 % 64 = 0 ∧ (∀ on r, Sees (mdev c d) on r (fun i => laneBase k (128 * r.toNat + i)))) ∧
    (24 + (16 * 8 + 15) / 16 ≤ 32) ∧ profileOf w.np 4 = none ∧ profileOf w.np 0 = some 0 ∧ Chain.reset.st = .none := by
  refine ⟨fun x y => ⟨rfl, ?_, quiet_of rfl rfl, rfl, rfl, by decide, mready _ _⟩, ⟨rfl, by decide, by decide⟩, ⟨rfl, by decide, by decide⟩, by unfold TakesDelivery; decide,
    by unfold TakesDelivery; decide, by unfold TakesDelivery; decide, ⟨⟨_, rfl, by decide, by decide⟩, by decide +kernel, Nat.zero_le _, by decide +kernel, by decide +kernel, by decide +kernel,
    fun on r => sees_of rfl rfl on r⟩, by decide, rfl, rfl, rfl⟩
  intro g
  have : ∀ g : BitVec 3, (vget (mcore .reset .reset).g g.toNat .reset).reads = [] := by decide +kernel
  exact this g

theorem witness_MatrixElement : ∃ (k : Core) (ch : Chain) (tag : Tag) (rows : List (List PByte)) (xs : List (Byte × Bool)),
    tag.fmt.toNat ∈ [1, 2, 3, 4, 7, 8, 12, 16, 17, 18, 19, 20] ∧ (∀ r ∈ rows, r.length = 32 * codeWidth 18) ∧ xs.length = 8 * rows.length ∧
    k.mem.cim.wf = true ∧ k.mem.bscale.wf = true ∧ 15 < rows.length ∧ rows.length ≤ 16 ∧ 3 < ch.w ∧ ch.w ≤ 4 :=
  ⟨mcore .reset .reset, { open1 with w := 4 }, { fmt := 20, tbl := 0, bank := false, time := 1 }, List.replicate 16 (List.replicate 256 (0, false)), List.replicate 128 (127, false),
    by decide, by decide +kernel, by decide +kernel, rfl, rfl, by decide, by decide, by decide, by decide⟩

/-- Operands of acz and acinit at both sides of their checks; chains to merge, to close and to drop. -/
theorem witness_Chains : let w := wordOf .nop .m
    let c : Chain := { open1 with k := 1024, n := 2, prof := 2 }
    let r : Chain := { open1 with st := .ended, k := 1024, s0 := 2, n := 1, prof := 2 }
    let s := mdev c r
    let k := here s
    s.word = some w ∧ MatrixProfile w 63 2 ∧
    ((sreg k 3).toNat / 2 ^ 24 % 256 = 0 ∧ 256 * ((sreg k 3).toNat % 2 ^ 24) < (sreg k 3).toNat / 2 ^ 32) ∧
    ((sreg k 4).toNat / 2 ^ 24 % 256 = 0 ∧ (sreg k 4).toNat / 2 ^ 32 ≤ 256 * ((sreg k 4).toNat % 2 ^ 24)) ∧ (sreg k 5).toNat / 2 ^ 24 % 256 ≠ 0 ∧
    (slabsHeld k - slabs c) + k.drain + 8 ≤ 64 ∧
    (∃ s', s'.word = some w ∧ 64 < slabsHeld (here s') - 0 + (here s').drain + 2 ∧ slabsHeld (here s') + 2 ≤ 64) ∧
    (∃ s', s'.word = some w ∧ 64 < slabsHeld (here s') - 0 + 2 ∧ TrapReady (here s') w.seq) ∧
    (sreg k 1).toNat % 2 ^ 22 % 64 = 0 ∧ (sreg k 2).toNat % 2 ^ 22 % 64 ≠ 0 ∧ NoSpadFlight k w ∧ k.mem.spad.wf = true ∧ Mergeable c r 1 ∧
    { open1 with ct := 1 }.ct ≠ 0 ∧ w.origin ≠ .emitted ∧ TrapReady k w.seq ∧ profileOf w.np 62 = none := by
  refine ⟨rfl, ⟨rfl, by decide, by decide⟩, by decide +kernel, by decide +kernel, by decide +kernel, by decide +kernel,
    ⟨dev { mcore .reset .reset with drain := 64 } (wordOf .nop .m), rfl, by decide +kernel, by decide +kernel⟩,
    ⟨mdev { open1 with n := 2 ^ 24 - 1, prof := 3, w := 2 } .reset, rfl, by decide +kernel, mready _ _⟩, by decide +kernel, by decide +kernel, quiet_of rfl rfl, rfl,
    by unfold Mergeable; decide, by decide, by decide, mready _ _, by decide⟩

/-- A closed chain, whose elements are read back, and one that runs. -/
theorem witness_ChainReadback : let w := wordOf .nop .m
    let s := mdev { open1 with st := .closed, w := 4 } { open1 with k := 300 }
    s.word = some w ∧ (vget (here s).chains 0 .reset).st = .closed ∧ (3 : BitVec 2).toNat < (vget (here s).chains 0 .reset).w ∧ (24 : BitVec 5).toNat ≤ 24 ∧
    (sreg (here s) 1).toNat % 2 ^ 22 % 64 = 0 ∧ (sreg (here s) 2).toNat % 2 ^ 22 % 64 ≠ 0 ∧ (vget (here s).chains 0 .reset).w ≤ 4 ∧
    (let c := vget (here s).chains 1 .reset; c.st = .opened ∧ c.k ≠ 0 ∧ c.init = false ∧ c.ct = 0 ∧ 1 ≤ c.w ∧ c.w ≤ 4) ∧
    (vget (here s).chains 2 .reset).st = .none ∧ w.origin ≠ .emitted ∧ TrapReady (here s) w.seq := by
  refine ⟨rfl, rfl, by decide +kernel, by decide, by decide +kernel, by decide +kernel, by decide +kernel, by decide +kernel, rfl, by decide, mready _ _⟩


/-- The word of a sleeper's cell and of strong accesses through h1; sleepers wait there; nothing is forwarded. -/
def qdev (x : BitVec 128) (o : W64) (m : Memory) (regions : Map Region) : State :=
  { dev (core2 x o) (wordOf .nop .q) with
    dram := m, sleepers := [(cell1, 3)], mmu := { State.reset.mmu with regions } }

theorem strong1 (write : Bool) : StrongAccess (qdev handle1 0 .empty []) handle1 write 0x20000 8 cell1 :=
  ⟨by decide +kernel, by decide +kernel, by decide +kernel, by revert write; decide +kernel, by decide +kernel, by revert write; decide +kernel, by decide +kernel,
    by decide +kernel, fun _ => by decide +kernel⟩

theorem held1 (m : BitVec 6) (s : State) (h : s.fab.lines = []) : releaseHeld s m = false := by unfold releaseHeld; rw [h]; rfl

theorem witness_StrongDeviceAccess :
    (∀ i ∈ [Instr.ldsDevice 2 1 0 1 1 63, .stsDevice 2 1 0 1 2 63, .aaddDevice 2 1 0 1 0 0, .acasDevice 2 1 0 1 3 1], ∃ W, strongDevice i = some W ∧ W.h = 1 ∧
      sreg (core2 handle1 0) W.a = 0 ∧ W.n = 8) ∧
    HandleIs (qdev handle1 0 .empty []) (wordOf .nop .q) 1 handle1 ∧ Memory.empty.wf = true ∧
    (∀ write, StrongAccess (qdev handle1 0 .empty []) handle1 write (hOrigin handle1 + (0 : W64).toNat) 8 cell1) ∧
    (∀ m, releaseHeld (qdev handle1 0 .empty []) m = false) ∧ Memory.empty.pois.contains (cell1 / 32) = false ∧
    numberAt Memory.empty cell1 8 ≠ (sreg (core2 handle1 0) 2).toNat ∧ numberAt Memory.empty cell1 8 = (sreg (core2 handle1 0) 0).toNat ∧
    (∃ m : Memory, m.wf = true ∧ m.pois.contains (cell1 / 32) = true ∧ StrongAccess (qdev handle1 0 m []) handle1 false 0x20000 8 cell1 ∧
      TrapReady (here (qdev handle1 0 m [])) 5) := by
  refine ⟨?_, handle_of rfl rfl rfl rfl, rfl, fun write => ?_, fun m => held1 m _ rfl, rfl, by decide +kernel, by decide +kernel,
    ⟨[], [cell1 / 32]⟩, by decide, by decide, (by refine ⟨?_, ?_, ?_, ?_, ?_, ?_, ?_, ?_, fun h => by cases h⟩ <;> decide +kernel), ready_of _ _ rfl rfl rfl (by decide)⟩
  · intro i hi; simp only [List.mem_cons, List.not_mem_nil, or_false] at hi
    rcases hi with rfl | rfl | rfl | rfl <;> exact ⟨_, rfl, rfl, by decide, rfl⟩
  · have h : hOrigin handle1 + (0 : W64).toNat = 0x20000 := by decide +kernel
    rw [h]; exact strong1 write

/-- The traps of strong accesses: the handles of witness_HandleChecks, at offsets that pass and fail each check. -/
theorem witness_StrongTraps : (∀ x : BitVec 128, ∀ o, HandleIs (qdev x o .empty []) (wordOf .nop .q) 1 x ∧ TrapReady (here (qdev x o .empty [])) 5) ∧ hV 0 = false ∧
    hRes (mkHandle (.no 3) 1 0x20000) = 3 ∧ hBase handle1 + pageSize (hSize handle1) < hOrigin handle1 + 0xFFF9 + 8 ∧
    hEo (mkHandle (.ok (leaf1 (2 ^ 55)) 0 0) 1 0x20000) = true ∧ hWr (mkHandle (.ok (leaf1 0) 0 0) 1 0x20000) = false ∧ (hOrigin handle1 + 0xFFF4) % 8 ≠ 0 ∧
    hOrigin handle1 + 0xFFF8 + 8 ≤ hBase handle1 + pageSize (hSize handle1) := by
  refine ⟨fun x o => ⟨⟨rfl, rfl, ?_, (fun p h => by cases h), fun p h => by cases h⟩, ready_of _ _ rfl rfl rfl (show (0x2000 : W64) ≠ 0 by decide)⟩, by decide +kernel, by decide +kernel, by decide +kernel, by decide +kernel, by decide +kernel, by decide +kernel, by decide +kernel⟩
  show vget (vset (Vector.replicate 16 0) 1 x) 1 0 = x
  simp [vget, vset]

theorem witness_StrongScratchpadAccess :
    let s := dev { poisoned1 [(1, 2 ^ 22 - 8), (2, 2 ^ 22 - 4)] with sleepers := [2 ^ 22 - 8] } (wordOf .nop .q)
    s.word = some (wordOf .nop .q) ∧ NoSpadFlight (here s) (wordOf .nop .q) ∧ (here s).mem.spad.wf = true ∧ (sreg (here s) 1).toNat % 2 ^ 22 % 8 = 0 ∧
    (sreg (here s) 2).toNat % 2 ^ 22 % 8 ≠ 0 ∧ (here s).mem.spad.pois.contains ((sreg (here s) 1).toNat % 2 ^ 22 / 32) = false ∧
    (here s).mem.spad.pois.contains ((sreg (here s) 0).toNat % 2 ^ 22 / 32) = true ∧ (∀ m, releaseHeld s m = false) ∧ TrapReady (here s) 5 ∧
    numberAt (here s).mem.spad (2 ^ 22 - 8) 8 = (sreg (here s) 0).toNat ∧ numberAt (here s).mem.spad (2 ^ 22 - 8) 8 ≠ (sreg (here s) 1).toNat ∧
    2 ^ 22 - 8 ∈ (here s).sleepers ∧ 0 ∉ (here s).sleepers :=
  (by refine ⟨rfl, quiet_of rfl rfl, rfl, ?_, ?_, ?_, ?_, fun m => held1 m _ rfl, ready_of _ _ rfl rfl rfl (by decide), ?_, ?_, ?_, ?_⟩ <;> decide +kernel)

/-- A forwarded write to a peer (R124). -/
def line1 : FLine := { id := 0, dev := 7, host := false, va := 0x30000, len := 8, data := some (clean (leBytes 8 1)), op := 1, use := .store 1 0 0 0, src := 0x30000 }

theorem witness_FenceAndOwnership :
    (∀ rel, releaseHeld (qdev handle1 0 .empty []) rel = false) ∧ releaseHeld { qdev handle1 0 .empty [] with fab := { State.reset.fab with lines := [line1] } } 16 = true ∧
    (let s := qdev handle1 0xFFFF .empty []
     HandleIs s (wordOf .nop .q) 1 handle1 ∧ hV handle1 = true ∧ hRes handle1 ≠ 3 ∧ hInRange handle1 0xFFFF 1 = true ∧ (here s).plain = [] ∧
     (∀ l ∈ s.fab.lines, ∀ q c i o, l.use ≠ .store q c i o) ∧ regionAt s (hCtx handle1) (hOrigin handle1 + 0xFFFF) = none) ∧
    (let r := { region1 1 with w1 := 0 }
     let s := qdev handle1 0 .empty [(0, r)]
     regionAt s (hCtx handle1) (hOrigin handle1 + 0) = some (0, r) ∧ Map.find s.mmu.regions 0 = some r ∧ rMode r = 1 ∧ rOwner r = s.core ∧ rTransit r = false ∧
     (sreg (here s) 2).toNat ≠ s.core ∧ (sreg (here s) 2).toNat < 1280 ∧ TrapReady (here s) 5) ∧
    (let r := region1 4
     let s := qdev handle1 0 .empty [(0, r)]
     regionAt s (hCtx handle1) (hOrigin handle1 + 0) = some (0, r) ∧ rMode r = 4 ∧ TrapReady (here s) 5) ∧
    (let s : State := { dev { core2 handle1 0 with s := Vector.ofFn fun i => if i.val = 2 then 1280 else 0 } (wordOf .nop .q) with
       mmu := { State.reset.mmu with regions := [(0, region1 1)] } }
     ¬((sreg (here s) 2).toNat < 1280 ∨ (sreg (here s) 2).toNat = 16384 ∨ (32768 ≤ (sreg (here s) 2).toNat ∧ (sreg (here s) 2).toNat < 32784)) ∧ TrapReady (here s) 5) :=
  ⟨fun m => held1 m _ rfl, by decide +kernel,
   ⟨handle_of rfl rfl rfl rfl, by decide +kernel, by decide +kernel, by decide +kernel, rfl, (fun l h => by cases h), by decide +kernel⟩,
   (by refine ⟨?_, ?_, ?_, ?_, ?_, ?_, ?_, ready_of _ _ rfl rfl rfl (by decide)⟩ <;> decide +kernel),
   ⟨by decide +kernel, by decide +kernel, ready_of _ _ rfl rfl rfl (by decide)⟩, ⟨by decide +kernel, ready_of _ _ rfl rfl rfl (by decide)⟩⟩

theorem ok_of {ε α : Type} {x : Except ε α} {a : α} (h : x.toOption = some a) : x = .ok a := by
  cases x with | error => cases h | ok b => cases h; rfl

/-- A queue whose header stands at 0x3000 and whose ring at 0x4000 (R140). -/
def queue1 : Queue :=
  { st := .active, logn := 6, ringva := 0x4000, hdrva := 0x3000, logstg := 6, stgva := 0x8000, msetva := 0, trapvec := 0x2000, errva := 0x5000
    savepa := 0, nslot := 1, ageus := 0, weight := 1, dmode := 0, prio := 0, ctx := 1, ridx := 0, next := 0, first := 0, packets := [], errn := 0
    credit := 0, aged := 0, held := [], feeder := none, feeders := [], tickets := [], jam := false, slots := [], dying := none }
/-- A packet image in the scratchpad at 64, a barrier at 128 with overflow set, at 144 one in phase 15. -/
def qmem : OnChip := { OnChip.empty with spad := ((Memory.empty.setBytes 64 [1]).setBytes 128 (leBytes 16 (2 ^ 72))).setBytes 144 (leBytes 16 15) }
def qcore (dmode : Nat) : Core := { core1 [(1, 64), (2, 128), (3, 144), (4, 2 ^ 20 - 1), (5, 2 ^ 31 - 1), (6, 15), (7, 2 ^ 20), (8, 2 ^ 31), (9, 16), (10, 2 ^ 16),
  (11, 2 ^ 16 + 1), (12, 1), (13, 17)] with mem := qmem, task := some { task1 with dmode } }
def push1 (dmode : Nat) : State := { mapped 0x3000 (leBytes 8 7) (qcore dmode) (wordOf .nop .q) with queues := [(1, queue1)] }

theorem witness_QueueEngineWords :
    (let s := push1 0
     let at' := fun r => (sreg (here s) r).toNat
     s.word = some (wordOf .nop .q) ∧ NoSpadFlight (here s) (wordOf .nop .q) ∧ (here s).mem.spad.wf = true ∧ at' 2 % 16 = 0 ∧ at' 13 % 16 ≠ 0 ∧ s.core < 2 ^ 16 ∧
     at' 4 < 2 ^ 20 ∧ at' 5 < 2 ^ 31 ∧ at' 6 < 16 ∧ 2 ^ 20 ≤ at' 7 ∧ 2 ^ 31 ≤ at' 8 ∧ 16 ≤ at' 9 ∧ at' 10 ≤ 2 ^ 16 ∧ 2 ^ 16 < at' 11 ∧
     (specBarrier (numberAt (here s).mem.spad 128 16)).ovf = true ∧ (specBarrier (numberAt (here s).mem.spad 144 16)).ovf = false ∧
     (specBarrier (numberAt (here s).mem.spad 144 16)).phase = at' 6 ∧ (here s).mem.spad.pois.contains (128 / 32) = false ∧ (here s).evq = [] ∧
     at' 1 % 64 = 0 ∧ numberAt (here s).mem.spad 64 1 % 16 ≠ 0 ∧ getQueue s (at' 12) = some queue1 ∧ (here s).task = some { task1 with dmode := 0 } ∧
     queue1.ctx = task1.ctx ∧ (here s).push < 2 ^ 16 ∧ queue1.held.length < 2 ^ queue1.logstg) ∧ TrapReady (here (push1 0)) 5 ∧
    (∃ s r, (here s).evq = [r] ∧ s.word = some (wordOf .nop .q) ∧ NoSpadFlight (here s) (wordOf .nop .q) ∧ (here s).mem.spad.wf = true) ∧
    (let s := qdev handle1 0 .empty [(0, region1 3)]
     HandleIs s (wordOf .nop .q) 1 handle1 ∧ StrongAccess s handle1 true 0x20000 8 cell1 ∧ regionAt s (hCtx handle1) 0x20000 = some (0, region1 3) ∧
     rMode (region1 3) = 3 ∧ (∀ m, releaseHeld s m = false)) ∧
    (∃ u, claimIndex (push1 2) queue1 1 = (u, .ok (some 7)) ∧ u.word = some (wordOf .nop .q) ∧ u.core = (push1 2).core) :=
  ⟨(by refine ⟨rfl, quiet_of rfl rfl, ?_, ?_, ?_, ?_, ?_, ?_, ?_, ?_, ?_, ?_, ?_, ?_, ?_, ?_, ?_, ?_, rfl, ?_, ?_, ?_, rfl, rfl, ?_, ?_⟩ <;> decide +kernel), ready_of _ _ rfl rfl rfl (by decide),
   ⟨dev { core1 [] with evq := [⟨1, 2, 3, 4⟩] } (wordOf .nop .q), _, rfl, rfl, quiet_of rfl rfl, rfl⟩,
   ⟨handle_of rfl rfl rfl rfl, (by refine ⟨?_, ?_, ?_, ?_, ?_, ?_, ?_, ?_, fun _ => by decide +kernel⟩ <;> decide +kernel), by decide +kernel, by decide +kernel, fun m => held1 m _ rfl⟩,
   ⟨(claimIndex (push1 2) queue1 1).1, Prod.ext rfl (ok_of (by decide +kernel)), by decide +kernel, by decide +kernel⟩⟩


theorem any_of {α : Type} {x : Option α} {p : α → Prop} [DecidablePred p] (h : x.any (fun a => decide (p a)) = true) : ∃ a, x = some a ∧ p a := by
  cases x with | none => cases h | some a => exact ⟨a, rfl, of_decide_eq_true h⟩

/-- A descriptor of a vector of `n` elements in the scratchpad (R346): strides of one element. -/
def layRec (base n fmt : Nat) : List PByte :=
  clean (leBytes 64 (base + (9 + 256 * fmt) * 2 ^ 64 + n * 2 ^ 128 + 2 ^ 160 + 2 ^ 192 + 2 ^ 224 + 2 ^ 256 + 2 ^ 288 + 2 ^ 320))

/-- Registers for the C words: legal operands at the ends of their ranges, then a misaligned one and one beyond the scratchpad. -/
def ccore : Core := { core1 [(1, 0x3FFFC0), (2, 64), (4, 0x400000), (5, 1279), (6, 63), (7, 0x80000000000004FF), (8, 0), (9, 63), (10, 0x400000)] with
  mem := { OnChip.empty with spad := Memory.empty.setBytes 64 ((layRec 0 1 6).map (·.1)) } }
def cdev (k : Core) (i : Instr) : State := dev k (wordOf i .c)

theorem notSame (k : Core) (i : Instr) (c : Nat) (hc : c ≠ 0) : ¬SameContext (cdev k i) c := by
  rintro ⟨t, u, _, h, _⟩
  have : getCore (cdev k i) c = Core.reset := by unfold getCore cdev dev Map.get; simp only [Map.find]; rw [if_neg hc]; rfl
  rw [this] at h; cases h

theorem all_lt {l : List W64} {n : Nat} : l.all (fun v => v.toNat < n) = true ↔ ∀ v ∈ l, v.toNat < n := by simp

theorem witness_CommandAcceptance :
    (∀ i ∈ [Instr.cpy 1 2 2 0, .gath 1 2 0 1, .scat 1 2 2 2, .cmpct 1 2 2 3, .carry 1 2 2 4, .cpyh 1 2 4 5, .csum 1 6, .send 5 1 2 7, .bcast 6 1 2 8, .ratm 7 2 9, .nmq 1 0 63,
       .nmr 1 1 0, .coll 1 2 3, .merge 1 2 2 3 63 255, .sqld 2 0], ∃ C, commandWord (cdev ccore i) (i == .ratm 8 2 9) i = some C ∧
       (∀ p ∈ C.aligns, p.1 % p.2 = 0) ∧ C.legal = true ∧ (∀ v ∈ C.offs, v.toNat < 2 ^ 22)) ∧
    (∀ i, (cdev ccore i).word = some (wordOf i .c) ∧ NoCaptureFlight (here (cdev ccore i)) (wordOf i .c) ∧ (here (cdev ccore i)).iss.hpend = [] ∧ ¬SameContext (cdev ccore i) 1279 ∧
      SameContext (cdev ccore i) 0 ∧ (here (cdev ccore i)).transit = none ∧ (here (cdev ccore i)).cmds.length + (here (cdev ccore i)).evq.length < 64 ∧
      (wordOf i .c).origin ≠ .emitted ∧ TrapReady (here (cdev ccore i)) 5) ∧ ccore.mem.spad.wf = true ∧
    (∃ C, commandWord (cdev ccore (.csum 9 0)) false (.csum 9 0) = some C ∧ C.aligns.find? (fun p => p.1 % p.2 ≠ 0) = some (63, 64)) ∧
    (∃ C, commandWord (cdev ccore (.csum 10 0)) false (.csum 10 0) = some C ∧ (∀ p ∈ C.aligns, p.1 % p.2 = 0) ∧ ¬∀ v ∈ C.offs, v.toNat < 2 ^ 22) ∧
    (∃ k : Core, k.s = ccore.s ∧ ¬(k.cmds.length + k.evq.length < 64 ∧ k.transit = none)) ∧ profileOf 2 63 = some 2 ∧ profileOf 0 63 = some 0 ∧ profileOf 2 9 = none ∧
    (let k := { ccore with mem := { OnChip.empty with spad := Memory.empty.setBytes 64 (leBytes 64 (8 * 2 ^ 256)) } }
     ∃ C, commandWord (cdev k (.coll 2 2 63)) false (.coll 2 2 63) = some C ∧ C.bar = some 256 ∧ (∀ p ∈ C.aligns, p.1 % p.2 = 0) ∧
       fieldOf (leVal (recordAt k 64 64)) 256 22 = 8 ∧ anyPois (recordAt k 64 64) = false) ∧
    sqldCount (recordAt ccore 64 64) = 1 ∧ (∃ k : Core, 1024 < (k.mem.scaleq.map (·.left)).sum + 1 ∧ ∃ q ∈ vget k.iss.queues 2 [], q.seq < 5) := by
  refine ⟨?_, fun i => ⟨rfl, caught_of rfl rfl, rfl, notSame _ _ _ (by decide), ⟨task1, task1, rfl, rfl, rfl⟩, rfl, by show 0 < 64; decide, by simp [wordOf],
    ready_of _ _ rfl rfl rfl (show (0x2000 : W64) ≠ 0 by decide)⟩, by decide +kernel, any_of (by decide +kernel),
    by simp only [← all_lt]; exact any_of (by decide +kernel),
    ⟨{ ccore with transit := some (0, 1) }, rfl, by simp⟩, rfl, rfl, by decide, any_of (by decide +kernel), by decide +kernel,
    ⟨{ ccore with mem := { ccore.mem with scaleq := [{ head := 1, left := 1024, got := [] }] },
                  iss := { Issue.reset with queues := vset (Vector.replicate 7 []) 2 [{ wordOf .nop .v with seq := 4 }] } }, by decide, _, List.mem_singleton.2 rfl, by decide⟩⟩
  intro i hi; simp only [List.mem_cons, List.not_mem_nil, or_false] at hi
  rcases hi with rfl | rfl | rfl | rfl | rfl | rfl | rfl | rfl | rfl | rfl | rfl | rfl | rfl | rfl | rfl <;> (simp only [← all_lt]; exact any_of (by decide +kernel))

/-- A command in flight on core 0, with the records it captured. -/
def cmdOf (i : Instr) (recs : List (List PByte)) : Cmd :=
  { uid := 3, instr := i, num := 1, np := 2, tag := 7, a := 0, b := 0, c := 0, job := { Job.empty with recs } }
def running (m : Cmd) : State := { mapped 0x6000 (leBytes 32 (2 ^ 176)) { core1 [] with cmds := [(3, m)] } (wordOf .nop .c) with
  ranges := [{ va := 0x6000, len := 32, ctx := 1 }] }

theorem witness_CommandCompletion :
    (∀ m, Map.find (getCore (running m) 0).cmds 3 = some m ∧ (running m).mmu.defer = [] ∧ NoSpadFlight (getCore (running m) 0) (cmdWord m) ∧
      (getCore (running m) 0).mem.spad.wf = true ∧ (getCore (running m) 0).mem.spad.pois = []) ∧
    (∀ i ∈ [Instr.cpy 1 2 0 0, .gath 1 2 0 0, .scat 1 2 0 0, .cmpct 1 2 0 0, .cpyh 1 2 4 0, .csum 1 0, .merge 1 2 0 0 63 255],
      ∃ x, workOf (running (cmdOf i [])) 0 (cmdOf i []) = some x ∧ x.1.miss = [] ∧ x.1.prom = [] ∧ x.1.s.mmu.defer = []) ∧
    parseLay (layRec (2 ^ 22 - 8) 8 12) false = .ok (byteLay (2 ^ 22 - 8) 8) ∧ parseLay (layRec (2 ^ 22 - 16) 8 12) false = .ok (byteLay (2 ^ 22 - 16) 8) ∧
    2 ^ 22 - 16 + 8 ≤ 2 ^ 22 - 8 ∧ (cmdOf (.cpy 1 2 0 0) []).c.toNat % 16 = 0 := by
  refine ⟨fun m => ⟨rfl, rfl, quiet_of rfl rfl, rfl, rfl⟩, ?_, ok_of (by decide +kernel), ok_of (by decide +kernel), by decide, by decide⟩
  intro i hi; simp only [List.mem_cons, List.not_mem_nil, or_false] at hi
  rcases hi with rfl | rfl | rfl | rfl | rfl | rfl | rfl <;> exact any_of (by decide +kernel)

/-- A query of no leaves whose position-map entry stands at 0x6000 (R361, R375); two bags of no rows, of one column (R363). -/
def query1 : Cmd := cmdOf (.nmq 1 0 63) [clean (leBytes 64 (2 ^ 96 + 0x6000 * 2 ^ 192)), [], clean (leBytes 32 (2 ^ 176))]
def bags1 : Cmd := cmdOf (.nmr 1 0 63) [clean (leBytes 64 (2 ^ 64 + 2 ^ 96 + 2 ^ 160 + 2 * 2 ^ 224 + 4 * 2 ^ 320)), clean (leBytes 12 (2 ^ 64)), clean (leBytes 4 0)]

theorem witness_NearMemoryLandings :
    (∃ l, (parseLay (layRec 0 1024 6) false).toOption = some l ∧ l.spad = true ∧ l.fmt = 6 ∧ l.count = 1024) ∧
    (∀ m, Map.find (getCore (running m) 0).cmds 3 = some m ∧ NoSpadFlight (getCore (running m) 0) (cmdWord m)) ∧
    (let v := (queryReady (running query1) (cmdKey 3) query1.job).1
     (queryReady (running query1) (cmdKey 3) query1.job).2 = some query1.job ∧
     let x := queryJob (Run.start (setCmd v 0 query1)) (cmdKey 3) (agentOf (setCmd v 0 query1) 0 query1) 2 query1.job
     query1.job.res = none ∧ x.1.miss = [] ∧ x.1.prom = [] ∧ (getCore x.1.s 0).iss.pend = [] ∧ x.2.1.status = 1) ∧
    (let x := bagJob (Run.start (running bags1)) (agentOf (running bags1) 0 bags1) 2 bags1.job 0
     bags1.job.res = none ∧ 0 < rNbag (leVal (lget bags1.job.recs 0 [])) ∧ x.2.toOption.isSome = true ∧ x.1.miss = [] ∧ x.1.prom = [] ∧
      (getCore x.1.s 0).iss.pend = []) ∧ rNbag (leVal (lget bags1.job.recs 0 [])) ≤ 2 :=
  ⟨any_of (by decide +kernel), fun m => ⟨rfl, quiet_of rfl rfl⟩, by decide +kernel, by decide +kernel, by decide +kernel⟩


/-- Core 0 runs task 1 and has a command in flight to its own task; device 9 sends from context 1. -/
def mail (j : Job) (i : Instr) : State :=
  { dev { core1 [] with cmds := [(3, { cmdOf i [] with job := j })] } (wordOf .nop .c) with
    mmu := { State.reset.mmu with inwin := [(0, ⟨0xC010000000000000, 0x0009000000000001, 0, 0⟩)] } }
def to0 : Target := { core := 0, qid := 1, packet := 0, ord := 0 }
def sent0 : Job := { Job.empty with targets := [to0], sent := some ⟨1, 0, 2, 2, false, none⟩ }
/-- Two bytes, one of them poisoned, that wrap round the end of the scratchpad. -/
def parcel : Delivery := { off := 2 ^ 22 - 1, data := [(1, false), (2, true)], bar := some 0x3FFFF0, rest := 2, pois := false }

theorem other_core (k : Core) (w : QWord) (c : Nat) (hc : c ≠ 0) : getCore (dev k w) c = Core.reset := by
  unfold getCore dev Map.get; simp only [Map.find]; rw [if_neg hc]; rfl

theorem only0 (j : Job) (i : Instr) : RunsTarget (mail j i) to0 0 := by
  intro d; by_cases h : d = 0
  · subst h; exact ⟨fun _ => rfl, fun _ => ⟨task1, rfl, rfl, rfl, rfl⟩⟩
  · refine ⟨fun ⟨t, ht, _⟩ => ?_, fun e => absurd e h⟩
    have : getCore (mail j i) d = Core.reset := other_core { core1 [] with cmds := [(3, { cmdOf i [] with job := j })] } (wordOf .nop .c) d h
    rw [this] at ht; cases ht

theorem witness_Deliveries :
    let s := mail sent0 .nop
    Map.rising s.cores = true ∧ NoSpadPend (getCore s 0) ∧ (getCore s 0).mem.spad.wf = true ∧ Sound parcel ∧ (getCore s 0).task = some task1 ∧
    (getCore s 1).task = none ∧ NoSpadPend (getCore s 1) ∧ (getCore s 1).mem.spad.wf = true ∧ task1.ctx ≠ 255 ∧
    (∀ op : BitVec 4, op.toNat ≤ 8 → ∀ wide : Bool, ∃ off, off % (if op.toNat = 7 ∨ op.toNat = 8 then 16 else if wide then 8 else 4) = 0 ∧
      off + (if op.toNat = 7 ∨ op.toNat = 8 then 16 else if wide then 8 else 4) = 4194304 ∧ (getCore s 0).mem.spad.pois.contains (off / 32) = false) ∧
    (∃ j, Map.find (getCore s 0).cmds 3 = some j ∧ j.uid = 3 ∧ j.job.targets = [to0] ∧ j.job.sent.isSome = true) ∧ RunsTarget s to0 0 ∧
    senderCtx s 9 = some task1.ctx ∧ senderCtx s 8 ≠ some task1.ctx :=
  ⟨rfl, nopend_of rfl, rfl, ⟨by decide, fun b h => by cases h; decide⟩, rfl, rfl, nopend_of rfl, rfl, by decide,
    fun op _ wide => ⟨4194304 - (if op.toNat = 7 ∨ op.toNat = 8 then 16 else if wide then 8 else 4), by split; decide; split <;> decide,
      by split; decide; split <;> decide, rfl⟩, ⟨_, rfl, rfl, rfl, rfl⟩, only0 _ _, by decide +kernel, by decide +kernel⟩

/-- A gather of two bytes by its one participant, into the last two bytes of its own scratchpad. -/
def arr1 (owner : Option (Nat × Nat)) (me : Nat) : Arrival :=
  { gid := 4, np := 1, me, op := 0, cvt := false, part := false, logl := 0, k := 0, prof := 0, count := 2, head := none, fmt := 12
    src := [⟨255, false⟩, ⟨0, false⟩], fail := none, tab := [(0, 0)], dev := 0, core := 0, owner }
def joined1 : State := { mail { Job.empty with recs := [[], [], layRec (2 ^ 22 - 2) 2 12], targets := [to0] } (.coll 1 2 3) with
  joined := [(4, { arr := [arr1 (some (3, 4096)) 0], late := [] })] }

theorem witness_Collectives :
    (arr1 (some (3, 4096)) 0).owner.isSome = true ∧ (∀ b ∈ [arr1 none 0], b.me = 0) ∧ (∀ b ∈ [arr1 none 1], b.me ≠ 0) ∧
    (let s := joined1; let a := arr1 (some (3, 4096)) 0
     Map.rising s.cores = true ∧ Map.find s.joined a.gid = some { arr := [a], late := [] } ∧ a.np = 1 ∧ a.me = 0 ∧ a.op = 0 ∧ a.fmt = 12 ∧ a.fail = none ∧
      a.tab = [(a.dev, a.core)] ∧ a.owner = some (3, 4096) ∧ (∀ e ∈ a.src, e.bits < 256 ∧ e.pois = false) ∧ a.src.length = 2 ∧
      (∀ c, c ≠ 0 → Map.find (getCore s c).cmds 3 = none) ∧ (∃ m, Map.find (getCore s 0).cmds 3 = some m ∧ m.uid = 3 ∧ m.instr = .coll 1 2 3 ∧
        parseLay (lget m.job.recs 2 []) false = .ok (byteLay (2 ^ 22 - 2) 2) ∧ (leVal (lget m.job.recs 0 [])).testBit 287 = false) ∧
      (getCore s 0).task = some task1 ∧ RunsTarget s { core := 0, qid := task1.qid, packet := task1.packet, ord := task1.ord } 0 ∧
      NoSpadPend (getCore s 0) ∧ (getCore s 0).mem.spad.wf = true) :=
  ⟨rfl, by decide, by decide, rfl, rfl, rfl, rfl, rfl, rfl, rfl, rfl, rfl, by decide, rfl,
    fun c hc => by
      have : getCore joined1 c = Core.reset := other_core _ (wordOf .nop .c) c hc
      rw [this]; rfl,
    ⟨_, rfl, rfl, rfl, ok_of (by decide +kernel), by decide +kernel⟩, rfl, only0 _ _, nopend_of rfl, rfl⟩

/-- A dirty line of the plain-access buffer, the last of its page; a sleeper on the last doubleword of the scratchpad; a push that has claimed index 63. -/
def lined : State := { dev { core1 [] with plain := [(0xBFF, { data := List.replicate 64 (7, false), dirty := 1, handle := handle1, qid := 1 })] } (wordOf .nop .s) with
  old := [(64, 1)] }
def dozing : QWord := { wordOf (.waitvSp 2 1 0 0) .q with asleep := true }
def dozed : State := dev { core1 [(1, 2 ^ 22 - 8)] with iss := { Issue.reset with queues := vset (Vector.replicate 7 []) 6 [dozing] } } (wordOf .nop .q)
def claimed : State := let s := push1 0
  { s with cores := [(0, { here s with claim := some { w := wordOf .nop .q, q := 1, k := 63, image := List.replicate 64 1, d := 3 } })] }

theorem witness_BackgroundLandings :
    (∃ l cell, Map.find (getCore lined 0).plain 0xBFF = some l ∧ hRes l.handle = 0 ∧ cellOf (hPhys l.handle (0xBFF * 64)) = some cell ∧ cell % 64 = 0 ∧
      attrAt lined cell = hFormat l.handle ∧ l.data.length = 64 ∧ (∀ b ∈ l.data, b.2 = false) ∧ lined.dram.wf = true ∧ hBase l.handle ≤ 0xBFF * 64) ∧
    (let k := getCore dozed 0; let w := dozing
     let u : State := { takeHead dozed 0 .q with word := some { w with asleep := false } }
     vget k.iss.queues 6 [] = [w] ∧ w.eng = .q ∧ w.asleep = true ∧ w.instr = .waitvSp 2 1 0 0 ∧ NoSpadFlight k w ∧ k.mem.spad.wf = true ∧
      (sreg k 1).toNat % 4194304 = 4194304 - 8 ∧ k.mem.spad.pois = [] ∧ releaseHeld u (releaseOf k 0 0 false) = false) ∧
    (∃ cl q, (getCore claimed 0).claim = some cl ∧ getQueue claimed cl.q = some q ∧ (roomFor claimed q cl.q cl.k).2.toOption = some true ∧
      releaseHeld (roomFor claimed q cl.q cl.k).1 (pushMask (some cl.w)) = false ∧
      (match publish (releaseNear (roomFor claimed q cl.q cl.k).1 (pushMask (some cl.w))) 0 q cl.q cl.k (clean cl.image) (pushMask (some cl.w)) with
        | (_, .done) => true | _ => false) = true) :=
  ⟨⟨_, cell1 + 0xFFC0, rfl, by decide +kernel, by decide +kernel, by decide +kernel, by decide +kernel, rfl, by decide +kernel, rfl, by decide +kernel⟩,
   ⟨by decide +kernel, rfl, rfl, rfl, quiet_of rfl rfl, rfl, by decide +kernel, rfl, held1 _ _ rfl⟩,
   ⟨_, queue1, rfl, rfl, by decide +kernel, by decide +kernel, by decide +kernel⟩⟩

/-- A core whose Wick runs at a micro address, in a loop of words 4 to 8, with the control store and micro registers. -/
def wcore (wpc : BitVec 11) (stack : List (Nat × Nat × W32)) : Core :=
  { core1 [] with wick := { Wick.reset with run := true, wpc, stack, w := vset (vset (Vector.replicate 16 0) 1 64) 2 2, pboff := 0x3FFFFC
                                            word := some (wordOf (.wstart 0 0) .s) } }
def wdev (wpc : BitVec 11) (stack : List (Nat × Nat × W32)) : State := dev (wcore wpc stack) (wordOf .nop .s)

theorem witness_WickOperations :
    (∀ (wpc : BitVec 11) stack, let k := here (wdev wpc stack)
      k.wick.wpc = wpc ∧ k.wick.stack = stack ∧ k.wick.word = some (wordOf (.wstart 0 0) .s) ∧ k.iss.trap = none ∧ (∀ e, vget k.iss.queues e [] = []) ∧
      k.handler = false ∧ k.sys.trapvec ≠ 0 ∧ MicroCond k.wick 1 ∧ ¬MicroCond k.wick 0 ∧ microReg k.wick 1 = 64 ∧ microReg k.wick 0 = 0) ∧
    (∀ i ∈ [Instr.addw 3 1 2, .addwImm 0 1 5, .subw 3 0 1, .subwImm 3 1 7, .andw 3 1 2, .andwImm 3 1 9],
      (microValue (wcore 0 []).wick i).isSome = true) ∧ (2046 : BitVec 11).toNat < 2047 ∧ (2047 : BitVec 11).toNat = 2047 := by
  refine ⟨fun wpc stack => ⟨rfl, rfl, rfl, rfl, fun e => ?_, rfl, (show (0x2000 : W64) ≠ 0 by decide), by simp [MicroCond, wdev, dev, here, getCore, Map.get, Map.find, wcore, State.reset, Wick.reset],
    by simp [MicroCond, wdev, dev, here, getCore, Map.get, Map.find, wcore, State.reset, Wick.reset], rfl, rfl⟩, by decide, by decide, by decide⟩
  show vget (Vector.replicate 7 []) e [] = []
  unfold vget; rw [Vector.getElem?_replicate]; split <;> rfl

/-- A word vst at control store word 5, vnot at 6, the last head of each engine produced or not. -/
def emits (wpc : BitVec 11) (openTok : List (Eng × Nat)) : State :=
  { dev { wcore wpc [] with iss := { Issue.reset with win := vset (Vector.replicate 7 []) 2 [(1, 1)], slots := vset (Vector.replicate 7 0) 2 1
                                                      heads := vset (Vector.replicate 7 0) 2 1, openTok } } (wordOf .nop .s) with
    wcs := [(5, 0x50840000), (6, 0x47840000)] }

theorem witness_WickEffects :
    (∀ wpc o, let s := emits wpc o
      NoSpadPend (here s) ∧ (here s).mem.spad.wf = true ∧ (here s).mem.spad.pois = [] ∧ refHead (here s).iss (3, 1) = none ∧
      refHead (here s).iss (2, 1) = some (.v, 1) ∧ vget (here s).sys.skip 2 [] = [] ∧ ((here s).wick.word.isSome = true)) ∧
    ((emits 4 []).core = 0 ∧ produced (here (emits 4 [])).iss .v 1 = true ∧ produced (here (emits 4 [(.v, 1)])).iss .v 1 = false) ∧
    (∃ p : Core, NoSpadPend p ∧ p.mem.spad.wf = true ∧ p.mem.spad.pois.contains (64 / 32) = true) ∧
    (∃ g, Emittable [0x50840000] .v g ∧ [(Map.get 0 (emits 4 []).wcs 5).toNat] = [0x50840000]) ∧
    (∃ ws g, patchWords 100 [0x50840000] = some ws ∧ Emittable ws .v g) ∧ patchWords 100 [(Map.get 0 (emits 5 []).wcs 6).toNat] = none ∧
    (4194300 + 4 * 1) % 4194304 % 4 = 0 ∧ (64 + 4 * 0x3FFF) % 4 = 0 ∧ (2 + 4 * 1) % 4 ≠ 0 ∧ 2045 + 0 + 2 < 2048 ∧ 2046 + 0 + 1 < 2048 ∧ 2048 ≤ 2047 + 0 + 1 :=
  ⟨fun wpc o => ⟨nopend_of rfl, rfl, rfl, rfl, rfl, rfl, rfl⟩, ⟨rfl, rfl, rfl⟩,
    ⟨{ core1 [] with mem := { OnChip.empty with spad := ⟨[], [2]⟩ } }, nopend_of rfl, rfl, rfl⟩,
    ⟨_, ⟨rfl, rfl, rfl, by decide, fun a b h => by cases h⟩, rfl⟩, ⟨_, _, rfl, ⟨rfl, rfl, rfl, by decide, fun a b h => by cases h⟩⟩, rfl,
    by decide, by decide, by decide, by decide, by decide, by decide⟩

/-- A device whose core 0 has handle1 and a command in flight, with a revoked pin of it, and one without a claim. -/
def pin1 (id : Nat) (base : Nat) (owner : Nat × Nat) (revoked : Bool) : Pin :=
  { id, ctx := 1, base, size := 0, write := false, handle := handle1, cause := none, owner, revoked }
def wire1 (use : LineUse) (data : Option (List PByte)) : FLine :=
  { id := 5, dev := 9, host := false, va := 0x20000, len := 64, data, op := 2, use, src := 0x20000 }
def shot1 (r : ShootReq) (pins : List Pin) (lines : List FLine) : State := let s := mail sent0 (.cpy 1 2 0 0)
  { s with mmu := { s.mmu with pins, shoots := [{ id := 4, req := r }] }, fab := { s.fab with lines } }
def req1 (src : Requester) (units : Nat) : ShootReq := { src, ctx := 1, vpn := 2, units }

theorem witness_Shootdowns :
    (∀ src units pins lines, Map.rising (shot1 (req1 src units) pins lines).cores = true ∧ (shot1 (req1 src units) pins lines).mmu.shoots = [{ id := 4, req := req1 src units }] ∧
      (shot1 (req1 src units) pins lines).mmu.pins = pins ∧ (shot1 (req1 src units) pins lines).fab.lines = lines ∧
      (shot1 (req1 src units) pins lines).mmu.defer = [] ∧ ([{ id := 4, req := req1 src units }] : List Shoot).length < 16) ∧
    ((255 < 256) ∧ 68719476735 < 2 ^ 36 ∧ 33554431 < 2 ^ 25) ∧ (List.replicate 16 ({ id := 4, req := req1 (.core 0) 1 } : Shoot)).length = 16 ∧
    (∀ tag, (req1 (.core 0) 1).src ≠ .host tag) ∧
    ((pin1 7 0x20000 (3, 4096) true).revoked = true ∧ Covers (pin1 7 0x20000 (3, 4096) true) 1 0x20000 0x10000) ∧
    (wire1 (.store 1 0 0 0) (some [])).data.isSome = true ∧ Meet (wire1 (.store 1 0 0 0) (some [])).src 64 0x20000 0x10000 ∧ ¬Meet 0x30000 65536 0x20000 0x10000 ∧
    localOf (shot1 (req1 (.core 0) 1) [] []) (9, 4096) = none ∧ (∃ l, localOf (shot1 (req1 (.core 0) 1) [] []) (3, 4096) = some l) ∧
    movingAt (shot1 (req1 (.core 0) 1) [] []) 1 0x20000 = false ∧ 0x20000 % 65536 = 0 :=
  ⟨fun _ _ _ _ => ⟨rfl, rfl, rfl, rfl, rfl, (show 1 < 16 by decide)⟩, ⟨by decide, by decide, by decide⟩, rfl, nofun, ⟨rfl, rfl, .inl (by unfold Meet; decide +kernel)⟩, rfl, by unfold Meet; decide +kernel,
    by unfold Meet; decide +kernel, rfl, ⟨_, rfl⟩, rfl, rfl⟩

theorem witness_ForwardedLines :
    (∀ use data, wire1 use data ∈ (shot1 (req1 (.core 0) 1) [] [wire1 use data]).fab.lines ∧
      (∀ g ∈ (shot1 (req1 (.core 0) 1) [] [wire1 use data]).fab.lines, g.id = (wire1 use data).id → g = wire1 use data) ∧
      runningCmd (shot1 (req1 (.core 0) 1) [] [wire1 use data]) 3 = some (0, { cmdOf (.cpy 1 2 0 0) [] with job := sent0 })) ∧
    (∀ c k, (wire1 (.load c k) none).use = .load c k ∧ (wire1 (.load c k) none).data = none ∧ (wire1 (.strong c k) none).op = 2) :=
  ⟨fun _ _ => ⟨List.mem_singleton.2 rfl, fun _ h _ => List.mem_singleton.1 h, rfl⟩, fun _ _ => ⟨rfl, rfl, rfl⟩⟩

/-- The control word of context 1: SWEEPEN and HEATEN. -/
def sweeps (w : Nat) : State := let s := mapped 0 [] (core1 []) (wordOf .nop .s)
  { s with dram := s.dram.setBytes 72 (leBytes 8 w) }

theorem witness_SweepAndTables :
    (sweepOn (sweeps 65536) 1 = true ∧ ctxValid (sweeps 65536) 1 = true ∧ (sweeps 65536).mmu.cen = false ∧ (sweeps 65536).mmu.xen = false ∧ (sweeps 65536).dram.wf = true ∧
      (sweeps 65536).dram.pois = [] ∧ ∃ leaf size addr, leafSpot (sweeps 65536) 1 0x20000 = some (addr, leaf, size) ∧ addr < 1099511627776 ∧ addr % 8 = 0) ∧
    (sweepOn (sweeps 131072) 1 = false ∧ heatOn (sweeps 131072) 1 = true) ∧ (sweepOn (sweeps 0) 1 = false ∧ heatOn (sweeps 0) 1 = false ∧ ctxValid (sweeps 0) 1 = true) ∧
    ctxValid (sweeps 0) 2 = false ∧ leafSpot (sweeps 0) 2 0 = none ∧
    (1023 < 1024 ∧ tableLegal (sweeps 0) true 1023 (List.replicate 8 0) = true ∧ Map.rising (sweeps 0).mmu.rwin = true ∧
      tableLegal (sweeps 0) false 255 (List.replicate 8 0) = true ∧ (sweeps 0).mmu.ctxBase % 64 = 0 ∧ (sweeps 0).mmu.ctxBase + 64 * 255 + 64 ≤ 1099511627776) ∧
    tableLegal (sweeps 0) true 0 [0x0010000000000000] = false := by
  refine ⟨⟨by decide +kernel, by decide +kernel, rfl, rfl, by decide +kernel, rfl, ?_⟩, ⟨by decide +kernel, by decide +kernel⟩, ⟨by decide +kernel, by decide +kernel, by decide +kernel⟩,
    by decide +kernel, by decide +kernel, ⟨by decide, by decide +kernel, rfl, by decide +kernel, rfl, by decide⟩, by decide +kernel⟩
  obtain ⟨x, e, h⟩ := any_of (x := leafSpot (sweeps 65536) 1 0x20000) (p := fun x => x.1 < 1099511627776 ∧ x.1 % 8 = 0) (by decide +kernel)
  exact ⟨x.2.1, x.2.2, x.1, e, h⟩

/-- A request at the last bytes of a 4 KiB piece, in the interleaved half. -/
def mreq (write : Option (List PByte)) (gran : BitVec 2) : MemReq := { id := 4, addr := 1099511627776 + 65536 + 4088, len := 8, write, gran, tol := false, tcls := 0 }
def freq : FormatReq := { core := 0, pa := 0x20000, units := 2, gran := 1, tol := true, tcls := 2 }

/-- A frame 0 of a format, whose unit at 256 a request of 32 bytes has read. -/
def unitDev (f : Attr) : State :=
  { State.reset with attrs := [(0, f)], reads := [{ req := { mreq none 3 with addr := 256, len := 32 }, data := List.replicate 32 (0, false), units := [256] }] }

theorem witness_MemoryController :
    (let s := dev (core1 []) (wordOf .nop .s)
     s.dram.wf = true ∧ Map.rising s.attrs = true ∧ s.mmu.frtBase.toNat % 2 = 0 ∧
      cellOf (mreq none 3).addr = some 8184 ∧ (mreq none 3).addr % 4096 + 8 = 4096 ∧ (∀ bs, (mreq (some bs) 3).write = some bs) ∧ (mreq none 3).write = none ∧
      (List.replicate 8 ((7, false) : PByte)).length = 8 ∧ attrAt s 8184 = { gran := 3, tol := false, tcls := 0 } ∧ attrAt s 8184 ≠ { gran := 0, tol := false, tcls := 0 }) ∧
    (let s := unitDev (⟨3, false, 0⟩ : Attr)
     (∃ q, s.reads = [q] ∧ ReadsUnit s q 256 256) ∧ FullUnit s 256 ∧ 2175 < 8 * unitBytes s 256 + unitBytes s 256 / 2 ∧
     Detected s { unit := 256, flips := [], other := some 768 } 1) ∧
    (let s := unitDev (⟨0, false, 0⟩ : Attr); FullUnit s 256 ∧ Detected s { unit := 256, flips := [0, 271], other := none } 2) ∧
    (let s := unitDev (⟨3, true, 0⟩ : Attr); (attrAt s 256).tol = true ∧ (attrAt s 256).tcls = 0 ∧ s.dram.pois.contains (256 / 32) = false ∧
     2038 < 8 * unitBytes s 256 ∧ 2038 % 16 = 6) ∧ (2199023255552 ≤ ({ mreq none 3 with addr := 2199023255552 } : MemReq).addr) ∧
    (1099511627775 < 1099511627776) ∧ (∃ s : State, s.mmu.formats = [(1, freq, [])]) :=
  ⟨⟨rfl, rfl, rfl, by decide +kernel, by decide +kernel, fun _ => rfl, rfl, rfl, by decide +kernel, by decide +kernel⟩,
    ⟨⟨_, rfl, rfl, by decide +kernel, by decide, by decide +kernel, rfl⟩, by unfold FullUnit; decide +kernel, by decide +kernel,
      .inr ⟨rfl, 768, rfl, by decide +kernel⟩⟩,
    ⟨by unfold FullUnit; decide +kernel, .inl ⟨rfl, by decide +kernel, rfl, 0, 271, rfl, by decide⟩⟩, by decide +kernel, by decide, by decide,
    ⟨{ State.reset with mmu := { State.reset.mmu with formats := [(1, freq, [])] } }, rfl⟩⟩

/-- A boot image of no body; whether its signature and digest pass is left to the functions of log 9. -/
def image : List Byte := leBytes 4 1263420744 ++ List.replicate 508 0

theorem witness_ResetAndPower :
    (∀ b : Bool, ∃ s : State, s.mgmt.powered = b) ∧ (∀ b : Bool, ∃ s : State, s.mgmt.wiping = b) ∧
    (∃ s : State, s.mgmt.ready = false ∧ s.mgmt.wiping = false ∧ fwOk s.mgmt.flash s.mgmt.rollback = false) ∧ (∀ n, fwOk [] n = false) ∧
    ((∀ d g, Config.ecdsaVerifies Config.firmwareKeyHash d g = true) → Config.sha512 [] = List.replicate 64 0 → fwOk image 0 = true) := by
  refine ⟨fun b => ⟨{ State.reset with mgmt := { State.reset.mgmt with powered := b } }, rfl⟩, fun b => ⟨{ State.reset with mgmt := { State.reset.mgmt with wiping := b } }, rfl⟩,
    ⟨{ State.reset with mgmt := { State.reset.mgmt with ready := false, wiping := false, flash := [] } }, rfl, rfl, rfl⟩, fun _ => rfl, fun hv hs => ?_⟩
  have hb : fwBody image = [] := by decide +kernel
  have h1 : (512 ≤ image.length && fwNat image 0 == 1263420744 && fwNat image 12 == 0 && (image.drop 212).take 300 == List.replicate 300 0) = true := by decide +kernel
  have h2 : ((image.drop 16).take 64 == List.replicate 64 0 && fwNat image 8 ≤ 64) = true := by decide +kernel
  have h3 : fwNat image 8 = 0 := by decide +kernel
  unfold fwOk; rw [hv, hb, hs]
  simp only [Bool.and_eq_true] at h1 h2 ⊢
  have h4 : fwNat image 12 = 0 := by simpa using h1.1.2
  exact ⟨⟨⟨⟨⟨⟨⟨h1.1.1, by rw [h4]; rfl⟩, by rw [h4]; rfl⟩, h1.2⟩, trivial⟩, h2.1⟩, h2.2⟩, by rw [h3]; rfl⟩

theorem witness_Regions :
    (∀ idx, bindersOf (dev (core1 []) (wordOf .nop .q)) idx = []) ∧ Map.rising (dev (core1 []) (wordOf .nop .q)).mmu.regions = true ∧
    Map.rising (dev (core1 []) (wordOf .nop .q)).cores = true ∧
    (∃ s : State, bindersOf s 3 ≠ []) ∧ (∃ s : State, ∃ l ∈ s.fab.lines, l.data ≠ none) ∧ (∃ s : State, s.fab.lines = []) ∧
    (let s := qdev handle1 0 .empty [(0, region1 3)]
     let k := { getCore s 0 with transit := some (0, 9) }
     k.transit = some (0, 9) ∧ Map.find s.mmu.regions 0 = some (region1 3) ∧ k.plain = [] ∧ ∀ l ∈ s.fab.lines, ∀ q p o, l.use ≠ .store q 0 p o) := by
  refine ⟨fun _ => rfl, rfl, rfl, ⟨dev { core1 [] with task := some { task1 with binds := [(3, 1)] } } (wordOf .nop .q), by decide +kernel⟩,
    ⟨shot1 (req1 (.core 0) 1) [] [wire1 (.store 1 0 0 0) (some [])], _, List.mem_singleton.2 rfl, nofun⟩, ⟨State.reset, rfl⟩, ⟨rfl, rfl, rfl, fun l h => by cases h⟩⟩

theorem len_rep {α : Type} (n : Nat) (a : α) : (List.replicate n a).length = n := List.length_replicate

def lifeDev (life : LifeState) : State := { State.reset with mgmt := { State.reset.mgmt with life, powered := true } }
def life1 (dest : LifeState) (sig : List Byte) : LifeReq := { dest, owner := [], sig }
def sig1 : List Byte := List.replicate 132 0

/-- What a signature does is left to the functions of log 9: those clauses are met wherever it verifies. -/
theorem witness_Management :
    (∀ l, (lifeDev l).mgmt.powered = true ∧ (lifeDev l).mgmt.life = l ∧ Map.rising (lifeDev l).fab.qps = true ∧ Map.rising (lifeDev l).fab.routes = true ∧
      (Map.find (lifeDev l).fab.qps 4095).isSome = false ∧ (lifeDev l).cores = []) ∧
    (let rs (n ctx : Nat) : List MapRange := List.replicate n { va := 0, len := 1, ctx }
     (rs 64 255).length ≤ 64 ∧ (∀ r ∈ rs 64 255, r.ctx < 256) ∧ 64 < (rs 65 0).length ∧ ∃ r ∈ rs 1 256, 256 ≤ r.ctx) ∧
    inwinOk 0x1010000000000000 0 0 0 = true ∧ inwinOk 0x0F00000000000000 0 0 0 = false ∧ 1023 < 1024 ∧ 4095 < 4096 ∧
    (∃ s : State, (Map.find s.fab.qps 4095).isSome = true ∧ Map.rising s.fab.qps = true) ∧
    (let ro : RouteReq := { entries := [(65535, 1)], devid := some 65534 }
     (∀ d, ro.devid = some d → d ≠ 0 ∧ d < 65535) ∧ ∀ x ∈ ro.entries, x.1 < 65536) ∧
    ¬(∀ d, ({ entries := [], devid := some 65535 } : RouteReq).devid = some d → d ≠ 0 ∧ d < 65535) ∧
    (List.replicate 2048 (0 : W32)).length ≤ 2048 ∧ 2048 < (List.replicate 2049 (0 : W32)).length ∧
    (∃ c ∈ (wdev 0 []).cores, c.2.task ≠ none ∧ c.2.wick.run = true) ∧ (List.replicate 64 (0 : Byte)).length = 64 ∧
    (∀ k op tag p, signedBy k op tag p [] = false) ∧
    (∀ k op tag p, Config.ecdsaVerifies k (Config.sha512 (signed op tag p)) sig1 = true → signedBy k op tag p sig1 = true) ∧
    lifeKeys (lifeDev .manufacture) .provisioned ≠ [] ∧ lifeKeys (lifeDev .returned) .provisioned = [] := by
  refine ⟨fun _ => ⟨rfl, rfl, rfl, rfl, rfl, rfl⟩, ⟨by decide, by decide, by decide, by decide⟩, by decide +kernel, by decide +kernel, by decide, by decide,
    ⟨{ State.reset with fab := { State.reset.fab with qps := [(4095, { create := true, qp := 4095, qpn := 0, gid := 0, psn := 0 })] } }, rfl, rfl⟩,
    ⟨fun d h => by cases h; decide, by decide⟩, fun h => absurd (h 65535 rfl).2 (by decide), Nat.le_of_eq (len_rep 2048 _), Nat.le_of_eq (len_rep 2049 _).symm,
    ⟨_, List.mem_singleton.2 rfl, nofun, rfl⟩, List.length_replicate, fun _ _ _ _ => rfl, fun k op tag p h => ?_, by simp [lifeKeys, lifeDev], rfl⟩
  unfold signedBy sig1; unfold sig1 at h; rw [h, len_rep]; rfl

/-- A page operation on frame 5 whose record lies at the end of DRAM, and a device whose frame table has an entry for it. -/
def preq (src : Requester) (dst : W64) : PageReq := { src, va := 0x20000, dst, ca := 1099511627776 - 64, size := 0, ctx := 1 }
def frames (entry : Nat) (defer : List Deferral) (pool : List Nat) (on : W64) : State :=
  let s := mapped 0 [] (core1 []) (wordOf .nop .s)
  { s with dram := s.dram.setBytes (0x10000000 + 40) (leBytes 8 entry), mmu := { s.mmu with frtBase := 0x10000000 + on, defer, pool } }
def dref (area : Option Nat) (second : Bool) : Deferral := { id := 3, frame := 0x50000, len := 65536, area, stat := 11, second, shot := false }

theorem witness_FrameOperations :
    PageLegal (preq (.core 0) 0x50000) ∧ (∃ tag, PageLegal (preq (.host tag) 0x50000)) ∧ (preq (.core 0) 0).ca % 64 = 0 ∧ (preq (.core 0) 0).ca + 64 ≤ 1099511627776 ∧
    (∀ e ∈ [0, entryOf 1 0 4294967295, entryOf 1 0 4294967294, entryOf 1 0 0, entryOf 1 0 2, entryOf 1 0 1, entryOf 2 0 0, entryOf 3 0 0, entryOf 1 1 1],
      (frames e [] [] 1).dram.wf = true ∧ numberAt (frames e [] [] 1).dram (frameWordAt (frames e [] [] 1) 0x50000) 8 = e) ∧
    frameWordAt (frames 0 [] [] 1) 0x50000 = 0x10000000 + 40 ∧ (frames 0 [] [] 1).mmu.frtBase.toNat % 2 = 1 ∧ (frames 0 [] [] 0).mmu.frtBase.toNat % 2 = 0 ∧
    (∀ e, (frames e [] [] 1).dram.pois = []) ∧ NoPlain (frames 0 [] [] 1) ∧
    (∀ d pool, (frames 0 [d] pool 1).mmu.defer = [d] ∧ (frames 0 [d] pool 1).mmu.pool = pool) ∧
    pinsOnFrame { frames 0 [] [] 1 with mmu := { (frames 0 [] [] 1).mmu with pins := [{ pin1 7 0x20000 (3, 4096) false with handle := mkHandle (.ok (leaf1 0) 0 0) 1 0x20000 }] } }
      (frameBase (hFrame (mkHandle (.ok (leaf1 0) 0 0) 1 0x20000))) 65536 nobody ≠ 0 ∧
    (0x200000 % 2097152 = 0 ∧ 0x200000 < 2199023255552) ∧ 0x10000 % 2097152 ≠ 0 ∧ 256 ≤ (List.replicate 256 32).length ∧
    0x200000 / 65536 ∈ List.replicate 256 32 ∧ 0x400000 % 2097152 = 0 ∧ 0x400000 / 65536 ∉ List.replicate 256 32 ∧ NoSaved (frames 0 [] [] 1) := by
  refine ⟨nofun, ⟨0, fun tag _ => by decide +kernel⟩, by decide, by decide, by decide +kernel, by decide +kernel, by decide +kernel, by decide +kernel, fun _ => rfl, by unfold NoPlain; decide +kernel,
    fun _ _ => ⟨rfl, rfl⟩, by decide +kernel, ⟨by decide, by decide⟩, by decide, Nat.le_of_eq (len_rep 256 _).symm, by decide +kernel, by decide, by decide +kernel,
    fun q h => by cases h⟩

theorem ok_of' {α ε : Type} {x : Except ε α} (h : x.toOption.isSome = true) : ∃ d, x = .ok d := by
  cases x with | error e => cases h | ok d => exact ⟨d, rfl⟩

/-- A leaf of the first 2 MiB, local at 2^30 or in the Shade zone, with the frame table's entry for its frame. -/
def paged (res entry : Nat) (on : W64) : State :=
  let s := mapped 0 [] (core1 []) (wordOf .nop .s)
  { s with dram := ((s.dram.setBytes 131072 (leBytes 8 196609)).setBytes 196608 (leBytes 8 (2 ^ 54 + 16384 * 65536 + 57344 + 65 + 128 * res))).setBytes
             (0x10000000 + 8 * 16384) (leBytes 8 entry)
           mmu := { s.mmu with frtBase := 0x10000000 + on, shzLen := 1 } }
/-- A request for that page, to a local destination. -/
def mreq2 (size : BitVec 2) : PageReq := { preq (.core 0) 0x60002000 with va := 0x10000, size }
def leaf2 (res : Nat) : W64 := BitVec.ofNat 64 (2 ^ 54 + 16384 * 65536 + 57344 + 65 + 128 * res)

/-- A move of the page at 0x20000 to frame 5; its leaf stands at 64. -/
def move1 (phase : Nat) : Move :=
  { req := { preq (.core 0) 0x50000 with va := 0x20000 }, kind := 0, leaf := leaf2 0, addr := 64, dst := 0x50000, pool := none, qid := none, got := [], phase }
def moving1 (phase : Nat) : State :=
  { dev (core1 []) (wordOf .nop .s) with
    dram := Memory.empty.setBytes 64 (leBytes 8 (leaf2 0).toNat), mmu := { State.reset.mmu with moves := [(3, move1 phase)], nextId := 9 } }

theorem witness_PageMoves :
    (∀ size, PageLegal (mreq2 size) ∧ (mreq2 size).ca % 64 = 0 ∧ (mreq2 size).ca + 64 ≤ 1099511627776) ∧
    (∀ res ∈ [0, 1], (paged res 0 0).dram.wf = true ∧ walk (paged res 0 0) 1 0x10000 = .ok (leaf2 res) 1 196608 ∧ (leaf2 res).toNat / 2 ^ 7 % 4 = res ∧
      movingAt (paged res 0 0) 1 0x10000 = false ∧ frameEntry (paged res 0 0) 1073741824 = 0 ∧ (paged res 0 0).mmu.moves.length < 64) ∧
    walk (paged 0 0 0) 2 0 = .no 1 ∧ (mreq2 0).size ≠ 1 ∧ (mreq2 1).size = 1 ∧ walk (paged 0 (entryOf 1 1 2) 1) 1 0x10000 = .ok (leaf2 0) 1 196608 ∧
    frameEntry (paged 0 (entryOf 1 1 2) 1) 1073741824 / 2 ^ 62 = 1 ∧ 1 < frameEntry (paged 0 (entryOf 1 1 2) 1) 1073741824 % 2 ^ 32 ∧
    (∃ d, destOf (paged 0 0 0) (mreq2 1) 1 false = .ok d) ∧ (∃ d, destOf (paged 1 0 0) (mreq2 1) 1 true = .ok d) ∧ zoneRoom (paged 0 0 0) 1 = true ∧
    movingAt { paged 0 0 0 with mmu := { (paged 0 0 0).mmu with moves := [(3, { move1 0 with req := mreq2 1 })] } } 1 0x10000 = true ∧
    (∀ phase, let s := moving1 phase; let m := move1 phase
     s.dram.wf = true ∧ Map.find s.mmu.moves 3 = some m ∧ m.phase = phase ∧ m.kind ≤ 1 ∧ m.req.size = 0 ∧ m.req.va % 65536 = 0 ∧ m.req.va < 4503599627370496 ∧
      m.leaf.toNat / 2 ^ 7 % 4 = 0 ∧ m.dst.toNat / 2 ^ 7 % 4 = 0 ∧ (∀ b, m.dst.toNat.testBit b = true → placeBit b = true) ∧
      m.leaf.toNat / 2 ^ 16 % 2 ^ 32 * 65536 = 1073741824 ∧ m.dst.toNat / 2 ^ 16 % 2 ^ 32 * 65536 = 0x50000 ∧ attrAt s 1073741824 = leafAttr m.leaf.toNat ∧
      s.dram.pois = [] ∧ s.mmu.frtBase.toNat % 2 = 0 ∧ m.addr % 8 = 0 ∧ ¬Meet m.addr 8 0x50000 65536 ∧ numberAt s.dram m.addr 8 = m.leaf.toNat ∧ NoPlain s ∧ NoSaved s ∧
      s.fab.lines = [] ∧ s.mmu.pins = [] ∧ s.mmu.defer = [] ∧ Map.rising s.mmu.moves = true ∧ m.req.ca % 64 = 0) := by
  have hb : ∀ b, (0x50000 : W64).toNat.testBit b = true → placeBit b = true := by
    intro b h
    have hb : b < 64 := by
      rcases Nat.lt_or_ge b 64 with h' | h'
      · exact h'
      · rw [Nat.testBit_lt_two_pow (Nat.lt_of_lt_of_le (0x50000 : W64).isLt (Nat.pow_le_pow_right (by decide) h'))] at h; cases h
    have : ∀ b : Fin 64, (0x50000 : W64).toNat.testBit b = true → placeBit b = true := by decide +kernel
    exact this ⟨b, hb⟩ h
  refine ⟨fun _ => ⟨nofun, (show (1099511627776 - 64) % 64 = 0 by decide), (show 1099511627776 - 64 + 64 ≤ 1099511627776 by decide)⟩, by decide +kernel, by decide +kernel, by decide, rfl, by decide +kernel, by decide +kernel, by decide +kernel,
    ok_of' (by decide +kernel), ok_of' (by decide +kernel), by decide +kernel, by decide +kernel, fun phase => ?_⟩
  have hd : (moving1 phase).dram = (moving1 0).dram := rfl
  exact ⟨by rw [hd]; decide +kernel, rfl, rfl, Nat.zero_le 1, rfl, (show 0x20000 % 65536 = 0 by decide), (show 0x20000 < 4503599627370496 by decide), (show (leaf2 0).toNat / 2 ^ 7 % 4 = 0 by decide +kernel),
    (show (0x50000 : W64).toNat / 2 ^ 7 % 4 = 0 by decide +kernel), hb, (show (leaf2 0).toNat / 2 ^ 16 % 2 ^ 32 * 65536 = 1073741824 by decide +kernel),
    (show (0x50000 : W64).toNat / 2 ^ 16 % 2 ^ 32 * 65536 = 0x50000 by decide +kernel), (show Attr.wiped = leafAttr (leaf2 0).toNat by decide +kernel), rfl, rfl, (show 64 % 8 = 0 by decide),
    (show ¬(64 < 0x50000 + 65536 ∧ 0x50000 < 64 + 8) by decide), (show numberAt (moving1 0).dram 64 8 = (leaf2 0).toNat by decide +kernel),
    (by intro c h; cases List.mem_singleton.1 h; rfl), (fun q h => by cases h), rfl, rfl, rfl, rfl, (show (1099511627776 - 64) % 64 = 0 by decide)⟩

/-- The walk caches of the hub with the page of the first GiB of context 1. -/
def hubTlb : Map (List TlbE) := [(hubCache, [tlbEntry 1 0 (BitVec.ofNat 64 (2 ^ 54 + 16384 * 65536 + 3 * 16384 + 8192 + 65)) 2 131072])]

/-- The checks of HubLocal. -/
def hubOk (s : State) (key va n c : Nat) (w : Bool) : Bool :=
  match walk s 1 va, tlbFind (Map.get [] s.mmu.tlbs hubCache) 1 va with
  | .ok l z a, some e =>
    decide (e.leaf = l ∧ e.size = z ∧ e.addr = a ∧ l.toNat / 2 ^ 7 % 4 = 0 ∧ (w = true → l.toNat.testBit 54 = true) ∧
      cellOf (hPhys (mkHandle (.ok l z a) 1 va) va) = some c ∧ attrAt s c = hFormat (mkHandle (.ok l z a) 1 va)) &&
    decide ((permit s .hub 1 va n w true).1 = .yes ∧ (w = true → movingAt s 1 va = false) ∧ (0 < n ∧ va % 4096 + n ≤ 4096 ∧ va + n ≤ 2 ^ 52 ∧ 1 < 256) ∧
      Map.find s.fab.inbound key = none)
  | _, _ => false

theorem local_of {s : State} {key va n c : Nat} {w : Bool} (h : hubOk s key va n c w = true) : HubLocal s key 1 va n c w := by
  unfold hubOk at h
  split at h
  next l z a e hw he =>
    simp only [Bool.and_eq_true, decide_eq_true_eq] at h
    obtain ⟨⟨h1, h2, h3, h4⟩, h5, h6, h7, h8⟩ := h
    exact ⟨⟨l, z, a, e, hw, he, h1, h2, h3, h4⟩, h5, h6, h7, h8⟩
  next => cases h

/-- A descriptor of a queue of context `ctx` (R140): the ring at 0x4000, the header at 0x20000, the save area at 0x50000000. -/
def qdesc (logn ctx save : Nat) : Nat := 0x4000 + logn * 2 ^ 56 + 0x20000 * 2 ^ 64 + save * 2 ^ 384 + ctx * 2 ^ 448 + 2 ^ 480
/-- A device with a descriptor at 0x3000, a header in a region of mode 3, and one slot in the save area. -/
def creating (x : Nat) : State :=
  let s := mapped 0x3000 (leBytes 64 x) (core1 []) (wordOf .nop .q)
  { s with dram := s.dram.setBytes 0x50000000 (leBytes 4 1), mmu := { s.mmu with regions := [(0, region1 3)], tlbs := hubTlb } }
/-- A descriptor with a reserved bit set. -/
def badDesc : Nat := qdesc 38 1 0
/-- A descriptor in a poisoned grain. -/
def poisonDesc : State := { creating badDesc with dram := { (creating badDesc).dram with pois := [(1073741824 + 0x3000) / 32] } }
def qreq (arg : W64) : QueueReq := { src := .host 9, ctx := 1, qid := 1, arg }

/-- A packet of kind `kind` at index 0, its bytes `x`. -/
def pack (kind x : Nat) (stop : Bool) (res : Option PRes) : Packet :=
  { k := 0, kind, bytes := leBytes 64 x, done := false, stop, base := 0, launch := none, cores := [], job := { Job.empty with res }, iter := 0, held := false
    inLoop := none, fin := false, bloop := none }
/-- The ring at 0x4000 with a packet in its first slot, and the queue with it. -/
def queued (q : Queue) (x : Nat) : State := { mapped 0x4000 (leBytes 64 x) (core1 []) (wordOf .nop .q) with
  queues := [(1, q)], mmu := { State.reset.mmu with tlbs := hubTlb } }
/-- A SIGNAL of doubleword 0 at 0x6000 (R145 to R147). -/
def signalX : Nat := 2 + 0x6000 * 2 ^ 64

theorem read_of {α ε : Type} {s : State} {x : State × Except ε α} {a : α} (h : x.1 = s) (h' : x.2.toOption = some a) : x = (s, .ok a) :=
  Prod.ext h (ok_of h')

def stopped1 : Queue := { queue1 with st := .stopped, packets := [pack 2 signalX true none] }
/-- A free queue 1, and a descriptor that the hub reads at 0x3000. -/
def Reads (x : Nat) : Prop := getQueue (creating x) 1 = none ∧ (creating x).mgmt.ready = true ∧ (creating x).dram.wf = true ∧
  HubLocal (creating x) (hubKey 1) 1 0x3000 64 (1073741824 + 0x3000) false ∧ Clean (creating x) (1073741824 + 0x3000) 64 ∧
  numberAt (creating x).dram (1073741824 + 0x3000) 64 = x
theorem reads_of {x : Nat} (h : hubOk (creating x) (hubKey 1) 0x3000 64 (1073741824 + 0x3000) false = true)
    (h' : numberAt (creating x).dram (1073741824 + 0x3000) 64 = x) (hw : (creating x).dram.wf = true) : Reads x :=
  ⟨rfl, rfl, hw, local_of h, fun _ _ => rfl, h'⟩

theorem pull_nil (n a : Nat) : Memory.pull n a [] = List.replicate n 0 := by
  induction n generalizing a with
  | zero => rfl
  | succ n ih => rw [List.replicate_succ, Memory.pull, ih]

theorem leNat_zeros (n : Nat) : leNat (List.replicate n 0) = 0 := by
  induction n with
  | zero => rfl
  | succ n ih => rw [List.replicate_succ, leNat, ih]; rfl

theorem read_clean {m : Memory} (hp : m.pois = []) (g a n : Nat) : m.read g a n = clean (m.bytes a n) := by
  unfold Memory.read clean; rw [hp]; apply List.ext_getElem <;> simp

/-- The head of a save area above everything listed: one slot, the rest zero. -/
theorem save_head {s : State} {a : Nat} (hc : s.dram.cells.dropWhile (fun c => c.1 < a) = [(a, 1)]) (hp : s.dram.pois = [])
    (hr : requests a 4096 = [(some a, 4096)]) : physRead s a 4096 = clean (1 :: List.replicate 4095 0) := by
  have h : Memory.pull 4096 a [(a, 1)] = 1 :: List.replicate 4095 0 := by
    rw [show 4096 = 4095 + 1 from rfl, Memory.pull, if_pos rfl, pull_nil]
  unfold physRead; rw [hr, List.flatMap_cons, List.flatMap_nil, List.append_nil]
  show (s.dram.read 32 a 4096).map _ = _
  rw [read_clean hp, Memory.bytes, hc, h, clean, List.map_map]; rfl

theorem save_slots : saveSlots (creating (qdesc 6 1 0x50000000)) 0x50000000 = some 1 := by
  have hh : physRead (creating (qdesc 6 1 0x50000000)) 0x50000000 4096 = clean (1 :: List.replicate 4095 0) :=
    save_head (by decide +kernel) (by decide +kernel) (by decide +kernel)
  have h1 : leVal ((clean (1 :: List.replicate 4095 0)).take 4) = 1 := by decide +kernel
  have h2 : leVal ((clean (1 :: List.replicate 4095 0)).drop 4) = 0 := by
    unfold leVal clean
    rw [← List.map_drop, List.map_map, show ((1 :: List.replicate 4095 (0 : Byte)).drop 4) = List.replicate 4092 0 from List.drop_replicate (i := 3) (n := 4095)]
    show leNat ((List.replicate 4092 0).map id) = 0
    rw [List.map_id, leNat_zeros]
  have h3 : anyPois (clean (1 :: List.replicate 4095 0)) = false := by unfold anyPois clean; rw [List.any_map]; exact List.any_eq_false.2 fun _ _ => nofun
  have h4 : ((ranges 65536 (saveLen 1 / 65536 + 2) 0x50000000 (saveLen 1)).any fun q => !fullFrames (creating (qdesc 6 1 0x50000000)) q.1 q.2
    || decide (2 ≤ feState (frameEntry (creating (qdesc 6 1 0x50000000)) q.1)) || drainingAt (creating (qdesc 6 1 0x50000000)) q.1) = false := by decide +kernel
  unfold saveSlots
  simp only [hh, h1, h2, h3, h4]
  decide +kernel

theorem witness_QueueOperations :
    (Reads (qdesc 6 1 0x50000000) ∧ Reads (qdesc 5 1 0x50000000) ∧ Reads (qdesc 6 1 0) ∧ Reads (qdesc 6 2 0) ∧ Reads badDesc) ∧
    (qreq 0x3008).arg.toNat % 64 ≠ 0 ∧ (qreq 0x3000).arg.toNat % 64 = 0 ∧ anyPois (clean (leBytes 64 5)) = false ∧ anyPois [(0, true)] = true ∧
    (let x := qdesc 6 1 0x50000000; let s := creating x
     ctxValid s 1 = true ∧ ctxValid s 2 = false ∧ DescLegal x ∧ ¬DescLegal badDesc ∧ DescLegal (x + 6 * 2 ^ 188) ∧ ringOk s x = true ∧ ringOk s (qdesc 5 1 0) = false ∧
      saveSlots s 0x50000000 = some 1 ∧ saveSlots s 64 = none ∧ HubLocal s (hubKey 1) 1 0x20000 8 (1073741824 + 0x20000) false ∧
      HubLocal s (hubKey 1) 1 (0x20000 + 8) 8 (1073741824 + 0x20000 + 8) true ∧ Clean s (1073741824 + 0x20000) 8 ∧
      fieldOf x 448 8 = 1 ∧ fieldOf x 64 52 = 0x20000 ∧ fieldOf x 384 48 = 0x50000000) ∧ ¬Clean poisonDesc (1073741824 + 0x3000) 64 ∧
    (∀ st, getQueue (queued { queue1 with st } 0) 1 = some { queue1 with st } ∧ Map.rising (queued { queue1 with st } 0).queues = true ∧
      (queued { queue1 with st } 0).mmu.defer = []) ∧ queue1.dying = none ∧ queue1.packets = [] ∧ (QState.free ≠ .stopped ∧ QState.stopped ≠ .active) ∧
    (let s := queued stopped1 signalX
     getQueue s 1 = some stopped1 ∧ stopped1.st = .stopped ∧ stopped1.dying = none ∧ stopped1.ctx = 1 ∧ stopped1.ridx = 0 ∧
      (pack 2 signalX true none).held = false ∧ stopped1.ringva + 64 * (0 % 2 ^ stopped1.logn) = 0x4000 ∧
      HubLocal s (hubKey 1) 1 0x4000 64 (1073741824 + 0x4000) false ∧ Clean s (1073741824 + 0x4000) 64 ∧
      numberAt s.dram (1073741824 + 0x4000) 64 = signalX ∧ packetBad stopped1 signalX = false ∧ fieldOf signalX 0 4 = 2) ∧
    (∃ p : Packet, p.stop = true ∧ p.k = 0 ∧ p.job.res = some (plainRes 9 0) ∧ p.kind = 3) ∧ (∃ p : Packet, p.done = false ∧ p.stop = false) ∧
    (∃ c ∈ (queued queue1 0).cores, ∃ x, c.2.task = some x ∧ x.qid = 1) :=
  ⟨⟨reads_of (by decide +kernel) (by decide +kernel) (by decide +kernel), reads_of (by decide +kernel) (by decide +kernel) (by decide +kernel),
     reads_of (by decide +kernel) (by decide +kernel) (by decide +kernel), reads_of (by decide +kernel) (by decide +kernel) (by decide +kernel),
     reads_of (by decide +kernel) (by decide +kernel) (by decide +kernel)⟩, by decide, by decide, rfl, rfl,
    ⟨by decide +kernel, by decide +kernel, by unfold DescLegal; decide +kernel, by unfold DescLegal; decide +kernel, by unfold DescLegal; decide +kernel,
      by decide +kernel, by decide +kernel, save_slots, rfl, local_of (by decide +kernel), local_of (by decide +kernel), fun _ _ => rfl, by decide +kernel, by decide +kernel, by decide +kernel⟩,
    fun h => absurd (h 0 (by decide)) (by decide),
    fun _ => ⟨rfl, rfl, rfl⟩, rfl, rfl, ⟨nofun, nofun⟩, ⟨rfl, rfl, rfl, rfl, rfl, rfl, by decide +kernel, local_of (by decide +kernel), fun _ _ => rfl, by decide +kernel, by decide +kernel,
      by decide +kernel⟩,
    ⟨pack 3 0 true (some (plainRes 9 0)), rfl, rfl, rfl, rfl⟩, ⟨pack 1 0 false none, rfl, rfl⟩, ⟨_, List.mem_singleton.2 rfl, _, rfl, rfl⟩⟩

/-- A descriptor of a vector of `n` elements in device memory (R346). -/
def devRec (base n fmt : Nat) : List PByte :=
  clean (leBytes 64 (base + (1 + 256 * fmt) * 2 ^ 64 + n * 2 ^ 128 + 2 ^ 160 + 2 ^ 192 + 2 ^ 224 + 2 ^ 256 + 2 ^ 288 + 2 ^ 320))
/-- A packet with its work, and a device that runs it, with a region of mode `mode` at 0x20000 and the words `ws` there. -/
def packJ (kind x : Nat) (job : Job) : Packet := { pack kind x false none with job, cores := [0] }
def working (p : Packet) (mode va : Nat) (ws : List Byte) : State :=
  let s := mapped va ws (core1 []) (wordOf .nop .q)
  { s with queues := [(1, { queue1 with packets := [p] })], ranges := [{ va := 0x6000, len := 32, ctx := 1 }], mmu := { s.mmu with regions := [(0, region1 mode)] } }
def recs (l : List (List PByte)) : Job := { Job.empty with recs := l, targets := [to0] }

theorem runs_of (kind x mode va : Nat) (ws : List Byte) (j : Job) (h : j.res = none) :
    PacketRuns (working (packJ kind x j) mode va ws) 1 { queue1 with packets := [packJ kind x j] } (packJ kind x j) kind :=
  ⟨rfl, rfl, rfl, rfl, rfl, rfl, h⟩

/-- The blocks of a COPY, of a BCOPY and of a MARKER at 0x8000 and 0x8040: a tensor of eight bytes; one too big, of 2^24 by 2^24 bytes. -/
def bigRec : List PByte := clean (leBytes 64 ((2 + 256 * 12) * 2 ^ 64 + 2 ^ 152 + 2 ^ 184 + 2 ^ 192 + 2 ^ 224 + 2 ^ 256 + 2 ^ 288))
def copyX : Nat := 0x8000 * 2 ^ 128 + 0x8040 * 2 ^ 192
def ran (r : Run) (p : Packet) : Bool := decide (r.miss = []) && decide (r.prom = []) && decide (getPacket r.s 1 p.k = some p)
theorem ran_of {r : Run} {p : Packet} (h : ran r p = true) : Ran r 1 p := by
  simp only [ran, Bool.and_eq_true, decide_eq_true_eq] at h; exact ⟨h.1.1, h.1.2, h.2⟩

def first (kind : Nat) (d : List PByte) : State := working (packJ kind copyX Job.empty) 3 0x8000 ((d ++ d).map (·.1))
/-- The blocks that a first read takes, one after another; whether each came and was, or was not, too big. -/
def readAll (ag : Agent) : Run → List Nat → List (List PByte) × Run
  | r, [] => ([], r)
  | r, va :: vas => let x := readDevice r ag ag.ctx va 64; let y := readAll ag x.1 vas; (x.2.1 :: y.1, y.2)
def allCame (ag : Agent) : Run → List Nat → Bool
  | _, [] => true
  | r, va :: vas => let x := readDevice r ag ag.ctx va 64; x.2.2.isNone && allCame ag x.1 vas
theorem reads_all (ag : Agent) (r : Run) (vas : List Nat) (h : allCame ag r vas = true) : ReadsBlocks ag r vas (readAll ag r vas).1 (readAll ag r vas).2 := by
  induction vas generalizing r with
  | nil => rfl
  | cons va vas ih =>
    simp only [allCame, Bool.and_eq_true, Option.isNone_iff_eq_none] at h
    exact ⟨_, Prod.ext rfl (Prod.ext rfl h.1), ih _ h.2⟩

def firstAg (kind : Nat) (d : List PByte) (acc : Accessor) : Agent := packetAgent (first kind d) 1 0 acc Job.empty
def firstOk (kind : Nat) (d : List PByte) (acc : Accessor) (vas : List Nat) (big : Bool) : Bool :=
  let x := readAll (firstAg kind d acc) (Run.start (first kind d)) vas
  allCame (firstAg kind d acc) (Run.start (first kind d)) vas && ran x.2 (packJ kind copyX Job.empty) && decide (x.1.map tooBig = vas.map fun _ => big)

/-- What a packet's work comes to, and that it needs nothing more. -/
def workAt (p : Packet) : State := working p 3 0x6000 (leBytes 32 (2 ^ 176))
def agentAt (p : Packet) (acc : Accessor) : Agent := packetAgent (workAt p) 1 0 acc p.job
def copyP : Packet := packJ 3 0 (recs [devRec 0x6000 8 12, devRec 0x6100 8 12])
def sumP : Packet := packJ 10 (2 ^ 130) (recs [devRec 0x6000 8 12])
def bcopyP : Packet := packJ 4 (64 * 2 ^ 192) (recs [devRec 0x6000 8 12])
def queryP : Packet := packJ 5 0 (recs query1.job.recs)
def bagsP (n : Nat) : Packet := packJ 6 0 { recs bags1.job.recs with units := n }
def collP : Packet := packJ 7 0 (recs [clean (leBytes 64 0)])

theorem witness_PacketWork :
    (∀ p mode va ws, getPacket (working p mode va ws) 1 p.k = some p) ∧
    (∀ kind x mode va ws j, j.res = none → PacketRuns (working (packJ kind x j) mode va ws) 1 { queue1 with packets := [packJ kind x j] } (packJ kind x j) kind) ∧
    (firstBlocks (packJ 3 copyX Job.empty) = some (.command 65535, [0x8040, 0x8000]) ∧ firstBlocks (packJ 4 copyX Job.empty) = some (.beacon, [0x8000]) ∧
      firstBlocks (packJ 10 copyX Job.empty) = some (.command 65535, [0x8000]) ∧ firstOk 3 (devRec 0x6000 8 12) (.command 65535) [0x8040, 0x8000] false = true ∧
      firstOk 3 bigRec (.command 65535) [0x8040, 0x8000] true = true ∧ firstOk 4 (devRec 0x6000 8 12) .beacon [0x8000] false = true ∧
      firstOk 4 bigRec .beacon [0x8000] true = true ∧ firstOk 10 bigRec (.command 65535) [0x8000] true = true) ∧
    (remotePin (workAt copyP) (0, 1) = false ∧ Ran (copyJob (Run.start (workAt copyP)) (agentAt copyP (.command 65535)) copyP.job 0).1 1 copyP) ∧
    (packetField sumP 128 64 ≠ 0 ∧ packetField copyP 128 64 = 0 ∧ Ran (sumJob (Run.start (workAt sumP)) (agentAt sumP (.command 65535)) sumP.job).1 1 sumP) ∧
    (∃ x, tensorOf (workAt bcopyP) (agentAt bcopyP .beacon) (jobRec bcopyP.job 0) 0 = .ok x ∧ wrongClass (workAt bcopyP) (agentAt bcopyP .beacon) x = false ∧
      (let y := imageFrom (Run.start (workAt bcopyP)) (agentAt bcopyP .beacon) x 0
       Ran y.1 1 bcopyP ∧ y.2.1.length = 8 ∧ y.2.2.2 = none ∧ packedBytes x.lay.fmt 0 = 0)) ∧
    (let d := leVal (jobRec queryP.job 0); let v := (queryReady (workAt queryP) (hubKey 1) queryP.job).1
     (queryReady (workAt queryP) (hubKey 1) queryP.job).2 = some queryP.job ∧
     let w := setPacket v 1 queryP
     let y := queryJob (Run.start w) (hubKey 1) (packetAgent w 1 0 (.candle (fieldOf d 80 4)) queryP.job) (dProf d) queryP.job
     Ran y.1 1 queryP ∧ y.2.1.status = 1 ∧ y.1.s.cores = (workAt queryP).cores ∧ y.2.2.1.length < 2097152 ∧ qBar d = none) ∧
    (let d := leVal (jobRec (bagsP 0).job 0); let y := bagJob (Run.start (workAt (bagsP 0))) (agentAt (bagsP 0) .hub) (dProf d) (bagsP 0).job 0
     Ran y.1 1 (bagsP 0) ∧ y.2.toOption.isSome = true ∧ y.1.s.cores = (workAt (bagsP 0)).cores ∧ 0 < rNbag d ∧ rNbag d ≤ 2 ∧ rBar d = none) ∧
    (targetCore (workAt collP) to0 = some 0 ∧ collP.job.targets = [to0] ∧ collP.job.units = 0 ∧
      Ran (arrivalJob (Run.start (workAt collP)) (agentAt collP (.command 65535)) (dProf (leVal (jobRec collP.job 0))) collP.job).1 1 collP) ∧
    (∀ p, ∀ d, (∃ t, (getCore (workAt p) d).task = some t ∧ t.qid = 1 ∧ t.packet = 0 ∧ t.ord = 0) ↔ d = 0) := by
  refine ⟨fun p mode va ws => ?_, fun kind x mode va ws j h => runs_of kind x mode va ws j h, (by refine ⟨?_, ?_, ?_, ?_, ?_, ?_, ?_, ?_⟩ <;> decide +kernel), ⟨by decide +kernel, ran_of (by decide +kernel)⟩, ⟨by decide +kernel, by decide +kernel, ran_of (by decide +kernel)⟩, ?_,
    ⟨by decide +kernel, ran_of (by decide +kernel), by decide +kernel, by decide +kernel, by decide +kernel, by decide +kernel⟩,
    ⟨ran_of (by decide +kernel), by decide +kernel, by decide +kernel, by decide +kernel, by decide +kernel, by decide +kernel⟩,
    ⟨by decide +kernel, rfl, rfl, ran_of (by decide +kernel)⟩, fun p d => ?_⟩
  · unfold getPacket getQueue working; simp [Map.find]
  · have h : (match tensorOf (workAt bcopyP) (agentAt bcopyP .beacon) (jobRec bcopyP.job 0) 0 with
      | .ok x => let y := imageFrom (Run.start (workAt bcopyP)) (agentAt bcopyP .beacon) x 0
        !wrongClass (workAt bcopyP) (agentAt bcopyP .beacon) x && ran y.1 bcopyP && decide (y.2.1.length = 8) && decide (y.2.2.2 = none)
      | .error _ => false) = true := by decide +kernel
    cases e : tensorOf (workAt bcopyP) (agentAt bcopyP .beacon) (jobRec bcopyP.job 0) 0 with
    | error c => rw [e] at h; cases h
    | ok x =>
      rw [e] at h; simp only [Bool.and_eq_true, Bool.not_eq_true', decide_eq_true_eq] at h
      exact ⟨x, rfl, h.1.1.1, ran_of h.1.1.2, h.1.2, h.2, by simp [packedBytes]⟩
  · by_cases h : d = 0
    · subst h; exact ⟨fun _ => rfl, fun _ => ⟨task1, rfl, rfl, rfl, rfl⟩⟩
    · refine ⟨fun ⟨t, ht, _⟩ => ?_, fun e => absurd e h⟩
      have : getCore (workAt p) d = Core.reset := other_core (core1 []) (wordOf .nop .q) d h
      rw [this] at ht; cases ht

/-- A SIGNAL of the doubleword at 0x20000, a WAIT on it, and a BWAIT on the barrier at the end of the scratchpad. -/
def signalP (kind : Nat) : Packet := packJ kind (0x20000 * 2 ^ 128) Job.empty
def bwaitP : Packet := packJ 12 (0x3FFFF0 * 2 ^ 128) Job.empty

theorem word_of {s : State} {va c : Nat} {w : Bool} (h : (match hubTranslate s 1 va with
      | .ok l n a => decide (l.toNat / 2 ^ 7 % 4 = 0) && (!w || l.toNat.testBit 54) && decide (cellOf (hPhys (mkHandle (.ok l n a) 1 va) va) = some c) &&
          decide (attrAt s c = hFormat (mkHandle (.ok l n a) 1 va))
      | .no _ => false) = true) (h1 : (permit s .hub 1 va 8 w true).1 = .yes) (h2 : movingAt s 1 va = false) (h3 : va % 8 = 0) (h4 : va < 2 ^ 52) :
    HubWord s 1 va c w := by
  cases e : hubTranslate s 1 va with
  | no k => rw [e] at h; cases h
  | ok l n a =>
    rw [e] at h; simp only [Bool.and_eq_true, Bool.or_eq_true, Bool.not_eq_true', decide_eq_true_eq] at h
    exact ⟨⟨l, n, a, e, h.1.1.1, fun hw => by simpa [hw] using h.1.1.2, h.1.2, h.2⟩, h1, fun _ => h2, h3, h4, by decide⟩

theorem witness_PacketSignals :
    (∀ mode ∈ [4, 3], regionAt (working (signalP 8) mode 0x20000 [1]) 1 0x20000 = some (0, region1 mode)) ∧ rMode (region1 3) = 3 ∧ rMode (region1 4) ≠ 3 ∧
    HubWord (working (signalP 8) 3 0x20000 [1]) 1 0x20000 (1073741824 + 0x20000) true ∧ HubWord (working (signalP 8) 4 0x20000 [1]) 1 0x20000 (1073741824 + 0x20000) true ∧
    HubWord (working (signalP 9) 3 0x20000 [1]) 1 0x20000 (1073741824 + 0x20000) false ∧ packetField (signalP 8) 128 64 = 0x20000 ∧
    (∀ m, releaseHeld (working (signalP 8) 3 0x20000 [1]) m = false) ∧ (working (signalP 8) 3 0x20000 [1]).dram.wf = true ∧ (working (signalP 8) 3 0x20000 [1]).dram.pois = [] ∧
    WaitHolds 2 1 0 ∧ ¬WaitHolds 0 1 0 ∧
    (packetField bwaitP 128 22 = 0x3FFFF0 ∧ packetField bwaitP 128 22 % 16 = 0 ∧ bwaitP.cores = [0] ∧
      (let k := getCore (working bwaitP 3 0 []) 0
       NoSpadPend k ∧ k.mem.spad.wf = true ∧ k.task = some task1 ∧ task1.ctx = queue1.ctx ∧ queue1.byStop = false ∧ k.mem.spad.pois = [] ∧ numberAt k.mem.spad 0x3FFFF0 16 % 16 = 0)) ∧
    queue1.st = .active :=
  ⟨by decide +kernel, by decide +kernel, by decide +kernel,
   word_of (by decide +kernel) (by decide +kernel) (by decide +kernel) (by decide) (by decide), word_of (by decide +kernel) (by decide +kernel) (by decide +kernel) (by decide) (by decide),
   word_of (by decide +kernel) (by decide +kernel) (by decide +kernel) (by decide) (by decide), by decide +kernel, fun m => held1 m _ rfl, by decide +kernel, by decide +kernel,
   Nat.zero_le 1, nofun, ⟨by decide +kernel, by decide +kernel, rfl, nopend_of rfl, rfl, rfl, rfl, rfl, rfl, by decide +kernel⟩, rfl⟩

/-- A loop-nest record (R161 to R163): entry 0x1000, two dimensions, T of its extents, and a gang. -/
def nestX (a b gang : Nat) : Nat :=
  0x1000 + 181896 * 2 ^ 64 + 2 * 2 ^ 88 + gang * 2 ^ 96 + a * 2 ^ 256 + b * 2 ^ 288 + 2 ^ 320 + 2 ^ 352 + 2 ^ 384 + 2 ^ 416
def launching (x ctx : Nat) (regions : Map Region) : State :=
  let s := mapped 0x20000 (leBytes 128 x) (core1 []) (wordOf .nop .q)
  { s with queues := [(1, { queue1 with ctx, packets := [pack 2 (0x20000 * 2 ^ 128) false none] })], mmu := { s.mmu with regions, tlbs := hubTlb } }
/-- A launch whose record the hub reads at 0x20000. -/
def Launches (x : Nat) : Prop :=
  let s := launching x 1 []
  HubLocal s (hubKey 1) 1 0x20000 128 (1073741824 + 0x20000) false ∧ s.dram.wf = true ∧ Clean s (1073741824 + 0x20000) 128 ∧
    numberAt s.dram (1073741824 + 0x20000) 128 = x

/-- A BLOOP over the packet before it, with its body packet; a packet that ends. -/
def bodyP (inLoop : Option Nat) (held : Bool) : Packet := { pack 12 0 false none with inLoop, held }
def bloopP (back : Nat) (bloop : Option (Nat × Nat)) (iter : Nat) : Packet := { pack 11 (back * 2 ^ 160) false none with k := 1, bloop, iter }
def looping (ps : List Packet) : State := { dev (core1 []) (wordOf .nop .q) with queues := [(1, { queue1 with packets := ps })] }
def doneP (kind compl : Nat) (status : Nat) : Packet := pack kind (compl * 2 ^ 64) false (some (plainRes status 0))
def ending (p : Packet) : State := { mapped 0 [] (core1 []) (wordOf .nop .q) with
  queues := [(1, { queue1 with packets := [p] })], mmu := { State.reset.mmu with tlbs := hubTlb } }

/-- A push held in the stage. -/
def heldPush (claimed : Option Nat) (ord : Nat) : Push := { qid := 1, packet := 0, tk := { phase := 0, ord, push := 0 }, image := List.replicate 64 1, claimed, stage := none, mask := 0 }
def staged (p : Push) : State := { mapped 0x3008 (leBytes 8 7) (core1 []) (wordOf .nop .q) with
  queues := [(1, { queue1 with ridx := 7, held := [p] })], mmu := { State.reset.mmu with tlbs := hubTlb } }

theorem launch_of {x : Nat} (h : hubOk (launching x 1 []) (hubKey 1) 0x20000 128 (1073741824 + 0x20000) false = true)
    (h' : numberAt (launching x 1 []).dram (1073741824 + 0x20000) 128 = x) (hw : (launching x 1 []).dram.wf = true) : Launches x :=
  ⟨local_of h, hw, fun _ _ => rfl, h'⟩

theorem witness_PacketCourse :
    (∀ x ctx regions, getQueue (launching x ctx regions) 1 = some { queue1 with ctx, packets := [pack 2 (0x20000 * 2 ^ 128) false none] } ∧
      getPacket (launching x ctx regions) 1 0 = some (pack 2 (0x20000 * 2 ^ 128) false none) ∧ Map.find (launching x ctx regions).fab.inbound (hubKey 1) = none) ∧
    (tlbFind (Map.get [] (launching 0 2 []).mmu.tlbs hubCache) 2 0x20000 = none ∧ (match walk (launching 0 2 []) 2 0x20000 with | .no _ => true | _ => false) = true) ∧
    (let s := launching 0 1 [(0, region1 1)]
     (match tlbFind (Map.get [] s.mmu.tlbs hubCache) 1 0x20000, walk s 1 0x20000 with | some e, .ok l z a => decide (e.leaf = l ∧ e.size = z ∧ e.addr = a) | _, _ => false) = true ∧
      (permit s .hub 1 0x20000 128 false true).1 ≠ .yes ∧ 0x20000 % 65536 + 128 ≤ 65536) ∧
    packetField (pack 2 (0x20000 * 2 ^ 128) false none) 128 64 = 0x20000 ∧
    (Launches (nestX 1280 1 1280) ∧ Launches (nestX 0 5 1) ∧ Launches (nestX 65536 131072 1) ∧ Launches (nestX 65536 65536 1280) ∧ Launches (nestX 1 1 1281) ∧ Launches 0) ∧
    (nestTasks (nestX 65536 131072 1) = 8589934592 ∧ nestTasks (nestX 65536 65536 1280) = 4294967296 ∧ nestTasks (nestX 0 5 1) = 0 ∧
      fieldOf (nestX 1 1 1281) 96 16 = 1281 ∧ fieldOf (nestX 1280 1 1280) 0 52 = 0x1000) ∧
    (nestBad 0 true = true ∧ ∀ x ∈ [nestX 1280 1 1280, nestX 0 5 1, nestX 65536 131072 1, nestX 65536 65536 1280, nestX 1 1 1281], nestBad x true = false) ∧
    (∃ leaf size addr, hubTranslate (launching (nestX 1 1 1) 1 []) 1 0x1000 = .ok leaf size addr) ∧
    (∀ b f, getPacket (looping [b, f]) 1 b.k = some b) ∧ (∀ back bloop iter (b : Packet), getPacket (looping [{ b with k := 0 }, bloopP back bloop iter]) 1 1 = some (bloopP back bloop iter)) ∧
    (reached { queue1 with packets := [bodyP none false, bloopP 1 none 0] } 1 1 = [bodyP none false] ∧ packetField (bloopP 1 none 0) 160 8 = 1 ∧
      packetField (bloopP 2 none 0) 160 8 = 2 ∧ reached { queue1 with packets := [bodyP (some 1) true, bloopP 1 (some (2, 1)) 1] } 1 1 = [bodyP (some 1) true]) ∧
    (∀ kind compl st, let s := ending (doneP kind compl st)
      getQueue s 1 = some { queue1 with packets := [doneP kind compl st] } ∧ getPacket s 1 0 = some (doneP kind compl st) ∧ s.mmu.defer = [] ∧ s.mmu.pins = [] ∧
      s.fab.lines = [] ∧ (∀ y ∈ s.queues, y.2.feeder ≠ some (1, 0) ∧ (1, 0) ∉ y.2.feeders) ∧ (doneP kind compl st).job.res = some (plainRes st 0)) ∧
    (HubLocal (ending (doneP 1 0x6000 1)) (hubKey 1) 1 0x6000 32 (1073741824 + 0x6000) true ∧ packetField (doneP 1 0x6000 1) 64 64 = 0x6000 ∧
      packetField (doneP 1 0 1) 64 64 = 0 ∧ (ending (doneP 1 0x6000 1)).dram.wf = true ∧ Stopping 8 ∧ ¬Stopping 1) ∧
    (let w := setPacket { ending (doneP 1 0 1) with old := [] } 1 { doneP 1 0 1 with done := true }
     let x := hubWrite w .hub 1 0x4000 (clean (leBytes 8 0)) true 1
     (match x with | (_, .done) => true | _ => false) = true ∧ (match hubWrite x.1 .hub 1 0x3008 (clean (leBytes 8 1)) true 1 with | (_, .done) => true | _ => false) = true) ∧
    (∀ c o, getQueue (staged (heldPush c o)) 1 = some { queue1 with ridx := 7, held := [heldPush c o] } ∧ getLaunch (staged (heldPush c o)) 1 0 = none) ∧
    (¬LowerRuns (staged (heldPush none 0)) (heldPush none 0) ∧ LowerRuns (staged (heldPush none 1)) (heldPush none 1)) ∧
    (let s := staged (heldPush none 0)
     (∀ w, HubLocal s (hubKey 1) 1 0x3000 8 (1073741824 + 0x3000) w) ∧ HubLocal s (hubKey 1) 1 0x3008 8 (1073741824 + 0x3008) false ∧ s.dram.wf = true ∧
      Clean s (1073741824 + 0x3000) 8 ∧ Clean s (1073741824 + 0x3008) 8 ∧ numberAt s.dram (1073741824 + 0x3008) 8 = 7) ∧
    (let s := staged (heldPush (some 70) 0)
     HubLocal s (hubKey 1) 1 0x3008 8 (1073741824 + 0x3008) false ∧ (∀ m, releaseHeld s m = false) ∧
      (match publish (releaseNear s 0) byHub { queue1 with ridx := 7, held := [heldPush (some 70) 0] } 1 70 (clean (List.replicate 64 1)) 0 with
        | (_, .done) => true | _ => false) = true) := by
  refine ⟨fun _ _ _ => ⟨rfl, rfl, rfl⟩, ⟨by decide +kernel, by decide +kernel⟩, ⟨by decide +kernel, by decide +kernel, by decide⟩, by decide +kernel,
    ⟨launch_of (by decide +kernel) (by decide +kernel) (by decide +kernel), launch_of (by decide +kernel) (by decide +kernel) (by decide +kernel),
     launch_of (by decide +kernel) (by decide +kernel) (by decide +kernel), launch_of (by decide +kernel) (by decide +kernel) (by decide +kernel),
     launch_of (by decide +kernel) (by decide +kernel) (by decide +kernel), launch_of (by decide +kernel) (by decide +kernel) (by decide +kernel)⟩,
    ⟨by decide +kernel, by decide +kernel, by decide +kernel, by decide +kernel, by decide +kernel⟩, ⟨by decide +kernel, by decide +kernel⟩, ?_, fun b f => ?_, fun _ _ _ _ => rfl,
    ⟨rfl, by decide +kernel, by decide +kernel, rfl⟩, fun _ _ _ => ⟨rfl, rfl, rfl, rfl, rfl, fun y hy => ?_, rfl⟩,
    ⟨local_of (by decide +kernel), by decide +kernel, by decide +kernel, by decide +kernel, by unfold Stopping; decide, by unfold Stopping; decide⟩, ⟨by decide +kernel, by decide +kernel⟩, fun _ _ => ⟨rfl, rfl⟩, ⟨?_, ?_⟩,
    ⟨fun w => ?_, local_of (by decide +kernel), by decide +kernel, fun _ _ => rfl, fun _ _ => rfl, by decide +kernel⟩,
    ⟨local_of (by decide +kernel), fun m => held1 m _ rfl, by decide +kernel⟩⟩
  · have h : (match hubTranslate (launching (nestX 1 1 1) 1 []) 1 0x1000 with | .ok _ _ _ => true | .no _ => false) = true := by decide +kernel
    cases e : hubTranslate (launching (nestX 1 1 1) 1 []) 1 0x1000 with
    | ok l n a => exact ⟨l, n, a, rfl⟩
    | no c => rw [e] at h; cases h
  · unfold getPacket getQueue looping; simp [Map.find]
  · cases List.mem_singleton.1 hy; exact ⟨nofun, nofun⟩
  · rintro ⟨c, hc, x, hx, _, _, h⟩; exact absurd h (Nat.not_lt_zero _)
  · exact ⟨_, List.mem_singleton.2 rfl, task1, rfl, rfl, rfl, by decide⟩
  · cases w <;> exact local_of (by decide +kernel)

/-- A launch of 1,280 tasks in one gang, none of them placed yet; a launch of one task that runs on core 0. -/
def nrec (ext : List Nat) (gang : Nat) : NestRec :=
  { entry := 0x1000, npdef := 2, gang, pken := false, pkey := 0, rank := 2, dir := 1, order := [0, 1], gmapoff := 0, gmapen := false, liveoff := 0, livelen := 0
    ext, binds := [] }
def waiting : Launch :=
  { rec' := nrec [640, 2, 1, 1, 1, 1] 1280, t := 1280, nextOrd := 0, committed := 0, stop := none, units := [], saved := [], bound := [], time := 0 }
def unit1 (saving : Bool) : Unit' := { gang := 0, size := 1, level := 0, time := 0, cores := [0], saving }
def placed (saving : Bool) : Launch := { waiting with rec' := nrec [1, 1, 1, 1, 1, 1] 1, t := 1, nextOrd := 1, units := [unit1 saving] }
def launchQ (l : Launch) : Queue := { queue1 with packets := [{ pack 2 0 false none with launch := some l }] }
def free1 (ready : Bool) : State :=
  { State.reset with queues := [(1, launchQ waiting)], mgmt := { State.reset.mgmt with ready, wiping := false } }
def tasked (k : Core) (saving : Bool) : State := { dev k (wordOf .nop .s) with queues := [(1, launchQ (placed saving))] }
def over1 : Core := { core1 [] with ending := true }
def held1' : Core := { core1 [] with iss := { Issue.reset with hold := true } }

theorem witness_TaskCourse :
    ((free1 false).mgmt.ready = false ∧ (free1 true).mgmt.ready = true ∧ (free1 true).queues = [(1, launchQ waiting)] ∧ (launchQ waiting).dying = none ∧
      (launchQ waiting).st = .active ∧ (free1 true).reserved = none ∧ (∀ d, (getCore (free1 true) d).task = none) ∧ waiting.rec'.order.Nodup ∧
      (∀ d ∈ waiting.rec'.order, d < 6) ∧ waiting.t = (waiting.rec'.order.map fun d => lget waiting.rec'.ext d 1).prod ∧ waiting.t ≤ waiting.rec'.gang ∧ waiting.t ≤ 1280) ∧
    readyNeed (free1 true) 1 (launchQ waiting) ≠ none ∧ readyNeed (free1 true) 1 queue1 = none ∧ getQueue (free1 true) 2 = none ∧
    (let s := tasked over1 false; let k := getCore s 0
     k.task = some task1 ∧ k.ending = true ∧ allDone k = true ∧ k.plain = [] ∧ task1.binds = [] ∧ s.fab.lines = [] ∧
      getPacket s task1.qid task1.packet = some { pack 2 0 false none with launch := some (placed false) } ∧ (placed false).stop = none ∧
      (pack 2 0 false none).k = task1.packet ∧ (pack 2 0 false none).job.res = none ∧ NoSpadPend k ∧
      (placed false).committed + 1 = (placed false).t ∧ (placed false).saved = [] ∧ (∀ d ∈ s.cores, d.1 = 0) ∧ Map.rising s.cores = true) ∧
    (getCore State.reset 7).task = none ∧
    (∀ trap, let s := tasked { core1 [] with iss := { Issue.reset with trap } } true; let k := getCore s 0
     k.task = some task1 ∧ k.iss.trap = trap ∧ k.halting = false ∧ getLaunch s task1.qid task1.packet = some (placed true) ∧ unit1 true ∈ (placed true).units ∧
      (unit1 true).gang = task1.gang) ∧
    (let s := tasked held1' true; let k := getCore s 0
     k.task = some task1 ∧ k.iss.hold = true ∧ k.halting = false ∧ drained k = true ∧ woken s 0 = false ∧ k.plain = [] ∧ task1.binds = [] ∧ s.fab.lines = [] ∧ getPacket s task1.qid task1.packet ≠ none ∧
      (∀ p, getPacket s task1.qid task1.packet = some p → p.k = task1.packet) ∧ getQueue s task1.qid = some (launchQ (placed true)) ∧
      (launchQ (placed true)).slots.length < (launchQ (placed true)).nslot ∧ (launchQ (placed true)).slots.Nodup ∧
      getLaunch s task1.qid task1.packet = some (placed true) ∧ (placed true).units = [unit1 true] ∧ (unit1 true).cores = [0]) :=
  ⟨⟨rfl, rfl, rfl, rfl, rfl, rfl, fun _ => rfl, by decide, by decide, by decide, by decide, by decide⟩, by decide +kernel, by decide +kernel, rfl,
    ⟨rfl, rfl, by decide, rfl, rfl, rfl, rfl, rfl, rfl, rfl, nopend_of rfl, rfl, rfl, by decide, rfl⟩, rfl, fun _ => ⟨rfl, rfl, rfl, rfl, List.mem_singleton.2 rfl, rfl⟩,
    ⟨rfl, rfl, rfl, by decide, by decide +kernel, rfl, rfl, rfl, nofun, fun p h => by cases h; rfl, rfl, by decide, by decide, rfl, rfl, rfl⟩⟩

/-- A device whose inbound window table admits RDMA with key 5, and device 9, to the first GiB of context 1. -/
def inbound1 (mode va : Nat) (ws : List Byte) : State :=
  let s := mapped va ws (core1 []) (wordOf .nop .s)
  { s with mmu := { s.mmu with regions := [(0, region1 mode)], inwin := [(0, ⟨0x9EE0000000000000, 1, 0x500000000, 0⟩), (1, ⟨0xDEE0000000000000, 0x0009000000000001, 0, 0⟩)] }
           mgmt := { s.mgmt with powered := true }, ranges := [{ va := 0x6000, len := 32, ctx := 1 }] }
def rdma1 (va : Nat) (key : BitVec 32) : RdmaReq := { qp := 3, rkey := key, va, len := 8, data := List.replicate 8 7 }
def peer1 (op : Nat) (src va : Nat) (data : Option (List PByte)) (signal : Bool) : PeerReq := { src, va, len := 8, data, signal, op, wide := true, val := 1, cmp := 2 }

theorem place_of {s : State} {a : Accessor} {va n c : Nat} {w : Bool} (h : (match walk s 1 va with
      | .ok l z x => decide (l.toNat / 2 ^ 7 % 4 = 0) && (!w || l.toNat.testBit 54) && decide (cellOf (hPhys (mkHandle (.ok l z x) 1 va) va) = some c) &&
          decide (attrAt s c = hFormat (mkHandle (.ok l z x) 1 va))
      | .no _ => false) = true) (h0 : s.mmu.tlbs = []) (h1 : permitAt s a 1 va w false = .yes ∧ (permit s a 1 va n w false).1 = .yes)
    (h2 : movingAt s 1 va = false ∧ heatOn s 1 = false) (h3 : s.mmu.pins = []) (h4 : 0 < n ∧ va % 4096 + n ≤ 4096 ∧ va < 2 ^ 52) : InboundPlace s a 1 va n c w := by
  cases e : walk s 1 va with
  | no k => rw [e] at h; cases h
  | ok l m b =>
    rw [e] at h; simp only [Bool.and_eq_true, Bool.or_eq_true, Bool.not_eq_true', decide_eq_true_eq] at h
    exact ⟨⟨l, m, b, e, h.1.1.1, fun hw => by simpa [hw] using h.1.1.2, h.1.2, h.2⟩, fun i e die _ _ f => by rw [h0] at f; (cases f), h2.2, h1, fun _ => h2.1,
      fun p hp => by rw [h3] at hp; (cases hp), h4.1, h4.2.1, h4.2.2, by decide⟩

theorem witness_InboundAccesses :
    (∀ b : Bool, ∃ s : State, s.mgmt.powered = b) ∧ (∃ s : State, s.mgmt.powered = true ∧ s.mgmt.ready = false) ∧
    (∀ mode va ws, (inbound1 mode va ws).mgmt.powered = true ∧ (inbound1 mode va ws).mgmt.ready = true ∧ (inbound1 mode va ws).fab.inbound = [] ∧
      NotSilent (inbound1 mode va ws) 9) ∧ (rdma1 0x20FF8 5).va % 8 = 0 ∧ (rdma1 0x20FF9 5).va % 8 ≠ 0 ∧
    (∀ p ∈ [53, 54, 55], AdmittedIn (inbound1 3 0 []) (fun e => AdmitsRdma e 5 0x20FF8 8 p) 1 ∧ AdmittedIn (inbound1 3 0 []) (fun e => AdmitsPeer e 9 0x20FF8 8 p) 1 ∧
      (∀ e ∈ (inbound1 3 0 []).mmu.inwin, ¬AdmitsRdma e.2 6 0x20FF8 8 p) ∧ ∀ e ∈ (inbound1 3 0 []).mmu.inwin, ¬AdmitsPeer e.2 8 0x20FF8 8 p) ∧
    (∀ w, InboundPlace (inbound1 3 0 []) .inbound 1 0x20FF8 8 (1073741824 + 0x20FF8) w) ∧ InboundPlace (inbound1 3 0 []) .inboundAtomic 1 0x20FF8 8 (1073741824 + 0x20FF8) true ∧
    InboundPlace (inbound1 0 0 []) .inbound 1 0x20FF8 8 (1073741824 + 0x20FF8) true ∧ (inbound1 3 0 []).dram.wf = true ∧ (inbound1 3 0 []).dram.pois = [] ∧ (∀ m, releaseHeld (inbound1 3 0 []) m = false) ∧
    (∃ m : Memory, m.pois.contains ((1073741824 + 0x20FF8) / 32) = true ∧ m.wf = true) ∧
    (∃ i d, regionAt (inbound1 3 0 []) 1 0x20FF8 = some (i, d) ∧ rMode d = 3) ∧ regionAt (inbound1 0 0 []) 1 0x20FF8 = some (0, region1 0) ∧ rMode (region1 0) = 0 ∧
    numberAt (inbound1 3 0x20FF8 (leBytes 8 1)).dram (1073741824 + 0x20FF8) 8 = 1 ∧
    (allDown (inbound1 3 0 []) 7 = true ∧ 7 ∉ (inbound1 3 0 []).fab.lost ∧ ∃ s : State, 7 ∈ s.fab.lost) ∧ State.reset.ranges = [] ∧
    (let i := inbound1 3 0x6000 (leBytes 32 (9 * 2 ^ 160)); let s := { i with mmu := { i.mmu with tlbs := hubTlb } }
     s.ranges = [{ va := 0x6000, len := 32, ctx := 1 }] ∧ (∀ w, HubLocal s engineKey 1 0x6000 32 (1073741824 + 0x6000) w) ∧ Clean s (1073741824 + 0x6000) 32 ∧
      fieldOf (numberAt s.dram (1073741824 + 0x6000) 32) 160 16 = 9 ∧
      (match hubWrite s .hub 1 0x6010 (clean (leBytes 8 (2 ^ 63))) true 4096 with | (_, .done) => true | _ => false) = true) := by
  refine ⟨fun b => ⟨{ State.reset with mgmt := { State.reset.mgmt with powered := b } }, rfl⟩, ⟨{ State.reset with mgmt := { State.reset.mgmt with powered := true, ready := false } }, rfl, rfl⟩,
    fun _ _ _ => ⟨rfl, rfl, rfl, rfl, nofun⟩, by decide, by decide, ?_, fun w => ?_, place_of (by decide +kernel) rfl (by decide +kernel) ⟨rfl, rfl⟩ rfl (by decide),
    place_of (by decide +kernel) rfl (by decide +kernel) ⟨rfl, rfl⟩ rfl (by decide), by decide +kernel, by decide +kernel, fun m => held1 m _ rfl, ⟨⟨[], [(1073741824 + 0x20FF8) / 32]⟩, by decide, by decide⟩,
    ⟨0, region1 3, by decide +kernel, by decide +kernel⟩, by decide +kernel, by decide +kernel, by decide +kernel, ⟨by decide +kernel, nofun, ⟨{ State.reset with fab := { State.reset.fab with lost := [7] } }, List.mem_singleton.2 rfl⟩⟩, rfl,
    ⟨rfl, fun w => ?_, fun _ _ => rfl, by decide +kernel, by decide +kernel⟩⟩
  · unfold AdmittedIn AdmitsRdma AdmitsPeer HoldsRange fieldOf
    decide +kernel
  · cases w <;> exact place_of (by decide +kernel) rfl (by decide +kernel) ⟨rfl, rfl⟩ rfl (by decide)
  · cases w <;> exact local_of (by decide +kernel)

/-- Ports 0 and 1 up; device 5 lies behind port 1, device 6 nowhere; a flit for a device. -/
def port1 (credits : Nat) : Port := { Port.reset with up := true, credits := Vector.replicate 8 credits }
def linked (p q : Port) : State :=
  { dev (core1 []) (wordOf .nop .s) with
    fab := { State.reset.fab with ports := [(0, p), (1, q)], routes := [(5, 2)], devid := 4 }, mgmt := { State.reset.mgmt with powered := true } }
def flitBody (dst : Nat) : List Byte := leBytes 2 dst ++ leBytes 2 9 ++ leBytes 228 0 ++ leBytes 3 1 ++ leBytes 17 0
def flit1 (dst : Nat) : List Byte := flitBody dst ++ leBytes 4 (crc32 (flitBody dst))

theorem witness_Links :
    (∀ p q, getPort (linked p q) 0 = p ∧ getPort (linked p q) 1 = q ∧ (linked p q).mgmt.powered = true ∧ NotSilent (linked p q) 9 ∧ (linked p q).fab.devid = 4) ∧
    ((port1 64).up = true ∧ (port1 64).lanes ≠ [] ∧ (port1 64).retrain = false ∧ (port1 64).rxAck = 0 ∧ Port.reset.up = false) ∧
    (∀ dst ∈ [4, 5, 6], flitOk (flit1 dst) = true ∧ flitField (flit1 dst) 232 3 = 1 ∧ (flitField (flit1 dst) 236 4).testBit 31 = false ∧ flitField (flit1 dst) 2 2 = 9 ∧
      flitField (flit1 dst) 0 2 = dst ∧ (flit1 dst).length = 256 ∧ flitField (flit1 dst) 4 1 / 32 = 0) ∧ flitOk [] = false ∧
    exitPort (linked (port1 64) (port1 64)) 5 = some 1 ∧ exitPort (linked (port1 64) (port1 64)) 6 = none ∧ maySend (port1 64) 0 = true ∧ maySend (port1 0) 0 = false ∧
    (∃ p : Port, p.nakSent = true ∧ p.up = true) ∧
    (∃ p : Port, p.up = true ∧ p.lanes ≠ [] ∧ p.retrain = false ∧ p.replaying = true ∧ unacked p 16777215 ≠ [] ∧ p.repair = some 5 ∧
      (∃ x ∈ p.replay, (5 + 16777216 - x.1) % 16777216 < 8388608) ∧ 1 ∈ p.failing ∧ 0 ∉ p.failing ∧ 1 - 0 ∈ p.failing ∧ ∃ l ∈ p.lanes, l ∉ p.failing) ∧
    (∃ p : Port, p.replay = [] ∧ p.repair = some 5 ∧ p.replaying = false ∧ p.failing = [0, 1] ∧ p.lanes = [0, 1] ∧ p.retrain = true) :=
  ⟨fun _ _ => ⟨rfl, rfl, rfl, ⟨rfl, nofun⟩, rfl⟩, ⟨rfl, nofun, rfl, rfl, rfl⟩, by decide +kernel, rfl, by decide +kernel, by decide +kernel, by decide, by decide,
    ⟨{ Port.reset with nakSent := true, up := true }, rfl, rfl⟩,
    ⟨{ Port.reset with up := true, replaying := true, replay := [(4, [])], repair := some 5, failing := [1] }, rfl, nofun, rfl, rfl, by decide, rfl, ⟨_, List.mem_singleton.2 rfl, by decide⟩,
      List.mem_singleton.2 rfl, by decide, List.mem_singleton.2 rfl, 0, List.mem_cons_self, by decide⟩,
    ⟨{ Port.reset with repair := some 5, failing := [0, 1], retrain := true }, rfl, rfl, rfl, rfl, rfl, rfl⟩⟩

/-- A device at whose program counter addi s1, s0, 5 stands, with the micro-operation addw w1, w0, 5, and its state as a step sees it. -/
def stepping (k : Core) (n : Nat) : State :=
  { codeAt [0x10040005] { k with pc := 0x1000 } (wordOf .nop .s) with turn := some n, agenda := [.perBankRefresh 0 0 0], wcs := [(0, 0x28840005)] }
def ticked (s : State) : State := { s with turn := none, time := s.time + 1, tstamp := s.tstamp + BitVec.ofNat 64 (Config.stepCycles s.time) }
def chosen (s : State) (n : Nat) : Option Turn := (turns (ticked s))[n % (turns (ticked s)).length]?
def issuing : Core := { core1 [] with iss := { Issue.reset with queues := vset (Vector.replicate 7 []) 0 [wordOf .nop .s] } }
def pushing : Core := { core1 [] with claim := some { w := wordOf .nop .q, q := 1, k := 63, image := [], d := 0 } }
def microing : Core := { core1 [] with wick := { Wick.reset with run := true, word := some (wordOf (.wstart 0 0) .s) } }
theorem witness_StepRuns :
    (∀ k n, (stepping k n).turn = some n) ∧
    (chosen (stepping issuing 0) 0 = some (.issue 0 .s) ∧ vget (getCore (ticked (stepping issuing 0)) 0).iss.queues (engIx .s) [] = [wordOf .nop .s]) ∧
    (chosen (stepping (core1 []) 0) 0 = some (.steer 0) ∧ 0 / (turns (ticked (stepping (core1 []) 0))).length % 2 = 0 ∧
      (∃ u g ws, fetchGroup (ticked (stepping (core1 []) 0)) 0 0x1000 = (u, .ok (g, ws)) ∧ g.deps = [] ∧ g.instr = .addi 1 0 5 ∧ Idle (getCore u 0) ∧ (g.instr = .endTask → othersRetired (getCore u 0) = true) ∧
        (getCore u 0).iss.trap = none ∧ (getCore u 0).wick.run = false ∧ (getCore u 0).iss.seq = (getCore (ticked (stepping (core1 []) 0)) 0).iss.seq ∧
        vget (getCore u 0).sys.skip (engIx (headEngine (lget ws g.head 0))) [] = [])) ∧
    (chosen (stepping microing 0) 0 = some (.wick 0) ∧ (decodeMicro (Map.get 0 (stepping microing 0).wcs 0).toNat).toOption = some (.addwImm 1 0 5)) ∧
    (chosen (stepping pushing 2) 2 = some (.event 0) ∧ (stepping pushing 2).agenda[0]? = some (.perBankRefresh 0 0 0)) ∧
    chosen (stepping pushing 1) 1 = some (.spont (.qpushPublish 0)) := by
  refine ⟨fun _ _ => rfl, ⟨by decide +kernel, by decide +kernel⟩, ⟨by decide +kernel, by decide +kernel, ?_⟩, ⟨by decide +kernel, by decide +kernel⟩, ⟨by decide +kernel, rfl⟩, by decide +kernel⟩
  have h : (match (fetchGroup (ticked (stepping (core1 []) 0)) 0 0x1000).2 with
      | .ok (g, ws) => decide (g.deps = []) && decide (g.instr = .addi 1 0 5) && decide (engIx (headEngine (lget ws g.head 0)) = 0)
      | _ => false) = true := by decide +kernel
  have hc : getCore (fetchGroup (ticked (stepping (core1 []) 0)) 0 0x1000).1 0 = { core1 [] with pc := 0x1000, tlb := (getCore (fetchGroup (ticked (stepping (core1 []) 0)) 0 0x1000).1 0).tlb } := by
    decide +kernel
  generalize hu : fetchGroup (ticked (stepping (core1 []) 0)) 0 0x1000 = x at h hc
  obtain ⟨u, y⟩ := x
  cases y with
  | wait => cases h
  | trap _ _ _ => cases h
  | ok y =>
    obtain ⟨g, ws⟩ := y
    simp only [Bool.and_eq_true, decide_eq_true_eq] at h
    refine ⟨u, g, ws, rfl, h.1.1, h.1.2, ?_, fun e => absurd (h.1.2.symm.trans e) nofun, ?_, ?_, ?_, ?_⟩
    · rw [hc]; exact ⟨fun e => by show vget (Vector.replicate 7 []) e [] = []; unfold vget; rw [Vector.getElem?_replicate]; split <;> rfl, rfl, ⟨rfl, rfl⟩, nofun⟩
    all_goals (rw [hc]; try rfl)
    rw [h.2]; rfl

/-- R216: an instruction, its references and the words after it. -/
theorem witness_DecodeEncode : wellFormed (.vadd 31 30 29 7 0 2 0) = true ∧ encodeHead (.vadd 31 30 29 7 0 2 0) ≠ none ∧ RefsLegal [(0, 1), (6, 31), (2, 1)] ∧
    encodeHead (.addwImm 15 14 0x3FFFF) = none ∧ encodeMicro (.addwImm 15 14 0x3FFFF) ≠ none :=
  by
  refine ⟨by decide, by decide, ⟨by decide, fun r h => ?_⟩, by decide, by decide⟩
  simp only [List.mem_cons, List.not_mem_nil, or_false] at h
  rcases h with rfl | rfl | rfl <;> decide

theorem witness_StepKeepsMemory : Canonical State.reset ∧ Canonical (State.reset.withFetchWord 32 0x10040005) ∧
    (match step (State.reset.withFetchWord 32 0x10040005) with | .next _ => true | _ => false) = true :=
  ⟨⟨rfl, rfl⟩, ⟨by decide +kernel, by decide +kernel⟩, by decide +kernel⟩

end Sys2Proof.Tests
end

section
/-! The fields of R23, packed into a handle and read back. -/

namespace Sys2Proof.Machine

theorem bits_lt (x lo n : Nat) : bits x lo n < 2 ^ n := Nat.mod_lt _ (Nat.two_pow_pos n)

theorem bits_zero_eq {x n : Nat} (h : x < 2 ^ n) : bits x 0 n = x := by simp [bits, Nat.mod_eq_of_lt h]

theorem bit_eq_bits (x i : Nat) : bit x i = (bits x i 1 == 1) := by simp [bit, bits]

theorem bit_eq_testBit (x i : Nat) : bit x i = x.testBit i := by
  rw [bit, Nat.testBit_eq_decide_div_mod_eq]; rfl

/-- A one-bit field of a word is that bit of the word. -/
theorem bits_one_eq_getLsbD {w : Nat} (x : BitVec w) (i : Nat) : (bits x.toNat i 1 == 1) = x.getLsbD i := by
  rw [← bit_eq_bits, bit_eq_testBit, BitVec.testBit_toNat]

/-- The values of the fields of R23 below V. -/
structure HandleParts where
  res    : Nat
  size   : Nat
  gran   : Nat
  tol    : Nat
  tcls   : Nat
  codec  : Nat
  wr     : Nat
  eo     : Nat
  pmode  : Nat
  stack  : Nat
  cause  : Nat
  ctx    : Nat
  origin : Nat
  frame  : Nat

/-- Every field fits its place. -/
structure HandleParts.Fits (p : HandleParts) : Prop where
  res    : p.res < 4
  size   : p.size < 4
  gran   : p.gran < 4
  tol    : p.tol < 2
  tcls   : p.tcls < 8
  codec  : p.codec < 4
  wr     : p.wr < 2
  eo     : p.eo < 2
  pmode  : p.pmode < 2
  stack  : p.stack < 16
  cause  : p.cause < 4
  ctx    : p.ctx < 256
  origin : p.origin < 2 ^ 52
  frame  : p.frame < 2 ^ 32

/-- The number of a handle with V set: each field at its place (R23). -/
def HandleParts.word (p : HandleParts) : Nat :=
  2 ^ 127 + p.res * 2 ^ 125 + p.size * 2 ^ 123 + p.gran * 2 ^ 121 + p.tol * 2 ^ 120 + p.tcls * 2 ^ 117 + p.codec * 2 ^ 115
    + p.wr * 2 ^ 114 + p.eo * 2 ^ 113 + p.pmode * 2 ^ 112 + p.stack * 2 ^ 108 + p.cause * 2 ^ 106 + p.ctx * 2 ^ 84
    + p.origin * 2 ^ 32 + p.frame

theorem HandleParts.bits_word {p : HandleParts} (h : p.Fits) :
    bits p.word 127 1 = 1 ∧ bits p.word 125 2 = p.res ∧ bits p.word 123 2 = p.size ∧ bits p.word 121 2 = p.gran ∧
    bits p.word 120 1 = p.tol ∧ bits p.word 117 3 = p.tcls ∧ bits p.word 115 2 = p.codec ∧ bits p.word 114 1 = p.wr ∧
    bits p.word 113 1 = p.eo ∧ bits p.word 112 1 = p.pmode ∧ bits p.word 108 4 = p.stack ∧ bits p.word 106 2 = p.cause ∧
    bits p.word 84 8 = p.ctx ∧ bits p.word 32 52 = p.origin ∧ bits p.word 0 32 = p.frame ∧ p.word < 2 ^ 128 := by
  obtain ⟨_, _, _, _, _, _, _, _, _, _, _, _, _, _⟩ := h
  unfold bits word
  refine ⟨?_, ?_, ?_, ?_, ?_, ?_, ?_, ?_, ?_, ?_, ?_, ?_, ?_, ?_, ?_, ?_⟩ <;> omega

/-- What the fields of a handle made of parts read as. -/
theorem HandleParts.read {p : HandleParts} (h : p.Fits) {x : BitVec 128} (hx : x = BitVec.ofNat 128 p.word) :
    hV x = true ∧ hRes x = p.res ∧ hSize x = BitVec.ofNat 2 p.size ∧
    hFormat x = { gran := BitVec.ofNat 2 p.gran, tol := p.tol == 1, tcls := BitVec.ofNat 3 p.tcls } ∧
    hCodec x = p.codec ∧ hWr x = (p.wr == 1) ∧ hEo x = (p.eo == 1) ∧ hPmode x = (p.pmode == 1) ∧ hStack x = p.stack ∧
    hCause x = p.cause ∧ hCtx x = p.ctx ∧ hOrigin x = p.origin ∧ hFrame x = p.frame := by
  obtain ⟨hv, hres, hsize, hgran, htol, htcls, hcodec, hwr, heo, hpmode, hstack, hcause, hctx, horigin, hframe, hlt⟩ := bits_word h
  have hn : x.toNat = p.word := by rw [hx, BitVec.toNat_ofNat, Nat.mod_eq_of_lt hlt]
  simp only [hV, hRes, hSize, hFormat, hCodec, hWr, hEo, hPmode, hStack, hCause, hCtx, hOrigin, hFrame, hn, bit_eq_bits, hv, hres,
    hsize, hgran, htol, htcls, hcodec, hwr, heo, hpmode, hstack, hcause, hctx, horigin, hframe, beq_self_eq_true, and_self]

/-- The parts of the handle of a leaf (R23). -/
def leafParts (leaf : W64) (size : BitVec 2) (ctx va : Nat) : HandleParts :=
  { res := bits leaf.toNat 7 2, size := size.toNat, gran := bits leaf.toNat 14 2, tol := bits leaf.toNat 48 1
    tcls := bits leaf.toNat 49 3, codec := bits leaf.toNat 52 2, wr := bits leaf.toNat 54 1, eo := bits leaf.toNat 55 1
    pmode := bits leaf.toNat 13 1, stack := bits leaf.toNat 9 4, cause := 0, ctx := bits ctx 0 8, origin := bits va 0 52
    frame := bits leaf.toNat 16 32 }

/-- The parts of the handle of a page that is not present (R24). -/
def absentParts (cause ctx va : Nat) : HandleParts :=
  { res := 3, size := 0, gran := 0, tol := 0, tcls := 0, codec := 0, wr := 0, eo := 0, pmode := 0, stack := 0, cause
    ctx := bits ctx 0 8, origin := bits va 0 52, frame := 0 }

theorem leafParts_fits (leaf : W64) (size : BitVec 2) (ctx va : Nat) : (leafParts leaf size ctx va).Fits where
  res := bits_lt _ 7 2
  size := size.isLt
  gran := bits_lt _ 14 2
  tol := bits_lt _ 48 1
  tcls := bits_lt _ 49 3
  codec := bits_lt _ 52 2
  wr := bits_lt _ 54 1
  eo := bits_lt _ 55 1
  pmode := bits_lt _ 13 1
  stack := bits_lt _ 9 4
  cause := Nat.zero_lt_succ 3
  ctx := bits_lt _ 0 8
  origin := bits_lt _ 0 52
  frame := bits_lt _ 16 32

theorem absentParts_fits {cause : Nat} (h : cause < 4) (ctx va : Nat) : (absentParts cause ctx va).Fits := by
  have hctx := bits_lt ctx 0 8
  have horigin := bits_lt va 0 52
  constructor <;> simp only [absentParts] <;> omega

theorem mkHandle_ok (leaf : W64) (size : BitVec 2) (addr ctx va : Nat) :
    mkHandle (.ok leaf size addr) ctx va = BitVec.ofNat 128 (leafParts leaf size ctx va).word := by
  simp only [mkHandle, leafParts, HandleParts.word]
  exact congrArg _ (by omega)

theorem mkHandle_no (cause ctx va : Nat) : mkHandle (.no cause) ctx va = BitVec.ofNat 128 (absentParts cause ctx va).word := by
  simp only [mkHandle, absentParts, HandleParts.word]
  exact congrArg _ (by omega)

end Sys2Proof.Machine

open Sys2Proof Sys2Proof.Machine

/-- Settles O9: each field of a handle stands at its own place of one number. -/
theorem handleFields : Obligations.HandleFields := by
  intro leaf size addr ctx va cause hctx hva hcause
  have hc : bits ctx 0 8 = ctx := bits_zero_eq hctx
  have ho : bits va 0 52 = va := bits_zero_eq hva
  obtain ⟨v, res, size', format, codec, wr, eo, pmode, stack, cause', ctx', origin, frame⟩ :=
    HandleParts.read (leafParts_fits leaf size ctx va) (mkHandle_ok leaf size addr ctx va)
  obtain ⟨v₀, res₀, size₀, _, _, wr₀, eo₀, _, _, cause₀, ctx₀, origin₀, frame₀⟩ :=
    HandleParts.read (absentParts_fits hcause ctx va) (mkHandle_no cause ctx va)
  constructor
  · simp [v, res, size', format, codec, wr, eo, pmode, stack, cause', ctx', origin, frame, leafParts, hc, ho, bits_one_eq_getLsbD]
  · simp [v₀, res₀, size₀, wr₀, eo₀, cause₀, ctx₀, origin₀, frame₀, absentParts, hc, ho]
end

section
/-! The checks of R26 and the accesses through a handle that they stop. -/

namespace Sys2Proof.Machine

/-! ### What a word reads of a handle register -/

/-- A word that sees every result that changed a value reads the value as it stands (R96). -/
theorem olderSeen_settled {α : Type} {w : QWord} {f : Old → Option α} {ps : List Past}
    (h : ∀ p ∈ ps, ∀ b, f p.old = some b → pastSeen w p = true) (tag : Nat) (s : State) (a : α) :
    olderSeen w tag f ps s a = (s, a) := by
  induction ps with
  | nil => rfl
  | cons p ps ih =>
    rw [olderSeen]
    split
    · exact ih fun q hq => h q (List.mem_cons_of_mem _ hq)
    · next b hb => rw [if_pos (h p (List.mem_cons_self ..) b hb)]

theorem olderHere_settled {α : Type} {s : State} {k : Core} {w : QWord} (hw : s.word = some w) {f : Old → Option α}
    (h : ∀ p ∈ k.iss.past, ∀ b, f p.old = some b → pastSeen w p = true) (tag : Nat) (a : α) : olderHere s k tag f a = (s, a) := by
  unfold olderHere
  rw [hw]
  dsimp only
  split
  · rfl
  · exact olderSeen_settled h tag s a

/-- A fold whose steps change nothing at the entries of the list. -/
theorem foldl_fixed_on {α β : Type} {f : β → α → β} {l : List α} (h : ∀ b, ∀ a ∈ l, f b a = b) (b : β) : l.foldl f b = b := by
  induction l with
  | nil => rfl
  | cons a l ih => rw [List.foldl_cons, h b a (List.mem_cons_self ..), ih fun b x hx => h b x (List.mem_cons_of_mem _ hx)]

/-- Of a handle register with no xlat in flight a word reads what stands there (R25). -/
theorem handleSeen_eq {s : State} {w : QWord} {hn : BitVec 4} {x : BitVec 128} (h : HandleIs s w hn x) :
    handleSeen s hn = (s, some x, false) := by
  obtain ⟨hw, -, hx, hflight, hpast⟩ := h
  unfold handleSeen
  simp only [hw, hx]
  rw [olderHere_settled hw]
  · exact foldl_fixed_on (fun r p hp => if_pos (hflight p hp)) _
  · intro p hp v hv
    split at hv
    · next r u heq =>
      split at hv
      · next hr => exact hpast p hp u (by rw [heq, hr])
      · cases hv
    · cases hv

/-! ### The checks in their order -/

section
variable (s : State) (acc : Accessor) (hn : BitVec 4) {x : BitVec 128} {o n : Nat} (write : Bool) {align : Nat}

theorem devCheck_revoked (hv : hV x = false) :
    devCheck s acc hn x o n write align = .trap tHandleRevoked (BitVec.ofNat 64 (hOrigin x + o)) hn.toNat := by
  simp [devCheck, hv]

theorem devCheck_absent (hv : hV x = true) (hr : hRes x = 3) :
    devCheck s acc hn x o n write align = .trap tNotPresent (BitVec.ofNat 64 (hOrigin x + o)) (hCause x) := by
  simp [devCheck, hv, hr]

theorem devCheck_beyond (hv : hV x = true) (hr : hRes x ≠ 3) (hb : hBase x + pageSize (hSize x) < hOrigin x + o + n) :
    devCheck s acc hn x o n write align = .trap tHandleRange (BitVec.ofNat 64 (hOrigin x + o)) hn.toNat := by
  simp [devCheck, hv, hr, hInRange, Nat.not_le.mpr hb]

variable (hv : hV x = true) (hr : hRes x ≠ 3) (hb : hOrigin x + o + n ≤ hBase x + pageSize (hSize x))
include hv hr hb

theorem devCheck_owned (he : (hEo x || (write && !hWr x)) = true) :
    devCheck s acc hn x o n write align = .trap tOwnership (BitVec.ofNat 64 (hOrigin x + o)) 0 := by
  simp [devCheck, hv, hr, hInRange, hb, he]

theorem devCheck_misaligned (he : hEo x = false) (hw : hWr x = true) (ha : (hOrigin x + o) % align ≠ 0) :
    devCheck s acc hn x o n write align = .trap tAlign (BitVec.ofNat 64 (hOrigin x + o)) 0 := by
  simp [devCheck, hv, hr, hInRange, hb, he, hw, aligned, ha]

theorem devCheck_refused (he : hEo x = false) (hw : hWr x = true) (ha : (hOrigin x + o) % align = 0) {a : Nat}
    (hp : permit s acc (hCtx x) (hOrigin x + o) n write true = (.no, a)) :
    devCheck s acc hn x o n write align = .trap tOwnership (BitVec.ofNat 64 a) 0 := by
  simp [devCheck, hv, hr, hInRange, hb, he, hw, aligned, ha, hp]

end

/-! ### A load or a store that a check stops -/

section
variable {s : State} {w : QWord} {hn : BitVec 4} {x : BitVec 128} (h : HandleIs s w hn x) (he : w.origin ≠ .emitted)
  (ht : TrapReady (here s) w.seq) (d b : BitVec 5) (wd : BitVec 2) {code : Nat} {a : W64} {detail : Nat}
include h he ht

theorem ldh_traps (hd : detail < 2 ^ 32)
    (hc : devCheck s (.plain s.core) hn x (sreg (here s) b).toNat (2 ^ wd.toNat) false (2 ^ wd.toNat) = .trap code a detail) :
    Traps s w (exec (.ldh d hn b wd) s) code a detail := by
  obtain ⟨hw, hheld, -⟩ := id h
  have hload : loadHandle s d hn (sreg (here s) b).toNat (2 ^ wd.toNat) = raise s code a detail := by
    simp only [loadHandle, handleSeen_eq h, hw, Option.getD_some, liveHandle, hheld, Bool.false_eq_true, if_false, hc]
  exact ⟨_, congrArg Host.Outcome.next hload, raise_taken hw he ht code a detail hd⟩

theorem sth_traps (hd : detail < 2 ^ 32)
    (hc : devCheck s (.plain s.core) hn x (sreg (here s) b).toNat (2 ^ wd.toNat) true (2 ^ wd.toNat) = .trap code a detail) :
    Traps s w (exec (.sth d hn b wd) s) code a detail := by
  obtain ⟨hw, hheld, -⟩ := id h
  have hstore : storeHandle s d hn (sreg (here s) b).toNat (2 ^ wd.toNat) = raise s code a detail := by
    simp only [storeHandle, handleSeen_eq h, hw, liveHandle, hheld, Bool.false_eq_true, if_false, hc]
  exact ⟨_, congrArg Host.Outcome.next hstore, raise_taken hw he ht code a detail hd⟩

/-- A check that stops loads and stores alike stops both. -/
theorem access_traps (hd : detail < 2 ^ 32)
    (hc : ∀ write, devCheck s (.plain s.core) hn x (sreg (here s) b).toNat (2 ^ wd.toNat) write (2 ^ wd.toNat) = .trap code a detail) :
    Traps s w (exec (.ldh d hn b wd) s) code a detail ∧ Traps s w (exec (.sth d hn b wd) s) code a detail :=
  ⟨ldh_traps h he ht d b wd hd (hc false), sth_traps h he ht d b wd hd (hc true)⟩

end

theorem handle_lt (hn : BitVec 4) : hn.toNat < 2 ^ 32 := Nat.lt_trans hn.isLt (by decide)

theorem hCause_lt (x : BitVec 128) : hCause x < 2 ^ 32 := Nat.lt_trans (bits_lt _ 106 2) (by decide)

end Sys2Proof.Machine

open Sys2Proof Sys2Proof.Machine

/-- Settles O6: each check of R26 that fails is the first that fails, and the trap is taken at once. -/
theorem handleChecks : Obligations.HandleChecks := by
  intro s w d b hn wd x h he ht
  dsimp only
  have both {code : Nat} {a : W64} {detail : Nat} := access_traps (code := code) (a := a) (detail := detail) h he ht d b wd
  refine ⟨fun hv => ?_, fun hv hr => ?_, fun hv hr hb => ?_, fun hv hr hb => ⟨fun ho => ?_, fun ho hw => ?_, fun ho hw ha => ?_,
    fun ho hw ha a => ⟨fun hp => ?_, fun hp => ?_⟩⟩⟩
  · exact both (handle_lt hn) fun write => devCheck_revoked s _ hn write hv
  · exact both (hCause_lt x) fun write => devCheck_absent s _ hn write hv hr
  · exact both (handle_lt hn) fun write => devCheck_beyond s _ hn write hv hr hb
  · exact both (by decide) fun write => devCheck_owned s _ hn write hv hr hb (by simp [ho])
  · exact sth_traps h he ht d b wd (by decide) (devCheck_owned s _ hn true hv hr hb (by simp [hw]))
  · exact both (by decide) fun write => devCheck_misaligned s _ hn write hv hr hb ho hw ha
  · exact ldh_traps h he ht d b wd (by decide) (devCheck_refused s _ hn false hv hr hb ho hw ha hp)
  · exact sth_traps h he ht d b wd (by decide) (devCheck_refused s _ hn true hv hr hb ho hw ha hp)
end

section
/-! The management registers (R223, R249): what a sysw in handler mode does with each. -/

namespace Sys2Proof.Machine

/-- In handler mode a sysw of a management register is the register's own rule. -/
theorem sysw_mgmt {s : State} (h : (here s).handler = true) (a : BitVec 5) (x : BitVec 12) (hx : 256 ≤ x.toNat) :
    exec (.sysw a x) s = .next (writeMgmt s x.toNat (sreg (here s) a)) := by
  show Host.Outcome.next (writeSys s x.toNat (sreg (here s) a)) = _
  congr 1
  generalize x.toNat = n at hx
  unfold writeSys
  split
  · omega
  · omega
  · omega
  · simp [h, hx]

/-- A sysw that changes management registers and nothing else. -/
theorem sysw_writes {s : State} {w : QWord} (hw : s.word = some w) (h : (here s).handler = true) {a : BitVec 5} (x : BitVec 12)
    (hx : 256 ≤ x.toNat) (f : MReg → MReg) (hm : writeMgmt s x.toNat (sreg (here s) a) = retire (onRegs s f)) :
    WritesMgmt s (exec (.sysw a x) s) (f (here s).mreg) := by
  rw [sysw_mgmt h a x hx, hm]
  exact ⟨_, rfl, retire_ends s hw fun k => { k with mreg := f k.mreg }⟩

/-- A sysw whose GO starts an operation. -/
theorem sysw_starts {s : State} {w : QWord} (hw : s.word = some w) (h : (here s).handler = true) {a : BitVec 5} (x : BitVec 12)
    (hx : 256 ≤ x.toNat) (f : MReg → MReg) {e : Event}
    (hm : writeMgmt s x.toNat (sreg (here s) a) = due (retire (onRegs s f)) [e]) :
    StartsOp s (exec (.sysw a x) s) (f (here s).mreg) e := by
  rw [sysw_mgmt h a x hx, hm]
  exact ⟨_, rfl, retire_ends s hw fun k => { k with mreg := f k.mreg }⟩

/-- The number of a field of at most 32 bits with one bit set above it. -/
theorem toNat_field_go {n : Nat} (c : BitVec n) (hn : n ≤ 32) {v k : W64} {b : Nat} (hv : v = c.setWidth 64 + k) (hk : k.toNat = b)
    (hb : b < 2 ^ 32) : v.toNat = c.toNat + b := by
  have hc : c.toNat < 2 ^ 32 := Nat.lt_of_lt_of_le c.isLt (Nat.pow_le_pow_right (by decide) hn)
  rw [hv, BitVec.toNat_add, BitVec.toNat_setWidth, hk]
  omega

/-! ### The control registers, where GO is legal and nothing is in progress -/

/-- SDCTL (R27). -/
theorem writeSdctl_go {s : State} {n : Nat} (c : BitVec 8) (hn : n = c.toNat + 256) (hb : (here s).mreg.sdBusy = false) (hs : shootCount s < 16) :
    writeSdctl s n =
      due (retire (onRegs s fun m => { m with sdctl := c.setWidth 64, sdBusy := true }))
        [.shootdownStart { src := .core s.core, ctx := c.toNat, vpn := (here s).mreg.sdva.toNat / 65536 % 2 ^ 36
                           units := (here s).mreg.sdlen.toNat % 2 ^ 25 }] := by
  have hc := c.isLt
  have h1 : bits n 10 54 = 0 := by unfold bits; omega
  have h2 : bits n 0 8 = c.toNat := by unfold bits; omega
  have h3 : bit n 8 = true := by rw [bit, beq_iff_eq]; omega
  have h4 : bits (here s).mreg.sdva.toNat 16 36 = (here s).mreg.sdva.toNat / 65536 % 2 ^ 36 := rfl
  have h5 : bits (here s).mreg.sdlen.toNat 0 25 = (here s).mreg.sdlen.toNat % 2 ^ 25 := by simp [bits]
  simp [writeSdctl, h1, h2, h3, h4, h5, hb, Nat.not_le.mpr hs]

/-- RGCTL (R101): a read. -/
theorem writeRgctl_read {s : State} {n : Nat} (i : BitVec 12) (hn : n = i.toNat + 4096) (hb : (here s).mreg.rgBusy = false) :
    writeRgctl s n =
      due (retire (onRegs s fun m => { m with rgctl := i.setWidth 64, rgBusy := true })) [.regionDescriptorRead s.core i.toNat] := by
  have hi := i.isLt
  have h1 : bits n 15 49 = 0 := by unfold bits; omega
  have h2 : bits n 0 12 = i.toNat := by unfold bits; omega
  have h3 : bit n 12 = true := by rw [bit, beq_iff_eq]; omega
  have h4 : bit n 13 = false := by rw [bit, beq_eq_false_iff_ne]; omega
  simp [writeRgctl, h1, h2, h3, h4, hb]

/-- RGCTL (R101): a legal write of a descriptor that no binding holds. -/
theorem writeRgctl_go {s : State} {n : Nat} (i : BitVec 12) (hn : n = i.toNat + 8192) (hb : (here s).mreg.rgBusy = false)
    (hl : regionLegal s i.toNat { w0 := (here s).mreg.rglo, w1 := (here s).mreg.rghi } = true) (hf : bindersOf s i.toNat = []) :
    writeRgctl s n =
      due (retire (onRegs s fun m => { m with rgctl := i.setWidth 64, rgBusy := true }))
        [.regionDescriptorWrite s.core i.toNat (here s).mreg.rglo (here s).mreg.rghi] := by
  have hi := i.isLt
  have h1 : bits n 15 49 = 0 := by unfold bits; omega
  have h2 : bits n 0 12 = i.toNat := by unfold bits; omega
  have h3 : bit n 12 = false := by rw [bit, beq_eq_false_iff_ne]; omega
  have h4 : bit n 13 = true := by rw [bit, beq_iff_eq]; omega
  simp [writeRgctl, h1, h2, h3, h4, hb, hl, hf]

/-- QCTL (R139): a CREATE. -/
theorem writeQctl_create {s : State} {n : Nat} (q : BitVec 12) (hn : n = q.toNat + 2 ^ 30) (hb : (here s).mreg.qBusy = false) :
    writeQctl s n =
      due (retire (onRegs s fun m => { m with qctl := q.setWidth 64, qBusy := true }))
        [.queueCreate { src := .core s.core, ctx := taskCtx (here s), qid := q.toNat, arg := (here s).mreg.qarg }] := by
  have hq := q.isLt
  have h1 : bits n 32 32 = 0 := by unfold bits; omega
  have h2 : bits n 12 15 = 0 := by unfold bits; omega
  have h3 : bits n 27 3 = 0 := by unfold bits; omega
  have h4 : bits n 0 12 = q.toNat := by unfold bits; omega
  have h5 : bit n 30 = true := by rw [bit, beq_iff_eq]; omega
  simp [writeQctl, h1, h2, h3, h4, h5, hb, queueOpEvent]

/-- HTCTL (R32): a read of a context entry. -/
theorem writeHtctl_read {s : State} {n : Nat} (i : BitVec 8) (hn : n = i.toNat + 8192) (hb : (here s).mreg.htBusy = false) :
    writeHtctl s n =
      due (retire (onRegs s fun m => { m with htctl := i.setWidth 64, htBusy := true }))
        [.hubTableRead { src := .core s.core, window := false, idx := i.toNat, words := (here s).mreg.htd.toList }] := by
  have hi := i.isLt
  have h1 : bits n 16 48 = 0 := by unfold bits; omega
  have h2 : bits n 10 2 = 0 := by unfold bits; omega
  have h3 : bits n 0 10 = i.toNat := by unfold bits; omega
  have h4 : bit n 12 = false := by rw [bit, beq_eq_false_iff_ne]; omega
  have h5 : bit n 13 = true := by rw [bit, beq_iff_eq]; omega
  have h6 : bit n 14 = false := by rw [bit, beq_eq_false_iff_ne]; omega
  simp [writeHtctl, h1, h2, h3, h4, h5, h6, hb, b2n, Nat.not_le.mpr hi]

end Sys2Proof.Machine

open Sys2Proof Sys2Proof.Machine

/-- Settles O12: each management register has its own rule, and a legal GO makes its operation due. -/
theorem managementWrite : Obligations.ManagementWrite := by
  intro s w a hw hh
  dsimp only
  have takes := @sysw_writes s w hw hh a
  have starts := @sysw_starts s w hw hh a
  generalize sreg (here s) a = v at takes starts ⊢
  refine ⟨fun h1 h2 => ?_, fun h1 => ?_, fun c hc hb hs => ?_, fun h1 h2 => ?_, fun h1 => ?_, ?_, ?_,
    fun i hb => ⟨fun hi => ?_, fun hi hl hf => ?_⟩, ?_, ?_, ?_, ?_, fun q hq hb => ?_, fun i hi hb => ?_⟩
  · have h : bits v.toNat 52 12 = 0 ∧ bits v.toNat 0 16 = 0 := by unfold bits; omega
    exact takes 0x100 (by decide) (fun m => { m with sdva := v }) (if_neg (by simp [h]))
  · have h : bits v.toNat 25 39 = 0 := by unfold bits; omega
    exact takes 0x101 (by decide) (fun m => { m with sdlen := v }) (if_neg (by simp [h]))
  · exact starts 0x102 (by decide) (fun m => { m with sdctl := c.setWidth 64, sdBusy := true })
      (writeSdctl_go c (n := v.toNat) (toNat_field_go c (by decide) hc rfl (by decide)) hb hs)
  · have h : bits v.toNat 48 16 = 0 ∧ bits v.toNat 0 16 = 0 := by unfold bits; omega
    exact takes 0x108 (by decide) (fun m => { m with fmtbase := v }) (if_neg (by simp [h]))
  · have h : bits v.toNat 25 39 = 0 := by unfold bits; omega
    exact takes 0x109 (by decide) (fun m => { m with fmtlen := v }) (if_neg (by simp [h]))
  · exact takes 0x110 (by decide) (fun m => { m with rglo := v }) rfl
  · exact takes 0x111 (by decide) (fun m => { m with rghi := v }) rfl
  · exact starts 0x112 (by decide) (fun m => { m with rgctl := i.setWidth 64, rgBusy := true })
      (writeRgctl_read i (n := v.toNat) (toNat_field_go i (by decide) hi rfl (by decide)) hb)
  · exact starts 0x112 (by decide) (fun m => { m with rgctl := i.setWidth 64, rgBusy := true })
      (writeRgctl_go i (n := v.toNat) (toNat_field_go i (by decide) hi rfl (by decide)) hb hl hf)
  · exact takes 0x120 (by decide) (fun m => { m with pgopva := v }) rfl
  · exact takes 0x121 (by decide) (fun m => { m with pgopdst := v }) rfl
  · exact takes 0x122 (by decide) (fun m => { m with pgopca := v }) rfl
  · exact takes 0x130 (by decide) (fun m => { m with qarg := v }) rfl
  · exact starts 0x131 (by decide) (fun m => { m with qctl := q.setWidth 64, qBusy := true })
      (writeQctl_create q (n := v.toNat) (toNat_field_go q (by decide) hq rfl (by decide)) hb)
  · exact starts 0x140 (by decide) (fun m => { m with htctl := i.setWidth 64, htBusy := true })
      (writeHtctl_read i (n := v.toNat) (toNat_field_go i (by decide) hi rfl (by decide)) hb)
end

section
/-! What translation leaves as it was: table updates change the device memory alone, a translation also what the TLBs hold. -/

namespace Sys2Proof.Machine

/-- A fold whose steps change one field of the state changes that field alone. -/
theorem foldl_changes_dram {α : Type} {f : State × α → β → State × α}
    (hf : ∀ r q, ∃ m, (f r q).1 = { r.1 with dram := m }) (l : List β) (r : State × α) : ∃ m, (l.foldl f r).1 = { r.1 with dram := m } := by
  induction l generalizing r with
  | nil => exact ⟨r.1.dram, rfl⟩
  | cons q l ih =>
    obtain ⟨m, hm⟩ := hf r q
    obtain ⟨m', hm'⟩ := ih (f r q)
    exact ⟨m', by rw [List.foldl_cons, hm', hm]⟩

/-- A write by hardware that follows physical addresses changes the device memory alone (R10). -/
theorem physWrite_frame (s : State) (pa : Nat) (bs : List PByte) : physWrite s pa bs = { s with dram := (physWrite s pa bs).dram } := by
  obtain ⟨m, hm⟩ : ∃ m, physWrite s pa bs = { s with dram := m } := by
    unfold physWrite
    refine foldl_changes_dram (fun r q => ?_) _ (s, bs)
    split
    · exact ⟨r.1.dram, rfl⟩
    · exact ⟨_, rfl⟩
  rw [hm]

theorem leafUpdate_frame (s : State) (addr lo n : Nat) (f : Nat → Nat) :
    leafUpdate s addr lo n f = { s with dram := (leafUpdate s addr lo n f).dram } := by
  unfold leafUpdate
  dsimp only
  split
  · rfl
  · exact physWrite_frame ..

theorem heatUp_frame (s : State) (addr lo : Nat) : heatUp s addr lo = { s with dram := (heatUp s addr lo).dram } := leafUpdate_frame ..

/-- A use of a TLB entry changes the TLBs and counts heat in the leaf (R20). -/
theorem seen_frame (s : State) (die ctx : Nat) (e : TlbE) (intent : BitVec 2) :
    ∃ tlbs dram, seen s die ctx e intent = { s with mmu := { s.mmu with tlbs }, dram } := by
  unfold seen
  dsimp only
  split <;> split
  · exact ⟨_, _, by rw [heatUp_frame, heatUp_frame]⟩
  · exact ⟨_, _, by rw [heatUp_frame]⟩
  · exact ⟨_, _, by rw [heatUp_frame]⟩
  · exact ⟨_, _, rfl⟩

/-! ### A translation of a page that no TLB holds -/

theorem walk_noncanonical (s : State) (ctx : Nat) {va : Nat} (h : 4503599627370496 ≤ va) : walk s ctx va = .no 3 := by
  rw [walk, if_pos h]

/-- A page that the die's TLB does not hold: its translation is what the walk gives (R22). -/
theorem dieTranslate_walks {s : State} {die ctx va : Nat} (h : tlbFind (Map.get [] s.mmu.tlbs die) ctx va = none) (intent : BitVec 2) :
    ∃ tlbs dram, dieTranslate s die ctx va intent = ({ s with mmu := { s.mmu with tlbs }, dram }, walk s ctx va) := by
  unfold dieTranslate
  split
  · next hva => exact ⟨s.mmu.tlbs, s.dram, by rw [walk_noncanonical s ctx hva]⟩
  · simp only [h]
    split
    · next hw =>
      obtain ⟨tlbs, dram, hs⟩ := seen_frame s die ctx (tlbEntry ctx va _ _ _) intent
      exact ⟨tlbs, dram, by rw [hs, hw]⟩
    · exact ⟨s.mmu.tlbs, s.dram, rfl⟩

/-- What a core's first-level TLB holds is all that changes in the cores. -/
theorem getCore_coreTlb {s : State} {c : Nat} {k : Core} (h : s.cores.find c = some k) (f : List TlbE → List TlbE) :
    getCore (coreTlb s c f) c = { k with tlb := f k.tlb } ∧ ∀ d, d ≠ c → getCore (coreTlb s c f) d = getCore s d := by
  have hs : coreTlb s c f = setCore s c { k with tlb := f k.tlb } := by simp only [coreTlb, h, setCore]
  rw [hs]
  exact ⟨getCore_setCore_self s c _, fun d hd => getCore_setCore_ne s _ (fun e => hd e.symm)⟩

/-- A translation for a core of a page that neither of its TLBs holds (R20, R22): the outcome of the walk, and of the cores only what the
core's own TLB holds changes. -/
theorem translate_walks {s : State} {c ctx va : Nat} {k : Core} (hk : s.cores.find c = some k) (h1 : tlbFind k.tlb ctx va = none)
    (h2 : tlbFind (Map.get [] s.mmu.tlbs (c / 160)) ctx va = none) (intent : BitVec 2) :
    ∃ t l, translate s c ctx va intent = (t, walk s ctx va) ∧ getCore t c = { k with tlb := l } ∧
      ∀ d, d ≠ c → getCore t d = getCore s d := by
  obtain ⟨tlbs, dram, hd⟩ := dieTranslate_walks h2 intent
  have hkc : getCore s c = k := by simp [getCore, Map.get, hk]
  unfold translate
  simp only [hk, Option.bind_some, h1, hd]
  split
  · next hw =>
    obtain ⟨hc, ho⟩ := getCore_coreTlb (s := { s with mmu := { s.mmu with tlbs }, dram }) hk
      (fun l => tlbPut 64 l (tlbEntry ctx va _ _ _))
    exact ⟨_, _, rfl, hc, ho⟩
  · exact ⟨_, k.tlb, rfl, hkc, fun d _ => rfl⟩

/-! ### The handle of an xlat in flight (R25) -/

/-- The one handle in flight, completed, is written where its slot has come. -/
theorem expireHandles_due {k : Core} {p : HPend} {x : BitVec 128} (hp : k.iss.hpend = [p]) (hx : p.val = some x)
    (hd : p.due ≤ vget k.iss.slots 0 0) :
    ∃ ks, expireHandles k = { k with h := vset k.h p.h.toNat x, iss := { k.iss with past := ks, hpend := [] } } := by
  obtain ⟨ks, -, e⟩ := expireHandles_eq k
  exact ⟨ks ++ k.iss.past, by rw [e]; simp [hp, hx, hd]⟩

/-- It is kept until its slot has come. -/
theorem expireHandles_early {k : Core} {p : HPend} (hp : k.iss.hpend = [p]) (hd : vget k.iss.slots 0 0 < p.due) :
    expireHandles k = k := by
  have hf : k.iss.hpend.filter (fun p => p.val.isSome && decide (p.due ≤ vget k.iss.slots 0 0)) = [] := by
    rw [hp]; simp [Nat.not_le.mpr hd]
  have hg : k.iss.hpend.filter (fun p => !(p.val.isSome && decide (p.due ≤ vget k.iss.slots 0 0))) = k.iss.hpend := by
    rw [hp]; simp [Nat.not_le.mpr hd]
  unfold expireHandles
  simp only [hf, List.foldl_nil, hg]

/-- Where the walk of the one handle in flight ends: the handle has its value and the token is produced. -/
def walked (k : Core) (p : HPend) (x : BitVec 128) : Core :=
  { k with iss := { k.iss with hpend := [{ p with val := some x }], openTok := k.iss.openTok.filter fun t => t ≠ (Eng.s, p.num) } }

/-- The value of a handle in flight is known and its head has produced its token. -/
theorem produce_onWalk {s : State} {c : Nat} {p : HPend} (hp : (getCore s c).iss.hpend = [p]) (x : BitVec 128) :
    let t := produce (onWalk s c p.num fun q => { q with val := some x }) c .s p.num
    getCore t c = walked (getCore s c) p x ∧ ∀ d, d ≠ c → getCore t d = getCore s d := by
  constructor
  · simp [produce, onWalk, walked, hp]
  · intro d hd
    simp [produce, onWalk, hd.symm]

/-- PAGE_WALK_COMPLETE of a core's one handle in flight, whose page no TLB holds and no move concerns: the handle of the walk's outcome,
on its way to its register. -/
theorem pageWalkComplete_eq {s : State} {c : Nat} {p : HPend} (hp : (getCore s c).iss.hpend = [p]) (hn : p.val = none)
    (hk : s.cores.find c = some (getCore s c)) (h1 : tlbFind (getCore s c).tlb (taskCtx (getCore s c)) p.va.toNat = none)
    (h2 : tlbFind (Map.get [] s.mmu.tlbs (c / 160)) (taskCtx (getCore s c)) p.va.toNat = none)
    (hm : p.intent ≠ 0 → movingAt s (taskCtx (getCore s c)) p.va.toNat = false ∧
      (shadeAt s (taskCtx (getCore s c)) p.va.toNat = true → p.asked = true)) :
    ∃ t l, exec (.pageWalkComplete c p.num) s = .next t ∧ (∀ d, d ≠ c → getCore t d = getCore s d) ∧
      getCore t c = expireHandles (walked { getCore s c with tlb := l } p
        (mkHandle (walk s (taskCtx (getCore s c)) p.va.toNat) (taskCtx (getCore s c)) p.va.toNat)) := by
  obtain ⟨u, l, ht, huc, huo⟩ := translate_walks hk h1 h2 p.intent
  have hup : (getCore u c).iss.hpend = [p] := by rw [huc]; exact hp
  obtain ⟨hwc, hwo⟩ := produce_onWalk hup (mkHandle (walk s (taskCtx (getCore s c)) p.va.toNat) (taskCtx (getCore s c)) p.va.toNat)
  have hf : [p].find? (fun q => q.num = p.num && q.val.isNone) = some p := by simp [hn]
  have hmove : (decide (p.intent ≠ 0) && movingAt s (taskCtx (getCore s c)) p.va.toNat) = false := by
    by_cases hi : p.intent = 0
    · simp [hi]
    · simp [(hm hi).1]
  have hshade : (decide (p.intent ≠ 0) && !p.asked && shadeAt s (taskCtx (getCore s c)) p.va.toNat) = false := by
    by_cases hi : p.intent = 0
    · simp [hi]
    · cases hsh : shadeAt s (taskCtx (getCore s c)) p.va.toNat
      · simp
      · simp [(hm hi).2 hsh]
  have he : exec (.pageWalkComplete c p.num) s = execPageWalkComplete c p.num s := rfl
  rw [he]
  simp only [execPageWalkComplete, hp, hf, hmove, hshade, ht, Bool.false_eq_true, if_false]
  refine ⟨_, l, rfl, fun d hd => ?_, ?_⟩
  · rw [getCore_setCore_ne _ _ hd.symm, hwo d hd, huo d hd]
  · rw [getCore_setCore_self, hwc, huc]

/-- xlat (R24, R25): a handle in flight, due eight scalar slots on, whose walk is due and whose token is still to come. -/
theorem xlat_ends {s : State} {w : QWord} (hw : s.word = some w) (h : BitVec 4) (n : BitVec 2) (a : BitVec 5) :
    ∃ u, exec (.xlat h n a) s = .next (due u [.pageWalkComplete s.core w.num]) ∧
      Ends s u 1 (opensToken w { here s with iss := { (here s).iss with hpend := (here s).iss.hpend ++
        [{ h, num := w.num, due := vget (here s).iss.slots 0 0 + 8, seen := [], va := sreg (here s) a, intent := n
           marked := (here s).sys.pend, val := none }] } }) := by
  have he : exec (.xlat h n a) s = execXlat h n a s := rfl
  rw [he]
  simp only [execXlat, hw]
  exact ⟨_, rfl, retireOpen_ends_of hw rfl (fun c hc => getCore_onHere_ne s _ hc) (here_onHere s _)⟩

end Sys2Proof.Machine

open Sys2Proof Sys2Proof.Machine

/-- Settles O8: the walk's outcome becomes the handle in flight, which is written if its slot has come. -/
theorem translation : Obligations.Translation := by
  intro s w h n a
  refine ⟨fun hw => xlat_ends hw h n a, fun c p hp hn hk h1 h2 hm => ?_⟩
  obtain ⟨t, l, he, ho, hc⟩ := pageWalkComplete_eq hp hn hk h1 h2 hm
  dsimp only
  generalize mkHandle (walk s (taskCtx (getCore s c)) p.va.toNat) (taskCtx (getCore s c)) p.va.toNat = x at hc ⊢
  refine ⟨t, he, ?_⟩
  rcases Nat.lt_or_ge (vget (getCore s c).iss.slots 0 0) p.due with hd | hd
  · have hc := hc.trans (expireHandles_early (k := walked _ p x) rfl hd)
    simpa [hc, walked, hd] using ho
  · obtain ⟨ks, hw⟩ := expireHandles_due (k := walked { getCore s c with tlb := l } p x) rfl rfl hd
    have hh : vget (vset (getCore s c).h p.h.toNat x) p.h.toNat 0#128 = x := by rw [vget_vset, if_pos ⟨rfl, p.h.isLt⟩]
    simpa [hc.trans hw, walked, hd, hh] using ho
end

section
/-! Numbers in device memory: what a read of a few bytes gives, and what a write of them leaves. -/

namespace Sys2Proof.Machine

/-! ### Little-endian bytes -/

@[simp] theorem leBytes_length (n v : Nat) : (leBytes n v).length = n := by
  induction n generalizing v with
  | zero => rfl
  | succ n ih => rw [leBytes, List.length_cons, ih]

@[simp] theorem clean_length (bs : List Byte) : (clean bs).length = bs.length := List.length_map ..

@[simp] theorem clean_map_fst (bs : List Byte) : (clean bs).map (·.1) = bs := by simp [clean, Function.comp_def]

theorem leNat_leBytes (n v : Nat) : leNat (leBytes n v) = v % 256 ^ n := by
  induction n generalizing v with
  | zero => simp [leBytes, leNat, Nat.mod_one]
  | succ n ih =>
    rw [leBytes, leNat, ih, BitVec.toNat_ofNat, Nat.pow_succ' (m := 256), Nat.mod_mul]

theorem lget_leBytes {n i : Nat} (v : Nat) (h : i < n) : lget (leBytes n v) i 0 = BitVec.ofNat 8 (v / 256 ^ i) := by
  induction n generalizing v i with
  | zero => omega
  | succ n ih =>
    cases i with
    | zero => simp [leBytes, lget]
    | succ i =>
      have : lget (leBytes (n + 1) v) (i + 1) 0 = lget (leBytes n (v / 256)) i 0 := by simp [leBytes, lget]
      rw [this, ih (v / 256) (by omega), Nat.div_div_eq_div_mul, Nat.pow_succ']

theorem length_flatMap_range {n : Nat} {f : Nat → List Byte} (hf : ∀ i, (f i).length = n) (k : Nat) :
    ((List.range k).flatMap f).length = n * k := by
  induction k with
  | zero => rfl
  | succ k ih => rw [List.range_succ, List.flatMap_append, List.length_append, ih, List.flatMap_singleton, hf, Nat.mul_succ]

/-- Words of `n` bytes that stand one after another. -/
theorem lget_flatMap_range {n : Nat} {f : Nat → List Byte} (hf : ∀ i, (f i).length = n) {k i j : Nat} (hi : i < k) (hj : j < n) :
    lget ((List.range k).flatMap f) (n * i + j) 0 = lget (f i) j 0 := by
  induction k with
  | zero => omega
  | succ k ih =>
    have hl := length_flatMap_range hf k
    rw [List.range_succ, List.flatMap_append]
    unfold lget
    rcases Nat.lt_or_ge i k with h | h
    · have hword := Nat.mul_succ n i
      have hwords : n * i.succ ≤ n * k := Nat.mul_le_mul_left n h
      rw [List.getElem?_append_left (by omega)]
      exact ih h
    · obtain rfl : i = k := by omega
      rw [List.getElem?_append_right (by omega), hl, Nat.add_sub_cancel_left]
      simp

/-- The number of `n` bytes of memory that are those of a list. -/
theorem numberAt_eq_leNat {m : Memory} {a : Nat} {bs : List Byte} (h : ∀ i, i < bs.length → m.byte (a + i) = lget bs i 0) :
    numberAt m a bs.length = leNat bs := by
  rw [leNat_sum, numberAt]
  exact congrArg List.sum (List.map_congr_left fun i hi => by rw [h i (List.mem_range.1 hi)])

theorem lget_bytesAt {m : Memory} {c n i : Nat} (h : i < n) : lget (bytesAt m c n) i 0 = m.byte (c + i) := by
  simp [bytesAt, lget, h]

@[simp] theorem bytesAt_length (m : Memory) (c n : Nat) : (bytesAt m c n).length = n := by simp [bytesAt]

theorem leNat_bytesAt (m : Memory) (c n : Nat) : leNat (bytesAt m c n) = numberAt m c n := by
  have := numberAt_eq_leNat (m := m) (a := c) (bs := bytesAt m c n) fun i hi => (lget_bytesAt (by simpa using hi)).symm
  rw [← this, bytesAt_length]

theorem numberAt_lt (m : Memory) (c n : Nat) : numberAt m c n < 256 ^ n := by
  have := leNat_lt (bytesAt m c n)
  rwa [leNat_bytesAt, bytesAt_length] at this

theorem leVal_clean (bs : List Byte) : leVal (clean bs) = leNat bs := by rw [leVal, clean_map_fst]

/-! ### Accesses that stay in one block of 4 KiB -/

/-- A range that crosses no boundary is one piece. -/
theorem ranges_one {u a n : Nat} (fuel : Nat) (hn : 0 < n) (h : a % u + n ≤ u) : ranges u (fuel + 2) a n = [(a, n)] := by
  have hm : min n (u - a % u) = n := by omega
  simp [ranges, hm, Nat.pos_iff_ne_zero.mp hn]

/-- Bytes that cross no boundary are one piece. -/
theorem chunks_one {u a : Nat} (fuel : Nat) {bs : List PByte} (hn : 0 < bs.length) (h : a % u + bs.length ≤ u) :
    chunks u (fuel + 2) a bs = [(a, bs)] := by
  obtain ⟨b, bs', rfl⟩ := List.exists_cons_of_length_pos hn
  have ht : (b :: bs').take (u - a % u) = b :: bs' := List.take_of_length_le (by omega)
  have hd : (b :: bs').drop (u - a % u) = [] := List.drop_of_length_le (by omega)
  simp only [chunks, ht, hd]

/-- An access of one block of 4 KiB is one request (R37). -/
theorem requests_one {pa n : Nat} (hn : 0 < n) (h : pa % 4096 + n ≤ 4096) : requests pa n = [(cellOf pa, n)] := by
  unfold requests
  split
  · rw [ranges_one _ hn (by omega), List.map_singleton]
  · rw [ranges_one _ hn (by omega), List.map_singleton]

section
variable (s : State) {pa c n : Nat}

theorem physRead_one (hn : 0 < n) (h : pa % 4096 + n ≤ 4096) (hc : cellOf pa = some c) : physRead s pa n = cellBytes s c n := by
  simp [physRead, requests_one hn h, hc]

theorem physWrite_one {bs : List PByte} (hn : 0 < bs.length) (h : pa % 4096 + bs.length ≤ 4096) (hc : cellOf pa = some c) :
    physWrite s pa bs = cellStoreDirect s c bs := by
  simp [physWrite, requests_one hn h, hc]

theorem dramRead_one {f : Attr} (hn : 0 < n) (h : pa % 4096 + n ≤ 4096) (hc : cellOf pa = some c) (hf : attrAt s c = f) :
    dramRead s pa n f = (s, cellBytes s c n) := by
  simp [dramRead, requests_one hn h, hc, hf]

theorem dramWrite_one {bs : List PByte} {f : Attr} (hn : 0 < bs.length) (h : pa % 4096 + bs.length ≤ 4096) (hc : cellOf pa = some c)
    (hf : attrAt s c = f) : dramWrite s pa bs f = cellStore s c bs := by
  simp [dramWrite, requests_one hn h, hc, hf]

end

theorem cellOf_low {pa : Nat} (h : pa < 2 ^ 40) : cellOf pa = some pa := if_pos h

/-! ### Poison -/

/-- Bytes with no poisoned grain read as they stand. -/
theorem cellBytes_clean {s : State} {c n : Nat} (hw : s.dram.wf = true) (h : CleanAt s.dram c n) :
    cellBytes s c n = clean (bytesAt s.dram c n) := by
  apply List.ext_getElem?
  intro i
  by_cases hi : i < n
  · have hp := h i hi
    rw [List.contains_eq_mem, decide_eq_false_iff_not] at hp
    have hb : (s.dram.bytes c n)[i]'(by simpa using hi) = s.dram.byte (c + i) :=
      (List.getElem?_eq_some_iff.mp (Memory.bytes_get hw c n i hi)).2
    simp [cellBytes, Memory.read, clean, bytesAt, hi, hp, hb]
  · rw [List.getElem?_eq_none (by simp [cellBytes]; omega), List.getElem?_eq_none (by simp; omega)]

/-- The bytes of an aligned piece of a grain share its poison. -/
theorem cleanAt_of_grain {m : Memory} {a n : Nat} (h : m.pois.contains (a / 32) = false) (hn : a % 32 + n ≤ 32) : CleanAt m a n := by
  intro i hi
  rwa [show (a + i) / 32 = a / 32 by omega]

/-- A piece of bytes written: it lies in the range and in one unit, and its bytes are among those written. -/
theorem chunks_mem {u fuel a : Nat} {bs : List PByte} {q : Nat × List PByte} (hu : 0 < u) (h : q ∈ chunks u fuel a bs) :
    a ≤ q.1 ∧ q.1 + q.2.length ≤ a + bs.length ∧ q.1 % u + q.2.length ≤ u ∧ ∀ b ∈ q.2, b ∈ bs := by
  induction fuel generalizing a bs with
  | zero => cases h
  | succ fuel ih =>
    have hm := Nat.mod_lt a hu
    cases bs with
    | nil => cases h
    | cons b bs =>
      simp only [chunks, List.mem_cons] at h
      rcases h with rfl | h
      · have ht := List.length_take (i := u - a % u) (l := b :: bs)
        refine ⟨Nat.le_refl _, ?_, ?_, fun x hx => List.mem_of_mem_take hx⟩ <;> dsimp only <;> omega
      · obtain ⟨h1, h2, h3, h4⟩ := ih h
        rw [List.length_drop] at h2
        have hlen : u - a % u < (b :: bs).length := by
          refine Nat.lt_of_not_le fun hs => ?_
          rw [List.drop_of_length_le hs] at h
          cases fuel <;> cases h
        exact ⟨by omega, by omega, h3, fun x hx => List.mem_of_mem_drop (h4 x hx)⟩

theorem anyPois_clean (bs : List Byte) : anyPois (clean bs) = false := by simp [anyPois, clean]

theorem anyPois_chunk {u fuel a : Nat} {bs : List Byte} {q : Nat × List PByte} (hu : 0 < u) (h : q ∈ chunks u fuel a (clean bs)) :
    anyPois q.2 = false := by
  rw [anyPois, List.any_eq_false]
  intro b hb
  obtain ⟨x, -, rfl⟩ := List.mem_map.mp ((chunks_mem hu h).2.2.2 b hb)
  exact Bool.false_ne_true

/-- The grains of the unit at which a piece begins. -/
def grainsOf (g u : Nat) (c : Nat × List PByte) : List Nat := (List.range (u / g)).map fun i => c.1 / u * (u / g) + i

/-- What a piece of a write does to the poison of its unit (R52). -/
def markPiece (g u : Nat) (m : Memory) (c : Nat × List PByte) : Memory :=
  if anyPois c.2 then (grainsOf g u c).foldl (fun m k => m.setGrain k true) m
  else if c.2.length = u then { m with pois := m.pois.filter fun k => !(grainsOf g u c).contains k }
  else m

theorem Memory.write_eq (m : Memory) (g u a : Nat) (bs : List PByte) :
    m.write g u a bs = (chunks u (bs.length + 1) a bs).foldl (markPiece g u) (m.setBytes a (bs.map (·.1))) := rfl

/-- A write of clean bytes that fills no unit leaves the poison as it is (R52). -/
theorem Memory.write_short (m : Memory) {g u a : Nat} {bs : List Byte} (hu : bs.length < u) :
    m.write g u a (clean bs) = m.setBytes a bs := by
  rw [Memory.write_eq, clean_map_fst]
  refine foldl_fixed_on (fun m q hq => ?_) _
  have hl := (chunks_mem (by omega) hq).2.1
  have ha := (chunks_mem (by omega) hq).1
  rw [clean_length] at hl
  rw [markPiece, anyPois_chunk (by omega) hq, if_neg Bool.false_ne_true, if_neg (by omega)]

/-- What every step of a fold keeps at the entries of the list, the fold keeps. -/
theorem foldl_keeps_on {σ α : Type} {P : σ → Prop} {f : σ → α → σ} {l : List α} (h : ∀ b, ∀ a ∈ l, P b → P (f b a)) {b : σ} (hb : P b) :
    P (l.foldl f b) := by
  induction l generalizing b with
  | nil => exact hb
  | cons a l ih =>
    exact ih (fun b x hx => h b x (List.mem_cons_of_mem _ hx)) (h b a (List.mem_cons_self ..) hb)

/-- A write of clean bytes leaves the poison of every grain that it does not meet (R52). -/
theorem Memory.write_pois (m : Memory) {u a : Nat} {bs : List Byte} (hu : 0 < u) (hd : u / 32 * 32 = u) {g : Nat}
    (hg : 32 * g + 32 ≤ a ∨ a + bs.length ≤ 32 * g) : (m.write 32 u a (clean bs)).pois.contains g = m.pois.contains g := by
  rw [Memory.write_eq]
  refine foldl_keeps_on (P := fun x : Memory => x.pois.contains g = m.pois.contains g) (fun x q hq hx => ?_) rfl
  obtain ⟨h1, h2, h3, -⟩ := chunks_mem hu hq
  rw [clean_length] at h2
  rw [markPiece, anyPois_chunk hu hq, if_neg Bool.false_ne_true]
  split
  · next hl =>
    have hq1 : q.1 / u * (u / 32) * 32 = q.1 := by
      rw [Nat.mul_assoc, hd, Nat.div_mul_cancel (Nat.dvd_of_mod_eq_zero (by omega))]
    have hnot : (grainsOf 32 u q).contains g = false := by
      rw [List.contains_eq_mem, decide_eq_false_iff_not, grainsOf, List.mem_map]
      rintro ⟨i, hi, rfl⟩
      have hi := List.mem_range.mp hi
      omega
    rw [← hx, Bool.eq_iff_iff, List.contains_iff_mem, List.contains_iff_mem, List.mem_filter, hnot]
    simp
  · exact hx

/-- The unit of a frame holds whole grains. -/
theorem unitOf_grains (a : Attr) : 32 ≤ unitOf a ∧ unitOf a / 32 * 32 = unitOf a := by
  have h : unitOf a = 32 * 2 ^ a.gran.toNat := by rw [unitOf, Nat.pow_add]
  have hp : 0 < 2 ^ a.gran.toNat := Nat.two_pow_pos _
  omega

/-! ### Numbers stored -/

/-- Every byte and every grain outside a write of clean bytes is as it was. -/
theorem Memory.write_outside {m : Memory} (h : m.wf = true) (f : Attr) (a : Nat) (bs : List Byte) :
    Outside m (m.write 32 (unitOf f) a (clean bs)) a bs.length := by
  obtain ⟨hu, hd⟩ := unitOf_grains f
  refine ⟨Memory.write_wf h .., fun x hx => ?_, fun g hg => Memory.write_pois m (by omega) hd hg⟩
  rw [Memory.byte_write h, clean_length, if_neg hx]

/-- A number read where it was written among others. -/
theorem numberAt_write {m : Memory} (h : m.wf = true) (g u a : Nat) {bs : List Byte} {o n v : Nat} (ho : o + n ≤ bs.length)
    (hb : ∀ i, i < n → lget bs (o + i) 0 = lget (leBytes n v) i 0) : numberAt (m.write g u a (clean bs)) (a + o) n = v % 256 ^ n := by
  rw [← leNat_leBytes, ← numberAt_eq_leNat (m := m.write g u a (clean bs)) (a := a + o), leBytes_length]
  intro i hi
  rw [leBytes_length] at hi
  rw [Memory.byte_write h, clean_length, if_pos (by omega), clean_map_fst, ← hb i hi]
  exact congrArg (lget bs · 0) (by omega)

end Sys2Proof.Machine
end

section
/-! The sweeper and the hub's tables (O43). -/

namespace Sys2Proof.Machine

/-- A map whose values are changed one by one. -/
theorem Map.find_mapValues {α β : Type} (f : α → β) (m : Map α) (i : Nat) :
    Map.find (m.map fun p => (p.1, f p.2)) i = (Map.find m i).map f := by
  induction m with
  | nil => rfl
  | cons p m ih =>
    simp only [List.map_cons, Map.find, ih]
    split <;> rfl

theorem Map.get_mapLists {α β : Type} (f : α → β) (m : Map (List α)) (i : Nat) :
    Map.get [] (m.map fun p => (p.1, p.2.map f)) i = (Map.get [] m i).map f := by
  rw [Map.get, Map.find_mapValues (List.map f), Map.get]
  cases Map.find m i <;> rfl

theorem Outside.trans {a b c : Memory} {x n : Nat} (h : Outside a b x n) (h' : Outside b c x n) : Outside a c x n := by
  obtain ⟨-, hb, hp⟩ := h
  obtain ⟨hw, hb', hp'⟩ := h'
  exact ⟨hw, fun y hy => (hb' y hy).trans (hb y hy), fun g hg => (hp' g hg).trans (hp g hg)⟩

theorem Outside.refl {m : Memory} (h : m.wf = true) (x n : Nat) : Outside m m x n := ⟨h, fun _ _ => rfl, fun _ _ => rfl⟩

/-! ### The sweeper -/

/-- A doubleword of device memory that lies in a clean grain, as hardware reads it (R10). -/
theorem leVal_physRead {s : State} {a : Nat} (hw : s.dram.wf = true) (ha : a < 2 ^ 40) (h8 : a % 8 = 0)
    (hp : s.dram.pois.contains (a / 32) = false) : leVal (physRead s a 8) = numberAt s.dram a 8 := by
  rw [physRead_one s (by omega) (by omega) (cellOf_low ha), cellBytes_clean hw (cleanAt_of_grain hp (by omega)), leVal_clean, leNat_bytesAt]

/-- The word in which a field of two bits that is not zero is one lower. -/
theorem fade_word {e lo : Nat} (h : e / 2 ^ lo % 4 ≠ 0) :
    e - e / 2 ^ lo % 4 * 2 ^ lo + (e / 2 ^ lo % 4 - 1) % 2 ^ 2 * 2 ^ lo + 2 ^ lo = e := by
  obtain ⟨v, hv⟩ := Nat.exists_eq_succ_of_ne_zero h
  have hfits : (v + 1) * 2 ^ lo ≤ e := by
    rw [← Nat.succ_eq_add_one, ← hv]
    exact Nat.le_trans (Nat.mul_le_mul_right _ (Nat.mod_le ..)) (Nat.div_mul_le_self ..)
  rw [hv, Nat.succ_sub_one, Nat.mod_eq_of_lt (show v < 2 ^ 2 by omega)]
  rw [Nat.succ_mul] at hfits ⊢
  omega

/-- A doubleword that hardware writes to device memory (R10). -/
theorem physWrite_doubleword {s : State} {a : Nat} (hw : s.dram.wf = true) (ha : a < 2 ^ 40) (h8 : a % 8 = 0) (v : Nat) :
    ∃ m, physWrite s a (clean (leBytes 8 v)) = { s with dram := m } ∧ Outside s.dram m a 8 ∧ m.pois = s.dram.pois ∧
      numberAt m a 8 = v % 256 ^ 8 := by
  have hu := (unitOf_grains (attrAt s a)).1
  have hl := leBytes_length 8 v
  have ho := Memory.write_outside hw (attrAt s a) a (leBytes 8 v)
  have hn := numberAt_write hw 32 (unitOf (attrAt s a)) a (bs := leBytes 8 v) (o := 0) (n := 8) (v := v) (by omega)
    fun i _ => by rw [Nat.zero_add]
  rw [hl] at ho
  refine ⟨_, physWrite_one s ?_ ?_ (cellOf_low ha), ho, ?_, hn⟩
  · rw [clean_length]; omega
  · rw [clean_length]; omega
  · rw [Memory.write_short _ (by omega)]; rfl

/-- A heat field of a leaf fades by one where it is not zero, and nothing but the leaf's word changes (R21). -/
theorem leafUpdate_fades {s : State} {a lo : Nat} (hw : s.dram.wf = true) (ha : a < 2 ^ 40) (h8 : a % 8 = 0)
    (hp : s.dram.pois.contains (a / 32) = false) :
    ∃ m, leafUpdate s a lo 2 (· - 1) = { s with dram := m } ∧ Outside s.dram m a 8 ∧ m.pois = s.dram.pois ∧
      numberAt m a 8 + (if numberAt s.dram a 8 / 2 ^ lo % 4 = 0 then 0 else 2 ^ lo) = numberAt s.dram a 8 := by
  have he := numberAt_lt s.dram a 8
  rw [leafUpdate, leVal_physRead hw ha h8 hp]
  generalize hE : numberAt s.dram a 8 = e at he ⊢
  by_cases h0 : e / 2 ^ lo % 4 = 0
  · refine ⟨s.dram, if_pos ?_, Outside.refl hw .., rfl, by rw [if_pos h0, hE, Nat.add_zero]⟩
    show e / 2 ^ lo % 4 - 1 = e / 2 ^ lo % 4
    omega
  · have hf := fade_word h0
    obtain ⟨m, hp, ho, hm, hn⟩ := physWrite_doubleword hw ha h8 (e - e / 2 ^ lo % 4 * 2 ^ lo + (e / 2 ^ lo % 4 - 1) % 2 ^ 2 * 2 ^ lo)
    refine ⟨m, (if_neg ?_).trans hp, ho, hm, ?_⟩
    · show ¬e / 2 ^ lo % 4 - 1 = e / 2 ^ lo % 4
      omega
    · rw [hn, if_neg h0, Nat.mod_eq_of_lt (Nat.lt_of_le_of_lt (Nat.le.intro hf) he), hf]

/-- With the sweeper's moves off, a visit starts none (R132). -/
theorem sweeperMove_off {s : State} (hc : s.mmu.cen = false) (hx : s.mmu.xen = false) (ctx va heat : Nat) : sweeperMove s ctx va heat = s := by
  unfold sweeperMove
  split
  · rfl
  · simp [hc, hx]

end Sys2Proof.Machine

open Sys2Proof Sys2Proof.Machine

/-- R20, R21: a visit of the sweeper. -/
theorem sweeperVisit_fades {s : State} {ctx va addr leaf : Nat} {size : BitVec 2} (hl : leafSpot s ctx va = some (addr, leaf, size))
    (ha : addr < 2 ^ 40) (h8 : addr % 8 = 0) (hp : s.dram.pois.contains (addr / 32) = false) (hs : sweepOn s ctx = true)
    (hc : s.mmu.cen = false) (hx : s.mmu.xen = false) (hw : s.dram.wf = true) :
    ∃ t, exec (.sweeperVisit ctx va) s = .next t ∧ t = { s with dram := t.dram } ∧ Outside s.dram t.dram addr 8 ∧
      let e := numberAt s.dram addr 8
      numberAt t.dram addr 8 + (if e / 2 ^ 56 % 4 = 0 then 0 else 2 ^ 56) + (if e / 2 ^ 58 % 4 = 0 then 0 else 2 ^ 58) = e := by
  obtain ⟨m, h1, ho, hm, hn⟩ := leafUpdate_fades (lo := 56) hw ha h8 hp
  obtain ⟨m', h2, ho', -, hn'⟩ := leafUpdate_fades (s := { s with dram := m }) (lo := 58) ho.1 ha h8 (by rw [hm, hp])
  have hv : exec (.sweeperVisit ctx va) s = .next { s with dram := m' } := by
    show execSweeperVisit ctx va s = _
    simp only [execSweeperVisit, hl, hs, if_pos, h1, h2]
    rw [sweeperMove_off (s := { s with dram := m' }) hc hx]
  refine ⟨_, hv, rfl, ho.trans ho', ?_⟩
  have hsame : numberAt m addr 8 / 2 ^ 58 % 4 = numberAt s.dram addr 8 / 2 ^ 58 % 4 := by
    split at hn <;> omega
  dsimp only at hn' ⊢
  rw [hsame] at hn'
  omega

/-- R20, R21: a period begins. -/
theorem sweepPeriod_begins (s : State) (ctx : Nat) :
    ∃ t, exec (.sweepPeriodBoundary ctx) s = .next t ∧
       t = { s with mmu := { s.mmu with tlbs := t.mmu.tlbs }, agenda := t.agenda } ∧
       (∀ die, Map.get [] t.mmu.tlbs die = (Map.get [] s.mmu.tlbs die).map fun e => if e.ctx = ctx then { e with rseen := false, wseen := false } else e) ∧
       (ctxValid s ctx = true → sweepOn s ctx = true → t.agenda = s.agenda ++ ((leavesOf s ctx).map (.sweeperVisit ctx) ++ [.sweepPeriodBoundary ctx])) ∧
       (ctxValid s ctx = true → sweepOn s ctx = false → heatOn s ctx = true → t.agenda = s.agenda ++ [.sweepPeriodBoundary ctx]) ∧
       (ctxValid s ctx = true → sweepOn s ctx = false → heatOn s ctx = false → t.agenda = s.agenda) ∧
       (ctxValid s ctx = false → t.agenda = s.agenda) := by
  show ∃ t, execSweepPeriodBoundary ctx s = .next t ∧ _
  unfold execSweepPeriodBoundary
  extract_lets tlbs _ u
  have hv : ctxValid u ctx = ctxValid s ctx := rfl
  have hs : sweepOn u ctx = sweepOn s ctx := rfl
  have hh : heatOn u ctx = heatOn s ctx := rfl
  have hl : leavesOf u ctx = leavesOf s ctx := rfl
  have ht := Map.get_mapLists (fun e : TlbE => if e.ctx = ctx then { e with rseen := false, wseen := false } else e) s.mmu.tlbs
  rw [hv, hs, hh, hl]
  cases ctxValid s ctx with
  | false => exact ⟨u, rfl, rfl, ht, by simp, by simp, by simp, fun _ => rfl⟩
  | true =>
    cases sweepOn s ctx with
    | true => exact ⟨_, rfl, rfl, ht, fun _ _ => rfl, by simp, by simp, by simp⟩
    | false =>
      cases heatOn s ctx with
      | true => exact ⟨_, rfl, rfl, ht, by simp, fun _ _ _ => rfl, by simp, by simp⟩
      | false => exact ⟨_, rfl, rfl, ht, by simp, by simp, fun _ _ _ => rfl, by simp⟩

/-! ### The hub's tables (R32) -/

namespace Sys2Proof.Machine

/-- What R32 asks of a table operation of the host. -/
def TableLegal (s : State) (r : TableReq) : Prop :=
  ∀ tag, r.src = .host tag → r.idx < (if r.window then 1024 else 256) ∧ tableLegal s r.window r.idx r.words = true

/-- The window entry that a request holds. -/
def windowOf (r : TableReq) : Window :=
  { w0 := lget r.words 0 0, w1 := lget r.words 1 0, w2 := lget r.words 2 0, w3 := lget r.words 3 0 }

def Window.zero : Window := { w0 := 0, w1 := 0, w2 := 0, w3 := 0 }

/-- How a table operation that has its outcome ends: BUSY of the core is about to clear, or the host is answered. -/
def TableEnds (r : TableReq) (u t : State) (ws : List W64) : Prop :=
  (∀ c, r.src = .core c → t = { u with agenda := u.agenda ++ [.hubTableOpComplete c] }) ∧
    ∀ tag, r.src = .host tag → t = { u with old := [], fab := { u.fab with out := u.fab.out ++ [.mgmt 16 tag 0 ws] } }

theorem tableDone_ends (r : TableReq) (u : State) (ws : List W64) : TableEnds r u (tableDone u r.src mgOk ws) ws :=
  ⟨fun _ h => by rw [h]; rfl, fun _ h => by rw [h]; rfl⟩

/-- The windows with the entry of a request in its place. -/
def rwinAfter (s : State) (r : TableReq) : Map Window :=
  if windowOf r = Window.zero then Map.erase s.mmu.rwin r.idx else Map.set s.mmu.rwin r.idx (windowOf r)

theorem find_rwinAfter {s : State} (hm : Map.rising s.mmu.rwin = true) (r : TableReq) (i : Nat) : Map.find (rwinAfter s r) i =
    if i = r.idx then (if windowOf r = Window.zero then none else some (windowOf r)) else Map.find s.mmu.rwin i := by
  unfold rwinAfter
  split
  · simp only [Map.find_erase hm, eq_comm]
  · simp only [Map.find_set, eq_comm]

theorem tableBad_of_legal {i n : Nat} {legal : Bool} (hi : i < n) (hl : legal = true) : ¬((decide (n ≤ i) || !legal) = true) := by
  rw [hl, decide_eq_false (Nat.not_le.mpr hi)]
  exact Bool.false_ne_true

theorem tableWrite_window {s : State} {r : TableReq} (hl : TableLegal s r) (hw : r.window = true) :
    execHubTableWrite r s = .next (tableDone { s with mmu := { s.mmu with rwin := rwinAfter s r } } r.src mgOk []) := by
  obtain ⟨src, window, idx, words⟩ := r
  obtain rfl : window = true := hw
  cases src with
  | core c => rfl
  | host tag =>
    obtain ⟨hi, ht⟩ := hl tag rfl
    exact (if_neg (tableBad_of_legal hi ht)).trans rfl

theorem tableWrite_context {s : State} {r : TableReq} (hl : TableLegal s r) (hw : r.window = false) :
    execHubTableWrite r s = .next (tableDone (startSweep (physWrite s (s.mmu.ctxBase + 64 * r.idx)
      (clean ((List.range 8).flatMap fun i => leBytes 8 (lget r.words i 0).toNat))) r.idx) r.src mgOk []) := by
  obtain ⟨src, window, idx, words⟩ := r
  obtain rfl : window = false := hw
  cases src with
  | core c => rfl
  | host tag =>
    obtain ⟨hi, ht⟩ := hl tag rfl
    exact (if_neg (tableBad_of_legal hi ht)).trans rfl

theorem tableWrite_refused {s : State} {r : TableReq} {tag : Nat} (hl : ¬TableLegal s r) (hr : r.src = .host tag) :
    execHubTableWrite r s = .next (tableDone s r.src mgField []) := by
  obtain ⟨src, window, idx, words⟩ := r
  obtain rfl : src = .host tag := hr
  have hbad : (decide ((if window then 1024 else 256) ≤ idx) || !tableLegal s window idx words) = true := by
    refine eq_true_of_ne_false fun hb => hl fun _ _ => ?_
    obtain ⟨hi, ht⟩ := Bool.or_eq_false_iff.mp hb
    exact ⟨Nat.lt_of_not_le (of_decide_eq_false hi), by simpa using ht⟩
  exact if_pos hbad

theorem startSweep_due (s : State) (ctx : Nat) :
    ∃ more, startSweep s ctx = { s with agenda := s.agenda ++ more } ∧ more ⊆ [.sweepPeriodBoundary ctx] := by
  unfold startSweep
  split
  · exact ⟨_, rfl, List.Subset.refl _⟩
  · exact ⟨[], by simp, List.nil_subset _⟩

/-- The 64 bytes of a context entry, each doubleword in its place (R14). -/
theorem entryBytes_length (f : Nat → Nat) : ((List.range 8).flatMap fun i => leBytes 8 (f i)).length = 64 :=
  length_flatMap_range (fun i => leBytes_length 8 (f i)) 8

theorem physWrite_entry {s : State} {a : Nat} (hw : s.dram.wf = true) (h64 : a % 64 = 0) (ha : a + 64 ≤ 2 ^ 40) (f : Nat → Nat) :
    ∃ m, physWrite s a (clean ((List.range 8).flatMap fun i => leBytes 8 (f i))) = { s with dram := m } ∧ Outside s.dram m a 64 ∧
      ∀ i, i < 8 → numberAt m (a + 8 * i) 8 = f i % 256 ^ 8 := by
  have hl := entryBytes_length f
  have ho := Memory.write_outside hw (attrAt s a) a ((List.range 8).flatMap fun i => leBytes 8 (f i))
  rw [hl] at ho
  refine ⟨_, physWrite_one s ?_ ?_ (cellOf_low (by omega)), ho, fun i hi => numberAt_write hw _ _ _ ?_ fun j hj => ?_⟩
  · rw [clean_length, hl]; omega
  · rw [clean_length, hl]; omega
  · rw [hl]; omega
  · exact lget_flatMap_range (fun i => leBytes_length 8 (f i)) hi hj

end Sys2Proof.Machine

/-- R32: a window entry goes to the hub's storage. -/
theorem tableWrite_storesWindow {s : State} {r : TableReq} (hl : TableLegal s r) (hw : r.window = true) (hm : Map.rising s.mmu.rwin = true) :
    ∃ t rwin, exec (.hubTableWrite r) s = .next t ∧
      (∀ i, Map.find rwin i = if i = r.idx then (if windowOf r = Window.zero then none else some (windowOf r)) else Map.find s.mmu.rwin i) ∧
      TableEnds r { s with mmu := { s.mmu with rwin } } t [] := by
  exact ⟨_, _, tableWrite_window hl hw, find_rwinAfter hm r, tableDone_ends ..⟩

/-- R32: a context entry goes to the table in memory. -/
theorem tableWrite_storesContext {s : State} {r : TableReq} (hl : TableLegal s r) (hw : r.window = false) (hm : s.dram.wf = true)
    (h64 : s.mmu.ctxBase % 64 = 0) (ha : s.mmu.ctxBase + 64 * r.idx + 64 ≤ 2 ^ 40) :
    ∃ t u more, exec (.hubTableWrite r) s = .next t ∧ u = { s with dram := u.dram, agenda := s.agenda ++ more } ∧
      more ⊆ [.sweepPeriodBoundary r.idx] ∧ Outside s.dram u.dram (s.mmu.ctxBase + 64 * r.idx) 64 ∧
      (∀ i, i < 8 → numberAt u.dram (s.mmu.ctxBase + 64 * r.idx + 8 * i) 8 = (lget r.words i 0).toNat) ∧ TableEnds r u t [] := by
  obtain ⟨m, hp, ho, hn⟩ := physWrite_entry hm (show (s.mmu.ctxBase + 64 * r.idx) % 64 = 0 by omega) ha fun i => (lget r.words i 0).toNat
  obtain ⟨more, hs, hmore⟩ := startSweep_due { s with dram := m } r.idx
  have he : exec (.hubTableWrite r) s = .next (tableDone { s with dram := m, agenda := s.agenda ++ more } r.src mgOk []) := by
    show execHubTableWrite r s = _
    rw [tableWrite_context hl hw, hp, hs]
  refine ⟨_, _, more, he, rfl, hmore, ho, fun i hi => ?_, tableDone_ends ..⟩
  exact (hn i hi).trans (Nat.mod_eq_of_lt (lget r.words i 0).isLt)

namespace Sys2Proof.Machine

/-- The words that a read of a table delivers (R32). -/
def tableWords (s : State) (r : TableReq) : List W64 :=
  if r.window then (let x := Map.get Window.zero s.mmu.rwin r.idx; [x.w0, x.w1, x.w2, x.w3, 0, 0, 0, 0])
  else (List.range 8).map fun i => BitVec.ofNat 64 (leVal (physRead s (s.mmu.ctxBase + 64 * r.idx + 8 * i) 8))

theorem tableRead_core {s : State} {r : TableReq} {c : Nat} (hr : r.src = .core c) :
    execHubTableRead r s = .next (tableDone (setCore s c { getCore s c with
      mreg := { (getCore s c).mreg with htd := Vector.ofFn fun i => lget (tableWords s r) i.val 0 } }) r.src mgOk []) := by
  unfold execHubTableRead tableWords Map.get
  rw [hr]
  cases Map.find s.mmu.rwin r.idx <;> rfl

theorem tableRead_host {s : State} {r : TableReq} {tag : Nat} (hr : r.src = .host tag) (hi : r.idx < if r.window then 1024 else 256) :
    execHubTableRead r s = .next (tableDone s r.src mgOk (tableWords s r)) := by
  unfold execHubTableRead tableWords Map.get
  rw [hr]
  cases Map.find s.mmu.rwin r.idx <;> exact if_neg (Nat.not_le.mpr hi)

end Sys2Proof.Machine

/-- R32: what a core or the host is given of a table. -/
theorem tableRead_delivers (s : State) (r : TableReq) :
    (∀ c, r.src = .core c → ∃ t, exec (.hubTableRead r) s = .next t ∧
      OnlyCore { s with agenda := s.agenda ++ [.hubTableOpComplete c] } t c
        { getCore s c with mreg := { (getCore s c).mreg with htd := Vector.ofFn fun i => lget (tableWords s r) i.val 0 } }) ∧
    (∀ tag, r.src = .host tag → r.idx < (if r.window then 1024 else 256) → ∃ t, exec (.hubTableRead r) s = .next t ∧
      t = { s with old := [], fab := { s.fab with out := s.fab.out ++ [.mgmt 16 tag 0 (tableWords s r)] } }) := by
  refine ⟨fun c hr => ⟨_, tableRead_core hr, ?_⟩, fun tag hr hi => ⟨_, tableRead_host hr hi, by rw [hr]; rfl⟩⟩
  rw [hr]
  exact ⟨rfl, fun d hd => getCore_setCore_ne s _ fun e => hd e.symm, getCore_setCore_self s c _⟩

theorem tableOp_completes (s : State) (c : Nat) : ∃ t, exec (.hubTableOpComplete c) s = .next t ∧
    OnlyCore { s with old := [] } t c { getCore s c with mreg := { (getCore s c).mreg with htBusy := false } } :=
  ⟨_, rfl, rfl, fun _ hd => getCore_setCore_ne s _ fun e => hd e.symm, getCore_setCore_self s c _⟩

/-- Settles O43: each event of the sweeper and of the hub's tables is stated by a lemma of its own. -/
theorem sweepAndTables : Obligations.SweepAndTables := by
  refine ⟨fun s ctx va => ⟨sweepPeriod_begins s ctx, fun leaf size addr => sweeperVisit_fades, fun hl => ?_⟩, fun s r => ?_⟩
  · show execSweeperVisit ctx va s = _
    rw [execSweeperVisit, hl]
  · refine ⟨fun hw hl => tableWrite_storesWindow hl hw, fun hw hl => tableWrite_storesContext hl hw, fun hl tag hr => ?_,
      tableRead_delivers s r, tableOp_completes s⟩
    exact ⟨_, (tableWrite_refused hl hr), by rw [hr]; rfl⟩
end

section
/-! Why O54 does not hold: the hub checks a region once for each 64 KiB that it accesses (R100), and the statement
asks that the 32 bytes of an entry of the position map be permitted by the check at the entry's first byte alone. -/

namespace Sys2Proof.Machine

/-- The leaf of a page of 1 GiB at physical address 0, with WR set and the format of a wiped frame (R17, R18). -/
def lostLeaf : W64 := 18014398509539393

/-- Two valid descriptors at the page of the entry (R98): one of 16 bytes that permits all, and one of 64 KiB that all may read and none may write.
RGCTL binds none as short as the first (R101); the statement speaks of every state. -/
def lostRegions : Map Region :=
  [(0, { w0 := BitVec.ofNat 64 (2 * 2 ^ 28 + 4 * 2 ^ 22 + 1), w1 := 0 }),
   (1, { w0 := BitVec.ofNat 64 (2 * 2 ^ 28 + 16 * 2 ^ 22 + 2 * 2 ^ 16 + 1), w1 := 0 })]

/-- The bytes of the entry of context 0, of its tables of levels 0 and 1 and of their leaf (R14 to R16). -/
def lostTables : Memory :=
  { cells := [(0, 1), (2, 1), (65536, 1), (65537, 16), (65538, 1), (69632, 65), (69633, 224), (69638, 64)], pois := [] }

/-- A registered entry of the position map at 131072, whose HOLDER is device 0. -/
def lostState : State :=
  { State.reset with
    dram := lostTables
    ranges := [{ va := 131072, len := 32, ctx := 0 }]
    mmu := { State.reset.mmu with
      regions := lostRegions
      tlbs := [(hubCache, [tlbEntry 0 131072 lostLeaf 2 69632])] } }

theorem lostState_wf : lostState.dram.wf = true := by decide

theorem lostState_walk : walk lostState 0 131072 = .ok lostLeaf 2 69632 := by decide +kernel

/-- The first byte of the entry lies in the descriptor of 16 bytes, the smaller of the two (R100). -/
theorem lostState_permits (write : Bool) : (permit lostState .hub 0 131072 32 write true).1 = .yes := by
  cases write <;> decide +kernel

theorem lostState_hubLocal (write : Bool) : HubLocal lostState engineKey 0 131072 32 131072 write where
  leaf := ⟨lostLeaf, 2, 69632, tlbEntry 0 131072 lostLeaf 2 69632, lostState_walk, by decide +kernel, rfl, rfl, rfl, by decide, fun _ => by decide,
    by decide +kernel, by decide +kernel⟩
  allow := lostState_permits write
  still := fun _ => rfl
  place := by decide
  idle := rfl

theorem lostState_clean : Clean lostState 131072 32 := fun _ _ => rfl

/-- Byte 16 of the entry lies in the descriptor that none may write alone, and the hub's write of its flags is refused. -/
theorem lostState_refuses (v : Nat) :
    (hubWrite lostState .hub 0 131088 (clean (leBytes 8 v)) true 4096).2 = .failed causeOwnership 131088 := by
  have hl : (clean (leBytes 8 v)).length = 8 := by rw [clean_length, leBytes_length]
  have hr : (ranges 65536 (8 / 65536 + 2) 131088 8).foldl (fun s q => hubRefresh s 0 q.1) lostState = lostState := by decide +kernel
  have hc : hubWriteCheck lostState .hub 0 131088 8 true = .failed causeOwnership 131088 := by decide +kernel
  rw [hubWrite, hl, hr, hc]

end Sys2Proof.Machine

open Sys2Proof Sys2Proof.Machine

/-- Refutes O54: the place of an entry of the position map asks that a write be permitted at its first byte, and a region of 16 bytes ends before
the flags that the loss of its holder writes. -/
theorem not_inboundAccesses : ¬ Obligations.InboundAccesses := by
  intro h
  obtain ⟨-, -, -, -, -, -, -, t, -, -, -, hentry⟩ := h lostState { qp := 0, rkey := 0, va := 0, len := 0, data := [] }
    { src := 0, va := 0, len := 0, data := none, signal := false, op := 0, wide := false, val := 0, cmp := 0 } 0 131072 0 lostState_wf
  obtain ⟨-, hlost⟩ := hentry 0 131072 rfl (by decide) (lostState_hubLocal false) lostState_clean rfl
  obtain ⟨u, v, hw, -⟩ := hlost (by decide +kernel) (lostState_hubLocal true)
  have hr := lostState_refuses (fieldOf (numberAt lostState.dram 131072 32) 128 63 + 2 ^ 63)
  rw [show 131072 + 16 = 131088 from rfl] at hw
  rw [hw] at hr
  cases hr
end

section
/-! What writing back the plain lines of a core changes (R103, R28 step 4). -/

namespace Sys2Proof.Machine

/-- The fields of a state that neither its cores, its memory with what goes with writes, its queues, its links, its translation nor its logs are. -/
def outer (s : State) : State :=
  { s with
    cores := [], dram := .empty, old := [], reads := [], agenda := [], hist := [], rels := [], stamp := 0, errlog := []
    queues := [], mmu := State.reset.mmu, fab := State.reset.fab, mgmt := State.reset.mgmt }

theorem eq_withDram_of_outer {s t : State} (h : outer t = outer s) :
    t = { withDram s t with cores := t.cores, mmu := t.mmu, queues := t.queues, fab := t.fab, errlog := t.errlog, mgmt := t.mgmt } := by
  calc t = { outer t with
        cores := t.cores, dram := t.dram, old := t.old, reads := t.reads, agenda := t.agenda, hist := t.hist, rels := t.rels, stamp := t.stamp
        errlog := t.errlog, queues := t.queues, mmu := t.mmu, fab := t.fab, mgmt := t.mgmt } := rfl
    _ = { outer s with
        cores := t.cores, dram := t.dram, old := t.old, reads := t.reads, agenda := t.agenda, hist := t.hist, rels := t.rels, stamp := t.stamp
        errlog := t.errlog, queues := t.queues, mmu := t.mmu, fab := t.fab, mgmt := t.mgmt } := by rw [h]
    _ = _ := rfl

/-- A core without the fields that reading and writing back plain lines change. -/
def withoutLines (k : Core) : Core := { k with plain := [], lastRead := [] }

theorem eq_of_withoutLines {k k' : Core} (h : withoutLines k' = withoutLines k) : k' = { k with plain := k'.plain, lastRead := k'.lastRead } := by
  calc k' = { withoutLines k' with plain := k'.plain, lastRead := k'.lastRead } := rfl
    _ = { withoutLines k with plain := k'.plain, lastRead := k'.lastRead } := by rw [h]
    _ = { k with plain := k'.plain, lastRead := k'.lastRead } := rfl

/-- What writing back lines of core `c` changes: the memory, the links and the logs, and of the cores only the lines of `c` and what it has
read. -/
structure BacksOf (c : Nat) (s t : State) : Prop where
  outer  : outer t = outer s
  mmu    : t.mmu = s.mmu
  others : ∀ d, d ≠ c → getCore t d = getCore s d
  own    : withoutLines (getCore t c) = withoutLines (getCore s c)

theorem BacksOf.refl (c : Nat) (s : State) : BacksOf c s s := ⟨rfl, rfl, fun _ _ => rfl, rfl⟩

theorem BacksOf.trans {c : Nat} {s t u : State} (h : BacksOf c s t) (h' : BacksOf c t u) : BacksOf c s u :=
  ⟨h'.outer.trans h.outer, h'.mmu.trans h.mmu, fun d hd => (h'.others d hd).trans (h.others d hd), h'.own.trans h.own⟩

/-- A change that no core and no translation sees. -/
theorem BacksOf.of_cores {c : Nat} {s t : State} (ho : Machine.outer t = Machine.outer s) (hm : t.mmu = s.mmu) (hc : t.cores = s.cores) : BacksOf c s t :=
  ⟨ho, hm, fun d _ => by simp only [getCore, hc], by simp only [getCore, hc]⟩

/-- A change of the lines of a core, or of what it has read. -/
theorem BacksOf.of_setCore (c : Nat) (s : State) {k : Core} (h : withoutLines k = withoutLines (getCore s c)) : BacksOf c s (setCore s c k) :=
  ⟨rfl, rfl, fun d hd => getCore_setCore_ne s k fun e => hd e.symm, by rw [getCore_setCore_self, h]⟩

theorem BacksOf.foldl {α : Type} {c : Nat} {f : State → α → State} (h : ∀ s a, BacksOf c s (f s a)) (l : List α) (s : State) :
    BacksOf c s (l.foldl f s) :=
  foldl_keeps_on (P := BacksOf c s) (fun t a _ ht => ht.trans (h t a)) (BacksOf.refl c s)

theorem keepOld_backs (c : Nat) (s : State) (cell n : Nat) : BacksOf c s (keepOld s cell n) := by
  refine BacksOf.foldl (fun t i => ?_) _ s
  split
  · exact .refl c t
  · exact .of_cores rfl rfl rfl

theorem cellStore_backs (c : Nat) (s : State) (cell : Nat) (bs : List PByte) : BacksOf c s (cellStore s cell bs) :=
  (keepOld_backs c s cell bs.length).trans (.of_cores rfl rfl rfl)

theorem dramWrite_backs (c : Nat) (s : State) (pa : Nat) (bs : List PByte) (f : Attr) : BacksOf c s (dramWrite s pa bs f) := by
  refine foldl_keeps_on (P := fun r : State × List PByte => BacksOf c s r.1) (fun r q _ hr => ?_) (.refl c s)
  dsimp only
  split
  · exact hr
  · split
    · exact hr.trans (cellStore_backs c ..)
    · exact hr.trans (.of_cores rfl rfl rfl)

theorem keepOwn_backs (s : State) (c cell n : Nat) : BacksOf c s (keepOwn s c cell n) := by
  unfold keepOwn
  extract_lets k
  split
  · exact .refl c s
  · exact .of_setCore c s rfl

theorem forwardMasked_backs (c : Nat) (s : State) (h : BitVec 128) (va : Nat) (data : List PByte) (mask : BitVec 64) (use : LineUse) :
    BacksOf c s (forwardMasked s h va data mask use) := by
  unfold forwardMasked
  split
  · exact .of_cores rfl rfl rfl
  · exact .of_cores rfl rfl rfl

theorem writeBack_backs (s : State) (c line : Nat) : BacksOf c s (writeBack s c line) := by
  unfold writeBack
  extract_lets k
  split
  · exact .refl c s
  · next l hl =>
    extract_lets u k'
    have hu : BacksOf c s u := by
      unfold u
      split
      · exact forwardMasked_backs ..
      · split
        · refine BacksOf.foldl (fun t r => ?_) _ s
          extract_lets pa v
          have hv : BacksOf c t v := dramWrite_backs ..
          split
          · exact hv.trans (keepOwn_backs ..)
          · exact hv
        · exact .refl c s
    exact hu.trans (.of_setCore c u rfl)

theorem writeBackIf_backs (s : State) (c : Nat) (hit : Nat × PLine → Bool) : BacksOf c s (writeBackIf s c hit) := by
  unfold writeBackIf
  extract_lets lines u k
  exact (BacksOf.foldl (fun t l => writeBack_backs t c l) lines s : BacksOf c s u).trans (.of_setCore c u rfl)

/-- What writing back the lines of the cores of a context changes: the cores of other contexts keep theirs. -/
structure CtxBacks (ctx : Nat) (s t : State) : Prop where
  outer  : outer t = outer s
  mmu    : t.mmu = s.mmu
  lines  : ∀ c, withoutLines (getCore t c) = withoutLines (getCore s c)
  others : ∀ c, (∀ x, (getCore s c).task = some x → x.ctx ≠ ctx) → getCore t c = getCore s c

theorem Map.get_of_mem {α : Type} (d : α) {m : Map α} (hm : Map.rising m = true) {p : Nat × α} (h : p ∈ m) : Map.get d m p.1 = p.2 := by
  induction m with
  | nil => cases h
  | cons q m ih =>
    obtain ⟨ha, hr⟩ := (Map.rising_cons q.1 q.2 m).mp hm
    rcases List.mem_cons.mp h with rfl | h
    · simp [Map.get, Map.find]
    · have hq : p.1 ≠ q.1 := by have := ha p h; omega
      rw [← ih hr h]
      simp [Map.get, Map.find, hq]

theorem writeBackCtx_backs {s : State} (hs : Map.rising s.cores = true) (ctx lo len : Nat) : CtxBacks ctx s (writeBackCtx s ctx lo len) := by
  refine foldl_keeps_on (P := CtxBacks ctx s) (fun t p hp ht => ?_) ⟨rfl, rfl, fun _ => rfl, fun _ _ => rfl⟩
  have hget : getCore s p.1 = p.2 := Map.get_of_mem _ hs hp
  split
  · next x hx =>
    split
    · next hc =>
      obtain ⟨ho, hm, hd, hb⟩ := writeBackIf_backs t p.1 fun l => overlaps (l.1 * 64) 64 lo len || pageHit l.2.handle lo len
      refine ⟨ho.trans ht.outer, hm.trans ht.mmu, fun c => ?_, fun c hx' => ?_⟩
      · by_cases hcp : c = p.1
        · rw [hcp, hb, ht.lines]
        · rw [hd c hcp, ht.lines]
      · have hcp : c ≠ p.1 := fun e => hx' x (by rw [e, hget, hx]) hc
        rw [hd c hcp, ht.others c hx']
    · exact ht
  · exact ht

end Sys2Proof.Machine
end

section
/-! Shootdowns (O41): what step 2 of R28 leaves in every core, in the pins and beside them; the end of a shootdown; the release of a pin. -/

namespace Sys2Proof.Machine

theorem overlaps_iff (a n b m : Nat) : overlaps a n b m = true ↔ Meet a n b m := by simp [overlaps, Meet]

theorem pinHit_iff (p : Pin) (ctx lo len : Nat) : pinHit p ctx lo len = true ↔ Covers p ctx lo len := by
  simp [pinHit, Covers, pageHit, overlaps_iff]

/-! ### Handles and cores -/

/-- A handle whose V a shootdown clears (R28 step 2). -/
def Dropped (ctx lo len : Nat) (x : BitVec 128) : Prop := hV x = true ∧ hCtx x = ctx ∧ Meet (hBase x) (pageSize (hSize x)) lo len

theorem dropHandle_of_dropped {ctx lo len : Nat} {x : BitVec 128} (h : Dropped ctx lo len x) :
    dropHandle ctx lo len x = BitVec.ofNat 128 (x.toNat % 2 ^ 127) := by
  obtain ⟨hv, hc, hm⟩ := h
  simp [dropHandle, hv, hc, (overlaps_iff ..).mpr hm]

theorem dropHandle_of_kept {ctx lo len : Nat} {x : BitVec 128} (h : ¬Dropped ctx lo len x) : dropHandle ctx lo len x = x := by
  refine if_neg fun hd => h ?_
  simpa [Dropped, overlaps_iff, and_assoc] using hd

/-- A dropped handle has lost its V. -/
theorem hV_ofNat_mod (n : Nat) : hV (BitVec.ofNat 128 (n % 2 ^ 127)) = false := by
  have h : n % 2 ^ 127 < 2 ^ 127 := Nat.mod_lt _ (Nat.two_pow_pos 127)
  rw [hV, BitVec.toNat_ofNat, Nat.mod_eq_of_lt (Nat.lt_trans h (by decide)), bit_eq_testBit, Nat.testBit_lt_two_pow h]

theorem dropHandle_ne {ctx lo len : Nat} {x : BitVec 128} (h : Dropped ctx lo len x) : dropHandle ctx lo len x ≠ x := by
  intro he
  have hv := hV_ofNat_mod x.toNat
  rw [← dropHandle_of_dropped h, he, h.1] at hv
  cases hv

theorem shootCore_reset (ctx lo len : Nat) : shootCore ctx lo len Core.reset = Core.reset := by
  have hz : dropHandle ctx lo len 0 = 0 := dropHandle_of_kept fun h => Bool.false_ne_true h.1
  have hh : Core.reset.h.map (dropHandle ctx lo len) = Core.reset.h := by
    show (Vector.replicate 16 0).map _ = _
    rw [Vector.map_replicate, hz]
    rfl
  show { Core.reset with h := Core.reset.h.map (dropHandle ctx lo len) } = Core.reset
  rw [hh]

/-- A core after step 2: its TLB holds no covered leaf, its handles to covered pages have lost V, and no walk in flight keeps a covered outcome. -/
theorem mem_shootCore_tlb {ctx lo len : Nat} {k : Core} {e : TlbE} :
    e ∈ (shootCore ctx lo len k).tlb ↔ e ∈ k.tlb ∧ ¬(e.ctx = ctx ∧ Meet e.base (pageSize e.size) lo len) := by
  refine List.mem_filter.trans (and_congr_right fun _ => ?_)
  rw [← overlaps_iff, Bool.not_eq_true', ← Bool.not_eq_true, Bool.and_eq_true, decide_eq_true_eq]

theorem vget_shootCore_h {ctx lo len i : Nat} (k : Core) (hi : i < 16) :
    vget (shootCore ctx lo len k).h i 0 = dropHandle ctx lo len (vget k.h i 0) := vget_map k.h _ i 0 0 hi

theorem mem_shootCore_hpend {ctx lo len : Nat} {k : Core} {p : HPend} (h : p ∈ (shootCore ctx lo len k).iss.hpend) {v : BitVec 128}
    (hv : p.val = some v) : ¬Dropped ctx lo len v := by
  obtain ⟨q, -, rfl⟩ := List.mem_map.mp h
  obtain ⟨x, -, hx⟩ := Option.bind_eq_some_iff.mp hv
  split at hx
  · next he =>
    obtain rfl := Option.some.inj hx
    exact fun hd => dropHandle_ne hd he
  · cases hx

theorem getCore_of_shot {ctx lo len : Nat} {u t : State} (h : t.cores = u.cores.map fun c => (c.1, shootCore ctx lo len c.2)) (c : Nat) :
    getCore t c = shootCore ctx lo len (getCore u c) := by
  rw [getCore, h, Map.get, Map.find_mapValues, getCore, Map.get]
  cases Map.find u.cores c with
  | none => exact (shootCore_reset ctx lo len).symm
  | some k => rfl

/-! ### Step 2 of a shootdown -/

/-- The contexts in saves, and V of their handles in memory, are all that changes with them (R28, R409). -/
theorem changeSaved_frame (s : State) (f : Core → Core) : ∃ queues dram, changeSaved s f = { s with queues, dram } := by
  unfold changeSaved
  extract_lets all
  have h0 : ∃ queues dram, mapSaved s f = { s with queues, dram } := ⟨_, s.dram, rfl⟩
  refine foldl_keeps_on (P := fun t => ∃ queues dram, t = { s with queues, dram }) (fun t x _ ht => ?_) h0
  refine foldl_keeps_on (P := fun t => ∃ queues dram, t = { s with queues, dram }) (fun t i _ ht => ?_) ht
  obtain ⟨queues, dram, rfl⟩ := ht
  split
  · exact ⟨queues, dram, rfl⟩
  · exact ⟨queues, _, physWrite_frame ..⟩

/-- The pins that a shootdown revokes (R28 step 2, R29). -/
def livePins (s : State) (ctx lo len : Nat) : List Nat :=
  (s.mmu.pins.filter fun p => p.cause.isNone && !p.revoked && pinHit p ctx lo len).map (·.id)

/-- The pins after step 2. -/
def shotPins (s : State) (ctx lo len : Nat) : List Pin :=
  s.mmu.pins.map fun p => if (livePins s ctx lo len).contains p.id then { p with revoked := true } else p

theorem shotPins_revoked {s : State} {ctx lo len : Nat} {p : Pin} (h : p ∈ shotPins s ctx lo len) (hc : p.cause = none)
    (hp : Covers p ctx lo len) : p.revoked = true := by
  obtain ⟨q, hq, rfl⟩ := List.mem_map.mp h
  by_cases hl : (livePins s ctx lo len).contains q.id = true
  · rw [if_pos hl]
  · rw [if_neg hl] at hc hp ⊢
    refine eq_true_of_ne_false fun hr => hl (List.contains_iff_mem.mpr (List.mem_map.mpr ⟨q, List.mem_filter.mpr ⟨hq, ?_⟩, rfl⟩))
    simp [hc, hr, (pinHit_iff ..).mpr hp]

/-- What step 2 makes of the state in which the covered lines have been written back. -/
theorem shootRange_eq (s : State) (ctx lo len : Nat) : ∃ tlbs queues dram es,
    let u := writeBackCtx s ctx lo len
    shootRange s ctx lo len = { u with
      cores := u.cores.map fun c => (c.1, shootCore ctx lo len c.2)
      mmu := { u.mmu with tlbs, pins := shotPins u ctx lo len }
      queues, dram, agenda := u.agenda ++ es } := by
  unfold shootRange
  extract_lets u live before _ v w
  obtain ⟨queues, dram, hw⟩ := changeSaved_frame v (shootCore ctx lo len)
  exact ⟨_, queues, dram, _, congrArg (due · _) hw⟩

/-! ### The start of a shootdown -/

/-- The state in which a shootdown has entered the list of those in progress. -/
def listed (s : State) (r : ShootReq) : State :=
  { s with mmu := { s.mmu with nextId := s.mmu.nextId + 1, shoots := s.mmu.shoots ++ [{ id := s.mmu.nextId, req := r }] } }

/-- What SHOOTDOWN_START leaves of a state, over the range from `lo` on (R28 steps 1 and 2). -/
structure Started (s t : State) (r : ShootReq) (lo len : Nat) : Prop where
  outer  : outer t = outer s
  shoots : t.mmu.shoots = s.mmu.shoots ++ [{ id := s.mmu.nextId, req := r }]
  last   : t.agenda.getLast? = some (.shootdownComplete s.mmu.nextId)
  pins   : ∃ u, t.mmu.pins = shotPins u r.ctx lo len
  cores  : ∃ u, CtxBacks r.ctx (listed s r) u ∧ ∀ c, getCore t c = shootCore r.ctx lo len (getCore u c)

theorem shootdownStart_go {s : State} {r : ShootReq} (h : s.mmu.shoots.length < 16) :
    execShootdownStart.go r s = .next (due { shootRange (listed s r) r.ctx (shootSpan r).1 (shootSpan r).2 with
      agenda := (shootRange (listed s r) r.ctx (shootSpan r).1 (shootSpan r).2).agenda.filter fun e =>
        !walkIn (shootRange (listed s r) r.ctx (shootSpan r).1 (shootSpan r).2) r.ctx e } [.shootdownComplete s.mmu.nextId]) :=
  if_neg (Nat.not_le.mpr h)

theorem shootdownStart_legal {s : State} {r : ShootReq} (h : ∀ tag, r.src = .host tag → r.ctx < 256 ∧ r.vpn < 2 ^ 36 ∧ r.units < 2 ^ 25) :
    exec (.shootdownStart r) s = execShootdownStart.go r s := by
  show execShootdownStart r s = _
  unfold execShootdownStart
  split
  · next tag hr =>
    obtain ⟨hc, hv, hu⟩ := h tag hr
    exact if_neg (by omega)
  · rfl

theorem shootdownStart_starts {s : State} {r : ShootReq} (hs : Map.rising s.cores = true)
    (h : ∀ tag, r.src = .host tag → r.ctx < 256 ∧ r.vpn < 2 ^ 36 ∧ r.units < 2 ^ 25) (hn : s.mmu.shoots.length < 16) :
    ∃ t, exec (.shootdownStart r) s = .next t ∧ Started s t r (shootSpan r).1 (shootSpan r).2 := by
  refine ⟨_, (shootdownStart_legal h).trans (shootdownStart_go hn), ?_⟩
  have hb := writeBackCtx_backs (s := listed s r) hs r.ctx (shootSpan r).1 (shootSpan r).2
  obtain ⟨tlbs, queues, dram, es, he⟩ := shootRange_eq (listed s r) r.ctx (shootSpan r).1 (shootSpan r).2
  rw [he]
  refine ⟨hb.outer, ?_, List.getLast?_concat .., ⟨_, rfl⟩, _, hb, getCore_of_shot rfl⟩
  show (writeBackCtx (listed s r) r.ctx _ _).mmu.shoots = _
  rw [hb.mmu]
  rfl

/-- The fields of a core that step 2 and the write-back of its lines change. -/
theorem shootCore_of_lines {ctx lo len : Nat} {k k' j : Core} (h : withoutLines k' = withoutLines k) (hj : j = shootCore ctx lo len k') :
    j = { k with tlb := j.tlb, h := j.h, cmds := j.cmds, plain := j.plain, lastRead := j.lastRead, iss := { k.iss with hpend := j.iss.hpend } } := by
  have hk := eq_of_withoutLines h
  generalize k'.plain = x at hk
  generalize k'.lastRead = y at hk
  subst hk hj
  rfl

section
variable {s t : State} {r : ShootReq} {lo len : Nat} (h : Started s t r lo len)
include h

theorem Started.core (c : Nat) : getCore t c = { getCore s c with
    tlb := (getCore t c).tlb, h := (getCore t c).h, cmds := (getCore t c).cmds, plain := (getCore t c).plain
    lastRead := (getCore t c).lastRead, iss := { (getCore s c).iss with hpend := (getCore t c).iss.hpend } } := by
  obtain ⟨u, hu, hc⟩ := h.cores
  exact shootCore_of_lines (hu.lines c) (hc c)

theorem Started.tlb (c : Nat) (e : TlbE) :
    e ∈ (getCore t c).tlb ↔ e ∈ (getCore s c).tlb ∧ ¬(e.ctx = r.ctx ∧ Meet e.base (pageSize e.size) lo len) := by
  obtain ⟨u, hu, hc⟩ := h.cores
  have hl : (getCore u c).tlb = (getCore s c).tlb := (congrArg Core.tlb (hu.lines c) :)
  rw [hc, mem_shootCore_tlb, hl]

theorem Started.handle (c : Nat) {i : Nat} (hi : i < 16) :
    vget (getCore t c).h i 0 = dropHandle r.ctx lo len (vget (getCore s c).h i 0) := by
  obtain ⟨u, hu, hc⟩ := h.cores
  have hl : (getCore u c).h = (getCore s c).h := (congrArg Core.h (hu.lines c) :)
  rw [hc, vget_shootCore_h _ hi, hl]

theorem Started.others (c : Nat) (hx : ∀ x, (getCore s c).task = some x → x.ctx ≠ r.ctx) :
    (getCore t c).plain = (getCore s c).plain ∧ (getCore t c).lastRead = (getCore s c).lastRead := by
  obtain ⟨u, hu, hc⟩ := h.cores
  have hl : getCore u c = getCore s c := hu.others c hx
  rw [hc, hl]
  exact ⟨rfl, rfl⟩

theorem Started.inFlight (c : Nat) (p : HPend) (hp : p ∈ (getCore t c).iss.hpend) (v : BitVec 128) (hv : p.val = some v) :
    ¬Dropped r.ctx lo len v := by
  obtain ⟨u, -, hc⟩ := h.cores
  rw [hc] at hp
  exact mem_shootCore_hpend hp hv

theorem Started.revokes (p : Pin) (hp : p ∈ t.mmu.pins) (hc : p.cause = none) (hr : Covers p r.ctx lo len) : p.revoked = true := by
  obtain ⟨u, hu⟩ := h.pins
  exact shotPins_revoked (hu ▸ hp) hc hr

end

/-- A seventeenth shootdown of a core waits (R27). -/
theorem shootdownStart_waits {s : State} {r : ShootReq} (hn : s.mmu.shoots.length = 16) (hr : ∀ tag, r.src ≠ .host tag) :
    exec (.shootdownStart r) s = .next { s with agenda := .shootdownStart r :: s.agenda } := by
  rw [shootdownStart_legal fun tag ht => absurd ht (hr tag)]
  exact if_pos (Nat.le_of_eq hn.symm)

/-! ### The end of a shootdown -/

/-- What a shootdown waits for (R28 steps 3 and 4): a revoked pin of its range, or a write made through a page of it. -/
def Pinned (s : State) (ctx lo len : Nat) : Prop := ∃ p ∈ s.mmu.pins, p.revoked = true ∧ Covers p ctx lo len
def Writing (s : State) (lo len : Nat) : Prop :=
  ∃ l ∈ s.fab.lines, l.data.isSome = true ∧ (Meet l.src l.len lo len ∨ Meet l.page.1 l.page.2 lo len)

theorem pinsOn_isEmpty_iff (s : State) (ctx lo len : Nat) : (pinsOn s ctx lo len).isEmpty = true ↔ ¬Pinned s ctx lo len := by
  simp [pinsOn, Pinned, ← pinHit_iff]

theorem writesOut_iff (s : State) (lo len : Nat) : writesOut s lo len = true ↔ Writing s lo len := by
  simp [writesOut, Writing, ← overlaps_iff]

theorem restartWalks_due (s : State) (ctx : Nat) :
    ∃ es, restartWalks s ctx = { s with agenda := s.agenda ++ es } ∧ ∀ e ∈ es, ∃ c n, e = .pageWalkComplete c n := by
  refine ⟨_, rfl, fun e he => ?_⟩
  obtain ⟨c, -, he⟩ := List.mem_flatMap.mp he
  split at he
  · split at he
    · obtain ⟨p, -, rfl⟩ := List.mem_map.mp (List.mem_filter.mp he).1
      exact ⟨_, _, rfl⟩
    · cases he
  · cases he

/-- The walks of a context go on where no other shootdown of it is in progress (R28 step 5). -/
def walksAgain (s : State) (ctx : Nat) : State := if s.mmu.shoots.any fun y => y.req.ctx = ctx then s else restartWalks s ctx

theorem walksAgain_due (s : State) (ctx : Nat) :
    ∃ es, walksAgain s ctx = { s with agenda := s.agenda ++ es } ∧ ∀ e ∈ es, ∃ c n, e = .pageWalkComplete c n := by
  unfold walksAgain
  split
  · exact ⟨[], by rw [List.append_nil], by simp⟩
  · exact restartWalks_due s ctx

/-- A shootdown that has ended is answered: BUSY of the core clears, or the host's channel answers. -/
def shootAnswered (src : Requester) (s : State) : State :=
  match src with
  | .host tag => answerHost s 3 tag mgOk []
  | .core c => setCore s c { getCore s c with mreg := { (getCore s c).mreg with sdBusy := false } }

section
variable {s : State} {r : ShootReq} {id : Nat} {rest : List Shoot} (hs : s.mmu.shoots = { id, req := r } :: rest)
include hs

theorem shootdownComplete_found : (s.mmu.shoots.find? fun x => x.id = id) = some { id, req := r } := by simp [hs]

theorem shootdownComplete_waits (h : Pinned s r.ctx (shootSpan r).1 (shootSpan r).2 ∨ Writing s (shootSpan r).1 (shootSpan r).2) :
    exec (.shootdownComplete id) s = .next { s with agenda := s.agenda ++ [.shootdownComplete id] } := by
  show execShootdownComplete id s = _
  simp only [execShootdownComplete, shootdownComplete_found hs]
  refine if_pos ?_
  rcases h with h | h
  · have := Bool.eq_false_iff.mpr fun he => (pinsOn_isEmpty_iff ..).mp he h
    simp [this]
  · simp [(writesOut_iff ..).mpr h]

theorem shootdownComplete_ends (hid : ∀ x ∈ rest, x.id ≠ id) (hp : ¬Pinned s r.ctx (shootSpan r).1 (shootSpan r).2)
    (hw : ¬Writing s (shootSpan r).1 (shootSpan r).2) :
    ∃ t es u, exec (.shootdownComplete id) s = .next t ∧ (∀ e ∈ es, ∃ c n, e = .pageWalkComplete c n) ∧
      u = { s with mmu := { s.mmu with shoots := rest }, old := [], agenda := s.agenda ++ es } ∧
      (∀ tag, r.src = .host tag → t = { u with fab := { u.fab with out := u.fab.out ++ [.mgmt 3 tag 0 []] } }) ∧
      (∀ c, r.src = .core c → OnlyCore u t c { getCore s c with mreg := { (getCore s c).mreg with sdBusy := false } }) := by
  have hfilter : (s.mmu.shoots.filter fun y => decide (y.id ≠ id)) = rest := by
    rw [hs, List.filter_cons_of_neg (by simp), List.filter_eq_self]
    exact fun x hx => decide_eq_true (hid x hx)
  have hgo : ¬((s.mmu.shoots.head?.map (·.id) ≠ some id || !(pinsOn s r.ctx (shootSpan r).1 (shootSpan r).2).isEmpty
      || writesOut s (shootSpan r).1 (shootSpan r).2) = true) := by
    simp [hs, (pinsOn_isEmpty_iff ..).mpr hp, Bool.eq_false_iff.mpr fun h => hw ((writesOut_iff ..).mp h)]
  obtain ⟨es, hes, hwalk⟩ := walksAgain_due { s with mmu := { s.mmu with shoots := rest }, old := [] } r.ctx
  have he : exec (.shootdownComplete id) s =
      .next (shootAnswered r.src (walksAgain { s with mmu := { s.mmu with shoots := rest }, old := [] } r.ctx)) := by
    show execShootdownComplete id s = _
    simp only [execShootdownComplete, shootdownComplete_found hs]
    rw [if_neg hgo, hfilter]
    cases r.src <;> rfl
  rw [hes] at he
  refine ⟨_, es, _, he, hwalk, rfl, fun tag ht => by rw [ht]; rfl, fun c hc => ?_⟩
  rw [hc]
  exact ⟨rfl, fun d hd => getCore_setCore_ne _ _ fun e => hd e.symm, getCore_setCore_self ..⟩

end

/-! ### The release of a pin -/

/-- With no page DRAINING, none becomes FREE (R135). -/
theorem drainCheck_none {s : State} (h : s.mmu.defer = []) : drainCheck s = s := by
  have hd : drainCheck s = { s with mmu := { s.mmu with defer := [] } } := by
    simp only [drainCheck, h, List.filter_nil, List.foldl_nil]
  rw [hd, ← h]

theorem replaced_frame (s : State) (e : TlbE) (now : TOut) (va : Nat) : ∃ free, (replaced s e now va).1 = { s with free } := by
  unfold replaced
  split
  · exact ⟨s.free, rfl⟩
  · exact ⟨_, rfl⟩

/-- What a translation by a die may change: what the TLBs hold, the heat of leaves in memory, and which free choices have been made
(R20, R22). -/
def Translates (s t : State) : Prop := ∃ tlbs dram free, t = { s with mmu := { s.mmu with tlbs }, dram, free }

theorem Translates.seen {s u : State} (h : Translates s u) (die ctx : Nat) (e : TlbE) (intent : BitVec 2) :
    Translates s (seen u die ctx e intent) := by
  obtain ⟨_, _, free, rfl⟩ := h
  obtain ⟨tlbs, dram, h⟩ := seen_frame _ die ctx e intent
  exact ⟨tlbs, dram, free, h⟩

theorem dieTranslate_frame (s : State) (die ctx va : Nat) (intent : BitVec 2) : Translates s (dieTranslate s die ctx va intent).1 := by
  have hrefl : Translates s s := ⟨s.mmu.tlbs, s.dram, s.free, rfl⟩
  have hput (e : TlbE) (tlbs : Map (List TlbE)) : Translates s (replaced s e (walk s ctx va) va).1 ∧
      Translates s { (replaced s e (walk s ctx va) va).1 with mmu := { (replaced s e (walk s ctx va) va).1.mmu with tlbs } } := by
    obtain ⟨free, hr⟩ := replaced_frame s e (walk s ctx va) va
    rw [hr]
    exact ⟨⟨s.mmu.tlbs, s.dram, free, rfl⟩, tlbs, s.dram, free, rfl⟩
  unfold dieTranslate
  split
  · exact hrefl
  · cases hw : walk s ctx va with
    | ok leaf size addr =>
      rw [hw] at hput
      dsimp only
      split
      · exact hrefl.seen ..
      · next e he =>
        split
        · exact (hput e _).2.seen ..
        · exact (hput e []).1.seen ..
    | no c =>
      rw [hw] at hput
      dsimp only
      split
      · exact hrefl
      · next e he =>
        split
        · exact (hput e _).2
        · exact (hput e []).1.seen ..

/-- An agent takes a pin that it does not hold (R29, R345). -/
theorem pinUnit_adds {s : State} {ag : Agent} {ctx va : Nat} {write : Bool} (h64 : va % 65536 = 0) (hm : write = true → movingAt s ctx va = false)
    (hp : ∀ q ∈ s.mmu.pins, ¬(q.owner = ag.owner ∧ q.ctx = ctx ∧ q.base = va ∧ q.write = write)) :
    ∃ p, (pinUnit s ag ctx va write none).mmu.pins = s.mmu.pins ++ [p] ∧ p.ctx = ctx ∧ p.base = va ∧ p.write = write ∧
      p.owner = ag.owner ∧ p.revoked = false := by
  have hb : va / 65536 * 65536 = va := Nat.div_mul_cancel (Nat.dvd_of_mod_eq_zero h64)
  have hgo : ¬(((write && movingAt s ctx va) || s.mmu.pins.any fun p => p.owner = ag.owner && p.ctx = ctx && p.base = va && p.write = write) = true) := by
    simp only [Bool.or_eq_true, Bool.and_eq_true, List.any_eq_true, decide_eq_true_eq, not_or, not_exists, not_and]
    refine ⟨fun hw => by rw [hm hw]; exact Bool.false_ne_true, ?_⟩
    rintro q hq ⟨⟨ho, hc⟩, hb⟩ hw
    exact hp q hq ⟨ho, hc, hb, hw⟩
  obtain ⟨tlbs, dram, free, ht⟩ := dieTranslate_frame s (dieOf ag.acc va) ctx va (if write then 1 else 0)
  unfold pinUnit
  rw [hb]
  dsimp only
  rw [if_neg hgo]
  refine ⟨_, congrArg (· ++ [_]) ?_, rfl, rfl, rfl, rfl, rfl⟩
  show (dieTranslate s _ _ _ _).1.mmu.pins = _
  rw [ht]

section
variable {s : State} {p : Pin} (hp : p ∈ s.mmu.pins) (hid : ∀ q ∈ s.mmu.pins, q.id = p.id → q = p) (hd : s.mmu.defer = [])
include hp hid hd

/-- A pin that is released goes, and its agent goes on where a shootdown has revoked it (R29, R30). -/
theorem streamPinRelease_eq : exec (.streamPinRelease p.id) s =
    let t := { s with mmu := { s.mmu with pins := s.mmu.pins.filter fun q => q.id ≠ p.id } }
    .next (if p.revoked then match pinAgent s p with | none => t | some ag => pinUnit t ag p.ctx p.base p.write none else t) := by
  have hf : s.mmu.pins.find? (fun q => decide (q.id = p.id)) = some p := by
    cases hq : s.mmu.pins.find? fun q => decide (q.id = p.id) with
    | none => exact absurd (decide_eq_true rfl) (List.find?_eq_none.mp hq p hp)
    | some q =>
      rw [hid q (List.mem_of_find?_eq_some hq) (of_decide_eq_true (List.find?_some hq :))]
  show execStreamPinRelease p.id s = _
  unfold execStreamPinRelease
  rw [hf]
  dsimp only
  rw [drainCheck_none (s := { s with mmu := { s.mmu with pins := s.mmu.pins.filter fun q => q.id ≠ p.id } }) hd]
  have ha : pinAgent { s with mmu := { s.mmu with pins := s.mmu.pins.filter fun q => q.id ≠ p.id } } p = pinAgent s p := rfl
  rw [ha]
  cases p.revoked with
  | false => rfl
  | true => cases pinAgent s p <;> rfl

/-- A pin that no shootdown has revoked, or whose agent has gone, is released alone. -/
theorem streamPinRelease_goes (h : p.revoked = false ∨ localOf s p.owner = none) :
    exec (.streamPinRelease p.id) s = .next { s with mmu := { s.mmu with pins := s.mmu.pins.filter fun q => q.id ≠ p.id } } := by
  rw [streamPinRelease_eq hp hid hd]
  rcases h with h | h
  · simp [h]
  · simp [pinAgent, h]

/-- The agent of a revoked pin that goes on takes its page anew (R29, R30). -/
theorem streamPinRelease_renews {l : Local} (hr : p.revoked = true) (hl : localOf s p.owner = some l)
    (hm : p.write = true → movingAt s p.ctx p.base = false) (h64 : p.base % 65536 = 0)
    (hn : ∀ q ∈ s.mmu.pins.filter fun q => q.id ≠ p.id, ¬(q.owner = l.ag.owner ∧ q.ctx = p.ctx ∧ q.base = p.base ∧ q.write = p.write)) :
    ∃ t p', exec (.streamPinRelease p.id) s = .next t ∧ t.mmu.pins = (s.mmu.pins.filter fun q => q.id ≠ p.id) ++ [p'] ∧ p'.ctx = p.ctx ∧
      p'.base = p.base ∧ p'.write = p.write ∧ p'.owner = l.ag.owner ∧ p'.revoked = false := by
  have ha : pinAgent s p = some { l.ag with acc := pinAccessor s p l } := by rw [pinAgent, hl]; rfl
  obtain ⟨p', hadds⟩ := pinUnit_adds (s := { s with mmu := { s.mmu with pins := s.mmu.pins.filter fun q => q.id ≠ p.id } })
    (ag := { l.ag with acc := pinAccessor s p l }) h64 hm hn
  refine ⟨_, p', ?_, hadds⟩
  rw [streamPinRelease_eq hp hid hd, hr, ha]
  rfl

end

end Sys2Proof.Machine

open Sys2Proof Sys2Proof.Machine

/-- Settles O41: the start by what step 2 of R28 leaves (`Started`), its end by what it waits for, and the release of a pin. -/
theorem shootdowns : Obligations.Shootdowns := by
  intro s r hs lo len
  have hlo : lo = (shootSpan r).1 := by unfold lo shootSpan; split <;> rfl
  have hlen : len = (shootSpan r).2 := by unfold len shootSpan; split <;> rfl
  clear_value lo len
  subst hlo hlen
  refine ⟨fun hl hn => ?_, fun hn hr => ⟨_, shootdownStart_waits hn hr, rfl⟩, fun id rest hsh hid => ⟨fun hw => ?_, ?_⟩, fun p hp hid hd => ⟨?_, ?_⟩⟩
  · obtain ⟨t, he, ht⟩ := shootdownStart_starts hs hl hn
    refine ⟨t, he, ht.shoots, ht.last, ht.core, ht.tlb, fun c i hi => ?_, ht.others, fun c p hp v hv hV hc hm => ht.inFlight c p hp v hv ⟨hV, hc, hm⟩,
      ht.revokes, eq_withDram_of_outer ht.outer⟩
    dsimp only
    rw [ht.handle c hi]
    split
    · next hd => exact dropHandle_of_dropped hd
    · next hd => exact dropHandle_of_kept hd
  · exact ⟨_, shootdownComplete_waits hsh hw, rfl⟩
  · exact shootdownComplete_ends hsh hid
  · exact fun h => ⟨_, streamPinRelease_goes hp hid hd h, rfl⟩
  · exact fun l => streamPinRelease_renews hp hid hd
end
